-- ==== Sys2Proof/Word.lean ====
section
/-! DEFINITION. The word types of the Kolrax (R3, R77, R87) and their plainest arithmetic. -/

namespace Sys2Proof

/-- The unit of byte-addressed memory (R3). -/
abbrev Byte := BitVec 8

/-- A scalar register, a vector element or an accumulator element (R87, R89, R151). -/
abbrev Word := BitVec 32

/-- A register pair, an address or an instruction word (R77, R87). -/
abbrev DWord := BitVec 64

end Sys2Proof
end

