-- ==== Sys2Proof/Syntax.lean ====
section
/-! DEFINITION. The instructions of the Kolrax: one constructor per row of spec/opcode_table.json.
The first part holds the instruction words of R104 to R117, each with its wait and signal byte (R77, R78).
The last part holds the events of the table, which are no instruction words: what the sequencers' engines,
the die's units, the links and the host do (95_what_each_step_holds.md). -/

namespace Sys2Proof

/-- The wait and signal bytes, bits [63:48] of every word (R77, R78). -/
structure Ctl where
  wsel : Nat
  wcnt : Nat
  ssel : Nat
  scnt : Nat
  deriving DecidableEq, Repr

/-- The four sequencers of a core (R14, R21). -/
inductive SeqId where
  | L | X | S | C
  deriving DecidableEq, Repr, Inhabited

/-- The conditions of CMP and VCMP (R106, R110); `un` is VCMP's alone. -/
inductive Cond where
  | eq | ne | lt | le | gt | ge | un
  deriving DecidableEq, Repr

/-- The rounding modes of the RM field (R85, R127). -/
inductive Rm where
  | rne | rtz | rdn | rup | rna | sr
  deriving DecidableEq, Repr

/-- The element types of the TY field (R84). -/
inductive Ty where
  | i32 | n32 | i64 | n64 | i16 | n16 | i8 | n8 | f32 | f16 | bf16 | b32
  deriving DecidableEq, Repr

/-- The access sizes of the SZ field (R82). -/
inductive MSize where
  | b1 | b2 | b4 | b8
  deriving DecidableEq, Repr

/-- A vector or predicate register field with its rotation flag (R84, R96). -/
structure RReg where
  n : Nat
  rot : Bool
  deriving DecidableEq, Repr

/-- The target of BR and CALL (R83). -/
inductive BTarget where
  | rel (off : BitVec 32)
  | ind (cr : Nat) (off : BitVec 32)
  deriving DecidableEq, Repr

/-- The reductions of the axis family (R111). -/
inductive RedOp where
  | add | min | max
  deriving DecidableEq, Repr

/-- The sets of VAMAX (R364). -/
inductive AmaxSet where
  | row | blk | all
  deriving DecidableEq, Repr

/-- The fields of an atomic (R109, R298). `w64` is SZ 11b. -/
structure AtomF where
  w64 : Bool
  rd : Nat
  bp : Nat
  ac : Nat
  scope : Nat
  off : BitVec 19
  deriving DecidableEq, Repr

/-- The fields of a plain load or store of format M (R82). -/
structure MemF where
  sz : MSize
  rd : Nat
  bp : Nat
  ac : Nat
  off : BitVec 24
  deriving DecidableEq, Repr

/-- The fields of an engine command of format E (R86). -/
structure EngF where
  grp : Nat
  ctr : Nat
  acq : Bool
  rel : Bool
  scope : Nat
  buf : Nat
  rd : Nat
  deriving DecidableEq, Repr

/-- A three-operand vector instruction without a rounding field (R84, R110). -/
structure VF where
  ty : Ty
  vd : RReg
  va : RReg
  vb : RReg
  pr : RReg
  deriving DecidableEq, Repr

/-- A two-operand vector instruction (R84, R110). -/
structure VF2 where
  ty : Ty
  vd : RReg
  va : RReg
  pr : RReg
  deriving DecidableEq, Repr

/-- A vector memory instruction (R111, R377). -/
structure VMemF where
  ty : Ty
  vd : RReg
  b : Nat
  ac : Nat
  pr : RReg
  deriving DecidableEq, Repr

/-- What a received data flit says of its message (R54, R250, R251): the fields of bytes 6–15, whose placement
the spec does not give, as one record. -/
structure MsgHdr where
  tag : Nat
  phase : Nat
  tensor : Nat
  length : Nat
  deriving DecidableEq, Repr

/-- Where an error strikes (R282). -/
inductive ErrPlace where
  | memory (granule : Nat)
  | localStore (core granule : Nat)
  | gReg (core : Nat) (seq : SeqId) (n : Nat)
  | vReg (core n pos : Nat)
  | acc (core pos : Nat)
  deriving DecidableEq, Repr

/-- How a publication that is acknowledged has ended: its status, and the granules written before a failure (R250). -/
structure AckOf where
  code : Nat
  prog : Nat
  deriving DecidableEq, Repr

/-- The channel that a collective flit comes on, and the die it is for (R251). -/
structure FlitWay where
  chan : Nat
  die : Nat
  deriving DecidableEq, Repr

/-- Where the host accesses the device: a BAR, the offset in it, and how many bytes (R284). -/
structure HostPlace where
  bar : Nat
  off : Nat
  n : Nat
  deriving DecidableEq, Repr

inductive Instr where
  -- NOP and scalar integer (R105, R106)
  | nop (c : Ctl)
  | add (c : Ctl) (w : Bool) (rd ra rb : Nat)
  | sub (c : Ctl) (w : Bool) (rd ra rb : Nat)
  | and (c : Ctl) (w : Bool) (rd ra rb : Nat)
  | or (c : Ctl) (w : Bool) (rd ra rb : Nat)
  | xor (c : Ctl) (w : Bool) (rd ra rb : Nat)
  | shl (c : Ctl) (w : Bool) (rd ra rb : Nat)
  | shr (c : Ctl) (w : Bool) (rd ra rb : Nat)
  | sra (c : Ctl) (w : Bool) (rd ra rb : Nat)
  | mul (c : Ctl) (w : Bool) (rd ra rb : Nat)
  | mulh (c : Ctl) (w u : Bool) (rd ra rb : Nat)
  | div (c : Ctl) (w u : Bool) (rd ra rb : Nat)
  | rem (c : Ctl) (w u : Bool) (rd ra rb : Nat)
  | min (c : Ctl) (w u : Bool) (rd ra rb : Nat)
  | max (c : Ctl) (w u : Bool) (rd ra rb : Nat)
  | cmp (c : Ctl) (w u : Bool) (cond : Cond) (rd ra rb : Nat)
  | sel (c : Ctl) (w : Bool) (rd ra rb rc : Nat)
  | clz (c : Ctl) (w : Bool) (rd ra : Nat)
  | popc (c : Ctl) (w : Bool) (rd ra : Nat)
  | movi (c : Ctl) (rd : Nat) (imm : BitVec 24)
  | moviHi (c : Ctl) (rd : Nat) (imm : BitVec 16)
  | addi (c : Ctl) (rd ra : Nat) (imm : BitVec 24)
  | addp (c : Ctl) (rd ra : Nat) (imm : BitVec 24)
  -- branch and loop (R107)
  | br (c : Ctl) (t : BTarget)
  | bz (c : Ctl) (cr : Nat) (off : BitVec 32)
  | bnz (c : Ctl) (cr : Nat) (off : BitVec 32)
  | call (c : Ctl) (t : BTarget)
  | ret (c : Ctl)
  | loop (c : Ctl) (off : BitVec 32)
  | looph (c : Ctl) (rd ra rb rc : Nat)
  | loopt (c : Ctl) (k : Nat) (off : BitVec 32)
  -- scalar memory and atomics (R108, R109)
  | ld (c : Ctl) (m : MemF)
  | ldZeroExtending (c : Ctl) (m : MemF)
  | st (c : Ctl) (m : MemF)
  | aadd (c : Ctl) (a : AtomF)
  | amin (c : Ctl) (a : AtomF)
  | aminUnsigned (c : Ctl) (a : AtomF)
  | amax (c : Ctl) (a : AtomF)
  | amaxUnsigned (c : Ctl) (a : AtomF)
  | aand (c : Ctl) (a : AtomF)
  | aor (c : Ctl) (a : AtomF)
  | axchg (c : Ctl) (a : AtomF)
  | acas (c : Ctl) (a : AtomF)
  | afadd (c : Ctl) (bf16 sr : Bool) (a : AtomF)
  -- vector and predicate (R110, R111)
  | vadd (c : Ctl) (rm : Rm) (sat : Bool) (f : VF)
  | vsub (c : Ctl) (rm : Rm) (sat : Bool) (f : VF)
  | vmul (c : Ctl) (rm : Rm) (sat : Bool) (f : VF)
  | vfma (c : Ctl) (rm : Rm) (f : VF) (vc : RReg)
  | vmin (c : Ctl) (f : VF)
  | vmax (c : Ctl) (f : VF)
  | vabs (c : Ctl) (rm : Rm) (sat : Bool) (f : VF2)
  | vneg (c : Ctl) (rm : Rm) (sat : Bool) (f : VF2)
  | vand (c : Ctl) (f : VF)
  | vor (c : Ctl) (f : VF)
  | vxor (c : Ctl) (f : VF)
  | vshl (c : Ctl) (f : VF)
  | vshr (c : Ctl) (f : VF)
  | vsra (c : Ctl) (f : VF)
  | vcmp (c : Ctl) (cond : Cond) (f : VF)
  | vsel (c : Ctl) (f : VF)
  | vcvt (c : Ctl) (dst : Ty) (rm : Rm) (f : VF2)
  | vmov (c : Ctl) (f : VF2)
  | vmovi (c : Ctl) (ty : Ty) (vd : Nat) (imm : BitVec 24)
  | vget (c : Ctl) (ty : Ty) (g : Nat) (v : RReg) (p : Nat)
  | vput (c : Ctl) (ty : Ty) (g : Nat) (v : RReg) (p : Nat)
  | vexp (c : Ctl) (f : VF2)
  | vlog (c : Ctl) (f : VF2)
  | vrcp (c : Ctl) (f : VF2)
  | vrsq (c : Ctl) (f : VF2)
  | vtanh (c : Ctl) (f : VF2)
  | verf (c : Ctl) (f : VF2)
  | vrrot (c : Ctl) (amt : Nat) (f : VF2)
  | vrbc (c : Ctl) (amt : Nat) (f : VF2)
  | vrred (c : Ctl) (op : RedOp) (f : VF2)
  | vcrot (c : Ctl) (amt : Nat) (f : VF2)
  | vcbc (c : Ctl) (amt : Nat) (f : VF2)
  | vcred (c : Ctl) (op : RedOp) (f : VF2)
  | vtrn16 (c : Ctl) (f : VF2)
  | vamax (c : Ctl) (m : AmaxSet) (f : VF2)
  | vqnt (c : Ctl) (fmt : Nat) (rm : Rm) (f : VF)
  | vdqnt (c : Ctl) (fmt : Nat) (f : VF)
  | vld (c : Ctl) (f : VMemF)
  | vst (c : Ctl) (f : VMemF)
  | vldm (c : Ctl) (pq : Nat) (f : VMemF)
  | vstm (c : Ctl) (f : VMemF)
  | voptw (c : Ctl) (sr : Bool) (grp : Nat) (f : VF) (vc : RReg)
  | pand (c : Ctl) (pd pa pb pr : RReg)
  | por (c : Ctl) (pd pa pb pr : RReg)
  | pnot (c : Ctl) (pd pa pr : RReg)
  | pset (c : Ctl) (pd : RReg) (n : Nat) (pr : RReg)
  -- matrix and accumulator (R112)
  | mldb (c : Ctl) (sa pn : Nat) (tx : Bool)
  | mma (c : Ctl) (sa pn tile : Nat) (tx zc sat : Bool)
  | mscfg (c : Ctl) (n : Nat)
  | msamp (c : Ctl) (rd sa pn tile : Nat) (tx zc : Bool)
  | accz (c : Ctl) (tile : Nat)
  | accrd (c : Ctl) (tile : Nat) (rm : Rm) (sat : Bool) (fmt : Option Nat) (vd : Nat)
  | accwr (c : Ctl) (tile : Nat) (fmt : Option Nat) (vs : Nat)
  | accq (c : Ctl) (sa sb tile : Nat) (rm : Rm) (fmt : Option Nat) (blk : Bool)
  | accst (c : Ctl) (sa tile : Nat)
  | accld (c : Ctl) (sa tile : Nat)
  -- stream and tensor (R113)
  | strcfg (c : Ctl) (n ra : Nat) (imm : BitVec 24)
  | strset (c : Ctl) (n ra w : Nat)
  | strld (c : Ctl) (sa sb : Nat) (tx : Bool)
  | strst (c : Ctl) (sa sb : Nat)
  | stradv (c : Ctl) (sa k : Nat)
  | tilereq (c : Ctl) (grp ctr buf rd : Nat) (w hb : Bool)
  | pgreq (c : Ctl) (grp ctr buf rd : Nat) (w : Bool)
  -- engines (R114)
  | cpy (c : Ctl) (e : EngF)
  | cpyr (c : Ctl) (e : EngF)
  | stash (c : Ctl) (e : EngF)
  | stfetch (c : Ctl) (e : EngF)
  | stdrop (c : Ctl) (e : EngF)
  | chsend (c : Ctl) (e : EngF)
  | chrecv (c : Ctl) (e : EngF)
  | chrel (c : Ctl) (e : EngF)
  | coll (c : Ctl) (e : EngF)
  | prst (c : Ctl) (e : EngF)
  -- tasks, scheduler, trace, versions (R115)
  | tqpop (c : Ctl) (rd : Nat) (timeout : Option Nat)
  | tqpush (c : Ctl) (rd ra : Nat)
  | tarm (c : Ctl) (rd ra rb : Nat)
  | tdone (c : Ctl) (ra : Nat)
  | ttrig (c : Ctl)
  | mbpost (c : Ctl) (grp rd : Nat)
  | pennLoad (c : Ctl) (rd ra rb : Nat)
  | pennStart (c : Ctl) (rd ra : Nat)
  | pennStop (c : Ctl) (rd ra : Nat)
  | pennUnload (c : Ctl) (rd ra : Nat)
  | pennStat (c : Ctl) (rd ra : Nat)
  | relaunch (c : Ctl) (rd ra : Nat)
  | traceAdd (c : Ctl) (ra rb rc : Nat)
  | tracePath (c : Ctl) (ra : Nat)
  | vernew (c : Ctl) (rd ra : Nat)
  | verpin (c : Ctl) (rd ra rb rc slot : Nat)
  | verdrop (c : Ctl) (rd ra rb : Nat)
  -- synchronisation (R116)
  | phase (c : Ctl) (scope : Nat) (acq rel : Bool)
  | fence (c : Ctl) (ld st eng : Bool)
  | bar (c : Ctl) (scope : Nat) (acq rel : Bool) (rd ra : Nat) (timeout : Option Nat)
  | icinv (c : Ctl)
  -- system (R117)
  | sysr (c : Ctl) (rd num md : Nat)
  | sysw (c : Ctl) (rs num md : Nat)
  | xlinv (c : Ctl) (rs md : Nat)
  | trap (c : Ctl) (code : BitVec 16)
  | eret (c : Ctl)
  | sleep (c : Ctl) (ra : Nat)
  -- EVENTS: boot and control space
  | boot (fail : Nat) (svn : BitVec 16) (ports : BitVec 8)
  | sectorStart (die sector : Nat)
  | registerWrite (die off : Nat) (v : DWord)
  | registerWindowWrite (core off : Nat) (v : DWord)
  | corectlReset (core : Nat)
  | corectlStart (core : Nat)
  | preemptionRequestDie (die : Nat)
  | preemptionRequestPackage
  | framecfgWrite (die : Nat) (v : DWord)
  | l2seedWrite (die : Nat) (v : DWord)
  | calownWrite (die chan slot : Nat) (v : Byte)
  | groupEntryWrite (die g word : Nat) (v : DWord)
  | chcfgWrite (chan word : Nat) (v : DWord)
  | mbtailWrite (die : Nat) (v : DWord)
  | attreq (die : Nat) (va : DWord)
  | attestationReport (die : Nat)
  -- EVENTS: tasks and cores
  | frameAgingTick (die : Nat)
  | taskInsertion (ctx h : Nat)
  | blockStart (core : Nat)
  | trapEntry (core : Nat)
  | watchdogTimeout (core : Nat)
  | barTimeout (core : Nat) (q : SeqId)
  | tqpopTimeout (core : Nat)
  | sleepWakeup (core : Nat)
  -- EVENTS: scheduler and mailbox
  | stageEvaluation (die slot : Nat)
  | arrivalRecordAppend (chan : Nat)
  | verfull (die slot : Nat)
  | mailboxPost (die : Nat)
  -- EVENTS: engines and links
  | engineCommandCompletion (id : Nat)
  | streamTransferRetirement (id : Nat)
  | stashRetry (id : Nat)
  | stashTimeout (id : Nat)
  | fetchTimeout (id : Nat)
  | dataFlit (port seqNo chan off : Nat) (crcOk last : Bool) (hdr : MsgHdr) (payload : List (Byte × Bool))
  | windowGrant (chan window rlog : Nat) (stgv : Bool)
  | acknowledgementOfPublication (chan : Nat) (status : AckOf)
  | collectiveFlit (way : FlitWay) (cid off : Nat) (round1 : Bool) (payload : List (Byte × Bool))
  | negativeAcknowledgement (port seqNo : Nat)
  | portDown (port : Nat)
  | pushReduceCombine (die g : Nat)
  | prstTimeout (die g : Nat)
  -- EVENTS: memory system
  | calendarSlotStart (die chan : Nat) (cached : Option Nat)
  | refreshWindow (die : Nat)
  | lineMigration (die line : Nat)
  | tileMove (die ctx tensor ver tile : Nat) (toLp : Bool)
  | oldFrameRelease (die : Nat)
  | invalidationAcknowledgement (core : Nat)
  | atsInvalidationRequest (die pasid : Nat) (start len : Nat)
  | atsTranslationResponse (die pasid page hpa : Nat) (grantR grantW error later : Bool)
  -- EVENTS: host
  | hostBar2Access (place : HostPlace) (wr : Option (List Byte))
  | collectionRoundPoll (die q : Nat)
  | launch (q : Nat)
  | stage (q : Nat)
  | operatorFence (q : Nat)
  | write (q : Nat)
  | operatorCompletion (q : Nat)
  | correctableError (die : Nat)
  | uncorrectableError (die : Nat) (place : ErrPlace)
  | healthRefresh (die : Nat) (sage : List (BitVec 16)) (hbm : List DWord) (eol : BitVec 32)
  | queueDescriptorWrite (q word : Nat) (v : DWord)
  deriving DecidableEq, Repr

end Sys2Proof
end

