-- ==== Sys2Proof/WellFormed.lean ====
section
/-! DEFINITION. Which instructions exist: every field in range and every rule of R78 to R117 whose fate is UNDEF
respected. A word that breaks one of them decodes to no instruction. Format codes 24–31 and scope codes 12–15 are
well formed: they trap FMT and SCOPE when the instruction runs (R103). For an event, well-formed says that the units
it names exist. -/

namespace Sys2Proof

/-- The code of an element type in the TY field (R84). -/
def Ty.code : Ty → Nat
  | .i32 => 0 | .n32 => 1 | .i64 => 2 | .n64 => 3 | .i16 => 4 | .n16 => 5
  | .i8 => 6 | .n8 => 7 | .f32 => 8 | .f16 => 9 | .bf16 => 10 | .b32 => 11

/-- A float element type, TY 8–10 (R84). -/
def Ty.isFloat (t : Ty) : Bool := 8 ≤ t.code && t.code ≤ 10

/-- A 64-bit element type, which occupies a column pair (R89). -/
def Ty.is64 (t : Ty) : Bool := t == .i64 || t == .n64

/-- A type of 32 bits that VMOVI and VTRN16 allow (R110). -/
def Ty.isWord (t : Ty) : Bool := t == .i32 || t == .n32 || t == .f32 || t == .b32

/-- The code of a rounding mode (R85). -/
def Rm.code : Rm → Nat
  | .rne => 0 | .rtz => 1 | .rdn => 2 | .rup => 3 | .rna => 4 | .sr => 5

/-- The number of a sequencer in CAUSE, MOD and OWN (R90, R93, R94). -/
def SeqId.code : SeqId → Nat
  | .L => 0 | .X => 1 | .S => 2 | .C => 3

/-- The wait and signal bytes of R78. -/
def Ctl.ok (c : Ctl) : Bool :=
  ((c.wsel == 0 && c.wcnt == 0) || (1 ≤ c.wsel && c.wsel ≤ 3 && 1 ≤ c.wcnt && c.wcnt ≤ 31) ||
    (4 ≤ c.wsel && c.wsel ≤ 7 && c.wcnt ≤ 31)) &&
  ((c.ssel == 0 && c.scnt == 0) || (1 ≤ c.ssel && c.ssel ≤ 3 && 1 ≤ c.scnt && c.scnt ≤ 31))

/-- A scalar register number (R87). -/
def gOk (n : Nat) : Bool := n < 64

/-- A register pair, named by its even register (R87). -/
def pairOk (n : Nat) : Bool := n < 64 && n % 2 == 0

/-- A scalar operand at width 32 or 64 (R106). -/
def opndOk (w : Bool) (n : Nat) : Bool := n < 64 && (!w || n % 2 == 0)

/-- A vector register field; only V16–V31 rotate (R84). -/
def vOk (r : RReg) : Bool := r.n < 32 && (!r.rot || 16 ≤ r.n)

/-- A predicate register field; only P8–P15 rotate (R84). -/
def pOk (r : RReg) : Bool := r.n < 16 && (!r.rot || 8 ≤ r.n)

/-- The *arith* layout of R110: rounding for float types only, SAT for integer types only. -/
def arithOk (t : Ty) (rm : Rm) (sat : Bool) : Bool := if t.isFloat then !sat else rm == .rne

def VF.ok (f : VF) : Bool := vOk f.vd && vOk f.va && vOk f.vb && pOk f.pr
def VF2.ok (f : VF2) : Bool := vOk f.vd && vOk f.va && pOk f.pr
def VMemF.ok (f : VMemF) : Bool := vOk f.vd && f.b < 32 && f.ac < 8 && pOk f.pr

/-- Format M: RD even at 8 bytes (R82). -/
def MemF.ok (m : MemF) : Bool := opndOk (m.sz == .b8) m.rd && m.bp < 32 && m.ac < 8

/-- The atomics: RD even at 8 bytes (R82, R109). -/
def AtomF.ok (a : AtomF) : Bool := opndOk a.w64 a.rd && a.bp < 32 && a.ac < 8 && a.scope < 16

/-- Format E: a scope needs ACQ or REL (R86). -/
def EngF.ok (e : EngF) : Bool :=
  e.grp < 16 && e.ctr < 4 && e.scope < 16 && e.buf < 256 && gOk e.rd && (e.acq || e.rel || e.scope == 0)

/-- The target of BR and CALL (R83, R107). -/
def BTarget.ok : BTarget → Bool
  | .rel _ => true
  | .ind cr _ => pairOk cr

/-- The width of special register `num`, none where R93 lists no such number. -/
def sysWidth (num : Nat) : Option Nat :=
  if num == 0 then some 16 else if num == 1 then some 2
  else if num == 2 || num == 3 then some 24 else if num == 4 then some 9
  else if 0x008 ≤ num && num ≤ 0x00D then some 24
  else if 0x010 ≤ num && num ≤ 0x012 then some 32
  else if num == 0x013 then some 64 else if num == 0x014 then some 32
  else if num == 0x018 then some 5 else if num == 0x019 || num == 0x01A then some 32
  else if num == 0x01B then some 13
  else if 0x020 ≤ num && num ≤ 0x02F then some 64
  else if num == 0x030 then some 8 else if num == 0x031 || num == 0x032 then some 64
  else if num == 0x033 then some 16 else if num == 0x040 then some 64
  else if 0x100 ≤ num && num ≤ 0x2FF then some 64
  else none

/-- SYSR and SYSW: a listed number, and an even register for one of 64 bits (R94). -/
def sysOk (num rd md : Nat) : Bool :=
  match sysWidth num with
  | some n => opndOk (n == 64) rd && md < 4
  | none => false

def dieOk (d : Nat) : Bool := d < 2
def coreOk (c : Nat) : Bool := c < 288

/-- A place that exists on die `d` (R14, R282). -/
def ErrPlace.wf (d : Nat) : ErrPlace → Bool
  | .memory _ => true
  | .localStore c g => c / 144 == d && g < 0x30000
  | .gReg c _ n => c / 144 == d && n < 64
  | .vReg c n p => c / 144 == d && n < 32 && p < 1024
  | .acc c p => c / 144 == d && p < 65536

/-- Every field in range, every pair even, every reserved value absent. -/
def Instr.wellFormed : Instr → Bool
  | .nop c => c.ok
  | .add c w d a b | .sub c w d a b | .and c w d a b | .or c w d a b | .xor c w d a b
  | .shl c w d a b | .shr c w d a b | .sra c w d a b | .mul c w d a b =>
    c.ok && opndOk w d && opndOk w a && opndOk w b
  | .mulh c w _ d a b | .div c w _ d a b | .rem c w _ d a b | .min c w _ d a b | .max c w _ d a b =>
    c.ok && opndOk w d && opndOk w a && opndOk w b
  | .cmp c w _ cond d a b => c.ok && cond != .un && gOk d && opndOk w a && opndOk w b
  | .sel c w d a b r => c.ok && opndOk w d && opndOk w a && opndOk w b && gOk r
  | .clz c w d a | .popc c w d a => c.ok && opndOk w d && opndOk w a
  | .movi c d _ => c.ok && gOk d
  | .moviHi c d _ => c.ok && gOk d
  | .addi c d a _ => c.ok && gOk d && gOk a
  | .addp c d a _ => c.ok && pairOk d && pairOk a
  | .br c t | .call c t => c.ok && t.ok
  | .bz c r _ | .bnz c r _ => c.ok && gOk r
  | .ret c => c.ok
  | .loop c _ => c.ok
  | .looph c d a b r => c.ok && pairOk d && gOk a && gOk b && gOk r
  | .loopt c k _ => c.ok && k < 6
  | .ld c m => c.ok && m.ok
  | .ldZeroExtending c m => c.ok && m.ok && (m.sz == .b1 || m.sz == .b2)
  | .st c m => c.ok && m.ok
  | .aadd c a | .amin c a | .aminUnsigned c a | .amax c a | .amaxUnsigned c a
  | .aand c a | .aor c a | .axchg c a => c.ok && a.ok
  | .acas c a => c.ok && a.ok && a.rd % 2 == 0 && (!a.w64 || a.rd < 60)
  | .afadd c bf sr a => c.ok && a.ok && !a.w64 && (bf || !sr)
  | .vadd c rm sat f | .vsub c rm sat f | .vmul c rm sat f =>
    c.ok && f.ok && f.ty != .b32 && arithOk f.ty rm sat
  | .vfma c _ f vc => c.ok && f.ok && f.ty.isFloat && vOk vc
  | .vmin c f | .vmax c f => c.ok && f.ok && f.ty != .b32
  | .vabs c rm sat f | .vneg c rm sat f =>
    c.ok && f.ok && (f.ty.isFloat || f.ty == .i32 || f.ty == .i64 || f.ty == .i16 || f.ty == .i8) &&
      arithOk f.ty rm sat
  | .vand c f | .vor c f | .vxor c f => c.ok && f.ok && !f.ty.isFloat
  | .vshl c f | .vshr c f | .vsra c f => c.ok && f.ok && !f.ty.isFloat && f.ty != .b32
  | .vcmp c cond f =>
    c.ok && pOk f.vd && vOk f.va && vOk f.vb && pOk f.pr && f.ty != .b32 && (cond != .un || f.ty.isFloat)
  | .vsel c f => c.ok && f.ok
  | .vcvt c dst _ f => c.ok && f.ok && f.ty != .b32 && dst != .b32
  | .vmov c f => c.ok && f.ok
  | .vmovi c ty vd _ => c.ok && ty.isWord && vd < 32
  | .vget c ty g v p | .vput c ty g v p => c.ok && opndOk ty.is64 g && vOk v && gOk p
  | .vexp c f | .vlog c f | .vrcp c f | .vrsq c f | .vtanh c f | .verf c f => c.ok && f.ok && f.ty.isFloat
  | .vrrot c s f | .vrbc c s f => c.ok && f.ok && s < 16
  | .vcrot c s f | .vcbc c s f => c.ok && f.ok && s < (if f.ty.is64 then 32 else 64)
  | .vrred c _ f | .vcred c _ f => c.ok && f.ok && f.ty != .b32
  | .vtrn16 c f => c.ok && f.ok && f.ty.isWord
  | .vamax c _ f => c.ok && f.ok && f.ty.isFloat
  | .vqnt c fmt _ f | .vdqnt c fmt f => c.ok && f.ok && f.ty.isFloat && fmt < 32
  | .vld c f | .vst c f => c.ok && f.ok
  | .vldm c q f => c.ok && f.ok && q < 16 && f.b != 31
  | .vstm c f => c.ok && f.ok && f.b != 31
  | .voptw c _ g f vc =>
    c.ok && f.ok && vOk vc && g < 8 && (f.ty == .f32 || f.ty == .bf16) &&
      f.vd.n != f.va.n && f.vd.n != f.vb.n && f.va.n != f.vb.n
  | .pand c d a b p | .por c d a b p => c.ok && pOk d && pOk a && pOk b && pOk p
  | .pnot c d a p => c.ok && pOk d && pOk a && pOk p
  | .pset c d n p => c.ok && pOk d && n < 16 && pOk p
  | .mldb c sa pn _ => c.ok && sa < 16 && pn < 8
  | .mma c sa pn t _ _ _ => c.ok && sa < 16 && pn < 8 && t < 64
  | .mscfg c n => c.ok && 1 ≤ n && n < 16
  | .msamp c d sa pn t _ _ => c.ok && gOk d && sa < 16 && pn < 8 && t < 64
  | .accz c t => c.ok && t < 64
  | .accrd c t rm sat fmt vd =>
    c.ok && t < 64 && vd < 32 &&
      (match fmt with | some x => x < 32 | none => rm == .rne && !sat)
  | .accwr c t fmt vs => c.ok && t < 64 && vs < 32 && (match fmt with | some x => x < 32 | none => true)
  | .accq c sa sb t _ fmt _ =>
    c.ok && sa < 16 && sb < 16 && t < 64 && (match fmt with | some x => x < 32 | none => true)
  | .accst c sa t | .accld c sa t => c.ok && sa < 16 && t < 64
  | .strcfg c n ra _ => c.ok && n < 16 && pairOk ra
  | .strset c n ra w => c.ok && n < 16 && pairOk ra && w < 11
  | .strld c sa sb _ => c.ok && sa < 16 && sb < 16
  | .strst c sa sb => c.ok && sa < 16 && sb < 16
  | .stradv c sa k => c.ok && sa < 16 && k < 6
  | .tilereq c g ctr buf rd _ _ | .pgreq c g ctr buf rd _ => c.ok && g < 16 && ctr < 4 && buf < 256 && gOk rd
  | .cpy c e | .cpyr c e | .stash c e | .stfetch c e | .stdrop c e | .chsend c e | .chrecv c e | .chrel c e
  | .coll c e | .prst c e => c.ok && e.ok
  | .tqpop c d t => c.ok && gOk d && (match t with | some a => gOk a | none => true)
  | .tqpush c d a => c.ok && gOk d && gOk a
  | .tarm c d a b => c.ok && gOk d && gOk a && gOk b
  | .tdone c a => c.ok && gOk a
  | .ttrig c => c.ok
  | .mbpost c g d => c.ok && g < 16 && gOk d
  | .pennLoad c d a b => c.ok && gOk d && gOk a && pairOk b
  | .pennStart c d a | .pennStop c d a | .pennUnload c d a | .pennStat c d a => c.ok && gOk d && gOk a
  | .relaunch c d a => c.ok && gOk d && gOk a
  | .traceAdd c a b r => c.ok && gOk a && gOk b && gOk r
  | .tracePath c a => c.ok && gOk a
  | .vernew c d a => c.ok && gOk d && gOk a
  | .verpin c d a b r slot => c.ok && gOk d && gOk a && gOk b && gOk r && slot < 8
  | .verdrop c d a b => c.ok && gOk d && gOk a && gOk b
  | .phase c sc acq rel => c.ok && sc < 16 && (acq || rel)
  | .fence c l s e => c.ok && (l || s || e)
  | .bar c sc acq rel d a t =>
    c.ok && sc < 16 && (acq || rel) && gOk d && gOk a && (match t with | some b => gOk b | none => true)
  | .icinv c => c.ok
  | .sysr c d num md => c.ok && sysOk num d md
  | .sysw c s num md => c.ok && sysOk num s md && num != 0x040
  | .xlinv c s md => c.ok && pairOk s && md < 4
  | .trap c _ => c.ok
  | .eret c => c.ok
  | .sleep c a => c.ok && gOk a
  -- events: the units they name exist
  | .boot fail _ _ => fail < 7
  | .sectorStart d s => dieOk d && s < 4
  | .registerWrite d _ _ => dieOk d
  | .registerWindowWrite c _ _ | .corectlReset c | .corectlStart c => coreOk c
  | .preemptionRequestDie d => dieOk d
  | .preemptionRequestPackage => true
  | .framecfgWrite d _ | .l2seedWrite d _ => dieOk d
  | .calownWrite d ch sl _ => dieOk d && ch < 288 && sl < 256
  | .groupEntryWrite d g w _ => dieOk d && g < 64 && w < 8
  | .chcfgWrite ch w _ => ch < 64 && w < 4
  | .mbtailWrite d _ => dieOk d
  | .attreq d _ | .attestationReport d => dieOk d
  | .frameAgingTick d => dieOk d
  | .taskInsertion x h => x < 65536 && h < 2 ^ 24
  | .blockStart c | .trapEntry c | .watchdogTimeout c | .tqpopTimeout c | .sleepWakeup c => coreOk c
  | .barTimeout c _ => coreOk c
  | .stageEvaluation d s | .verfull d s => dieOk d && s < 8
  | .arrivalRecordAppend ch => ch < 64
  | .mailboxPost d => dieOk d
  | .engineCommandCompletion _ | .streamTransferRetirement _ | .stashRetry _ | .stashTimeout _ | .fetchTimeout _ =>
    true
  | .dataFlit p q ch _ _ _ _ pl => p < 8 && q < 65536 && ch < 64 && pl.length ≤ 224
  | .windowGrant ch _ _ _ => ch < 64
  | .acknowledgementOfPublication ch u => ch < 64 && (u.code == 0 || (4 ≤ u.code && u.code ≤ 6))
  | .collectiveFlit w cid _ _ _ => w.chan < 64 && dieOk w.die && cid < 65536
  | .negativeAcknowledgement p q => p < 8 && q < 65536
  | .portDown p => p < 8
  | .pushReduceCombine d g | .prstTimeout d g => dieOk d && g < 64
  | .calendarSlotStart d ch _ => dieOk d && ch < 288
  | .refreshWindow d | .lineMigration d _ | .oldFrameRelease d => dieOk d
  | .tileMove d x t v n _ => dieOk d && x < 65536 && t < 2 ^ 32 && v < 8 && n < 2 ^ 32
  | .invalidationAcknowledgement c => coreOk c
  | .atsInvalidationRequest d p _ _ => dieOk d && p < 2 ^ 20
  | .atsTranslationResponse d p _ _ _ _ _ _ => dieOk d && p < 2 ^ 20
  | .hostBar2Access ⟨k, off, n⟩ wr =>
    match k with
    | 0 => wr.isNone && n == 8 && off % 8 == 0 && off < 2 ^ 29
    | 2 => 1 ≤ n && n ≤ 4096 && off + n ≤ 2 ^ 36 && wr.all (fun l => l.length == n)
    | 4 => wr.isNone && n == 8 && off % 8 == 0 && off < 2 ^ 22
    | _ => false
  | .collectionRoundPoll d q => dieOk d && q / 65536 == d
  | .launch q | .stage q | .operatorFence q | .write q | .operatorCompletion q => q < 131072
  | .correctableError d => dieOk d
  | .uncorrectableError d p => dieOk d && p.wf d
  | .healthRefresh d _ _ _ => dieOk d
  | .queueDescriptorWrite q w _ => q < 131072 && w < 4

/-- The rows of the table that are events and no instruction words. -/
def Instr.isEvent : Instr → Bool
  | .boot .. | .sectorStart .. | .registerWrite .. | .registerWindowWrite .. | .corectlReset .. | .corectlStart ..
  | .preemptionRequestDie .. | .preemptionRequestPackage | .framecfgWrite .. | .l2seedWrite .. | .calownWrite ..
  | .groupEntryWrite .. | .chcfgWrite .. | .mbtailWrite .. | .attreq .. | .attestationReport ..
  | .frameAgingTick .. | .taskInsertion .. | .blockStart .. | .trapEntry .. | .watchdogTimeout .. | .barTimeout ..
  | .tqpopTimeout .. | .sleepWakeup .. | .stageEvaluation .. | .arrivalRecordAppend .. | .verfull ..
  | .mailboxPost .. | .engineCommandCompletion .. | .streamTransferRetirement .. | .stashRetry .. | .stashTimeout ..
  | .fetchTimeout .. | .dataFlit .. | .windowGrant .. | .acknowledgementOfPublication .. | .collectiveFlit ..
  | .negativeAcknowledgement .. | .portDown .. | .pushReduceCombine .. | .prstTimeout .. | .calendarSlotStart ..
  | .refreshWindow .. | .lineMigration .. | .tileMove .. | .oldFrameRelease .. | .invalidationAcknowledgement ..
  | .atsInvalidationRequest .. | .atsTranslationResponse .. | .hostBar2Access .. | .collectionRoundPoll ..
  | .launch .. | .stage .. | .operatorFence .. | .write .. | .operatorCompletion .. | .correctableError ..
  | .uncorrectableError .. | .healthRefresh .. | .queueDescriptorWrite .. => true
  | _ => false

end Sys2Proof
end

