-- ==== Sys2Proof/Decode.lean ====
section
/-! DEFINITION. The decoder of the 64-bit instruction words (R77 to R117), total on every word, and after it the
encoder, written from the same tables. A word is a Nat below 2^64; `fld w lo n` is its field [lo+n-1:lo]. -/

namespace Sys2Proof

/-- Bits [lo+n-1:lo] of a word (R3). -/
def fld (w lo n : Nat) : Nat := w / 2 ^ lo % 2 ^ n

/-- Bit i of a word (R3). -/
def bit (w i : Nat) : Bool := w / 2 ^ i % 2 == 1

/-- The sequencers that accept a class (R104). -/
inductive OpClass where
  | all | lsc | x | ls | c | system
  deriving DecidableEq, Repr

/-- The class of an assigned OP, none for one that R104 to R117 leave UNDEF as a whole (R103 step 1). -/
def opClass (op : Nat) : Option OpClass :=
  if op ≤ 0x15 then some .all
  else if 0x20 ≤ op && op ≤ 0x27 then some .all
  else if 0x30 ≤ op && op ≤ 0x3C then some .lsc
  else if 0x40 ≤ op && op ≤ 0x61 then some .x
  else if 0x70 ≤ op && op ≤ 0x79 then some .x
  else if 0x80 ≤ op && op ≤ 0x86 then some .ls
  else if 0x90 ≤ op && op ≤ 0x99 then some .lsc
  else if 0xA0 ≤ op && op ≤ 0xAB then some .c
  else if 0xB0 ≤ op && op ≤ 0xB3 then some .all
  else if op == 0xC0 || op == 0xC1 then some .system
  else if 0xC2 ≤ op && op ≤ 0xC4 then some .c
  else none

/-- The registers an L-, X- or S-seq may name in SYSR and SYSW, on its own copy alone (R94). -/
def ownSysReg (q : SeqId) (num md : Nat) : Bool :=
  md == q.code &&
    ((0x008 ≤ num && num ≤ 0x00D) || (0x010 ≤ num && num ≤ 0x014) || num == 0x018 ||
      (q == .X && (num == 0x01A || num == 0x01B)))

/-- Whether sequencer `q` accepts the word `w` (R103 step 2, R104, R94). -/
def accepts (q : SeqId) (w : Nat) : Bool :=
  match opClass (fld w 40 8) with
  | some .all => true
  | some .lsc => q != .X
  | some .x => q == .X
  | some .ls => q == .L || q == .S
  | some .c => q == .C
  | some .system => q == .C || ownSysReg q (fld w 0 12) (fld w 24 2)
  | none => false

/-- SYSR and SYSW check their fields before the limits of their sequencer (R94). -/
def isSysWord (w : Nat) : Bool := fld w 40 8 == 0xC0 || fld w 40 8 == 0xC1

/-- What the decoder says of a word: an instruction, an OP that is UNDEF as a whole (R103 step 1), or an assigned OP
with an UNDEF field (step 3). -/
inductive Decoded where
  | ok (i : Instr)
  | undefOp
  | undefField
  deriving DecidableEq, Repr

def condOf (n : Nat) : Option Cond :=
  match n with
  | 0 => some .eq | 1 => some .ne | 2 => some .lt | 3 => some .le | 4 => some .gt | 5 => some .ge | 6 => some .un
  | _ => none

def rmOf (n : Nat) : Option Rm :=
  match n with
  | 0 => some .rne | 1 => some .rtz | 2 => some .rdn | 3 => some .rup | 4 => some .rna | 5 => some .sr
  | _ => none

def tyOf (n : Nat) : Option Ty :=
  match n with
  | 0 => some .i32 | 1 => some .n32 | 2 => some .i64 | 3 => some .n64 | 4 => some .i16 | 5 => some .n16
  | 6 => some .i8 | 7 => some .n8 | 8 => some .f32 | 9 => some .f16 | 10 => some .bf16 | 11 => some .b32
  | _ => none

def mszOf (n : Nat) : MSize :=
  match n with
  | 0 => .b1 | 1 => .b2 | 2 => .b4 | _ => .b8

def redOf (n : Nat) : Option RedOp :=
  match n with
  | 0 => some .add | 1 => some .min | 2 => some .max | _ => none

/-- Accept `i` when the Res0 bits are clear and its fields are in range (R80). -/
def accept (res0 : Bool) (i : Instr) : Option Instr := if res0 && i.wellFormed then some i else none

/-- Scalar integer, OP 0x00–0x15 (R105, R106). -/
def decodeScalar (c : Ctl) (op f : Nat) : Option Instr :=
  let rd := fld f 34 6
  let ra := fld f 28 6
  let rb := fld f 22 6
  let rc := fld f 16 6
  let w := bit f 0
  let u := bit f 2
  let imm := BitVec.ofNat 24 (fld f 0 24)
  let p := fld f 1 15 == 0 && rc == 0
  let pu := fld f 1 1 == 0 && fld f 3 13 == 0 && rc == 0
  let md := fld f 24 4
  match op with
  | 0x00 => accept (f == 0) (.nop c)
  | 0x01 => accept p (.add c w rd ra rb)
  | 0x02 => accept p (.sub c w rd ra rb)
  | 0x03 => accept p (.and c w rd ra rb)
  | 0x04 => accept p (.or c w rd ra rb)
  | 0x05 => accept p (.xor c w rd ra rb)
  | 0x06 => accept p (.shl c w rd ra rb)
  | 0x07 => accept p (.shr c w rd ra rb)
  | 0x08 => accept p (.sra c w rd ra rb)
  | 0x09 => accept p (.mul c w rd ra rb)
  | 0x0A => accept pu (.mulh c w u rd ra rb)
  | 0x0B => accept pu (.div c w u rd ra rb)
  | 0x0C => accept pu (.rem c w u rd ra rb)
  | 0x0D => accept pu (.min c w u rd ra rb)
  | 0x0E => accept pu (.max c w u rd ra rb)
  | 0x0F =>
    match condOf (fld f 3 3) with
    | some k => accept (fld f 1 1 == 0 && fld f 6 10 == 0 && rc == 0) (.cmp c w u k rd ra rb)
    | none => none
  | 0x10 => accept (fld f 1 15 == 0) (.sel c w rd ra rb rc)
  | 0x11 =>
    if md == 0 then accept (ra == 0) (.movi c rd imm)
    else if md == 1 then accept (ra == 0 && fld f 16 8 == 0) (.moviHi c rd (BitVec.ofNat 16 (fld f 0 16)))
    else none
  | 0x12 => accept (md == 0) (.addi c rd ra imm)
  | 0x13 => accept (p && rb == 0) (.clz c w rd ra)
  | 0x14 => accept (p && rb == 0) (.popc c w rd ra)
  | 0x15 => accept (md == 0) (.addp c rd ra imm)
  | _ => none

/-- The target of format B for BR and CALL (R83, R107). -/
def decodeTarget (f : Nat) : Option BTarget :=
  let cr := fld f 34 6
  let off := BitVec.ofNat 32 (fld f 0 32)
  match fld f 32 2 with
  | 0 => if cr == 0 then some (.rel off) else none
  | 1 => some (.ind cr off)
  | _ => none

/-- Branch and loop, OP 0x20–0x27 (R107). -/
def decodeBranch (c : Ctl) (op f : Nat) : Option Instr :=
  let cr := fld f 34 6
  let off := BitVec.ofNat 32 (fld f 0 32)
  let rel := fld f 32 2 == 0
  match op with
  | 0x20 => match decodeTarget f with | some t => accept true (.br c t) | none => none
  | 0x21 => accept rel (.bz c cr off)
  | 0x22 => accept rel (.bnz c cr off)
  | 0x23 => match decodeTarget f with | some t => accept true (.call c t) | none => none
  | 0x24 => accept (f == 0) (.ret c)
  | 0x25 => accept (rel && cr == 0) (.loop c off)
  | 0x26 => accept (fld f 0 16 == 0) (.looph c cr (fld f 28 6) (fld f 22 6) (fld f 16 6))
  | 0x27 => accept rel (.loopt c cr off)
  | _ => none

/-- Scalar memory and atomics, OP 0x30–0x3C (R82, R108, R109). -/
def decodeMem (c : Ctl) (op f : Nat) : Option Instr :=
  let m : MemF := ⟨mszOf (fld f 27 2), fld f 34 6, fld f 29 5, fld f 24 3, BitVec.ofNat 24 (fld f 0 24)⟩
  let a : AtomF :=
    ⟨fld f 27 2 == 3, fld f 34 6, fld f 29 5, fld f 24 3, fld f 20 4, BitVec.ofNat 19 (fld f 0 19)⟩
  let at' := 2 ≤ fld f 27 2 && fld f 19 1 == 0
  match op with
  | 0x30 => accept true (.ld c m)
  | 0x31 => accept true (.ldZeroExtending c m)
  | 0x32 => accept true (.st c m)
  | 0x33 => accept at' (.aadd c a)
  | 0x34 => accept at' (.amin c a)
  | 0x35 => accept at' (.aminUnsigned c a)
  | 0x36 => accept at' (.amax c a)
  | 0x37 => accept at' (.amaxUnsigned c a)
  | 0x38 => accept at' (.aand c a)
  | 0x39 => accept at' (.aor c a)
  | 0x3A => accept at' (.axchg c a)
  | 0x3B => accept at' (.acas c a)
  | 0x3C => accept (fld f 27 2 == 1 || fld f 27 2 == 2) (.afadd c (fld f 27 2 == 1) (bit f 19) a)
  | _ => none

/-- Vector elementwise and movement, OP 0x40–0x55 and 0x58–0x5B (R110, R111). -/
def decodeVec (c : Ctl) (op f : Nat) : Option Instr :=
  let fn := fld f 0 7
  let vd : RReg := ⟨fld f 35 5, bit f 15⟩
  let va : RReg := ⟨fld f 30 5, bit f 14⟩
  let vb : RReg := ⟨fld f 25 5, bit f 13⟩
  let vc : RReg := ⟨fld f 20 5, bit f 12⟩
  let pr : RReg := ⟨fld f 16 4, bit f 11⟩
  let noC := fld f 20 5 == 0 && fld f 12 1 == 0
  let noB := noC && fld f 25 5 == 0 && fld f 13 1 == 0
  match tyOf (fld f 7 4) with
  | none => none
  | some ty =>
    let t : VF := ⟨ty, vd, va, vb, pr⟩
    let u : VF2 := ⟨ty, vd, va, pr⟩
    let sat := bit f 3
    let arith (k : Rm → Instr) (res0 : Bool) : Option Instr :=
      match rmOf (fld f 0 3) with
      | some rm => accept (res0 && fld f 4 3 == 0) (k rm)
      | none => none
    match op with
    | 0x40 => arith (fun rm => .vadd c rm sat t) noC
    | 0x41 => arith (fun rm => .vsub c rm sat t) noC
    | 0x42 => arith (fun rm => .vmul c rm sat t) noC
    | 0x43 => arith (fun rm => .vfma c rm t vc) (!sat)
    | 0x44 => accept (noC && fn == 0) (.vmin c t)
    | 0x45 => accept (noC && fn == 0) (.vmax c t)
    | 0x46 => arith (fun rm => .vabs c rm sat u) noB
    | 0x47 => arith (fun rm => .vneg c rm sat u) noB
    | 0x48 => accept (noC && fn == 0) (.vand c t)
    | 0x49 => accept (noC && fn == 0) (.vor c t)
    | 0x4A => accept (noC && fn == 0) (.vxor c t)
    | 0x4B => accept (noC && fn == 0) (.vshl c t)
    | 0x4C => accept (noC && fn == 0) (.vshr c t)
    | 0x4D => accept (noC && fn == 0) (.vsra c t)
    | 0x4E =>
      match condOf (fld f 0 3) with
      | some k => accept (noC && fld f 3 4 == 0 && fld f 39 1 == 0) (.vcmp c k ⟨ty, ⟨fld f 35 4, bit f 15⟩, va, vb, pr⟩)
      | none => none
    | 0x4F => accept (noC && fn == 0) (.vsel c t)
    | 0x50 =>
      match rmOf (fld f 0 3), tyOf (fld f 3 4) with
      | some rm, some dst => accept noB (.vcvt c dst rm u)
      | _, _ => none
    | 0x51 => accept (noB && fn == 0) (.vmov c u)
    | 0x52 => accept (fn == 0) (.vmovi c ty (fld f 35 5) (BitVec.ofNat 24 (fld f 11 24)))
    | 0x53 => accept (fld f 16 7 == 0 && fld f 11 4 == 0 && fn == 0)
        (.vget c ty (fld f 34 6) ⟨fld f 29 5, bit f 15⟩ (fld f 23 6))
    | 0x54 => accept (fld f 16 7 == 0 && fld f 11 4 == 0 && fn == 0)
        (.vput c ty (fld f 34 6) ⟨fld f 29 5, bit f 15⟩ (fld f 23 6))
    | 0x55 =>
      match fn with
      | 0 => accept noB (.vexp c u)
      | 1 => accept noB (.vlog c u)
      | 2 => accept noB (.vrcp c u)
      | 3 => accept noB (.vrsq c u)
      | 4 => accept noB (.vtanh c u)
      | 5 => accept noB (.verf c u)
      | _ => none
    | 0x58 => accept (noB && fn == 0) (.vtrn16 c u)
    | 0x59 =>
      match fn with
      | 0 => accept noB (.vamax c .row u)
      | 1 => accept noB (.vamax c .blk u)
      | 2 => accept noB (.vamax c .all u)
      | _ => none
    | 0x5A =>
      match rmOf fn with
      | some rm => accept (fld f 12 1 == 0) (.vqnt c (fld f 20 5) rm t)
      | none => none
    | 0x5B => accept (fld f 12 1 == 0 && fn == 0) (.vdqnt c (fld f 20 5) t)
    | 0x60 =>
      match fld f 3 4 with
      | 0 => accept true (.voptw c false (fld f 0 3) t vc)
      | 5 => accept true (.voptw c true (fld f 0 3) t vc)
      | _ => none
    | _ => none

/-- The axis family, OP 0x56 and 0x57 (R111, R366). -/
def decodeAxis (c : Ctl) (op f : Nat) : Option Instr :=
  match tyOf (fld f 7 4) with
  | none => none
  | some ty =>
    let u : VF2 := ⟨ty, ⟨fld f 35 5, bit f 15⟩, ⟨fld f 30 5, bit f 14⟩, ⟨fld f 16 4, bit f 11⟩⟩
    let s := fld f 24 6
    let z := fld f 20 4 == 0 && fld f 12 2 == 0 && fld f 4 3 == 0
    match fld f 0 2 with
    | 0 => accept (z && fld f 2 2 == 0) (if op == 0x56 then .vrrot c s u else .vcrot c s u)
    | 1 => accept (z && fld f 2 2 == 0) (if op == 0x56 then .vrbc c s u else .vcbc c s u)
    | 2 =>
      match redOf (fld f 2 2) with
      | some k => accept (z && s == 0) (if op == 0x56 then .vrred c k u else .vcred c k u)
      | none => none
    | _ => none

/-- Vector memory, OP 0x5C–0x5F (R111, R377). -/
def decodeVMem (c : Ctl) (op f : Nat) : Option Instr :=
  match tyOf (fld f 7 4) with
  | none => none
  | some ty =>
    let m : VMemF := ⟨ty, ⟨fld f 35 5, bit f 15⟩, fld f 25 5, fld f 0 3, ⟨fld f 16 4, bit f 11⟩⟩
    let z := fld f 30 5 == 0 && fld f 24 1 == 0 && fld f 12 3 == 0 && fld f 3 4 == 0
    let q := fld f 20 4
    match op with
    | 0x5C => accept (z && q == 0) (.vld c m)
    | 0x5D => accept (z && q == 0) (.vst c m)
    | 0x5E => accept z (.vldm c q m)
    | 0x5F => accept (z && q == 0) (.vstm c m)
    | _ => none

/-- The predicate family, OP 0x61 (R110, R111). -/
def decodePred (c : Ctl) (f : Nat) : Option Instr :=
  let pd : RReg := ⟨fld f 35 4, bit f 15⟩
  let pa : RReg := ⟨fld f 30 4, bit f 14⟩
  let pb : RReg := ⟨fld f 25 4, bit f 13⟩
  let pr : RReg := ⟨fld f 16 4, bit f 11⟩
  let z := fld f 39 1 == 0 && fld f 34 1 == 0 && fld f 29 1 == 0 && fld f 20 5 == 0 && fld f 12 1 == 0 &&
    fld f 7 4 == 0 && fld f 2 5 == 0
  let noB := fld f 25 4 == 0 && fld f 13 1 == 0
  match fld f 0 2 with
  | 0 => accept z (.pand c pd pa pb pr)
  | 1 => accept z (.por c pd pa pb pr)
  | 2 => accept (z && noB) (.pnot c pd pa pr)
  | _ => accept (z && noB && fld f 14 1 == 0) (.pset c pd (fld f 30 4) pr)

/-- Matrix and accumulator, OP 0x70–0x79, and the format-X streams, OP 0x82–0x84 (R85, R112, R113). -/
def decodeMatrix (c : Ctl) (op f : Nat) : Option Instr :=
  let sa := fld f 36 4
  let sb := fld f 32 4
  let pn := fld f 29 3
  let t := fld f 23 6
  let tx := bit f 22
  let zc := bit f 21
  let sat := bit f 20
  let fn := fld f 0 9
  let fmt := if bit f 14 then some (fld f 9 5) else none
  let fmtZ := fld f 15 2 == 0 && (bit f 14 || fld f 9 5 == 0)
  match op with
  | 0x70 => accept (sb == 0 && t == 0 && fld f 0 22 == 0) (.mldb c sa pn tx)
  | 0x71 => accept (sb == 0 && fld f 0 20 == 0) (.mma c sa pn t tx zc sat)
  | 0x72 => accept (fld f 4 36 == 0) (.mscfg c (fld f 0 4))
  | 0x73 => accept (sb == 0 && fld f 6 15 == 0) (.msamp c (fld f 0 6) sa pn t tx zc)
  | 0x74 => accept (sa == 0 && sb == 0 && pn == 0 && fld f 0 23 == 0) (.accz c t)
  | 0x75 =>
    match rmOf (fld f 17 3) with
    | some rm => accept (sa == 0 && sb == 0 && pn == 0 && fld f 21 2 == 0 && fmtZ && fld f 5 4 == 0)
        (.accrd c t rm sat fmt (fld f 0 5))
    | none => none
  | 0x76 => accept (sa == 0 && sb == 0 && pn == 0 && fld f 17 6 == 0 && fmtZ && fld f 5 4 == 0)
      (.accwr c t fmt (fld f 0 5))
  | 0x77 =>
    match rmOf (fld f 17 3) with
    | some rm => accept (pn == 0 && fld f 20 3 == 0 && fmtZ && fld f 1 8 == 0) (.accq c sa sb t rm fmt (bit f 0))
    | none => none
  | 0x78 => accept (sb == 0 && pn == 0 && fld f 0 23 == 0) (.accst c sa t)
  | 0x79 => accept (sb == 0 && pn == 0 && fld f 0 23 == 0) (.accld c sa t)
  | 0x82 => accept (fld f 23 9 == 0 && fld f 0 22 == 0) (.strld c sa sb tx)
  | 0x83 => accept (fld f 0 32 == 0) (.strst c sa sb)
  | 0x84 => accept (sb == 0 && pn == 0 && fld f 9 20 == 0 && fld f 3 6 == 0) (.stradv c sa fn)
  | _ => none

/-- Streams of formats I and E, OP 0x80, 0x81, 0x85, 0x86 (R113, R210). DESIGN CHOICE (log 84): a set Res0 bit of FN in PGREQ or
TILEREQ makes the word UNDEF, as R7, R80 and R103 have it for every instruction; R358 gives such a bit the status DESC. -/
def decodeStream (c : Ctl) (op f : Nat) : Option Instr :=
  let n := fld f 34 4
  let ra := fld f 28 6
  let eZ := fld f 28 6 == 0
  match op with
  | 0x80 => accept (fld f 38 2 == 0 && fld f 24 4 == 0) (.strcfg c n ra (BitVec.ofNat 24 (fld f 0 24)))
  | 0x81 => accept (fld f 38 2 == 0 && fld f 0 24 == 0) (.strset c n ra (fld f 24 4))
  | 0x85 => accept (eZ && fld f 2 12 == 0)
      (.tilereq c (fld f 36 4) (fld f 34 2) (fld f 20 8) (fld f 14 6) (bit f 0) (bit f 1))
  | 0x86 => accept (eZ && fld f 1 13 == 0)
      (.pgreq c (fld f 36 4) (fld f 34 2) (fld f 20 8) (fld f 14 6) (bit f 0))
  | _ => none

/-- Engine commands, OP 0x90–0x99 (R86, R114). -/
def decodeEngine (c : Ctl) (op f : Nat) : Option Instr :=
  let e : EngF := ⟨fld f 36 4, fld f 34 2, bit f 33, bit f 32, fld f 28 4, fld f 20 8, fld f 14 6⟩
  let z := fld f 0 14 == 0
  match op with
  | 0x90 => accept z (.cpy c e)
  | 0x91 => accept z (.cpyr c e)
  | 0x92 => accept z (.stash c e)
  | 0x93 => accept z (.stfetch c e)
  | 0x94 => accept z (.stdrop c e)
  | 0x95 => accept z (.chsend c e)
  | 0x96 => accept z (.chrecv c e)
  | 0x97 => accept z (.chrel c e)
  | 0x98 => accept z (.coll c e)
  | 0x99 => accept z (.prst c e)
  | _ => none

/-- Tasks, scheduler, trace and versions, OP 0xA0–0xAB (R115). -/
def decodeTask (c : Ctl) (op f : Nat) : Option Instr :=
  let rd := fld f 34 6
  let ra := fld f 28 6
  let rb := fld f 22 6
  let rc := fld f 16 6
  let fn := fld f 0 16
  match op with
  | 0xA0 =>
    if bit f 0 then accept (rb == 0 && rc == 0 && fld f 1 15 == 0) (.tqpop c rd (some ra))
    else accept (ra == 0 && rb == 0 && rc == 0 && fld f 1 15 == 0) (.tqpop c rd none)
  | 0xA1 => accept (rb == 0 && rc == 0 && fn == 0) (.tqpush c rd ra)
  | 0xA2 => accept (rc == 0 && fn == 0) (.tarm c rd ra rb)
  | 0xA3 => accept (rd == 0 && rb == 0 && rc == 0 && fn == 0) (.tdone c ra)
  | 0xA4 => accept (f == 0) (.ttrig c)
  | 0xA5 => accept (fld f 20 16 == 0 && fld f 0 14 == 0) (.mbpost c (fld f 36 4) (fld f 14 6))
  | 0xA6 =>
    match fn with
    | 0 => accept (rc == 0) (.pennLoad c rd ra rb)
    | 1 => accept (rb == 0 && rc == 0) (.pennStart c rd ra)
    | 2 => accept (rb == 0 && rc == 0) (.pennStop c rd ra)
    | 3 => accept (rb == 0 && rc == 0) (.pennUnload c rd ra)
    | 4 => accept (rb == 0 && rc == 0) (.pennStat c rd ra)
    | _ => none
  | 0xA7 => accept (rb == 0 && rc == 0 && fn == 0) (.relaunch c rd ra)
  | 0xA8 =>
    match fn with
    | 0 => accept (rd == 0) (.traceAdd c ra rb rc)
    | 1 => accept (rd == 0 && rb == 0 && rc == 0) (.tracePath c ra)
    | _ => none
  | 0xA9 => accept (rb == 0 && rc == 0 && fn == 0) (.vernew c rd ra)
  | 0xAA => accept (fld f 3 13 == 0) (.verpin c rd ra rb rc (fld f 0 3))
  | 0xAB => accept (rc == 0 && fn == 0) (.verdrop c rd ra rb)
  | _ => none

/-- Synchronisation, OP 0xB0–0xB3, and system, OP 0xC0–0xC4 (R116, R117). -/
def decodeSystem (c : Ctl) (op f : Nat) : Option Instr :=
  let rd := fld f 34 6
  let ra := fld f 28 6
  let rb := fld f 22 6
  let num := fld f 0 12
  let md := fld f 24 4
  let sysZ := ra == 0 && fld f 12 12 == 0
  match op with
  | 0xB0 => accept (fld f 16 24 == 0 && fld f 6 10 == 0) (.phase c (fld f 0 4) (bit f 4) (bit f 5))
  | 0xB1 => accept (fld f 3 37 == 0) (.fence c (bit f 0) (bit f 1) (bit f 2))
  | 0xB2 =>
    let z := fld f 16 6 == 0 && fld f 7 9 == 0
    if bit f 6 then accept z (.bar c (fld f 0 4) (bit f 4) (bit f 5) rd ra (some rb))
    else accept (z && rb == 0) (.bar c (fld f 0 4) (bit f 4) (bit f 5) rd ra none)
  | 0xB3 => accept (f == 0) (.icinv c)
  | 0xC0 => accept sysZ (.sysr c rd num md)
  | 0xC1 => if num == 0x040 then accept sysZ (.xlinv c rd md) else accept sysZ (.sysw c rd num md)
  | 0xC2 => accept (fld f 16 24 == 0) (.trap c (BitVec.ofNat 16 (fld f 0 16)))
  | 0xC3 => accept (f == 0) (.eret c)
  | 0xC4 => accept (rd == 0 && fld f 0 28 == 0) (.sleep c ra)
  | _ => none

/-- The operand field of an assigned OP (R104). -/
def decodeBody (c : Ctl) (op f : Nat) : Option Instr :=
  if op ≤ 0x15 then decodeScalar c op f
  else if op ≤ 0x27 then decodeBranch c op f
  else if op ≤ 0x3C then decodeMem c op f
  else if op == 0x56 || op == 0x57 then decodeAxis c op f
  else if 0x5C ≤ op && op ≤ 0x5F then decodeVMem c op f
  else if op == 0x61 then decodePred c f
  else if op ≤ 0x60 then decodeVec c op f
  else if op ≤ 0x79 then decodeMatrix c op f
  else if 0x82 ≤ op && op ≤ 0x84 then decodeMatrix c op f
  else if op ≤ 0x86 then decodeStream c op f
  else if op ≤ 0x99 then decodeEngine c op f
  else if op ≤ 0xAB then decodeTask c op f
  else decodeSystem c op f

/-- The wait and signal bytes of a word (R77). -/
def decodeCtl (w : Nat) : Ctl := ⟨fld w 61 3, fld w 56 5, fld w 53 3, fld w 48 5⟩

/-- One instruction word (R103 steps 1 and 3; the class of step 2 needs the sequencer and stands in `accepts`). -/
def decode (w : Nat) : Decoded :=
  match opClass (fld w 40 8) with
  | none => .undefOp
  | some _ =>
    match decodeBody (decodeCtl w) (fld w 40 8) (fld w 0 40) with
    | some i => .ok i
    | none => .undefField

/-! The encoder (R77, R81 to R86). -/

/-- A flag as a bit. -/
def b2n (b : Bool) : Nat := if b then 1 else 0

def Cond.code : Cond → Nat
  | .eq => 0 | .ne => 1 | .lt => 2 | .le => 3 | .gt => 4 | .ge => 5 | .un => 6

def MSize.code : MSize → Nat
  | .b1 => 0 | .b2 => 1 | .b4 => 2 | .b8 => 3

def RedOp.code : RedOp → Nat
  | .add => 0 | .min => 1 | .max => 2

def AmaxSet.code : AmaxSet → Nat
  | .row => 0 | .blk => 1 | .all => 2

/-- The whole word: wait and signal bytes, OP and operand field (R77). -/
def mkWord (c : Ctl) (op f : Nat) : Nat :=
  c.wsel * 2 ^ 61 + c.wcnt * 2 ^ 56 + c.ssel * 2 ^ 53 + c.scnt * 2 ^ 48 + op * 2 ^ 40 + f

/-- Format R (R81). -/
def fmtR (rd ra rb rc fn : Nat) : Nat := rd * 2 ^ 34 + ra * 2 ^ 28 + rb * 2 ^ 22 + rc * 2 ^ 16 + fn

/-- Format I (R81). -/
def fmtI (rd ra md imm : Nat) : Nat := rd * 2 ^ 34 + ra * 2 ^ 28 + md * 2 ^ 24 + imm

/-- Format M (R82). -/
def fmtM (rd bp sz ac off : Nat) : Nat := rd * 2 ^ 34 + bp * 2 ^ 29 + sz * 2 ^ 27 + ac * 2 ^ 24 + off

/-- Format B (R83). -/
def fmtB (cr kind off : Nat) : Nat := cr * 2 ^ 34 + kind * 2 ^ 32 + off

/-- Format V, its five rotation flags as Bools (R84). -/
def fmtV (vd va vb vc pr : Nat) (rd ra rb rc rp : Bool) (ty fn : Nat) : Nat :=
  vd * 2 ^ 35 + va * 2 ^ 30 + vb * 2 ^ 25 + vc * 2 ^ 20 + pr * 2 ^ 16 + b2n rd * 2 ^ 15 + b2n ra * 2 ^ 14 +
    b2n rb * 2 ^ 13 + b2n rc * 2 ^ 12 + b2n rp * 2 ^ 11 + ty * 2 ^ 7 + fn

/-- Format X (R85). -/
def fmtX (sa sb pn t : Nat) (tx zc sat : Bool) (rm : Nat) (fo : Bool) (fmt fn : Nat) : Nat :=
  sa * 2 ^ 36 + sb * 2 ^ 32 + pn * 2 ^ 29 + t * 2 ^ 23 + b2n tx * 2 ^ 22 + b2n zc * 2 ^ 21 + b2n sat * 2 ^ 20 +
    rm * 2 ^ 17 + b2n fo * 2 ^ 14 + fmt * 2 ^ 9 + fn

/-- Format E (R86). -/
def fmtE (grp ctr : Nat) (acq rel : Bool) (scope buf rd fn : Nat) : Nat :=
  grp * 2 ^ 36 + ctr * 2 ^ 34 + b2n acq * 2 ^ 33 + b2n rel * 2 ^ 32 + scope * 2 ^ 28 + buf * 2 ^ 20 + rd * 2 ^ 14 + fn

/-- FN of the scalar opcodes: width and signedness (R106). -/
def fnW (w u : Bool) : Nat := b2n w + 4 * b2n u

def encV3 (f : VF) (vc : Nat) (rc : Bool) (fn : Nat) : Nat :=
  fmtV f.vd.n f.va.n f.vb.n vc f.pr.n f.vd.rot f.va.rot f.vb.rot rc f.pr.rot f.ty.code fn

def encV2 (f : VF2) (vb vc fn : Nat) : Nat :=
  fmtV f.vd.n f.va.n vb vc f.pr.n f.vd.rot f.va.rot false false f.pr.rot f.ty.code fn

def encVM (f : VMemF) (q : Nat) : Nat :=
  fmtV f.vd.n 0 f.b q f.pr.n f.vd.rot false false false f.pr.rot f.ty.code f.ac

def encM (m : MemF) : Nat := fmtM m.rd m.bp m.sz.code m.ac m.off.toNat

def encA (a : AtomF) (sz sr : Nat) : Nat :=
  fmtM a.rd a.bp sz a.ac (a.scope * 2 ^ 20 + sr * 2 ^ 19 + a.off.toNat)

def encE (e : EngF) : Nat := fmtE e.grp e.ctr e.acq e.rel e.scope e.buf e.rd 0

def encT : BTarget → Nat
  | .rel off => fmtB 0 0 off.toNat
  | .ind cr off => fmtB cr 1 off.toNat

def encP (pd pa pb pr : RReg) (fn : Nat) : Nat :=
  fmtV pd.n pa.n pb.n 0 pr.n pd.rot pa.rot pb.rot false pr.rot 0 fn

def encFmt (fmt : Option Nat) : Nat := match fmt with | some x => x | none => 0

def aSz (a : AtomF) : Nat := if a.w64 then 3 else 2

/-- The word of an instruction (R104 to R117); the events of the table have no word, and give 0. -/
def encode : Instr → Nat
  | .nop c => mkWord c 0x00 0
  | .add c w d a b => mkWord c 0x01 (fmtR d a b 0 (fnW w false))
  | .sub c w d a b => mkWord c 0x02 (fmtR d a b 0 (fnW w false))
  | .and c w d a b => mkWord c 0x03 (fmtR d a b 0 (fnW w false))
  | .or c w d a b => mkWord c 0x04 (fmtR d a b 0 (fnW w false))
  | .xor c w d a b => mkWord c 0x05 (fmtR d a b 0 (fnW w false))
  | .shl c w d a b => mkWord c 0x06 (fmtR d a b 0 (fnW w false))
  | .shr c w d a b => mkWord c 0x07 (fmtR d a b 0 (fnW w false))
  | .sra c w d a b => mkWord c 0x08 (fmtR d a b 0 (fnW w false))
  | .mul c w d a b => mkWord c 0x09 (fmtR d a b 0 (fnW w false))
  | .mulh c w u d a b => mkWord c 0x0A (fmtR d a b 0 (fnW w u))
  | .div c w u d a b => mkWord c 0x0B (fmtR d a b 0 (fnW w u))
  | .rem c w u d a b => mkWord c 0x0C (fmtR d a b 0 (fnW w u))
  | .min c w u d a b => mkWord c 0x0D (fmtR d a b 0 (fnW w u))
  | .max c w u d a b => mkWord c 0x0E (fmtR d a b 0 (fnW w u))
  | .cmp c w u k d a b => mkWord c 0x0F (fmtR d a b 0 (fnW w u + 8 * k.code))
  | .sel c w d a b r => mkWord c 0x10 (fmtR d a b r (fnW w false))
  | .movi c d imm => mkWord c 0x11 (fmtI d 0 0 imm.toNat)
  | .moviHi c d imm => mkWord c 0x11 (fmtI d 0 1 imm.toNat)
  | .addi c d a imm => mkWord c 0x12 (fmtI d a 0 imm.toNat)
  | .clz c w d a => mkWord c 0x13 (fmtR d a 0 0 (fnW w false))
  | .popc c w d a => mkWord c 0x14 (fmtR d a 0 0 (fnW w false))
  | .addp c d a imm => mkWord c 0x15 (fmtI d a 0 imm.toNat)
  | .br c t => mkWord c 0x20 (encT t)
  | .bz c cr off => mkWord c 0x21 (fmtB cr 0 off.toNat)
  | .bnz c cr off => mkWord c 0x22 (fmtB cr 0 off.toNat)
  | .call c t => mkWord c 0x23 (encT t)
  | .ret c => mkWord c 0x24 0
  | .loop c off => mkWord c 0x25 (fmtB 0 0 off.toNat)
  | .looph c d a b r => mkWord c 0x26 (fmtR d a b r 0)
  | .loopt c k off => mkWord c 0x27 (fmtB k 0 off.toNat)
  | .ld c m => mkWord c 0x30 (encM m)
  | .ldZeroExtending c m => mkWord c 0x31 (encM m)
  | .st c m => mkWord c 0x32 (encM m)
  | .aadd c a => mkWord c 0x33 (encA a (aSz a) 0)
  | .amin c a => mkWord c 0x34 (encA a (aSz a) 0)
  | .aminUnsigned c a => mkWord c 0x35 (encA a (aSz a) 0)
  | .amax c a => mkWord c 0x36 (encA a (aSz a) 0)
  | .amaxUnsigned c a => mkWord c 0x37 (encA a (aSz a) 0)
  | .aand c a => mkWord c 0x38 (encA a (aSz a) 0)
  | .aor c a => mkWord c 0x39 (encA a (aSz a) 0)
  | .axchg c a => mkWord c 0x3A (encA a (aSz a) 0)
  | .acas c a => mkWord c 0x3B (encA a (aSz a) 0)
  | .afadd c bf sr a => mkWord c 0x3C (encA a (if bf then 1 else 2) (b2n sr))
  | .vadd c rm sat f => mkWord c 0x40 (encV3 f 0 false (rm.code + 8 * b2n sat))
  | .vsub c rm sat f => mkWord c 0x41 (encV3 f 0 false (rm.code + 8 * b2n sat))
  | .vmul c rm sat f => mkWord c 0x42 (encV3 f 0 false (rm.code + 8 * b2n sat))
  | .vfma c rm f vc => mkWord c 0x43 (encV3 f vc.n vc.rot rm.code)
  | .vmin c f => mkWord c 0x44 (encV3 f 0 false 0)
  | .vmax c f => mkWord c 0x45 (encV3 f 0 false 0)
  | .vabs c rm sat f => mkWord c 0x46 (encV2 f 0 0 (rm.code + 8 * b2n sat))
  | .vneg c rm sat f => mkWord c 0x47 (encV2 f 0 0 (rm.code + 8 * b2n sat))
  | .vand c f => mkWord c 0x48 (encV3 f 0 false 0)
  | .vor c f => mkWord c 0x49 (encV3 f 0 false 0)
  | .vxor c f => mkWord c 0x4A (encV3 f 0 false 0)
  | .vshl c f => mkWord c 0x4B (encV3 f 0 false 0)
  | .vshr c f => mkWord c 0x4C (encV3 f 0 false 0)
  | .vsra c f => mkWord c 0x4D (encV3 f 0 false 0)
  | .vcmp c k f => mkWord c 0x4E (encV3 f 0 false k.code)
  | .vsel c f => mkWord c 0x4F (encV3 f 0 false 0)
  | .vcvt c dst rm f => mkWord c 0x50 (encV2 f 0 0 (rm.code + 8 * dst.code))
  | .vmov c f => mkWord c 0x51 (encV2 f 0 0 0)
  | .vmovi c ty vd imm => mkWord c 0x52 (vd * 2 ^ 35 + imm.toNat * 2 ^ 11 + ty.code * 2 ^ 7)
  | .vget c ty g v p =>
    mkWord c 0x53 (g * 2 ^ 34 + v.n * 2 ^ 29 + p * 2 ^ 23 + b2n v.rot * 2 ^ 15 + ty.code * 2 ^ 7)
  | .vput c ty g v p =>
    mkWord c 0x54 (g * 2 ^ 34 + v.n * 2 ^ 29 + p * 2 ^ 23 + b2n v.rot * 2 ^ 15 + ty.code * 2 ^ 7)
  | .vexp c f => mkWord c 0x55 (encV2 f 0 0 0)
  | .vlog c f => mkWord c 0x55 (encV2 f 0 0 1)
  | .vrcp c f => mkWord c 0x55 (encV2 f 0 0 2)
  | .vrsq c f => mkWord c 0x55 (encV2 f 0 0 3)
  | .vtanh c f => mkWord c 0x55 (encV2 f 0 0 4)
  | .verf c f => mkWord c 0x55 (encV2 f 0 0 5)
  | .vrrot c s f => mkWord c 0x56 (encV2 f 0 0 0 + s * 2 ^ 24)
  | .vrbc c s f => mkWord c 0x56 (encV2 f 0 0 1 + s * 2 ^ 24)
  | .vrred c k f => mkWord c 0x56 (encV2 f 0 0 (2 + 4 * k.code))
  | .vcrot c s f => mkWord c 0x57 (encV2 f 0 0 0 + s * 2 ^ 24)
  | .vcbc c s f => mkWord c 0x57 (encV2 f 0 0 1 + s * 2 ^ 24)
  | .vcred c k f => mkWord c 0x57 (encV2 f 0 0 (2 + 4 * k.code))
  | .vtrn16 c f => mkWord c 0x58 (encV2 f 0 0 0)
  | .vamax c m f => mkWord c 0x59 (encV2 f 0 0 m.code)
  | .vqnt c fmt rm f => mkWord c 0x5A (encV3 f fmt false rm.code)
  | .vdqnt c fmt f => mkWord c 0x5B (encV3 f fmt false 0)
  | .vld c f => mkWord c 0x5C (encVM f 0)
  | .vst c f => mkWord c 0x5D (encVM f 0)
  | .vldm c q f => mkWord c 0x5E (encVM f q)
  | .vstm c f => mkWord c 0x5F (encVM f 0)
  | .voptw c sr g f vc => mkWord c 0x60 (encV3 f vc.n vc.rot (g + 40 * b2n sr))
  | .pand c d a b p => mkWord c 0x61 (encP d a b p 0)
  | .por c d a b p => mkWord c 0x61 (encP d a b p 1)
  | .pnot c d a p => mkWord c 0x61 (encP d a ⟨0, false⟩ p 2)
  | .pset c d n p => mkWord c 0x61 (encP d ⟨n, false⟩ ⟨0, false⟩ p 3)
  | .mldb c sa pn tx => mkWord c 0x70 (fmtX sa 0 pn 0 tx false false 0 false 0 0)
  | .mma c sa pn t tx zc sat => mkWord c 0x71 (fmtX sa 0 pn t tx zc sat 0 false 0 0)
  | .mscfg c n => mkWord c 0x72 n
  | .msamp c d sa pn t tx zc => mkWord c 0x73 (fmtX sa 0 pn t tx zc false 0 false 0 d)
  | .accz c t => mkWord c 0x74 (fmtX 0 0 0 t false false false 0 false 0 0)
  | .accrd c t rm sat fmt vd => mkWord c 0x75 (fmtX 0 0 0 t false false sat rm.code fmt.isSome (encFmt fmt) vd)
  | .accwr c t fmt vs => mkWord c 0x76 (fmtX 0 0 0 t false false false 0 fmt.isSome (encFmt fmt) vs)
  | .accq c sa sb t rm fmt blk =>
    mkWord c 0x77 (fmtX sa sb 0 t false false false rm.code fmt.isSome (encFmt fmt) (b2n blk))
  | .accst c sa t => mkWord c 0x78 (fmtX sa 0 0 t false false false 0 false 0 0)
  | .accld c sa t => mkWord c 0x79 (fmtX sa 0 0 t false false false 0 false 0 0)
  | .strcfg c n ra imm => mkWord c 0x80 (fmtI n ra 0 imm.toNat)
  | .strset c n ra w => mkWord c 0x81 (fmtI n ra w 0)
  | .strld c sa sb tx => mkWord c 0x82 (fmtX sa sb 0 0 tx false false 0 false 0 0)
  | .strst c sa sb => mkWord c 0x83 (fmtX sa sb 0 0 false false false 0 false 0 0)
  | .stradv c sa k => mkWord c 0x84 (fmtX sa 0 0 0 false false false 0 false 0 k)
  | .tilereq c g ctr buf rd w hb => mkWord c 0x85 (fmtE g ctr false false 0 buf rd (b2n w + 2 * b2n hb))
  | .pgreq c g ctr buf rd w => mkWord c 0x86 (fmtE g ctr false false 0 buf rd (b2n w))
  | .cpy c e => mkWord c 0x90 (encE e)
  | .cpyr c e => mkWord c 0x91 (encE e)
  | .stash c e => mkWord c 0x92 (encE e)
  | .stfetch c e => mkWord c 0x93 (encE e)
  | .stdrop c e => mkWord c 0x94 (encE e)
  | .chsend c e => mkWord c 0x95 (encE e)
  | .chrecv c e => mkWord c 0x96 (encE e)
  | .chrel c e => mkWord c 0x97 (encE e)
  | .coll c e => mkWord c 0x98 (encE e)
  | .prst c e => mkWord c 0x99 (encE e)
  | .tqpop c d t =>
    match t with
    | some a => mkWord c 0xA0 (fmtR d a 0 0 1)
    | none => mkWord c 0xA0 (fmtR d 0 0 0 0)
  | .tqpush c d a => mkWord c 0xA1 (fmtR d a 0 0 0)
  | .tarm c d a b => mkWord c 0xA2 (fmtR d a b 0 0)
  | .tdone c a => mkWord c 0xA3 (fmtR 0 a 0 0 0)
  | .ttrig c => mkWord c 0xA4 0
  | .mbpost c g d => mkWord c 0xA5 (fmtE g 0 false false 0 0 d 0)
  | .pennLoad c d a b => mkWord c 0xA6 (fmtR d a b 0 0)
  | .pennStart c d a => mkWord c 0xA6 (fmtR d a 0 0 1)
  | .pennStop c d a => mkWord c 0xA6 (fmtR d a 0 0 2)
  | .pennUnload c d a => mkWord c 0xA6 (fmtR d a 0 0 3)
  | .pennStat c d a => mkWord c 0xA6 (fmtR d a 0 0 4)
  | .relaunch c d a => mkWord c 0xA7 (fmtR d a 0 0 0)
  | .traceAdd c a b r => mkWord c 0xA8 (fmtR 0 a b r 0)
  | .tracePath c a => mkWord c 0xA8 (fmtR 0 a 0 0 1)
  | .vernew c d a => mkWord c 0xA9 (fmtR d a 0 0 0)
  | .verpin c d a b r slot => mkWord c 0xAA (fmtR d a b r slot)
  | .verdrop c d a b => mkWord c 0xAB (fmtR d a b 0 0)
  | .phase c sc acq rel => mkWord c 0xB0 (sc + 16 * b2n acq + 32 * b2n rel)
  | .fence c l s e => mkWord c 0xB1 (b2n l + 2 * b2n s + 4 * b2n e)
  | .bar c sc acq rel d a t =>
    match t with
    | some b => mkWord c 0xB2 (fmtR d a b 0 (sc + 16 * b2n acq + 32 * b2n rel + 64))
    | none => mkWord c 0xB2 (fmtR d a 0 0 (sc + 16 * b2n acq + 32 * b2n rel))
  | .icinv c => mkWord c 0xB3 0
  | .sysr c d num md => mkWord c 0xC0 (fmtI d 0 md num)
  | .sysw c s num md => mkWord c 0xC1 (fmtI s 0 md num)
  | .xlinv c s md => mkWord c 0xC1 (fmtI s 0 md 0x040)
  | .trap c code => mkWord c 0xC2 code.toNat
  | .eret c => mkWord c 0xC3 0
  | .sleep c a => mkWord c 0xC4 (fmtR 0 a 0 0 0)
  | _ => 0

/-- The instruction the decoder reads from the word `w`: one 64-bit word is the longest instruction (R77), stored
little-endian (R3), so the table's bit numbers are the word's own; bits above `nbits` are 0. -/
def decodeTableWord (nbits w : Nat) : Option Instr :=
  match decode (w % 2 ^ min nbits 64) with
  | .ok i => some i
  | _ => none

end Sys2Proof
end

