-- ==== Sys2Proof/Machine/Numbers.lean ====
section
/-! DEFINITION. Exact values, the 24 operand formats, the rounding modes and the conversions (R118 to R133).
A finite value is a sign and a rational magnitude n ÷ d × 2^e, so every operation is exact and rounding is one
function. -/

namespace Sys2Proof.Machine

/-- The sticky flags of one result, in the order of FSTAT: NV [0], DZ [1], OF [2], UF [3], NX [4] (R93, R133). -/
abbrev Flags := BitVec 5

def fNone : Flags := 0
def fNV : Flags := 1
def fDZ : Flags := 2
def fOF : Flags := 4
def fUF : Flags := 8
def fNX : Flags := 16

/-- The flag `f` when `b` holds. -/
def flagIf (b : Bool) (f : Flags) : Flags := if b then f else 0

/-- An exact value: a NaN (or NaR), a signed infinity, or (−1)^neg × n ÷ d × 2^e; n = 0 is a signed zero. -/
inductive Val where
  | nan
  | inf (neg : Bool)
  | fin (neg : Bool) (n d : Nat) (e : Int)
  deriving DecidableEq, Repr

def Val.zero (neg : Bool) : Val := .fin neg 0 1 0
def Val.ofInt (x : Int) : Val := .fin (x < 0) x.natAbs 1 0
def Val.isNan : Val → Bool
  | .nan => true
  | _ => false
def Val.isZero : Val → Bool
  | .fin _ n _ _ => n == 0
  | _ => false
def Val.isFin : Val → Bool
  | .fin .. => true
  | _ => false
def Val.sign : Val → Bool
  | .nan => false
  | .inf s => s
  | .fin s _ _ _ => s
def Val.neg : Val → Val
  | .nan => .nan
  | .inf s => .inf (!s)
  | .fin s n d e => .fin (!s) n d e
def Val.abs : Val → Val
  | .nan => .nan
  | .inf _ => .inf false
  | .fin _ n d e => .fin false n d e

/-! Rounding (R127). -/

/-- 2^k as a Nat for k ≥ 0, and 1 below. -/
def pow2 (k : Int) : Nat := 2 ^ k.toNat

/-- Rotate a generator word left by `k mod 32` bits (R128). -/
def rotl32 (w k : Nat) : Nat := (w * 2 ^ (k % 32) + w / 2 ^ (32 - k % 32)) % 2 ^ 32

/-- Whether the discarded part `rem ÷ den` of a magnitude rounds up, `k` being the kept bits, `neg` the sign and `r`
the lane's 32-bit generator word (R127). The SR line is R127's d + r ≥ 2^w written for every width w at once. -/
def roundsUp (rm : Rm) (r : Nat) (neg : Bool) (k rem den : Nat) : Bool :=
  match rm with
  | .rne => den < 2 * rem || (den == 2 * rem && k % 2 == 1)
  | .rna => den ≤ 2 * rem
  | .rtz => false
  | .rup => !neg && rem != 0
  | .rdn => neg && rem != 0
  | .sr => 2 ^ 32 * den ≤ rem * 2 ^ 32 + r * den

/-- n ÷ d × 2^e rounded to a multiple of 2^q: the multiple, and whether it is inexact. -/
def roundMag (rm : Rm) (r : Nat) (neg : Bool) (n d : Nat) (e q : Int) : Nat × Bool :=
  let num := n * pow2 (e - q)
  let den := d * pow2 (q - e)
  let k := num / den
  let rem := num % den
  (if roundsUp rm r neg k rem den then k + 1 else k, rem != 0)

/-- floor(log2 (n ÷ d × 2^e)) for n, d > 0. -/
def ilog2 (n d : Nat) (e : Int) : Int :=
  let g := (Nat.log2 n : Int) - (Nat.log2 d : Int)
  -- 2^(g-1) < n/d < 2^(g+1)
  if d * pow2 g ≤ n * pow2 (-g) then g + e else g - 1 + e

/-! Float formats (R118, R120, R121). -/

/-- What a float format does with what it cannot hold (R121, R130). -/
inductive FKind where
  | ieee      -- infinities and NaNs
  | nanOnly   -- E4M3
  | plain     -- no special pattern
  deriving DecidableEq, Repr

/-- A float format: fraction bits, exponent bits, bias and specials. -/
structure FFmt where
  m : Nat
  x : Nat
  bias : Int
  kind : FKind
  deriving DecidableEq, Repr

def fmtF32 : FFmt := ⟨23, 8, 127, .ieee⟩
def fmtF19 : FFmt := ⟨10, 8, 127, .ieee⟩
def fmtF16 : FFmt := ⟨10, 5, 15, .ieee⟩
def fmtBF16 : FFmt := ⟨7, 8, 127, .ieee⟩
def fmtE5M2 : FFmt := ⟨2, 5, 15, .ieee⟩
def fmtE4M3 : FFmt := ⟨3, 4, 7, .nanOnly⟩
def fmtE3M4 : FFmt := ⟨4, 3, 3, .plain⟩
def fmtE3M2 : FFmt := ⟨2, 3, 3, .plain⟩
def fmtE2M3 : FFmt := ⟨3, 2, 1, .plain⟩
def fmtE2M1 : FFmt := ⟨1, 2, 1, .plain⟩

/-- The exponent of the smallest normal. -/
def FFmt.emin (f : FFmt) : Int := 1 - f.bias

/-- The largest finite magnitude as (significand, exponent of its unit). -/
def FFmt.largest (f : FFmt) : Nat × Int :=
  let top : Int := 2 ^ f.x - 1
  match f.kind with
  | .ieee => (2 ^ (f.m + 1) - 1, top - 1 - f.bias - f.m)
  | .nanOnly => (2 ^ (f.m + 1) - 2, top - f.bias - f.m)
  | .plain => (2 ^ (f.m + 1) - 1, top - f.bias - f.m)

/-- The pattern without sign of k × 2^q, for k below 2^(m+1) and q at least emin − m. -/
def FFmt.pack (f : FFmt) (k : Nat) (q : Int) : Nat :=
  if k < 2 ^ f.m then k
  else if k = 2 ^ (f.m + 1) then (q + 1 + f.m + f.bias).toNat * 2 ^ f.m
  else (q + f.m + f.bias).toNat * 2 ^ f.m + (k - 2 ^ f.m)

/-- The pattern of the largest finite value. -/
def FFmt.packLargest (f : FFmt) : Nat := f.pack f.largest.1 f.largest.2

def FFmt.signBit (f : FFmt) (neg : Bool) : Nat := if neg then 2 ^ (f.m + f.x) else 0
def FFmt.packInf (f : FFmt) : Nat := (2 ^ f.x - 1) * 2 ^ f.m

/-- The canonical NaN (R121); the plain formats have none and write +0 (R130). -/
def FFmt.packNan (f : FFmt) : Nat :=
  match f.kind with
  | .ieee => (2 ^ f.x - 1) * 2 ^ f.m + 2 ^ (f.m - 1)
  | .nanOnly => (2 ^ f.x - 1) * 2 ^ f.m + (2 ^ f.m - 1)
  | .plain => 0

/-- The value of a pattern (R120, R121). -/
def FFmt.decode (f : FFmt) (p : Nat) : Val :=
  let neg := p / 2 ^ (f.m + f.x) % 2 == 1
  let e := p / 2 ^ f.m % 2 ^ f.x
  let fr := p % 2 ^ f.m
  if f.kind == .ieee && e == 2 ^ f.x - 1 then (if fr == 0 then .inf neg else .nan)
  else if f.kind == .nanOnly && e == 2 ^ f.x - 1 && fr == 2 ^ f.m - 1 then .nan
  else if e == 0 then .fin neg fr 1 (f.emin - f.m)
  else .fin neg (2 ^ f.m + fr) 1 ((e : Int) - f.bias - f.m)

/-- The result of an overflow by mode: true for the infinity, false for the largest finite value (R131). -/
def overflowsToInf (rm : Rm) (neg : Bool) : Bool :=
  match rm with
  | .rne | .rna | .sr => true
  | .rtz => false
  | .rup => !neg
  | .rdn => neg

/-- Encode a value into a float format: pattern and flags (R127, R130, R131, R133). -/
def FFmt.encode (f : FFmt) (rm : Rm) (r : Nat) (v : Val) : Nat × Flags :=
  match v with
  | .nan => (f.packNan, flagIf (f.kind == .plain) fNV)
  | .inf neg =>
    if f.kind == .ieee then (f.signBit neg + f.packInf, 0) else (f.signBit neg + f.packLargest, fOF)
  | .fin neg n d e =>
    if n = 0 then (f.signBit neg, 0) else
    let x := ilog2 n d e
    let qn := x - f.m
    let q := max qn (f.emin - f.m)
    let (k, nx) := roundMag rm r neg n d e q
    let (lk, lq) := f.largest
    if lk * pow2 (lq - q) < k * pow2 (q - lq) then
      if f.kind == .ieee && overflowsToInf rm neg then (f.signBit neg + f.packInf, fOF ||| fNX)
      else (f.signBit neg + f.packLargest, fOF ||| fNX)
    else
      let (kn, _) := roundMag rm r neg n d e qn
      -- tininess after rounding with the exponent unbounded (R133)
      let tiny := kn * pow2 (qn - f.emin) < pow2 (f.emin - qn)
      (f.signBit neg + f.pack k q, flagIf nx fNX ||| flagIf (nx && tiny) fUF)

/-! Tapered formats (R122, R124). -/

/-- The length of the run of bits equal to `b` from bit `i` downward in `t`, at most i + 1. -/
def runLen (t : Nat) (b : Bool) : Nat → Nat
  | 0 => if bit t 0 == b then 1 else 0
  | i + 1 => if bit t (i + 1) == b then runLen t b i + 1 else 0

/-- Decode a tapered pattern of `n` bits with exponent size `es` (R122). -/
def tapDecode (n es p : Nat) : Val :=
  if p = 0 then .zero false
  else if p = 2 ^ (n - 1) then .nan
  else
    let s := bit p (n - 1)
    let p' := if s then (2 ^ n - p) % 2 ^ n else p
    let t := p' % 2 ^ (n - 1)
    let lead := bit t (n - 2)
    let m := runLen t lead (n - 2)
    let k : Int := if lead then (m : Int) - 1 else -(m : Int)
    -- the bits below the run and its terminating bit
    let restLen := n - 1 - (m + 1)
    let rest := t % 2 ^ restLen
    let e := if es ≤ restLen then rest / 2 ^ (restLen - es) else rest * 2 ^ (es - restLen)
    let fLen := restLen - es
    let fr := rest % 2 ^ fLen
    .fin s (2 ^ fLen + fr) 1 ((2 ^ es : Int) * k + e - fLen)

/-- Encode into a tapered format (R124). -/
def tapEncode (n es : Nat) (rm : Rm) (r : Nat) (v : Val) : Nat × Flags :=
  match v with
  | .nan | .inf _ => (2 ^ (n - 1), fNV)
  | .fin neg num d e =>
    if num = 0 then (0, 0) else
    let x := ilog2 num d e
    let k := x.fdiv (2 ^ es)
    let ee := (x.fmod (2 ^ es)).toNat
    -- num ÷ d × 2^(e−x) = 1.f
    let a := num * pow2 (e - x)
    let b := d * pow2 (x - e)
    let regime : Nat := if 0 ≤ k then 2 ^ (k.toNat + 2) - 2 else 1
    let rLen : Int := if 0 ≤ k then k + 2 else -k + 1
    let (kept, nx) := roundMag rm r neg ((regime * 2 ^ es + ee) * b + (a - b)) (b * 2 ^ es) ((n : Int) - 1 - rLen) 0
    let largestX : Int := (2 ^ es : Int) * ((n : Int) - 2)
    let top := largestX < x || (x == largestX && b < a)
    let mag := if top then 2 ^ (n - 1) - 1 else if kept = 0 then 1 else kept
    let fl := if top then fOF ||| fNX else if kept = 0 then fUF ||| fNX else flagIf nx fNX
    (if neg then (2 ^ n - mag) % 2 ^ n else mag, fl)

/-! The operand formats (R118). -/

/-- The width in bits of an element of format `c` (R118). -/
def fmtBits (c : Nat) : Nat :=
  if c ≤ 1 then 32 else if c ≤ 3 then 16 else if c ≤ 6 then 8 else if c ≤ 8 then 6 else if c = 9 then 4
  else if c ≤ 12 then 8 else if c ≤ 15 then 6 else if c = 16 then 16 else if c ≤ 18 then 8
  else if c ≤ 20 then 4 else if c ≤ 22 then 2 else 1

/-- The aligned width W of R17 (R118). -/
def fmtAligned (c : Nat) : Nat :=
  match c with
  | 0 => 28 | 1 => 15 | 2 => 15 | 3 => 12 | 4 => 7 | 5 => 8 | 6 => 9 | 7 => 7 | 8 => 8 | 9 => 5
  | 10 => 10 | 11 => 10 | 12 => 10 | 13 => 8 | 14 => 8 | 15 => 8
  | 16 => 16 | 17 => 8 | 18 => 8 | 19 => 4 | 20 => 4 | 21 => 2 | 22 => 2 | _ => 1

/-- The integer-class formats I16, I8, N8, I4, N4, I2, TER2 and SGN1 (codes 16–23). -/
def fmtIsInt (c : Nat) : Bool := 16 ≤ c && c ≤ 23

/-- The float layout of a code 0–9. -/
def fmtFloat (c : Nat) : FFmt :=
  match c with
  | 0 => fmtF32 | 1 => fmtF19 | 2 => fmtF16 | 3 => fmtBF16 | 4 => fmtE5M2 | 5 => fmtE4M3
  | 6 => fmtE3M4 | 7 => fmtE3M2 | 8 => fmtE2M3 | _ => fmtE2M1

/-- Two's complement of a `w`-bit pattern. -/
def sint (w p : Nat) : Int := if 2 ^ (w - 1) ≤ p % 2 ^ w then (p % 2 ^ w : Int) - 2 ^ w else (p % 2 ^ w : Int)

/-- The pattern of an integer in `w` bits. -/
def uint (w : Nat) (x : Int) : Nat := (x.emod (2 ^ w)).toNat

/-- Decode the pattern `p` of format `c`; the flag is NV for a TER2 pattern 10b (R118, R133). -/
def fmtDecode (c p : Nat) : Val × Flags :=
  if c = 1 then (fmtF19.decode (p / 2 ^ 13), 0)
  else if c ≤ 9 then ((fmtFloat c).decode p, 0)
  else if c ≤ 12 then (tapDecode 8 (c - 10) (p % 256), 0)
  else if c ≤ 15 then (tapDecode 6 (c - 13) (p % 64), 0)
  else match c with
    | 16 => (.ofInt (sint 16 p), 0)
    | 17 => (.ofInt (sint 8 p), 0)
    | 18 => (.ofInt (p % 256 : Nat), 0)
    | 19 => (.ofInt (sint 4 p), 0)
    | 20 => (.ofInt (p % 16 : Nat), 0)
    | 21 => (.ofInt (sint 2 p), 0)
    | 22 => (.ofInt (match p % 4 with | 1 => 1 | 3 => -1 | _ => 0), flagIf (p % 4 == 2) fNV)
    | _ => (.ofInt (if p % 2 == 1 then -1 else 1), 0)

/-- The least and greatest value of an integer-class format (R118). -/
def fmtRange (c : Nat) : Int × Int :=
  match c with
  | 16 => (-32768, 32767) | 17 => (-128, 127) | 18 => (0, 255) | 19 => (-8, 7) | 20 => (0, 15)
  | 21 => (-2, 1) | _ => (-1, 1)

def clampInt (lo hi x : Int) : Int := if x < lo then lo else if hi < x then hi else x

/-- Convert to an integer range: the bound and NV for what it cannot hold, NX if inexact (R130). -/
def toIntRange (lo hi : Int) (rm : Rm) (r : Nat) (v : Val) : Int × Flags :=
  match v with
  | .nan => (0, fNV)
  | .inf neg => (if neg then lo else hi, fNV)
  | .fin neg n d e =>
    let (k, nx) := roundMag rm r neg n d e 0
    let x : Int := if neg then -(k : Int) else k
    if x < lo then (lo, fNV) else if hi < x then (hi, fNV) else (x, flagIf nx fNX)

/-- Convert to SGN1: the sign, NX unless the value is ±1 (R130). -/
def toSgn1 (v : Val) : Nat × Flags :=
  match v with
  | .nan => (0, fNV)
  | .inf neg => (if neg then 1 else 0, 0)
  | .fin neg n d e =>
    let one := n * pow2 e == d * pow2 (-e)
    (if neg then 1 else 0, flagIf (!one) fNX)

/-- The pattern of an integer in an integer-class format other than SGN1; TER2 writes 00b, 01b or 11b. -/
def fmtIntPattern (c : Nat) (x : Int) : Nat := uint (fmtBits c) x

/-- Encode a value into format `c` (R130, R131, R124). -/
def fmtEncode (c : Nat) (rm : Rm) (r : Nat) (v : Val) : Nat × Flags :=
  if c = 1 then let (p, f) := fmtF19.encode rm r v; (p * 2 ^ 13, f)
  else if c ≤ 9 then (fmtFloat c).encode rm r v
  else if c ≤ 12 then tapEncode 8 (c - 10) rm r v
  else if c ≤ 15 then tapEncode 6 (c - 13) rm r v
  else if c = 23 then toSgn1 v
  else
    let (x, f) := toIntRange (fmtRange c).1 (fmtRange c).2 rm r v
    (fmtIntPattern c x, f)

/-- Encode an integer source into format `c`: clamped without a flag into the integer class (R130). -/
def fmtEncodeInt (c : Nat) (rm : Rm) (r : Nat) (x : Int) : Nat × Flags :=
  if c = 23 then toSgn1 (.ofInt x)
  else if fmtIsInt c then (fmtIntPattern c (clampInt (fmtRange c).1 (fmtRange c).2 x), 0)
  else fmtEncode c rm r (.ofInt x)

/-- The signed integer formats, whose patterns are sign-extended in a 32-bit element (R154, R371). -/
def fmtSigned (c : Nat) : Bool := c == 16 || c == 17 || c == 19 || c == 21

/-- A pattern of format `c` in a 32-bit element: sign-extended for I16, I8, I4 and I2 (R154, R371). -/
def fmtExtend (c p : Nat) : Nat := if fmtSigned c then uint 32 (sint (fmtBits c) p) else p

/-- Scale bytes and the tensor scale (R125): SMODE 001b, 010b, 011b. -/
def scaleDecode (smode p : Nat) : Val :=
  match smode with
  | 1 => if p % 256 = 255 then .nan else .fin false 1 1 ((p % 256 : Nat) - 127 : Int)
  | 2 => if 128 ≤ p % 256 then .nan else fmtE4M3.decode (p % 256)
  | 3 => fmtF32.decode p
  | _ => .fin false 1 1 0

/-! Exact arithmetic on values (R132). -/

/-- (−1)^neg × n as an integer. -/
def signed (neg : Bool) (n : Nat) : Int := if neg then -(n : Int) else n

/-- The sum of two finite values; an exact zero of R132 takes the sign `z`. -/
def addFin (z s1 : Bool) (n1 d1 : Nat) (e1 : Int) (s2 : Bool) (n2 d2 : Nat) (e2 : Int) : Val :=
  if n1 = 0 ∧ n2 = 0 then .zero (if s1 == s2 then s1 else z)
  else
    let e := min e1 e2
    let a := signed s1 (n1 * pow2 (e1 - e) * d2)
    let b := signed s2 (n2 * pow2 (e2 - e) * d1)
    let t := a + b
    if t = 0 then .zero z else .fin (t < 0) t.natAbs (d1 * d2) e

/-- a + b with the flags of R132; `z` is the sign of an exact zero (true for RDN). -/
def Val.add (z : Bool) (a b : Val) : Val × Flags :=
  match a, b with
  | .nan, _ | _, .nan => (.nan, 0)
  | .inf s, .inf t => if s == t then (.inf s, 0) else (.nan, fNV)
  | .inf s, _ => (.inf s, 0)
  | _, .inf s => (.inf s, 0)
  | .fin s1 n1 d1 e1, .fin s2 n2 d2 e2 => (addFin z s1 n1 d1 e1 s2 n2 d2 e2, 0)

/-- a × b (R132). -/
def Val.mul (a b : Val) : Val × Flags :=
  match a, b with
  | .nan, _ | _, .nan => (.nan, 0)
  | .inf s, .inf t => (.inf (s != t), 0)
  | .inf s, .fin t n _ _ => if n = 0 then (.nan, fNV) else (.inf (s != t), 0)
  | .fin t n _ _, .inf s => if n = 0 then (.nan, fNV) else (.inf (s != t), 0)
  | .fin s1 n1 d1 e1, .fin s2 n2 d2 e2 => (.fin (s1 != s2) (n1 * n2) (d1 * d2) (e1 + e2), 0)

/-- a × b + c before its one rounding (R132). A NaN operand gives a NaN without NV. -/
def Val.fma (z : Bool) (a b c : Val) : Val × Flags :=
  if a.isNan || b.isNan || c.isNan then (.nan, 0)
  else
    let (p, f) := a.mul b
    let (t, g) := p.add z c
    (t, f ||| g)

/-- a ÷ b: a finite non-zero value over zero is an infinity with DZ (R133, R371). -/
def Val.div (a b : Val) : Val × Flags :=
  match a, b with
  | .nan, _ | _, .nan => (.nan, 0)
  | .inf _, .inf _ => (.nan, fNV)
  | .inf s, .fin t _ _ _ => (.inf (s != t), 0)
  | .fin s _ _ _, .inf t => (.zero (s != t), 0)
  | .fin s n1 d1 e1, .fin t n2 d2 e2 =>
    if n2 = 0 then (if n1 = 0 then (.nan, fNV) else (.inf (s != t), fDZ))
    else (.fin (s != t) (n1 * d2) (d1 * n2) (e1 - e2), 0)

/-- √a to at least 100 bits with a sticky bit below, which decides every rounding to nearest of R375 and R382. -/
def Val.sqrt (a : Val) : Val × Flags :=
  match a with
  | .nan => (.nan, 0)
  | .inf s => if s then (.nan, fNV) else (.inf false, 0)
  | .fin s n d e =>
    if n = 0 then (.zero s, 0)
    else if s then (.nan, fNV)
    else
      -- an even exponent, and enough bits below the point
      let e' := e.fdiv 2
      let n' := if e.fmod 2 = 1 then 2 * n else n
      let k := 120 + Nat.log2 d
      let x := n' * 2 ^ (2 * k)
      let root := Nat.sqrt (x / d)
      let sticky : Nat := if root * root * d = x then 0 else 1
      (.fin false (2 * root + sticky) 1 (e' - k - 1), 0)

/-- Whether a < b by value; −0 equals +0 (R368). -/
def Val.lt (a b : Val) : Bool :=
  match a, b with
  | .nan, _ | _, .nan => false
  | .inf s, .inf t => s && !t
  | .inf s, _ => s
  | _, .inf t => !t
  | .fin s1 n1 d1 e1, .fin s2 n2 d2 e2 =>
    let e := min e1 e2
    signed s1 (n1 * pow2 (e1 - e) * d2) < signed s2 (n2 * pow2 (e2 - e) * d1)

/-- Whether a equals b by value. -/
def Val.eq (a b : Val) : Bool := !a.isNan && !b.isNan && !a.lt b && !b.lt a

/-- min and max of R132: the numeric operand beside a NaN, NV for two, −0 below +0. -/
def Val.minmax (isMax : Bool) (a b : Val) : Val × Flags :=
  match a, b with
  | .nan, .nan => (.nan, fNV)
  | .nan, v => (v, 0)
  | v, .nan => (v, 0)
  | a, b =>
    let aLess := a.lt b || (!b.lt a && a.isZero && b.isZero && a.sign && !b.sign)
    (if aLess == isMax then b else a, 0)

end Sys2Proof.Machine

namespace Sys2Proof

open Sys2Proof.Machine

/-! The vector element types (R84, R89). -/

/-- The width in bits of an element type. -/
def Ty.bits : Ty → Nat
  | .i64 | .n64 => 64
  | .i16 | .n16 | .f16 | .bf16 => 16
  | .i8 | .n8 => 8
  | _ => 32

/-- The byte width per column in memory (R378). -/
def Ty.colBytes : Ty → Nat
  | .i8 | .n8 => 1
  | .i16 | .n16 | .f16 | .bf16 => 2
  | _ => 4

/-- A signed integer type. -/
def Ty.signed : Ty → Bool
  | .i32 | .i64 | .i16 | .i8 => true
  | _ => false

/-- The float layout of TY 8–10. -/
def Ty.ffmt : Ty → FFmt
  | .f16 => fmtF16
  | .bf16 => fmtBF16
  | _ => fmtF32

/-- The least and greatest value of an integer type. -/
def Ty.range (t : Ty) : Int × Int :=
  if t.signed then (-(2 ^ (t.bits - 1)), 2 ^ (t.bits - 1) - 1) else (0, 2 ^ t.bits - 1)

/-- The integer an element pattern of type `t` stands for. -/
def Ty.int (t : Ty) (p : Nat) : Int := if t.signed then sint t.bits p else (p % 2 ^ t.bits : Nat)

/-- The result pattern of type `t` extended to its element: 32 bits, or 64 for a pair (R89). -/
def Ty.extend (t : Ty) (p : Nat) : Nat :=
  if t.is64 then p % 2 ^ 64
  else if t.signed then uint 32 (sint t.bits p) else p % 2 ^ t.bits

/-- The exact value of an element. -/
def Ty.val (t : Ty) (p : Nat) : Val := if t.isFloat then t.ffmt.decode p else .ofInt (t.int p)

/-- Round a value into a float type. -/
def Ty.round (t : Ty) (rm : Rm) (r : Nat) (v : Val × Flags) : Nat × Flags :=
  let (p, f) := t.ffmt.encode rm r v.1
  (p, f ||| v.2)

/-- Convert an element of type `s` to type `t` (R130, R131, R369). -/
def Ty.convert (s t : Ty) (rm : Rm) (r : Nat) (p : Nat) : Nat × Flags :=
  if t.isFloat then t.ffmt.encode rm r (s.val p)
  else if s.isFloat then
    let (x, f) := toIntRange t.range.1 t.range.2 rm r (s.val p)
    (uint t.bits x, f)
  else (uint t.bits (clampInt t.range.1 t.range.2 (s.int p)), 0)

end Sys2Proof

namespace Sys2Proof.Machine

/-! The stochastic generator (R128). -/

/-- One step of the 32-bit xorshift. -/
def xorshift (x : Nat) : Nat :=
  let x := Nat.xor x (x * 2 ^ 13 % 2 ^ 32)
  let x := Nat.xor x (x / 2 ^ 17)
  Nat.xor x (x * 2 ^ 5 % 2 ^ 32)

/-- The seed of converter `c` of core `coreid`. -/
def convSeed (seed coreid c : Nat) : Nat :=
  let x := Nat.xor (Nat.xor seed (coreid * 0x9E3779B9 % 2 ^ 32)) (c * 0x85EBCA6B % 2 ^ 32)
  if x = 0 then 0x6D2B79F5 else x

/-- The generator of L2 slice `s` (R128): the die's seed word XOR a slice constant. -/
def sliceSeed (seed s : Nat) : Nat :=
  let x := Nat.xor seed (s * 0x9E3779B9 % 2 ^ 32)
  if x = 0 then 0x6D2B79F5 else x

end Sys2Proof.Machine
end

