-- ==== Sys2Proof/Config.lean ====
section
/-! DEFINITION. What the spec leaves to the device or leaves open: opaque constants that nothing in Lean can evaluate,
and the schedule's turns. Each is named in the assumption log. -/

namespace Sys2Proof

/-- What the next turn runs (log 4): the next instruction of one sequencer; entry `n` of the accesses that a sequencer
performs late (R223, log 76); the publication of write `n` of those that engines have let go (R234, log 21); a write of the
host to its own memory, `held` when the L2 of die 0 holds an older copy of it (log 78); or an event of the table. -/
inductive Act where
  | issue (core : Nat) (q : SeqId)
  | perform (core : Nat) (q : SeqId) (n : Nat)
  | publish (n : Nat)
  | hostWrite (addr n v : Nat) (held : Bool)
  | event (i : Instr)
  deriving DecidableEq, Repr, Inhabited

/-- One turn of the schedule: how many clocks pass before it (R5), what it runs (log 4), and whether the accesses of an
instruction or the writes of an engine that the spec lets be performed later are (R223, R234). -/
structure Turn where
  dt : Nat
  act : Act
  late : Bool := false
  deriving DecidableEq, Repr, Inhabited

/-- Free values in the order in which steps take them: racing reads, compressed sizes, open choices (log 3). -/
opaque Config.free : Nat → Nat

/-- Turn number n of the schedule, once the turns listed in the state are used up (log 4). -/
opaque Config.turn : Nat → Turn

/-- Which neighbour a transcendental F32 result takes: a fixed function of function and input (R375, log 5). -/
opaque Config.pickUp : Nat → Nat → Bool

/-- The private layout of the SAMPLER, ENGIMG and PANELS images (R273, log 6). -/
opaque Config.imageMask : Nat → Nat → BitVec 8

/-- Bank and row of a physical address (R185, log 7). -/
opaque Config.bankRow : Nat → Nat × Nat

/-- The clocks that a calendar part of a core takes to the controller of an address, from its issue (R183, log 81). -/
opaque Config.transit : Nat → Nat → Nat

/-- Which way of a full L1 set a new line takes, a function of the set's lines (R171, log 79). -/
opaque Config.l1Victim : List Nat → Nat

/-- The CRC-64 of a flit's bytes 0 to 239, whose polynomial the spec does not give (R251, log 82). -/
opaque Config.flitCrc : List (BitVec 8) → Nat

/-- How many bytes a part of 4 KiB that is not all zeros compresses to, a function of its data: 16 plus this modulo
4,097 (R393). -/
opaque Config.partSize : List (BitVec 8) → Nat

/-- The bytes of the report that the device's identity fixes: serial number, the image's hash and public key (R293, log 67). -/
opaque Config.identity : Nat → BitVec 8

/-- The bytes of SHAKE256 over the fuses and BOOTSTAT, a function of BOOTSTAT (R293, log 67). -/
opaque Config.fuseHash : Nat → Nat → BitVec 8

/-- Where the firmware of a die begins (R13, R292, log 66). -/
opaque Config.firmwareEntry : Nat → BitVec 64

end Sys2Proof
end

