-- ==== Sys2Proof/Machine/Store.lean ====
section
/-! DEFINITION. Sparse data in one canonical form: a list of key and value pairs, keys strictly rising, no value equal
to what an unlisted key reads as. -/

namespace Sys2Proof.Machine

abbrev Store (β : Type) := List (Nat × β)

/-- What key `k` reads as; `d` for an unlisted key. -/
def Store.get {β : Type} (d : β) : Store β → Nat → β
  | [], _ => d
  | (a, v) :: t, k => if a = k then v else Store.get d t k

/-- Enter `v` at `k`, keeping the order. -/
def Store.insert {β : Type} (k : Nat) (v : β) : Store β → Store β
  | [] => [(k, v)]
  | (a, w) :: t =>
    if k < a then (k, v) :: (a, w) :: t
    else if k = a then (k, v) :: t
    else (a, w) :: Store.insert k v t

/-- Write `v` at `k`; writing the default removes the entry. -/
def Store.set {β : Type} [DecidableEq β] (d : β) (m : Store β) (k : Nat) (v : β) : Store β :=
  if v = d then m.filter (fun e => e.1 != k) else Store.insert k v m

/-- Whether an entry is the default. -/
def Store.noDefault {β : Type} [DecidableEq β] (d : β) (m : Store β) : Bool := m.all (fun e => e.2 != d)

/-- Whether keys rise strictly. -/
def Store.rising {β : Type} : Store β → Bool
  | [] => true
  | [_] => true
  | (a, _) :: (b, w) :: t => decide (a < b) && Store.rising ((b, w) :: t)

/-- The canonical form. -/
def Store.wf {β : Type} [DecidableEq β] (d : β) (m : Store β) : Bool := m.rising && m.noDefault d

/-- Set `n` keys from `k` on to the values of `f`. -/
def Store.setMany {β : Type} [DecidableEq β] (d : β) (m : Store β) (k : Nat) : List β → Store β
  | [] => m
  | v :: t => Store.setMany d (Store.set d m k v) (k + 1) t

/-- Replace the element at index `i` of a list; an index outside changes nothing. -/
def listSet {β : Type} (l : List β) (i : Nat) (v : β) : List β := l.set i v

/-- A list as long as `n`, filled with `d`. -/
def padTo {β : Type} (d : β) (n : Nat) (l : List β) : List β := l ++ List.replicate (n - l.length) d

end Sys2Proof.Machine
end

