-- ==== Sys2Proof/Machine/State.lean ====
section
/-! DEFINITION. The state of the whole package (R10 to R16): plain data, every field at its reset value by default.
A value that the spec does not give at reset is named in log 1 (registers) and log 2 (memories). -/

namespace Sys2Proof.Machine

/-- A register of 32 bits per key; unlisted registers hold 0. -/
abbrev Regs := Store Word

/-- A queue between two sequencers is numbered 3a + p − 1 (R273). -/
abbrev TokQ := Store Nat

/-- What a sequencer waits in, if its last issue did not complete (R22, R231, R339, R359): the instruction, the clock it
began, whether it has begun its work, and whether the wait is one that the watchdog counts (R280). -/
structure Waiting where
  i : Instr
  since : Nat
  /-- a BAR has arrived, or an XLINV has begun -/
  arrived : Bool := false
  counted : Bool := false
  /-- the clock up to which its stall clocks are counted (R191) -/
  stall : Nat := 0
  deriving DecidableEq, Repr

/-- What a translation gives: a physical address; a place in a die's control space (R285); or why there is none.
`mig` and `pend` wait: the page is being migrated (R219), or the host has not answered yet (R199, R217). -/
inductive Xlat where
  | ok (pa : Nat)
  | ctl (die off : Nat)
  | notmap
  | perm
  | nonres
  | mig
  | pend
  | poison
  deriving DecidableEq, Repr

/-- A tensor descriptor (R200). -/
structure TDesc where
  addr : Nat
  d : List Nat
  ts : List Nat
  fmt : Nat
  tlog : Nat
  vers : Bool
  cur : Nat
  vmask : Nat
  ttbase : List Nat
  deriving DecidableEq, Repr

/-- The two words of a tile table entry and where they stand (R204). -/
structure Tte where
  addr : Nat
  lo : Nat
  hi : Nat
  deriving DecidableEq, Repr

/-- A tile's frame, or why it cannot be read (R205). -/
inductive Tile where
  | ok (pa : Nat) (t : Tte)
  | bad
  | absent
  | notmap
  | poison
  deriving DecidableEq, Repr

/-- One element on the memory side of a transfer: reads as zero or is discarded (ZP), lies in a non-resident page or
tile, stands in bytes of memory from bit `off` of the first, or fails (R345). -/
inductive Spot where
  | zero
  | absent
  | at_ (off : Nat) (pas : List Nat)
  | fail (cause eva : Nat)
  | pend
  deriving DecidableEq, Repr

/-- The memory side as resolved: pages of a KIND 01b transfer, or a tensor's version and its tiles. -/
inductive MemSide where
  | pages (p : List (Nat × Xlat))
  | tiles (d : TDesc) (v : Nat) (t : List (Nat × Tile))
  deriving DecidableEq, Repr

/-- A calendar part: the address of its first chunk, and the clock at which it reached the controller (R183). -/
structure Part where
  at_ : Nat
  since : Nat
  deriving DecidableEq, Repr

/-- What an access that has issued has still to do (R223): a load of `n` bytes at `pa`; the bytes of one granule that a
store puts in the buffer, each with its virtual and physical address and its poison; an atomic with its operand and compare value; a vector load
into physical register `vd`, its elements by position and physical address, and the predicate that takes their residency. -/
inductive LateWork where
  | load (m : MemF) (sx : Bool) (va pa n : Nat)
  | store (ctx : Nat) (bs : List (Nat × Nat × Byte × Bool))
  | atomic (i : Instr) (va pa : Nat) (x k : Nat)
  | vload (t : Ty) (vd : Nat) (pq : Option Nat) (es : List (Nat × Option Nat))
  deriving DecidableEq, Repr

/-- An access that is performed later than its issue (R223, log 76). -/
structure Late where
  id : Nat
  ac : Nat
  work : LateWork
  deriving DecidableEq, Repr

/-- One sequencer (R14, R21, R87, R93). -/
structure Seq where
  g : Regs := []
  gPoison : Nat := 0
  pc : DWord := 0
  parked : Bool := true
  held : Bool := false
  rpc : DWord := 0
  depth : Nat := 0
  li : Store (BitVec 24) := []
  iter : Word := 0
  lc : Word := 0
  ec : Word := 0
  ringv : DWord := 0
  ringp : Word := 0
  fstat : BitVec 5 := 0
  crc : Word := 0xFFFFFFFF
  wait : Option Waiting := none
  /-- signals put back until the sequencer's earlier transfers have retired (R229, R347): queue number, count, and the
  number that the transfers it waits for lie below -/
  sigq : List (Nat × Nat × Nat) := []
  /-- the point of the publication order before which the sequencer executes no word; an ICINV has retired and no branch
  has been taken since: the point it retired at, which is `fetchFrom` from that branch on, and the lines that the cache
  held, each with one above the point it was fetched at (R237) -/
  fetchFrom : Nat := 0
  icPending : Bool := false
  icFrom : Nat := 0
  oldLines : Store Nat := []
  /-- accesses issued and not yet performed, in program order (R223) -/
  late : List Late := []
  deriving DecidableEq, Repr

/-- One buffered byte of a line: offset, value, the storing sequencer and its alias class, poison (R173, R223, R282). -/
structure PByte where
  off : Nat
  val : Byte
  seq : SeqId
  ac : Nat
  poison : Bool
  deriving DecidableEq, Repr

/-- An entry of the phase store buffer, or an overflow line (R173, R281): the context and mode of its store, the virtual
line, and the physical line of the store's translation. -/
structure PLine where
  ctx : Nat
  va : Nat
  pa : Nat
  bytes : List PByte
  deriving DecidableEq, Repr

/-- A stream register: its 11 words (R90). -/
abbrev Stream := List DWord

/-- A footprint in the range checker: the first and last 16-byte word of a local range, and whether it is written (R242). -/
structure Foot where
  first : Nat
  last : Nat
  wr : Bool
  deriving DecidableEq, Repr

/-- A write that an engine has let go and that is not yet published (R234). -/
structure Posted where
  core : Nat
  seq : SeqId
  pa : Nat
  bs : List (Byte × Bool)
  deriving DecidableEq, Repr

/-- A stream transfer in flight (R345, R347): what it read at issue. -/
structure Xfer where
  id : Nat
  seq : SeqId
  load : Bool
  san : Nat
  sa : Stream
  sb : Stream
  tx : Bool
  ctx : Nat
  priv : Bool
  /-- calendar parts still to be served (R183) -/
  parts : List Part
  /-- the memory side and the elements' places as they were translated at issue (R70, R189, R215) -/
  side : MemSide := .pages []
  spots : List Spot := []
  deriving DecidableEq, Repr

/-- A trap that waits for the core's transfers to retire (R269, R347). -/
structure TrapReq where
  seq : SeqId
  cause : Nat
  eva : Nat
  epc : DWord
  deriving DecidableEq, Repr

/-- A pending class A cause (R240, R270). -/
structure PendA where
  seq : SeqId
  cause : Nat
  eva : Nat
  deriving DecidableEq, Repr

/-- A B panel (R140): its 16 KiB of contents in the unit's own layout (log 6), and the owner. No contents: empty. -/
structure Panel where
  img : Store Byte := []
  owner : Nat := 0
  deriving DecidableEq, Repr

/-- The sampler of MSCFG (R156, R157). -/
structure Sampler where
  budget : Nat := 0
  threshold : Nat := 0
  s0 : Nat := 0
  s1 : Nat := 0
  s2 : Nat := 0
  s3 : Nat := 0
  owner : Nat := 0
  deriving DecidableEq, Repr

/-- A range of tiles read by a block (R260, R262). -/
structure TRange where
  t : Nat
  first : Nat
  last : Nat
  deriving DecidableEq, Repr

/-- The fields of a task that hardware keeps from insertion to retirement (R26, R32). -/
structure TaskInfo where
  ctx : Nat
  h : Nat
  key : Nat
  scope : Nat
  tag : Nat
  phase : Nat
  verset : Nat
  stage : Nat
  stagev : Bool
  die : Nat
  cset : Nat
  origin : List Nat
  extent : List Nat
  kinds : List Nat
  nlev : Nat
  entries : List Nat
  traced : Bool
  succ : Nat
  nsucc : Nat
  param : Nat
  paramlen : Nat
  tracebuf : Nat
  deriving DecidableEq, Repr

/-- The entry of a task in one die's Sorting Frame (R36 to R38). -/
structure FrameEnt where
  die : Nat
  at_ : Nat
  age : Nat
  /-- blocks still to be handed out on this die, ascending (R38, R266) -/
  todo : List Nat
  deriving DecidableEq, Repr

/-- A task from insertion to retirement (R32, R406). -/
structure Task where
  info : TaskInfo
  state : Nat
  blkleft : Nat
  trigleft : Nat
  nextblk : Nat
  pf : Bool
  err : Bool
  trigd : Bool
  held : Bool
  status : Nat
  /-- dies whose frames it still has to enter, for want of room (R36) -/
  waiting : List FrameEnt
  frames : List FrameEnt
  /-- scheduled by RELAUNCH: the stamp and the number of blocks selected, and PATHCHG (R265, R266) -/
  relaunch : Option (Nat × Nat)
  pathchg : Bool := false
  deriving DecidableEq, Repr

/-- An invalidation descriptor and where it stands (R214); while the invalidation runs, the number below which the accesses lie
that it waits for, and the frames of the translations it has removed, each with its context, if it has one (R215). -/
structure InvDesc where
  addr : Nat
  start : Nat
  len : Nat
  ctx : Nat
  all : Bool
  kind : Nat
  upto : Nat := 0
  gone : List (Option Nat × Nat × Nat) := []
  deriving DecidableEq, Repr

/-- The block current on a core (R29, R359). -/
structure Block where
  info : TaskInfo
  blk : Nat
  stamp : Nat
  pf : Bool
  trig : Bool
  relaunched : Bool
  ranges : List TRange
  untr : Bool
  satr : Bool
  fltd : Bool
  /-- the word after the TQPOP that delivered it, where the C-seq goes when ENTRY_C is 0 (R26, R45) -/
  after : DWord
  deriving DecidableEq, Repr

/-- One core (R14). -/
structure Core where
  l : Seq := {}
  x : Seq := {}
  s : Seq := {}
  c : Seq := {}
  /-- the C-seq's privileged bank of G1–G63 (R272) -/
  pg : Regs := []
  pgPoison : Nat := 0
  priv : Bool := false
  nest : Nat := 0
  halted : Bool := false
  tag : BitVec 16 := 0
  phase : BitVec 2 := 0
  blk : BitVec 24 := 0
  tcbh : BitVec 24 := 0
  seed : Word := 0
  /-- generators of converters 0–2 once stepped; unlisted: as seeded (R128) -/
  gens : Store Nat := []
  srm : Store DWord := []
  streams : Store Stream := []
  cause : Byte := 0
  epc : DWord := 0
  eva : DWord := 0
  ctx : BitVec 16 := 0
  pcause : DWord := 0
  pepc : DWord := 0
  peva : DWord := 0
  hotb : Store Nat := []
  hots : Store Nat := []
  tokq : TokQ := []
  store : Store Byte := []
  storePoison : Store Bool := []
  psb : List PLine := []
  v : Store (List Word) := []
  vPoison : Store Nat := []
  p : Store Nat := []
  acc : Store (List Word) := []
  accPoison : Store Nat := []
  accOwner : Store Nat := []
  panels : Store Panel := []
  sampler : Sampler := {}
  varr : Word := 0
  nsamp : BitVec 13 := 0
  deferred : Nat := 0
  defmask : Nat := 0
  wdog : BitVec 20 := 0
  preq : Bool := false
  event : Bool := false
  cur : Option Block := none
  /-- the current block stands in a handler (R45) -/
  inHandler : Bool := false
  pend : List PendA := []
  trapping : Option TrapReq := none
  xfers : List Xfer := []
  /-- the image of the copy engine's stopped commands (R273, R280) -/
  engimg : Store Byte := []
  /-- CORECTL[0] has been written and the reset still waits (R277) -/
  resetting : Bool := false
  /-- the point of the publication order of the core's last acquire (R222, R228) -/
  acq : Nat := 0
  /-- per granule, the point of the core's latest load (R222) -/
  seen : Store Nat := []
  /-- the lines in the L1 data cache, by set (R171) -/
  l1 : Store (List Nat) := []
  /-- the lines in the instruction cache, each with the point one above the one at which it was fetched (R237) -/
  iLines : Store Nat := []
  /-- the invalidation whose acknowledgement an XLINV waits for (R214) -/
  inval : Option InvDesc := none
  deriving DecidableEq, Repr

/-- The kinds of engine commands (R238 to R257, R210). -/
inductive CmdKind where
  | cpy | cpyr | stash | stfetch | stdrop | chsend | chrecv | chrel | coll | prst
  | tilereq (w hb : Bool)
  | pgreq (w : Bool)
  deriving DecidableEq, Repr

/-- What a walker has done of its COLL (R252 to R254): the record's 24 words; the transfers emitted, applied and
acknowledged; the peer entries read; the channels of its transfers that are not yet acknowledged; and in
shared-exponent mode the peers that round 1 has been sent to, the values v, the round-1 messages applied, the exponents and special
marks per block, and whether WORK holds the encoded elements. -/
structure Walk where
  words : List Nat := []
  started : Bool := false
  iter : Nat := 0
  applied : Nat := 0
  acked : Nat := 0
  peers : Store Nat := []
  sent : List Nat := []
  told : Nat := 0
  vs : List Nat := []
  eb : List Int := []
  special : List Bool := []
  round1 : Nat := 0
  encoded : Bool := false
  /-- the walker's number on its die, and the blocks of WORK that have received an addition (R254) -/
  no : Nat := 0
  added : List Nat := []
  deriving DecidableEq, Repr

/-- An outstanding engine command (R25, R238). -/
structure Cmd where
  id : Nat
  kind : CmdKind
  op : Nat
  core : Nat
  seq : SeqId
  ctr : Nat
  g0 : Word
  g1 : Word
  g2 : Word
  g3 : Word
  ctx : Nat
  priv : Bool
  acq : Bool
  rel : Bool
  scope : Nat
  buf : Nat
  rd : Nat
  /-- the block it was issued in, for its stage and its read set (R247, R262) -/
  block : Option Block
  since : Nat
  /-- 0 issued; for a calendar copy 1 its parts are queued; for a CHSEND 1 sent; for a STASH 1 stalled; for an STFETCH 1
  waiting for a frame; for a PRST 1 contributed, 2 its result is ready; for a PGREQ or TILEREQ 1 requested -/
  phase : Nat := 0
  prog : Nat := 0
  flags : BitVec 5 := 0
  walk : Walk := {}
  /-- calendar parts still to be served, as for a stream transfer -/
  parts : List Part := []
  /-- a copy has been admitted to the range checker: its descriptor as read, or the status of a failed read, and its
  footprints (R242) -/
  admitted : Bool := false
  words : List Nat := []
  code : Nat := 0
  feet : List Foot := []
  deriving DecidableEq, Repr

/-- An arrival record in a queue (R54, R55). -/
structure QRec where
  lo : DWord
  hi : DWord
  clk : Nat
  used : Bool
  deriving DecidableEq, Repr

/-- An arrival queue: its unreused entries, oldest first, and the ring place of the first (R55). -/
structure ArrQ where
  head : Nat := 0
  recs : List QRec := []
  deriving DecidableEq, Repr

/-- A tag in flight (R58, R63). -/
structure TagSlot where
  tag : Nat
  relB : Bool := false
  relW : Bool := false
  doneF : Bool := false
  doneB : Bool := false
  failed : Bool := false
  /-- the version-set entry of the slot (R71) -/
  vset : Nat := 0
  deriving DecidableEq, Repr

/-- A stage slot of the pennant scheduler (R48 to R53). -/
structure StageSlot where
  state : Nat := 0
  entry : Nat := 0
  repleft : Nat := 0
  holdv : Bool := false
  holdvSince : Nat := 0
  verfull : Bool := false
  stray : Bool := false
  isNew : Bool := false
  /-- something has happened since the last evaluation (R64) -/
  due : Bool := false
  /-- HOLDS as the last evaluation saw it -/
  heldSeen : Bool := false
  ctx : Nat := 0
  desc : List Nat := []
  ptab : List Nat := []
  tags : Store (Option TagSlot) := []
  qf : ArrQ := {}
  qb : ArrQ := {}
  qw : ArrQ := {}
  nextF : Nat := 0
  nextB : Nat := 0
  nextW : Nat := 0
  deriving DecidableEq, Repr

/-- A contribution to a push reduction (R256): the core, its command and its elements. -/
structure Contrib where
  core : Nat
  cmd : Nat
  els : List Nat
  deriving DecidableEq, Repr

/-- An entry of the group table (R255) with the episodes of PRST and BAR (R231, R256). -/
structure Group where
  valid : Bool := false
  op : Nat := 0
  tree : Bool := false
  state : Nat := 0
  count : Nat := 0
  timeout : Nat := 0
  root : Nat := 0
  part : Nat := 0
  contribs : List Contrib := []
  since : Nat := 0
  barCores : List Nat := []
  /-- a superstep is open and nothing has broken it (R232) -/
  step : Bool := false
  /-- every arrival of this episode so far bounds supersteps: ACQ, REL and a scope that covers the participants -/
  whole : Bool := true
  /-- the point of the publication order at which it opened -/
  stepAt : Nat := 0
  /-- what the arrivals' releases have published: granule and point (R232) -/
  barPubs : List (Nat × Nat) := []
  deriving DecidableEq, Repr

/-- A free-frame pool (R213). -/
structure Pool where
  base : Nat := 0
  count : Nat := 0
  cap : Nat := 0
  empty : Bool := false
  deriving DecidableEq, Repr

/-- A stash directory entry (R246). -/
structure DirEnt where
  place : Nat
  ctx : Nat
  tensor : Nat
  first : Nat
  last : Nat
  tag : Nat
  slot : Nat
  cls : Nat
  deriving DecidableEq, Repr

/-- A compressed tile's run of arena units with its private contents (R246). -/
structure ArenaRun where
  unit : Nat
  units : Nat
  data : Store Byte
  poisoned : Bool
  deriving DecidableEq, Repr

/-- A mailbox message of a unit that waits for room in the ring (R290). -/
structure MailMsg where
  w0 : DWord
  w1 : DWord
  w2 : DWord
  w3 : DWord
  deriving DecidableEq, Repr

/-- An L2 line's migration record (R175): recorded quad, count and holding slice. -/
structure LineRec where
  quad : Nat := 0
  count : Nat := 0
  holder : Option Nat := none
  moved : Nat := 0
  deriving DecidableEq, Repr

/-- The disturbance tracker of a bank (R186). -/
structure Tracker where
  ents : List (Nat × Nat) := List.replicate 16 (0, 0)
  sp : Nat := 0
  deriving DecidableEq, Repr

/-- A DRAM channel's controller (R182 to R187). -/
structure Channel where
  /-- per bank, the row last accessed since a refresh, and whether it was left open (R185) -/
  rows : Store (Option (Nat × Bool)) := []
  preds : Store (BitVec 2) := []
  trackers : Store Tracker := []
  /-- directed refreshes that wait: bank and row -/
  drfm : List (Nat × Nat) := []
  /-- more than 32 have waited, and not yet fewer than 16 since (R187) -/
  held : Bool := false
  deriving DecidableEq, Repr

/-- A message of a COLL in the hold buffer (R253): `src` is the number of the command that sent it, when its walker
stands on this package, and `via` the channel it came on from another. -/
structure CollMsg where
  cid : Nat
  round1 : Bool
  off : Nat
  payload : List (Byte × Bool)
  src : Option Nat
  via : Option Nat
  deriving DecidableEq, Repr

/-- A tile move in progress (R189, R190, R247, R248): the agent's die, the tile, its old frame and pool, the frame taken for
it and the pool that one came from, the point of the publication order at which the copy began, and the command that it
serves, none for firmware's. -/
structure Move where
  die : Nat
  ctx : Nat
  tensor : Nat
  ver : Nat
  tile : Nat
  old : Nat
  oldPool : Nat
  new : Nat
  newPool : Nat
  since : Nat
  restarts : Nat
  cmd : Option Nat
  deriving DecidableEq, Repr

/-- A frame that a tile has left and whose accesses are still draining (R189 step 4). -/
structure OldFrame where
  pool : Nat
  frame : Nat
  deriving DecidableEq, Repr

/-- One die (R15) with its control-space registers (R285). -/
structure Die where
  agesh : BitVec 4 := 4
  fullseen : Bool := false
  lastTick : Nat := 0
  stages : Store StageSlot := []
  l2seed : Word := 1
  sliceGens : Store Nat := []
  trkth : BitVec 16 := 0x0400
  blast : Bool := false
  preden : Bool := true
  drfmcnt : Word := 0
  rhover : Bool := false
  chans : Store Channel := []
  calown : Store Byte := []
  /-- CALOWN writes waiting for the next rotation: channel, slot, value, and the rotation they were made in (R184) -/
  calPend : List (Nat × Nat × Byte × Nat) := []
  /-- the slots of each channel started so far, from die start-up (R182) -/
  calSlots : Store Nat := []
  /-- the refresh windows begun (R186) -/
  windows : Nat := 0
  ctxbase : BitVec 41 := 0
  pools : Store Pool := []
  sdbase : BitVec 41 := 0
  sdcap : BitVec 24 := 0
  cabase : BitVec 41 := 0
  caunits : BitVec 24 := 0
  dir : List DirEnt := []
  arena : List ArenaRun := []
  oldFrames : List OldFrame := []
  trapvec : DWord := 0
  hwbase : DWord := 0
  hwctx : BitVec 16 := 0
  mbbase : BitVec 41 := 0
  mblog : BitVec 4 := 0
  mbhead : BitVec 31 := 0
  mbtail : BitVec 31 := 0
  mail : List MailMsg := []
  qtbase : BitVec 41 := 0
  run : Bool := false
  /-- one above the queue that the Collection Round visited last (R286) -/
  round : Nat := 0
  bootStep : BitVec 4 := 0
  bootErr : Byte := 0
  ready : Bool := false
  svn : BitVec 16 := 0
  sectors : BitVec 4 := 0
  /-- the loader runs: the number of the step that will fail, 0 for none, and the security version of its image (R292) -/
  loader : Option (Nat × BitVec 16) := none
  /-- the ports that step 7 will find trained, and the clock at which the last sector started (R292) -/
  bootPorts : Byte := 0
  bootAt : Nat := 0
  nonce : Store DWord := []
  attreq : Option DWord := none
  attdone : Bool := false
  sage : Store (BitVec 16) := []
  hbm : Store DWord := []
  eolh : Word := 0
  cecnt : Word := 0
  uecnt : Word := 0
  groups : Store Group := []
  hold : List CollMsg := []
  lines : Store LineRec := []
  fwdOrder : Nat := 0
  fatal : Bool := false
  deriving DecidableEq, Repr

/-- A flit as sent and kept for replay (R251): `ack` is the number up to which its sender has received, and a payload
byte's flag tells that it is poisoned (R241). -/
structure Flit where
  seqNo : Nat
  ack : Nat
  typ : Nat
  chan : Nat
  off : Nat
  hdr : MsgHdr
  payload : List (Byte × Bool)
  crc : Nat
  deriving DecidableEq, Repr

/-- A port (R16, R251, R291). -/
structure Port where
  trained : Bool := false
  inStage : Bool := false
  inPipe : Bool := false
  inRing : Bool := false
  tx : Nat := 0
  rx : Nat := 0
  replay : List Flit := []
  /-- every flit put on the link, oldest first, with those sent again (R251) -/
  wire : List Flit := []
  replays : Nat := 0
  replayNo : Nat := 0
  nacks : Nat := 0
  deriving DecidableEq, Repr

/-- A window grant as the sender keeps it (R250), with the bytes it has sent since and not seen refused (log 35). -/
structure Grant where
  window : Nat
  rlog : Nat
  stgv : Bool
  sent : Nat
  deriving DecidableEq, Repr

/-- A tensor channel (R249, R250). -/
structure TChan where
  w0 : DWord := 0
  w1 : DWord := 0
  w2 : DWord := 0
  w3 : DWord := 0
  delivered : Nat := 0
  released : Nat := 0
  grant : Option Grant := none
  /-- the message now arriving: bytes so far, and whether it has failed -/
  rxBytes : Nat := 0
  rxFail : Bool := false
  /-- arrival records not yet appended, and whether the first could not be written (R55) -/
  recs : List (DWord × DWord) := []
  recFail : Bool := false
  deriving DecidableEq, Repr

/-- A cached translation of one agent: a core, a copy engine or a die's engine (R195). -/
structure TlbEnt where
  agent : Nat
  ctx : Nat
  base : Nat
  size : Nat
  pa : Nat
  r : Bool
  w : Bool
  x : Bool
  u : Bool
  dirty : Bool
  /-- the address range of the table entry it was cached from, as a number of such ranges (R197), and that entry's
  address (R196) -/
  via : Nat
  pte : Nat
  deriving DecidableEq, Repr

/-- A cached host translation of a die (R199). -/
structure AtsEnt where
  die : Nat
  pasid : Nat
  page : Nat
  hpa : Nat
  r : Bool
  w : Bool
  err : Bool
  /-- write access was asked for -/
  asked : Bool
  deriving DecidableEq, Repr

/-- An outstanding translation or page request (R199, R210). -/
structure AtsReq where
  die : Nat
  pasid : Nat
  page : Nat
  write : Bool
  pri : Bool
  deriving DecidableEq, Repr

/-- What the device has sent over PCIe (R199, R216, R227, R287, R290). -/
inductive PcieMsg where
  | msix (vec : Nat)
  | zeroRead
  | pageRequest (die pasid page : Nat) (write : Bool)
  | invalidationCompletion (die pasid start len : Nat)
  | completerAbort
  | readData (bs : List Byte)
  /-- an AtomicOp request: FetchAdd, Swap or CAS of `n` bytes (R180) -/
  | atomicOp (i : Instr) (addr n x k : Nat)
  deriving DecidableEq, Repr

/-- A host's invalidation on its way: the range of a PASID, and as for an invalidation descriptor what it waits for and the
frames of the translations it has removed (R216). -/
structure AtsInv where
  die : Nat
  pasid : Nat
  start : Nat
  len : Nat
  upto : Nat
  gone : List (Option Nat × Nat × Nat)
  deriving DecidableEq, Repr

/-- A publication event: the granule and the value it held before (R221). -/
structure Pub where
  granule : Nat
  old : DWord
  deriving DecidableEq, Repr

/-- A version marked dropped (R75). -/
structure Dropped where
  ctx : Nat
  tensor : Nat
  ver : Nat
  deriving DecidableEq, Repr

/-- An operator of a queue between its record and its completion (R287). -/
structure OpRun where
  id : Nat
  /-- the operator taken before it -/
  prev : Option Nat
  q : Nat
  die : Nat
  ctx : Nat
  words : List Nat
  /-- its work is done, or for a LAUNCH its insertions are -/
  begun : Bool
  status : Nat
  /-- the TCBs of a LAUNCH's range that it has gone through -/
  upto : Nat
  /-- the tasks of the range that have ended since, and whether each FAILED -/
  ended : List (Nat × Bool)
  deriving DecidableEq, Repr

/-- The polling state of a queue (R286): interval in clocks, and the clock of the last poll or of the enabling. -/
structure QPoll where
  interval : Nat := 448
  last : Nat := 0
  /-- the next record is the one chained at this address -/
  chain : Option Nat := none
  /-- the operator taken last -/
  lastOp : Option Nat := none
  /-- the host's writes of WRIDX whose records are not all taken: the index, and the point of the publication order (R286) -/
  wrote : List (Nat × Nat) := []
  deriving DecidableEq, Repr

/-- An access of the host to device memory that waits for a migration (R218): where it goes, as HWBASE and HWCTX stood when it
arrived (R289). -/
structure HostAcc where
  off : Nat
  n : Nat
  wr : Option (List Byte)
  va : Nat
  ctx : Nat
  deriving DecidableEq, Repr

/-- The package. -/
structure State where
  mem : List Host.Cell := []
  poison : Store Bool := []
  pubs : List Pub := []
  npub : Nat := 0
  cores : Store Core := []
  dies : Store Die := []
  cmds : List Cmd := []
  tasks : List Task := []
  chans : Store TChan := []
  ports : Store Port := []
  tlb : List TlbEnt := []
  ats : List AtsEnt := []
  atsReqs : List AtsReq := []
  drops : List Dropped := []
  ops : List OpRun := []
  qpolls : Store QPoll := []
  pcie : List PcieMsg := []
  /-- accesses of the host that wait for a migration, oldest first (R218) -/
  hostQ : List HostAcc := []
  /-- host memory itself, by host address above `hostBase`; `mem` holds there what die 0's L2 gives the device (R180, R227) -/
  hostMem : List Host.Cell := []
  /-- the bytes that the device has published there and not yet sent (R226, R227) -/
  hostDirty : Store Bool := []
  /-- writes that engines have let go, oldest first (R234) -/
  posted : List Posted := []
  /-- invalidations from the host whose completion waits (R216) -/
  atsInv : List AtsInv := []
  /-- tile moves in progress (R189) -/
  moves : List Move := []
  clock : Nat := 0
  /-- the clock of die start-up: that of the last BOOT (R37, R182; log 80) -/
  start : Nat := 0
  /-- one above the order of the last instruction issued in this clock; and one above the stage, as 8 × die + slot, that was
  last evaluated in it, 16 once an instruction has reached a scheduler after that (R64, R242, R271; log 77) -/
  rank : Nat := 0
  evaluated : Nat := 0
  /-- the accesses of the instruction or engine that now runs may be performed later (R223, R234) -/
  relax : Bool := false
  draws : Nat := 0
  turns : List Turn := []
  nturn : Nat := 0
  cur : Nat := 0
  curSeq : SeqId := .C
  nextId : Nat := 0
  deriving DecidableEq, Repr

/-- The machine right after reset: every field at its reset value (log 1, log 2), no core started (R40, R292). -/
def State.reset : State := {}

/-- Why the machine stops. -/
inductive Fault where
  /-- A hardware agent (a walk, a pool, a mailbox, a directory) reached a physical address at which R169 puts nothing,
  and the spec names no failure for it. Safe: the spec gives that access no effect. -/
  | reservedPhysical (pa : Nat)
  deriving DecidableEq, Repr

/-- Why an instruction has no meaning here. -/
inductive Refusal where
  /-- Not modelled yet; raised by a dispatch arm alone. Safe. -/
  | notModelled (mnemonic : String)
  deriving DecidableEq, Repr

end Sys2Proof.Machine
end

