-- ==== Sys2Proof/Machine/Base.lean ====
section
/-! DEFINITION. Reading and writing the pieces of the state: units, registers, memory bytes; the monad of the meanings. -/

namespace Sys2Proof.Machine

/-- How a meaning ends early: a trap with its cause and EVA (R270), a wait that changes nothing (R22, R280), or one of
the machine's own stops. -/
inductive Exc where
  | trap (cause : Nat) (eva : Nat)
  | wait (counted : Bool)
  | fault (f : Fault)
  deriving DecidableEq, Repr

/-- A meaning's steps. The state beside an exception holds only what the hardware did for itself (translations cached,
free values drawn). -/
abbrev Op := EStateM Exc State

/-- Where a sequencer stands after an instruction: at the next word, at a target, parked, where the meaning itself has
put it, or still at the instruction, which has begun and waits (counted by the watchdog or not). -/
inductive Post where
  | next
  | goto (pc : DWord)
  | park
  | done
  | hold (counted : Bool)
  deriving DecidableEq, Repr

/-! Trap causes (R270). -/

def cUNDEF : Nat := 0x01
def cSEQCLASS : Nat := 0x02
def cPRIV : Nat := 0x03
def cALIGN : Nat := 0x04
def cPERM : Nat := 0x05
def cNOTMAP : Nat := 0x06
def cNRSTORE : Nat := 0x07
def cTENSOR : Nat := 0x08
def cCOWFAIL : Nat := 0x09
def cFMT : Nat := 0x0A
def cACCOWN : Nat := 0x0B
def cPANELOWN : Nat := 0x0C
def cPHASEOV : Nat := 0x0D
def cTOKOV : Nat := 0x0E
def cENGERR : Nat := 0x0F
def cSTASHFULL : Nat := 0x10
def cTRACEBUF : Nat := 0x12
def cSAMPLE : Nat := 0x13
def cBREAK : Nat := 0x14
def cECC : Nat := 0x15
def cPREEMPT : Nat := 0x16
def cTIMEOUT : Nat := 0x17
def cSCOPE : Nat := 0x18
def cLOOPH : Nat := 0x19

/-! Units. -/

/-- The clocks of a number of µs at 1.75 GHz (R5). -/
def usClocks (us : Nat) : Nat := 1750 * us

/-- The die of a package core number, and whether it is a Postmaster core (R11, R13). -/
def dieOfCore (c : Nat) : Nat := c / 144
def isPostmaster (c : Nat) : Bool := c % 144 == 0

def State.core (s : State) (n : Nat) : Core := Store.get {} s.cores n
def State.setCore (s : State) (n : Nat) (c : Core) : State := { s with cores := Store.set {} s.cores n c }
def State.modCore (s : State) (n : Nat) (f : Core → Core) : State := s.setCore n (f (s.core n))
def State.die (s : State) (n : Nat) : Die := Store.get {} s.dies n
def State.setDie (s : State) (n : Nat) (d : Die) : State := { s with dies := Store.set {} s.dies n d }
def State.modDie (s : State) (n : Nat) (f : Die → Die) : State := s.setDie n (f (s.die n))
def State.chan (s : State) (n : Nat) : TChan := Store.get {} s.chans n
def State.setChan (s : State) (n : Nat) (c : TChan) : State := { s with chans := Store.set {} s.chans n c }
def State.port (s : State) (n : Nat) : Port := Store.get {} s.ports n
def State.setPort (s : State) (n : Nat) (p : Port) : State := { s with ports := Store.set {} s.ports n p }
def Die.stage (d : Die) (n : Nat) : StageSlot := Store.get {} d.stages n
def State.stage (s : State) (d n : Nat) : StageSlot := (s.die d).stage n
def State.modStage (s : State) (d n : Nat) (f : StageSlot → StageSlot) : State :=
  s.modDie d (fun x => { x with stages := Store.set {} x.stages n (f (x.stage n)) })
def Die.pool (d : Die) (k : Nat) : Pool := Store.get {} d.pools k
def Die.setPool (d : Die) (k : Nat) (p : Pool) : Die := { d with pools := Store.set {} d.pools k p }
def Die.group (d : Die) (g : Nat) : Group := Store.get {} d.groups g
def State.modGroup (s : State) (d g : Nat) (f : Group → Group) : State :=
  s.modDie d (fun x => { x with groups := Store.set {} x.groups g (f (x.group g)) })

/-- One of the four sequencers of a core. -/
def Core.seq (c : Core) : SeqId → Seq
  | .L => c.l
  | .X => c.x
  | .S => c.s
  | .C => c.c

def Core.setSeq (c : Core) (q : SeqId) (v : Seq) : Core :=
  match q with
  | .L => { c with l := v }
  | .X => { c with x := v }
  | .S => { c with s := v }
  | .C => { c with c := v }

def Core.modSeq (c : Core) (q : SeqId) (f : Seq → Seq) : Core := c.setSeq q (f (c.seq q))
def State.modSeq (s : State) (n : Nat) (q : SeqId) (f : Seq → Seq) : State := s.modCore n (·.modSeq q f)

def allSeqs : List SeqId := [.L, .X, .S, .C]

/-- The core and the sequencer whose instruction runs. -/
def State.me (s : State) : Core := s.core s.cur
def State.mySeq (s : State) : Seq := s.me.seq s.curSeq
def State.modMe (s : State) (f : Core → Core) : State := s.modCore s.cur f
def State.modMySeq (s : State) (f : Seq → Seq) : State := s.modMe (·.modSeq s.curSeq f)
def State.myDie (s : State) : Nat := dieOfCore s.cur

/-! Scalar registers (R87, R272): G0 reads zero and discards writes; the C-seq in privileged mode uses its own bank. -/

/-- Whether sequencer `q` uses the privileged bank. -/
def Core.onPriv (c : Core) (q : SeqId) : Bool := q == .C && c.priv

def Core.g (c : Core) (q : SeqId) (n : Nat) : Word :=
  if n = 0 then 0 else Store.get 0 (if c.onPriv q then c.pg else (c.seq q).g) n

def Core.setG (c : Core) (q : SeqId) (n : Nat) (v : Word) : Core :=
  if n = 0 then c
  else if c.onPriv q then
    { c with pg := Store.set 0 c.pg n v, pgPoison := if c.pgPoison.testBit n then c.pgPoison - 2 ^ n else c.pgPoison }
  else c.modSeq q (fun x => { x with
    g := Store.set 0 x.g n v, gPoison := if x.gPoison.testBit n then x.gPoison - 2 ^ n else x.gPoison })

/-- Whether the storage of a register holds poison (R282). -/
def Core.gPoisoned (c : Core) (q : SeqId) (n : Nat) : Bool :=
  n != 0 && (if c.onPriv q then c.pgPoison else (c.seq q).gPoison).testBit n

def State.g (s : State) (n : Nat) : Word := s.me.g s.curSeq n
def State.setG (s : State) (n : Nat) (v : Word) : State := s.modMe (·.setG s.curSeq n v)

/-- The 64-bit value of Gn:Gn+1 (R87). -/
def State.pair (s : State) (n : Nat) : DWord := (s.g (n + 1)) ++ (s.g n)
def State.setPair (s : State) (n : Nat) (v : DWord) : State :=
  (s.setG n (v.extractLsb' 0 32)).setG (n + 1) (v.extractLsb' 32 32)

/-- A scalar operand at width 32 or 64 (R305). -/
def State.opnd (s : State) (w : Bool) (n : Nat) : Nat := if w then (s.pair n).toNat else (s.g n).toNat
def State.setOpnd (s : State) (w : Bool) (n v : Nat) : State :=
  if w then s.setPair n (BitVec.ofNat 64 v) else s.setG n (BitVec.ofNat 32 v)

/-! Rotating registers (R95, R96). -/

/-- Nibble i of a ring map. -/
def nib (m i : Nat) : Nat := m / 16 ^ i % 16

/-- Whether a ring map of `n` nibbles is valid (R95). -/
def ringOk (n m : Nat) : Bool :=
  (List.range n).all (fun i =>
    nib m i == 0 || (i + nib m i ≤ n && (List.range (nib m i - 1)).all (fun j => nib m (i + 1 + j) == 0)))

/-- Start and length of the ring that holds register `i` of a map (R95). -/
def ringAt (n m i : Nat) : Nat × Nat :=
  ((List.range n).find? (fun s => nib m s != 0 && s ≤ i && i < s + nib m s)).elim (i, 1) (fun s => (s, nib m s))

/-- The physical register of a field with its rotation flag set, `base` being V16 or P8 (R96). -/
def ringPhys (base n m iter r : Nat) : Nat :=
  let (s, l) := ringAt n m (r - base)
  base + s + (r - base - s + iter) % l

/-- The vector register that a field addresses. -/
def Seq.vreg (x : Seq) (r : RReg) : Nat :=
  if r.rot then ringPhys 16 16 x.ringv.toNat x.iter.toNat r.n else r.n

/-- The predicate register that a field addresses. -/
def Seq.preg (x : Seq) (r : RReg) : Nat :=
  if r.rot then ringPhys 8 8 x.ringp.toNat x.iter.toNat r.n else r.n

/-- The length of the stage-predicate ring, which starts at P8 (R95). -/
def stageLen (mp : Nat) : Nat := max 1 (nib mp 0)

/-! The monad. -/

def throwTrap {α : Type} (cause eva : Nat) : Op α := throw (.trap cause eva)
def throwWait {α : Type} : Op α := throw (.wait false)

/-- Trap unless `b` holds. -/
def need (b : Bool) (cause eva : Nat) : Op Unit := if b then pure () else throwTrap cause eva

/-- The next free value (log 3). -/
def draw : Op Nat := fun s => .ok (Config.free s.draws) { s with draws := s.draws + 1 }

/-- A free choice among `n`. -/
def pick (n : Nat) : Op Nat := do
  if n ≤ 1 then pure 0 else return (← draw) % n

/-- Run `f` on each element in order. -/
def forAll {α : Type} (l : List α) (f : α → Op Unit) : Op Unit :=
  match l with
  | [] => pure ()
  | a :: t => do f a; forAll t f

/-- Collect `f` over a list in order. -/
def collect {α β : Type} (l : List α) (f : α → Op β) : Op (List β) :=
  match l with
  | [] => pure []
  | a :: t => do let b ← f a; let r ← collect t f; return b :: r

/-! Memory (R3, R169). Device bytes stand at their physical address, host bytes at 2^64 + the host address. -/

/-- What a byte that nothing has written reads as (log 2). -/
def memDefault : Byte := 0

/-- Memory in its canonical form: addresses strictly rising, no entry equal to what an unlisted address reads as (log 2). -/
def Memory.wf (m : List Host.Cell) : Bool := Store.wf memDefault m

/-- Where host memory begins in the list. -/
def hostBase : Nat := 2 ^ 64

/-- Whether something exists at a physical address (R169). -/
def paOk (a : Nat) : Bool := a < 0x08000000000 || (0x10000000000 ≤ a && a < 0x20000000000) || hostBase ≤ a

/-- The home die of a physical address; the host's is die 0 (R169). -/
def homeDie (a : Nat) : Nat :=
  if a < 0x04000000000 then 0 else if a < 0x08000000000 then 1
  else if a < 0x18000000000 then 0 else if a < 0x20000000000 then 1 else 0

/-- The home slice of a line, by its address at home: the host's own for host memory (R170). -/
def homeSlice (a : Nat) : Nat := (if hostBase ≤ a then a - hostBase else a) / 128 % 144

/-- The memory channel of a physical address on its die: HB 0–127, LP 128 + 0–15 (R170). -/
def chanOf (a : Nat) : Nat :=
  if a < 0x08000000000 then
    let o := a % 0x04000000000
    Nat.xor (o / 2 ^ 8 % 2 ^ 7) (o / 2 ^ 15 % 2 ^ 7)
  else
    let o := a % 0x08000000000
    128 + Nat.xor (o / 2 ^ 8 % 2 ^ 4) (o / 2 ^ 12 % 2 ^ 4)

/-- The HBM stack of an address of the HB range: 4 × die + c[6:5] (R170). -/
def stackOf (a : Nat) : Nat := 4 * homeDie a + chanOf a / 32

def State.byte (s : State) (a : Nat) : Byte := Store.get memDefault s.mem a

/-- `n` bytes as a little-endian number (R3). -/
def State.rd (s : State) (a : Nat) : Nat → Nat
  | 0 => 0
  | n + 1 => (s.byte a).toNat + 256 * s.rd (a + 1) n

/-- The bytes of a number, little-endian. -/
def bytesOf (v : Nat) : Nat → List Byte
  | 0 => []
  | n + 1 => BitVec.ofNat 8 v :: bytesOf (v / 256) n

/-- A little-endian number from bytes. -/
def ofBytes : List Byte → Nat
  | [] => 0
  | b :: t => b.toNat + 256 * ofBytes t

/-- Write bytes, no event: the one place where memory changes. Bytes of the host half are the device's until a release
at HOST or SYSTEM sends them (R226, R227). -/
def State.wr (s : State) (a : Nat) (bs : List Byte) : State :=
  { s with
    mem := Store.setMany memDefault s.mem a bs
    hostDirty := if hostBase ≤ a then Store.setMany false s.hostDirty a (bs.map (fun _ => true)) else s.hostDirty }

/-- Whether any granule of `n` bytes at `a` holds poison (R282). -/
def State.poisoned (s : State) (a n : Nat) : Bool :=
  (List.range ((a % 8 + n + 7) / 8)).any (fun i => Store.get false s.poison (a / 8 + i))

/-- The publication events of a write of `n` bytes at `a`: one per granule, oldest first (R221, R225). -/
def State.logPubs (s : State) (g : Nat) : Nat → State
  | 0 => s
  | n + 1 => State.logPubs { s with
      pubs := ⟨g, BitVec.ofNat 64 (s.rd (8 * g) 8)⟩ :: s.pubs, npub := s.npub + 1 } (g + 1) n

def State.setPoison (s : State) (g : Nat) (v : Bool) : Nat → State
  | 0 => s
  | n + 1 => State.setPoison { s with poison := Store.set false s.poison g v } (g + 1) v n

/-- A direct write at its home slice: a publication event of every granule it touches (R221). A granule written whole is
cleaned of poison, one written in part keeps it, and a poisoned write poisons it (R282). -/
def State.publish (s : State) (a : Nat) (bs : List Byte) (poison : Bool := false) : State :=
  let n := bs.length
  if n = 0 then s else
  let g0 := a / 8
  let gn := (a + n - 1) / 8 - g0 + 1
  let s := (s.logPubs g0 gn).wr a bs
  if poison then s.setPoison g0 true gn
  else
    let first := (a + 7) / 8
    s.setPoison first false ((a + n) / 8 - first)

/-- `publish` of a number of `n` bytes. -/
def State.publishN (s : State) (a n v : Nat) : State := s.publish a (bytesOf v n)

/-- The old values of the publications to granule `g` from point `lb` on, newest first, each with its point; `n` is the
point after the head of the list (R222). -/
def pubsOf (g lb : Nat) (n : Nat) : List Pub → List (Nat × DWord)
  | [] => []
  | p :: t =>
    if n ≤ lb then []
    else if p.granule = g then (n - 1, p.old) :: pubsOf g lb (n - 1) t
    else pubsOf g lb (n - 1) t

/-- Read `n` bytes at a physical address as a hardware agent does: the published value (R195, R226). -/
def State.rdPa (s : State) (a n : Nat) : Nat := s.rd a n

/-! Bit fields of numbers read from memory. -/

def fieldOf (v lo n : Nat) : Nat := v / 2 ^ lo % 2 ^ n

/-- Replace field [lo+n−1:lo] of `v`. -/
def setField (v lo n x : Nat) : Nat := v - fieldOf v lo n * 2 ^ lo + (x % 2 ^ n) * 2 ^ lo

/-- A boolean as a bit at place i. -/
def bitAt (b : Bool) (i : Nat) : Nat := if b then 2 ^ i else 0

/-! Token queues (R21, R273). -/

/-- The peer a selector 1–3 names, in the order L, X, S, C with the sequencer itself left out (R21). -/
def peerOf (q : SeqId) (sel : Nat) : SeqId :=
  (allSeqs.filter (· != q)).getD (sel - 1) .L

/-- The number of the queue from `a` to the peer its selector names: 3a + p − 1 (R273). -/
def queueNo (a : SeqId) (sel : Nat) : Nat := 3 * a.code + sel - 1

/-- The selector by which `a` names `b`. -/
def selOf (a b : SeqId) : Nat := if b.code < a.code then b.code + 1 else b.code

/-- The number of the queue from `a` to `b`. -/
def queueTo (a b : SeqId) : Nat := queueNo a (selOf a b)

def Core.tok (c : Core) (n : Nat) : Nat := Store.get 0 c.tokq n
def Core.setTok (c : Core) (n v : Nat) : Core := { c with tokq := Store.set 0 c.tokq n v }

/-- Push tokens on queue `n`; a push towards the C-seq sets the event flag (R339). -/
def Core.pushTok (c : Core) (n k : Nat) : Core :=
  let c := c.setTok n (c.tok n + k)
  if k != 0 && (n == 2 || n == 5 || n == 8) then { c with event := true } else c

/-- Transfers in flight of one sequencer (R347). -/
def Core.xfersOf (c : Core) (q : SeqId) : List Xfer := c.xfers.filter (fun x => x.seq == q)

/-- Whether the accesses of sequencer `q` with a number below `n`, late or in flight, have all been performed (R223, R347). -/
def Core.settledBelow (c : Core) (q : SeqId) (n : Nat) : Bool :=
  (c.xfersOf q).all (fun x => n ≤ x.id) && (c.seq q).late.all (fun x => n ≤ x.id)

/-- Tokens still to be pushed on queue `n` by instructions issued and not retired (R24). -/
def Core.owedTok (c : Core) (q : SeqId) (n : Nat) : Nat :=
  (((c.seq q).sigq).filter (fun p => p.1 == n)).foldl (fun a p => a + p.2.1) 0

/-- Push the put-back signals of sequencer `q` whose earlier transfers and late accesses have all been performed (R229,
R347). -/
def Core.flushSigs (c : Core) (q : SeqId) : Core :=
  let due (p : Nat × Nat × Nat) : Bool := c.settledBelow q p.2.2
  let now := (c.seq q).sigq.filter due
  let c := c.modSeq q (fun x => { x with sigq := x.sigq.filter (fun p => !due p) })
  now.foldl (fun c p => c.pushTok p.1 p.2.1) c

/-! Engine counters (R25). -/

/-- Byte `k` of a raw image. -/
def imgByte (m : Store Byte) (k : Nat) : Nat := (Store.get 0 m k).toNat

/-- Whether record `i` of a copy-engine image counts on counter `n` of sequencer `q`: its first byte holds a valid mark
in [0] and the sequencer in [6:5], its third the counter (log 6). -/
def imgCounts (m : Store Byte) (q : SeqId) (n i : Nat) : Bool :=
  bit (imgByte m (64 * i)) 0 && fieldOf (imgByte m (64 * i)) 5 2 == q.code && imgByte m (64 * i + 2) == n

/-- The outstanding count of ECn of a sequencer: its commands, with those stopped in the image (R25, R273). -/
def State.ecnt (s : State) (c : Nat) (q : SeqId) (n : Nat) : Nat :=
  (s.cmds.filter (fun k => k.core == c && k.seq == q && k.ctr == n)).length +
    (let m := (s.core c).engimg
     if m.isEmpty then 0 else ((List.range 128).filter (imgCounts m q n)).length)

/-- Set the event flags of the cores of die `d` (R339). -/
def State.wakeDie (s : State) (d : Nat) : State :=
  (List.range 144).foldl (fun s n => s.modCore (144 * d + n) (fun c => { c with event := true })) s

/-- Stochastic generators (R128). -/
def State.genOf (s : State) (c conv : Nat) : Nat :=
  Store.get (convSeed (s.core c).seed.toNat c conv) (s.core c).gens conv

/-- Step the generator of converter `conv` of core `c` and return the word. -/
def State.stepGen (s : State) (c conv : Nat) : Nat × State :=
  let w := xorshift (s.genOf c conv)
  (w, s.modCore c (fun k => { k with gens := Store.insert conv w k.gens }))

/-- OR flags into a sequencer's FSTAT (R134). -/
def State.orFlags (s : State) (c : Nat) (q : SeqId) (f : Flags) : State :=
  s.modSeq c q (fun x => { x with fstat := x.fstat ||| f })

end Sys2Proof.Machine
end

