-- ==== Sys2Proof/Machine/Translate.lean ====
section
/-! DEFINITION. Contexts, page-table walks and host translation (R193 to R199, R217, R219, R405). -/

namespace Sys2Proof.Machine

/-- A hardware agent's read of `n` bytes at a physical address; where R169 puts nothing, the machine stops. -/
def hwRd (a n : Nat) : Op Nat := fun s =>
  if paOk a && paOk (a + n - 1) then .ok (s.rd a n) s else .error (.fault (.reservedPhysical a)) s

/-- A hardware agent's write: a publication event (R221). -/
def hwWr (a n v : Nat) : Op Unit := fun s =>
  if paOk a && paOk (a + n - 1) then .ok () (s.publishN a n v) else .error (.fault (.reservedPhysical a)) s

/-- The kinds of access that R198 tells apart. -/
inductive Acc where
  | load | store | atomic | fetch
  deriving DecidableEq, Repr

def Acc.writes (a : Acc) : Bool := a == .store || a == .atomic

/-- A context-table entry (R193). -/
structure CtxEnt where
  root : Nat
  pasid : Nat
  hen : Bool
  valid : Bool
  tcbBase : Nat
  tcbSize : Nat
  tdBase : Nat
  ntens : Nat
  stamp : Nat
  poisoned : Bool
  deriving DecidableEq, Repr

/-- The address of the entry of context `ctx` in die `d`'s own table (R193, R405). -/
def State.ctxAddr (s : State) (d ctx : Nat) : Nat := (s.die d).ctxbase.toNat + 64 * ctx

def ctxEnt (d ctx : Nat) : Op CtxEnt := do
  let a := (← get).ctxAddr d ctx
  let w0 ← hwRd a 8
  let w1 ← hwRd (a + 8) 8
  let w2 ← hwRd (a + 0x10) 8
  let w3 ← hwRd (a + 0x18) 8
  let w4 ← hwRd (a + 0x20) 8
  let w5 ← hwRd (a + 0x28) 8
  let w6 ← hwRd (a + 0x30) 8
  return {
    root := fieldOf w0 0 41, pasid := fieldOf w1 0 20, hen := bit w1 20, valid := bit w1 21,
    tcbBase := w2, tcbSize := fieldOf w3 0 25, tdBase := fieldOf w4 0 41, ntens := fieldOf w5 0 32,
    stamp := fieldOf w6 0 32, poisoned := (← get).poisoned a 64 }

/-- The end of a page-table walk: the leaf, its address and its page size in bytes. -/
inductive Walked where
  | notmap
  | poison
  | leaf (at_ pte size : Nat)
  deriving DecidableEq, Repr

/-- The Res0 bits of a PTE are clear (R196). -/
def pteClean (leaf : Bool) (pte : Nat) : Bool :=
  fieldOf pte 12 4 == 0 && fieldOf pte 45 3 == 0 && (leaf || (fieldOf pte 2 10 == 0 && fieldOf pte 48 2 == 0))

/-- Walk the tables from `tbl`, with `n` levels to go: level 4 − n is indexed by nine bits of the address (R195, R197). -/
def walk (va : Nat) : Nat → Nat → Op Walked
  | 0, _ => pure .notmap
  | n + 1, tbl => do
    let a := tbl + 8 * fieldOf va (12 + 9 * n) 9
    if !paOk a then return .notmap
    let s ← get
    if s.poisoned a 8 then return .poison
    let pte := s.rd a 8
    let frame := fieldOf pte 16 29
    let size := fieldOf pte 8 4
    if !bit pte 0 || !pteClean (bit pte 1) pte then return .notmap
    if bit pte 1 then
      if n ≤ 1 && (if n == 0 then size ≤ 8 else 9 ≤ size) && frame % 2 ^ size == 0 && paOk (frame * 4096) then
        return .leaf a pte (2 ^ (size + 12))
      else return .notmap
    else if n == 0 then return .notmap
    else walk va n (frame * 4096)

/-- The checks of R198 on a page, in their order, and after them the migration of R219. -/
def pageCheck (priv : Bool) (acc : Acc) (r w x u res mig : Bool) (pa : Nat) : Xlat :=
  if !u && !priv then .perm
  else if (match acc with
    | .load => !r
    | .store => !w
    | .atomic => !r || !w
    | .fetch => !x) then .perm
  else if !res then .nonres
  else if mig && acc.writes then .mig
  else .ok pa

/-- Set A, and D for a store, in a leaf: an atomic OR at the L2 (R196). -/
def markLeaf (at_ pte : Nat) (acc : Acc) : Op Unit := do
  let a := if bit pte 48 then 0 else 2 ^ 48
  let d := if acc.writes && !bit pte 49 then 2 ^ 49 else 0
  if a + d = 0 then return ()
  hwWr at_ 8 (pte + a + d)

/-- The range of addresses that one table entry describes, for a page of a size: its number (R195, R197). -/
def entryOf (size va : Nat) : Nat := if size ≤ 2 ^ 20 then va / 2 ^ 12 else va / 2 ^ 21

/-- Walk and, when the access may proceed and the page is not migrating, cache the translation (R195). -/
def walkAndCache (agent ctx root : Nat) (priv : Bool) (acc : Acc) (va : Nat) : Op Xlat := do
  match ← walk va 4 root with
  | .notmap => return .notmap
  | .poison => return .poison
  | .leaf at_ pte size =>
    let base := va / size * size
    let pa := fieldOf pte 16 29 * 4096
    let x := pageCheck priv acc (bit pte 2) (bit pte 3) (bit pte 4) (bit pte 5) (bit pte 6) (bit pte 7)
      (pa + (va - base))
    if (match x with | .ok _ => true | _ => false) && !bit pte 7 then do
      markLeaf at_ pte acc
      let ent : TlbEnt :=
        ⟨agent, ctx, base, size, pa, bit pte 2, bit pte 3, bit pte 4, bit pte 5, acc.writes || bit pte 49,
          entryOf size va, at_⟩
      let old : TlbEnt → Bool := fun e => e.agent == agent && e.ctx == ctx && e.base == base && e.size == size &&
        e.via == entryOf size va
      modify (fun s => { s with tlb := ent :: s.tlb.filter (fun e => !old e) })
    return x

/-- The check of a cached translation, which stays in use until it is invalidated. A write through one whose D is not
recorded sets A and D in the entry that it was cached from (R195, R196). -/
def useCached (e : TlbEnt) (priv : Bool) (acc : Acc) (va : Nat) : Op Xlat := do
  let x := pageCheck priv acc e.r e.w e.x e.u true false (e.pa + (va - e.base))
  if (match x with | .ok _ => true | _ => false) && acc.writes && !e.dirty then do
    markLeaf e.pte (← hwRd e.pte 8) acc
    modify (fun s => { s with tlb := s.tlb.map (fun y => if y = e then { y with dirty := true } else y) })
  return x

/-- A translation in the device half: the agent's cached one, or a walk (R195 to R198). One cached from another entry of
the same page may serve the access or not (R197). -/
def xlDevice (agent ctx : Nat) (c : CtxEnt) (priv : Bool) (acc : Acc) (va : Nat) : Op Xlat := do
  if fieldOf va 48 15 != 0 then return .notmap
  let hits := (← get).tlb.filter (fun e => e.agent == agent && e.ctx == ctx && e.base ≤ va && va < e.base + e.size)
  let own := hits.find? (fun e => e.via == entryOf e.size va)
  let used ← match own, hits with
    | some e, _ => pure (some e)
    | none, [] => pure none
    | none, e :: _ => do if (← pick 2) = 1 then pure (some e) else pure none
  match used with
  | some e => useCached e priv acc va
  | none => walkAndCache agent ctx c.root priv acc va

/-- Send a translation request for a host page unless one is outstanding (R199). -/
def askHost (die pasid page : Nat) (write pri : Bool) : Op Unit :=
  modify (fun s =>
    let q : AtsReq := ⟨die, pasid, page, write, pri⟩
    if s.atsReqs.contains q then s else { s with atsReqs := s.atsReqs ++ [q] })

/-- A translation in the host half by address translation services, cached on the die (R199). An error completion
serves one access. A fetch finds no page that it may execute (R198, R310; log 22). -/
def xlHost (die : Nat) (c : CtxEnt) (acc : Acc) (va : Nat) : Op Xlat := do
  if !c.hen then return .notmap
  if acc == .fetch then return .perm
  let page := va / 4096
  let mine : AtsEnt → Bool := fun e => e.die == die && e.pasid == c.pasid && e.page == page
  match (← get).ats.find? mine with
  | none => do askHost die c.pasid page acc.writes false; return .pend
  | some e =>
    if e.err then do
      modify (fun s => { s with ats := s.ats.filter (fun x => !mine x) })
      return .notmap
    else if acc.writes && !e.asked then do askHost die c.pasid page true false; return .pend
    else if (if acc == .store then !e.w else if acc == .atomic then !e.r || !e.w else !e.r) then return .nonres
    else return .ok (hostBase + e.hpa / 4096 * 4096 + va % 4096)

/-- Where the control space of the two dies begins and ends in the device half (R285). -/
def ctlBase : Nat := 0x8000FF0000000000
def ctlDieSize : Nat := 0x10000000
def isCtl (priv : Bool) (va : Nat) : Bool := priv && ctlBase ≤ va && va < ctlBase + 2 * ctlDieSize

/-- Translate one address for an agent on a die (R193, R194, R285, R405). -/
def xlate (agent die ctx : Nat) (priv : Bool) (acc : Acc) (va : Nat) : Op Xlat := do
  if isCtl priv va then return .ctl ((va - ctlBase) / ctlDieSize) ((va - ctlBase) % ctlDieSize)
  let c ← ctxEnt die ctx
  if c.poisoned then return .poison
  if !c.valid then return .notmap
  if bit va 63 then xlDevice agent ctx c priv acc va else xlHost die c acc va

/-- The agents of the translation caches: a core, its copy engine, and the units of a die (R195). -/
def agentCore (c : Nat) : Nat := c
def agentCopy (c : Nat) : Nat := 288 + c
/-- Units of a die: 0 layout unit, 3 channels, 4 routers, 5 task hardware, 6 pennant scheduler, 7 front end; 16 to 23
the eight walkers. The stash engines reach tiles by their frames alone. -/
def agentDie (d k : Nat) : Nat := 576 + 32 * d + k
def agentWalker (d w : Nat) : Nat := agentDie d (16 + w % 8)

/-- The trap cause of a failed translation, none for a wait or a success (R198, R207, R282). -/
def xlCause (acc : Acc) (x : Xlat) : Option Nat :=
  match x with
  | .notmap => some cNOTMAP
  | .perm => some cPERM
  | .nonres => some (if acc == .store then cNRSTORE else cNOTMAP)
  | .poison => some cECC
  | .ok _ | .ctl .. | .mig | .pend => none

/-- The first cause of the list, in the order NOTMAP, PERM, NRSTORE, ECC, at the first address that has it, else a wait
when a translation waits (R198, R219, R271, R278). -/
def firstFail (acc : Acc) (l : List (Nat × Xlat)) : Op Unit := do
  let c := [cNOTMAP, cPERM, cNRSTORE, cECC].findSome? (fun k =>
    (l.find? (fun p => xlCause acc p.2 == some k)).map (fun p => (k, p.1)))
  match c with
  | some (k, a) => throwTrap k a
  | none => if l.any (fun p => p.2 == .mig || p.2 == .pend) then throwWait

/-- Whether two addresses lie in different halves (R194). -/
def crossesHalf (a b : Nat) : Bool := bit a 63 != bit b 63

/-- An address of 64 bits. -/
def addrAdd (a n : Nat) : Nat := (a + n) % 2 ^ 64

/-- Walk for an agent that acts without an issuing instruction: a user-mode access (R405). The physical address, or
none when the access fails; it waits on a migration or an unanswered host. -/
def xlAgent (agent die ctx : Nat) (acc : Acc) (va : Nat) : Op (Option Nat) := do
  match ← xlate agent die ctx false acc va with
  | .ok pa => return some pa
  | .mig | .pend => throwWait
  | _ => return none

end Sys2Proof.Machine
end

