-- ==== Sys2Proof/Machine/Memory.lean ====
section
/-! DEFINITION. What a core's accesses read and where its stores go: the phase store buffer, publication, acquire
(R171 to R173, R220 to R228, R282). -/

namespace Sys2Proof.Machine

/-- A byte as an access sees it: its value and whether it is poisoned (R282). -/
abbrev RByte := Byte × Bool

/-- Whether any byte is poisoned. -/
def anyPoison (l : List RByte) : Bool := l.any (·.2)

/-- The number that the bytes make, little-endian (R3). -/
def rbytesNat (l : List RByte) : Nat := ofBytes (l.map (·.1))

/-- The buffered byte of core `c` at physical address `a` (R173). -/
def Core.buffered (c : Core) (a : Nat) : Option PByte :=
  match c.psb.find? (fun l => l.pa == a / 128 * 128 && l.bytes.any (fun b => b.off == a % 128)) with
  | some l => l.bytes.find? (fun b => b.off == a % 128)
  | none => none

/-- The groups in whose open superstep core `c` still is, until its closing episode ends (R232). -/
def State.openSteps (s : State) (c : Nat) : List Group :=
  (s.die (dieOfCore c)).groups.filterMap (fun e => if e.2.step && bit e.2.part (c % 144) then some e.2 else none)

/-- The value that granule `g` had at the start of an open superstep of the core, while the closing BARs of the others
alone have published it since (R232). -/
def State.heldBack (s : State) (c g : Nat) : Option DWord :=
  (s.openSteps c).findSome? (fun x =>
    let l := pubsOf g x.stepAt s.npub s.pubs
    if l.all (fun p => x.barPubs.contains (g, p.1)) then l.getLast?.map (·.2) else none)

/-- What granule `g` holds for a load of core `c`: its value at a free point between the last acquire and now, never
before the core's last load of it (R222), and not after its superstep (R232). -/
def granuleLoad (c g : Nat) : Op DWord := do
  let s ← get
  let core := s.core c
  if let some v := s.heldBack c g then return v
  let lb := max core.acq (Store.get 0 core.seen g)
  let now := BitVec.ofNat 64 (s.rd (8 * g) 8)
  let old := pubsOf g lb s.npub s.pubs
  let i ← pick (old.length + 1)
  let (pt, v) := if i = 0 then (s.npub, now) else old.getD (i - 1) (s.npub, now)
  modify (fun s => s.modCore c (fun k => { k with seen := Store.set 0 k.seen g pt }))
  return v

/-- A byte as the core reads it at `a`: its own buffered one, else `b` from memory (R222). -/
def Core.ownOver (c : Core) (a : Nat) (b : RByte) : RByte :=
  match c.buffered a with
  | none => b
  | some p => (p.val, p.poison)

/-! The L1 (R171): which lines it holds. What they hold is R222's. -/

/-- The lines of the set of line `l`, of 64 sets of 8 ways (log 79). -/
def Core.l1Ways (c : Core) (l : Nat) : List Nat := Store.get [] c.l1 (l % 64)

/-- Line `l` becomes the set's newest: a line present moves up, another takes a free way or the victim's. -/
def Core.l1Fill (c : Core) (l : Nat) : Core :=
  let w := c.l1Ways l
  let rest := if w.contains l then w.erase l else if w.length < 8 then w else w.eraseIdx (Config.l1Victim w % 8)
  { c with l1 := Store.set [] c.l1 (l % 64) (l :: rest) }

/-- The core's copy of line `l` goes. -/
def Core.l1Drop (c : Core) (l : Nat) : Core := { c with l1 := Store.set [] c.l1 (l % 64) ((c.l1Ways l).erase l) }

/-- The quad of a core (R12). -/
def quadOf (c : Nat) : Nat := c % 144 / 12 / 2 * 6 + c % 12 / 2

/-- A request of core `c` for a line, as the line's home slice counts it (R175). -/
def State.requestLine (s : State) (c pa : Nat) : State :=
  if homeDie pa != dieOfCore c then s
  else s.modDie (homeDie pa) (fun d =>
    let r : LineRec := Store.get {} d.lines (pa / 128)
    let n := if r.quad = quadOf c then min 3 (r.count + 1) else 1
    let r' : LineRec := { r with quad := quadOf c, count := n }
    { d with lines := Store.set {} d.lines (pa / 128) r' })

/-- A request for each line of the list. -/
def State.requestLines (s : State) (c : Nat) (pas : List Nat) : State :=
  ((pas.map (· / 128)).eraseDups).foldl (fun s l => s.requestLine c (128 * l)) s

/-- A load of core `c` reaches a line: a hit asks for nothing, a miss is a request and allocates (R171, R175). -/
def State.loadLine (s : State) (c pa : Nat) : State :=
  let s := if ((s.core c).l1Ways (pa / 128)).contains (pa / 128) then s else s.requestLine c pa
  s.modCore c (·.l1Fill (pa / 128))

def State.loadLines (s : State) (c : Nat) (pas : List Nat) : State :=
  ((pas.map (· / 128)).eraseDups).foldl (fun s l => s.loadLine c (128 * l)) s

/-- The bytes that core `c` reads at `n` physical addresses from `pa` on (R222, R225). -/
def loadBytes (c pa n : Nat) : Op (List RByte) := do
  let g0 := pa / 8
  let words ← collect (List.range ((pa % 8 + n + 7) / 8)) (fun i => granuleLoad c (g0 + i))
  modify (fun s => s.loadLine c pa)
  let s ← get
  return (List.range n).map (fun i =>
    let a := pa + i
    let w := words.getD (a / 8 - g0) 0
    (s.core c).ownOver a (w.extractLsb' (8 * (a % 8)) 8, Store.get false s.poison (a / 8)))

/-- The bytes that the copy engine and the stream transfers of KIND 01b read: memory as it stands, with the core's own
buffered bytes merged over it (R222). -/
def State.streamBytes (s : State) (c pa n : Nat) : List RByte :=
  (List.range n).map (fun i =>
    (s.core c).ownOver (pa + i) (s.byte (pa + i), Store.get false s.poison ((pa + i) / 8)))

/-- Memory as it stands, with its poison. -/
def State.plainBytes (s : State) (pa n : Nat) : List RByte :=
  (List.range n).map (fun i => (s.byte (pa + i), Store.get false s.poison ((pa + i) / 8)))

/-! Buffered writes. -/

/-- The lines of the buffer and of the overflow together (R173): 256 entries and 2,048 overflow lines. -/
def psbCapacity : Nat := 256 + 2048

/-- The physical lines that the core's buffered bytes occupy. -/
def Core.psbLines (c : Core) : List Nat := (c.psb.map (·.pa)).eraseDups

/-- The lines a store of these physical addresses would add. -/
def Core.newLines (c : Core) (as : List Nat) : Nat :=
  ((as.map (fun a => a / 128 * 128)).eraseDups.filter (fun l => !c.psbLines.contains l)).length

/-- Put one byte into the buffer, taking the place of any byte at its address (R173). -/
def Core.bufferByte (c : Core) (ctx va pa : Nat) (b : PByte) : Core :=
  let lva := va / 128 * 128
  let lpa := pa / 128 * 128
  let drop (l : PLine) : PLine :=
    if l.pa == lpa then { l with bytes := l.bytes.filter (fun x => x.off != b.off) } else l
  let lines := c.psb.map drop
  let mine (l : PLine) : Bool := l.ctx == ctx && l.va == lva && l.pa == lpa
  let lines :=
    if lines.any mine then
      lines.map (fun l => if mine l then { l with bytes := b :: l.bytes } else l)
    else lines ++ [⟨ctx, lva, lpa, [b]⟩]
  { c with psb := lines.filter (fun l => !l.bytes.isEmpty) }

/-- A byte to store with its virtual and its physical address. -/
abbrev Placed := Nat × Nat × RByte

/-- Consecutive bytes from `va`, at `pa`. -/
def placeBytes (va pa : Nat) : List RByte → List Placed
  | [] => []
  | b :: t => (va, pa, b) :: placeBytes (va + 1) (pa + 1) t

/-- Put bytes into the buffer, in order. -/
def Core.bufferAll (c : Core) (q : SeqId) (ac ctx : Nat) : List Placed → Core
  | [] => c
  | (va, pa, b) :: t => (c.bufferByte ctx va pa ⟨pa % 128, b.1, q, ac, b.2⟩).bufferAll q ac ctx t

/-- Store bytes through the buffer of core `c` (R173, R221). -/
def storeBytes (c : Nat) (q : SeqId) (ac ctx : Nat) (bs : List Placed) : Op Unit :=
  modify (fun s => s.modCore c (fun k => k.bufferAll q ac ctx bs))

/-- The bytes of each granule together (R224). -/
def byGranule (bs : List Placed) : List (List Placed) :=
  ((bs.map (fun b => b.2.1 / 8)).eraseDups).map (fun g => bs.filter (fun b => b.2.1 / 8 == g))

/-! Publication (R221, R226). -/

/-- Publish the listed bytes of one granule as one event. The granule is poisoned by a poisoned byte, and cleaned when
it is written whole (R282). -/
def State.publishGranule (s : State) (g : Nat) (bs : List (Nat × RByte)) : State :=
  let s := s.logPubs g 1
  let s := bs.foldl (fun s b => s.wr (8 * g + b.1) [b.2.1]) s
  if bs.any (fun b => b.2.2) then s.setPoison g true 1
  else if (List.range 8).all (fun i => bs.any (fun b => b.1 == i)) then s.setPoison g false 1
  else s

/-- Publish bytes, each with its poison, from `a` on: one event per granule. -/
def State.publishBytes (s : State) (a : Nat) (bs : List RByte) : State :=
  (List.range ((a % 8 + bs.length + 7) / 8)).foldl (fun s i =>
    let g := a / 8 + i
    let mine := (List.range 8).filterMap (fun k =>
      let x := 8 * g + k
      if a ≤ x && x < a + bs.length then some (k, bs.getD (x - a) (0, false)) else none)
    if mine.isEmpty then s else s.publishGranule g mine) s

/-- Publish the bytes of a line at `pa`. -/
def State.publishLine (s : State) (pa : Nat) (l : PLine) : State :=
  (List.range 16).foldl (fun s g =>
    let mine := (l.bytes.filter (fun b => b.off / 8 == g)).map (fun b => (b.off % 8, (b.val, b.poison)))
    if mine.isEmpty then s else s.publishGranule (pa / 8 + g) mine) s

/-- A core does not load an older value of what itself has written through (log 16). -/
def State.sawOwn (s : State) (c pa n : Nat) : State :=
  s.modCore c (fun k => { k with
    seen := (List.range ((pa % 8 + n + 7) / 8)).foldl (fun m i => Store.set 0 m (pa / 8 + i) s.npub) k.seen })

/-- Where a buffered line goes: by its own context's tables as they stand, or where its store was translated to when
they give nothing (R173, R226, R281; log 17). A migration or an unanswered host waits (R219). -/
def lineTarget (c : Nat) (l : PLine) : Op Nat := do
  match ← xlate (agentCore c) (dieOfCore c) l.ctx true .store l.va with
  | .ok pa => return pa
  | .mig | .pend => throwWait
  | _ => return l.pa

/-- End the supersteps of the groups of core `c`, but that of group `keep` (R232). -/
def State.breakSteps (s : State) (c : Nat) (keep : Option Nat := none) : State :=
  s.modDie (dieOfCore c) (fun d => { d with groups := d.groups.map (fun e =>
    (e.1, if bit e.2.part (c % 144) && some e.1 != keep then { e.2 with step := false } else e.2)) })

/-- A core has written the granules of a line through (log 16): it loads no older value of them. Its copies of the line's
other granules stay (R171, R228). -/
def State.sawLine (s : State) (c pa : Nat) (l : PLine) : State :=
  (List.range 16).foldl (fun s g => if l.bytes.any (fun b => b.off / 8 == g) then s.sawOwn c (pa + 8 * g) 8 else s) s

/-- Publish the lines of core `c` that `sel` selects, every one translated before any is written (R226). -/
def flushLines (c : Nat) (sel : PLine → Bool) : Op Unit := do
  let lines := ((← get).core c).psb.filter sel
  let tgt ← collect lines (fun l => do return (l, ← lineTarget c l))
  forAll tgt (fun p => modify (fun s => ((s.publishLine p.2 p.1).sawLine c p.2 p.1).requestLine c p.2))
  modify (fun s => s.modCore c (fun k => { k with psb := k.psb.filter (fun l => !sel l) }))

/-- Publish some lines early, for an engine or an invalidation: the superstep ends (R215, R232, R234). -/
def flushEarly (c : Nat) (sel : PLine → Bool) : Op Unit := do
  if ((← get).core c).psb.any sel then do
    flushLines c sel
    modify (fun s => s.breakSteps c)

/-! Host memory (R180, R226, R227). -/

/-- A byte of host memory as the host has it. -/
def State.hostByte (s : State) (a : Nat) : Byte := Store.get memDefault s.hostMem a

/-- The bytes that the device has published in the host half reach host memory. -/
def State.sendHost (s : State) : State :=
  { s with
    hostMem := s.hostDirty.foldl (fun m e => Store.set memDefault m e.1 (s.byte e.1)) s.hostMem
    hostDirty := [] }

/-- One granule of the host half as host memory gives it, the bytes not yet sent kept: a publication event where that
changes what the device reads. -/
def State.refreshGranule (s : State) (g : Nat) : State :=
  let bs := (List.range 8).filterMap (fun k =>
    let a := 8 * g + k
    if Store.get false s.hostDirty a || s.byte a == s.hostByte a then none else some (k, (s.hostByte a, false)))
  if bs.isEmpty then s else { s.publishGranule g bs with hostDirty := s.hostDirty }

/-- The granules of the host half that something has written. -/
def State.hostGranules (s : State) : List Nat :=
  (((s.mem ++ s.hostMem).map (fun (e : Nat × Byte) => e.1 / 8)).filter (fun g => hostBase / 8 ≤ g)).eraseDups

/-- Die 0's L2 drops the host-half lines that it holds (R226, R234). -/
def State.dropHostLines (s : State) : State := s.hostGranules.foldl State.refreshGranule s

/-- A write of `n` bytes by the host to its own memory; `held` when die 0's L2 holds its lines, and so keeps the older bytes for
the device (R169, R226; log 78). -/
def State.hostWrite (s : State) (addr n v : Nat) (held : Bool) : State :=
  let a := hostBase + addr % 2 ^ 63
  let n := min n 8
  let s := { s with hostMem := Store.setMany memDefault s.hostMem a (bytesOf v n) }
  if held then s else (List.range ((a % 8 + n + 7) / 8)).foldl (fun s i => s.refreshGranule (a / 8 + i)) s

/-- The scopes that reach the host (R220). -/
def hostScope (sc : Nat) : Bool := sc == 10 || sc == 11

/-- The host step: what the device has published in the host half is sent, and a zero-length read follows it (R227). -/
def hostStep (sc : Nat) : Op Unit :=
  if hostScope sc then modify (fun s => { s.sendHost with pcie := s.pcie ++ [.zeroRead] }) else pure ()

/-- The writes that engines have let go and that `sel` selects are published (R226, R234). -/
def State.publishPosted (s : State) (sel : Posted → Bool) : State :=
  let s' := (s.posted.filter sel).foldl (fun s p => s.publishBytes p.pa p.bs) s
  { s' with posted := s.posted.filter (fun p => !sel p) }

/-- The publication of one of the writes that engines have let go (R234). -/
def State.publishOne (s : State) (n : Nat) : State :=
  match s.posted[n]? with
  | some p => { s.publishBytes p.pa p.bs with posted := s.posted.eraseIdx n }
  | none => s

/-- Release at scope `sc`: at QUAD or wider every buffered write of the core is published, and so are the writes of its
completed commands (R226, R234); the host step sends its zero-length read (R227). -/
def release (c sc : Nat) : Op Unit := do
  if 2 ≤ sc then do
    flushLines c (fun _ => true)
    modify (fun s => s.publishPosted (fun p => p.core == c))
  hostStep sc

/-- A release other than a BAR's (R232). -/
def releaseAlone (c sc : Nat) : Op Unit := do
  release c sc
  if 2 ≤ sc then modify (fun s => s.breakSteps c)

/-- Acquire at scope `sc` for core `c`: at QUAD or wider its L1 is empty, at HOST and SYSTEM die 0's L2 drops its
host-half lines (R226, R228). -/
def acquire (c sc : Nat) : Op Unit := do
  if hostScope sc then modify State.dropHostLines
  if 2 ≤ sc then modify (fun s => s.modCore c (fun k => { k with acq := s.npub, seen := [], l1 := [] }))

/-! Alias classes (R223). -/

/-- Whether an access of class `ac` comes after one that the sequencer performs late. -/
def Seq.behindLate (x : Seq) (ac : Nat) : Bool := x.late.any (fun l => ac == 0 || l.ac == ac)

/-- Whether the access that now issues is performed late. -/
def State.defers (s : State) (ac : Nat) : Bool := s.relax && ac != 0

/-- Wait for the accesses that one of class `ac` is ordered after. -/
def needOrder (ac : Nat) : Op Unit := do
  if (← get).mySeq.behindLate ac then throwWait

/-- Leave work of class `ac` to be performed later. -/
def deferWork (ac : Nat) (ws : List LateWork) : Op Unit :=
  modify (fun s =>
    let l := ws.map (fun w => (⟨s.nextId, ac, w⟩ : Late))
    { s.modMySeq (fun x => { x with late := x.late ++ l }) with nextId := s.nextId + 1 })

/-- The physical addresses that late work reaches. -/
def LateWork.pas : LateWork → List Nat
  | .load _ _ _ pa n => (List.range n).map (pa + ·)
  | .store _ bs => bs.map (·.2.1)
  | .atomic _ _ pa _ _ => [pa]
  | .vload _ _ _ es => es.filterMap (·.2)

/-- The physical addresses that the late stores of core `c` will put into its buffer. -/
def Core.latePas (c : Core) : List Nat :=
  allSeqs.flatMap (fun q => (c.seq q).late.filterMap (fun l => match l.work with
    | .store _ (b :: _) => some b.2.1
    | _ => none))

/-! The local store (R165, R282). -/

def lsSize : Nat := 0x180000

def Core.lsByte (c : Core) (a : Nat) : RByte := (Store.get 0 c.store a, Store.get false c.storePoison (a / 8))

def Core.lsBytes (c : Core) (a n : Nat) : List RByte := (List.range n).map (fun i => c.lsByte (a + i))

/-- Write bytes into the local store; poison follows R282. -/
def Core.lsWrite (c : Core) (a : Nat) (bs : List RByte) : Core :=
  let st := Store.setMany 0 c.store a (bs.map (·.1))
  let po := (List.range ((a % 8 + bs.length + 7) / 8)).foldl (fun m i =>
    let g := a / 8 + i
    let mine := (List.range 8).filterMap (fun k =>
      let x := 8 * g + k
      if a ≤ x && x < a + bs.length then some (bs.getD (x - a) (0, false)) else none)
    if anyPoison mine then Store.set false m g true
    else if mine.length == 8 then Store.set false m g false else m) c.storePoison
  { c with store := st, storePoison := po }

/-- The scope codes that exist (R220). -/
def scopeOk (sc : Nat) : Bool := sc < 12

end Sys2Proof.Machine
end

