-- ==== Sys2Proof/Machine/Mail.lean ====
section
/-! DEFINITION. The Postmaster mailbox (R290, R407) and the free-frame pools (R213). -/

namespace Sys2Proof.Machine

/-- Whether the ring of die `d` is set up and has room (R290). -/
def Die.mailRoom (d : Die) : Bool :=
  let n := d.mblog.toNat
  4 ≤ n && n ≤ 12 && (d.mbhead.toNat + 2 ^ 31 - d.mbtail.toNat) % 2 ^ 31 < 2 ^ n && paOk d.mbbase.toNat

/-- Write the oldest waiting message into the ring and count it (R290). -/
def State.mailOne (s : State) (d : Nat) : State :=
  let die := s.die d
  match die.mail with
  | [] => s
  | m :: t =>
    if die.mailRoom then
      let a := die.mbbase.toNat + 32 * (die.mbhead.toNat % 2 ^ die.mblog.toNat)
      let s := (((s.publishN a 8 m.w0.toNat).publishN (a + 8) 8 m.w1.toNat).publishN (a + 16) 8 m.w2.toNat).publishN
        (a + 24) 8 m.w3.toNat
      s.modDie d (fun x => { x with mail := t, mbhead := x.mbhead + 1 })
    else s

/-- Drain what the ring has room for. -/
def State.mailDrain (s : State) (d : Nat) : Nat → State
  | 0 => s
  | n + 1 => State.mailDrain (s.mailOne d) d n

def State.mailAll (s : State) (d : Nat) : State := s.mailDrain d (s.die d).mail.length

/-- The cause code of a message that carries none (R290). -/
def noCause : Nat := 0x3F

/-- Word 0 of a message (R290). -/
def mailWord0 (cause seq core source sub : Nat) : DWord :=
  BitVec.ofNat 64 (cause % 64 + seq % 4 * 2 ^ 6 + core % 512 * 2 ^ 8 + source % 8 * 2 ^ 24 + sub % 32 * 2 ^ 27)

/-- Post a message to die `d`'s Postmaster core. -/
def State.post (s : State) (d : Nat) (w0 : DWord) (w1 w2 w3 : Nat) : State :=
  let m : MailMsg := ⟨w0, BitVec.ofNat 64 w1, BitVec.ofNat 64 w2, BitVec.ofNat 64 w3⟩
  (s.modDie d (fun x => { x with mail := x.mail ++ [m] })).mailAll d

/-- A message of a unit of die `d` that carries no cause (R407). -/
def State.postUnit (s : State) (d source sub w1 w2 w3 : Nat) : State :=
  s.post d (mailWord0 noCause 0 0 source sub) w1 w2 w3

/-! Pools (R213). -/

/-- Take the top frame of pool `k` of die `d`: the frame number, or none with EMPTY set. -/
def State.popFrame (s : State) (d k : Nat) : Option Nat × State :=
  let p := (s.die d).pool k
  if p.count = 0 then (none, s.modDie d (fun x => x.setPool k { p with empty := true }))
  else
    (some (s.rd (p.base + 4 * (p.count - 1)) 4 % 2 ^ 29),
      s.modDie d (fun x => x.setPool k { p with count := p.count - 1 }))

/-- Return a frame to pool `k` of die `d`; a full pool posts it (R213, R407). -/
def State.pushFrame (s : State) (d k frame : Nat) : State :=
  let p := (s.die d).pool k
  if p.cap ≤ p.count then s.postUnit d 4 0 k frame 0
  else
    (s.publishN (p.base + 4 * p.count) 4 frame).modDie d (fun x => x.setPool k { p with count := p.count + 1 })

end Sys2Proof.Machine
end

