-- ==== Sys2Proof/Machine/Tensor.lean ====
section
/-! DEFINITION. Tensor descriptors, tile table entries, the layout unit, copy-on-write and stamps (R200 to R212, R258,
R259, R70). -/

namespace Sys2Proof.Machine

/-- What naming a tensor gives: its descriptor, or NOTMAP for an invalid context, TENSOR, or poison (R193, R200, R201). -/
inductive TRes where
  | ok (d : TDesc)
  | notmap
  | bad
  | poison
  deriving DecidableEq, Repr

/-- A malformed descriptor (R201). -/
def tdescBad (w2 : Nat) (res0 : Bool) (d ts : List Nat) : Bool :=
  let fmt := fieldOf w2 16 5
  let tlog := fieldOf w2 21 3
  !res0 || fieldOf w2 36 27 != 0 || 24 ≤ fmt || 6 ≤ tlog || d.any (· == 0) ||
    2 ^ ts.foldl (· + ·) 0 * fmtBits fmt != 8 * 32768 * 2 ^ tlog ||
    (bit w2 24 && !bit w2 (28 + fieldOf w2 25 3))

/-- The descriptor of tensor `tid` of context `ctx`, read on die `die`. -/
def tdesc (die ctx tid : Nat) : Op TRes := do
  let c ← ctxEnt die ctx
  if c.poisoned then return .poison
  if !c.valid then return .notmap
  if c.ntens ≤ tid then return .bad
  let a := c.tdBase + 128 * tid
  let w0 ← hwRd a 8
  let w1 ← hwRd (a + 8) 8
  let w2 ← hwRd (a + 0x10) 8
  let res ← hwRd (a + 0x18) 40
  let tt ← collect (List.range 8) (fun i => hwRd (a + 0x40 + 8 * i) 8)
  if (← get).poisoned a 128 then return .poison
  let d := [fieldOf w0 0 32, fieldOf w0 32 32, fieldOf w1 0 32, fieldOf w1 32 32]
  let ts := [fieldOf w2 0 4, fieldOf w2 4 4, fieldOf w2 8 4, fieldOf w2 12 4]
  if !bit w2 63 || tdescBad w2 (res == 0) d ts then return .bad
  return .ok { addr := a, d, ts, fmt := fieldOf w2 16 5, tlog := fieldOf w2 21 3, vers := bit w2 24,
               cur := fieldOf w2 25 3, vmask := fieldOf w2 28 8, ttbase := tt.map (fun w => fieldOf w 0 41) }

def TDesc.dim (d : TDesc) (j : Nat) : Nat := d.d.getD j 1
/-- The tile's span along dimension j. -/
def TDesc.span (d : TDesc) (j : Nat) : Nat := 2 ^ d.ts.getD j 0
/-- G_j = ceil(D_j ÷ TS_j) (R202). -/
def TDesc.grid (d : TDesc) (j : Nat) : Nat := (d.dim j + d.span j - 1) / d.span j
/-- The tile count NT (R202). -/
def TDesc.nt (d : TDesc) : Nat := d.grid 0 * d.grid 1 * d.grid 2 * d.grid 3
def TDesc.tileBytes (d : TDesc) : Nat := 32768 * 2 ^ d.tlog
/-- The version table of version v; an unversioned tensor has the first alone. -/
def TDesc.table (d : TDesc) (v : Nat) : Nat := d.ttbase.getD (if d.vers then v else 0) 0
/-- Whether version v exists (R200). -/
def TDesc.hasVersion (d : TDesc) (v : Nat) : Bool := v < 8 && bit d.vmask v
/-- The version that a store writes, and a read that nothing else resolves reads (R70). -/
def TDesc.current (d : TDesc) : Nat := if d.vers then d.cur else 0

/-- Tile and index of an element (R202). -/
def TDesc.place (d : TDesc) (c : List Nat) : Nat × Nat :=
  let g (j : Nat) := c.getD j 0 / d.span j
  let l (j : Nat) := c.getD j 0 % d.span j
  (((g 3 * d.grid 2 + g 2) * d.grid 0 + g 0) * d.grid 1 + g 1,
   ((l 3 * d.span 2 + l 2) * d.span 0 + l 0) * d.span 1 + l 1)

/-- Whether an element is within the bounds (R203). -/
def TDesc.inBounds (d : TDesc) (c : List Nat) : Bool := (List.range 4).all (fun j => c.getD j 0 < d.dim j)

/-! Tile table entries (R204, R205). -/

def Tte.frame (t : Tte) : Nat := fieldOf t.lo 0 29
def Tte.tier (t : Tte) : Nat := fieldOf t.lo 29 2
def Tte.state (t : Tte) : Nat := fieldOf t.lo 31 2
def Tte.cow (t : Tte) : Bool := bit t.lo 33
def Tte.poison (t : Tte) : Bool := bit t.lo 34
def Tte.pin (t : Tte) : Bool := bit t.lo 35
def Tte.refcnt (t : Tte) : Nat := fieldOf t.lo 36 8
def Tte.shx (t : Tte) : Bool := bit t.lo 52
def Tte.stampw (t : Tte) : Nat := fieldOf t.hi 0 32

/-- A tile is accessible in the HB or LP tier, resident or in flight (R205). -/
def Tte.accessible (t : Tte) : Bool := t.tier ≤ 1 && t.state ≤ 1

/-- A set Res0 bit, or REFCNT 0 on an accessible tile (R205). -/
def Tte.bad (t : Tte) : Bool :=
  fieldOf t.lo 53 11 != 0 || fieldOf t.hi 32 32 != 0 || (t.accessible && t.refcnt == 0)

/-- The TTE of tile x of version v (R202). -/
def readTte (d : TDesc) (v x : Nat) : Op Tte := do
  let a := d.table v + 16 * x
  return ⟨a, ← hwRd a 8, ← hwRd (a + 8) 8⟩

/-- Write the first word of a TTE in one update. -/
def writeTteLo (a lo : Nat) : Op Unit := hwWr a 8 lo

/-- The address of the summary word of tile x (R206). -/
def TDesc.summary (d : TDesc) (v x : Nat) : Nat := d.table v + 16 * ((d.nt + 15) / 16) * 16 + 4 * (x / 64)

/-- Reach tile x of version v (R205, R207, R169). -/
def tileOf (d : TDesc) (v x : Nat) : Op Tile := do
  let t ← readTte d v x
  if (← get).poisoned t.addr 16 then return .poison
  if t.bad then return .bad
  if !t.accessible then return .absent
  if !paOk (t.frame * 4096) then return .notmap
  return .ok (t.frame * 4096) t

/-! Versions (R70, R71). -/

/-- The stage slot that a block of a stage task belongs to, with its die. -/
def Block.stageOf (b : Block) (s : State) : Option StageSlot :=
  if b.info.stagev then some (s.stage b.info.die b.info.stage) else none

/-- The index of a tensor among a stage's weights (R50). -/
def StageSlot.weight (st : StageSlot) (tid : Nat) : Option Nat :=
  let n := fieldOf (st.desc.getD 11 0) 0 5
  let wt (i : Nat) := fieldOf (st.desc.getD (12 + i / 2) 0) (32 * (i % 2)) 32
  (List.range n).find? (fun i => wt i == tid)

/-- The version that a load of the block, or a load outside any block, reads (R70). -/
def State.readVersion (s : State) (b : Option Block) (tid : Nat) (d : TDesc) : Nat :=
  let pinned : Option Nat := do
    let b ← b
    let st ← b.stageOf s
    let i ← st.weight tid
    let slot ← Store.get none st.tags b.info.verset
    return fieldOf slot.vset (4 * i) 4
  if d.vers then pinned.getD d.cur else 0

/-! Copies, copy-on-write and stamps. -/

/-- Copy `n` bytes between frames through the home slices, poison included. -/
def State.copyFrame (s : State) (src dst n : Nat) : State := s.publishBytes dst (s.plainBytes src n)

/-- The pool of a frame: its tier and die, and the tile size (R213). -/
def poolOf (tier tlog : Nat) : Nat := 6 * tier + tlog

/-- Subtract 1 from REFCNT in every other existing version's TTE of tile x that holds `frame` (R211 step 4). -/
def lowerSharers (d : TDesc) (v x frame : Nat) : Op Unit :=
  forAll ((List.range 8).filter (fun k => k != v && d.hasVersion k)) (fun k => do
    let t ← readTte d k x
    if t.accessible && t.frame == frame && t.refcnt != 0 then
      writeTteLo t.addr (setField t.lo 36 8 (t.refcnt - 1)))

/-- What copy-on-write gives a write: the frame to write, or an empty pool (R211, R212). -/
inductive Cow where
  | ok (pa : Nat)
  | empty
  deriving DecidableEq, Repr

/-- Prepare tile x of version v for a write through tensor space (R211). -/
def cowTile (die ctx tid : Nat) (d : TDesc) (v x : Nat) (t : Tte) : Op Cow := do
  let pa := t.frame * 4096
  if t.cow && 1 < t.refcnt then do
    let k := poolOf t.tier d.tlog
    let (f, s) := (← get).popFrame (homeDie pa) k
    set s
    match f with
    | none => return .empty
    | some f => do
      modify (fun s => s.copyFrame pa (f * 4096) d.tileBytes)
      let lo := setField (setField (setField t.lo 0 29 f) 36 8 1) 33 1 0
      writeTteLo t.addr lo
      if t.shx then
        modify (fun s => s.postUnit die 3 0 (tid + x * 2 ^ 32) t.frame ctx)
      else if d.vers then lowerSharers d v x t.frame
      return .ok (f * 4096)
  else if t.cow then do
    writeTteLo t.addr (setField t.lo 33 1 0)
    return .ok pa
  else return .ok pa

/-- Stamp tile x of version v with the context's STAMP, and its group's summary word (R206, R259). -/
def stampTile (die ctx : Nat) (d : TDesc) (v x : Nat) : Op Unit := do
  let c ← ctxEnt die ctx
  let t ← readTte d v x
  if t.stampw != c.stamp then do
    hwWr (t.addr + 8) 8 (setField t.hi 0 32 c.stamp)
    let a := d.summary v x
    let w ← hwRd a 4
    if w < c.stamp then hwWr a 4 c.stamp

/-- Record poisoned data in a tile (R282). -/
def poisonTile (d : TDesc) (v x : Nat) : Op Unit := do
  let t ← readTte d v x
  writeTteLo t.addr (setField t.lo 34 1 1)

/-! Packed elements (R119): element e of width b occupies bits [b·e + b − 1 : b·e] of the frame. -/

/-- The bytes that hold bits [lo, lo + w). -/
def bitSpan (lo w : Nat) : Nat × Nat := (lo / 8, (lo + w + 7) / 8 - lo / 8)

/-- Field [lo, lo + w) of bytes that begin at byte lo / 8. -/
def bitsOf (lo w : Nat) (bs : List RByte) : Nat := rbytesNat bs / 2 ^ (lo % 8) % 2 ^ w

/-- Put `v` into the same field. -/
def putBits (lo w v : Nat) (poison : Bool) (bs : List RByte) : List RByte :=
  let x := setField (rbytesNat bs) (lo % 8) w v
  (bytesOf x bs.length).zip (bs.map (fun b => b.2 || poison))

end Sys2Proof.Machine
end

