-- ==== Sys2Proof/Machine/Versions.lean ====
section
/-! DEFINITION. Weight versions: pins, VERNEW's copy, dropping and freeing (R70 to R76, R372 to R374). -/

namespace Sys2Proof.Machine

/-- The installed stage slots of both dies, with die and number. -/
def State.installed (s : State) : List (Nat × Nat × StageSlot) :=
  (List.range 16).filterMap (fun k =>
    let st := s.stage (k / 8) (k % 8)
    if st.state = 0 then none else some (k / 8, k % 8, st))

/-- The installed stage that has tensor `tid` of context `ctx` as a weight, with its index (R50). -/
def State.weightStage (s : State) (ctx tid : Nat) : Option (StageSlot × Nat) :=
  s.installed.findSome? (fun p => if p.2.2.ctx = ctx then (p.2.2.weight tid).map (fun i => (p.2.2, i)) else none)

/-- The pin count of a version: the tags in flight whose version set maps it (R71). -/
def State.pinCount (s : State) (ctx tid v : Nat) : Nat :=
  match s.weightStage ctx tid with
  | none => 0
  | some (st, i) => (st.tags.filter (fun e =>
      match e.2 with
      | some t => fieldOf t.vset (4 * i) 4 == v
      | none => false)).length

/-- AUTODROP of the tensor's stage (R49, R75). -/
def State.autoDrop (s : State) (ctx tid : Nat) : Bool :=
  match s.weightStage ctx tid with
  | some (st, _) => bit (st.desc.getD 4 0) 27
  | none => false

def State.isDropped (s : State) (ctx tid v : Nat) : Bool := s.drops.contains ⟨ctx, tid, v⟩

/-- Lower the reference count of a frame of tile x in every existing version, and return it at 0 (R75). -/
def dropFrame (d : TDesc) (x frame tier : Nat) : Op Unit := do
  let holders ← collect ((List.range 8).filter d.hasVersion) (fun v => readTte d v x)
  let mine := holders.filter (fun t => t.tier ≤ 1 && t.state ≤ 2 && t.frame == frame)
  forAll mine (fun t => if t.refcnt = 0 then pure () else writeTteLo t.addr (setField t.lo 36 8 (t.refcnt - 1)))
  if mine.any (fun t => t.refcnt ≤ 1) then
    modify (fun s => s.pushFrame (homeDie (frame * 4096)) (poolOf tier d.tlog) frame)

/-- Free version v: its frames lose one reference each, then its VMASK bit clears (R75, R374). -/
def freeVersion (d : TDesc) (ctx tid v : Nat) : Op Unit := do
  forAll (List.range d.nt) (fun x => do
    let t ← readTte d v x
    if t.tier ≤ 1 && t.state ≤ 2 then dropFrame d x t.frame t.tier)
  let w ← hwRd (d.addr + 0x10) 8
  hwWr (d.addr + 0x10) 8 (setField w (28 + v) 1 0)
  modify (fun s => { s with drops := s.drops.filter (fun e => e != ⟨ctx, tid, v⟩) })
  -- a weight version of a stage is freed: its stage is evaluated (R64)
  forAll ((← get).installed.filter (fun p => p.2.2.ctx == ctx && (p.2.2.weight tid).isSome)) (fun p =>
    modify (fun s => s.modStage p.1 p.2.1 (fun x => { x with due := true })))

/-- Free version v when it is dropped, superseded and unpinned; true when it was (R75). -/
def freeIfDue (die ctx tid v : Nat) : Op Bool := do
  match ← tdesc die ctx tid with
  | .ok d => do
    let s ← get
    if s.isDropped ctx tid v && d.cur != v && d.hasVersion v && s.pinCount ctx tid v == 0 then do
      freeVersion d ctx tid v
      return true
    else return false
  | _ => return false

/-- Why VERNEW cannot make a version, or the version it would make (R373). -/
inductive VerNew where
  | make (v : Nat)
  | fail (code : Nat)
  | waits
  deriving DecidableEq, Repr

/-- The checks of VERNEW in the order of R373. -/
def verNewCheck (d : TDesc) : Op VerNew := do
  if !d.vers then return .fail 0xFFFFFFFE
  if 65536 < d.nt then return .fail 0xFFFFFFFC
  match (List.range 8).find? (fun v => !d.hasVersion v) with
  | none => return .fail 0xFFFFFFFF
  | some v => do
    let tt := d.ttbase.getD v 0
    if tt = 0 || tt % 256 != 0 then return .fail 0xFFFFFFFD
    let ts ← collect (List.range d.nt) (fun x => readTte d d.cur x)
    if ts.any (fun t => t.accessible && t.refcnt == 255) then return .fail 0xFFFFFFFF
    if ts.any (fun t => t.state == 1) then return .waits
    return .make v

/-- Make version v of the tensor and make it current (R72, R373). -/
def verNewMake (die ctx tid : Nat) (d : TDesc) (v : Nat) : Op Unit := do
  forAll (List.range d.nt) (fun x => do
    let t ← readTte d d.cur x
    let a := d.table v + 16 * x
    let share (lo : Nat) : Nat := setField (setField lo 33 1 1) 36 8 (fieldOf lo 36 8 + 1)
    if t.accessible then do
      forAll ((List.range 8).filter d.hasVersion) (fun k => do
        let u ← readTte d k x
        if u.accessible && u.frame == t.frame then writeTteLo u.addr (share u.lo))
      hwWr a 8 (share t.lo)
      hwWr (a + 8) 8 t.hi
      if t.shx then modify (fun s => s.postUnit die 3 1 (tid + x * 2 ^ 32) t.frame ctx)
    else do
      hwWr a 8 t.lo
      hwWr (a + 8) 8 t.hi)
  forAll (List.range ((d.nt + 63) / 64)) (fun g => do
    let w ← hwRd (d.summary d.cur (64 * g)) 4
    hwWr (d.summary v (64 * g)) 4 w)
  let w ← hwRd (d.addr + 0x10) 8
  hwWr (d.addr + 0x10) 8 (setField (setField w (28 + v) 1 1) 25 3 v)
  if (← get).autoDrop ctx tid then do
    modify (fun s => { s with drops := ⟨ctx, tid, d.cur⟩ :: s.drops })
    let _ ← freeIfDue die ctx tid d.cur

/-- The version that the tag slot entries of a stage would pin now: every weight's current one. A weight whose descriptor has
become invalid, malformed or poisoned counts as version 0: R71 states no version for it (DESIGN CHOICE, log 20). -/
def currentSet (die ctx : Nat) (tids : List Nat) : Op Nat := do
  let vs ← collect tids (fun t => do
    match ← tdesc die ctx t with
    | .ok d => return d.current
    | _ => return 0)
  return (vs.zipIdx.foldl (fun a p => a + p.1 * 2 ^ (4 * p.2)) 0)

/-- The weight tensors of a stage, in order (R49). -/
def StageSlot.weights (st : StageSlot) : List Nat :=
  (List.range (fieldOf (st.desc.getD 11 0) 0 5)).map (fun i => fieldOf (st.desc.getD (12 + i / 2) 0) (32 * (i % 2)) 32)

end Sys2Proof.Machine
end

