-- ==== Sys2Proof/Machine/Task.lean ====
section
/-! DEFINITION. Task control blocks, insertion, the Sorting Frame, block start, the successor walk and retirement
(R26 to R47, R260 to R266, R406). -/

namespace Sys2Proof.Machine

/-! A hardware agent's accesses by virtual address, checked as user mode (R405). -/

/-- Split an access at 4 KiB boundaries, the smallest page. -/
def pageParts (va n : Nat) : List (Nat × Nat) :=
  let first := min n (4096 - va % 4096)
  if n = 0 then []
  else (va, first) :: (List.range ((n - first + 4095) / 4096)).map (fun i =>
    (addrAdd va (first + 4096 * i), min 4096 (n - first - 4096 * i)))

/-- An access of `n` bytes that touches both halves is not mapped (R194). -/
def twoHalves (va n : Nat) : Bool := n != 0 && crossesHalf va (addrAdd va (n - 1))

/-- Bytes read by an agent, none when the access fails. -/
def agBytes (agent die ctx va n : Nat) : Op (Option (List RByte)) := do
  if twoHalves va n then return none
  let ps ← collect (pageParts va n) (fun p => do return (← xlAgent agent die ctx .load p.1, p.2))
  let s ← get
  return ps.foldl (fun acc p => do
    let l ← acc
    let pa ← p.1
    return l ++ s.plainBytes pa p.2) (some [])

/-- A number read by an agent; poison and a failed access give none. -/
def agRead (agent die ctx va n : Nat) : Op (Option Nat) := do
  match ← agBytes agent die ctx va n with
  | some l => return if anyPoison l then none else some (rbytesNat l)
  | none => return none

/-- Read `n` words of 64 bits. -/
def agWords (agent die ctx va n : Nat) : Op (Option (List Nat)) := do
  match ← agBytes agent die ctx va (8 * n) with
  | none => return none
  | some l =>
    if anyPoison l then return none
    else return some ((List.range n).map (fun i => rbytesNat ((l.drop (8 * i)).take 8)))

/-- Whether what an agent reads at `va` can be read and holds poison (R282). -/
def poisonedAt (agent die ctx va n : Nat) : Op Bool := do
  return ((← agBytes agent die ctx va n).map anyPoison).getD false

/-- Whether an agent may write `n` bytes at `va`. -/
def agCanWrite (agent die ctx va n : Nat) : Op Bool := do
  if twoHalves va n then return false
  let ps ← collect (pageParts va n) (fun p => xlAgent agent die ctx .store p.1)
  return ps.all (·.isSome)

/-- Write bytes; false, with nothing written, when the access fails. -/
def agWriteBytes (agent die ctx va : Nat) (bs : List RByte) : Op Bool := do
  if twoHalves va bs.length then return false
  let ps ← collect (pageParts va bs.length) (fun p => do return (← xlAgent agent die ctx .store p.1, p))
  if ps.any (fun p => p.1.isNone) then return false
  let _ ← collect ps (fun p => modify (fun s =>
    s.publishBytes (p.1.getD 0) ((bs.drop ((p.2.1 + 2 ^ 64 - va) % 2 ^ 64)).take p.2.2)))
  return true

def agWrite (agent die ctx va n v : Nat) : Op Bool :=
  agWriteBytes agent die ctx va ((bytesOf v n).map (fun b => (b, false)))

/-- The task hardware of die `d` (Sorting Frame unit, retirement hardware, trace). -/
def agTask (d : Nat) : Nat := agentDie d 5

/-! Task control blocks (R31, R32). -/

/-- Where TCB `h` of a context stands. -/
def tcbVa (c : CtxEnt) (h : Nat) : Nat := addrAdd c.tcbBase (128 * h)

/-- What reading a TCB gives: its 16 words, a handle beyond the pool, or unreadable. -/
inductive TcbRes where
  | ok (w : List Nat)
  | beyond
  | unreadable
  deriving DecidableEq, Repr

def readTcb (die ctx h : Nat) : Op TcbRes := do
  let c ← ctxEnt die ctx
  if c.tcbSize ≤ h then return .beyond
  match ← agWords (agTask die) die ctx (tcbVa c h) 16 with
  | some w => return .ok w
  | none => return .unreadable

/-- Write a maintained field of a TCB; a failure is told by mailbox and the task goes on (R406, R407). -/
def putTcb (die ctx h off n v : Nat) : Op Unit := do
  let c ← ctxEnt die ctx
  if !(← agWrite (agTask die) die ctx (addrAdd (tcbVa c h) off) n v) then
    modify (fun s => s.postUnit die 1 3 h off ctx)

/-- The byte of STATE, PF, ERR, TRIGD and HELD, at 0x0E (R32). -/
def flagByte (state : Nat) (pf err trigd held : Bool) : Nat :=
  state + (if pf then 16 else 0) + (if err then 32 else 0) + (if trigd then 64 else 0) + (if held then 128 else 0)

/-- The maintained fields of a task as they go to memory (R406). -/
def putFlags (die : Nat) (t : Task) : Op Unit :=
  putTcb die t.info.ctx t.info.h 0x0E 1 (flagByte t.state t.pf t.err t.trigd t.held)
def putBlkLeft (die : Nat) (t : Task) : Op Unit := putTcb die t.info.ctx t.info.h 0x5C 4 t.blkleft
def putTrigLeft (die : Nat) (t : Task) : Op Unit := putTcb die t.info.ctx t.info.h 0x6C 4 t.trigleft
def putNextBlk (die : Nat) (t : Task) : Op Unit := putTcb die t.info.ctx t.info.h 0x7C 4 t.nextblk
def putStatus (die : Nat) (t : Task) : Op Unit := putTcb die t.info.ctx t.info.h 0x78 2 t.status

/-! The kernel descriptor and the rectangle (R26 to R28). -/

/-- A kernel descriptor's 32 words hold no reserved value and no set Res0 bit, for the levels below NLEV. -/
def kdescOk (w : List Nat) : Bool :=
  let nlev := fieldOf (w.getD 10 0) 0 3
  nlev ≤ 6 && fieldOf (w.getD 10 0) 4 60 == 0 && (w.drop 11).all (· == 0) &&
    (List.range 4).all (fun i => w.getD i 0 % 8 == 0) &&
    (List.range nlev).all (fun k =>
      let e := w.getD (4 + k) 0
      let kind := fieldOf e 0 2
      let bound := fieldOf e 8 24
      kind != 0 && fieldOf e 2 6 == 0 && fieldOf e 32 32 == 0 && bound != 0 && (kind != 3 || bound ≤ 2))

/-- Product of the extents of the spatial levels from level k on. -/
def blockCount (kinds extent : List Nat) : Nat :=
  ((kinds.zip extent).filter (fun p => 2 ≤ p.1)).foldl (fun a p => a * p.2) 1

/-- The coordinates c_k of block `b`; 0 for a level that is not spatial (R28). -/
def blockCoords (kinds extent : List Nat) (b : Nat) : List Nat :=
  match kinds, extent with
  | k :: ks, e :: es =>
    let inner := blockCount ks es
    if 2 ≤ k then (b / inner % e) :: blockCoords ks es b else 0 :: blockCoords ks es b
  | _, _ => []

/-- The die of block `b`: the D level's coordinate, or DIE (R27, R35). -/
def TaskInfo.dieOf (t : TaskInfo) (b : Nat) : Nat :=
  let c := blockCoords t.kinds t.extent b
  match (List.range t.nlev).find? (fun k => t.kinds.getD k 0 == 3) with
  | some k => t.origin.getD k 0 + c.getD k 0
  | none => t.die

/-- LIk at the start of block `b` (R30). -/
def TaskInfo.li (t : TaskInfo) (b k : Nat) : Nat :=
  if k < t.nlev then t.origin.getD k 0 + (blockCoords t.kinds t.extent b).getD k 0 else 0

/-- No Res0 bit of a TCB is set, but for the words of levels at or beyond NLEV (R32, R35). -/
def tcbRes0 (w : List Nat) (nlev : Nat) : Bool :=
  fieldOf (w.getD 1 0) 62 2 == 0 && fieldOf (w.getD 2 0) 18 6 == 0 && fieldOf (w.getD 2 0) 36 28 == 0 &&
    fieldOf (w.getD 11 0) 16 16 == 0 && fieldOf (w.getD 15 0) 16 16 == 0 &&
    (List.range nlev).all (fun k =>
      fieldOf (w.getD (4 + k / 2) 0) (32 * (k % 2) + 24) 8 == 0 &&
        fieldOf (w.getD (7 + k / 2) 0) (32 * (k % 2) + 24) 8 == 0)

/-- Every program core of the package, as a mask. -/
def allProgramCores : Nat := 2 ^ 288 - 1 - 1 - 2 ^ 144

/-- What the front end holds of a task, from its TCB's and its descriptor's words and the core-set mask. -/
def mkInfo (ctx h : Nat) (w k : List Nat) (mask : Nat) : TaskInfo :=
  let nlev := fieldOf (k.getD 10 0) 0 3
  let w1 := w.getD 1 0
  let w2 := w.getD 2 0
  { ctx, h, key := fieldOf w1 0 32, scope := fieldOf w1 58 4, tag := fieldOf w2 0 16, phase := fieldOf w2 16 2,
    verset := fieldOf w2 24 8, stage := fieldOf w2 32 3, stagev := bit w2 35, die := fieldOf w1 56 2, cset := mask,
    origin := (List.range nlev).map (fun i => fieldOf (w.getD (4 + i / 2) 0) (32 * (i % 2)) 24),
    extent := (List.range nlev).map (fun i => fieldOf (w.getD (7 + i / 2) 0) (32 * (i % 2)) 24),
    kinds := (List.range nlev).map (fun i => fieldOf (k.getD (4 + i) 0) 0 2),
    nlev, entries := k.take 4, traced := bit (k.getD 10 0) 3, succ := w.getD 10 0,
    nsucc := fieldOf (w.getD 11 0) 0 16, param := w.getD 12 0, paramlen := fieldOf (w.getD 13 0) 0 32,
    tracebuf := w.getD 14 0 }

/-- The blocks of a task by die, ascending: those of `sel`. -/
def TaskInfo.dieBlocks (t : TaskInfo) (sel : List Nat) (d : Nat) : List Nat := sel.filter (fun b => t.dieOf b == d)

/-- The dies that have blocks of a task's rectangle. -/
def TaskInfo.dies (t : TaskInfo) : List Nat :=
  match (List.range t.nlev).find? (fun k => t.kinds.getD k 0 == 3) with
  | some k => (List.range 2).filter (fun d => t.origin.getD k 0 ≤ d && d < t.origin.getD k 0 + t.extent.getD k 0)
  | none => [t.die]

/-- The checks of R35 on the fields alone: `w` the TCB, `k` the descriptor, `t` what they say, `n` the block count: the
rectangle's, or the number of blocks that RELAUNCH has selected (R265). -/
def insertOk (w k : List Nat) (t : TaskInfo) (n : Nat) : Bool :=
  t.die ≤ 1 && kdescOk k && w.getD 0 0 % 256 == 0 && w.getD 3 0 % 64 == 0 && tcbRes0 w t.nlev &&
    (List.range t.nlev).all (fun i =>
      1 ≤ t.extent.getD i 0 && t.origin.getD i 0 + t.extent.getD i 0 ≤ fieldOf (k.getD (4 + i) 0) 8 24) &&
    (t.kinds.filter (· == 3)).length ≤ 1 &&
    n ≤ 16777215 &&
    !bit t.cset 0 && !bit t.cset 144 &&
    t.dies.all (fun d => fieldOf t.cset (144 * d) 144 != 0)

/-- The result of preparing an insertion: the held fields, or the failure code of TQPUSH (R35, R360). -/
inductive Prep where
  | ok (t : TaskInfo) (w : List Nat)
  | fail (code : Nat)
  deriving DecidableEq, Repr

/-- Whether the hardware holds a task of this handle, from insertion to retirement: its held state counts, whatever stands
in memory (R406). -/
def State.holdsTask (s : State) (ctx h : Nat) : Bool := s.tasks.any (fun t => t.info.ctx == ctx && t.info.h == h)

/-- Read a TCB with its descriptor and core set, and make the checks of R35; `fresh` includes STATE and PREDCNT, and `count`
is the number of blocks that RELAUNCH has selected. -/
def prepTask (die ctx h : Nat) (fresh : Bool) (count : Option Nat := none) : Op Prep := do
  match ← readTcb die ctx h with
  | .beyond => return .fail 4
  | .unreadable => return .fail 5
  | .ok w => do
    if fresh && (fieldOf (w.getD 1 0) 48 4 != 0 || (← get).holdsTask ctx h) then return .fail 1
    if fresh && fieldOf (w.getD 1 0) 32 16 != 0 then return .fail 2
    if w.getD 0 0 % 256 != 0 || w.getD 3 0 % 64 != 0 then return .fail 3
    match ← agWords (agTask die) die ctx (w.getD 0 0) 32 with
    | none => return .fail 5
    | some k => do
      let mask ← if w.getD 3 0 = 0 then pure (some allProgramCores)
        else agRead (agTask die) die ctx (w.getD 3 0) 36
      match mask with
      | none => return .fail 5
      | some m =>
        let t := mkInfo ctx h w k m
        if insertOk w k t (count.getD (blockCount t.kinds t.extent)) then return .ok t w else return .fail 3

/-! The Sorting Frame (R36 to R39). -/

/-- The tasks now in the frame of die `d` (R39). -/
def State.frameCount (s : State) (d : Nat) : Nat :=
  (s.tasks.filter (fun t => t.frames.any (fun f => f.die == d))).length

/-- The tick period of die `d` in clocks, none with aging off (R39). -/
def Die.agePeriod (d : Die) : Option Nat :=
  if d.agesh = 15 then none else some (usClocks (2 ^ d.agesh.toNat))

/-- Apply the ticks of die `d` that have fallen up to now; they count from die start-up, which is the clock of the last BOOT
(R37; log 80). -/
def State.ageSync (s : State) (d : Nat) : State :=
  let die := s.die d
  let n := match die.agePeriod with
    | some p => (s.clock - s.start) / p - (die.lastTick - s.start) / p
    | none => 0
  let up (f : FrameEnt) : FrameEnt := if f.die == d then { f with age := min (f.age + n) (2 ^ 32 - 1) } else f
  { (s.modDie d (fun x => { x with lastTick := s.clock })) with
    tasks := s.tasks.map (fun t => { t with frames := t.frames.map up }) }

/-- Whether every frame a task waits for has room (R36). -/
def State.framesRoom (s : State) (fs : List FrameEnt) : Bool := fs.all (fun f => s.frameCount f.die < 65536)

/-- Enter the frames it waits for, in one step (R36). -/
def State.enterFrames (s : State) (t : Task) : Task :=
  { t with waiting := [], frames := t.waiting.map (fun f => { f with at_ := s.clock, age := 0 }) }

/-- Let waiting tasks in, oldest first. -/
def State.enterWaiting (s : State) : List Task → State
  | [] => s
  | t :: r =>
    let s :=
      if !t.waiting.isEmpty && s.framesRoom t.waiting then
        let s := t.waiting.foldl (fun s f => s.ageSync f.die) s
        let s := t.waiting.foldl (fun s f => s.wakeDie f.die) s
        { s with tasks := s.tasks.map (fun x =>
            if x.info.ctx == t.info.ctx && x.info.h == t.info.h then s.enterFrames x else x) }
      else s
    State.enterWaiting s r

/-- FULLSEEN of the dies whose frames have no room (R39). -/
def State.noteFull (s : State) (fs : List FrameEnt) : State :=
  fs.foldl (fun s f => if s.frameCount f.die < 65536 then s else s.modDie f.die (fun d => { d with fullseen := true })) s

/-- Set up an inserted task with blocks `sel` and write its maintained fields (R35, R265). -/
def startTask (die : Nat) (t : TaskInfo) (w sel : List Nat) (relaunch : Option (Nat × Nat)) : Op Unit := do
  let n := sel.length
  let fs : List FrameEnt := ((List.range 2).filterMap (fun d =>
    let b := t.dieBlocks sel d
    if b.isEmpty then none else some ⟨d, 0, 0, b⟩))
  let w1 := w.getD 1 0
  let re := relaunch.isSome
  let task : Task := {
    info := t, state := 1, blkleft := n, trigleft := n, nextblk := 0, pf := !re && bit w1 52, err := !re && bit w1 53,
    trigd := re || bit w1 54, held := !re && bit w1 55, status := if re then 0 else fieldOf (w.getD 15 0) 0 16,
    waiting := fs, frames := [], relaunch }
  putBlkLeft die task
  putTrigLeft die task
  putNextBlk die task
  if re then putStatus die task
  putFlags die task
  modify (fun s => ({ (s.noteFull fs) with tasks := s.tasks ++ [task] }).enterWaiting [task])

/-- Insert a task as R35 states; 0 or TQPUSH's failure code. -/
def insertTask (die ctx h : Nat) : Op Nat := do
  match ← prepTask die ctx h true with
  | .fail c => return c
  | .ok t w => do
    startTask die t w (List.range (blockCount t.kinds t.extent)) none
    return 0

/-! Held tasks. -/

def Task.is (t : Task) (ctx h : Nat) : Bool := t.info.ctx == ctx && t.info.h == h

def State.task (s : State) (ctx h : Nat) : Option Task := s.tasks.find? (fun t => t.is ctx h)

def State.setTask (s : State) (t : Task) : State :=
  { s with tasks := s.tasks.map (fun x => if x.is t.info.ctx t.info.h then t else x) }

/-! Handing out (R38). -/

/-- The tasks that core `c` may be given now, and those it will be given once their 64 clocks have passed. -/
def State.candidates (s : State) (c : Nat) : List (Int × Task) :=
  let d := dieOfCore c
  s.tasks.filterMap (fun t =>
    match t.frames.find? (fun f => f.die == d) with
    | some f =>
      if bit t.info.cset c && f.at_ + 64 ≤ s.clock then some ((t.info.key : Int) - f.age, t) else none
    | none => none)

/-- The smallest effective key, then the lowest handle (R38). Between two tasks of different contexts with equal key and equal
handle, which R38 does not order, the one inserted first is served (DESIGN CHOICE, log 54). -/
def bestTask : List (Int × Task) → Option Task
  | [] => none
  | (k, t) :: r =>
    match bestTask r with
    | none => some t
    | some u =>
      match r.find? (fun p => p.2.is u.info.ctx u.info.h) with
      | some (ku, _) => if ku < k || (ku == k && u.info.h < t.info.h) then some u else some t
      | none => some t

/-- Take the next block of a task for die `d`: the block, and the task after it (R36, R38). -/
def Task.handOut (t : Task) (d : Nat) : Option (Nat × Task) := do
  let f ← t.frames.find? (fun f => f.die == d)
  let b ← f.todo.head?
  let rest := f.todo.tail
  let frames :=
    if rest.isEmpty then t.frames.filter (fun x => x.die != d)
    else t.frames.map (fun x => if x.die == d then { x with todo := rest } else x)
  let state := if frames.isEmpty && t.waiting.isEmpty then 3 else 2
  return (b, { t with frames, state, nextblk := t.nextblk + 1 })

/-- The context's current launch stamp (R258). -/
def stampNow (die ctx : Nat) : Op Nat := do return (← ctxEnt die ctx).stamp

/-- Put block `b` of a task on core `c` and start its sequencers (R29, R30, R40, R88). The C-seq goes on at the
returned address. -/
def startBlock (c : Nat) (t : Task) (b stamp : Nat) (after : DWord) : Op DWord := do
  let i := t.info
  acquire c i.scope
  let seqInit (q : SeqId) (x : Seq) : Seq :=
    let li := (List.range 6).foldl (fun m k => Store.set 0 m k (BitVec.ofNat 24 (i.li b k))) ([] : Store (BitVec 24))
    let x := { x with li, crc := 0xFFFFFFFF }
    let e := i.entries.getD q.code 0
    if q == .C then { x with depth := 0 }
    else { x with depth := 0, wait := none, pc := if e = 0 then x.pc else BitVec.ofNat 64 e, parked := e == 0 }
  let entry (k : Core) (q : SeqId) : Core :=
    if q != .C && i.entries.getD q.code 0 = 0 then k
    else ((((k.setG q 56 (BitVec.ofNat 32 i.tag)).setG q 57 (BitVec.ofNat 32 i.phase)).setG q 58
      (BitVec.ofNat 32 b)).setG q 59 (BitVec.ofNat 32 i.h)).setG q 60 (if t.pf then 1 else 0)
  modify (fun s => s.modCore c (fun k =>
    let k := { k with
      tag := BitVec.ofNat 16 i.tag, phase := BitVec.ofNat 2 i.phase, blk := BitVec.ofNat 24 b,
      tcbh := BitVec.ofNat 24 i.h, tokq := [], inHandler := false,
      cur := some { info := i, blk := b, stamp, pf := t.pf, trig := false, relaunched := t.relaunch.isSome,
                    ranges := [], untr := false, satr := false, fltd := false, after } }
    let k := allSeqs.foldl (fun k q => k.modSeq q (seqInit q)) k
    allSeqs.foldl entry k))
  let e := i.entries.getD 3 0
  return if e = 0 then after else BitVec.ofNat 64 e

/-- Whether the sector of core `c` is ready (R19). -/
def State.sectorReady (s : State) (c : Nat) : Bool :=
  let n := c % 144
  (s.die (dieOfCore c)).sectors.getLsbD (2 * (n / 12 / 6) + n % 12 / 6)

/-- Serve a pop by core `c`: none when no task qualifies now (R38). -/
def popBlock (c : Nat) : Op (Option (Task × Nat)) := do
  let d := dieOfCore c
  modify (fun s => s.ageSync d)
  let s ← get
  if !s.sectorReady c then return none
  match bestTask (s.candidates c) with
  | none => return none
  | some t =>
    match t.handOut d with
    | none => return none
    | some (b, t') => do
      modify (fun s => s.setTask t')
      putNextBlk d t'
      putFlags d t'
      return some (t', b)

/-! Successor walk and retirement (R41, R42). -/

/-- One entry of the successor walk of task `t` on die `die` (R34, R42). -/
def walkEntry (die : Nat) (t : Task) (n : Nat) : Op Unit := do
  let x := t.info.ctx
  let post (sub w1 w2 : Nat) : Op Unit := modify (fun s => s.postUnit die 1 sub w1 w2 x)
  match ← agRead (agTask die) die x (addrAdd t.info.succ (4 * n)) 4 with
  | none => post 0 t.info.h 0
  | some e => do
    let h := fieldOf e 0 24
    if fieldOf e 24 8 != 0 then post 0 t.info.h e
    else match ← readTcb die x h with
      | .beyond | .unreadable => post 0 t.info.h e
      | .ok w => do
        let c ← ctxEnt die x
        let w1 := w.getD 1 0
        let n := fieldOf w1 32 16
        if n = 0 then post 1 t.info.h e
        else if !(← agWrite (agTask die) die x (addrAdd (tcbVa c h) 0x0C) 2 (n - 1)) then post 0 t.info.h e
        else do
          if t.err then
            let _ ← agWrite (agTask die) die x (addrAdd (tcbVa c h) 0x0E) 1 (setField (fieldOf w1 48 8) 4 1 1)
          if n = 1 then do
            let code ← insertTask die x h
            if code != 0 then post 2 h code

/-- Walk the successor list once, in list order (R42). -/
def walkSuccessors (die : Nat) (t : Task) : Op Unit := forAll (List.range t.info.nsucc) (walkEntry die t)

/-- Take 1 from TRIGLEFT, and walk the successors when it reaches 0 (R42, R43). -/
def countTrig (die ctx h : Nat) : Op Unit := do
  match (← get).task ctx h with
  | none => pure ()
  | some t => do
    let last := t.trigleft ≤ 1 && !t.trigd
    let t := { t with trigleft := t.trigleft - 1, trigd := t.trigd || last }
    modify (fun s => s.setTask t)
    putTrigLeft die t
    if last then do
      putFlags die t
      walkSuccessors die t

/-- Report the retirement of a stage task: the phase is done, and a tag's last phase frees its slot and pins (R65, R71). -/
def reportStage (t : Task) (failed : Bool) : Op Unit := do
  let d := t.info.die
  let n := t.info.stage
  let st := (← get).stage d n
  match Store.get none st.tags t.info.verset with
  | none => pure ()
  | some slot => do
    let wv := bit (st.desc.getD 2 0) 24
    let last := t.info.phase == (if wv then 3 else 2)
    let slot := { slot with failed := slot.failed || failed, doneF := slot.doneF || t.info.phase == 1,
                            doneB := slot.doneB || t.info.phase == 2 }
    modify (fun s => s.modStage d n (fun x => { x with
      due := true, tags := Store.set none x.tags t.info.verset (if last then none else some slot) }))
    if last then
      forAll st.weights.zipIdx (fun p => do
        let _ ← freeIfDue d st.ctx p.1 (fieldOf slot.vset (4 * p.2) 4))

/-- The range of a LAUNCH (R287). -/
def OpRun.first (o : OpRun) : Nat := fieldOf (o.words.getD 2 0) 0 24
def OpRun.count (o : OpRun) : Nat := fieldOf (o.words.getD 2 0) 24 24
def OpRun.opc (o : OpRun) : Nat := fieldOf (o.words.getD 0 0) 0 8

/-- The end of a task is told to the operators that wait for it (R287, R406). -/
def State.noteEnd (s : State) (ctx h : Nat) (failed : Bool) : State :=
  { s with ops := s.ops.map (fun o =>
      if o.begun && o.opc == 1 && o.ctx == ctx && o.first ≤ h && h < o.first + o.upto then { o with ended := (h, failed) :: o.ended }
      else o) }

/-- Take 1 from BLKLEFT; the last block retires the task (R42). -/
def countBlk (die ctx h status : Nat) : Op Unit := do
  match (← get).task ctx h with
  | none => pure ()
  | some t => do
    let err := t.err || status != 0
    let done := t.blkleft ≤ 1
    let state := if done then (if err then 5 else 4) else t.state
    let t := { t with blkleft := t.blkleft - 1, err, status := if t.status = 0 then status else t.status, state }
    modify (fun s => s.setTask t)
    putBlkLeft die t
    if status != 0 then putStatus die t
    putFlags die t
    if done then do
      modify (fun s => ({ s with tasks := s.tasks.filter (fun x => !x.is ctx h) } : State).noteEnd ctx h err)
      if t.info.stagev then reportStage t err

/-! Postmarks and the relaunch summary (R260, R261, R263, R266). -/

/-- PATHSIG of a core (R263). -/
def Core.pathSig (c : Core) : Nat :=
  let f (q : SeqId) : Nat := Nat.xor (c.seq q).crc.toNat 0xFFFFFFFF
  Nat.xor (Nat.xor (f .L) (rotl32 (f .X) 8)) (Nat.xor (rotl32 (f .S) 16) (rotl32 (f .C) 24))

/-- One range of a postmark (R260). -/
def TRange.word (r : TRange) : Nat := r.t + r.first * 2 ^ 24 + (r.last - r.first) * 2 ^ 48

/-- The 8 words of a block's postmark. -/
def Block.postmark (b : Block) (sig status : Nat) : List Nat :=
  let fl := b.fltd || status != 0 || b.pf
  let f (x : Bool) (i : Nat) : Nat := if x then 2 ^ i else 0
  let w0 := b.blk + 2 ^ 24 + f b.untr 25 + f b.satr 26 + f fl 27 + b.ranges.length * 2 ^ 28 + b.stamp * 2 ^ 32
  w0 :: (sig + status * 2 ^ 32) :: (List.range 6).map (fun i => match b.ranges[i]? with | some r => r.word | none => 0)

/-- The bytes of words of 64 bits. -/
def wordBytes (ws : List Nat) : List RByte := (ws.map (fun w => (bytesOf w 8).map (fun b => (b, false)))).flatten

/-- Write the postmark of a traced block and, for a relaunched one, its summary, from what the hardware holds of the task; a
write that fails traps TRACEBUF (R260, R261, R266, R270). -/
def writeTrace (c : Nat) (b : Block) (status : Nat) : Op Unit := do
  if !b.info.traced then return ()
  let d := dieOfCore c
  let x := b.info.ctx
  let sig := ((← get).core c).pathSig
  let pm := addrAdd b.info.tracebuf (64 * b.blk)
  let old ← agWords (agTask d) d x pm 2
  if !(← agCanWrite (agTask d) d x pm 64) then throwTrap cTRACEBUF pm
  if b.relaunched then do
    match (← get).task x b.info.h with
    | none => pure ()
    | some t => do
      let nb := blockCount b.info.kinds b.info.extent
      let sa := addrAdd b.info.tracebuf (64 * nb)
      if !(← agCanWrite (agTask d) d x sa 64) then throwTrap cTRACEBUF sa
      let chg := t.pathchg || (match old with
        | some o => bit (o.getD 0 0) 24 && fieldOf (o.getD 1 0) 0 32 != sig
        | none => false)
      let (stamp, n) := t.relaunch.getD (0, 0)
      modify (fun s => s.setTask { t with pathchg := chg })
      let _ ← agWriteBytes (agTask d) d x sa (wordBytes [
        n + bitAt chg 24 + bitAt (t.blkleft ≤ 1) 25 + stamp * 2 ^ 32, n - t.blkleft + 1])
  let _ ← agWriteBytes (agTask d) d x pm (wordBytes (b.postmark sig status))

/-! HELD of a task (R45). -/

/-- Whether a block of a task stands in a handler on some core. -/
def State.anyHeld (s : State) (ctx h : Nat) : Bool :=
  s.cores.any (fun c => c.2.inHandler && (match c.2.cur with
    | some b => b.info.ctx == ctx && b.info.h == h
    | none => false))

/-- Bring HELD of a task up to date with its blocks. -/
def syncHeld (die : Nat) (b : Block) : Op Unit := do
  match (← get).task b.info.ctx b.info.h with
  | none => pure ()
  | some t => do
    let held := (← get).anyHeld b.info.ctx b.info.h
    if held != t.held then do
      let t := { t with held }
      modify (fun s => s.setTask t)
      putFlags die t

/-- Retire the current block of core `c` with a status: the counts of R41, in their order. -/
def retireBlock (c : Nat) (b : Block) (status : Nat) : Op Unit := do
  let d := dieOfCore c
  -- ERR stands before the walk that the same TDONE may start (R42)
  if status != 0 then do
    match (← get).task b.info.ctx b.info.h with
    | some t => modify (fun s => s.setTask { t with err := true })
    | none => pure ()
  modify (fun s => s.modCore c (fun k => { k with cur := none, inHandler := false }))
  syncHeld d b
  if !b.trig then countTrig d b.info.ctx b.info.h
  countBlk d b.info.ctx b.info.h status

/-! The read set (R262). -/

/-- Offer a range to the collector: merged with every held range it overlaps or touches. -/
def Block.addRange (b : Block) (t first last : Nat) : Block :=
  if last < first || 2 ^ 24 ≤ t || 2 ^ 24 ≤ first || 65535 < last - first then { b with satr := true }
  else
    let meets (f l : Nat) (r : TRange) : Bool := r.t == t && f ≤ r.last + 1 && r.first ≤ l + 1
    -- a union may meet further ranges: at most 6 are held, so 7 rounds suffice
    let grow := (List.range 7).foldl (fun (p : Nat × Nat) _ =>
      (b.ranges.filter (meets p.1 p.2)).foldl (fun q r => (min q.1 r.first, max q.2 r.last)) p) (first, last)
    let rest := b.ranges.filter (fun r => !meets grow.1 grow.2 r)
    if rest.length == b.ranges.length then
      if b.ranges.length < 6 then { b with ranges := b.ranges ++ [⟨t, first, last⟩] } else { b with satr := true }
    else if 65535 < grow.2 - grow.1 then { b with satr := true }
    else
      -- the union stands where the first of the ranges it replaces stood
      let before := b.ranges.takeWhile (fun r => !meets grow.1 grow.2 r)
      { b with ranges := before ++ ⟨t, grow.1, grow.2⟩ :: rest.drop before.length }

/-- Change the current block of core `c`. -/
def State.modBlock (s : State) (c : Nat) (f : Block → Block) : State :=
  s.modCore c (fun k => { k with cur := k.cur.map f })

/-- A read of `n` bytes at a virtual address outside the parameter region makes the block untracked (R262). -/
def State.noteRead (s : State) (c va n : Nat) : State :=
  s.modBlock c (fun b =>
    if b.info.param ≤ va && va + n ≤ b.info.param + b.info.paramlen then b else { b with untr := true })

/-- A read of tiles of a tensor (R262). -/
def State.noteTiles (s : State) (c tid first last : Nat) : State := s.modBlock c (·.addRange tid first last)

end Sys2Proof.Machine
end

