-- ==== Sys2Proof/Machine/Images.lean ====
section
/-! DEFINITION. The raw contents of the units whose images the register window shows: B panels, the sampler and the copy
engine's stopped commands (R140, R156, R273, R280). The layouts are the Kolrax's own: what software sees is hidden by a
mask that nothing can evaluate (log 6). -/

namespace Sys2Proof.Machine

/-! Panels: byte 0 valid, 1 format, 2 SMODE, 3 SBL, 4–7 the tensor scale, 8–15 poisoned columns, 16– the patterns of
K × 64 elements packed in row order, 12,304– 24 scale bytes per column. -/

def panelBytes : Nat := 16384
def patBase : Nat := 16
def scaleBase : Nat := 12304

/-- K, the contraction depth of a format: 192 bytes over the element size (R17). -/
def fmtK (c : Nat) : Nat := 1536 / fmtBits c

/-- A number of `n` raw bytes from byte `k`. -/
def imgNat (m : Store Byte) (k : Nat) : Nat → Nat
  | 0 => 0
  | n + 1 => imgByte m k + 256 * imgNat m (k + 1) n

/-- The panel's format, none when it is empty (R140). -/
def Panel.fmt (p : Panel) : Option Nat := if bit (imgByte p.img 0) 0 then some (imgByte p.img 1) else none
def Panel.smode (p : Panel) : Nat := imgByte p.img 2
def Panel.sbl (p : Panel) : Nat := imgByte p.img 3
def Panel.tscale (p : Panel) : Nat := imgNat p.img 4 4
def Panel.poison (p : Panel) : Nat := imgNat p.img 8 8

/-- The pattern of element B[k][n]. -/
def Panel.pat (p : Panel) (k n : Nat) : Nat :=
  let b := fmtBits (imgByte p.img 1)
  let lo := (64 * k + n) * b
  imgNat p.img (patBase + lo / 8) ((lo % 8 + b + 7) / 8) / 2 ^ (lo % 8) % 2 ^ b

/-- Whether the 8 bytes of the image at offset `k` hold bits of an element of a poisoned column (R273, R282). -/
def Panel.wordPoison (p : Panel) (k : Nat) : Bool :=
  let b := fmtBits (imgByte p.img 1)
  p.poison != 0 && b != 0 && patBase ≤ k && k < scaleBase &&
    (List.range (64 / b + 2)).any (fun i =>
      let e := 8 * (k - patBase) / b + i
      b * e < 8 * (k - patBase) + 64 && e < 64 * (1536 / b) && p.poison.testBit (e % 64))

/-- The scale byte of block j of column n. -/
def Panel.scale (p : Panel) (n j : Nat) : Nat := imgByte p.img (scaleBase + 24 * n + j)

/-- Bytes of an image from byte `k` on. -/
def imgPut (m : Store Byte) (k : Nat) (bs : List Byte) : Store Byte := Store.setMany 0 m k bs

/-- A loaded panel's contents (R141): `pats` by rows, `scales` by columns. -/
def mkPanel (owner fmt smode sbl tscale poison : Nat) (pats scales : List (List Nat)) : Panel :=
  let b := fmtBits fmt
  let packed := (pats.flatten.zipIdx).foldl (fun a p => a + p.1 * 2 ^ (b * p.2)) 0
  let m := imgPut [] 0 ([1, BitVec.ofNat 8 fmt, BitVec.ofNat 8 smode, BitVec.ofNat 8 sbl] ++ bytesOf tscale 4 ++
    bytesOf poison 8)
  let m := imgPut m patBase (bytesOf packed 12288)
  { img := scales.zipIdx.foldl (fun m p => imgPut m (scaleBase + 24 * p.2) (p.1.map (BitVec.ofNat 8))) m, owner }

def Core.panel (c : Core) (n : Nat) : Panel := Store.get {} c.panels n

/-! What software sees of an image. -/

/-- Unit numbers of the masks. -/
def maskSampler : Nat := 0
def maskEngine : Nat := 1
def maskPanel : Nat := 2

/-- A byte of an image as software sees it: XORed with its mask, but that 0 is seen as 0, the value at reset (R273), and
the mask's own value as itself. Applied twice it gives the byte back. -/
def hideByte (u k : Nat) (b : Byte) : Byte :=
  if b = 0 ∨ b = Config.imageMask u k then b else b ^^^ Config.imageMask u k

/-- Eight masked bytes from offset `k` of an image. -/
def maskedRead (u : Nat) (m : Store Byte) (k : Nat) : Nat :=
  ofBytes ((List.range 8).map (fun i => hideByte u (k + i) (Store.get 0 m (k + i))))

def maskedWrite (u : Nat) (m : Store Byte) (k v : Nat) : Store Byte :=
  imgPut m k (((bytesOf v 8).zipIdx).map (fun p => hideByte u (k + p.2) p.1))

/-- The sampler's 32 bytes: budget, threshold and generator state (R273). -/
def Sampler.img (x : Sampler) : Store Byte :=
  imgPut [] 0 (bytesOf (x.budget + x.threshold * 2 ^ 32 + x.s0 * 2 ^ 64 + x.s1 * 2 ^ 96 + x.s2 * 2 ^ 128 +
    x.s3 * 2 ^ 160) 32)

def Sampler.ofImg (m : Store Byte) (owner : Nat) : Sampler :=
  { budget := imgNat m 0 4, threshold := imgNat m 4 4, s0 := imgNat m 8 4, s1 := imgNat m 12 4, s2 := imgNat m 16 4,
    s3 := imgNat m 20 4, owner }

/-! The copy engine's image: 128 records of 64 bytes. -/

/-- Whether the copy engine of its core runs a command. -/
def Cmd.isCopy (k : Cmd) : Bool := k.kind == .cpy || k.kind == .cpyr

def seqOfCode (n : Nat) : SeqId :=
  match n with
  | 0 => .L | 1 => .X | 2 => .S | _ => .C

/-- A command's record. -/
def Cmd.record (k : Cmd) : List Byte :=
  let f (b : Bool) (i : Nat) : Nat := if b then 2 ^ i else 0
  let b0 := 1 + f (k.kind == .cpyr) 1 + f k.acq 2 + f k.rel 3 + f k.priv 4 + 32 * k.seq.code
  [BitVec.ofNat 8 b0, BitVec.ofNat 8 k.op, BitVec.ofNat 8 k.ctr, BitVec.ofNat 8 k.scope, BitVec.ofNat 8 k.buf,
    BitVec.ofNat 8 k.rd] ++ bytesOf k.ctx 2 ++ bytesOf k.g0.toNat 4 ++ bytesOf k.g1.toNat 4 ++ bytesOf k.g2.toNat 4 ++
    bytesOf k.g3.toNat 4 ++ bytesOf k.id 8 ++ bytesOf k.since 8 ++ bytesOf 0 24

/-- The command of record `i`, for core `c` and its current block. -/
def imgCmd (m : Store Byte) (c : Nat) (b : Option Block) (i : Nat) : Option Cmd :=
  let a := 64 * i
  let b0 := imgByte m a
  if !bit b0 0 then none
  else some {
    id := imgNat m (a + 24) 8, kind := if bit b0 1 then .cpyr else .cpy, op := imgByte m (a + 1), core := c,
    seq := seqOfCode (fieldOf b0 5 2), ctr := imgByte m (a + 2), g0 := BitVec.ofNat 32 (imgNat m (a + 8) 4),
    g1 := BitVec.ofNat 32 (imgNat m (a + 12) 4), g2 := BitVec.ofNat 32 (imgNat m (a + 16) 4),
    g3 := BitVec.ofNat 32 (imgNat m (a + 20) 4), ctx := imgNat m (a + 6) 2, priv := bit b0 4, acq := bit b0 2,
    rel := bit b0 3, scope := imgByte m (a + 3), buf := imgByte m (a + 4), rd := imgByte m (a + 5), block := b,
    since := imgNat m (a + 32) 8 }

/-- The image of the commands that the copy engine of core `c` now holds. -/
def State.copyImage (s : State) (c : Nat) : Store Byte :=
  ((s.cmds.filter (fun k => k.core == c && k.isCopy)).zipIdx).foldl (fun m p => imgPut m (64 * p.2) p.1.record) []

/-- What ENGIMG holds: the stopped image, or the running commands' (R273). -/
def State.engImage (s : State) (c : Nat) : Store Byte :=
  if (s.core c).engimg.isEmpty then s.copyImage c else (s.core c).engimg

/-- Pre-emption stops the copy engine: its commands go into the image (R280). -/
def State.stopCopies (s : State) (c : Nat) : State :=
  let m := s.copyImage c
  { (s.modCore c (fun k => { k with engimg := m })) with
    cmds := s.cmds.filter (fun k => !(k.core == c && k.isCopy)) }

/-- Insert a command by its number, so that issue order is kept. -/
def insertCmd (k : Cmd) : List Cmd → List Cmd
  | [] => [k]
  | x :: t => if k.id < x.id then k :: x :: t else x :: insertCmd k t

/-- The image's commands run again after ERET (R280). -/
def State.resumeCopies (s : State) (c : Nat) : State :=
  let k := s.core c
  let ks := (List.range 128).filterMap (imgCmd k.engimg c k.cur)
  let s := s.modCore c (fun x => { x with engimg := [] })
  ks.foldl (fun s k => { s with cmds := insertCmd k s.cmds, nextId := max s.nextId (k.id + 1) }) s

/-- CEBUSY (R273): the copy engine holds a command that runs. -/
def State.ceBusy (s : State) (c : Nat) : Bool := s.cmds.any (fun k => k.core == c && k.isCopy)

/-- DIEBUSY (R273): a command of the core is outstanding in a unit of the die. -/
def State.dieBusy (s : State) (c : Nat) : Bool := s.cmds.any (fun k => k.core == c && !k.isCopy)

end Sys2Proof.Machine
end

