-- ==== Sys2Proof/Machine/Ops.lean ====
section
/-! DEFINITION. How an instruction issues, waits, traps and retires (R21 to R25, R77 to R79, R103), taking a trap and
returning from one (R269 to R277). -/

namespace Sys2Proof.Machine

abbrev Out := Host.Outcome State Fault Refusal

/-! What a stopped attempt leaves. -/

/-- The marks that an attempt leaves on die `d` of `t`: FULLSEEN (R39), and EMPTY of a pool that it found empty (R213). -/
def leaveMarks (s' : State) (d : Nat) (t : State) : State :=
  let x := s'.die d
  let mark (y : Die) (k : Nat) : Die :=
    if (x.pool k).empty && !(y.pool k).empty then y.setPool k { y.pool k with empty := true } else y
  let y := (x.pools.map (·.1)).foldl mark (t.die d)
  if (x.fullseen && !y.fullseen) || y != t.die d then t.setDie d { y with fullseen := y.fullseen || x.fullseen } else t

/-- The state after an attempt that had no effect: `s`, with what the hardware did for itself in `s'`: host translations
asked for or used up, free values drawn, marks left. -/
def errState (s s' : State) : State :=
  leaveMarks s' 1 (leaveMarks s' 0 { s with ats := s'.ats, atsReqs := s'.atsReqs, draws := s'.draws })

/-! Hotness (R191). -/

/-- Add to a saturating 64-bit counter. -/
def satAdd (m : Store Nat) (n v : Nat) : Store Nat := Store.set 0 m n (min (2 ^ 64 - 1) (Store.get 0 m n + v))

/-- Bytes moved for buffer `buf`. -/
def State.addHot (s : State) (c buf n : Nat) : State := s.modCore c (fun k => { k with hotb := satAdd k.hotb buf n })

/-- Count the stall clocks of a wait up to now for buffer `buf`. -/
def State.countStall (s : State) (c : Nat) (q : SeqId) (w : Waiting) (buf : Nat) : State :=
  let w' : Waiting := { w with stall := s.clock }
  s.modCore c (fun k =>
    ({ k with hots := satAdd k.hots buf (s.clock - w.stall) }).modSeq q (fun x => { x with wait := some w' }))

/-- The buffer of the oldest command outstanding on the engine counter that a wait is for. -/
def State.counterBuf (s : State) (c : Nat) (q : SeqId) (w : Waiting) : Option Nat :=
  let wsel := fieldOf (encode w.i) 61 3
  (s.cmds.find? (fun k => w.counted && 4 ≤ wsel && k.core == c && k.seq == q && k.ctr + 4 == wsel)).map (·.buf)

/-- The buffer that a stall counts for: a transfer's, held by back-pressure, or an engine counter's. -/
def State.stallBuf (s : State) (c : Nat) (q : SeqId) (w : Waiting) : Option Nat :=
  let ofStream (sa : Nat) : Option Nat :=
    if w.counted then s.counterBuf c q w
    else some (fieldOf (List.getD (Store.get [] (s.core c).streams sa : Stream) 1 0).toNat 52 8)
  match w.i with
  | .strld _ sa _ _ => ofStream sa
  | .strst _ sa _ => ofStream sa
  | _ => s.counterBuf c q w

/-- Count the stall clocks of sequencer `q`. -/
def State.stallSync (s : State) (c : Nat) (q : SeqId) : State :=
  match ((s.core c).seq q).wait with
  | some w =>
    match s.stallBuf c q w with
    | some b => s.countStall c q w b
    | none => s
  | none => s

/-! Retirement (R22, R23). -/

/-- A taken branch: after an ICINV the words from here on are fetched afresh (R237). -/
def Seq.branchTo (x : Seq) (pc : DWord) : Seq :=
  { x with pc, fetchFrom := if x.icPending then x.icFrom else x.fetchFrom, icPending := false, oldLines := [] }

/-- Pop the tokens of the wait byte (R22). -/
def popTokens (c : Ctl) (s : State) : State :=
  if 1 ≤ c.wsel && c.wsel ≤ 3 then
    let n := queueTo (peerOf s.curSeq c.wsel) s.curSeq
    s.modMe (fun k => k.setTok n (k.tok n - c.wcnt))
  else s

/-- Push the signal, put back behind the sequencer's transfers in flight (R23, R229). -/
def pushSignal (c : Ctl) (s : State) : State :=
  if c.ssel = 0 then s
  else s.modMe (fun k =>
    (k.modSeq s.curSeq (fun x => { x with sigq := x.sigq ++ [(queueNo s.curSeq c.ssel, c.scnt, s.nextId)] })).flushSigs
      s.curSeq)

/-- Where the sequencer stands after the instruction. -/
def moveOn (p : Post) (s : State) : State :=
  s.modMySeq (fun x =>
    match p with
    | .next => { x with pc := x.pc + 8, wait := none }
    | .goto a => { x.branchTo a with wait := none }
    | .park => { x with pc := x.pc + 8, parked := true, wait := none }
    | .done => { x with wait := none }
    | .hold _ => x)

/-- Retire: tokens popped, the sequencer moved on, the signal pushed (R22, R23). -/
def retire (c : Ctl) (p : Post) (s : State) : State := pushSignal c (moveOn p (popTokens c s))

/-! Trap entry (R272). -/

/-- The address at which a sequencer would issue next: after a SLEEP that has issued and waits (R339), else at its pc. -/
def Seq.resume (x : Seq) : DWord :=
  match x.wait with
  | some ⟨.sleep .., _, _, false, _⟩ => x.pc + 8
  | _ => x.pc

/-- Take an arrival back: the release that came with it ends the superstep (R231, R232). -/
def Group.withdraw (g : Group) (c : Nat) : Group :=
  if g.barCores.contains c then { g with barCores := g.barCores.filter (· != c), step := false } else g

/-- Take the core's arrivals out of the barriers it waits in (R231, R269). -/
def State.withdraw (s : State) (c : Nat) : State :=
  let d := dieOfCore c
  allSeqs.foldl (fun s q =>
    match ((s.core c).seq q).wait with
    | some ⟨.bar _ _ _ _ _ ra _, _, _, _, _⟩ =>
      let g := ((s.core c).g q ra).toNat
      if g < 64 then s.modGroup d g (fun x => x.withdraw c) else s
    | _ => s) s

/-- A SLEEP that has issued retires at a trap, which clears the event flag (R339). -/
def State.endSleep (s : State) (c : Nat) : State :=
  match (s.core c).c.wait with
  | some ⟨.sleep ctl _, _, _, false, _⟩ =>
    let s' := (retire ctl .next { s with cur := c, curSeq := .C }).modCore c (fun k => { k with event := false })
    { s' with cur := s.cur, curSeq := s.curSeq }
  | _ => s

def Core.clearWaits (c : Core) : Core :=
  allSeqs.foldl (fun c q => c.modSeq q (fun x => { x with wait := none })) c

/-- The value of CAUSE (R93). -/
def causeByte (q : SeqId) (cause : Nat) : Byte := BitVec.ofNat 8 (cause % 64 + 64 * q.code)

/-- Every sequencer leaves its wait, RPC and HELD are written and the handler starts: the first trap (R272). -/
def Core.enter0 (c : Core) (r : TrapReq) (vec : DWord) : Core :=
  let c := allSeqs.foldl (fun c q => c.modSeq q (fun x => { x with
    rpc := x.pc, held := !x.parked, wait := none })) c
  let c := { c with cause := causeByte r.seq r.cause, epc := r.epc, eva := BitVec.ofNat 64 r.eva, nest := 1, priv := true,
                    trapping := none }
  c.modSeq .C (fun x => { x with pc := vec })

/-- The nested trap of a Postmaster core (R272, R277). -/
def Core.enter1 (c : Core) (r : TrapReq) (vec : DWord) : Core :=
  let c := c.clearWaits
  let c := { c with pcause := c.cause.setWidth 64, pepc := c.epc, peva := c.eva, cause := causeByte r.seq r.cause,
                    epc := r.epc, eva := BitVec.ofNat 64 r.eva, nest := 2, trapping := none }
  c.modSeq .C (fun x => { x with pc := vec + 0x100 })

/-- A halt of all four sequencers (R277). -/
def Core.halt (c : Core) : Core := { c.clearWaits with halted := true, trapping := none }

/-- Take a trap on core `c`, every sequencer standing at a boundary (R272, R277). The trap of the deferred mask moves the
mask to DEFMASK (R283). -/
def enterTrap (c : Nat) (r : TrapReq) : Op Unit := do
  let s := allSeqs.foldl (fun s q => s.stallSync c q) ((← get).endSleep c)
  set s
  if r.cause = cECC && r.eva / 2 ^ 48 = 0xFFFD then
    modify (fun s => s.modCore c (fun k => { k with defmask := k.deferred, deferred := 0 }))
  let core := s.core c
  let vec := (s.die (dieOfCore c)).trapvec
  if core.nest = 0 then do
    modify (fun s => s.modCore c (fun k =>
      let k := k.enter0 r vec
      { k with cur := k.cur.map (fun b => { b with fltd := true }), inHandler := k.cur.isSome }))
    if r.cause = cPREEMPT then modify (fun s => (s.modCore c (fun k => { k with preq := false })).stopCopies c)
    match core.cur with
    | some b => syncHeld (dieOfCore c) b
    | none => pure ()
  else if core.nest = 1 && isPostmaster c then modify (fun s => s.modCore c (·.enter1 r vec))
  else if core.nest = 1 then
    modify (fun s => (s.modCore c (·.halt)).post (dieOfCore c) (mailWord0 r.cause r.seq.code c 0 0) r.epc.toNat r.eva
      core.ctx.toNat)
  else modify (fun s => (s.modCore c (·.halt)).modDie (dieOfCore c) (fun d => { d with fatal := true }))

/-- Whether every access of the core has been performed: its transfers, and the accesses that it performs late. -/
def Core.quiet (c : Core) : Bool := c.xfers.isEmpty && allSeqs.all (fun q => (c.seq q).late.isEmpty)

/-- Enter the trap that core `c` has pending, once its accesses have been performed (R269, R347). -/
def tryEnter (c : Nat) (s : State) : Out :=
  match (s.core c).trapping with
  | none => .next s
  | some r =>
    if (s.core c).quiet then
      match enterTrap c r s with
      | .ok _ s' => .next s'
      | .error (.fault f) _ => .fault f
      | .error _ s' => .next (errState s s')
    else .next s

/-- A trap of core `c`, which leaves its barriers: taken now, or when its accesses have been performed. -/
def takeTrap (c : Nat) (r : TrapReq) (s : State) : Out :=
  tryEnter c ((s.withdraw c).modCore c (fun k => { k with trapping := some r }))

/-- The pending class A cause that a boundary of core `c` delivers: ENGERR and STASHFULL in completion order, then
TIMEOUT, then PREEMPT, none in a handler (R271). -/
def Core.dueA (c : Core) : Option (TrapReq × List PendA) :=
  if c.nest != 0 then none
  else
    -- a parked sequencer has no boundary of its own: the C-seq's (R240)
    let req (p : PendA) : TrapReq := ⟨p.seq, p.cause, p.eva, (if (c.seq p.seq).parked then c.c else c.seq p.seq).resume⟩
    match c.pend.find? (fun p => p.cause != cTIMEOUT) with
    | some p => some (req p, c.pend.erase p)
    | none =>
      match c.pend with
      | p :: t => some (req p, t)
      | [] => if c.preq then some (⟨.C, cPREEMPT, 0, c.c.resume⟩, []) else none

/-- Raise a class A cause for core `c` (R240, R339). -/
def State.raiseA (s : State) (c : Nat) (q : SeqId) (cause eva : Nat) : State :=
  s.modCore c (fun k => { k with pend := k.pend ++ [⟨q, cause, eva⟩], event := true })

/-! Waits (R22). -/

/-- The wait byte of a word (R77). -/
def waitByte (c : Ctl) : Nat := 32 * c.wsel + c.wcnt
/-- The signal byte of a word. -/
def sigByte (c : Ctl) : Nat := 32 * c.ssel + c.scnt

/-- Whether the wait byte is satisfied for the sequencer that runs (R22). -/
def waitMet (c : Ctl) (s : State) : Bool :=
  if c.wsel = 0 then true
  else if c.wsel < 4 then c.wcnt ≤ s.me.tok (queueTo (peerOf s.curSeq c.wsel) s.curSeq)
  else s.ecnt s.cur s.curSeq (c.wsel - 4) ≤ c.wcnt

/-- Whether the signal fits its queue (R24). -/
def sigRoom (c : Ctl) (s : State) : Bool :=
  c.ssel == 0 ||
    (let n := queueNo s.curSeq c.ssel
     s.me.tok n + s.me.owedTok s.curSeq n + c.scnt ≤ 63)

/-- Record that the sequencer waits in `i`; a wait of one kind keeps the clock it began (R280, R359). -/
def State.waitFor (s : State) (i : Instr) (counted : Bool) : State :=
  let fresh : Waiting := ⟨i, s.clock, false, counted, s.clock⟩
  s.modMySeq (fun x => { x with wait :=
    match x.wait with
    | some w => if w.counted == counted then some w else some fresh
    | none => some fresh })

/-- An instruction that has not issued, for a register it uses is still to be written (R238): it waits in nothing. -/
def State.unwait (s : State) : State := s.modMySeq (fun x => { x with wait := none })

/-- TQPOP and SLEEP have issued while they wait, so TOKOV is judged before (R24, R339, R359). -/
def waitsIssued : Instr → Bool
  | .tqpop .. | .sleep .. => true
  | _ => false

/-- The first poisoned register among the sources (R282). -/
def poisonedSrc (srcs : List Nat) (s : State) : Option Nat := srcs.find? (fun n => s.me.gPoisoned s.curSeq n)

def eccRegEva (q : SeqId) (n : Nat) : Nat := 0xFFFF000000000000 + 64 * q.code + n

/-- The scalar registers of a result at a width. -/
def dstAt (w : Bool) (rd : Nat) : List Nat := if w then [rd, rd + 1] else [rd]

/-- The scalar registers that an instruction may write (R87). -/
def dstRegs : Instr → List Nat
  | .add _ w d _ _ | .sub _ w d _ _ | .and _ w d _ _ | .or _ w d _ _ | .xor _ w d _ _ | .shl _ w d _ _
  | .shr _ w d _ _ | .sra _ w d _ _ | .mul _ w d _ _ | .mulh _ w _ d _ _ | .div _ w _ d _ _ | .rem _ w _ d _ _
  | .min _ w _ d _ _ | .max _ w _ d _ _ | .sel _ w d _ _ _ | .clz _ w d _ | .popc _ w d _ => dstAt w d
  | .cmp _ _ _ _ d _ _ | .movi _ d _ | .moviHi _ d _ | .addi _ d _ _ | .msamp _ d _ _ _ _ _ => [d]
  | .addp _ d _ _ | .looph _ d _ _ _ => [d, d + 1]
  | .call .. => [62, 63]
  | .ld _ m | .ldZeroExtending _ m => dstAt (m.sz == .b8) m.rd
  | .aadd _ a | .amin _ a | .aminUnsigned _ a | .amax _ a | .amaxUnsigned _ a | .aand _ a | .aor _ a | .axchg _ a
  | .acas _ a | .afadd _ _ _ a => dstAt a.w64 a.rd
  | .vget _ ty g _ _ => dstAt (ty.bits == 64) g
  | .tilereq _ _ _ _ d _ _ | .pgreq _ _ _ _ d _ => [d]
  | .cpy _ e | .cpyr _ e | .stash _ e | .stfetch _ e | .stdrop _ e | .chsend _ e | .chrecv _ e | .chrel _ e
  | .coll _ e | .prst _ e => [e.rd]
  | .tqpop _ d _ | .tqpush _ d _ | .tarm _ d _ _ | .mbpost _ _ d | .pennLoad _ d _ _ | .pennStart _ d _
  | .pennStop _ d _ | .pennUnload _ d _ | .pennStat _ d _ | .relaunch _ d _ | .vernew _ d _ | .verpin _ d _ _ _ _
  | .verdrop _ d _ _ | .bar _ _ _ _ d _ _ => [d]
  | .sysr _ d num _ => dstAt (sysWidth num == some 64) d
  | _ => []

/-- The scalar registers that a late access will write (R223). -/
def Late.dsts (l : Late) : List Nat :=
  match l.work with
  | .load m _ _ _ _ => dstAt (m.sz == .b8) m.rd
  | .atomic i _ _ _ _ => dstRegs i
  | _ => []

/-- The registers whose write is still to come, by a COLL or PRST of this sequencer (R238, R252, R256) or by one of its
late accesses (R223): in the bank that the sequencer uses now. -/
def State.rdPending (s : State) : List Nat :=
  (s.cmds.filter (fun k => k.core == s.cur && k.seq == s.curSeq && k.priv == s.me.onPriv s.curSeq && k.rd != 0 &&
    (k.kind == .prst || (k.kind == .coll && !k.walk.started)))).map (·.rd) ++
  s.mySeq.late.flatMap (fun l => l.dsts.filter (· != 0))

/-- Whether a field of a vector instruction's word names physical register `vd`, rotated or not (R84, R96). -/
def Seq.namesVec (x : Seq) (w vd : Nat) : Bool :=
  [35, 30, 25, 20].any (fun k =>
    let n := fieldOf w k 5
    n == vd || (16 ≤ n && x.vreg ⟨n, true⟩ == vd))

/-- Whether an instruction may use vector register `vd`, or the predicate `pq`, that a late vector load will write (R223);
the memory instructions are known by their own fields, any other vector instruction by its word. -/
def Seq.usesVec (x : Seq) (i : Instr) (vd : Nat) (pq : Option Nat) : Bool :=
  let mem (f : VMemF) : Bool := x.vreg f.vd == vd || pq == some (x.preg f.pr)
  match i with
  | .vld _ f => mem f
  | .vst _ f => mem f
  | .vldm _ q f => mem f || pq == some q
  | .vstm _ f => mem f
  | .accrd _ _ _ _ _ v => v == vd
  | .accwr _ _ _ v => v == vd
  | .voptw .. => true
  | i =>
    let w := encode i
    let op := fieldOf w 40 8
    0x40 ≤ op && op < 0x60 && (pq.isSome || x.namesVec w vd)

/-- Whether an instruction reads or writes what is still to be written for its sequencer, and so waits (R223, R238). -/
def rdBlocked (i : Instr) (srcs : List Nat) (s : State) : Bool :=
  s.rdPending.any (fun r => srcs.contains r || (dstRegs i).contains r) ||
  s.mySeq.late.any (fun l => match l.work with
    | .vload _ vd pq _ => s.mySeq.usesVec i vd pq
    | _ => false)

/-! Issue and retirement. -/

/-- The trap of the instruction at the pc (R272): BREAK leaves EPC after it. -/
def trapHere (cause eva : Nat) (s : State) : Out :=
  takeTrap s.cur ⟨s.curSeq, cause, eva, if cause = cBREAK then s.mySeq.pc + 8 else s.mySeq.pc⟩ s

/-- Issue an instruction: `pre` the decode traps after the class (R103), `srcs` the scalar registers it reads, `body`
its own work. -/
def issue (i : Instr) (c : Ctl) (pre : Op Unit) (srcs : List Nat) (body : Op Post) (s : State) : Out :=
  if !accepts s.curSeq (encode i) then trapHere cSEQCLASS (encode i) s
  else match pre s with
  | .error (.trap k v) _ => trapHere k v s
  | .error (.fault f) _ => .fault f
  | .error (.wait _) _ => .next s
  | .ok _ _ =>
    if !waitMet c s then .next (s.waitFor i true)
    else if rdBlocked i srcs s then .next s.unwait
    else match body s with
    | .error (.trap k v) s' => trapHere k v (errState s s')
    | .error (.fault f) _ => .fault f
    | .error (.wait n) s' =>
      match poisonedSrc srcs s with
      | some r => trapHere cECC (eccRegEva s.curSeq r) s
      | none =>
        if waitsIssued i && !sigRoom c s then trapHere cTOKOV (sigByte c) s
        else .next ((errState s s').waitFor i n)
    | .ok p s' =>
      match poisonedSrc srcs s with
      | some r => trapHere cECC (eccRegEva s.curSeq r) s
      | none =>
        if !sigRoom c s then trapHere cTOKOV (sigByte c) s
        else match p with
          | .hold n => .next (s'.waitFor i n)
          | p => .next (retire c p s')

/-- No decode trap after the class. -/
def noPre : Op Unit := pure ()

/-- Decode trap PRIV (R103 step 4). -/
def prePriv (i : Instr) : Op Unit := do
  let s ← get
  need (s.me.onPriv s.curSeq) cPRIV (encode i)

/-- Decode trap FMT (R103 step 5). -/
def preFmt (fmt : Nat) : Op Unit := need (fmt < 24) cFMT fmt

/-- Decode trap SCOPE (R103 step 6). -/
def preScope (sc : Nat) : Op Unit := need (scopeOk sc) cSCOPE sc

/-! Return from a trap (R275). -/

/-- ERET with NEST 1: every sequencer that is not parked resumes (R275). -/
def Core.leave (c : Core) : Core :=
  let s := fieldOf c.cause.toNat 6 2
  let c := allSeqs.foldl (fun c q => c.modSeq q (fun x =>
    if x.parked then { x with held := false }
    else { x with pc := if q.code = s then c.epc else x.rpc, held := false })) c
  { c with priv := false, nest := 0, inHandler := false }

/-- The work of ERET (R275). -/
def eretOp : Op Post := do
  let s ← get
  let c := s.me
  -- the bank of the C-seq's late results changes
  if !s.mySeq.late.isEmpty then throwWait
  if c.nest = 2 then do
    modify (fun s => s.modMe (fun k =>
      let k := k.modSeq .C (fun x => { x with pc := k.epc })
      { k with cause := k.pcause.setWidth 8, epc := k.pepc, eva := k.peva, nest := 1 }))
    return .done
  else do
    let b := c.cur
    modify (fun s => (s.modMe (·.leave)).resumeCopies s.cur)
    match b with
    | some b => syncHeld s.myDie b
    | none => pure ()
    return .done

/-! Engine commands (R25, R238). -/

/-- The next number for a command or a transfer. -/
def freshId : Op Nat := fun s => .ok s.nextId { s with nextId := s.nextId + 1 }

/-! Events. -/

/-- Run an event's work: a wait or a trap inside leaves the state as it was. -/
def event (body : Op Unit) (s : State) : Out :=
  match body s with
  | .ok _ s' => .next s'
  | .error (.fault f) _ => .fault f
  | .error _ s' => .next (errState s s')

/-- An event that has nothing to do now. -/
def noEvent : Op Unit := pure ()

end Sys2Proof.Machine
end

