-- ==== Sys2Proof/Machine/Operands.lean ====
section
/-! DEFINITION. Operand forms: register lists, addresses, branch targets, rotating registers (R81 to R87, R95, R96). -/

namespace Sys2Proof.Machine

/-- The bit width that WIDTH selects (R305). -/
def wid (w : Bool) : Nat := if w then 64 else 32

/-- The scalar registers that operands at a width read (R87). -/
def srcRegs (w : Bool) (rs : List Nat) : List Nat := if w then rs.flatMap (fun r => [r, r + 1]) else rs

/-- Sign-extend an immediate into a modulus of 2^w. -/
def sextNat {n : Nat} (w : Nat) (b : BitVec n) : Nat := uint w b.toInt

/-- The effective address: the base pair G(2·BP):G(2·BP+1) plus the signed offset (R82). -/
def State.effAddr {n : Nat} (s : State) (bp : Nat) (off : BitVec n) : Nat :=
  addrAdd (s.pair (2 * bp)).toNat (sextNat 64 off)

/-- The base pair's registers. -/
def baseRegs (bp : Nat) : List Nat := [2 * bp, 2 * bp + 1]

/-- A branch target: base plus 8 × the signed word offset (R83). -/
def targetFrom (base : DWord) (off : BitVec 32) : DWord := base + 8 * off.signExtend 64

/-- The target of BR and CALL (R83, R310). -/
def State.btarget (s : State) : BTarget → DWord
  | .rel off => targetFrom s.mySeq.pc off
  | .ind cr off => targetFrom (s.pair cr) off

/-- The registers a target reads. -/
def targetSrcs : BTarget → List Nat
  | .rel _ => []
  | .ind cr _ => [cr, cr + 1]

/-- The bytes of an access size (R82). -/
def sizeBytes : MSize → Nat
  | .b1 => 1 | .b2 => 2 | .b4 => 4 | .b8 => 8

/-! Vector registers as 1,024 elements by position 64·i + j (R89). -/

def vPad (l : List Word) : List Word := (padTo 0 1024 l).take 1024

/-- The elements of Vn. -/
def Core.vget (c : Core) (n : Nat) : List Word := vPad (Store.get [] c.v n)

/-- Write Vn with its poison. -/
def Core.vset (c : Core) (n : Nat) (l : List Word) (poison : Nat) : Core :=
  { c with v := Store.set [] c.v n l, vPoison := Store.set 0 c.vPoison n poison }

def Core.vpo (c : Core) (n : Nat) : Nat := Store.get 0 c.vPoison n

/-- All ones over the 1,024 positions. -/
def allPos : Nat := 2 ^ 1024 - 1

/-- Predicate Pn; P0 reads as all ones (R89). -/
def Core.pget (c : Core) (n : Nat) : Nat := if n = 0 then allPos else Store.get 0 c.p n

/-- Write Pn; a write to P0 is discarded (R89). -/
def Core.pset (c : Core) (n v : Nat) : Core := if n = 0 then c else { c with p := Store.set 0 c.p n v }

end Sys2Proof.Machine
end

