-- ==== Sys2Proof/Machine/Flags.lean ====
section
/-! DEFINITION. Conditions, the sticky flags of FSTAT and the path signature's bits (R93, R106, R133, R134, R263). -/

namespace Sys2Proof.Machine

/-- Whether A cond B holds between exact integers; `un` never does (R106, R305). -/
def condInt (k : Cond) (a b : Int) : Bool :=
  match k with
  | .eq => a == b
  | .ne => a != b
  | .lt => a < b
  | .le => a ≤ b
  | .gt => b < a
  | .ge => b ≤ a
  | .un => false

/-- Whether A cond B holds between values, with NaNs unordered (R368). -/
def condVal (k : Cond) (a b : Val) : Bool :=
  let un := a.isNan || b.isNan
  match k with
  | .eq => a.eq b
  | .ne => !a.eq b
  | .lt => a.lt b
  | .le => !un && !b.lt a
  | .gt => b.lt a
  | .ge => !un && !a.lt b
  | .un => un

/-- The OR of the flags of several results (R134). -/
def orAll (l : List Flags) : Flags := l.foldl (· ||| ·) 0

/-- OR flags into FSTAT of the sequencer that runs (R134). -/
def State.addFlags (s : State) (f : Flags) : State := s.orFlags s.cur s.curSeq f

/-- One bit of the CRC-32C path register (R263). -/
def crcBit (crc : Word) (b : Bool) : Word :=
  let c := crc.getLsbD 0 != b
  if c then (crc >>> 1) ^^^ 0x82F63B78 else crc >>> 1

/-- Feed the outcome of a conditional branch (R263). -/
def State.feed (s : State) (taken : Bool) : State := s.modMySeq (fun x => { x with crc := crcBit x.crc taken })

/-- Feed the 32 bits of a word, from bit 0 upward (R263). -/
def crcWord (crc w : Word) : Word := (List.range 32).foldl (fun c i => crcBit c (w.getLsbD i)) crc

end Sys2Proof.Machine
end

