-- ==== Sys2Proof/Machine/Branch.lean ====
section
/-! DEFINITION. Branches, calls and loops, OP 0x20–0x27 (R95 to R98, R107, R309 to R313, R323 to R325). -/

namespace Sys2Proof.Machine

/-- Go to a target, which must be a multiple of 8 (R310). -/
def jump (t : DWord) : Op Post := do
  need (t.toNat % 8 == 0) cALIGN t.toNat
  return .goto t

def execBr (c : Ctl) (t : BTarget) (s : State) : Out :=
  issue (.br c t) c noPre (targetSrcs t) (do jump ((← get).btarget t)) s

/-- BZ and BNZ: a branch that feeds its outcome into the path signature (R263, R310). -/
def condBranch (i : Instr) (c : Ctl) (cr : Nat) (off : BitVec 32) (onZero : Bool) (s : State) : Out :=
  issue i c noPre [cr] (fun s =>
    let taken := (s.g cr == 0) == onZero
    .ok (if taken then .goto (targetFrom s.mySeq.pc off) else .next) (s.feed taken)) s

def execBz (c : Ctl) (cr : Nat) (off : BitVec 32) (s : State) : Out := condBranch (.bz c cr off) c cr off true s
def execBnz (c : Ctl) (cr : Nat) (off : BitVec 32) (s : State) : Out := condBranch (.bnz c cr off) c cr off false s

/-- CALL (R312): the target comes from the pair as it stands before the link is written. -/
def execCall (c : Ctl) (t : BTarget) (s : State) : Out :=
  issue (.call c t) c noPre (targetSrcs t) (do
    let s ← get
    let a := s.btarget t
    need (a.toNat % 8 == 0) cALIGN a.toNat
    set ((s.setPair 62 (s.mySeq.pc + 8)).modMySeq (fun x => { x with depth := min (x.depth + 1) 255 }))
    return .goto a) s

/-- RET (R312): at depth 0 the L-, X- and S-seq park. -/
def execRet (c : Ctl) (s : State) : Out :=
  issue (.ret c) c noPre (if 0 < s.mySeq.depth || s.curSeq == .C then [62, 63] else []) (do
    let s ← get
    if 0 < s.mySeq.depth || s.curSeq == .C then do
      let a := s.pair 62
      need (a.toNat % 8 == 0) cALIGN a.toNat
      set (s.modMySeq (fun x => { x with depth := x.depth - 1 }))
      return .goto a
    else return .park) s

/-! Pipelined loops (R95 to R98). -/

/-- Write a stage predicate; only the X-seq has rotating registers (R323). -/
def State.setStage (s : State) (n v : Nat) : State := if s.curSeq == .X then s.modMe (·.pset n v) else s

/-- A taken LOOP: ITER goes on, and the stage value goes to the register that P(8 + L − 1) now names (R98). -/
def State.loopBack (s : State) (lc ec : Word) (ones : Bool) : State :=
  let s := s.modMySeq (fun x => { x with lc, ec, iter := x.iter + 1 })
  let x := s.mySeq
  let l := stageLen x.ringp.toNat
  s.setStage (8 + (l - 1 + x.iter.toNat) % l) (if ones then allPos else 0)

def execLoop (c : Ctl) (off : BitVec 32) (s : State) : Out :=
  issue (.loop c off) c noPre [] (fun s =>
    let x := s.mySeq
    let t := targetFrom x.pc off
    if x.lc ≠ 0 then .ok (.goto t) ((s.loopBack (x.lc - 1) x.ec true).feed true)
    else if 1 < x.ec then .ok (.goto t) ((s.loopBack x.lc (x.ec - 1) false).feed true)
    else .ok .next (s.feed false)) s

/-- LOOPH (R97): both maps are checked, RINGMAPV first. -/
def execLooph (c : Ctl) (rd ra rb rc : Nat) (s : State) : Out :=
  issue (.looph c rd ra rb rc) c noPre [rd, rd + 1, ra, rb, rc] (do
    let s ← get
    let mv := s.pair rd
    let mp := s.g ra
    need (ringOk 16 mv.toNat) cLOOPH mv.toNat
    need (ringOk 8 mp.toNat) cLOOPH mp.toNat
    let s := s.modMySeq (fun x => { x with ringv := mv, ringp := mp, lc := s.g rb, ec := s.g rc, iter := 0 })
    let l := stageLen mp.toNat
    let s := (List.range l).foldl (fun s i => s.setStage (8 + i) 0) s
    set (s.setStage (8 + l - 1) allPos)
    return .next) s

/-- The bound of temporal level `k` of the current block, none where LOOPT falls through (R325). -/
def Core.loopLimit (c : Core) (k : Nat) : Option Nat :=
  match c.cur with
  | none => none
  | some b =>
    if k < b.info.nlev && b.info.kinds.getD k 0 == 1 then some (b.info.origin.getD k 0 + b.info.extent.getD k 0)
    else none

def execLoopt (c : Ctl) (k : Nat) (off : BitVec 32) (s : State) : Out :=
  issue (.loopt c k off) c noPre [] (fun s =>
    let x := s.mySeq
    let li := Store.get 0 x.li k
    let taken := match s.me.loopLimit k with
      | some lim => decide (li.toNat + 1 < lim)
      | none => false
    if taken then
      .ok (.goto (targetFrom x.pc off)) ((s.modMySeq (fun x => { x with li := Store.set 0 x.li k (li + 1) })).feed true)
    else .ok .next (s.feed false)) s

end Sys2Proof.Machine
end

