-- ==== Sys2Proof/Machine/Links.lean ====
section
/-! DEFINITION. Ports and channels: the fields of CHCFG, windows and grants, and what a port sends (R249 to R251, R291).
A port's replay buffer holds the flits it has sent. -/

namespace Sys2Proof.Machine

/-! The fields of CHCFG (R249). -/

def TChan.port (c : TChan) : Nat := fieldOf c.w0.toNat 1 3
def TChan.remch (c : TChan) : Nat := fieldOf c.w0.toNat 4 6
def TChan.srccore (c : TChan) : Nat := fieldOf c.w0.toNat 10 9
def TChan.stgv (c : TChan) : Bool := bit c.w0.toNat 19
def TChan.stg (c : TChan) : Nat := fieldOf c.w0.toNat 20 3
def TChan.stgdie (c : TChan) : Nat := fieldOf c.w0.toNat 23 1
def TChan.rlog (c : TChan) : Nat := fieldOf c.w0.toNat 24 5
def TChan.rctx (c : TChan) : Nat := fieldOf c.w2.toNat 0 16
/-- EN with a ring size that exists. -/
def TChan.enabled (c : TChan) : Bool := bit c.w0.toNat 0 && 12 ≤ c.rlog && c.rlog ≤ 28
/-- The home die of channel n (R16). -/
def chanDie (n : Nat) : Nat := n / 32

/-- The window that a receiving channel grants (R250). -/
def TChan.window (c : TChan) : Nat := 2 ^ c.rlog - (c.delivered - c.released)

/-! Sending (R251). -/

def noHdr : MsgHdr := ⟨0, 0, 0, 0⟩

/-- Bytes 0 to 239 of a flit: number, acknowledged number, type, channel, then offset, length and flags, and the payload
(R251; the places within bytes 6 to 15 are log 82's). -/
def Flit.bytes (f : Flit) : List Byte :=
  bytesOf f.seqNo 2 ++ bytesOf f.ack 2 ++ bytesOf f.typ 1 ++ bytesOf f.chan 1 ++ bytesOf f.off 4 ++
    bytesOf f.payload.length 2 ++ bytesOf (f.hdr.tag + f.hdr.phase * 2 ^ 16 + bitAt (anyPoison f.payload) 24) 4 ++
    padTo 0 224 (f.payload.map (·.1))

/-- Send one flit on port `p`, keeping the last 512 for replay; nothing leaves a port that is down. -/
def State.sendFlit (s : State) (p typ chan off : Nat) (hdr : MsgHdr) (payload : List RByte) : State :=
  let q := s.port p
  if !q.trained then s
  else
    let f : Flit := ⟨q.tx % 65536, (q.rx + 65535) % 65536, typ, chan, off, hdr, payload, 0⟩
    let f := { f with crc := Config.flitCrc f.bytes }
    let l := q.replay ++ [f]
    s.setPort p { q with tx := q.tx + 1, replay := l.drop (l.length - 512), wire := q.wire ++ [f] }

/-- Send a message in parts of 224 bytes. -/
def State.sendParts (s : State) (p typ chan off : Nat) (hdr : MsgHdr) (bs : List RByte) : State :=
  (List.range ((bs.length + 223) / 224)).foldl (fun s i =>
    s.sendFlit p typ chan (off + 224 * i) hdr ((bs.drop (224 * i)).take 224)) s

/-- Bytes that are not poisoned. -/
def clean (l : List Byte) : List RByte := l.map (fun b => (b, false))

/-- A flit has arrived on port `p` in sequence: the next number is expected (R251). -/
def State.tookFlit (s : State) (p : Nat) : State := s.setPort p { s.port p with rx := (s.port p).rx + 1 }

/-- The types of flits. -/
def flitData : Nat := 1
def flitGrant : Nat := 2
def flitAck : Nat := 3
def flitColl : Nat := 4
def flitNak : Nat := 5

/-- Grant channel `n`'s window to its sender, unless the channel holds a record that has found no queue entry (R55,
R250). -/
def State.sendGrant (s : State) (n : Nat) : State :=
  let c := s.chan n
  if c.enabled && c.recs.isEmpty then
    s.sendFlit c.port flitGrant c.remch 0 noHdr
      (clean (bytesOf c.window 8 ++ [BitVec.ofNat 8 c.rlog, if c.stgv then 1 else 0]))
  else s

/-- Acknowledge a message's publication, with the status its ring write ended in and the granules written before
(R240, R250, R315). -/
def State.sendAck (s : State) (n status prog : Nat) : State :=
  let c := s.chan n
  s.sendFlit c.port flitAck c.remch 0 noHdr (clean (BitVec.ofNat 8 status :: bytesOf prog 4))

end Sys2Proof.Machine
end

