-- ==== Sys2Proof/Machine/Control.lean ====
section
/-! DEFINITION. The control space of a die: its registers and the register windows of its cores, read and written in
words of 8 bytes (R273, R274, R277, R285 to R295 and the rules that lay out each register). -/

namespace Sys2Proof.Machine

/-! Stream registers (R90, R91). -/

def Core.stream (c : Core) (n : Nat) : Stream := padTo 0 11 (Store.get [] c.streams n)
def Core.setStream (c : Core) (n : Nat) (w : Stream) : Core := { c with streams := Store.set [] c.streams n w }

/-- Field [lo+n−1:lo] of word i of a stream register. -/
def Stream.f (x : Stream) (i lo n : Nat) : Nat := fieldOf (List.getD x i 0).toNat lo n

def Stream.kind (x : Stream) : Nat := x.f 1 0 2
def Stream.own (x : Stream) : SeqId := seqOfCode (x.f 1 2 2)
def Stream.fmt (x : Stream) : Nat := x.f 1 4 5
def Stream.pr (x : Stream) : Nat := 2 ^ x.f 1 9 2
def Stream.pc (x : Stream) : Nat := 2 ^ x.f 1 11 2
def Stream.sblCode (x : Stream) : Nat := x.f 1 13 2
def Stream.sbl (x : Stream) : Nat := 16 * 2 ^ x.f 1 13 2
def Stream.smode (x : Stream) : Nat := x.f 1 15 3
def Stream.tr (x : Stream) : Bool := bit (List.getD x 1 0).toNat 18
def Stream.zp (x : Stream) : Bool := bit (List.getD x 1 0).toNat 19
def Stream.nt (x : Stream) : Bool := bit (List.getD x 1 0).toNat 20
def Stream.cal (x : Stream) : Bool := bit (List.getD x 1 0).toNat 21
def Stream.sstr (x : Stream) : Nat := x.f 1 32 20
def Stream.buf (x : Stream) : Nat := x.f 1 52 8
def Stream.base (x : Stream) : Nat := (List.getD x 0 0).toNat
def Stream.scaleLoc (x : Stream) : Nat := x.f 2 0 32
def Stream.pitch (x : Stream) : Nat := x.f 2 32 32
def Stream.coord (x : Stream) (j : Nat) : Nat := x.f (3 + j / 2) (32 * (j % 2)) 32
/-- STEPk,j as a signed number (R92). -/
def Stream.step (x : Stream) (k j : Nat) : Int := sint 16 (x.f (5 + k) (16 * j) 16)

/-- A reserved KIND or a set Res0 bit, judged by the KIND of the register as it stands (R91, R351, R352). -/
def Stream.undef (x : Stream) : Bool :=
  x.kind == 3 || x.f 1 22 10 != 0 || x.f 1 60 4 != 0 || (x.kind == 0 && x.f 0 21 43 != 0) ||
    (x.kind == 2 && (x.f 0 32 32 != 0 || x.f 2 32 32 != 0))

/-- A reserved FMT, SBL or SMODE, or SMODE 010b with another SBL than 16 (R91). -/
def Stream.badFmt (x : Stream) : Bool :=
  24 ≤ x.fmt || x.sblCode == 3 || 4 ≤ x.smode || (x.smode == 2 && x.sblCode != 0)

/-! The register window (R273). -/

/-- The sum of f over a list. -/
def sumOver {α : Type} (l : List α) (f : α → Nat) : Nat := l.foldl (fun a x => a + f x) 0

/-- Whether the part of sequencer `q` may be written: it is held or parked, or it is the user part of the C-seq while a
handler runs (R274). -/
def Core.partFree (c : Core) (q : SeqId) : Bool := (c.seq q).parked || (c.seq q).held || (q == .C && c.nest != 0)

/-- TRAPSTAT (R273). -/
def State.trapstat (s : State) (c : Nat) : Nat :=
  let k := s.core c
  sumOver allSeqs (fun q => bitAt (k.seq q).held q.code + bitAt (k.seq q).parked (4 + q.code)) + bitAt k.priv 8 +
    k.nest * 2 ^ 9 + bitAt k.preq 11 + bitAt (s.dieBusy c) 12 + bitAt (s.ceBusy c) 13

/-- The peer of queue byte `n` of TOKQ: its sequencers (R273). -/
def queueEnds (n : Nat) : SeqId × SeqId :=
  let a := seqOfCode (n / 3)
  (a, peerOf a (n % 3 + 1))

/-- Read the word at offset `o` of core `c`'s window: its value, and whether it is poisoned. -/
def State.winRead (s : State) (c o : Nat) : Nat × Bool :=
  let k := s.core c
  let clean (v : Nat) : Nat × Bool := (v, false)
  let pairOf (f : Nat → Nat) (n : Nat) : Nat := f n + f (n + 1) * 2 ^ 32
  if o = 0 then clean (s.trapstat c)
  else if o < 0x28 then clean (k.seq (seqOfCode (o / 8 - 1))).rpc.toNat
  else if o = 0x28 then clean (sumOver allSeqs (fun q => (k.seq q).depth * 2 ^ (8 * q.code)))
  else if o = 0x30 || o = 0x38 then
    clean (sumOver (List.range 8) (fun i => if o - 0x30 + i < 12 then k.tok (o - 0x30 + i) * 2 ^ (8 * i) else 0))
  else if 0x40 ≤ o && o < 0x60 then
    clean (sumOver (List.range 4) (fun i => s.ecnt c (seqOfCode ((o - 0x40) / 8)) i * 2 ^ (16 * i)))
  else if o = 0x60 then clean k.pcause.toNat
  else if o = 0x68 then clean k.pepc.toNat
  else if o = 0x70 then clean k.peva.toNat
  else if 0x80 ≤ o && o < 0x100 then clean (fieldOf k.defmask (8 * (o - 0x80)) 64)
  else if o = 0x100 then clean k.wdog.toNat
  else if 0x400 ≤ o && o < 0x800 then
    let q := seqOfCode ((o - 0x400) / 256)
    let r := (o - 0x400) % 256 / 4
    let g (n : Nat) : Nat := if n = 0 then 0 else (Store.get 0 (k.seq q).g n).toNat
    (pairOf g r, (k.seq q).gPoison.testBit r || (k.seq q).gPoison.testBit (r + 1))
  else if 0x800 ≤ o && o < 0xD80 then
    let w := (o - 0x800) / 8
    clean ((k.stream (w / 11)).getD (w % 11) 0).toNat
  else if 0xE00 ≤ o && o < 0xE80 then
    clean (sumOver (List.range 4) (fun i => Store.get 0 k.accOwner ((o - 0xE00) / 2 + i) * 2 ^ (16 * i)))
  else if 0xE80 ≤ o && o < 0xE90 then
    clean (sumOver (List.range 4) (fun i => (k.panel ((o - 0xE80) / 2 + i)).owner * 2 ^ (16 * i)))
  else if o = 0xE90 then clean k.sampler.owner
  else if 0x1000 ≤ o && o < 0x1800 then clean (fieldOf (k.pget ((o - 0x1000) / 128)) (8 * ((o - 0x1000) % 128)) 64)
  else if 0x1800 ≤ o && o < 0x1820 then clean (maskedRead maskSampler k.sampler.img (o - 0x1800))
  else if 0x2000 ≤ o && o < 0x4000 then clean (maskedRead maskEngine (s.engImage c) (o - 0x2000))
  else if 0x20000 ≤ o && o < 0x40000 then
    let n := (o - 0x20000) / 4096
    let p := (o - 0x20000) % 4096 / 4
    (pairOf (fun i => ((k.vget n).getD i 0).toNat) p, (k.vpo n).testBit p || (k.vpo n).testBit (p + 1))
  else if 0x40000 ≤ o && o < 0x80000 then
    let t := (o - 0x40000) / 4096
    let p := (o - 0x40000) % 4096 / 4
    let m := Store.get 0 k.accPoison t
    (pairOf (fun i => ((vPad (Store.get [] k.acc t)).getD i 0).toNat) p, m.testBit p || m.testBit (p + 1))
  else if 0x80000 ≤ o && o < 0xA0000 then
    let p := k.panel ((o - 0x80000) / panelBytes)
    let i := (o - 0x80000) % panelBytes
    (maskedRead maskPanel p.img i, p.wordPoison i)
  else clean 0

/-- Clear bits p and p + 1 of a poison mask. -/
def clear2 (m p : Nat) : Nat := m - fieldOf m p 2 * 2 ^ p

/-- Two elements of a list of words replaced by the halves of `v`. -/
def put2 (l : List Word) (p v : Nat) : List Word :=
  ((vPad l).set p (BitVec.ofNat 32 v)).set (p + 1) (BitVec.ofNat 32 (v / 2 ^ 32))

/-- Four fields of 16 bits written into a store from key `n`. -/
def put4 (m : Store Nat) (n v : Nat) : Store Nat :=
  (List.range 4).foldl (fun m i => Store.set 0 m (n + i) (fieldOf v (16 * i) 16)) m

/-- Start the C-seq at RPC3 in user mode, when all four sequencers are parked and no block is current (R273). A core
whose sector is not ready is still in reset (R292). -/
def State.startCore (s : State) (c : Nat) : State :=
  let k := s.core c
  if allSeqs.all (fun q => (k.seq q).parked) && k.cur.isNone && (s.sectorReady c || isPostmaster c) then
    s.modCore c (fun k => ({ k with priv := false }).modSeq .C (fun x => { x with parked := false, held := false, pc := x.rpc }))
  else s

/-- Write the word at offset `o` of core `c`'s window; a part whose sequencer runs ignores it (R274). -/
def State.winWrite (s : State) (c o v : Nat) : State :=
  let k := s.core c
  let x := k.partFree .X
  let put (b : Bool) (k' : Core) : State := if b then s.setCore c k' else s
  if 8 ≤ o && o < 0x28 then
    let q := seqOfCode (o / 8 - 1)
    put (k.partFree q) (k.modSeq q (fun y => { y with rpc := BitVec.ofNat 64 v }))
  else if o = 0x28 then
    s.setCore c (allSeqs.foldl (fun k q =>
      if k.partFree q then k.modSeq q (fun y => { y with depth := fieldOf v (8 * q.code) 8 }) else k) k)
  else if o = 0x30 || o = 0x38 then
    s.setCore c ((List.range 8).foldl (fun k i =>
      let n := o - 0x30 + i
      if n < 12 && k.partFree (queueEnds n).1 && k.partFree (queueEnds n).2 then k.setTok n (fieldOf v (8 * i) 6)
      else k) k)
  else if o = 0x60 then s.setCore c { k with pcause := BitVec.ofNat 64 v }
  else if o = 0x68 then s.setCore c { k with pepc := BitVec.ofNat 64 v }
  else if o = 0x70 then s.setCore c { k with peva := BitVec.ofNat 64 v }
  else if 0x80 ≤ o && o < 0x100 then put x { k with defmask := setField k.defmask (8 * (o - 0x80)) 64 v }
  else if o = 0x100 then s.setCore c { k with wdog := BitVec.ofNat 20 v }
  else if o = 0x108 then
    let s := if bit v 0 && k.halted then s.setCore c { k with resetting := true } else s
    if bit v 1 then s.startCore c else s
  else if 0x400 ≤ o && o < 0x800 then
    let q := seqOfCode ((o - 0x400) / 256)
    let r := (o - 0x400) % 256 / 4
    let wr (y : Seq) (n : Nat) (w : Nat) : Seq := if n = 0 then y else { y with g := Store.set 0 y.g n (BitVec.ofNat 32 w) }
    put (k.partFree q) (k.modSeq q (fun y =>
      { wr (wr y r v) (r + 1) (v / 2 ^ 32) with gPoison := clear2 y.gPoison r }))
  else if 0x800 ≤ o && o < 0xD80 then
    let n := (o - 0x800) / 8 / 11
    let y : Stream := (k.stream n).set ((o - 0x800) / 8 % 11) (BitVec.ofNat 64 v)
    put (k.partFree (k.stream n).own && !y.undef && !y.badFmt) (k.setStream n y)
  else if 0xE00 ≤ o && o < 0xE80 then put x { k with accOwner := put4 k.accOwner ((o - 0xE00) / 2) v }
  else if 0xE80 ≤ o && o < 0xE90 then
    let own (m : Store Panel) (i : Nat) : Store Panel :=
      let n := (o - 0xE80) / 2 + i
      Store.set {} m n { (Store.get {} m n : Panel) with owner := fieldOf v (16 * i) 16 }
    put x { k with panels := (List.range 4).foldl own k.panels }
  else if o = 0xE90 then put x { k with sampler := { k.sampler with owner := v % 65536 } }
  else if 0x1000 ≤ o && o < 0x1800 then
    let n := (o - 0x1000) / 128
    put x (k.pset n (setField (k.pget n) (8 * ((o - 0x1000) % 128)) 64 v))
  else if 0x1800 ≤ o && o < 0x1820 then
    put x { k with sampler := Sampler.ofImg (maskedWrite maskSampler k.sampler.img (o - 0x1800) v) k.sampler.owner }
  else if 0x2000 ≤ o && o < 0x4000 then
    put (!s.ceBusy c) { k with engimg := maskedWrite maskEngine k.engimg (o - 0x2000) v }
  else if 0x20000 ≤ o && o < 0x40000 then
    let n := (o - 0x20000) / 4096
    let p := (o - 0x20000) % 4096 / 4
    put x (k.vset n (put2 (k.vget n) p v) (clear2 (k.vpo n) p))
  else if 0x40000 ≤ o && o < 0x80000 then
    let t := (o - 0x40000) / 4096
    let p := (o - 0x40000) % 4096 / 4
    put x { k with acc := Store.set [] k.acc t (put2 (Store.get [] k.acc t) p v),
                   accPoison := Store.set 0 k.accPoison t (clear2 (Store.get 0 k.accPoison t) p) }
  else if 0x80000 ≤ o && o < 0xA0000 then
    let n := (o - 0x80000) / panelBytes
    let p := k.panel n
    let p' : Panel := { p with img := maskedWrite maskPanel p.img ((o - 0x80000) % panelBytes) v }
    put x { k with panels := Store.set {} k.panels n p' }
  else s

/-! The calendars' owners (R184). Channels 0–127 are the HB tier's, 128–143 the LP tier's. -/

def slotsOf (ch : Nat) : Nat := if ch < 128 then 32 else 16
def isMaint (ch slot : Nat) : Bool := slot == 0 || slot == slotsOf ch / 2
/-- The owner of a slot by the reset formula. -/
def ownerAtReset (ch slot : Nat) : Nat :=
  let j := if slot < slotsOf ch / 2 then slot - 1 else slot - 2
  let c := if ch < 128 then ch else ch - 128
  1 + (((slotsOf ch - 2) * c + j) % 143)
def Die.owner (d : Die) (ch slot : Nat) : Nat :=
  if isMaint ch slot then 0xFE
  else match d.calown.find? (fun e => e.1 == 32 * ch + slot) with
    | some e => e.2.toNat
    | none => ownerAtReset ch slot

/-- The clocks of one slot (R182). -/
def slotClocks (ch : Nat) : Nat := if ch < 128 then 8 else 32

/-- The rotation of a channel's calendar that runs, counted from die start-up (R182). -/
def State.rotation (s : State) (ch : Nat) : Nat := (s.clock - s.start) / (slotClocks ch * slotsOf ch)

/-- A write of one CALOWN byte in rotation `rot`, waiting for the next (R184). -/
def Die.putOwner (d : Die) (rot ch slot : Nat) (v : Byte) : Die :=
  if isMaint ch slot || (0x90 ≤ v.toNat && v.toNat ≤ 0xFE) then d
  else { d with calPend := d.calPend ++ [(ch, slot, v, rot)] }

/-- The owner as the die's clock has it: a write that waits has taken effect once a later rotation has begun (R184). -/
def State.owner (s : State) (d ch slot : Nat) : Nat :=
  let due := (s.die d).calPend.filter (fun p => p.1 == ch && p.2.1 == slot && p.2.2.2 < s.rotation ch)
  match due.getLast? with
  | some p => if isMaint ch slot then 0xFE else p.2.2.1.toNat
  | none => (s.die d).owner ch slot

/-! Registers of the die. -/

/-- Word `w` of a group entry (R255). -/
def Group.word (g : Group) (w : Nat) : Nat :=
  if w = 0 then
    bitAt g.valid 0 + g.op * 2 + bitAt g.tree 3 + g.state * 2 ^ 4 + g.count * 2 ^ 8 + g.timeout * 2 ^ 16 + g.root * 2 ^ 40
  else if w ≤ 3 then fieldOf g.part (64 * (w - 1)) 64
  else if w = 4 then g.contribs.length % 256
  else 0

/-- Write word `w` of a group entry; word 0 makes it ready with nothing arrived (R255). -/
def Group.put (g : Group) (w v : Nat) : Group :=
  if w = 0 then { g with valid := bit v 0, op := fieldOf v 1 2, tree := bit v 3, state := 0, count := fieldOf v 8 8,
                         timeout := fieldOf v 16 24, root := fieldOf v 40 8, contribs := [] }
  else if w ≤ 3 then { g with part := setField g.part (64 * (w - 1)) 64 v % 2 ^ 144 }
  else g

/-- Write a group entry. Contributions that word 0 throws away are made again (log 24). -/
def State.putGroup (s : State) (d g w v : Nat) : State :=
  let back (k : Cmd) : Cmd :=
    if w == 0 && k.kind == .prst && k.phase == 1 && dieOfCore k.core == d && k.g2.toNat % 64 == g then { k with phase := 0 } else k
  { (s.modGroup d g (fun x => x.put w v)) with cmds := s.cmds.map back }

/-- STAGESTAT of a slot (R53); HOLDS is given by the stash commands that stall. -/
def StageSlot.stat (st : StageSlot) (holds : Bool) : Nat :=
  st.state + st.entry * 2 ^ 3 + st.repleft * 2 ^ 11 + bitAt holds 17 + bitAt st.holdv 18 +
    (st.tags.filter (fun e => e.2.isSome)).length * 2 ^ 19 + bitAt st.stray 28

/-- HOLDS: a STASH issued by a block of the stage is stalled (R68). -/
def State.holds (s : State) (d n : Nat) : Bool :=
  s.cmds.any (fun k => k.kind == .stash && k.phase == 1 && (match k.block with
    | some b => b.info.stagev && b.info.die == d && b.info.stage == n
    | none => false))

/-- Free arena units (R246). -/
def Die.freeUnits (d : Die) : Nat := d.caunits.toNat - sumOver d.arena (·.units)

/-- LINKCFG: one byte per port (R291). -/
def Port.cfg (p : Port) : Nat := bitAt p.trained 0 + bitAt p.inStage 1 + bitAt p.inPipe 2 + bitAt p.inRing 3

/-- Word `w` of CHCFG of a channel (R249). -/
def TChan.word (c : TChan) (w : Nat) : DWord :=
  match w with
  | 0 => c.w0 | 1 => c.w1 | 2 => c.w2 | _ => c.w3

/-- Write a word of CHCFG; setting EN starts the counts at 0 (R250). -/
def TChan.put (c : TChan) (w v : Nat) : TChan :=
  match w with
  | 0 =>
    let c' := { c with w0 := BitVec.ofNat 64 (v % 2 ^ 29) }
    if bit v 0 && !c.w0.getLsbD 0 then { c' with delivered := 0, released := 0 } else c'
  | 1 => { c with w1 := BitVec.ofNat 64 v }
  | 2 => { c with w2 := BitVec.ofNat 64 (v % 2 ^ 16) }
  | _ => { c with w3 := BitVec.ofNat 64 v }

/-- Write a word of CHCFG of channel `n`; a channel newly enabled, or whose window the write has changed, grants it (R250). -/
def State.putChcfg (s : State) (n w v : Nat) : State :=
  let old := s.chan n
  let new := old.put w v
  let s := s.setChan n new
  if new.enabled && (!old.enabled || !old.w0.getLsbD 0 || new.window != old.window) then s.sendGrant n else s

/-- Read the word at offset `o` of die `d`'s control space: its value, and whether it is poisoned. -/
def State.ctlRead (s : State) (d o : Nat) : Nat × Bool :=
  let x := s.die d
  let r (v : Nat) : Nat × Bool := (v, false)
  if o < 0x9000000 then s.winRead (144 * d + o / 0x100000) (o % 0x100000)
  else if o = 0x9000000 then r x.agesh.toNat
  else if o = 0x9000008 then r (s.frameCount d + bitAt x.fullseen 17)
  else if 0x9000100 ≤ o && o < 0x9000140 then
    let n := (o - 0x9000100) / 8
    r ((x.stage n).stat (s.holds d n))
  else if o = 0x9000200 then r x.l2seed.toNat
  else if o = 0x9000208 then r (x.trkth.toNat + bitAt x.blast 16 + bitAt x.preden 17)
  else if o = 0x9000210 then r (x.drfmcnt.toNat + bitAt x.rhover 32)
  else if o = 0x9000300 then r x.ctxbase.toNat
  else if 0x9000400 ≤ o && o < 0x90004C0 then
    let p := x.pool ((o - 0x9000400) / 16)
    r (if o % 16 = 0 then p.base else p.count + p.cap * 2 ^ 24 + bitAt p.empty 48)
  else if o = 0x9000500 then r x.sdbase.toNat
  else if o = 0x9000508 then r x.sdcap.toNat
  else if o = 0x9000510 then r x.dir.length
  else if o = 0x9000518 then r x.cabase.toNat
  else if o = 0x9000520 then r x.caunits.toNat
  else if o = 0x9000528 then r x.freeUnits
  else if o = 0x9000600 then r x.trapvec.toNat
  else if o = 0x9000610 then r (if d = 0 then x.hwbase.toNat else 0)
  else if o = 0x9000618 then r (if d = 0 then x.hwctx.toNat else 0)
  else if o = 0x9000700 then r (sumOver (List.range 8) (fun i => (s.port i).cfg * 2 ^ (8 * i)))
  else if o = 0x9000800 then r x.mbbase.toNat
  else if o = 0x9000808 then r x.mblog.toNat
  else if o = 0x9000810 then r x.mbhead.toNat
  else if o = 0x9000818 then r x.mbtail.toNat
  else if o = 0x9000900 then r x.qtbase.toNat
  else if o = 0x9000908 then r (bitAt x.run 0)
  else if o = 0x9000A00 then r (x.bootStep.toNat + x.bootErr.toNat * 2 ^ 4 + bitAt x.ready 12 + x.svn.toNat * 2 ^ 16)
  else if o = 0x9000A68 then r (bitAt x.attdone 0)
  else if 0x9000A80 ≤ o && o < 0x9000AA0 then r (Store.get 0 x.sage ((o - 0x9000A80) / 8)).toNat
  else if 0x9000AA0 ≤ o && o < 0x9000AC0 then r (Store.get 0 x.hbm ((o - 0x9000AA0) / 8)).toNat
  else if o = 0x9000AC0 then r x.eolh.toNat
  else if o = 0x9000AC8 then r x.cecnt.toNat
  else if o = 0x9000AD0 then r x.uecnt.toNat
  else if 0x9001000 ≤ o && o < 0x9001400 then
    r ((s.chan (32 * d + (o - 0x9001000) / 32)).word (o / 8 % 4)).toNat
  else if 0x9002000 ≤ o && o < 0x9003000 then r ((x.group ((o - 0x9002000) / 64)).word (o / 8 % 8))
  else if 0x9004000 ≤ o && o < 0x9005000 then
    r (sumOver (List.range 8) (fun i => s.owner d ((o - 0x9004000) / 32) ((o + i) % 32) * 2 ^ (8 * i)))
  else if 0x9005000 ≤ o && o < 0x9005100 then
    r (sumOver (List.range 8) (fun i => s.owner d (128 + (o - 0x9005000) / 16) ((o + i) % 16) * 2 ^ (8 * i)))
  else r 0

/-- Only the boot and identity registers are served after a failed boot (R292). -/
def State.bootFailed (s : State) : Bool := (s.die 0).bootErr != 0

/-- Whether the register at an offset of a die's control space is served. -/
def State.served (s : State) (off : Nat) : Bool := !s.bootFailed || (0x9000A00 ≤ off && off < 0x9000A80)

/-- Request pre-emption of the program cores of die `d`; a request to a core that has one pending adds nothing (R280, R288,
R339). -/
def State.preempt (s : State) (d : Nat) : State :=
  (List.range 143).foldl (fun s n =>
    s.modCore (144 * d + 1 + n) (fun c => { c with preq := true, event := c.event || !c.preq })) s

/-- A write of MBTAIL: space freed lets waiting messages in, and bit [31] asks for MSI-X vector 0 (R290). -/
def State.putMbtail (s : State) (d v : Nat) : State :=
  let freed := (s.die d).mbtail != BitVec.ofNat 31 v
  let s := s.modDie d (fun x => { x with mbtail := BitVec.ofNat 31 v })
  let s := if bit v 31 && freed then { s with pcie := s.pcie ++ [.msix 0] } else s
  s.mailAll d

/-- A write of FRAMECFG: every entry keeps the AGE it has (R37, R39). DESIGN CHOICE (log 80): the ticks of the old period end
with the write; R37 does not say whether one still falls before the first multiple of the new period. -/
def State.putFramecfg (s : State) (d v : Nat) : State :=
  (s.ageSync d).modDie d (fun x => { x with agesh := BitVec.ofNat 4 v })

/-- A write of L2SEED reseeds the 144 slice generators (R181). -/
def State.putL2seed (s : State) (d v : Nat) : State :=
  s.modDie d (fun x => { x with l2seed := BitVec.ofNat 32 v, sliceGens := [] })

/-- A write of ATTREQ; a second before ATTDONE replaces the first (R293). -/
def State.putAttreq (s : State) (d v : Nat) : State := s.modDie d (fun x => { x with attreq := some (BitVec.ofNat 64 v) })

/-- Write the word at offset `o` of die `d`'s control space. -/
def State.ctlWrite (s : State) (d o v : Nat) : State :=
  let m (f : Die → Die) : State := s.modDie d f
  if o < 0x9000000 then s.winWrite (144 * d + o / 0x100000) (o % 0x100000) v
  else if o = 0x9000000 then s.putFramecfg d v
  else if o = 0x9000008 then m (fun x => { x with fullseen := x.fullseen && !bit v 17 })
  else if 0x9000100 ≤ o && o < 0x9000140 then
    s.modStage d ((o - 0x9000100) / 8) (fun x => { x with stray := x.stray && !bit v 28 })
  else if o = 0x9000200 then s.putL2seed d v
  else if o = 0x9000208 then
    m (fun x => { x with trkth := if v % 65536 < 0x40 then x.trkth else BitVec.ofNat 16 v, blast := bit v 16,
                         preden := bit v 17 })
  else if o = 0x9000210 then m (fun x => { x with rhover := x.rhover && !bit v 32 })
  else if o = 0x9000300 then m (fun x => { x with ctxbase := BitVec.ofNat 41 v })
  else if 0x9000400 ≤ o && o < 0x90004C0 then
    let k := (o - 0x9000400) / 16
    m (fun x =>
      let p := x.pool k
      x.setPool k (if o % 16 = 0 then { p with base := v % 2 ^ 41 }
        else { p with count := fieldOf v 0 24, cap := fieldOf v 24 24, empty := p.empty && !bit v 48 }))
  else if o = 0x9000500 then m (fun x => { x with sdbase := BitVec.ofNat 41 v })
  else if o = 0x9000508 then m (fun x => { x with sdcap := BitVec.ofNat 24 v })
  else if o = 0x9000518 then m (fun x => { x with cabase := BitVec.ofNat 41 v })
  else if o = 0x9000520 then m (fun x => { x with caunits := BitVec.ofNat 24 v })
  else if o = 0x9000600 then m (fun x => { x with trapvec := BitVec.ofNat 64 v })
  else if o = 0x9000608 then
    let s := if bit v 0 then s.preempt d else s
    if bit v 1 then (s.preempt 0).preempt 1 else s
  else if o = 0x9000610 then
    if d = 0 then m (fun x => { x with hwbase := BitVec.ofNat 64 (fieldOf v 36 12 * 2 ^ 36) }) else s
  else if o = 0x9000618 then if d = 0 then m (fun x => { x with hwctx := BitVec.ofNat 16 v }) else s
  else if o = 0x9000700 then
    (List.range 8).foldl (fun s i => s.setPort i { s.port i with
      inStage := bit v (8 * i + 1), inPipe := bit v (8 * i + 2), inRing := bit v (8 * i + 3) }) s
  else if o = 0x9000800 then (m (fun x => { x with mbbase := BitVec.ofNat 41 v })).mailAll d
  else if o = 0x9000808 then (m (fun x => { x with mblog := BitVec.ofNat 4 v })).mailAll d
  else if o = 0x9000818 then s.putMbtail d v
  else if o = 0x9000900 then m (fun x => { x with qtbase := BitVec.ofNat 41 v })
  else if o = 0x9000908 then m (fun x => { x with run := bit v 0 })
  else if 0x9000A40 ≤ o && o < 0x9000A60 then
    m (fun x => { x with nonce := Store.set 0 x.nonce ((o - 0x9000A40) / 8) (BitVec.ofNat 64 v) })
  else if o = 0x9000A60 then s.putAttreq d v
  else if o = 0x9000A68 then m (fun x => { x with attdone := x.attdone && !bit v 0 })
  else if o = 0x9000AC8 then m (fun x => { x with cecnt := BitVec.ofNat 32 v })
  else if o = 0x9000AD0 then m (fun x => { x with uecnt := BitVec.ofNat 32 v })
  else if 0x9001000 ≤ o && o < 0x9001400 then
    let n := 32 * d + (o - 0x9001000) / 32
    s.putChcfg n (o / 8 % 4) v
  else if 0x9002000 ≤ o && o < 0x9003000 then s.putGroup d ((o - 0x9002000) / 64) (o / 8 % 8) v
  else if 0x9004000 ≤ o && o < 0x9005000 then
    m (fun x => (List.range 8).foldl (fun x i => x.putOwner (s.rotation ((o - 0x9004000) / 32)) ((o - 0x9004000) / 32) ((o + i) % 32)
      (BitVec.ofNat 8 (v / 2 ^ (8 * i)))) x)
  else if 0x9005000 ≤ o && o < 0x9005100 then
    m (fun x => (List.range 8).foldl (fun x i => x.putOwner (s.rotation (128 + (o - 0x9005000) / 16)) (128 + (o - 0x9005000) / 16) ((o + i) % 16)
      (BitVec.ofNat 8 (v / 2 ^ (8 * i)))) x)
  else s

end Sys2Proof.Machine
end

