-- ==== Sys2Proof/Machine/Scalar.lean ====
section
/-! DEFINITION. NOP and the scalar integer family, OP 0x00–0x15 (R105, R106, R303 to R308, R332). -/

namespace Sys2Proof.Machine

/-- A value of width w read as U selects (R305). -/
def asInt (u : Bool) (w a : Nat) : Int := if u then (a : Int) else sint w a

/-! The results of R305, modulo 2^w. -/

def opAdd (w a b : Nat) : Nat := (a + b) % 2 ^ w
def opSub (w a b : Nat) : Nat := (a + 2 ^ w - b) % 2 ^ w
def opShl (w a b : Nat) : Nat := a * 2 ^ (b % w) % 2 ^ w
def opShr (w a b : Nat) : Nat := a / 2 ^ (b % w)
def opSra (w a b : Nat) : Nat := uint w ((sint w a).fdiv (2 ^ (b % w)))
def opMul (w a b : Nat) : Nat := a * b % 2 ^ w
def opMulh (u : Bool) (w a b : Nat) : Nat := uint w ((asInt u w a * asInt u w b).fdiv (2 ^ w))
def opDiv (u : Bool) (w a b : Nat) : Nat :=
  if b = 0 then 2 ^ w - 1 else uint w ((asInt u w a).tdiv (asInt u w b))
def opRem (u : Bool) (w a b : Nat) : Nat :=
  if b = 0 then a else uint w ((asInt u w a).tmod (asInt u w b))
def opMin (u : Bool) (w a b : Nat) : Nat := if asInt u w b < asInt u w a then b else a
def opMax (u : Bool) (w a b : Nat) : Nat := if asInt u w a < asInt u w b then b else a
def opCmp (u : Bool) (k : Cond) (w a b : Nat) : Nat := if condInt k (asInt u w a) (asInt u w b) then 1 else 0
def opClz (w a : Nat) : Nat := if a = 0 then w else w - 1 - Nat.log2 a
/-- The 1 bits among the low `w` bits. -/
def opPopc (w a : Nat) : Nat := ((List.range w).filter (fun i => a.testBit i)).length

/-- Compute a new state from the state at issue and go on to the next word. -/
def simple (f : State → State) : Op Post := fun s => .ok .next (f s)

/-- An instruction with two operands at one width. -/
def alu (i : Instr) (c : Ctl) (w : Bool) (rd ra rb : Nat) (f : Nat → Nat → Nat → Nat) (s : State) : Out :=
  issue i c noPre (srcRegs w [ra, rb])
    (simple (fun s => s.setOpnd w rd (f (wid w) (s.opnd w ra) (s.opnd w rb)))) s

def execNop (c : Ctl) (s : State) : Out := issue (.nop c) c noPre [] (simple id) s

def execAdd (c : Ctl) (w : Bool) (rd ra rb : Nat) (s : State) : Out := alu (.add c w rd ra rb) c w rd ra rb opAdd s
def execSub (c : Ctl) (w : Bool) (rd ra rb : Nat) (s : State) : Out := alu (.sub c w rd ra rb) c w rd ra rb opSub s
def execAnd (c : Ctl) (w : Bool) (rd ra rb : Nat) (s : State) : Out :=
  alu (.and c w rd ra rb) c w rd ra rb (fun _ a b => Nat.land a b) s
def execOr (c : Ctl) (w : Bool) (rd ra rb : Nat) (s : State) : Out :=
  alu (.or c w rd ra rb) c w rd ra rb (fun _ a b => Nat.lor a b) s
def execXor (c : Ctl) (w : Bool) (rd ra rb : Nat) (s : State) : Out :=
  alu (.xor c w rd ra rb) c w rd ra rb (fun _ a b => Nat.xor a b) s
def execShl (c : Ctl) (w : Bool) (rd ra rb : Nat) (s : State) : Out := alu (.shl c w rd ra rb) c w rd ra rb opShl s
def execShr (c : Ctl) (w : Bool) (rd ra rb : Nat) (s : State) : Out := alu (.shr c w rd ra rb) c w rd ra rb opShr s
def execSra (c : Ctl) (w : Bool) (rd ra rb : Nat) (s : State) : Out := alu (.sra c w rd ra rb) c w rd ra rb opSra s
def execMul (c : Ctl) (w : Bool) (rd ra rb : Nat) (s : State) : Out := alu (.mul c w rd ra rb) c w rd ra rb opMul s
def execMulh (c : Ctl) (w u : Bool) (rd ra rb : Nat) (s : State) : Out :=
  alu (.mulh c w u rd ra rb) c w rd ra rb (opMulh u) s
def execDiv (c : Ctl) (w u : Bool) (rd ra rb : Nat) (s : State) : Out :=
  alu (.div c w u rd ra rb) c w rd ra rb (opDiv u) s
def execRem (c : Ctl) (w u : Bool) (rd ra rb : Nat) (s : State) : Out :=
  alu (.rem c w u rd ra rb) c w rd ra rb (opRem u) s
def execMin (c : Ctl) (w u : Bool) (rd ra rb : Nat) (s : State) : Out :=
  alu (.min c w u rd ra rb) c w rd ra rb (opMin u) s
def execMax (c : Ctl) (w u : Bool) (rd ra rb : Nat) (s : State) : Out :=
  alu (.max c w u rd ra rb) c w rd ra rb (opMax u) s

/-- CMP writes a single register (R305). -/
def execCmp (c : Ctl) (w u : Bool) (k : Cond) (rd ra rb : Nat) (s : State) : Out :=
  issue (.cmp c w u k rd ra rb) c noPre (srcRegs w [ra, rb])
    (simple (fun s => s.setG rd (BitVec.ofNat 32 (opCmp u k (wid w) (s.opnd w ra) (s.opnd w rb))))) s

/-- SEL tests the single register RC (R305). -/
def execSel (c : Ctl) (w : Bool) (rd ra rb rc : Nat) (s : State) : Out :=
  issue (.sel c w rd ra rb rc) c noPre (srcRegs w [ra, rb] ++ [rc])
    (simple (fun s => s.setOpnd w rd (if s.g rc ≠ 0 then s.opnd w ra else s.opnd w rb))) s

/-- An instruction with one operand. -/
def alu1 (i : Instr) (c : Ctl) (w : Bool) (rd ra : Nat) (f : Nat → Nat → Nat) (s : State) : Out :=
  issue i c noPre (srcRegs w [ra]) (simple (fun s => s.setOpnd w rd (f (wid w) (s.opnd w ra)))) s

def execClz (c : Ctl) (w : Bool) (rd ra : Nat) (s : State) : Out := alu1 (.clz c w rd ra) c w rd ra opClz s
def execPopc (c : Ctl) (w : Bool) (rd ra : Nat) (s : State) : Out := alu1 (.popc c w rd ra) c w rd ra opPopc s

def execMovi (c : Ctl) (rd : Nat) (imm : BitVec 24) (s : State) : Out :=
  issue (.movi c rd imm) c noPre [] (simple (fun s => s.setG rd (imm.signExtend 32))) s

/-- MOVI.hi keeps the low half of its destination, which it reads (R307, R308). -/
def execMoviHi (c : Ctl) (rd : Nat) (imm : BitVec 16) (s : State) : Out :=
  issue (.moviHi c rd imm) c noPre [rd] (simple (fun s => s.setG rd (imm ++ (s.g rd).extractLsb' 0 16))) s

def execAddi (c : Ctl) (rd ra : Nat) (imm : BitVec 24) (s : State) : Out :=
  issue (.addi c rd ra imm) c noPre [ra] (simple (fun s => s.setG rd (s.g ra + imm.signExtend 32))) s

def execAddp (c : Ctl) (rd ra : Nat) (imm : BitVec 24) (s : State) : Out :=
  issue (.addp c rd ra imm) c noPre [ra, ra + 1]
    (simple (fun s => s.setPair rd (s.pair ra + imm.signExtend 64))) s

end Sys2Proof.Machine
end

