-- ==== Sys2Proof/Machine/MemInstr.lean ====
section
/-! DEFINITION. Scalar loads, stores and atomics, OP 0x30–0x3C (R82, R108, R109, R178 to R181, R297 to R301, R320 to R322,
R340 to R342). -/

namespace Sys2Proof.Machine

/-- Translate one address for the sequencer that runs (R193, R198). -/
def seqXlate (acc : Acc) (va : Nat) : Op Xlat := do
  let s ← get
  xlate (agentCore s.cur) s.myDie s.me.ctx.toNat (s.me.onPriv s.curSeq) acc va

/-- Read `n` bytes at `va` as LD does (R321, R322). Control space lies outside the parameter region, so a load of it makes
the block untraced (R262). -/
def loadVa (va n : Nat) : Op Nat := do
  let s ← get
  match ← seqXlate .load va with
  | .ctl d o => do
    let (v, p) := s.ctlRead d (o / 8 * 8)
    need (!p) cECC va
    modify (fun s => s.noteRead s.cur va n)
    return v / 2 ^ (8 * (o % 8)) % 2 ^ (8 * n)
  | .ok pa => do
    let bs ← loadBytes s.cur pa n
    need (!anyPoison bs) cECC va
    modify (fun s => s.noteRead s.cur va n)
    return rbytesNat bs
  | x => do
    firstFail .load [(va, x)]
    throwTrap cNOTMAP va

/-- The result of a load in its register or pair (R82, R321). -/
def State.putLoad (s : State) (m : MemF) (sx : Bool) (v : Nat) : State :=
  match m.sz with
  | .b8 => s.setPair m.rd (BitVec.ofNat 64 v)
  | .b4 => s.setG m.rd (BitVec.ofNat 32 v)
  | .b2 => s.setG m.rd (BitVec.ofNat 32 (if sx then uint 32 (sint 16 v) else v))
  | .b1 => s.setG m.rd (BitVec.ofNat 32 (if sx then uint 32 (sint 8 v) else v))

/-- A load of a non-zero class that performs late (R223): it is translated and checked now. False when it does not, for
what it reaches is control space. -/
def loadLater (m : MemF) (sx : Bool) (va n : Nat) : Op Bool := do
  match ← seqXlate .load va with
  | .ctl .. => return false
  | .ok pa => do
    need (!(← get).poisoned pa n) cECC va
    modify (fun s => s.noteRead s.cur va n)
    deferWork m.ac [.load m sx va pa n]
    return true
  | x => do
    firstFail .load [(va, x)]
    throwTrap cNOTMAP va

/-- LD with sign or zero extension (R321). -/
def loadInstr (i : Instr) (c : Ctl) (m : MemF) (sx : Bool) (s : State) : Out :=
  issue i c noPre (baseRegs m.bp) (do
    let n := sizeBytes m.sz
    let a := (← get).effAddr m.bp m.off
    need (a % n == 0) cALIGN a
    if (← get).defers m.ac then
      if ← loadLater m sx a n then return .next
    needOrder m.ac
    let v ← loadVa a n
    modify (fun s => s.putLoad m sx v)
    return .next) s

def execLd (c : Ctl) (m : MemF) (s : State) : Out := loadInstr (.ld c m) c m true s
def execLdZeroExtending (c : Ctl) (m : MemF) (s : State) : Out := loadInstr (.ldZeroExtending c m) c m false s

/-- The bytes that ST stores (R340). -/
def State.stData (s : State) (m : MemF) : List RByte :=
  (bytesOf (s.opnd (m.sz == .b8) m.rd) (sizeBytes m.sz)).map (fun b => (b, false))

/-- ST (R341, R342). -/
def execSt (c : Ctl) (m : MemF) (s : State) : Out :=
  issue (.st c m) c noPre (baseRegs m.bp ++ srcRegs (m.sz == .b8) [m.rd]) (do
    let s ← get
    let n := sizeBytes m.sz
    let a := s.effAddr m.bp m.off
    need (a % n == 0) cALIGN a
    if !s.defers m.ac then needOrder m.ac
    match ← seqXlate .store a with
    | .ctl d o => do
      need (n == 8) cALIGN a
      needOrder m.ac
      modify (fun s => s.ctlWrite d o (s.pair m.rd).toNat)
      return .next
    | .ok pa => do
      let k := s.me
      need (k.psbLines.length + k.newLines (pa :: k.latePas) ≤ psbCapacity) cPHASEOV a
      if s.defers m.ac then deferWork m.ac [.store k.ctx.toNat (placeBytes a pa (s.stData m))]
      else storeBytes s.cur s.curSeq m.ac k.ctx.toNat (placeBytes a pa (s.stData m))
      return .next
    | x => do
      firstFail .store [(a, x)]
      throwTrap cNOTMAP a) s

/-! Atomics. -/

/-- The bytes of an atomic, by SZ: 2 only for the BF16 add (R298). -/
def atomBytes (w64 bf : Bool) : Nat := if w64 then 8 else if bf then 2 else 4

/-- Whether an atomic may go to PCIe (R180). -/
def pcieAtomic : Instr → Bool
  | .aadd .. | .axchg .. | .acas .. => true
  | _ => false

/-- Step the generator of the slice that holds `pa` and return its word (R128, R181). -/
def State.stepSlice (s : State) (pa : Nat) : Nat × State :=
  let d := homeDie pa
  let n := homeSlice pa
  let die := s.die d
  let w := xorshift (Store.get (sliceSeed die.l2seed.toNat n) die.sliceGens n)
  (w, s.setDie d { die with sliceGens := Store.insert n w die.sliceGens })

/-- The float sum at the slice (R179): exact, then rounded once. -/
def floatSum (f : FFmt) (rm : Rm) (r a b : Nat) : Nat := (f.encode rm r ((f.decode a).add false (f.decode b)).1).1

/-- The bytes that an atomic covers. -/
def atomLen : Instr → Nat
  | .afadd _ bf _ _ => atomBytes false bf
  | .aadd _ a | .amin _ a | .aminUnsigned _ a | .amax _ a | .amaxUnsigned _ a | .aand _ a | .aor _ a | .axchg _ a
  | .acas _ a => atomBytes a.w64 false
  | _ => 0

/-- The new value of an atomic at `pa` from the old one, its operand and its compare value (R179). -/
def atomNew (i : Instr) (pa old x k : Nat) (s : State) : Nat × State :=
  match i with
  | .aadd _ a => (opAdd (wid a.w64) old x, s)
  | .amin _ a => (opMin false (wid a.w64) old x, s)
  | .aminUnsigned _ a => (opMin true (wid a.w64) old x, s)
  | .amax _ a => (opMax false (wid a.w64) old x, s)
  | .amaxUnsigned _ a => (opMax true (wid a.w64) old x, s)
  | .aand _ _ => (Nat.land old x, s)
  | .aor _ _ => (Nat.lor old x, s)
  | .axchg _ _ => (x, s)
  | .acas _ _ => (if old = k then x else old, s)
  | .afadd _ bf sr _ =>
    if !bf then (floatSum fmtF32 .rne 0 old x, s)
    else if sr then
      let (r, s) := s.stepSlice pa
      (floatSum fmtBF16 .sr r old (x % 65536), s)
    else (floatSum fmtBF16 .rne 0 old (x % 65536), s)
  | _ => (old, s)

/-- A number of host memory, as the host has it. -/
def State.hostRd (s : State) (a : Nat) : Nat → Nat
  | 0 => 0
  | n + 1 => (s.hostByte a).toNat + 256 * s.hostRd (a + 1) n

/-- An atomic carried to the host as an AtomicOp request (R180): host memory changes, and the device's view of the
granules with it, but for bytes that it has still to send. -/
def State.hostAtomic (s : State) (i : Instr) (pa n x k : Nat) : Nat × State :=
  let old := s.hostRd pa n
  let (v, s) := atomNew i pa old x k s
  let s := { s with
    hostMem := Store.setMany memDefault s.hostMem pa (bytesOf v n)
    pcie := s.pcie ++ [PcieMsg.atomicOp i (pa - hostBase) n x k] }
  (old, s.refreshGranule (pa / 8))

/-- The scope of an atomic (R82). -/
def atomScope : Instr → Nat
  | .aadd _ a | .amin _ a | .aminUnsigned _ a | .amax _ a | .amaxUnsigned _ a | .aand _ a | .aor _ a | .axchg _ a
  | .acas _ a | .afadd _ _ _ a => a.scope
  | _ => 0

/-- Whether an atomic goes to the host: a host-half one at scope HOST or SYSTEM (R180). -/
def toHost (i : Instr) (pa : Nat) : Bool := hostBase ≤ pa && 10 ≤ atomScope i

/-- Perform an atomic of core `c` at the home slice, as one publication event, or at the host: the old value (R178, R180,
R299). The core's L1 copy of the line goes (R171). -/
def State.atomAt (s : State) (c : Nat) (i : Instr) (pa x k : Nat) : Nat × State :=
  let n := atomLen i
  if toHost i pa then
    let (old, s) := s.hostAtomic i pa n x k
    (old, (s.sawOwn c (pa / 128 * 128) 128).modCore c (·.l1Drop (pa / 128)))
  else
    let old := s.rd pa n
    let (v, s) := atomNew i pa old x k s
    (old, (((s.publishN pa n v).sawOwn c (pa / 128 * 128) 128).modCore c (·.l1Drop (pa / 128))).requestLine c pa)

/-- Issue an atomic's access: the old value, or none when it is performed late (R178, R223, R299). -/
def atomicVa (i : Instr) (a : AtomF) (x k : Nat) : Op (Option Nat) := do
  let s ← get
  let va := s.effAddr a.bp a.off
  let n := atomLen i
  need (va % n == 0) cALIGN va
  if !s.defers a.ac then needOrder a.ac
  match ← seqXlate .atomic va with
  | .ctl .. => throwTrap cPERM va
  | .ok pa => do
    need (pa < hostBase || a.scope < 10 || pcieAtomic i) cPERM va
    need (!(← get).poisoned pa n) cECC va
    modify (fun s => s.noteRead s.cur va n)
    if s.defers a.ac then do
      deferWork a.ac [.atomic i va pa x k]
      return none
    else do
      let (old, s) := (← get).atomAt s.cur i pa x k
      set s
      return some old
  | x => do
    firstFail .atomic [(va, x)]
    throwTrap cNOTMAP va

/-- An atomic: operand and compare value from RD on, the old value back to RD (R299). -/
def atomInstr (i : Instr) (c : Ctl) (a : AtomF) (cas : Bool) (s : State) : Out :=
  issue i c (preScope a.scope) (baseRegs a.bp ++ srcRegs a.w64 (if cas then [a.rd, a.rd + (if a.w64 then 2 else 1)] else [a.rd])) (do
    let s ← get
    match ← atomicVa i a (s.opnd a.w64 a.rd) (s.opnd a.w64 (a.rd + (if a.w64 then 2 else 1))) with
    | some old => modify (fun s => s.setOpnd a.w64 a.rd old)
    | none => pure ()
    return .next) s

def execAadd (c : Ctl) (a : AtomF) (s : State) : Out := atomInstr (.aadd c a) c a false s
def execAmin (c : Ctl) (a : AtomF) (s : State) : Out := atomInstr (.amin c a) c a false s
def execAminUnsigned (c : Ctl) (a : AtomF) (s : State) : Out := atomInstr (.aminUnsigned c a) c a false s
def execAmax (c : Ctl) (a : AtomF) (s : State) : Out := atomInstr (.amax c a) c a false s
def execAmaxUnsigned (c : Ctl) (a : AtomF) (s : State) : Out := atomInstr (.amaxUnsigned c a) c a false s
def execAand (c : Ctl) (a : AtomF) (s : State) : Out := atomInstr (.aand c a) c a false s
def execAor (c : Ctl) (a : AtomF) (s : State) : Out := atomInstr (.aor c a) c a false s
def execAxchg (c : Ctl) (a : AtomF) (s : State) : Out := atomInstr (.axchg c a) c a false s
def execAcas (c : Ctl) (a : AtomF) (s : State) : Out := atomInstr (.acas c a) c a true s
def execAfadd (c : Ctl) (bf16 sr : Bool) (a : AtomF) (s : State) : Out := atomInstr (.afadd c bf16 sr a) c a false s

end Sys2Proof.Machine
end

