-- ==== Sys2Proof/Machine/Transcend.lean ====
section
/-! DEFINITION. The transcendental functions of R375 in fixed point. A result is a magnitude good to far more bits than
any type keeps, its last bit a sticky 1: by the theorems of Lindemann and Weierstrass no result treated here is
representable, so the magnitude lies strictly between two neighbours, and that decides RNE and both neighbours. -/

namespace Sys2Proof.Machine

/-- The working precision, in bits below the point. -/
def tPrec : Nat := 640

/-- x × 2^p as an integer, rounded down, for a magnitude n ÷ d × 2^e. -/
def toFix (p n d : Nat) (e : Int) : Nat := n * pow2 (e + p) / (d * pow2 (-(e + p)))

/-- A magnitude of x ÷ 2^p with a sticky bit below. -/
def ofFix (neg : Bool) (p x : Nat) : Val := .fin neg (2 * x + 1) 1 (-(p : Int) - 1)

/-- Σ term × x^k ÷ k! from index k on. -/
def expSum (p x : Nat) (k term acc : Nat) : Nat → Nat
  | 0 => acc
  | fuel + 1 => if term = 0 then acc else expSum p x (k + 1) (term * x / 2 ^ p / k) (acc + term) fuel

/-- e^x ÷ 1 in fixed point for 0 ≤ x < 1. -/
def expFix (p x : Nat) : Nat := expSum p x 1 (2 ^ p) 0 400

/-- Σ z^(2k+1) ÷ (2k+1), with `z2` the square of z. -/
def atanhSum (p z2 : Nat) (k pw acc : Nat) : Nat → Nat
  | 0 => acc
  | fuel + 1 => if pw = 0 then acc else atanhSum p z2 (k + 2) (pw * z2 / 2 ^ p) (acc + pw / k) fuel

/-- 2 × artanh(a ÷ b), which is ln((b + a) ÷ (b − a)), for a ÷ b ≤ 1/3. -/
def lnRatio (p a b : Nat) : Nat :=
  let z := a * 2 ^ p / b
  2 * atanhSum p (z * z / 2 ^ p) 1 z 0 400

/-- ln 2. -/
def ln2Fix (p : Nat) : Nat := lnRatio p 1 3

/-- e^±x for a magnitude x: the fixed-point mantissa in [1, 2) and its exponent. -/
def expParts (p : Nat) (neg : Bool) (x : Nat) : Nat × Int :=
  let l := ln2Fix p
  if neg then
    let k := x / l + 1
    (expFix p (k * l - x), -(k : Int))
  else
    let k := x / l
    (expFix p (x - k * l), k)

/-- e^v for a finite non-zero v. Beyond ±1,000 every type overflows or underflows in the same way. -/
def expVal (neg : Bool) (n d : Nat) (e : Int) : Val :=
  if 1000 * d * pow2 (-e) < n * pow2 e then
    (if neg then .fin false 1 1 (-1400) else .fin false 1 1 1400)
  else
    let (m, k) := expParts tPrec neg (toFix tPrec n d e)
    .fin false (2 * m + 1) 1 (k - tPrec - 1)

/-- ln v for a finite v above 0 other than 1. -/
def logVal (n d : Nat) (e : Int) : Val :=
  let x := ilog2 n d e
  let a := n * pow2 (e - x)
  let b := d * pow2 (x - e)
  -- a ÷ b in [1, 2)
  let lm := lnRatio tPrec (a - b) (a + b)
  let l2 := ln2Fix tPrec
  if 0 ≤ x then ofFix false tPrec (x.toNat * l2 + lm)
  else ofFix true tPrec ((-x).toNat * l2 - lm)

/-- tanh of a finite non-zero v. -/
def tanhVal (neg : Bool) (n d : Nat) (e : Int) : Val :=
  if 150 * d * pow2 (-e) < n * pow2 e then ofFix neg tPrec (2 ^ tPrec - 1)
  else
    let (m, k) := expParts tPrec false (2 * toFix tPrec n d e)
    let y := m * 2 ^ k.toNat
    ofFix neg tPrec ((y - 2 ^ tPrec) * 2 ^ tPrec / (y + 2 ^ tPrec))

/-- Σ of the alternating series of artan(1 ÷ q). -/
def atanInv (q2 : Nat) (k pw : Nat) (plus : Bool) (acc : Int) : Nat → Int
  | 0 => acc
  | fuel + 1 =>
    if pw = 0 then acc
    else atanInv q2 (k + 2) (pw / q2) (!plus) (if plus then acc + (pw / k : Nat) else acc - (pw / k : Nat)) fuel

/-- π by Machin's formula. -/
def piFix (p : Nat) : Nat :=
  (16 * atanInv 25 1 (2 ^ p / 5) true 0 600 - 4 * atanInv (239 * 239) 1 (2 ^ p / 239) true 0 600).toNat

/-- The working precision of erf, whose alternating terms grow to e^256. -/
def ePrec : Nat := 1100

/-- Σ (−1)^k x^(2k+1) ÷ (k! (2k+1)). -/
def erfSum (x2 k pw : Nat) (plus : Bool) (acc : Int) : Nat → Int
  | 0 => acc
  | fuel + 1 =>
    if pw = 0 then acc
    else erfSum x2 (k + 1) (pw * x2 / 2 ^ ePrec / (k + 1)) (!plus)
      (if plus then acc + (pw / (2 * k + 1) : Nat) else acc - (pw / (2 * k + 1) : Nat)) fuel

/-- erf of a finite non-zero v. -/
def erfVal (neg : Bool) (n d : Nat) (e : Int) : Val :=
  if 16 * d * pow2 (-e) < n * pow2 e then ofFix neg tPrec (2 ^ tPrec - 1)
  else
    let x := toFix ePrec n d e
    let s := (erfSum (x * x / 2 ^ ePrec) 0 x true 0 1600).toNat
    let rootPi := Nat.sqrt (piFix ePrec * 2 ^ ePrec)
    ofFix neg ePrec (2 * s * 2 ^ ePrec / rootPi)

/-- The six functions of OP 0x55 (R110, R375). -/
inductive TFun where
  | exp | log | rcp | rsq | tanh | erf
  deriving DecidableEq, Repr

/-- The exact result (up to its sticky bit), whether it is transcendental, and the flags of R375's table. -/
def TFun.eval (f : TFun) (v : Val) : Val × Bool × Flags :=
  match f, v with
  | _, .nan => (.nan, false, 0)
  | .exp, .inf s => (if s then .zero false else .inf false, false, 0)
  | .log, .inf s => if s then (.nan, false, fNV) else (.inf false, false, 0)
  | .rcp, .inf s => (.zero s, false, 0)
  | .rsq, .inf s => if s then (.nan, false, fNV) else (.zero false, false, 0)
  | .tanh, .inf s | .erf, .inf s => (.fin s 1 1 0, false, 0)
  | .exp, .fin s n d e => if n = 0 then (.fin false 1 1 0, false, 0) else (expVal s n d e, true, 0)
  | .log, .fin s n d e =>
    if n = 0 then (.inf true, false, fDZ)
    else if s then (.nan, false, fNV)
    else if n * pow2 e = d * pow2 (-e) then (.zero false, false, 0)
    else (logVal n d e, true, 0)
  | .rcp, .fin s n d e => if n = 0 then (.inf s, false, fDZ) else (.fin s d n (-e), false, 0)
  | .rsq, .fin s n d e =>
    if n = 0 then (.inf s, false, fDZ)
    else if s then (.nan, false, fNV)
    else ((Val.fin false d n (-e)).sqrt.1, false, 0)
  | .tanh, .fin s n d e => if n = 0 then (.zero s, false, 0) else (tanhVal s n d e, true, 0)
  | .erf, .fin s n d e => if n = 0 then (.zero s, false, 0) else (erfVal s n d e, true, 0)

/-- Round a result of R375: by RNE, but for a transcendental F32 result the neighbour away from zero when `up`, else the
one towards zero. A result that overflows by RNE is the infinity of R131 whatever the pick (log 5). -/
def TFun.finish (ty : Ty) (up : Bool) (r : Val × Bool × Flags) : Nat × Flags :=
  let (v, tr, fl) := r
  let away : Rm := if v.sign then .rdn else .rup
  let near := ty.ffmt.encode .rne 0 v
  let (p, g) :=
    if tr && ty == .f32 && near.2 &&& fOF == 0 then ty.ffmt.encode (if up then away else .rtz) 0 v else near
  (p, fl ||| g)

end Sys2Proof.Machine
end

