-- ==== Sys2Proof/Machine/Vector.lean ====
section
/-! DEFINITION. The elementwise vector and predicate family, OP 0x40–0x5B, 0x60 and 0x61 (R110, R111, R333, R334, R355,
R362 to R371, R375, R376, R380 to R385). -/

namespace Sys2Proof.Machine

/-! Lanes: one per position, or one per column pair where a 64-bit type takes part (R89, R355). -/

/-- One lane's result: its bits, its flags, its poison. -/
structure Lane where
  v : Nat
  fl : Flags := 0
  po : Bool := false
  deriving DecidableEq, Repr

/-- The column pairs of a register. -/
def pairUp : List Word → List Nat
  | a :: b :: t => (a.toNat + b.toNat * 2 ^ 32) :: pairUp t
  | _ => []

/-- A register as lanes. -/
def rawLanes (wide : Bool) (l : List Word) : List Nat := if wide then pairUp l else l.map (·.toNat)

/-- The position of lane `k`. -/
def lanePos (wide : Bool) (k : Nat) : Nat := if wide then 2 * k else k

/-- The lanes in a row. -/
def lanesPerRow (wide : Bool) : Nat := if wide then 32 else 64

/-- Whether lane `k` is poisoned in a position mask; `pair` counts the odd column too. -/
def lanePoison (wide pair : Bool) (m k : Nat) : Bool :=
  let p := lanePos wide k
  m.testBit p || (wide && pair && m.testBit (p + 1))

/-- Write the governed lanes over the old words; lane `k` is the next. -/
def mergeLanes (wide : Bool) (gov : Nat) : Nat → List Word → List Lane → List Word
  | k, a :: b :: t, r :: rs =>
    if wide then
      if gov.testBit (2 * k) then
        BitVec.ofNat 32 r.v :: BitVec.ofNat 32 (r.v / 2 ^ 32) :: mergeLanes wide gov (k + 1) t rs
      else a :: b :: mergeLanes wide gov (k + 1) t rs
    else (if gov.testBit k then BitVec.ofNat 32 r.v else a) :: mergeLanes wide gov (k + 1) (b :: t) rs
  | k, [a], r :: _ => [if !wide && gov.testBit k then BitVec.ofNat 32 r.v else a]
  | _, l, _ => l

/-- Lanes with their numbers. -/
def governed (wide : Bool) (gov : Nat) (rs : List Lane) : List (Lane × Nat) :=
  rs.zipIdx.filter (fun p => gov.testBit (lanePos wide p.2))

/-- The even positions. -/
def evenPos : Nat := (2 ^ 1024 - 1) / 3

/-- The positions that lanes under `gov` cover. -/
def govSpread (wide : Bool) (gov : Nat) : Nat :=
  if wide then Nat.land gov evenPos * 3 else Nat.land gov allPos

/-- The mask of the poisoned lanes among the governed ones; `both` marks the odd column too. -/
def poisonMask (wide both : Bool) (gov : Nat) (rs : List Lane) : Nat :=
  ((governed wide gov rs).filter (·.1.po)).foldl (fun m p =>
    m + (if wide && both then 3 else 1) * 2 ^ lanePos wide p.2) 0

/-- Clear the bits of `g` in `m` and set those of `n`. -/
def maskPut (m g n : Nat) : Nat := Nat.lor (m - Nat.land m g) n

/-- Write lanes to Vd under a predicate's mask, with their poison (R89, R282). -/
def Core.writeLanes (c : Core) (wide both : Bool) (vd gov : Nat) (rs : List Lane) : Core :=
  c.vset vd (mergeLanes wide gov 0 (c.vget vd) rs)
    (maskPut (c.vpo vd) (govSpread wide gov) (poisonMask wide both gov rs))

/-- The flags of the governed lanes (R134). -/
def laneFlags (wide : Bool) (gov : Nat) (rs : List Lane) : Flags := orAll ((governed wide gov rs).map (·.1.fl))

/-- Step converter `conv` once a row, `n` rows: the words (R128). -/
def State.stepRows (s : State) (c conv : Nat) : Nat → List Nat × State
  | 0 => ([], s)
  | n + 1 =>
    let (w, s) := s.stepGen c conv
    let (ws, s) := State.stepRows s c conv n
    (w :: ws, s)

/-- The row words of a vector instruction: 16 steps of converter 0 for SR, none otherwise (R355). -/
def State.rowWords (s : State) (rm : Rm) : List Nat × State :=
  if rm == .sr then s.stepRows s.cur 0 16 else ([], s)

/-- The generator word of a position: its row's, rotated by its column (R128). -/
def laneWord (rows : List Nat) (p : Nat) : Nat := rotl32 (rows.getD (p / 64) 0) (p % 64 % 32)

/-- The pattern a type reads of a lane (R355). -/
def tyCut (t : Ty) (x : Nat) : Nat := x % 2 ^ t.bits

/-- Write lanes and flags in the core that runs. -/
def State.putLanes (s : State) (wide both : Bool) (vd gov : Nat) (rs : List Lane) : State :=
  (s.modMe (fun k => k.writeLanes wide both vd gov rs)).addFlags (laneFlags wide gov rs)

/-- An elementwise operation of type `t`: `g` has the lane's generator word and the patterns of the operands. A field
that the instruction does not use is given as a copy of VA. -/
def vecOp (t : Ty) (rm : Rm) (vd va vb vc pr : RReg) (g : Nat → Nat → Nat → Nat → Nat × Flags) (s : State) : State :=
  let x := s.mySeq
  let k := s.me
  let w := t.is64
  let (rows, s) := s.rowWords rm
  let a := x.vreg va
  let b := x.vreg vb
  let c := x.vreg vc
  let po := Nat.lor (Nat.lor (k.vpo a) (k.vpo b)) (k.vpo c)
  let ops := (rawLanes w (k.vget a)).zip ((rawLanes w (k.vget b)).zip (rawLanes w (k.vget c)))
  let rs := ops.zipIdx.map (fun p =>
    let r := g (laneWord rows (lanePos w p.2)) (tyCut t p.1.1) (tyCut t p.1.2.1) (tyCut t p.1.2.2)
    ({ v := t.extend r.1, fl := r.2, po := lanePoison w true po p.2 } : Lane))
  s.putLanes w true (x.vreg vd) (k.pget (x.preg pr)) rs

/-- Three-operand form. -/
def vec2 (f : VF) (rm : Rm) (g : Nat → Nat → Nat → Nat × Flags) : State → State :=
  vecOp f.ty rm f.vd f.va f.vb f.va f.pr (fun r a b _ => g r a b)

/-- Two-operand form. -/
def vec1 (f : VF2) (rm : Rm) (g : Nat → Nat → Nat × Flags) : State → State :=
  vecOp f.ty rm f.vd f.va f.va f.va f.pr (fun r a _ _ => g r a)

/-! Arithmetic (R362, R363). -/

/-- An integer result at the type's width: wrapped, or clamped with SAT (R135, R363). -/
def intRes (t : Ty) (sat : Bool) (x : Int) : Nat × Flags :=
  (uint t.bits (if sat then clampInt t.range.1 t.range.2 x else x), 0)

/-- Addition, subtraction and multiplication of a type. -/
def arith (t : Ty) (rm : Rm) (sat : Bool) (fi : Int → Int → Int) (ff : Val → Val → Val × Flags) (r a b : Nat) :
    Nat × Flags :=
  if t.isFloat then t.round rm r (ff (t.val a) (t.val b)) else intRes t sat (fi (t.int a) (t.int b))

def execVadd (c : Ctl) (rm : Rm) (sat : Bool) (f : VF) (s : State) : Out :=
  issue (.vadd c rm sat f) c noPre [] (simple (vec2 f rm (arith f.ty rm sat (· + ·) (Val.add (rm == .rdn))))) s
def execVsub (c : Ctl) (rm : Rm) (sat : Bool) (f : VF) (s : State) : Out :=
  issue (.vsub c rm sat f) c noPre []
    (simple (vec2 f rm (arith f.ty rm sat (· - ·) (fun a b => a.add (rm == .rdn) b.neg)))) s
def execVmul (c : Ctl) (rm : Rm) (sat : Bool) (f : VF) (s : State) : Out :=
  issue (.vmul c rm sat f) c noPre [] (simple (vec2 f rm (arith f.ty rm sat (· * ·) Val.mul))) s

def execVfma (c : Ctl) (rm : Rm) (f : VF) (vc : RReg) (s : State) : Out :=
  issue (.vfma c rm f vc) c noPre []
    (simple (vecOp f.ty rm f.vd f.va f.vb vc f.pr (fun r a b d =>
      f.ty.round rm r (Val.fma (rm == .rdn) (f.ty.val a) (f.ty.val b) (f.ty.val d))))) s

/-- Minimum or maximum of a type (R132, R362). -/
def minmaxTy (isMax : Bool) (t : Ty) (a b : Nat) : Nat × Flags :=
  if t.isFloat then t.round .rne 0 (Val.minmax isMax (t.val a) (t.val b))
  else
    let x := t.int a
    let y := t.int b
    (uint t.bits (if isMax then max x y else min x y), 0)

def execVmin (c : Ctl) (f : VF) (s : State) : Out :=
  issue (.vmin c f) c noPre [] (simple (vec2 f .rne (fun _ a b => minmaxTy false f.ty a b))) s
def execVmax (c : Ctl) (f : VF) (s : State) : Out :=
  issue (.vmax c f) c noPre [] (simple (vec2 f .rne (fun _ a b => minmaxTy true f.ty a b))) s

/-- VABS and VNEG: only the sign changes, a NaN gives the canonical NaN, no flag (R363). -/
def signTy (t : Ty) (sat : Bool) (fi : Int → Int) (ff : Val → Val) (a : Nat) : Nat × Flags :=
  if t.isFloat then ((t.ffmt.encode .rne 0 (ff (t.val a))).1, 0) else intRes t sat (fi (t.int a))

def execVabs (c : Ctl) (rm : Rm) (sat : Bool) (f : VF2) (s : State) : Out :=
  issue (.vabs c rm sat f) c noPre []
    (simple (vec1 f rm (fun _ a => signTy f.ty sat (fun x => (x.natAbs : Int)) Val.abs a))) s
def execVneg (c : Ctl) (rm : Rm) (sat : Bool) (f : VF2) (s : State) : Out :=
  issue (.vneg c rm sat f) c noPre [] (simple (vec1 f rm (fun _ a => signTy f.ty sat (fun x => -x) Val.neg a))) s

/-! Logic and shifts (R365, R384). -/

def execVand (c : Ctl) (f : VF) (s : State) : Out :=
  issue (.vand c f) c noPre [] (simple (vec2 f .rne (fun _ a b => (Nat.land a b, 0)))) s
def execVor (c : Ctl) (f : VF) (s : State) : Out :=
  issue (.vor c f) c noPre [] (simple (vec2 f .rne (fun _ a b => (Nat.lor a b, 0)))) s
def execVxor (c : Ctl) (f : VF) (s : State) : Out :=
  issue (.vxor c f) c noPre [] (simple (vec2 f .rne (fun _ a b => (Nat.xor a b, 0)))) s
def execVshl (c : Ctl) (f : VF) (s : State) : Out :=
  issue (.vshl c f) c noPre [] (simple (vec2 f .rne (fun _ a b => (opShl f.ty.bits a b, 0)))) s
def execVshr (c : Ctl) (f : VF) (s : State) : Out :=
  issue (.vshr c f) c noPre [] (simple (vec2 f .rne (fun _ a b => (opShr f.ty.bits a b, 0)))) s
def execVsra (c : Ctl) (f : VF) (s : State) : Out :=
  issue (.vsra c f) c noPre [] (simple (vec2 f .rne (fun _ a b => (opSra f.ty.bits a b, 0)))) s

/-! Compare, select, move (R368, R380, R383). -/

/-- Whether A cond B holds between elements of a type (R368). -/
def cmpTy (t : Ty) (k : Cond) (a b : Nat) : Bool :=
  if t.isFloat then condVal k (t.val a) (t.val b) else condInt k (t.int a) (t.int b)

def execVcmp (c : Ctl) (cond : Cond) (f : VF) (s : State) : Out :=
  issue (.vcmp c cond f) c noPre [] (simple (fun s =>
    let x := s.mySeq
    let k := s.me
    let w := f.ty.is64
    let ops := (rawLanes w (k.vget (x.vreg f.va))).zip (rawLanes w (k.vget (x.vreg f.vb)))
    let gov := k.pget (x.preg f.pr)
    let rs := ops.map (fun p => ({ v := 0, po := cmpTy f.ty cond (tyCut f.ty p.1) (tyCut f.ty p.2) } : Lane))
    let pd := x.preg f.vd
    s.modMe (fun k => k.pset pd (maskPut (k.pget pd) (govSpread w gov) (poisonMask w true gov rs))))) s

/-- The two elements of VSEL by the selector's bit, its poison with it (R383). -/
def execVsel (c : Ctl) (f : VF) (s : State) : Out :=
  issue (.vsel c f) c noPre [] (simple (fun s =>
    let x := s.mySeq
    let k := s.me
    let w := f.ty.is64
    let a := x.vreg f.va
    let b := x.vreg f.vb
    let selr := k.pget (x.preg f.pr)
    let rs := ((rawLanes w (k.vget a)).zip (rawLanes w (k.vget b))).zipIdx.map (fun p =>
      let one := selr.testBit (lanePos w p.2)
      ({ v := f.ty.extend (tyCut f.ty (if one then p.1.1 else p.1.2)),
         po := lanePoison w true (if one then k.vpo a else k.vpo b) p.2 } : Lane))
    s.putLanes w true (x.vreg f.vd) allPos rs)) s

/-- VCVT (R369): lanes are column pairs where either type has 64 bits. -/
def execVcvt (c : Ctl) (dst : Ty) (rm : Rm) (f : VF2) (s : State) : Out :=
  issue (.vcvt c dst rm f) c noPre [] (simple (fun s =>
    let x := s.mySeq
    let k := s.me
    let w := f.ty.is64 || dst.is64
    let (rows, s) := s.rowWords rm
    let a := x.vreg f.va
    let rs := (rawLanes w (k.vget a)).zipIdx.map (fun p =>
      let r := f.ty.convert dst rm (laneWord rows (lanePos w p.2)) (tyCut f.ty p.1)
      ({ v := dst.extend r.1, fl := r.2, po := lanePoison w f.ty.is64 (k.vpo a) p.2 } : Lane))
    s.putLanes w dst.is64 (x.vreg f.vd) (k.pget (x.preg f.pr)) rs)) s

def execVmov (c : Ctl) (f : VF2) (s : State) : Out :=
  issue (.vmov c f) c noPre [] (simple (vec1 f .rne (fun _ a => (a, 0)))) s

/-- VMOVI writes every position (R111, R380). -/
def execVmovi (c : Ctl) (ty : Ty) (vd : Nat) (imm : BitVec 24) (s : State) : Out :=
  issue (.vmovi c ty vd imm) c noPre [] (simple (fun s =>
    let w : Word := if ty == .i32 || ty == .n32 then imm.signExtend 32 else imm ++ (0 : BitVec 8)
    s.modMe (fun k => k.vset vd (List.replicate 1024 w) 0))) s

/-- The position that VGET and VPUT name (R376). -/
def State.vpos (s : State) (ty : Ty) (p : Nat) : Nat :=
  let q := (s.g p).toNat % 1024
  if ty.is64 then q / 2 * 2 else q

def execVget (c : Ctl) (ty : Ty) (g : Nat) (v : RReg) (p : Nat) (s : State) : Out :=
  issue (.vget c ty g v p) c noPre [p] (do
    let s ← get
    let n := s.mySeq.vreg v
    let q := s.vpos ty p
    need (!((s.me.vpo n).testBit q || (ty.is64 && (s.me.vpo n).testBit (q + 1)))) cECC (0xFFFE000000000000 + q)
    let l := s.me.vget n
    let lo := (l.getD q 0).toNat
    let x := if ty.is64 then lo + (l.getD (q + 1) 0).toNat * 2 ^ 32 else lo
    set (s.setOpnd ty.is64 g (ty.extend (tyCut ty x)))
    return .next) s

def execVput (c : Ctl) (ty : Ty) (g : Nat) (v : RReg) (p : Nat) (s : State) : Out :=
  issue (.vput c ty g v p) c noPre (srcRegs ty.is64 [g] ++ [p]) (simple (fun s =>
    let n := s.mySeq.vreg v
    let q := s.vpos ty p
    let x := ty.extend (tyCut ty (s.opnd ty.is64 g))
    s.modMe (fun k =>
      let l := (k.vget n).set q (BitVec.ofNat 32 x)
      if ty.is64 then k.vset n (l.set (q + 1) (BitVec.ofNat 32 (x / 2 ^ 32))) (maskPut (k.vpo n) (3 * 2 ^ q) 0)
      else k.vset n l (maskPut (k.vpo n) (2 ^ q) 0)))) s

/-! Transcendentals (R375). -/

/-- The number under which a function's picks stand in Config (log 5). -/
def TFun.num : TFun → Nat
  | .exp => 0 | .log => 1 | .rcp => 2 | .rsq => 3 | .tanh => 4 | .erf => 5

def transTy (fn : TFun) (t : Ty) (a : Nat) : Nat × Flags :=
  TFun.finish t (Config.pickUp fn.num a) (fn.eval (t.val a))

def transInstr (i : Instr) (c : Ctl) (fn : TFun) (f : VF2) (s : State) : Out :=
  issue i c noPre [] (simple (vec1 f .rne (fun _ a => transTy fn f.ty a))) s

def execVexp (c : Ctl) (f : VF2) (s : State) : Out := transInstr (.vexp c f) c .exp f s
def execVlog (c : Ctl) (f : VF2) (s : State) : Out := transInstr (.vlog c f) c .log f s
def execVrcp (c : Ctl) (f : VF2) (s : State) : Out := transInstr (.vrcp c f) c .rcp f s
def execVrsq (c : Ctl) (f : VF2) (s : State) : Out := transInstr (.vrsq c f) c .rsq f s
def execVtanh (c : Ctl) (f : VF2) (s : State) : Out := transInstr (.vtanh c f) c .tanh f s
def execVerf (c : Ctl) (f : VF2) (s : State) : Out := transInstr (.verf c f) c .erf f s

/-! The axis family (R366, R367), VTRN16 and VAMAX (R364, R385). -/

/-- The source lanes of a two-operand instruction, as the type reads them, with their poison. -/
def srcLanes (s : State) (f : VF2) : List Lane :=
  let w := f.ty.is64
  let a := s.mySeq.vreg f.va
  (rawLanes w (s.me.vget a)).zipIdx.map (fun p =>
    ({ v := tyCut f.ty p.1, po := lanePoison w true (s.me.vpo a) p.2 } : Lane))

/-- Write the lanes that `g` gives to each lane number. -/
def State.putByLane (s : State) (f : VF2) (g : Nat → Lane) : State :=
  let x := s.mySeq
  let w := f.ty.is64
  let rs := (List.range (16 * lanesPerRow w)).map (fun k => let r := g k; { r with v := f.ty.extend r.v })
  s.putLanes w true (x.vreg f.vd) (s.me.pget (x.preg f.pr)) rs

/-- Each lane takes the source lane at (row, column) that `g` names. -/
def vecMove (f : VF2) (g : Nat → Nat → Nat × Nat) (s : State) : State :=
  let n := lanesPerRow f.ty.is64
  let src := srcLanes s f
  s.putByLane f (fun k =>
    let (i, j) := g (k / n) (k % n)
    src.getD (n * i + j) ⟨0, 0, false⟩)

def execVrrot (c : Ctl) (amt : Nat) (f : VF2) (s : State) : Out :=
  issue (.vrrot c amt f) c noPre [] (simple (vecMove f (fun i j => ((i + amt) % 16, j)))) s
def execVrbc (c : Ctl) (amt : Nat) (f : VF2) (s : State) : Out :=
  issue (.vrbc c amt f) c noPre [] (simple (vecMove f (fun _ j => (amt, j)))) s
def execVcrot (c : Ctl) (amt : Nat) (f : VF2) (s : State) : Out :=
  issue (.vcrot c amt f) c noPre [] (simple (vecMove f (fun i j => (i, (j + amt) % lanesPerRow f.ty.is64)))) s
def execVcbc (c : Ctl) (amt : Nat) (f : VF2) (s : State) : Out :=
  issue (.vcbc c amt f) c noPre [] (simple (vecMove f (fun i _ => (i, amt)))) s
def execVtrn16 (c : Ctl) (f : VF2) (s : State) : Out :=
  issue (.vtrn16 c f) c noPre [] (simple (vecMove f (fun i j => (j % 16, j / 16 * 16 + i)))) s

/-- One level of the pairwise tree of R136. -/
def treeLevel {α : Type} (g : α → α → α) : List α → List α
  | a :: b :: t => g a b :: treeLevel g t
  | l => l

/-- The pairwise tree over 2^n values. -/
def treeFold {α : Type} (g : α → α → α) : Nat → List α → List α
  | 0, l => l
  | n + 1, l => treeFold g n (treeLevel g l)

/-- A partial of a reduction, with the flags and the poison of what it is formed from (R136, R367). -/
def redPartial (t : Ty) (op : RedOp) (a b : Lane) : Lane :=
  let r := match op with
    | .add => arith t .rne false (· + ·) (Val.add false) 0 a.v b.v
    | .min => minmaxTy false t a.v b.v
    | .max => minmaxTy true t a.v b.v
  ⟨r.1, a.fl ||| b.fl ||| r.2, a.po || b.po⟩

/-- The reduction of 2^n lanes. -/
def reduceLanes (t : Ty) (op : RedOp) (n : Nat) (l : List Lane) : Lane :=
  (treeFold (redPartial t op) n l).headD ⟨0, 0, false⟩

/-- Row `i` of lanes. -/
def laneRow (n : Nat) (l : List Lane) (i : Nat) : List Lane := (l.drop (n * i)).take n

/-- Column `j` of lanes. -/
def laneCol (n : Nat) (l : List Lane) (j : Nat) : List Lane :=
  (List.range 16).map (fun i => l.getD (n * i + j) ⟨0, 0, false⟩)

def execVrred (c : Ctl) (op : RedOp) (f : VF2) (s : State) : Out :=
  issue (.vrred c op f) c noPre [] (simple (fun s =>
    let n := lanesPerRow f.ty.is64
    let src := srcLanes s f
    let sums := (List.range n).map (fun j => reduceLanes f.ty op 4 (laneCol n src j))
    s.putByLane f (fun k => sums.getD (k % n) ⟨0, 0, false⟩))) s

def execVcred (c : Ctl) (op : RedOp) (f : VF2) (s : State) : Out :=
  issue (.vcred c op f) c noPre [] (simple (fun s =>
    let n := lanesPerRow f.ty.is64
    let src := srcLanes s f
    let sums := (List.range 16).map (fun i => reduceLanes f.ty op (if f.ty.is64 then 5 else 6) (laneRow n src i))
    s.putByLane f (fun k => sums.getD (k / n) ⟨0, 0, false⟩))) s

/-- The largest |x| of a set of float lanes, NaNs left out (R364). -/
def amaxOf (t : Ty) (l : List Lane) : Lane :=
  l.foldl (fun m x =>
    let v := if (t.val x.v).isNan then 0 else x.v % 2 ^ (t.bits - 1)
    ⟨max m.v v, 0, m.po || x.po⟩) ⟨0, 0, false⟩

def execVamax (c : Ctl) (m : AmaxSet) (f : VF2) (s : State) : Out :=
  issue (.vamax c m f) c noPre [] (simple (fun s =>
    let n := match m with
      | .row => 64
      | .blk => 32
      | .all => 1024
    let src := srcLanes s f
    let sets := (List.range (1024 / n)).map (fun i => amaxOf f.ty (laneRow n src i))
    s.putByLane f (fun k => sets.getD (k / n) ⟨0, 0, false⟩))) s

/-! Quantisation (R370, R371). -/

/-- VQNT of one lane. -/
def quantTy (t : Ty) (fmt : Nat) (rm : Rm) (r a sc : Nat) : Nat × Flags :=
  let x := t.val a
  let y := t.val sc
  let (q, f) := x.div y
  let (p, g) := fmtEncode fmt rm r q
  (fmtExtend fmt p, f ||| g ||| flagIf (x.isNan || y.isNan) fNV)

/-- VDQNT of one lane. -/
def dequantTy (t : Ty) (fmt a sc : Nat) : Nat × Flags :=
  let (x, f) := fmtDecode fmt (a % 2 ^ fmtBits fmt)
  let (p, g) := t.round .rne 0 (x.mul (t.val sc))
  (p, f ||| g)

/-- VQNT writes its pattern as a 32-bit element; VDQNT reads one (R371). Both keep the lanes of the other type. -/
def vecQuant (f : VF) (rm : Rm) (out : Bool) (g : Nat → Nat → Nat → Nat × Flags) (s : State) : State :=
  let x := s.mySeq
  let k := s.me
  let (rows, s) := s.rowWords rm
  let a := x.vreg f.va
  let b := x.vreg f.vb
  let po := Nat.lor (k.vpo a) (k.vpo b)
  let rs := ((rawLanes false (k.vget a)).zip (rawLanes false (k.vget b))).zipIdx.map (fun p =>
    let r := g (laneWord rows p.2) (if out then tyCut f.ty p.1.1 else p.1.1) (tyCut f.ty p.1.2)
    ({ v := r.1, fl := r.2, po := lanePoison false false po p.2 } : Lane))
  s.putLanes false false (x.vreg f.vd) (k.pget (x.preg f.pr)) rs

def execVqnt (c : Ctl) (fmt : Nat) (rm : Rm) (f : VF) (s : State) : Out :=
  issue (.vqnt c fmt rm f) c (preFmt fmt) [] (simple (vecQuant f rm true (quantTy f.ty fmt rm))) s
def execVdqnt (c : Ctl) (fmt : Nat) (f : VF) (s : State) : Out :=
  issue (.vdqnt c fmt f) c (preFmt fmt) [] (simple (vecQuant f .rne false (fun _ a b => dequantTy f.ty fmt a b))) s

/-! The fused optimiser step (R283, R381, R382). -/

/-- Round to F32 by RNE and read the result back. -/
def rne32 (x : Val × Flags) : Val × Flags :=
  let (p, f) := Ty.f32.round .rne 0 x
  (fmtF32.decode p, f)

/-- a × b + c × d, exact (R382). -/
def dot2 (a b c d : Val) : Val × Flags :=
  if a.isNan || b.isNan || c.isNan || d.isNan then (.nan, 0)
  else
    let (p, f) := a.mul b
    let (q, g) := c.mul d
    let (t, h) := p.add false q
    (t, f ||| g ||| h)

/-- The eight scalars of VOPTW (R381). -/
structure OptPar where
  lr : Val
  b1 : Val
  b2 : Val
  eps : Val
  lam : Val
  c1 : Val
  c2 : Val
  sc : Val
  deriving DecidableEq, Repr

/-- One lane of VOPTW: weight, first and second moment as patterns, and the flags (R382). -/
def optLane (t : Ty) (rm : Rm) (r : Nat) (p : OptPar) (w m v grad : Nat) : Nat × Nat × Nat × Flags :=
  let one : Val := .ofInt 1
  let wv := t.val w
  let (g, f1) := rne32 (p.sc.mul (t.val grad))
  let (k1, f2) := rne32 (one.add false p.b1.neg)
  let (m1, f3) := rne32 (dot2 p.b1 (Ty.f32.val m) k1 g)
  let (g2, f4) := rne32 (g.mul g)
  let (k2, f5) := rne32 (one.add false p.b2.neg)
  let (v1, f6) := rne32 (dot2 p.b2 (Ty.f32.val v) k2 g2)
  let (a, f7) := rne32 (v1.mul p.c2)
  let (b, f8) := rne32 a.sqrt
  let (den, f9) := rne32 (b.add false p.eps)
  let (n, f10) := rne32 (m1.mul p.c1)
  let (u, f11) := rne32 (n.div den)
  let (u2, f12) := rne32 (Val.fma false p.lam wv u)
  let (w1, f13) := t.round rm r (Val.fma false p.lr.neg u2 wv)
  (w1, (fmtF32.encode .rne 0 m1).1, (fmtF32.encode .rne 0 v1).1,
    orAll [f1, f2, f3, f4, f5, f6, f7, f8, f9, f10, f11, f12, f13])

/-- Three destinations' lanes from the list of results. -/
def execVoptw (c : Ctl) (sr : Bool) (grp : Nat) (f : VF) (vc : RReg) (s : State) : Out :=
  issue (.voptw c sr grp f vc) c noPre ((List.range 8).map (fun i => 8 * grp + i)) (simple (fun s =>
    let x := s.mySeq
    let k := s.me
    let rm : Rm := if sr then .sr else .rne
    let (rows, s) := s.rowWords rm
    let gv (i : Nat) : Val := fmtF32.decode (s.g (8 * grp + i)).toNat
    let par : OptPar := ⟨gv 0, gv 1, gv 2, gv 3, gv 4, gv 5, gv 6, gv 7⟩
    let vd := x.vreg f.vd
    let va := x.vreg f.va
    let vb := x.vreg f.vb
    let vg := x.vreg vc
    let gov := Nat.land (k.pget (x.preg f.pr)) allPos
    let bad := Nat.land gov (Nat.lor (Nat.lor (k.vpo vd) (k.vpo va)) (Nat.lor (k.vpo vb) (k.vpo vg)))
    let go := gov - bad
    let raw (n : Nat) := rawLanes false (k.vget n)
    let rs := ((raw vd).zip ((raw va).zip ((raw vb).zip (raw vg)))).zipIdx.map (fun p =>
      optLane f.ty rm (laneWord rows p.2) par (tyCut f.ty p.1.1) p.1.2.1 p.1.2.2.1 (tyCut f.ty p.1.2.2.2))
    let put (n : Nat) (l : List Lane) (k : Core) : Core :=
      let k := k.writeLanes false false n go l
      { k with vPoison := Store.set 0 k.vPoison n (Nat.lor (k.vpo n) bad) }
    let s := s.modMe (fun k =>
      let k := put vb (rs.map (fun r => ⟨r.2.2.1, 0, false⟩)) k
      let k := put va (rs.map (fun r => ⟨r.2.1, 0, false⟩)) k
      let k := put vd (rs.map (fun r => ⟨r.1, 0, false⟩)) k
      { k with deferred := Nat.lor k.deferred bad })
    s.addFlags (laneFlags false go (rs.map (fun r => ⟨0, r.2.2.2, false⟩))))) s

/-! Predicates (R333, R334). -/

/-- Write the governed bits of Pd. -/
def State.putPred (s : State) (pd pr : RReg) (v : Nat) : State :=
  let x := s.mySeq
  let gov := Nat.land (s.me.pget (x.preg pr)) allPos
  s.modMe (fun k => k.pset (x.preg pd) (maskPut (k.pget (x.preg pd)) gov (Nat.land v gov)))

/-- The predicate that a field reads. -/
def State.predOf (s : State) (r : RReg) : Nat := s.me.pget (s.mySeq.preg r)

def execPand (c : Ctl) (pd pa pb pr : RReg) (s : State) : Out :=
  issue (.pand c pd pa pb pr) c noPre [] (simple (fun s => s.putPred pd pr (Nat.land (s.predOf pa) (s.predOf pb)))) s
def execPor (c : Ctl) (pd pa pb pr : RReg) (s : State) : Out :=
  issue (.por c pd pa pb pr) c noPre [] (simple (fun s => s.putPred pd pr (Nat.lor (s.predOf pa) (s.predOf pb)))) s
def execPnot (c : Ctl) (pd pa pr : RReg) (s : State) : Out :=
  issue (.pnot c pd pa pr) c noPre [] (simple (fun s => s.putPred pd pr (Nat.xor (s.predOf pa) allPos))) s

/-- 64 bits repeated over the 16 rows. -/
def rowsOf (m : Nat) : Nat := m % 2 ^ 64 * (allPos / (2 ^ 64 - 1))

/-- PSET names a stream, which must be the X-seq's (R91, R334). -/
def execPset (c : Ctl) (pd : RReg) (n : Nat) (pr : RReg) (s : State) : Out :=
  issue (.pset c pd n pr) c noPre [] (do
    let s ← get
    need ((s.me.stream n).own == s.curSeq) cSEQCLASS n
    set (s.putPred pd pr (rowsOf (Store.get 0 s.me.srm n).toNat))
    return .next) s

end Sys2Proof.Machine
end

