-- ==== Sys2Proof/Machine/VecMem.lean ====
section
/-! DEFINITION. Vector memory, OP 0x5C–0x5F (R111, R377 to R379, R207, R208, R282). -/

namespace Sys2Proof.Machine

/-- One governed element: its position, its address and its bytes. -/
structure VElem where
  pos : Nat
  va : Nat
  align : Nat
  deriving DecidableEq, Repr

/-- The governed positions in position order: for a 64-bit type both columns of a governed pair (R378). -/
def govPositions (t : Ty) (gov : Nat) : List Nat :=
  (List.range 1024).filter (fun p => gov.testBit (if t.is64 then p / 2 * 2 else p))

/-- The elements of an access with row pitch P (R378). -/
def vecElems (t : Ty) (base : Nat) (pitch : Int) (gov : Nat) : List VElem :=
  let w := t.colBytes
  (govPositions t gov).map (fun p =>
    ⟨p, uint 64 ((base : Int) + (p / 64 : Nat) * pitch + (p % 64 : Nat) * w),
      if t.is64 && p % 2 == 0 then 8 else w⟩)

/-- The row pitch: 64 × w, or the pitch register (R377). -/
def State.rowPitch (s : State) (t : Ty) (b : Nat) (pitched : Bool) : Int :=
  if pitched then (s.g (2 * b + 2)).toInt else (64 * t.colBytes : Nat)

/-- An element that traps: its cause; a control-space address traps PERM (R378). -/
def elemCause (acc : Acc) (res : Bool) (x : Xlat) : Option Nat :=
  match x with
  | .ctl .. => some cPERM
  | .nonres => if res then none else xlCause acc .nonres
  | x => xlCause acc x

/-- The first element in position order that fails traps; before it, one that the host has not answered for waits, and
a page being migrated makes the whole access wait (R198, R219, R278, R378). -/
def checkElems (acc : Acc) (res : Bool) (l : List (VElem × Xlat)) : Op Unit := do
  match l.find? (fun p => (elemCause acc res p.2).isSome || p.2 == .pend) with
  | some (e, x) =>
    match elemCause acc res x with
    | some k => throwTrap k e.va
    | none => throwWait
  | none => if l.any (fun p => p.2 == .mig) then throwWait

/-- Align and translate every governed element; they lie in one half (R194, R378). -/
def vecXlate (acc : Acc) (res : Bool) (es : List VElem) : Op (List (VElem × Xlat)) := do
  match es.find? (fun e => e.va % e.align != 0) with
  | some e => throwTrap cALIGN e.va
  | none => pure ()
  match es with
  | e :: t => need (!t.any (fun x => crossesHalf e.va x.va)) cNOTMAP e.va
  | [] => pure ()
  let l ← collect es (fun e => do return (e, ← seqXlate acc e.va))
  checkElems acc res l
  return l

/-- The granules of a list of physical addresses, each read once (R225). -/
def granulesAt (c : Nat) : List Nat → Op (Store DWord)
  | [] => pure []
  | g :: t => do
    let v ← granuleLoad c g
    return Store.insert g v (← granulesAt c t)

/-- The bytes of one element from the granules read, the core's own bytes merged over them (R222, R282). -/
def State.elemBytes (s : State) (c : Nat) (m : Store DWord) (pa n : Nat) : List RByte :=
  (List.range n).map (fun i =>
    let a := pa + i
    (s.core c).ownOver a ((Store.get 0 m (a / 8)).extractLsb' (8 * (a % 8)) 8, Store.get false s.poison (a / 8)))

/-- What an element reads: its position, whether its page is resident, and its word with poison. -/
structure Loaded where
  pos : Nat
  res : Bool
  v : Nat
  po : Bool
  deriving DecidableEq, Repr

/-- What an element with these bytes reads. -/
def loadedElem (t : Ty) (pos : Nat) (bs : List RByte) : Loaded :=
  ⟨pos, true, if t.is64 then rbytesNat bs else t.extend (rbytesNat bs), anyPoison bs⟩

/-- Read elements by position and physical address; one that has no page reads zero (R208, R222). -/
def readElems (c : Nat) (t : Ty) (l : List (Nat × Option Nat)) : Op (List Loaded) := do
  let pas := l.filterMap (·.2)
  let m ← granulesAt c ((pas.map (· / 8)).eraseDups)
  modify (fun s => s.loadLines c pas)
  let s ← get
  return l.map (fun p => match p.2 with
    | some pa => loadedElem t p.1 (s.elemBytes c m pa t.colBytes)
    | none => ⟨p.1, false, 0, false⟩)

/-- The position and page of each element. -/
def elemPlaces (l : List (VElem × Xlat)) : List (Nat × Option Nat) :=
  l.map (fun p => (p.1.pos, match p.2 with
    | .ok pa => some pa
    | _ => none))

/-- The read set of a vector load (R262). -/
def noteElems (t : Ty) (l : List (VElem × Xlat)) : Op Unit :=
  forAll l (fun p => modify (fun s => s.noteRead s.cur p.1.va t.colBytes))

/-- Words of a register replaced at rising positions; `k` is the position of the head. -/
def putLoaded : Nat → List Word → List Loaded → List Word
  | _, l, [] => l
  | _, [], _ => []
  | k, w :: ws, e :: es =>
    if e.pos = k then BitVec.ofNat 32 e.v :: putLoaded (k + 1) ws es else w :: putLoaded (k + 1) ws (e :: es)

/-- A mask of positions. -/
def posMask (l : List Nat) : Nat := l.foldl (fun m p => m + 2 ^ p) 0

/-- Write what was read into Vd. -/
def Core.putVec (c : Core) (vd : Nat) (l : List Loaded) : Core :=
  c.vset vd (putLoaded 0 (c.vget vd) l)
    (maskPut (c.vpo vd) (posMask (l.map (·.pos))) (posMask ((l.filter (·.po)).map (·.pos))))

/-- The registers after a vector load: Vd, and for VLDM the residency predicate (R208, R378). -/
def Core.putLoads (c : Core) (vd : Nat) (pq : Option Nat) (ld : List Loaded) : Core :=
  let k := c.putVec vd ld
  match pq with
  | some q => k.pset q (maskPut (k.pget q) (posMask (ld.map (·.pos))) (posMask ((ld.filter (·.res)).map (·.pos))))
  | none => k

/-- VLD and VLDM; `pq` is VLDM's residency predicate (R208, R378). -/
def vecLoad (i : Instr) (c : Ctl) (pitched : Bool) (pq : Option Nat) (f : VMemF) (s : State) : Out :=
  issue i c noPre (baseRegs f.b ++ (if pitched then [2 * f.b + 2] else [])) (do
    let s ← get
    let x := s.mySeq
    let es := vecElems f.ty (s.pair (2 * f.b)).toNat (s.rowPitch f.ty f.b pitched) (s.me.pget (x.preg f.pr))
    if !s.defers f.ac then needOrder f.ac
    let l ← vecXlate .load pq.isSome es
    noteElems f.ty l
    if s.defers f.ac then deferWork f.ac [.vload f.ty (x.vreg f.vd) pq (elemPlaces l)]
    else do
      let ld ← readElems s.cur f.ty (elemPlaces l)
      modify (fun s => s.modMe (fun k => k.putLoads (x.vreg f.vd) pq ld))
    return .next) s

def execVld (c : Ctl) (f : VMemF) (s : State) : Out := vecLoad (.vld c f) c false none f s
def execVldm (c : Ctl) (pq : Nat) (f : VMemF) (s : State) : Out := vecLoad (.vldm c pq f) c true (some pq) f s

/-- The elements with a page, for a store. -/
def okElems (l : List (VElem × Xlat)) : List (VElem × Nat) :=
  l.filterMap (fun p => match p.2 with | .ok pa => some (p.1, pa) | _ => none)

/-- The first element whose line no longer fits into the buffer (R173). -/
def psbOver (k : Core) : List Nat → List (VElem × Nat) → Option Nat
  | _, [] => none
  | seen, (e, pa) :: t =>
    let seen := pa :: seen
    if psbCapacity < k.psbLines.length + k.newLines seen then some e.va else psbOver k seen t

/-- VST and VSTM (R378, R379). -/
def vecStore (i : Instr) (c : Ctl) (pitched : Bool) (f : VMemF) (s : State) : Out :=
  issue i c noPre (baseRegs f.b ++ (if pitched then [2 * f.b + 2] else [])) (do
    let s ← get
    let x := s.mySeq
    let es := vecElems f.ty (s.pair (2 * f.b)).toNat (s.rowPitch f.ty f.b pitched) (s.me.pget (x.preg f.pr))
    if !s.defers f.ac then needOrder f.ac
    let l := okElems (← vecXlate .store false es)
    let k := s.me
    if psbCapacity < k.psbLines.length + k.newLines (l.map (·.2) ++ k.latePas) then
      match psbOver k k.latePas l with
      | some a => throwTrap cPHASEOV a
      | none => pure ()
    let src := k.vget (x.vreg f.vd)
    let po := k.vpo (x.vreg f.vd)
    let bs := l.flatMap (fun p =>
      placeBytes p.1.va p.2 ((bytesOf (src.getD p.1.pos 0).toNat f.ty.colBytes).map (fun b => (b, po.testBit p.1.pos))))
    if s.defers f.ac then deferWork f.ac ((byGranule bs).map (LateWork.store k.ctx.toNat))
    else storeBytes s.cur s.curSeq f.ac k.ctx.toNat bs
    return .next) s

def execVst (c : Ctl) (f : VMemF) (s : State) : Out := vecStore (.vst c f) c false f s
def execVstm (c : Ctl) (f : VMemF) (s : State) : Out := vecStore (.vstm c f) c true f s

end Sys2Proof.Machine
end

