-- ==== Sys2Proof/Machine/Matrix.lean ====
section
/-! DEFINITION. The Product Array and the accumulator store, OP 0x70–0x79 (R112, R126, R138 to R164, R302, R328 to
R331). -/

namespace Sys2Proof.Machine

/-! Local streams (R92, R139, R165). -/

/-- The first bit of local element (row, column) of width `b` (R92). -/
def Stream.localBit (x : Stream) (b r j : Nat) : Nat :=
  8 * (x.base % 2 ^ 21 + (x.coord 0 + r) * x.pitch) + (x.coord 1 + j) * b

/-- Coordinates of operand element (i, k) under the effective TR (R139). -/
def opCoord (tr : Bool) (i k : Nat) : Nat × Nat := if tr then (k, i) else (i, k)

/-- The address of an element of `w` bits at bit `lo` that reaches beyond the local store (R165). -/
def beyondLs (lo w : Nat) : Option Nat :=
  let (a, n) := bitSpan lo w
  if a + n ≤ lsSize then none else some a

/-- Trap TENSOR at the first element outside the local store (R165). -/
def checkLs (spans : List (Nat × Nat)) : Op Unit :=
  match spans.findSome? (fun p => beyondLs p.1 p.2) with
  | some a => throwTrap cTENSOR (a % 2 ^ 64)
  | none => pure ()

/-- Bits of the local store with their poison. -/
def Core.lsBits (c : Core) (lo w : Nat) : Nat × Bool :=
  let (a, n) := bitSpan lo w
  let bs := c.lsBytes a n
  (bitsOf lo w bs, anyPoison bs)

/-- An instruction that names a stream must come from its owner (R91). -/
def needOwner (n : Nat) : Op Unit := do
  let s ← get
  need ((s.me.stream n).own == s.curSeq) cSEQCLASS n

/-- The stream rules of R139: KIND 00b, and no transposed operand narrower than a byte. -/
def needLocal (n : Nat) (x : Stream) (fmt : Nat) (tr : Bool) : Op Unit := do
  need (x.kind == 0) cTENSOR n
  need (!(tr && fmtBits fmt < 8)) cFMT fmt

/-- A row that does not begin on a byte traps ALIGN (R92). -/
def needByteRow (x : Stream) (b : Nat) : Op Unit :=
  need (x.localBit b 0 0 % 8 == 0) cALIGN (x.localBit b 0 0 / 8 % 2 ^ 64)

/-- The scale bits that a per-block operand reads: `rows` rows of `n` elements (R126). -/
def Stream.scaleSpans (x : Stream) (rows n : Nat) : List (Nat × Nat) :=
  if x.smode = 1 ∨ x.smode = 2 then
    (List.range rows).flatMap (fun r =>
      (List.range ((n + x.sbl - 1) / x.sbl)).map (fun j => (8 * (x.scaleLoc + x.sstr * r + j), 8)))
  else []

/-- Check every element and scale that an operand reads. -/
def checkOperand (x : Stream) (tr : Bool) (ni nk rows n : Nat) : Op Unit := do
  let b := fmtBits x.fmt
  if !tr then needByteRow x b
  let cells := (List.range ni).flatMap (fun i => (List.range nk).map (fun k =>
    let (r, j) := opCoord tr i k
    (x.localBit b r j, b)))
  checkLs cells
  checkLs (x.scaleSpans rows n)

/-! Scales (R125, R126). -/

/-- The scale pattern of block `j` of operand row `r`. -/
def Core.scaleAt (c : Core) (x : Stream) (r j : Nat) : Nat × Bool :=
  if x.smode = 3 then (x.scaleLoc, false)
  else if x.smode = 0 then (0, false)
  else c.lsBits (8 * (x.scaleLoc + x.sstr * r + j)) 8

/-- A decoded value times its scale; a NaN scale gives NaNs, a zero scale zeros (R126). -/
def scaledVal (smode sc : Nat) (v : Val) : Val :=
  if smode = 0 then v
  else
    let s := scaleDecode smode sc
    if s.isNan then .nan else if s.isZero then .zero false else (v.mul s).1

/-- NV of a NaN scale (R126), and of a product that is NaN from factors that are not (R133, log 42). -/
def scaleFlag (smode sc : Nat) (v : Val) : Flags :=
  if smode = 0 then 0
  else
    let s := scaleDecode smode sc
    if s.isNan then fNV else if s.isZero then 0 else (v.mul s).2

/-! Alignment (R145). -/

/-- A group of aligned codes: each stands for code × 2^q. -/
structure Group32 where
  codes : List Int
  q : Int
  deriving DecidableEq, Repr

/-- One code, and whether it lost a non-zero bit. -/
def codeOf (q : Int) (v : Val) : Int × Bool :=
  match v with
  | .fin neg n d e => let r := roundMag .rne 0 neg n d e q; (signed neg r.1, r.2)
  | _ => (0, false)

/-- The exponent of a finite non-zero value. -/
def valExp (v : Val) : Option Int :=
  match v with
  | .fin _ n d e => if n = 0 then none else some (ilog2 n d e)
  | _ => none

/-- The largest of a list of exponents. -/
def maxExp : List Int → Option Int
  | [] => none
  | x :: t => some (match maxExp t with | some y => max x y | none => x)

/-- Align one group at width W (R145). -/
def alignGroup (w : Nat) (vs : List Val) : Group32 × Bool :=
  let e := (maxExp (vs.filterMap valExp)).getD 0
  let q := e - ((w : Int) - 2)
  let full : Int := 2 ^ (w - 1)
  let cs := vs.map (codeOf q)
  let big := cs.any (fun c => c.1 == full || c.1 == -full)
  let q := if big then q + 1 else q
  let cs := if big then vs.map (codeOf q) else cs
  (⟨cs.map (·.1), q⟩, cs.any (·.2))

/-- Cut a list into runs of 32; `n` runs at most. -/
def runs32 {α : Type} : Nat → List α → List (List α)
  | 0, _ => []
  | n + 1, l => if l.isEmpty then [] else l.take 32 :: runs32 n (l.drop 32)

/-- A row of A or a column of B, aligned. -/
structure Lined where
  vals : List Val
  groups : List Group32
  special : Bool
  poison : Bool
  nx : Bool
  deriving DecidableEq, Repr

/-- Align a run of scaled values of format `fmt`; an integer operand is its own code (R145). -/
def lineUp (fmt : Nat) (vs : List Val) (poison : Bool) : Lined :=
  let gs := (runs32 48 vs).map (fun g =>
    if fmtIsInt fmt then ((⟨g.map (fun v => (codeOf 0 v).1), 0⟩ : Group32), false) else alignGroup (fmtAligned fmt) g)
  { vals := vs, groups := gs.map (·.1), special := vs.any (fun v => !v.isFin), poison, nx := gs.any (·.2) }

/-- Row `i` of A: `n` elements, decoded and scaled, with the flags of reading them (R118, R126). -/
def Core.rowA (c : Core) (x : Stream) (tr : Bool) (n i : Nat) : Lined × Flags :=
  let b := fmtBits x.fmt
  let el (k : Nat) : Val × Flags × Bool :=
    let (r, j) := opCoord tr i k
    let (p, po) := c.lsBits (x.localBit b r j) b
    let (sc, ps) := c.scaleAt x i (k / x.sbl)
    let (v, f) := fmtDecode x.fmt p
    (scaledVal x.smode sc v, f ||| scaleFlag x.smode sc v, po || ps)
  let es := (List.range n).map el
  (lineUp x.fmt (es.map (·.1)) (es.any (·.2.2)), orAll (es.map (·.2.1)))

/-- An image as one number. -/
def imgBig (m : Store Byte) : Nat := m.foldl (fun a e => a + e.2.toNat * 2 ^ (8 * e.1)) 0

/-- The format code of a panel that holds one. -/
def Panel.code (p : Panel) : Nat := imgByte p.img 1

/-- A column of a B operand from its patterns and the scale of each block, scaled and aligned (R126, R141). -/
def lineColumn (fmt smode sbl : Nat) (scale : Nat → Nat) (poison : Bool) (pats : List Nat) : Lined × Flags :=
  let es := pats.zipIdx.map (fun q =>
    let (v, f) := fmtDecode fmt q.1
    let sc := scale (q.2 / sbl)
    (scaledVal smode sc v, f ||| scaleFlag smode sc v))
  (lineUp fmt (es.map (·.1)) poison, orAll (es.map (·.2)))

/-- Column `n` of a panel, `big` being its image as a number: `k` rows (R141). -/
def Panel.column (p : Panel) (big k n : Nat) : Lined × Flags :=
  let b := fmtBits p.code
  lineColumn p.code p.smode (16 * 2 ^ p.sbl)
    (fun j => if p.smode = 3 then p.tscale else if p.smode = 0 then 0 else p.scale n j) (p.poison.testBit n)
    ((List.range k).map (fun i => fieldOf big (8 * patBase + (64 * i + n) * b) b))

/-- All 64 columns at the panel's own depth. -/
def Panel.columns (p : Panel) : List (Lined × Flags) :=
  let big := imgBig p.img
  (List.range 64).map (p.column big (fmtK p.code))

/-! The wide sum (R146). -/

/-- An exact term: an integer times a power of two. -/
structure Term where
  n : Int
  e : Int
  deriving DecidableEq, Repr

/-- floor(|n| × 2^(e − lo)), with its sign, and whether it lost a non-zero bit. -/
def Term.window (t : Term) (lo : Int) : Int × Bool :=
  let num := t.n.natAbs * pow2 (t.e - lo)
  let den := pow2 (lo - t.e)
  (if t.n < 0 then -(num / den : Nat) else (num / den : Nat), num % den != 0)

/-- The window of 48 bits and the rounding to F32 (R146). -/
def wideSum (ts : List Term) : Nat × Flags :=
  let nz := ts.filter (fun t => t.n != 0)
  match maxExp (nz.map (fun t => (Nat.log2 t.n.natAbs : Int) + t.e)) with
  | none => (0, 0)
  | some top =>
    let lo := top - 47
    let ws := nz.map (·.window lo)
    let u := ws.foldl (fun a w => a + w.1) (0 : Int)
    let (p, f) := fmtF32.encode .rne 0 (.fin (u < 0) u.natAbs 1 lo)
    (if u = 0 then 0 else p, f ||| flagIf (ws.any (·.2)) fNX)

/-- A finite value as a term. -/
def Val.term (v : Val) : Term :=
  match v with
  | .fin neg n _ e => ⟨signed neg n, e⟩
  | _ => ⟨0, 0⟩

/-- Σ code × code of two groups. -/
def dotCodes (a b : List Int) : Int := (List.zipWith (· * ·) a b).foldl (· + ·) 0

/-- The infinite products of a row and a column: a NaN, an infinity times 0, or the signs met. -/
structure Special where
  nan : Bool := false
  inv : Bool := false
  pos : Bool := false
  neg : Bool := false
  deriving DecidableEq, Repr

def specials (a b : List Val) : Special :=
  (List.zip a b).foldl (fun z p =>
    if p.1.isNan || p.2.isNan then { z with nan := true }
    else if p.1.isFin && p.2.isFin then z
    else if p.1.isZero || p.2.isZero then { z with inv := true }
    else if p.1.sign != p.2.sign then { z with neg := true } else { z with pos := true }) {}

/-- The terms of a row and a column: one per group (R146). -/
def groupTerms (a b : Lined) : List Term :=
  List.zipWith (fun (g h : Group32) => ⟨dotCodes g.codes h.codes, g.q + h.q⟩) a.groups b.groups

/-- One float element of the tile: its pattern and flags; `c` is the old element, none with ZC (R146). -/
def floatElem (a b : Lined) (c : Option Nat) : Nat × Flags :=
  let cv := c.map fmtF32.decode
  let z := if a.special || b.special then specials a.vals b.vals else {}
  let cInf (s : Bool) : Bool := cv == some (Val.inf s)
  if z.nan || cv == some .nan then (fmtF32.packNan, 0)
  else
    let pos := z.pos || cInf false
    let neg := z.neg || cInf true
    if z.inv || (pos && neg) then (fmtF32.packNan, fNV)
    else if pos || neg then (fmtF32.signBit neg + fmtF32.packInf, 0)
    else wideSum (groupTerms a b ++ (match cv with | some v => [v.term] | none => []))

/-- One integer element (R147). -/
def intElem (sat : Bool) (a b : Lined) (c : Option Nat) : Nat :=
  let sum := (groupTerms a b).foldl (fun x t => x + t.n) (0 : Int)
  let t := sint 32 (c.getD 0) + sum
  uint 32 (if sat then clampInt (-(2 ^ 31)) (2 ^ 31 - 1) t else t)

/-! Tiles (R151, R152). -/

def Core.tile (c : Core) (t : Nat) : List Word := vPad (Store.get [] c.acc t)
def Core.tilePoison (c : Core) (t : Nat) : Nat := Store.get 0 c.accPoison t
def Core.tileOwner (c : Core) (t : Nat) : Nat := Store.get 0 c.accOwner t

/-- Write a tile and take it for the context that runs. -/
def Core.setTile (c : Core) (t : Nat) (l : List Word) (poison : Nat) : Core :=
  { c with acc := Store.set [] c.acc t (if l.all (· == 0) then [] else l),
           accPoison := Store.set 0 c.accPoison t poison, accOwner := Store.set 0 c.accOwner t c.ctx.toNat }

def needTile (t : Nat) : Op Unit := do
  let k := (← get).me
  need (k.tileOwner t == k.ctx.toNat) cACCOWN t

def needPanel (p : Nat) : Op Unit := do
  let k := (← get).me
  need ((k.panel p).owner == k.ctx.toNat) cPANELOWN p

/-! MLDB and MMA (R141 to R148, R328, R329). -/

/-- MLDB. -/
def execMldb (c : Ctl) (sa pn : Nat) (tx : Bool) (s : State) : Out :=
  issue (.mldb c sa pn tx) c noPre [] (do
    let k := (← get).me
    let x := k.stream sa
    let tr := x.tr != tx
    let b := fmtBits x.fmt
    let depth := fmtK x.fmt
    needOwner sa
    needPanel pn
    needLocal sa x x.fmt tr
    checkOperand x tr depth 64 64 depth
    let el (i n : Nat) : Nat × Bool :=
      let (r, j) := opCoord tr i n
      k.lsBits (x.localBit b r j) b
    let rows := (List.range depth).map (fun i => (List.range 64).map (el i))
    let blocks := (depth + x.sbl - 1) / x.sbl
    let scales := if x.smode = 1 ∨ x.smode = 2 then
      (List.range 64).map (fun n => (List.range blocks).map (k.scaleAt x n)) else []
    let bad (n : Nat) : Bool :=
      rows.any (fun r => (r.getD n (0, false)).2) || (scales.getD n []).any (·.2)
    let poison := posMask ((List.range 64).filter bad)
    -- no product ever uses a scaled panel of the integer class (R143): its scales are not kept
    let p := mkPanel k.ctx.toNat x.fmt x.smode x.sblCode (if x.smode = 3 then x.scaleLoc else 0) poison
      (rows.map (fun r => r.map (·.1))) (if fmtIsInt x.fmt then [] else scales.map (fun r => r.map (·.1)))
    let cols := (List.range 64).map (fun n =>
      lineColumn x.fmt x.smode x.sbl (fun j => (k.scaleAt x n j).1) false (rows.map (fun r => (r.getD n (0, false)).1)))
    modify (fun s => (s.modMe (fun k => { k with panels := Store.set {} k.panels pn p })).addFlags
      (orAll (cols.map (fun q => q.2 ||| flagIf q.1.nx fNX))))
    return .next) s

/-- The class checks of R143 on A's format and a panel. -/
def needClass (x : Stream) (pn : Nat) (p : Panel) : Op Unit := do
  need p.fmt.isSome cFMT pn
  need (fmtIsInt x.fmt == fmtIsInt p.code) cFMT x.fmt
  if fmtIsInt x.fmt then
    need (x.smode == 0) cFMT x.fmt
    need (p.smode == 0) cFMT p.code

/-- The 1,024 elements of a tile from rows and columns. -/
def tileElems (rows cols : List Lined) (old : List Word) (zc : Bool) (g : Lined → Lined → Option Nat → Nat × Flags) :
    List (Nat × Flags) :=
  (rows.flatMap (fun a => cols.map (fun b => (a, b)))).zipWith
    (fun p w => g p.1 p.2 (if zc then none else some w.toNat)) old

/-- The poisoned positions of a product (R282). -/
def tilePoisonOf (rows cols : List Lined) (old : Nat) (zc : Bool) : Nat :=
  posMask ((List.range 1024).filter (fun p =>
    (rows.map (·.poison)).getD (p / 64) false || (cols.map (·.poison)).getD (p % 64) false ||
      (!zc && old.testBit p)))

def execMma (c : Ctl) (sa pn tile : Nat) (tx zc sat : Bool) (s : State) : Out :=
  issue (.mma c sa pn tile tx zc sat) c noPre [] (do
    let k := (← get).me
    let x := k.stream sa
    let p := k.panel pn
    let tr := x.tr != tx
    needOwner sa
    needPanel pn
    needTile tile
    needClass x pn p
    needLocal sa x x.fmt tr
    let depth := min (fmtK x.fmt) (fmtK p.code)
    checkOperand x tr 16 depth 16 depth
    let a := (List.range 16).map (k.rowA x tr depth)
    let b := p.columns
    let int := fmtIsInt x.fmt
    let rows := a.map (·.1)
    let cols := b.map (·.1)
    let es := tileElems rows cols (k.tile tile) zc (fun a b c =>
      if int then (intElem sat a b c, 0) else floatElem a b c)
    let fl := orAll (a.map (fun r => r.2 ||| flagIf r.1.nx fNX)) ||| orAll (es.map (·.2))
    modify (fun s => (s.modMe (fun k =>
      k.setTile tile (es.map (fun e => BitVec.ofNat 32 e.1))
        (tilePoisonOf rows cols (k.tilePoison tile) zc))).addFlags fl)
    return .next) s

/-! Accumulator moves (R153 to R155, R302). -/

def execAccz (c : Ctl) (tile : Nat) (s : State) : Out :=
  issue (.accz c tile) c noPre [] (do
    needTile tile
    modify (fun s => s.modMe (fun k => k.setTile tile [] 0))
    return .next) s

/-- The format override's decode trap (R103). -/
def preFo (fmt : Option Nat) : Op Unit :=
  match fmt with
  | some f => preFmt f
  | none => noPre

/-- SAT of ACCRD: an infinity made from a finite element becomes the largest finite value (R154). -/
def satFloat (fmt : Nat) (v : Val) (r : Nat × Flags) : Nat × Flags :=
  let f := fmtFloat fmt
  if v.isFin && fmt ≤ 9 && f.kind == .ieee && r.2 &&& fOF != 0 then
    let p := f.signBit v.sign + f.packLargest
    (if fmt = 1 then p * 2 ^ 13 else p, fOF ||| fNX)
  else r

/-- ACCRD of one element with an override (R154). -/
def accRead (fmt : Nat) (rm : Rm) (sat : Bool) (r w : Nat) : Nat × Flags :=
  let (p, f) :=
    if fmtIsInt fmt then fmtEncodeInt fmt rm r (sint 32 w)
    else
      let v := fmtF32.decode w
      let e := fmtEncode fmt rm r v
      if sat then satFloat fmt v e else e
  (fmtExtend fmt p, f)

def execAccrd (c : Ctl) (tile : Nat) (rm : Rm) (sat : Bool) (fmt : Option Nat) (vd : Nat) (s : State) : Out :=
  issue (.accrd c tile rm sat fmt vd) c (preFo fmt) [] (do
    needTile tile
    let s ← get
    let l := s.me.tile tile
    let po := s.me.tilePoison tile
    match fmt with
    | none => set (s.modMe (fun k => k.vset vd l po))
    | some f => do
      let (rows, s) := if rm == .sr then s.stepRows s.cur 1 16 else ([], s)
      let es := l.zipIdx.map (fun p => accRead f rm sat (laneWord rows p.2) p.1.toNat)
      set ((s.modMe (fun k => k.vset vd (es.map (fun e => BitVec.ofNat 32 e.1)) po)).addFlags (orAll (es.map (·.2))))
    return .next) s

/-- ACCWR of one element with an override: its exact value as F32 or I32 (R154). -/
def accWrite (fmt w : Nat) : Nat × Flags :=
  let (v, f) := fmtDecode fmt (w % 2 ^ fmtBits fmt)
  if fmtIsInt fmt then (uint 32 (codeOf 0 v).1, f) else ((fmtF32.encode .rne 0 v).1, f)

def execAccwr (c : Ctl) (tile : Nat) (fmt : Option Nat) (vs : Nat) (s : State) : Out :=
  issue (.accwr c tile fmt vs) c (preFo fmt) [] (do
    needTile tile
    let s ← get
    let l := s.me.vget vs
    let po := s.me.vpo vs
    match fmt with
    | none => set (s.modMe (fun k => k.setTile tile l po))
    | some f => do
      let es := l.map (fun w => accWrite f w.toNat)
      set ((s.modMe (fun k => k.setTile tile (es.map (fun e => BitVec.ofNat 32 e.1)) po)).addFlags (orAll (es.map (·.2))))
    return .next) s

/-- The spans of a 16 × 64 block of elements of width `b` in the local store. -/
def Stream.tileSpans (x : Stream) (tr : Bool) (b : Nat) : List (Nat × Nat) :=
  (List.range 1024).map (fun p => let (r, j) := opCoord tr (p / 64) (p % 64); (x.localBit b r j, b))

/-- Write `w` bits at bit `lo` of the local store. -/
def Core.lsPut (c : Core) (lo w v : Nat) (poison : Bool) : Core :=
  let (a, n) := bitSpan lo w
  c.lsWrite a (putBits lo w v poison (c.lsBytes a n))

/-- Write elements of width `b` by position. -/
def Core.putElems (c : Core) (x : Stream) (tr : Bool) (b : Nat) (es : List (Nat × Bool)) : Core :=
  es.zipIdx.foldl (fun c p =>
    let (r, j) := opCoord tr (p.2 / 64) (p.2 % 64)
    c.lsPut (x.localBit b r j) b p.1.1 p.1.2) c

def execAccst (c : Ctl) (sa tile : Nat) (s : State) : Out :=
  issue (.accst c sa tile) c noPre [] (do
    let k := (← get).me
    let x := k.stream sa
    needOwner sa
    needTile tile
    need (x.kind == 0) cTENSOR sa
    checkLs (x.tileSpans false 32)
    let po := k.tilePoison tile
    let es := (k.tile tile).zipIdx.map (fun p => (p.1.toNat, po.testBit p.2))
    modify (fun s => s.modMe (fun k => k.putElems x false 32 es))
    return .next) s

def execAccld (c : Ctl) (sa tile : Nat) (s : State) : Out :=
  issue (.accld c sa tile) c noPre [] (do
    let k := (← get).me
    let x := k.stream sa
    needOwner sa
    needTile tile
    need (x.kind == 0) cTENSOR sa
    checkLs (x.tileSpans false 32)
    let es := (x.tileSpans false 32).map (fun p => k.lsBits p.1 p.2)
    modify (fun s => s.modMe (fun k =>
      k.setTile tile (es.map (fun e => BitVec.ofNat 32 e.1))
        (posMask ((es.zipIdx.filter (·.1.2)).map (·.2)))))
    return .next) s

/-- The largest finite magnitude of a format (R118). -/
def fmtLargest (c : Nat) : Val :=
  if c ≤ 9 then let (k, q) := (fmtFloat c).largest; .fin false k 1 q
  else if c ≤ 12 then .fin false 1 1 (2 ^ (c - 10) * 6)
  else if c ≤ 15 then .fin false 1 1 (2 ^ (c - 13) * 4)
  else .ofInt (fmtRange c).2

/-- ceil(log2 v) of a positive finite value. -/
def ceilLog2 (v : Val) : Int :=
  match v with
  | .fin _ n d e =>
    let x := ilog2 n d e
    if n * pow2 (e - x) == d * pow2 (x - e) then x else x + 1
  | _ => 0

/-- The scale of a block from its amax: its pattern (R155). -/
def quantScale (smode fmt : Nat) (amax : Val) : Nat :=
  let q := (amax.div (fmtLargest fmt)).1
  if smode = 0 then 0
  else if amax.isZero then (if smode = 1 then 127 else if smode = 2 then 0x38 else 0x3F800000)
  else if smode = 1 then
    if q.isFin then (clampInt (-127) 127 (ceilLog2 q) + 127).toNat else 254
  else if smode = 2 then max 1 (min 0x7E (fmtE4M3.encode .rup 0 q).1)
  else
    let p := (fmtF32.encode .rup 0 q).1
    if p = fmtF32.packInf then fmtF32.packLargest else p

/-- The largest |x| of F32 patterns, NaNs left out. -/
def amaxF32 (l : List Nat) : Val := fmtF32.decode (amaxOf .f32 (l.map (fun v => ⟨v, 0, false⟩))).v

def execAccq (c : Ctl) (sa sb tile : Nat) (rm : Rm) (fmt : Option Nat) (blk : Bool) (s : State) : Out :=
  issue (.accq c sa sb tile rm fmt blk) c (preFo fmt) [] (do
    let s ← get
    let k := s.me
    let x := k.stream sa
    let y := k.stream sb
    let f := fmt.getD x.fmt
    let sm := x.smode
    let b := fmtBits f
    let sw := if sm = 3 then 32 else 8
    needOwner sa
    if sm != 0 then needOwner sb
    needTile tile
    needLocal sa x f x.tr
    if sm != 0 then need (y.kind == 0) cTENSOR sb
    if !x.tr then needByteRow x b
    -- the blocks: their number, their positions, and the place of their scale
    let per := if blk then 32 else 1024
    let spots := (List.range (1024 / per)).map (fun h => y.localBit sw (if blk then h / 2 else 0) (if blk then h % 2 else 0))
    checkLs (x.tileSpans x.tr b)
    if sm != 0 then checkLs (spots.map (fun p => (p, sw)))
    let l := (k.tile tile).map (·.toNat)
    let po := k.tilePoison tile
    let (rows, s) := if rm == .sr then s.stepRows s.cur 1 16 else ([], s)
    let scs := (List.range (1024 / per)).map (fun h =>
      (quantScale sm f (amaxF32 ((l.drop (per * h)).take per)), fieldOf po (per * h) per != 0))
    let es := l.zipIdx.map (fun p =>
      let sc := scs.getD (p.2 / per) (0, false)
      let v := fmtF32.decode p.1
      let w := if sm = 0 then v else (v.div (scaleDecode sm sc.1)).1
      let r := fmtEncode f rm (laneWord rows p.2) w
      (r.1, r.2, po.testBit p.2 || (sm != 0 && sc.2)))
    let s := s.modMe (fun k =>
      let k := k.putElems x x.tr b (es.map (fun e => (e.1, e.2.2)))
      if sm = 0 then k else (spots.zip scs).foldl (fun k p => k.lsPut p.1 sw p.2.1 p.2.2) k)
    set (s.addFlags (orAll (es.map (·.2.1))))
    return .next) s

end Sys2Proof.Machine
end

