-- ==== Sys2Proof/Machine/Sample.lean ====
section
/-! DEFINITION. The sampled product, MSCFG and MSAMP (R156 to R163, R330, R331). -/

namespace Sys2Proof.Machine

/-! The generator (R157). -/

def mix64 (z : Nat) : Nat :=
  let z := Nat.xor z (z / 2 ^ 30) * 0xBF58476D1CE4E5B9 % 2 ^ 64
  let z := Nat.xor z (z / 2 ^ 27) * 0x94D049BB133111EB % 2 ^ 64
  Nat.xor z (z / 2 ^ 31)

/-- Seed the sampler. -/
def Sampler.seed (x : Sampler) (seed : Nat) : Sampler :=
  let z1 := mix64 ((seed + 0x9E3779B97F4A7C15) % 2 ^ 64)
  let z2 := mix64 ((seed + 2 * 0x9E3779B97F4A7C15) % 2 ^ 64)
  let x := { x with s0 := z1 % 2 ^ 32, s1 := z1 / 2 ^ 32, s2 := z2 % 2 ^ 32, s3 := z2 / 2 ^ 32 }
  if z1 = 0 ∧ z2 = 0 then { x with s0 := 1 } else x

/-- The next word. -/
def Sampler.next (x : Sampler) : Nat × Sampler :=
  let out := rotl32 (x.s1 * 5 % 2 ^ 32) 7 * 9 % 2 ^ 32
  let t := x.s1 * 2 ^ 9 % 2 ^ 32
  let s2 := Nat.xor x.s2 x.s0
  let s3 := Nat.xor x.s3 x.s1
  let s1 := Nat.xor x.s1 s2
  let s0 := Nat.xor x.s0 s3
  (out, { x with s0, s1, s2 := Nat.xor s2 t, s3 := rotl32 s3 11 })

/-- MSCFG (R156): owner, budget, threshold. -/
def execMscfg (c : Ctl) (n : Nat) (s : State) : Out :=
  issue (.mscfg c n) c noPre [4 * n, 4 * n + 1, 4 * n + 2, 4 * n + 3] (do
    let s ← get
    let k := s.me
    let budget := (s.g (4 * n)).toNat
    let thr := (s.g (4 * n + 1)).toNat
    need (k.sampler.owner == k.ctx.toNat) cPANELOWN 8
    need (1 ≤ budget && budget ≤ 4096) cSAMPLE budget
    let t := fmtF32.decode thr
    need (!(t.isNan || t.lt (.zero false))) cSAMPLE thr
    let x : Sampler := ({ k.sampler with budget, threshold := thr, owner := k.ctx.toNat }).seed
      (s.pair (4 * n + 2)).toNat
    set (s.modMe (fun k => { k with sampler := x }))
    return .next) s

/-! Norms and the alias table (R158, R159). -/

/-- The exact sum of squares, rounded once to F32 (R141, R158). -/
def sumSquares (l : List Val) : Val :=
  (rne32 (l.foldl (fun (a : Val × Flags) v => ((v.mul v).1.add false a.1)) (.zero false, 0))).1

/-- n_k from the two norms: the exact product's root, rounded once. -/
def normOf (a2 b2 : Val) : Val := (rne32 ((a2.mul b2).1.sqrt)).1

/-- s[k] = n_k × N × 2^32 ÷ Z rounded to an integer. -/
def aliasWeight (n z : Val) (count : Nat) : Nat :=
  match (n.div z).1 with
  | .fin _ a b e => (roundMag .rne 0 false (a * count) b (e + 32) 0).1
  | _ => 0

/-- The table's entries: index, threshold, alias. Each round removes one from `small` for good or ends. -/
def aliasBuild : Nat → List (Nat × Nat) → List (Nat × Nat) → List (Nat × Nat × Nat)
  | fuel + 1, (l, sl) :: small, (g, sg) :: large =>
    let t := sg + sl - 2 ^ 32
    (l, sl, g) ::
      (if t < 2 ^ 32 then aliasBuild fuel (small ++ [(g, t)]) large else aliasBuild fuel small ((g, t) :: large))
  | _, _, _ => []

/-- The alias table of the weights. -/
def aliasTable (ws : List Nat) : List (Nat × Nat × Nat) :=
  let ps := ws.zipIdx.map (fun p => (p.2, p.1))
  aliasBuild ws.length (ps.filter (fun p => p.2 < 2 ^ 32)) (ps.filter (fun p => 2 ^ 32 ≤ p.2))

/-- One draw (R159). -/
def Sampler.draw (x : Sampler) (tab : List (Nat × Nat × Nat)) (n : Nat) : Nat × Sampler :=
  let (u, x) := x.next
  let i := u * n / 2 ^ 32
  let (v, x) := x.next
  match tab.find? (fun e => e.1 == i) with
  | some (_, thr, al) => (if v < thr then i else al, x)
  | none => (i, x)

/-! Passes (R160, R161). -/

/-- What a sampled product works on: `rows` the A values by row, `cols` the panels' columns as aligned codes with their
group exponents by index, `ns` the norms. -/
structure Sampled where
  n : Nat
  budget : Nat
  z : Val
  ns : List Val
  rows : List (List Val)
  cols : List (List (Int × Int))
  tab : List (Nat × Nat × Nat)
  thr : Val
  deriving DecidableEq, Repr

/-- One more draw in a pass: multiplicities by index, in order of first draw. -/
def bump (i : Nat) : List (Nat × Nat) → List (Nat × Nat)
  | [] => [(i, 1)]
  | (j, m) :: t => if j = i then (j, m + 1) :: t else (j, m) :: bump i t

/-- Draw one pass: it ends at 16 distinct indices, at a multiple of 64 samples, or at the budget. -/
def drawPass (p : Sampled) : Nat → Nat → List (Nat × Nat) → Sampler → List (Nat × Nat) × Nat × Sampler
  | 0, t, ms, x => (ms, t, x)
  | fuel + 1, t, ms, x =>
    let (i, x) := x.draw p.tab p.n
    let ms := bump i ms
    let t := t + 1
    if ms.length = 16 ∨ t % 64 = 0 ∨ t = p.budget then (ms, t, x) else drawPass p fuel t ms x

/-- a' of one index: A × m × Z ÷ (S × n_k), exact (R160). -/
def Sampled.weigh (p : Sampled) (a : Val) (m k : Nat) : Val :=
  ((((a.mul (.ofInt m)).1.mul p.z).1).div ((p.ns.getD k .nan).mul (.ofInt p.budget)).1).1

/-- The exact sum of terms as one term. -/
def sumTerms (ts : List Term) : Term :=
  ts.foldl (fun a t =>
    let e := min a.e t.e
    ⟨a.n * (pow2 (a.e - e) : Int) + t.n * (pow2 (t.e - e) : Int), e⟩) ⟨0, 0⟩

/-- An exact term added to an F32 pattern by R146. -/
def addWide (old : Option Nat) (t : Term) : Nat × Flags :=
  match old.map fmtF32.decode with
  | none => wideSum [t]
  | some (.nan) => (fmtF32.packNan, 0)
  | some (Val.inf s) => (fmtF32.signBit s + fmtF32.packInf, 0)
  | some v => wideSum [t, v.term]

/-- Add a pass into the estimate U (R160). -/
def Sampled.addPass (p : Sampled) (ms : List (Nat × Nat)) (u : List (Nat × Flags)) : List (Nat × Flags) × Flags :=
  let lines := p.rows.map (fun r => alignGroup 8 (ms.map (fun m => p.weigh (r.getD m.1 (.zero false)) m.2 m.1)))
  let parts := lines.flatMap (fun g => p.cols.map (fun c =>
    sumTerms ((ms.zip g.1.codes).map (fun q =>
      let b := c.getD q.1.1 (0, 0)
      (⟨q.2 * b.1, g.1.q + b.2⟩ : Term)))))
  (List.zipWith (fun (o : Nat × Flags) t => let r := addWide (some o.1) t; (r.1, o.2 ||| r.2)) u parts,
    flagIf (lines.any (·.2)) fNX)

/-- The result of sampling: the estimate Ĉ as F32 patterns, the count, VARR, the flags and the generator. -/
structure SampleRes where
  est : List Nat
  t : Nat
  varr : Nat
  fl : Flags
  gen : Sampler
  deriving DecidableEq, Repr

/-- Ĉ := U × S ÷ T (R161). DESIGN CHOICE (log 86): of MSAMP's roundings, those of the additions into U and of the final addition to
the tile set flags; R148 names the final rounding alone, and the model reports none of this one. -/
def Sampled.scaleUp (p : Sampled) (t u : Nat) : Nat :=
  if t = p.budget then u
  else
    let a := (rne32 ((fmtF32.decode u).mul (.ofInt p.budget))).1
    (fmtF32.encode .rne 0 (rne32 (a.div (.ofInt t))).1).1

/-- VARR (R161). -/
def Sampled.varr (p : Sampled) (t : Nat) (est : List Nat) : Val :=
  let f := sumSquares (est.map fmtF32.decode)
  if f.isZero then .inf false
  else
    let zz := (rne32 (p.z.mul p.z)).1
    let r := (rne32 (zz.div f)).1
    let d := (rne32 (r.add false (.fin true 1 1 0))).1
    let v := (rne32 (d.div (.ofInt t))).1
    if v.lt (.zero false) then .zero false else v

/-- Pass after pass until the stop rule of R161. DESIGN CHOICE (log 86): the flags of every addition into U are reported, those of
VARR's roundings are not. -/
def Sampled.run (p : Sampled) : Nat → Nat → List (Nat × Flags) → Flags → Sampler → SampleRes
  | 0, t, u, fl, x => ⟨u.map (·.1), t, 0, fl, x⟩
  | fuel + 1, t, u, fl, x =>
    let (ms, t, x) := drawPass p 64 t [] x
    let (u, f) := p.addPass ms u
    let fl := fl ||| f
    if t % 64 = 0 ∨ t = p.budget then
      let est := u.map (fun e => p.scaleUp t e.1)
      let v := p.varr t est
      if v.lt p.thr ∨ t = p.budget then
        ⟨est, t, (fmtF32.encode .rne 0 v).1, fl ||| orAll (u.map (·.2)), x⟩
      else Sampled.run p fuel t u fl x
    else Sampled.run p fuel t u fl x

/-- Codes of a column by index, with the exponent of the group that holds each. -/
def Lined.byIndex (l : Lined) : List (Int × Int) := l.groups.flatMap (fun g => g.codes.map (fun c => (c, g.q)))

/-- The first format code that differs from panel 0's (R331 order 5). -/
def firstOdd (ps : List Panel) : Option Nat :=
  match ps with
  | [] => none
  | p :: t => (t.find? (fun q => q.code != p.code)).map (·.code)

/-- The checks of R331 up to the budget, in their order. -/
def msampChecks (sa pn tile : Nat) (tr : Bool) : Op Unit := do
  let k := (← get).me
  let x := k.stream sa
  let ps := (List.range (pn + 1)).map k.panel
  needOwner sa
  forAll (List.range (pn + 1)) needPanel
  need (k.sampler.owner == k.ctx.toNat) cPANELOWN 8
  needTile tile
  forAll (List.range (pn + 1)) (fun p => need (k.panel p).fmt.isSome cFMT p)
  match firstOdd ps with
  | some f => throwTrap cFMT f
  | none => pure ()
  need (!fmtIsInt x.fmt && !fmtIsInt (k.panel 0).code) cFMT x.fmt
  needLocal sa x x.fmt tr
  need (k.sampler.budget != 0) cSAMPLE 0
  let n := (pn + 1) * min (fmtK x.fmt) (fmtK (k.panel 0).code)
  need (n ≤ 1536) cSAMPLE n
  checkOperand x tr 16 n 16 n

def execMsamp (c : Ctl) (rd sa pn tile : Nat) (tx zc : Bool) (s : State) : Out :=
  issue (.msamp c rd sa pn tile tx zc) c noPre [] (do
    let k := (← get).me
    let x := k.stream sa
    let tr := x.tr != tx
    msampChecks sa pn tile tr
    let kk := min (fmtK x.fmt) (fmtK (k.panel 0).code)
    let n := (pn + 1) * kk
    let a := (List.range 16).map (k.rowA x tr n)
    let panels := (List.range (pn + 1)).map (fun p => (k.panel p).columns.map (·.1))
    let rows := a.map (·.1.vals)
    let bvals := (List.range 64).map (fun j => panels.flatMap (fun p => ((p.map (·.vals)).getD j []).take kk))
    let cols := (List.range 64).map (fun j => panels.flatMap (fun p => ((p.map Lined.byIndex).getD j []).take kk))
    let at_ (l : List (List Val)) (i : Nat) : List Val := l.map (fun r => r.getD i (.zero false))
    let ns := (List.range n).map (fun i => normOf (sumSquares (at_ rows i)) (sumSquares (at_ bvals i)))
    match (List.range n).find? (fun i => !(ns.getD i .nan).isFin) with
    | some i => throwTrap cSAMPLE i
    | none => pure ()
    let z := (rne32 (ns.foldl (fun (p : Val × Flags) v => p.1.add false v) (.zero false, 0))).1
    if !z.isFin then throwTrap cSAMPLE ((← draw) % 2 ^ 64)
    let old := k.tile tile
    let po := posMask ((List.range 1024).filter (fun p =>
      (a.map (·.1.poison)).getD (p / 64) false || panels.any (fun q => (q.map (·.poison)).getD (p % 64) false) ||
        (!zc && (k.tilePoison tile).testBit p)))
    let put (l : List Word) (t varr : Nat) (fl : Flags) (x : Sampler) : Op Unit :=
      modify (fun s => ((s.modMe (fun k => { (k.setTile tile l po) with
        nsamp := BitVec.ofNat 13 t, varr := BitVec.ofNat 32 varr, sampler := x })).setG rd
          (BitVec.ofNat 32 t)).addFlags fl)
    let fa := orAll (a.map (·.2))
    if z.isZero then
      put (if zc then [] else old) 0 0 fa k.sampler
    else do
      let p : Sampled := {
        n, budget := k.sampler.budget, z, ns, rows, cols, tab := aliasTable (ns.map (fun v => aliasWeight v z n)),
        thr := fmtF32.decode k.sampler.threshold }
      let r := p.run (p.budget + 1) 0 (List.replicate 1024 (0, 0)) 0 k.sampler
      let es := List.zipWith (fun (e : Nat) (w : Word) =>
        match fmtF32.decode e with
        | .nan => (fmtF32.packNan, (0 : Flags))
        | Val.inf sg =>
          let cv := fmtF32.decode w.toNat
          if !zc && cv.isNan then (fmtF32.packNan, 0)
          else if !zc && cv == Val.inf (!sg) then (fmtF32.packNan, fNV)
          else (fmtF32.signBit sg + fmtF32.packInf, 0)
        | v => addWide (if zc then none else some w.toNat) v.term) r.est old
      put (es.map (fun e => BitVec.ofNat 32 e.1)) r.t r.varr (fa ||| r.fl ||| orAll (es.map (·.2))) r.gen
    return .next) s

end Sys2Proof.Machine
end

