-- ==== Sys2Proof/Machine/Ranges.lean ====
section
/-! DEFINITION. What engines read and write: memory endpoints, the copy descriptor, and the range checker's footprints
(R207, R234, R239, R242, R243, R405). -/

namespace Sys2Proof.Machine

/-! Status codes (R239). -/

def stOK : Nat := 0x00
def stSIZE : Nat := 0x01
def stALIGN : Nat := 0x02
def stLOCAL : Nat := 0x03
def stNOTMAP : Nat := 0x04
def stPERM : Nat := 0x05
def stNONRES : Nat := 0x06
def stTENSOR : Nat := 0x07
def stCOWFAIL : Nat := 0x08
def stDESC : Nat := 0x09
def stCHAN : Nat := 0x0A
def stLINK : Nat := 0x0B
def stSTASHFULL : Nat := 0x0C
def stNOFRAME : Nat := 0x0D
def stDIRFULL : Nat := 0x0E
def stNOSTAGE : Nat := 0x0F

/-- A step of an engine: a value, or the status it fails with. -/
abbrev ER (α : Type) := Except Nat α

/-- What an engine's access reaches: a physical address, or a place in a die's control space (R285, R405). -/
inductive EngAt where
  | mem (pa : Nat)
  | ctl (die off : Nat)
  deriving DecidableEq, Repr

/-- Bytes of a die's control space, read in words of 8 (R285). -/
def State.ctlBytes (s : State) (d o n : Nat) : List RByte :=
  (List.range n).map (fun i =>
    let r := s.ctlRead d ((o + i) / 8 * 8)
    (BitVec.ofNat 8 (r.1 / 2 ^ (8 * ((o + i) % 8))), r.2))

/-- Bytes written to a die's control space, in words of 8; a word written in part keeps its other bytes (R285, log 43). -/
def State.ctlPut (s : State) (d o : Nat) (bs : List RByte) : State :=
  (List.range ((o % 8 + bs.length + 7) / 8)).foldl (fun s i =>
    let w := o / 8 * 8 + 8 * i
    let old := s.ctlBytes d w 8
    let new := (List.range 8).map (fun j =>
      if o ≤ w + j && w + j < o + bs.length then bs.getD (w + j - o) (0, false) else old.getD j (0, false))
    s.ctlWrite d w (rbytesNat new)) s

/-- The bytes of an engine's read, `f` giving those of memory. -/
def EngAt.bytes (s : State) (f : Nat → List RByte) (n : Nat) : EngAt → List RByte
  | .mem pa => f pa
  | .ctl d o => s.ctlBytes d o n

/-- Translate for an engine: where the access goes, or the status of the failure (R239, R282, R285). It waits on a migration
and on the host. -/
def engPa (agent die ctx : Nat) (priv : Bool) (acc : Acc) (va : Nat) : Op (ER EngAt) := do
  match ← xlate agent die ctx priv acc va with
  | .ok pa => return .ok (.mem pa)
  | .ctl d o => return .ok (.ctl d o)
  | .notmap => return .error stNOTMAP
  | .perm => return .error stPERM
  | .nonres => return .error stNONRES
  | .poison => return .error stDESC
  | .mig | .pend => throwWait

/-- The operand pairs of a command. -/
def Cmd.va0 (k : Cmd) : Nat := k.g0.toNat + k.g1.toNat * 2 ^ 32

/-- The copy descriptor's eight words as the copy engine reads them, the core's own buffered writes merged (R222, R234,
R243). A poisoned descriptor gives DESC (R282). -/
def Cmd.readDesc (k : Cmd) : Op (ER (List Nat)) := do
  if k.va0 % 64 != 0 then return .error stALIGN
  match ← engPa (agentCopy k.core) (dieOfCore k.core) k.ctx k.priv .load k.va0 with
  | .error e => return .error e
  | .ok a => do
    let s ← get
    let bs := a.bytes s (s.streamBytes k.core · 64) 64
    if anyPoison bs then return .error stDESC
    return .ok ((List.range 8).map (fun i => rbytesNat ((bs.drop (8 * i)).take 8)))

/-- A copy descriptor (R243). -/
structure CopyDesc where
  srca : Nat
  srcb : Nat
  dsta : Nat
  dstb : Nat
  size : Nat
  sk : Nat
  dk : Nat
  cal : Bool
  rt : Nat
  ro : Nat
  rsr : Bool
  res0 : Bool
  deriving DecidableEq, Repr

/-- The Res0 bits of an endpoint's words are clear (R243). -/
def endClean (kind a b : Nat) : Bool :=
  match kind with
  | 0 => a / 2 ^ 21 == 0 && b == 0
  | 1 => b == 0
  | 2 => b / 2 ^ 35 == 0
  | _ => false

def copyDescOf (w : List Nat) : CopyDesc :=
  let w4 := w.getD 4 0
  let sk := fieldOf w4 32 2
  let dk := fieldOf w4 34 2
  { srca := w.getD 0 0, srcb := w.getD 1 0, dsta := w.getD 2 0, dstb := w.getD 3 0, size := fieldOf w4 0 32, sk, dk,
    cal := bit w4 36, rt := fieldOf w4 37 2, ro := fieldOf w4 39 2, rsr := bit w4 41,
    res0 := endClean sk (w.getD 0 0) (w.getD 1 0) && endClean dk (w.getD 2 0) (w.getD 3 0) && w4 / 2 ^ 42 == 0 &&
      w.getD 5 0 / 2 ^ 16 == 0 && w.getD 6 0 == 0 && w.getD 7 0 == 0 }

/-! The range checker (R242). -/

/-- The footprint of `n` bytes at local address `a`. -/
def footOf (a n : Nat) (wr : Bool) : List Foot := if n = 0 then [] else [⟨a / 16, (a + n - 1) / 16, wr⟩]

def Foot.hits (a b : Foot) : Bool := a.first ≤ b.last && b.first ≤ a.last && (a.wr || b.wr)

/-- Rows and columns of a transfer. -/
def Xfer.rows (x : Xfer) : Nat := 16 * x.sa.pr
def Xfer.cols (x : Xfer) : Nat := 16 * x.sa.pc
/-- The width of its elements. -/
def Xfer.width (x : Xfer) : Nat := fmtBits x.sa.fmt
/-- Whether it is transposed: an STRST never is (R345). -/
def Xfer.tr (x : Xfer) : Bool := x.load && x.sa.tr != x.tx

/-- The local bit of element (i, j) (R345). -/
def Xfer.localBit (x : Xfer) (i j : Nat) : Nat :=
  let (r, c) := opCoord x.tr i j
  x.sb.localBit x.width r c

/-- The interval from the lowest to the highest local byte of a transfer. -/
def Xfer.foot (x : Xfer) : List Foot :=
  let lo := x.localBit 0 0 / 8
  let hi := (x.localBit (x.rows - 1) (x.cols - 1) + x.width - 1) / 8
  footOf lo (hi - lo + 1) x.load

/-- The local ranges of a copy's descriptor. -/
def CopyDesc.foot (d : CopyDesc) : List Foot :=
  (if d.sk = 0 then footOf (d.srca % 2 ^ 21) d.size false else []) ++
    (if d.dk = 0 then footOf (d.dsta % 2 ^ 21) d.size true else [])

/-- The local ranges of a command: those of a copy are known once it is admitted. -/
def Cmd.foot (k : Cmd) : List Foot :=
  match k.kind with
  | .cpy | .cpyr => k.feet
  | .chsend => if k.phase = 0 then footOf k.g0.toNat k.g1.toNat false else []
  | .chrecv => footOf k.g3.toNat k.g2.toNat true
  | .prst =>
    let n := 4 * k.g1.toNat
    (if k.phase = 0 then footOf k.g0.toNat n false else []) ++ footOf k.g3.toNat n true
  | _ => []

/-- The commands of core `c` that have entered the checker before number `id`. -/
def State.olderCmds (s : State) (c id : Nat) : List Cmd := s.cmds.filter (fun k => k.core == c && k.id < id)

/-- Whether every entry of the core older than number `id` has been admitted: a copy's once its descriptor has been read,
and each only after those before it (R242). -/
def State.oldAdmitted (s : State) (c id : Nat) : Bool := (s.olderCmds c id).all (fun k => !k.isCopy || k.admitted)

/-- The footprints of the core's entries older than number `id`. -/
def State.olderFeet (s : State) (c id : Nat) : List Foot :=
  ((s.core c).xfers.filter (fun x => x.id < id)).flatMap Xfer.foot ++ (s.olderCmds c id).flatMap Cmd.foot

/-- Whether the local accesses `f` of entry `id` may go on (R242). -/
def State.rangeFree (s : State) (c id : Nat) (f : List Foot) : Bool :=
  s.oldAdmitted c id && !f.any (fun a => (s.olderFeet c id).any a.hits)

/-- The entries in the checker of core `c`: its outstanding commands and its transfers (R242). -/
def State.checkerCount (s : State) (c : Nat) : Nat :=
  (s.cmds.filter (fun k => k.core == c)).length + (s.core c).xfers.length

/-! Calendar-class parts (R183). -/

/-- Whether core `c` owns a slot of channel `ch` on its own die. -/
def State.ownsSlot (s : State) (c d ch : Nat) : Bool :=
  d == dieOfCore c && (List.range (slotsOf ch)).any (fun sl => s.owner d ch sl == c % 144)

/-- Every other element of a list, the first included. -/
def everyOther : List Nat → List Nat
  | [] => []
  | [a] => [a]
  | a :: _ :: t => a :: everyOther t

/-- The parts of a calendar transfer over the 256-byte chunks it touches: one for each two chunks of a channel on which
the core owns a slot, by the address of its first chunk, with the clock at which it reaches the controller (log 81). -/
def State.calParts (s : State) (c : Nat) (chunks : List Nat) : List Part :=
  let cs := (chunks.filter (fun x => x < hostBase / 256)).map (256 * ·)
  let place (a : Nat) : Nat × Nat := (homeDie a, chanOf a)
  (cs.map place).eraseDups.flatMap (fun p =>
    if s.ownsSlot c p.1 p.2 then (everyOther (cs.filter (fun a => place a == p))).map (fun a => ⟨a, s.clock + Config.transit c a⟩) else [])

end Sys2Proof.Machine
end

