-- ==== Sys2Proof/Machine/Engines.lean ====
section
/-! DEFINITION. Issue and completion of engine commands, and the copies CPY and CPYR (R25, R114, R183, R191, R234,
R238 to R244, R319). -/

namespace Sys2Proof.Machine

/-! Issue (R238). -/

/-- The command that an instruction issues, its operand group read once. -/
def State.mkCmd (s : State) (kind : CmdKind) (op grp ctr buf rd : Nat) (acq rel : Bool) (scope : Nat) : Cmd :=
  { id := s.nextId, kind, op, core := s.cur, seq := s.curSeq, ctr, g0 := s.g (4 * grp), g1 := s.g (4 * grp + 1),
    g2 := s.g (4 * grp + 2), g3 := s.g (4 * grp + 3), ctx := s.me.ctx.toNat, priv := s.me.onPriv s.curSeq, acq, rel,
    scope, buf, rd, block := s.me.cur, since := s.clock }

/-- Wait until the sequencer's earlier writes and late accesses have been performed, as the release at CORE scope that an
issue carries asks (R234). -/
def settleOwn : Op Unit := do
  let s ← get
  if !s.mySeq.late.isEmpty || (s.me.xfersOf s.curSeq).any (fun x => !x.load) then throwWait

/-- Issue: the sequencer's earlier writes are performed, the checker has room and the counter can rise (R25, R234, R242);
`v` gives what RD takes at issue, none when it is written later. -/
def engineIssue (k : Cmd) (v : Cmd → Op (Option Nat)) : Op Post := do
  settleOwn
  let s ← get
  if 128 ≤ s.checkerCount s.cur || 4095 ≤ s.ecnt s.cur s.curSeq k.ctr then throwWait
  let r ← v k
  modify (fun s =>
    let s := { s with cmds := s.cmds ++ [k], nextId := s.nextId + 1 }
    match r with
    | some x => s.setG k.rd (BitVec.ofNat 32 x)
    | none => s)
  return .next

/-- The registers of an operand group. -/
def groupRegs (grp : Nat) : List Nat := [4 * grp, 4 * grp + 1, 4 * grp + 2, 4 * grp + 3]

/-- An instruction of format E (R86, R238). -/
def engineInstr (i : Instr) (c : Ctl) (kind : CmdKind) (op : Nat) (e : EngF) (v : Cmd → Op (Option Nat)) (s : State) :
    Out :=
  issue i c (if e.acq || e.rel then preScope e.scope else noPre) (groupRegs e.grp)
    (engineIssue (s.mkCmd kind op e.grp e.ctr e.buf e.rd e.acq e.rel e.scope) v) s

/-- RD takes 0 at issue. -/
def rdZero (_ : Cmd) : Op (Option Nat) := pure (some 0)
/-- RD is written later. -/
def rdLater (_ : Cmd) : Op (Option Nat) := pure none

/-! Completion (R25, R191, R234, R239, R240). -/

/-- The die whose units serve a command; a fetch that the scheduler of die d starts has core number 288 + d (R69). -/
def Cmd.die (k : Cmd) : Nat := if k.core < 288 then dieOfCore k.core else k.core - 288

/-- A status code with float flags in [12:8] (R239). -/
def statusOf (code : Nat) (fl : Flags) : Nat := code + fl.toNat * 2 ^ 8

/-- The trap cause and EVA of a status (R240). -/
def Cmd.errCause (status : Nat) : Nat := if status % 256 = stSTASHFULL then cSTASHFULL else cENGERR
def Cmd.errEva (k : Cmd) (status prog : Nat) : Nat :=
  status + k.op * 2 ^ 16 + k.ctr * 2 ^ 24 + prog % 2 ^ 32 * 2 ^ 32

/-- Replace a command by what it has become. -/
def State.setCmd (s : State) (k : Cmd) : State := { s with cmds := s.cmds.map (fun x => if x.id == k.id then k else x) }

/-- Complete a command: its release, its bytes counted, its counter lowered, its error raised. -/
def State.finish (s : State) (k : Cmd) (status prog bytes : Nat) : State :=
  let gone := s.cmds.filter (fun x => x.id != k.id)
  if 288 ≤ k.core then { s with cmds := gone }
  else
    let s := { s.stallSync k.core k.seq with cmds := gone }
    let s := if k.rel && hostScope k.scope then { s.sendHost with pcie := s.pcie ++ [.zeroRead] } else s
    let s := s.addHot k.core k.buf bytes
    let s := if k.seq == .C then s.modCore k.core (fun c => { c with event := true }) else s
    if status % 256 = stOK then s else s.raiseA k.core k.seq (Cmd.errCause status) (k.errEva status prog)

def finishCmd (k : Cmd) (status prog bytes : Nat) : Op Unit := modify (fun s => s.finish k status prog bytes)

/-- Write RD of a completed command, in the bank that its sequencer used (R252, R256). -/
def State.putRd (s : State) (k : Cmd) (v : Nat) : State :=
  s.modCore k.core (fun c =>
    if k.rd = 0 then c
    else if k.priv then
      { c with pg := Store.set 0 c.pg k.rd (BitVec.ofNat 32 v), pgPoison := c.pgPoison - fieldOf c.pgPoison k.rd 1 * 2 ^ k.rd }
    else c.modSeq k.seq (fun x => { x with
      g := Store.set 0 x.g k.rd (BitVec.ofNat 32 v), gPoison := x.gPoison - fieldOf x.gPoison k.rd 1 * 2 ^ k.rd }))

/-- Write a 16-bit STATUS at `va` for a command: its own status when that is an error already, else that of a failed
write (R244). -/
def putStatus16 (agent : Nat) (k : Cmd) (va status : Nat) : Op Nat := do
  match ← engPa agent k.die k.ctx k.priv .store va with
  | .ok (.mem pa) => do
    modify (fun s => s.publishN pa 2 status)
    return status
  | .ok (.ctl d o) => do
    modify (fun s => s.ctlPut d o ((bytesOf status 2).map (fun b => (b, false))))
    return status
  | .error e => return if status % 256 = stOK then statusOf e 0 + status else status

/-- The core's buffered lines that `sel` selects are published before a unit outside the core reads them (R234), which
ends a superstep (R232). -/
def flushFor (k : Cmd) (sel : PLine → Bool) : Op Unit :=
  if k.core < 288 then flushEarly k.core sel else pure ()

/-- A buffered line of a command's context within `n` bytes at a virtual address. -/
def lineInVa (ctx va n : Nat) (l : PLine) : Bool := l.ctx == ctx && l.va < va + n && va < l.va + 128

/-! Combining (R244, R253). -/

/-- The element types RT and their bytes. -/
def rtTy (rt : Nat) : Ty := match rt with | 0 => .f32 | 1 => .bf16 | 2 => .i32 | _ => .i64
def rtBytes (rt : Nat) : Nat := match rt with | 0 => 4 | 1 => 2 | 2 => 4 | _ => 8

/-- One element pair, `r` the generator's word for it. -/
def combineElem (rt ro : Nat) (sr : Bool) (r t x : Nat) : Nat × Flags :=
  match ro with
  | 0 => arith (rtTy rt) (if sr then .sr else .rne) false (· + ·) (Val.add false) r t x
  | 1 => minmaxTy true (rtTy rt) t x
  | _ => minmaxTy false (rtTy rt) t x

/-- Combine the bytes `xs` into `ts`, the first element having number `e0` in its transfer; `row` gives the generator
word of an element's row. A result element formed from poison is poisoned (R282). -/
def combineBytes (rt ro : Nat) (sr : Bool) (row : Nat → Nat) (e0 : Nat) (ts xs : List RByte) : List RByte × Flags :=
  let n := rtBytes rt
  (List.range (ts.length / n)).foldl (fun acc i =>
    let t := (ts.drop (n * i)).take n
    let x := (xs.drop (n * i)).take n
    let e := e0 + i
    let (v, fl) := combineElem rt ro sr (rotl32 (row (e / 64)) (e % 64 % 32)) (rbytesNat t) (rbytesNat x)
    let po := anyPoison t || anyPoison x
    (acc.1 ++ (bytesOf v n).map (fun b => (b, po)), acc.2 ||| fl)) ([], 0)

/-! Copy endpoints (R243, R244). -/

inductive EndPt where
  | loc (a : Nat)
  | adr (va : Nat)
  | tens (tid : Nat) (d : TDesc) (v first off : Nat)
  deriving DecidableEq, Repr

/-- Where granule `g` of an endpoint lies: in the local store, at a physical address, in control space, or in a tile. -/
inductive Spot16 where
  | loc (a : Nat)
  | mem (va pa : Nat)
  | ctl (va die off : Nat)
  | tile (tid : Nat) (d : TDesc) (v x pa off : Nat) (t : Tte)
  deriving DecidableEq, Repr

/-- Reach granule `g` of an endpoint. -/
def EndPt.reach (k : Cmd) (dst : Bool) (g : Nat) : EndPt → Op (ER Spot16)
  | .loc a => return .ok (.loc (a + 16 * g))
  | .adr va => do
    match ← engPa (agentCopy k.core) k.die k.ctx k.priv (if dst then .store else .load) (addrAdd va (16 * g)) with
    | .ok (.mem pa) => return .ok (.mem (addrAdd va (16 * g)) pa)
    | .ok (.ctl d o) => return .ok (.ctl (addrAdd va (16 * g)) d o)
    | .error e => return .error e
  | .tens tid d v first off => do
    let p := off + 16 * g
    let x := first + p / d.tileBytes
    match ← tileOf d v x with
    | .ok pa t => return .ok (.tile tid d v x pa (p % d.tileBytes) t)
    | .bad => return .error stTENSOR
    | .absent => return .error stNONRES
    | .notmap => return .error stNOTMAP
    | .poison => return .error stDESC

/-- Whether the command was issued by the block current now. -/
def Cmd.noted (k : Cmd) : Bool := k.block.isSome

/-- Read a granule: the core's own buffered bytes are merged (R222), and the read enters the block's read set (R262). -/
def Spot16.read (k : Cmd) : Spot16 → Op (List RByte)
  | .loc a => do return ((← get).core k.core).lsBytes a 16
  | .mem va pa => do
    if k.noted then modify (fun s => s.noteRead k.core va 16)
    return (← get).streamBytes k.core pa 16
  | .ctl va d o => do
    if k.noted then modify (fun s => s.noteRead k.core va 16)
    return (← get).ctlBytes d o 16
  | .tile _ _ _ _ pa off _ => do return (← get).streamBytes k.core (pa + off) 16

/-- A write of an engine to memory is published, or let go to be published later where the command has no REL (R234). -/
def State.engineWrite (s : State) (k : Cmd) (pa : Nat) (bs : List RByte) : State :=
  if s.relax && !k.rel && k.core < 288 then { s with posted := s.posted ++ [⟨k.core, k.seq, pa, bs⟩] }
  else s.publishBytes pa bs

/-- Where in memory a granule is read. -/
def Spot16.pa : Spot16 → Option Nat
  | .mem _ pa => some pa
  | .tile _ _ _ _ pa off _ => some (pa + off)
  | _ => none

/-- A copy's request for a line, at the first of its granules there (R175). -/
def requestAt (k : Cmd) (g : Nat) (pa : Option Nat) : Op Unit :=
  match pa with
  | some a => if g = 0 || a % 128 = 0 then modify (fun s => s.requestLine k.core a) else pure ()
  | none => pure ()

/-- Write a granule (R211, R212, R259, R282): where in memory it went. -/
def Spot16.write (k : Cmd) (bs : List RByte) : Spot16 → Op (ER (Option Nat))
  | .loc a => do
    modify (fun s => s.modCore k.core (fun c => c.lsWrite a bs))
    return .ok none
  | .mem _ pa => do
    modify (fun s => s.engineWrite k pa bs)
    return .ok (some pa)
  | .ctl _ d o => do
    modify (fun s => s.ctlPut d o bs)
    return .ok none
  | .tile tid d v x _ off t => do
    match ← cowTile k.die k.ctx tid d v x t with
    | .empty => return .error stCOWFAIL
    | .ok pa => do
      modify (fun s => s.engineWrite k (pa + off) bs)
      stampTile k.die k.ctx d v x
      if anyPoison bs then poisonTile d v x
      return .ok (some (pa + off))

/-- Resolve an endpoint and make its TENSOR checks (R70, R239, R244). -/
def endPoint (k : Cmd) (kind a b : Nat) (dst : Bool) (size : Nat) : Op (ER EndPt) := do
  match kind with
  | 0 => return .ok (.loc (a % 2 ^ 21))
  | 1 => return .ok (.adr a)
  | _ => do
    let tid := a % 2 ^ 32
    let first := a / 2 ^ 32
    let off := b % 2 ^ 32
    match ← tdesc k.die k.ctx tid with
    | .notmap => return .error stNOTMAP
    | .bad => return .error stTENSOR
    | .poison => return .error stDESC
    | .ok d =>
      let v := if d.vers then fieldOf b 32 3 else 0
      if d.nt ≤ first || d.nt * d.tileBytes < first * d.tileBytes + off + size then return .error stTENSOR
      else if d.vers && (!d.hasVersion v || (dst && v != d.cur)) then return .error stTENSOR
      else return .ok (.tens tid d v first off)

/-- The checks on a copy's descriptor that need no translation, in the order of R244. -/
def CopyDesc.bad (d : CopyDesc) (cpyr : Bool) : Option Nat :=
  let al (kind a b : Nat) : Bool := (if kind = 2 then b else a) % 16 == 0
  let inLocal (kind a : Nat) : Bool := kind != 0 || a % 2 ^ 21 + d.size ≤ lsSize
  if !d.res0 || d.sk == 3 || d.dk == 3 ||
      (if cpyr then d.ro == 3 || (d.rsr && (d.rt != 1 || d.ro != 0)) else d.rt != 0 || d.ro != 0 || d.rsr) then
    some stDESC
  else if d.size % 16 != 0 then some stSIZE
  else if !al d.sk d.srca d.srcb || !al d.dk d.dsta d.dstb then some stALIGN
  else if !inLocal d.sk d.srca || !inLocal d.dk d.dsta then some stLOCAL
  else none

/-- Write granule `g` of the destination. -/
def copyPut (k : Cmd) (dst : EndPt) (g word : Nat) (bs : List RByte) (fl : Flags) : Op (ER (Nat × Flags)) := do
  match ← dst.reach k true g with
  | .error e => return .error e
  | .ok dp => do
    match ← dp.write k bs with
    | .error e => return .error e
    | .ok at_ => do
      requestAt k g at_
      return .ok (word, fl)

/-- One granule of a copy; `comb` for a CPYR. The generator of converter 2 steps once for each 64 elements (R128). -/
def copyGranule (k : Cmd) (src dst : EndPt) (comb : Option CopyDesc) (word g : Nat) : Op (ER (Nat × Flags)) := do
  match ← src.reach k false g with
  | .error e => return .error e
  | .ok sp => do
    let xs ← sp.read k
    requestAt k g sp.pa
    match comb with
    | none => copyPut k dst g word xs 0
    | some d => do
      match ← dst.reach k false g with
      | .error e => return .error e
      | .ok rp => do
        let ts ← rp.read k
        let per := 16 / rtBytes d.rt
        let word ←
          if d.rsr && per * g % 64 == 0 then (fun s =>
            let (w, s') := s.stepGen k.core 2
            .ok w s')
          else pure word
        let (bs, fl) := combineBytes d.rt d.ro d.rsr (fun _ => word) (per * g) ts xs
        copyPut k dst g word bs fl

/-- The granules in order: the code, the granules completed and the float flags (R241). -/
def copyRun (k : Cmd) (src dst : EndPt) (comb : Option CopyDesc) : List Nat → Nat → Flags → Nat → Op (Nat × Nat × Flags)
  | [], _, fl, n => pure (stOK, n, fl)
  | g :: t, word, fl, n => do
    match ← copyGranule k src dst comb word g with
    | .error e => return (e, n, fl)
    | .ok (w, f) => copyRun k src dst comb t w (fl ||| f) (n + 1)

/-- The 256-byte chunks of memory that an endpoint of `n` granules touches (R183). -/
def EndPt.chunks (k : Cmd) (dst : Bool) (n : Nat) (e : EndPt) : Op (List Nat) := do
  let l ← collect (List.range n) (fun g => e.reach k dst g)
  return (l.filterMap (fun x => match x with
    | .ok (.mem _ pa) => some (pa / 256)
    | .ok (.tile _ _ _ _ pa off _) => some ((pa + off) / 256)
    | _ => none)).eraseDups

/-- The tiles of the first `n` granules of a tensor endpoint that a copy has read enter the block's read set as one range
(R262). -/
def EndPt.note (k : Cmd) (n : Nat) : EndPt → Op Unit
  | .tens tid d _ first off =>
    if k.noted && n != 0 then
      modify (fun s => s.noteTiles k.core tid (first + off / d.tileBytes) (first + (off + 16 * n - 1) / d.tileBytes))
    else pure ()
  | _ => pure ()

/-- The granules of an endpoint that a copy which ended with code `code` after `prog` granules has read. -/
def EndPt.readTo (k : Cmd) (code prog : Nat) (e : EndPt) : Op Nat := do
  if code = stOK then return prog
  match ← e.reach k false prog with
  | .ok _ => return prog + 1
  | .error _ => return prog

/-- What a copy comes to: it goes on later with its calendar parts, or it ends with a status and its granules. -/
inductive CopyEnd where
  | parts (l : List Part)
  | done (status prog : Nat)
  deriving DecidableEq, Repr

/-- The copy itself (R244). -/
def copyWork (k : Cmd) (d : CopyDesc) : Op CopyEnd := do
  let cpyr := k.kind == .cpyr
  match d.bad cpyr with
  | some e => return .done e 0
  | none => do
    match ← endPoint k d.sk d.srca d.srcb false d.size with
    | .error e => return .done e 0
    | .ok src => do
      match ← endPoint k d.dk d.dsta d.dstb true d.size with
      | .error e => return .done e 0
      | .ok dst => do
        let n := d.size / 16
        let chunks ← if d.cal && k.phase == 0 then (do return (← src.chunks k false n) ++ (← dst.chunks k true n)) else pure []
        let parts := (← get).calParts k.core chunks.eraseDups
        if !parts.isEmpty then return .parts parts
        let (code, prog, fl) ← copyRun k src dst (if cpyr then some d else none) (List.range n) 0 0 0
        let m ← src.readTo k code prog
        src.note k m
        if cpyr then do
          let r ← if m = prog then pure prog else dst.readTo k code prog
          dst.note k r
        return .done (statusOf code fl) prog

/-- The copy engine reads the descriptor, and the copy's footprints are known (R242, R243). -/
def admitCopy (k : Cmd) : Op Unit := do
  let (code, words) := match ← k.readDesc with
    | .error e => (e, [])
    | .ok w => (stOK, w)
  let feet := if code = stOK then (copyDescOf words).foot else []
  modify (fun s => s.setCmd { k with admitted := true, code, words, feet })

/-- The work of a copy: it is admitted once every older entry is; then it completes, after its calendar parts and the older
entries that its local ranges meet (R183, R242), in one event (log 31). -/
def runCopy (k : Cmd) : Op Unit := do
  if !k.parts.isEmpty then throwWait
  if !k.admitted then do
    if !(← get).oldAdmitted k.core k.id then throwWait
    admitCopy k
  else do
    if !(← get).rangeFree k.core k.id k.foot then throwWait
    let va := addrAdd k.va0 0x28
    if k.code != stOK then do
      if k.va0 % 64 != 0 then finishCmd k k.code 0 0
      else do
        let st ← putStatus16 (agentCopy k.core) k va k.code
        finishCmd k st 0 0
    else do
      match ← copyWork k (copyDescOf k.words) with
      | .parts l => modify (fun s => s.setCmd { k with phase := 1, parts := l })
      | .done st prog => do
        let st ← putStatus16 (agentCopy k.core) k va st
        finishCmd k st prog (16 * prog)

def execCpy (c : Ctl) (e : EngF) (s : State) : Out := engineInstr (.cpy c e) c .cpy 0x90 e rdZero s
def execCpyr (c : Ctl) (e : EngF) (s : State) : Out := engineInstr (.cpyr c e) c .cpyr 0x91 e rdZero s

end Sys2Proof.Machine
end

