-- ==== Sys2Proof/Machine/Channels.lean ====
section
/-! DEFINITION. Tensor channels: CHSEND, CHRECV and CHREL, and the link events that serve them (R54, R55, R249 to R251,
R314 to R317, R405). -/

namespace Sys2Proof.Machine

/-- The agent of the channels of die `d` (R405). -/
def agChan (d : Nat) : Nat := agentDie d 3

/-! CHSEND (R250, R315, R316). -/

def Cmd.sendChan (k : Cmd) : Nat := fieldOf k.g2.toNat 18 6
def Cmd.sendPhase (k : Cmd) : Nat := fieldOf k.g2.toNat 16 2

/-- The checks that come before the first grant. -/
def chsendBad (k : Cmd) (s : State) : Option Nat :=
  let c := s.chan k.sendChan
  if fieldOf k.g2.toNat 24 8 != 0 then some stDESC
  else if !c.enabled || c.srccore != k.core then some stCHAN
  else if !(s.port c.port).trained then some stLINK
  else if k.g1.toNat % 16 != 0 || k.g1.toNat < 16 then some stSIZE
  else none

/-- The checks from the receiving channel's ring size on. -/
def chsendBad2 (k : Cmd) (g : Grant) : Option Nat :=
  if 2 ^ g.rlog < k.g1.toNat then some stCHAN
  else if k.g0.toNat % 16 != 0 then some stALIGN
  else if lsSize < k.g0.toNat + k.g1.toNat then some stLOCAL
  else if k.sendPhase == 0 && g.stgv then some stDESC
  else none

/-- Sends of a channel that are still to be served before this one. -/
def State.sendsBefore (s : State) (k : Cmd) : Bool :=
  s.cmds.any (fun x => x.kind == .chsend && x.phase == 0 && x.sendChan == k.sendChan && x.id < k.id)

/-- Send the message (R250). The grant stays as received; what has been sent since counts against it (log 35). -/
def sendMsg (k : Cmd) (g : Grant) : Op Unit := do
  let s ← get
  let n := k.sendChan
  let c := s.chan n
  let bs := (s.core k.core).lsBytes k.g0.toNat k.g1.toNat
  let hdr : MsgHdr := ⟨k.g2.toNat % 65536, k.sendPhase, k.g3.toNat, k.g1.toNat⟩
  let g' : Grant := { g with sent := g.sent + k.g1.toNat }
  let k' : Cmd := { k with phase := 1 }
  modify (fun s => (s.sendParts c.port flitData c.remch 0 hdr bs).setChan n { c with grant := some g' })
  modify (fun s => s.setCmd k')

def runChsend (k : Cmd) : Op Unit := do
  let s ← get
  if k.phase != 0 then throwWait
  match chsendBad k s with
  | some e => finishCmd k e 0 0
  | none =>
    match (s.chan k.sendChan).grant with
    | none => throwWait
    | some g =>
      match chsendBad2 k g with
      | some e => finishCmd k e 0 0
      | none => do
        if s.sendsBefore k || g.window < g.sent + k.g1.toNat then throwWait
        if !s.rangeFree k.core k.id (footOf k.g0.toNat k.g1.toNat false) then throwWait
        sendMsg k g

/-- RD of a CHSEND: the window, 0 before any grant. -/
def rdWindow (k : Cmd) : Op (Option Nat) := do
  let s ← get
  return some (((s.chan k.sendChan).grant.map (·.window)).getD 0)

/-! CHRECV and CHREL (R250, R315 to R317). -/

def Cmd.recvChan (k : Cmd) : Nat := k.g0.toNat % 64

/-- A core may receive on a channel of its own context (R314). -/
def recvBad (k : Cmd) (c : TChan) : Option Nat :=
  if 64 ≤ k.g0.toNat then some stDESC
  else if !c.enabled || c.rctx != k.ctx then some stCHAN
  else none

def chrecvBad (k : Cmd) (c : TChan) : Option Nat :=
  match recvBad k c with
  | some e => some e
  | none =>
    if k.g2.toNat % 16 != 0 || 2 ^ c.rlog < k.g2.toNat then some stSIZE
    else if k.g3.toNat % 16 != 0 || k.g1.toNat % 16 != 0 then some stALIGN
    else if lsSize < k.g3.toNat + k.g2.toNat then some stLOCAL
    else none

/-- The ring's address at byte `o`. -/
def TChan.ringVa (c : TChan) (o : Nat) : Nat := addrAdd c.w1.toNat (o % 2 ^ c.rlog)

/-- Copy granules of the ring to the local store: the code and the granules done. -/
def recvRun (k : Cmd) (n : Nat) (c : TChan) : List Nat → Op (Nat × Nat)
  | [] => pure (stOK, k.g2.toNat / 16)
  | i :: t => do
    let va := c.ringVa (k.g1.toNat + 16 * i)
    match ← engPa (agChan (chanDie n)) (chanDie n) c.rctx k.priv .load va with
    | .error e => return (e, i)
    | .ok a => do
      if k.noted then modify (fun s => s.noteRead k.core va 16)
      modify (fun s => s.modCore k.core (fun x => x.lsWrite (k.g3.toNat + 16 * i) (a.bytes s (s.plainBytes · 16) 16)))
      recvRun k n c t

def runChrecv (k : Cmd) : Op Unit := do
  let s ← get
  let c := s.chan k.recvChan
  match chrecvBad k c with
  | some e => finishCmd k e 0 0
  | none => do
    if !s.rangeFree k.core k.id k.foot then throwWait
    flushFor k (lineInVa c.rctx c.w1.toNat (2 ^ c.rlog))
    let (e, n) ← recvRun k k.recvChan c (List.range (k.g2.toNat / 16))
    finishCmd k e n (16 * n)

/-- The status that a CHREL comes to. -/
def chrelBad (k : Cmd) (c : TChan) : Option Nat :=
  match recvBad k c with
  | some e => some e
  | none => if k.g1.toNat % 16 != 0 || c.delivered - c.released < k.g1.toNat then some stCHAN else none

def runChrel (k : Cmd) : Op Unit := do
  let c := (← get).chan k.recvChan
  match chrelBad k c with
  | some e => finishCmd k e 0 0
  | none => do
    let c' : TChan := { c with released := c.released + k.g1.toNat }
    modify (fun s =>
      let s := s.setChan k.recvChan c'
      if k.g1 = 0 then s else s.sendGrant k.recvChan)
    finishCmd k stOK 0 0

/-- RD of a CHREL: the window after the release that it is about to make. -/
def rdRelease (k : Cmd) : Op (Option Nat) := do
  let c := (← get).chan k.recvChan
  return some (c.window + (if (chrelBad k c).isNone then k.g1.toNat else 0))

def execChsend (c : Ctl) (e : EngF) (s : State) : Out := engineInstr (.chsend c e) c .chsend 0x95 e rdWindow s
def execChrecv (c : Ctl) (e : EngF) (s : State) : Out := engineInstr (.chrecv c e) c .chrecv 0x96 e rdZero s
def execChrel (c : Ctl) (e : EngF) (s : State) : Out := engineInstr (.chrel c e) c .chrel 0x97 e rdRelease s

/-! Arriving flits (R54, R55, R250, R251). -/

/-- The delivery counter of channel `n` rises by `l` at its home slice; an address that fails leaves it (log 36). -/
def countDelivery (n l : Nat) : Op Unit := do
  let c := (← get).chan n
  if c.w3 = 0 then return ()
  match ← xlAgent (agChan (chanDie n)) (chanDie n) c.rctx .atomic c.w3.toNat with
  | none => pure ()
  | some pa => if pa % 8 = 0 then modify (fun s => s.publishN pa 8 ((s.rd pa 8 + l) % 2 ^ 64)) else pure ()

/-- The last of a delivery: the counter, the grant and the acknowledgement. -/
def delivered (n l : Nat) : Op Unit := do
  countDelivery n l
  modify (fun s => (s.sendGrant n).sendAck n stOK (l / 16))

/-- The arrival record of a message (R54). -/
def recordOf (n : Nat) (hdr : MsgHdr) (off : Nat) : DWord × DWord :=
  (BitVec.ofNat 64 (hdr.tag % 65536 + hdr.phase % 4 * 2 ^ 16 + n * 2 ^ 18 + hdr.tensor % 2 ^ 32 * 2 ^ 32),
    BitVec.ofNat 64 (off % 2 ^ 32 + hdr.length % 2 ^ 32 * 2 ^ 32))

/-- Write a payload into the ring at offset `o`, piece by piece where the ring ends; the status of the first failure. -/
def ringWrite (n o : Nat) (c : TChan) (bs : List RByte) : Op Nat := do
  let first := 2 ^ c.rlog - o % 2 ^ c.rlog
  let put (va : Nat) (l : List RByte) : Op Nat := do
    let ps ← collect (pageParts va l.length) (fun p => do
      return (← engPa (agChan (chanDie n)) (chanDie n) c.rctx false .store p.1, p))
    match ps.findSome? (fun p => match p.1 with | .error e => some e | .ok _ => none) with
    | some e => return e
    | none => do
      forAll ps (fun p => match p.1 with
        | .ok (.mem pa) => modify (fun s => s.publishBytes pa ((l.drop ((p.2.1 + 2 ^ 64 - va) % 2 ^ 64)).take p.2.2))
        | _ => pure ())
      return stOK
  let e ← put (c.ringVa o) (bs.take first)
  if e != stOK || bs.length ≤ first then return e else put (c.ringVa 0) (bs.drop first)

/-- A message has arrived whole: counts, record, acknowledgement (R250). -/
def messageDone (n : Nat) (hdr : MsgHdr) : Op Unit := do
  let c := (← get).chan n
  let r := recordOf n hdr (c.delivered % 2 ^ c.rlog)
  let c' : TChan := { c with delivered := c.delivered + hdr.length, rxBytes := 0, rxFail := false,
                             recs := if c.stgv then c.recs ++ [r] else c.recs }
  modify (fun s => s.setChan n c')
  if !c.stgv then delivered n hdr.length

/-- The payload of a data flit of channel `n`. -/
def takeData (n off : Nat) (last : Bool) (hdr : MsgHdr) (payload : List RByte) : Op Unit := do
  let c := (← get).chan n
  if !c.enabled then return ()
  let e ← if c.rxFail then pure stOK else ringWrite n (c.delivered + off) c payload
  let fail := c.rxFail || e != stOK
  let c' : TChan := { c with rxBytes := c.rxBytes + payload.length, rxFail := fail }
  modify (fun s =>
    let s := s.setChan n c'
    if e != stOK then s.sendAck n e (c.rxBytes / 16) else s)
  if last then do
    if !fail && c'.rxBytes = hdr.length then messageDone n hdr
    else modify (fun s => s.setChan n { c' with rxBytes := 0, rxFail := false })

/-- DATA_FLIT: a bad CRC or a gap in the sequence discards the flit, of whatever type, and answers with a negative
acknowledgement. The events of the other types are flits that have come in sequence. -/
def execDataFlit (port seqNo chan off : Nat) (crcOk last : Bool) (hdr : MsgHdr) (payload : List RByte) (s : State) : Out :=
  event (do
    let q := (← get).port port
    if !q.trained then return ()
    if !crcOk || seqNo != q.rx % 65536 then
      modify (fun s => (s.setPort port { q with nacks := q.nacks + 1 }).sendFlit port flitNak 0 0 noHdr
        (clean (bytesOf (q.rx % 65536) 2)))
    else do
      takeData chan off last hdr payload
      modify (fun s => s.tookFlit port)) s

/-- WINDOW_GRANT: the sending channel keeps the latest grant (R250). -/
def execWindowGrant (chan window rlog : Nat) (stgv : Bool) (s : State) : Out :=
  event (modify (fun s =>
    (s.setChan chan { s.chan chan with grant := some ⟨window, rlog, stgv, 0⟩ }).tookFlit (s.chan chan).port)) s

/-- The oldest thing that channel `n` has sent and not seen acknowledged: a CHSEND, or a transfer of a COLL. -/
def State.unacked (s : State) (n : Nat) : Option Cmd :=
  s.cmds.find? (fun k => (k.kind == .chsend && k.phase == 1 && k.sendChan == n) ||
    (k.kind == .coll && k.walk.sent.contains n))

/-- A message that its receiver has refused takes nothing from the window any more (log 35). -/
def TChan.refused (c : TChan) (l : Nat) : TChan := { c with grant := c.grant.map (fun g => { g with sent := g.sent - l }) }

/-- ACKNOWLEDGEMENT_OF_PUBLICATION: a CHSEND completes with the status its ring write ended in, and the granules written
before a failure; a transfer of a COLL is acknowledged. -/
def execAcknowledgementOfPublication (chan : Nat) (status : AckOf) (s : State) : Out :=
  event (do
    modify (fun s => s.tookFlit (s.chan chan).port)
    match (← get).unacked chan with
    | none => pure ()
    | some k =>
      if k.kind == .chsend then do
        if status.code != stOK then modify (fun s => s.setChan chan ((s.chan chan).refused k.g1.toNat))
        finishCmd k status.code (if status.code = stOK then 0 else status.prog) (if status.code = stOK then k.g1.toNat else 0)
      else do
        let w : Walk := { k.walk with sent := k.walk.sent.erase chan, acked := k.walk.acked + 1 }
        modify (fun s => s.setCmd { k with walk := w })) s

/-- NEGATIVE_ACKNOWLEDGEMENT: the stored flits from that number are sent again, unchanged; repeated requests for one
flit are counted (R251). -/
def execNegativeAcknowledgement (port seqNo : Nat) (s : State) : Out :=
  event (modify (fun s =>
    let q := (s.tookFlit port).port port
    let again := q.replay.dropWhile (fun f => f.seqNo != seqNo)
    s.setPort port { q with
      wire := q.wire ++ again, replayNo := seqNo, replays := if q.replayNo = seqNo then q.replays + 1 else 1 })) s

/-- Whether a command uses port `p` now. -/
def State.usesPort (s : State) (k : Cmd) (p : Nat) : Bool :=
  (k.kind == .chsend && (s.chan k.sendChan).port == p) ||
    (k.kind == .coll && k.walk.sent.any (fun n => (s.chan n).port == p))

end Sys2Proof.Machine
end

