-- ==== Sys2Proof/Machine/Collect.lean ====
section
/-! DEFINITION. The collective walkers: COLL and COLLECTIVE_FLIT (R252 to R254, R318). -/

namespace Sys2Proof.Machine

/-! The collective record (R252). -/

def Walk.w (x : Walk) (i : Nat) : Nat := x.words.getD i 0
def Walk.mode (x : Walk) : Nat := fieldOf (x.w 0) 0 2
def Walk.nlev (x : Walk) : Nat := fieldOf (x.w 0) 2 2 + 1
def Walk.rt (x : Walk) : Nat := fieldOf (x.w 0) 4 2
def Walk.ro (x : Walk) : Nat := fieldOf (x.w 0) 6 2
def Walk.rsr (x : Walk) : Bool := bit (x.w 0) 8
/-- The shared-exponent width in bits. -/
def Walk.sew (x : Walk) : Nat := 8 * 2 ^ fieldOf (x.w 0) 9 2
def Walk.cid (x : Walk) : Nat := fieldOf (x.w 0) 16 16
def Walk.grp (x : Walk) : Nat := fieldOf (x.w 0) 32 16
def Walk.me (x : Walk) : Nat := fieldOf (x.w 0) 48 16
def Walk.tlen (x : Walk) : Nat := fieldOf (x.w 6) 0 32
def Walk.incnt (x : Walk) : Nat := fieldOf (x.w 6) 32 32
def Walk.finFirst (x : Walk) : Nat := fieldOf (x.w 7) 0 32
def Walk.finCnt (x : Walk) : Nat := fieldOf (x.w 7) 32 32
def Walk.nelem (x : Walk) : Nat := fieldOf (x.w 8) 0 32
def Walk.bound (x : Walk) (k : Nat) : Nat := fieldOf (x.w (16 + 2 * k)) 0 24
def Walk.gate (x : Walk) (k : Nat) : Bool := bit (x.w (16 + 2 * k)) 31
def Walk.pa (x : Walk) (k : Nat) : Int := sint 16 (fieldOf (x.w (16 + 2 * k)) 32 16)
def Walk.pb (x : Walk) (k : Nat) : Int := sint 16 (fieldOf (x.w (16 + 2 * k)) 48 16)
def Walk.sstr (x : Walk) (k : Nat) : Int := sint 32 (fieldOf (x.w (17 + 2 * k)) 0 32)
def Walk.dstr (x : Walk) (k : Nat) : Int := sint 32 (fieldOf (x.w (17 + 2 * k)) 32 32)

def Walk.bounds (x : Walk) : List Nat := (List.range x.nlev).map x.bound
/-- The outgoing transfers. -/
def Walk.total (x : Walk) : Nat := x.bounds.foldl (· * ·) 1

/-- The iteration numbers of transfer n, level 0 outermost. -/
def iterOf : List Nat → Nat → List Nat
  | [], _ => []
  | b :: t, n =>
    let inner := t.foldl (· * ·) 1
    (n / inner % b) :: iterOf t n

/-- The sum over the levels of `f k i_k`. -/
def Walk.sum (x : Walk) (n : Nat) (f : Nat → Int → Int) : Int :=
  ((iterOf x.bounds n).zipIdx).foldl (fun a p => a + f p.2 p.1) 0

/-- Peer, source offset and destination offset of transfer n (R253). -/
def Walk.peer (x : Walk) (n : Nat) : Nat :=
  (((x.me : Int) + x.sum n (fun k i => x.pa k * i + x.pb k)).emod x.grp).toNat
def Walk.srcOff (x : Walk) (n : Nat) : Int := x.sum n (fun k i => i * x.sstr k)
def Walk.dstOff (x : Walk) (n : Nat) : Int := x.sum n (fun k i => i * x.dstr k)

/-- Whether the gates let transfer n start. -/
def Walk.gatesOpen (x : Walk) (n : Nat) : Bool :=
  ((iterOf x.bounds n).zipIdx).all (fun p => !x.gate p.2 || p.1 == 0 || p.1 * (x.incnt / x.bound p.2) ≤ x.applied)

/-- The checks of R318. -/
def Walk.bad (x : Walk) : Option Nat :=
  let lv := List.range x.nlev
  if fieldOf (x.w 0) 11 5 != 0 || x.w 8 / 2 ^ 48 != 0 || ((x.words.drop 9).take 7).any (· != 0) ||
      (List.range 4).any (fun k => fieldOf (x.w (16 + 2 * k)) 24 7 != 0) || lv.any (fun k => x.bound k == 0) || x.mode == 3 ||
      (x.mode == 1 && (x.ro == 3 || (x.rsr && (x.rt != 1 || x.ro != 0)))) ||
      (x.mode == 2 && fieldOf (x.w 0) 9 2 == 3) || x.grp == 0 || 4096 < x.grp || x.grp ≤ x.me then some stDESC
  else if x.tlen == 0 || x.tlen % 16 != 0 || (x.mode == 2 && x.nelem % 256 != 0) then some stSIZE
  else if [x.w 1, x.w 2, x.w 4, x.w 5].any (fun a => a % 16 != 0) then some stALIGN
  else none

/-! A walker's accesses. -/

/-- The agent that serves a COLL: its walker (R195). -/
def Cmd.agWalk (k : Cmd) : Nat := agentWalker k.die k.walk.no

/-- The pages of an access of a walker, or why it fails; one that touches both halves is not mapped (R194). -/
def walkPages (k : Cmd) (acc : Acc) (va n : Nat) : Op (ER (List (EngAt × Nat × Nat))) := do
  if crossesHalf va (addrAdd va (n - 1)) then return .error stNOTMAP
  let ps ← collect (pageParts va n) (fun p => do return (← engPa k.agWalk k.die k.ctx k.priv acc p.1, p))
  match ps.findSome? (fun p => match p.1 with | .error e => some e | .ok _ => none) with
  | some e => return .error e
  | none => return .ok (ps.filterMap (fun p => match p.1 with | .ok a => some (a, p.2) | .error _ => none))

/-- Read bytes at a virtual address. -/
def walkRead (k : Cmd) (va n : Nat) : Op (ER (List RByte)) := do
  match ← walkPages k .load va n with
  | .error e => return .error e
  | .ok ps => do
    let s ← get
    return .ok (ps.flatMap (fun p => p.1.bytes s (s.plainBytes · p.2.2) p.2.2))

/-- Write bytes at a virtual address, all or none. -/
def walkWrite (k : Cmd) (va : Nat) (bs : List RByte) : Op (ER Unit) := do
  match ← walkPages k .store va bs.length with
  | .error e => return .error e
  | .ok ps => do
    forAll ps (fun p => modify (fun s =>
      let part := (bs.drop ((p.2.1 + 2 ^ 64 - va) % 2 ^ 64)).take p.2.2
      match p.1 with
      | .mem pa => s.engineWrite k pa part
      | .ctl d o => s.ctlPut d o part))
    return .ok ()

/-- An address with a signed byte offset. -/
def addrOff (a : Nat) (o : Int) : Nat := uint 64 ((a : Int) + o)

/-- Elements of `w` bytes from bytes, each with its poison. -/
def elemsOf (w : Nat) (bs : List RByte) : List (Nat × Bool) :=
  (List.range (bs.length / w)).map (fun i =>
    let b := (bs.drop (w * i)).take w
    (rbytesNat b, anyPoison b))

def bytesOfElems (w : Nat) (es : List (Nat × Bool)) : List RByte :=
  (es.map (fun e => (bytesOf e.1 w).map (fun b => (b, e.2)))).flatten

/-! Finding and changing commands. -/

def State.modCmd (s : State) (id : Nat) (f : Cmd → Cmd) : State :=
  { s with cmds := s.cmds.map (fun k => if k.id == id then f k else k) }

def State.modWalk (s : State) (id : Nat) (f : Walk → Walk) : State := s.modCmd id (fun k => { k with walk := f k.walk })

/-- The walker of die `d` that serves `cid`. -/
def State.walker (s : State) (d cid : Nat) : Option Cmd :=
  s.cmds.find? (fun k => k.kind == .coll && k.walk.started && k.die == d && k.walk.cid == cid)

/-- End a COLL: STATUS, then its completion; `prog` transfers are done. -/
def endColl (k : Cmd) (code : Nat) (prog : Nat := k.walk.iter) : Op Unit := do
  let st ← putStatus16 k.agWalk k (addrAdd k.va0 0x44) (statusOf code k.flags)
  finishCmd k st prog (prog * k.walk.tlen)

/-! Applying a transfer (R253, R254). -/

/-- Round 1: three bytes per block, the exponent and the special mark. -/
def expBytes (eb : List Int) (sp : List Bool) : List RByte :=
  ((eb.zip sp).map (fun p => (bytesOf (uint 16 p.1 + bitAt p.2 16) 3).map (fun b => (b, false)))).flatten

def expsOf (bs : List RByte) : List Int × List Bool :=
  let l := elemsOf 3 bs
  (l.map (fun e => sint 16 (e.1 % 65536)), l.map (fun e => bit e.1 16))

/-- Whether a walker can apply a message now: round 2 waits for the encoding. -/
def Walk.ready (x : Walk) (m : CollMsg) : Bool := m.round1 || x.mode != 2 || x.encoded

/-- Acknowledge a transfer to its sender, on this package or over the channel it came on (R253). -/
def ackSrc (m : CollMsg) : Op Unit :=
  match m.src, m.via with
  | some id, _ => modify (fun s => s.modWalk id (fun w => { w with acked := w.acked + 1 }))
  | none, some n => if m.round1 then pure () else modify (fun s => s.sendAck n stOK 0)
  | none, none => pure ()

/-- The blocks of WORK, of 256 elements, that `n` elements from element `j` on touch (R254). -/
def blocksOf (j : Int) (n : Nat) : List Nat := ((List.range n).map (fun (i : Nat) => ((j + i).fdiv 256).toNat)).eraseDups

/-- The bytes that a message leaves at the destination, and the flags raised. -/
def combineMsg (k : Cmd) (m : CollMsg) (old : List RByte) : Op (List RByte × Flags) := do
  let x := k.walk
  if x.mode = 2 then
    return (bytesOfElems 8 ((elemsOf 8 old).zip (elemsOf 8 m.payload) |>.map (fun p =>
      ((p.1.1 + p.2.1) % 2 ^ 64, p.1.2 || p.2.2))), 0)
  else if x.mode = 1 then do
    let n := m.payload.length / rtBytes x.rt
    let rows ← if x.rsr then (fun s =>
        let (r, s') := s.stepRows k.core 2 ((n + 63) / 64)
        .ok r s')
      else pure []
    return combineBytes x.rt x.ro x.rsr (fun r => rows.getD r 0) 0 old m.payload
  else return (m.payload, 0)

/-- Apply a message at the walker of command `id`. -/
def applyMsg (id : Nat) (m : CollMsg) : Op Unit := do
  match (← get).cmds.find? (fun k => k.id == id) with
  | none => pure ()
  | some k => do
    let x := k.walk
    ackSrc m
    if m.round1 then
      let (e, sp) := expsOf m.payload
      modify (fun s => s.modWalk id (fun w => { w with
        eb := (w.eb.zip e).map (fun p => max p.1 p.2), special := (w.special.zip sp).map (fun p => p.1 || p.2),
        round1 := w.round1 + 1 }))
    else do
      let va := if x.mode = 2 then addrOff (x.w 4) (8 * (sint 64 m.off).fdiv 4) else addrAdd (x.w 2) m.off
      if x.mode = 1 && k.noted then modify (fun s => s.noteRead k.core va m.payload.length)
      let old ← if x.mode = 0 then pure (.ok []) else walkRead k va m.payload.length
      match old with
      | .error e => endColl k e
      | .ok old => do
        let (bs, fl) ← combineMsg k m old
        match ← walkWrite k va bs with
        | .error e => endColl k e
        | .ok () =>
          modify (fun s => s.modCmd id (fun k => { k with
            flags := k.flags ||| fl, walk := { k.walk with
              applied := k.walk.applied + 1,
              added := if x.mode = 2 then
                  (k.walk.added ++ blocksOf ((sint 64 m.off).fdiv 4) (m.payload.length / 8)).eraseDups else k.walk.added } }))

/-- Bytes in the hold buffer of a die. -/
def Die.held (d : Die) : Nat := sumOver d.hold (fun m => m.payload.length)

/-- Take a message in at die `d`: applied, or held when no walker can apply it yet or an earlier one of its identifier
still waits, for they apply in arrival order (R136, R253); a full buffer holds the sender. -/
def acceptMsg (d : Nat) (m : CollMsg) : Op Unit := do
  let s ← get
  match s.walker d m.cid with
  | some k =>
    if k.walk.ready m && !(s.die d).hold.any (fun x => x.cid == m.cid && k.walk.ready x) then applyMsg k.id m
    else hold s
  | none => hold s
where
  hold (s : State) : Op Unit := do
    if 65536 < (s.die d).held + m.payload.length then throwWait
    modify (fun s => s.modDie d (fun x => { x with hold := x.hold ++ [m] }))

/-- COLLECTIVE_FLIT: a transfer from another package, its elements widened again to those of WORK (R254). -/
def execCollectiveFlit (way : FlitWay) (cid off : Nat) (round1 : Bool) (payload : List RByte) (s : State) : Out :=
  event (do
    acceptMsg way.die ⟨cid, round1, off, payload, none, some way.chan⟩
    modify (fun s => s.tookFlit (s.chan way.chan).port)) s

/-! Sending. -/

/-- The entry of a peer, read when its first transfer is formed. -/
def peerEntry (k : Cmd) (p : Nat) : Op (ER Nat) := do
  match k.walk.peers.find? (fun e => e.1 == p) with
  | some e => return .ok e.2
  | none => do
    match ← walkRead k (addrAdd (k.walk.w 3) (8 * p)) 8 with
    | .error e => return .error e
    | .ok bs =>
      let v := rbytesNat bs
      if anyPoison bs || v - fieldOf v 0 6 - fieldOf v 8 1 * 2 ^ 8 - fieldOf v 31 1 * 2 ^ 31 != 0 then return .error stDESC
      else do
        modify (fun s => s.modWalk k.id (fun w => { w with peers := Store.insert p v w.peers }))
        return .ok v

/-- The pieces of a transfer as flits carry them: offset, bits per element and bytes. In shared-exponent mode a block of
WORK that has received no addition goes at SEW bits per element (R254). -/
def Walk.pieces (x : Walk) (n off : Nat) (round1 : Bool) (bs : List RByte) : List (Nat × Nat × List RByte) :=
  if x.mode != 2 || round1 then [(off, 0, bs)]
  else
    let j0 := (x.srcOff n).fdiv 4
    (blocksOf j0 (bs.length / 8)).map (fun b =>
      let mine : List Nat := (List.range (bs.length / 8)).filter (fun (i : Nat) => ((j0 + (i : Int)).fdiv 256).toNat == b)
      let w := if x.added.contains b then 8 else x.sew / 8
      (off + 4 * mine.headD 0, 8 * w, mine.flatMap (fun i => (bs.drop (8 * i)).take w)))

/-- Send a message to peer `p`: true when it counts as one of the command's own channel transfers. -/
def sendTo (k : Cmd) (p : Nat) (round1 : Bool) (off : Nat) (bs : List RByte) : Op (ER Unit) := do
  let src := if round1 then none else some k.id
  if p = k.walk.me then do
    acceptMsg k.die ⟨k.walk.cid, round1, off, bs, src, none⟩
    return .ok ()
  else do
    match ← peerEntry k p with
    | .error e => return .error e
    | .ok v =>
      if bit v 31 then do
        acceptMsg (fieldOf v 8 1) ⟨k.walk.cid, round1, off, bs, src, none⟩
        return .ok ()
      else do
        let n := fieldOf v 0 6
        let c := (← get).chan n
        if !c.enabled then return .error stCHAN
        if !((← get).port c.port).trained then return .error stLINK
        modify (fun s => ((k.walk.pieces k.walk.iter off round1 bs).foldl (fun s p =>
            s.sendParts c.port flitColl n p.1 ⟨k.walk.cid, (if round1 then 1 else 0), p.2.1, p.2.2.length⟩ p.2.2) s).modWalk k.id
          (fun w => { w with sent := if round1 then w.sent else w.sent ++ [n] }))
        return .ok ()

/-- Emit the next transfer (R253). -/
def emit (k : Cmd) : Op Unit := do
  let x := k.walk
  let n := x.iter
  let (va, len) :=
    if x.mode = 2 then (addrOff (x.w 4) (8 * (x.srcOff n).fdiv 4), 2 * x.tlen) else (addrOff (x.w 1) (x.srcOff n), x.tlen)
  flushFor k (lineInVa k.ctx va len)
  match ← walkRead k va len with
  | .error e => endColl k e
  | .ok bs => do
    if k.noted then modify (fun s => s.noteRead k.core va len)
    modify (fun s => s.modWalk k.id (fun w => { w with iter := n + 1 }))
    match ← sendTo k (x.peer n) false (uint 64 (x.dstOff n)) bs with
    | .error e => endColl k e
    | .ok () => pure ()

/-! Shared-exponent mode (R254). -/

def f32Val (v : Nat) : Val := fmtF32.decode v
def f32Of (v : Val) : Nat := (fmtF32.encode .rne 0 v).1
/-- v × 2^k. -/
def Val.scale2 (v : Val) (k : Int) : Val :=
  match v with
  | .fin s n d e => .fin s n d (e + k)
  | v => v

/-- The exponent of a block of values, −32,768 when none is finite and non-zero. -/
def blockExp (vs : List Nat) : Int := (maxExp (vs.filterMap (fun v => valExp (f32Val v)))).getD (-32768)

/-- Read SRC and RESID: v and the local exponents. DESIGN CHOICE (log 85): the flags of rounding v are not reported. -/
def loadValues (k : Cmd) : Op (ER (List Nat)) := do
  let x := k.walk
  flushFor k (fun l => lineInVa k.ctx (x.w 1) (4 * x.nelem) l || lineInVa k.ctx (x.w 5) (4 * x.nelem) l)
  match ← walkRead k (x.w 1) (4 * x.nelem) with
  | .error e => return .error e
  | .ok a => do
    match ← walkRead k (x.w 5) (4 * x.nelem) with
    | .error e => return .error e
    | .ok b => do
      if k.noted then modify (fun s => (s.noteRead k.core (x.w 1) (4 * x.nelem)).noteRead k.core (x.w 5) (4 * x.nelem))
      return .ok (((elemsOf 4 a).zip (elemsOf 4 b)).map (fun p =>
        f32Of ((f32Val p.1.1).add false (f32Val p.2.1)).1 + bitAt (p.1.2 || p.2.2) 32))

/-- The signed range of SEW bits. -/
def Walk.range (x : Walk) : Int × Int := (-(2 ^ (x.sew - 1) : Nat), (2 ^ (x.sew - 1) : Nat) - 1)

/-- Element j: its integer and its residual, each poisoned with v. DESIGN CHOICE (log 85): R253 reports the flags of everything
applied; the model counts those of the combining and final steps, and not those of the roundings in this encoding. -/
def Walk.encodeElem (x : Walk) (j : Nat) : (Nat × Bool) × (Nat × Bool) :=
  let raw := x.vs.getD j 0
  let po := bit raw 32
  if x.special.getD (j / 256) false then ((0, po), (0, po))
  else
    let v := f32Val (raw % 2 ^ 32)
    let e := x.eb.getD (j / 256) (-32768)
    let q := (toIntRange x.range.1 x.range.2 .rne 0 (v.scale2 ((x.sew : Int) - 2 - e))).1
    let back := (Val.ofInt q).scale2 (e - x.sew + 2)
    ((uint 64 q, po), (f32Of (v.add false back.neg).1, po))

/-- Write WORK and RESID. -/
def encodeWork (k : Cmd) : Op Unit := do
  let x := k.walk
  let es := (List.range x.nelem).map x.encodeElem
  match ← walkWrite k (x.w 4) (bytesOfElems 8 (es.map (·.1))) with
  | .error e => endColl k e
  | .ok () => do
    match ← walkWrite k (x.w 5) (bytesOfElems 4 (es.map (·.2))) with
    | .error e => endColl k e
    | .ok () => modify (fun s => s.modWalk k.id (fun w => { w with encoded := true }))

/-- One element of the final step; beyond NELEM no exponent is stated (log 37). -/
def finalElem (x : Walk) (j : Nat) (w : Nat × Bool) : Op ((Nat × Bool) × Flags) := do
  match x.special[j / 256]?, x.eb[j / 256]? with
  | some true, _ => return ((fmtF32.packNan, w.2), fNV)
  | _, some e => do
    let r := fmtF32.encode .rne 0 ((Val.ofInt (sint 64 w.1)).scale2 (e - x.sew + 2))
    return ((r.1, w.2), r.2)
  | _, none => return (((← draw) % 2 ^ 32, w.2), 0)

def finalStep (k : Cmd) : Op (ER Flags) := do
  let x := k.walk
  if x.mode != 2 || x.finCnt = 0 then return .ok 0
  match ← walkRead k (addrAdd (x.w 4) (8 * x.finFirst)) (8 * x.finCnt) with
  | .error e => return .error e
  | .ok bs => do
    if k.noted then modify (fun s => s.noteRead k.core (addrAdd (x.w 4) (8 * x.finFirst)) (8 * x.finCnt))
    let rs ← collect ((elemsOf 8 bs).zipIdx) (fun p => finalElem x (x.finFirst + p.2) p.1)
    match ← walkWrite k (addrAdd (x.w 2) (4 * x.finFirst)) (bytesOfElems 4 (rs.map (·.1))) with
    | .error e => return .error e
    | .ok () => return .ok (orAll (rs.map (·.2)))

/-! The walk. -/

/-- The walkers of a die (R11). -/
def walkersPerDie : Nat := 8

/-- Take a walker and read the record (R252, R318). -/
def startColl (k : Cmd) : Op Unit := do
  let s ← get
  let busy := s.cmds.filter (fun x => x.kind == .coll && x.walk.started && x.die == k.die)
  if walkersPerDie ≤ busy.length then throwWait
  let no := ((List.range walkersPerDie).find? (fun n => !busy.any (fun x => x.walk.no == n))).getD 0
  let w0 : Walk := { k.walk with no }
  let k : Cmd := { k with walk := w0 }
  if k.va0 % 64 != 0 then finishCmd k stALIGN 0 0
  else do
    flushFor k (lineInVa k.ctx k.va0 192)
    match ← walkRead k k.va0 192 with
    | .error e => endColl k e
    | .ok bs => do
      if anyPoison bs then endColl k stDESC
      else do
        let w : Walk := { k.walk with words := (elemsOf 8 bs).map (·.1), started := true }
        if busy.any (fun x => x.walk.cid == w.cid) then throwWait
        modify (fun s => s.putRd k w.total)
        match w.bad with
        | some e => endColl { k with walk := w } e
        | none => do
          let k := { k with walk := w }
          modify (fun s => s.setCmd k)
          if w.mode = 2 then do
            match ← loadValues k with
            | .error e => endColl k e
            | .ok vs => do
              let blocks := runs256 vs
              modify (fun s => s.modWalk k.id (fun x => { x with
                vs, eb := blocks.map (fun b => blockExp (b.map (· % 2 ^ 32))),
                special := blocks.map (fun b => b.any (fun v => !(f32Val (v % 2 ^ 32)).isFin)) }))
where
  runs256 (l : List Nat) : List (List Nat) :=
    (List.range ((l.length + 255) / 256)).map (fun i => (l.drop (256 * i)).take 256)

/-- The first held message that the walker can apply. -/
def State.heldFor (s : State) (k : Cmd) : Option CollMsg :=
  (s.die k.die).hold.find? (fun m => m.cid == k.walk.cid && k.walk.ready m)

/-- The local exponents as round 1 sends them: those of v, before any other peer's are merged. -/
def Walk.localExps (x : Walk) : List RByte :=
  let blocks := (List.range ((x.vs.length + 255) / 256)).map (fun i => (x.vs.drop (256 * i)).take 256)
  expBytes (blocks.map (fun b => blockExp (b.map (· % 2 ^ 32))))
    (blocks.map (fun b => b.any (fun v => !(f32Val (v % 2 ^ 32)).isFin)))

/-- One piece of a walker's work. -/
def walkOn (k : Cmd) : Op Unit := do
  let s ← get
  let x := k.walk
  match s.heldFor k with
  | some m => do
    modify (fun s => s.modDie k.die (fun d => { d with hold := d.hold.erase m }))
    applyMsg k.id m
  | none =>
    if x.mode = 2 && x.told < x.grp then do
      modify (fun s => s.modWalk k.id (fun w => { w with told := x.told + 1 }))
      if x.told != x.me then do
        match ← sendTo k x.told true 0 x.localExps with
        | .error e => endColl k e
        | .ok () => pure ()
    else if x.mode = 2 && !x.encoded then
      if x.round1 + 1 = x.grp then encodeWork k else throwWait
    else if x.iter < x.total then
      if x.gatesOpen x.iter then emit k else throwWait
    else if x.acked = x.total && x.applied = x.incnt then do
      match ← finalStep k with
      | .error e => endColl k e
      | .ok fl => endColl { k with flags := k.flags ||| fl } stOK
    else throwWait

def runColl (k : Cmd) : Op Unit := if k.walk.started then walkOn k else startColl k

def execColl (c : Ctl) (e : EngF) (s : State) : Out := engineInstr (.coll c e) c .coll 0x98 e rdLater s

/-- PORT_DOWN: after 16 replays of one flit. Its commands complete LINK, a COLL with its STATUS written and its acknowledged
transfers as progress, and what has arrived in part is dropped (R240, R251, R252, R291). -/
def execPortDown (port : Nat) (s : State) : Out :=
  event (do
    let s ← get
    let q := s.port port
    if q.replays < 16 || !q.trained then return ()
    set (s.setPort port { q with trained := false })
    forAll (s.cmds.filter (fun k => s.usesPort k port)) (fun k =>
      if k.kind == .coll then endColl k stLINK k.walk.acked else finishCmd k stLINK 0 0)
    modify (fun s => (List.range 64).foldl (fun s n =>
      if (s.chan n).port = port then s.setChan n { s.chan n with rxBytes := 0, rxFail := false } else s) s)) s

end Sys2Proof.Machine
end

