-- ==== Sys2Proof/Machine/Reduce.lean ====
section
/-! DEFINITION. Push reduction: PRST, its combining and its time-out (R136, R255 to R257, R337). -/

namespace Sys2Proof.Machine

/-! The group table (R255). -/

/-- The die core numbers that take part, ascending. -/
def Group.members (g : Group) : List Nat := (List.range 144).filter (fun n => bit g.part n)

/-- A valid entry. -/
def Group.isValid (g : Group) : Bool := g.valid && g.op < 3 && !bit g.part 0 && g.count == g.members.length

/-! Elements: a pattern of 32 bits, with 2^32 added when it is poisoned. -/

def mark32 (v : Nat) (po : Bool) : Nat := v % 2 ^ 32 + bitAt po 32

/-- One combine: the lower leaf on the left, rounded once (R257). -/
def pushElem (op a b : Nat) : Nat × Flags :=
  let (v, fl) := match op with
    | 0 => combineElem 0 0 false 0 (a % 2 ^ 32) (b % 2 ^ 32)
    | 1 => combineElem 2 0 false 0 (a % 2 ^ 32) (b % 2 ^ 32)
    | _ => combineElem 0 1 false 0 (a % 2 ^ 32) (b % 2 ^ 32)
  (mark32 v (bit a 32 || bit b 32), fl)

/-- A node of the tree: its elements and the flags raised below it, or absent. -/
abbrev PushNode := Option (List Nat × Flags)

def pushNode (op : Nat) (a b : PushNode) : PushNode :=
  match a, b with
  | some x, some y =>
    let rs := (x.1.zip y.1).map (fun p => pushElem op p.1 p.2)
    some (rs.map (·.1), x.2 ||| y.2 ||| orAll (rs.map (·.2)))
  | some x, none => some x
  | none, y => y

/-- The leaf of a participant: its contribution, if it has come. -/
def Group.leaf (g : Group) (n : Nat) : PushNode := (g.contribs.find? (fun x => x.core == n)).map (fun x => (x.els, 0))

/-- The root's value (R257): pairwise level by level, or a chain. -/
def Group.combined (g : Group) : PushNode :=
  let leaves := g.members.map g.leaf
  if g.tree then leaves.foldl (pushNode g.op) none
  else (treeFold (pushNode g.op) leaves.length leaves).headD none

/-! PRST (R256, R337). -/

/-- The checks at start. -/
def prstBad (k : Cmd) : Option Nat :=
  let n := 4 * k.g1.toNat
  if k.g0.toNat % 16 != 0 || k.g3.toNat % 16 != 0 then some stALIGN
  else if k.g1 = 0 || 256 < k.g1.toNat || 64 ≤ k.g2.toNat then some stDESC
  else if lsSize < k.g0.toNat + n || lsSize < k.g3.toNat + n then some stLOCAL
  else none

/-- RD of a completed reduction (R256). -/
def prstRd (done : Bool) (fl : Flags) (arrived : Nat) : Nat :=
  (if done then 1 else 2) + fl.toNat * 2 ^ 3 + arrived % 65536 * 2 ^ 16

/-- The elements of a contribution. -/
def Core.pushEls (c : Core) (a n : Nat) : List Nat :=
  (List.range n).map (fun i =>
    let bs := c.lsBytes (a + 4 * i) 4
    mark32 (rbytesNat bs) (anyPoison bs))

/-- Give the root's value and RD to every contributor (R257). -/
def State.multicast (s : State) (g : Group) (done : Bool) : State :=
  match g.combined with
  | none => s
  | some (els, fl) =>
    { s with cmds := s.cmds.map (fun k =>
        if g.contribs.any (fun c => c.cmd == k.id) then
          let w : Walk := { k.walk with words := els }
          { k with phase := 2, prog := prstRd done fl g.contribs.length, walk := w }
        else k) }

/-- Whether the time of a group's incomplete reduction is over (R257). -/
def Group.expired (g : Group) (clock : Nat) : Bool :=
  g.state == 1 && g.contribs.length != g.count && g.timeout != 0 && g.since + usClocks g.timeout ≤ clock

/-- The first reduction whose time is over. -/
def State.overdue (s : State) : Option (Nat × Nat) :=
  [0, 1].findSome? (fun d => (s.die d).groups.findSome? (fun e => if e.2.expired s.clock then some (d, e.1) else none))

/-- The time-out of a reduction whose time is over (R257): the result of what has come, and the group FAILED. -/
def State.prstExpire (s : State) (d g : Nat) : State :=
  (s.multicast ((s.die d).group g) false).modGroup d g (fun x => { x with state := 2 })

/-- Contribute: a second contribution of one core waits for the next episode; one that comes after the time-out finds the
group FAILED (R257). -/
def prstArrive (k : Cmd) : Op Unit := do
  match prstBad k with
  | some st => do
    modify (fun s => s.putRd k 0)
    finishCmd k st 0 0
  | none => do
    let s ← get
    let d := dieOfCore k.core
    let n := k.core % 144
    let s := if ((s.die d).group k.g2.toNat).expired s.clock then s.prstExpire d k.g2.toNat else s
    set s
    let g := (s.die d).group k.g2.toNat
    let refuse : Op Unit := do
      modify (fun s => s.putRd k 4)
      finishCmd k stOK 0 0
    if !g.isValid || !g.members.contains n || g.state == 2 then refuse
    else if g.contribs.any (fun x => x.core == n) then throwWait
    else if g.contribs.any (fun x => x.els.length != k.g1.toNat) then refuse
    else do
      if !s.rangeFree k.core k.id (footOf k.g0.toNat (4 * k.g1.toNat) false) then throwWait
      let c : Contrib := ⟨n, k.id, (s.core k.core).pushEls k.g0.toNat k.g1.toNat⟩
      let since := if g.contribs.isEmpty then s.clock else g.since
      modify (fun s => s.modGroup d k.g2.toNat (fun x => { x with contribs := x.contribs ++ [c], state := 1, since }))
      let k' : Cmd := { k with phase := 1 }
      modify (fun s => s.setCmd k')

/-- Write a result that has come, after the older entries that its range meets (R242, R337). -/
def prstResult (k : Cmd) : Op Unit := do
  if !(← get).rangeFree k.core k.id (footOf k.g3.toNat (4 * k.g1.toNat) true) then throwWait
  let bs := (k.walk.words.map (fun e => (bytesOf (e % 2 ^ 32) 4).map (fun b => (b, bit e 32)))).flatten
  modify (fun s => (s.modCore k.core (fun c => c.lsWrite k.g3.toNat bs)).putRd k k.prog)
  finishCmd k stOK 0 (4 * k.g1.toNat)

def runPrst (k : Cmd) : Op Unit :=
  match k.phase with
  | 0 => prstArrive k
  | 1 => throwWait
  | _ => prstResult k

def execPushReduceCombine (die g : Nat) (s : State) : Out :=
  event (do
    let s ← get
    let x := (s.die die).group g
    if x.state == 1 && x.contribs.length == x.count && x.count != 0 then
      set ((s.multicast x true).modGroup die g (fun x => { x with state := 0, contribs := [] }))) s

def execPrstTimeout (die g : Nat) (s : State) : Out :=
  event (do
    let s ← get
    if ((s.die die).group g).expired s.clock then set (s.prstExpire die g)) s

def execPrst (c : Ctl) (e : EngF) (s : State) : Out := engineInstr (.prst c e) c .prst 0x99 e rdLater s

end Sys2Proof.Machine
end

