-- ==== Sys2Proof/Machine/Stash.lean ====
section
/-! DEFINITION. The stash engines: STASH, STFETCH and STDROP, with their retry and time-outs (R68, R69, R189, R245 to
R248, R343, R393). -/

namespace Sys2Proof.Machine

/-! The stage and its policy (R245). -/

/-- The stage slot of the block that issued a command, with its die and number; a fetch of the scheduler carries it in
its operands. -/
def Cmd.stageNo (k : Cmd) : Option (Nat × Nat) :=
  if 288 ≤ k.core then some (k.core - 288, k.g1.toNat)
  else match k.block with
    | some b => if b.info.stagev then some (b.info.die, b.info.stage) else none
    | none => none

def State.stashPol (s : State) (p : Nat × Nat) : Nat := (s.stage p.1 p.2).desc.getD 10 0

/-- STO in clocks. -/
def stoClocks (pol : Nat) : Nat :=
  let n := fieldOf pol 32 20
  usClocks (if n = 0 then 1000 else n)

/-- ACT, FB and CMAX of class c. -/
def polAct (pol c : Nat) : Nat := fieldOf pol (8 * c) 2
def polFb (pol c : Nat) : Nat := fieldOf pol (8 * c + 2) 2
def polCmax (pol c : Nat) : Nat := fieldOf pol (8 * c + 4) 3

def Cmd.tag (k : Cmd) : Nat :=
  match k.kind with
  | .stash => k.g3.toNat % 65536
  | _ => k.g0.toNat % 65536

def Cmd.isStash (k : Cmd) : Bool := k.kind == .stash || k.kind == .stfetch || k.kind == .stdrop

/-- Commands of one tag are served in arrival order (R343). -/
def State.stashTurn (s : State) (k : Cmd) : Bool :=
  !s.cmds.any (fun x => x.isStash && x.die == k.die && x.tag == k.tag && x.id < k.id)

/-! The directory (R246): the list is its contents in the order of their places, mirrored in memory at SDBASE. -/

/-- The 128 bits of an entry. -/
def DirEnt.bits (e : DirEnt) (valid : Bool) : Nat :=
  e.tensor + e.first * 2 ^ 32 + e.last * 2 ^ 64 + e.tag * 2 ^ 96 + e.slot * 2 ^ 112 + e.cls * 2 ^ 115 + bitAt valid 117

def putDir (d : Nat) (e : DirEnt) (valid : Bool) : Op Unit := do
  let a := ((← get).die d).sdbase.toNat + 16 * e.place
  hwWr a 8 (e.bits valid % 2 ^ 64)
  hwWr (a + 8) 8 (e.bits valid / 2 ^ 64)

/-- The lowest free place (log 32). -/
def Die.freePlace (d : Die) : Option Nat :=
  (List.range (d.dir.length + 1)).find? (fun p => p < d.sdcap.toNat && !d.dir.any (fun e => e.place == p))

def insertDir (e : DirEnt) : List DirEnt → List DirEnt
  | [] => [e]
  | x :: t => if e.place < x.place then e :: x :: t else x :: insertDir e t

/-- The entries of a tag of a stage, in directory order. -/
def State.entries (s : State) (d slot tag : Nat) : List DirEnt :=
  (s.die d).dir.filter (fun e => e.tag == tag && e.slot == slot)

/-- Add, change and remove an entry. -/
def addDir (d : Nat) (e : DirEnt) : Op Unit := do
  modify (fun s => s.modDie d (fun x => { x with dir := insertDir e x.dir }))
  putDir d e true

def changeDir (d : Nat) (e : DirEnt) : Op Unit := do
  modify (fun s => s.modDie d (fun x => { x with dir := x.dir.map (fun y => if y.place == e.place then e else y) }))
  putDir d e true

def dropDir (d : Nat) (e : DirEnt) : Op Unit := do
  modify (fun s => s.modDie d (fun x => { x with dir := x.dir.filter (fun y => y.place != e.place) }))
  putDir d e false

/-! The arena (R246). -/

/-- First fit: the lowest start of `n` free units; `runs` by ascending unit. -/
def firstFit (total n : Nat) : Nat → List ArenaRun → Option Nat
  | at_, [] => if at_ + n ≤ total then some at_ else none
  | at_, r :: t => if at_ + n ≤ r.unit then some at_ else firstFit total n (r.unit + r.units) t

def insertRun (r : ArenaRun) : List ArenaRun → List ArenaRun
  | [] => [r]
  | x :: t => if r.unit < x.unit then r :: x :: t else x :: insertRun r t

/-- The unit that a frame number of the arena names. -/
def Die.unitOf (d : Die) (frame : Nat) : Nat := frame - d.cabase.toNat / 4096

/-- The compressed size of a tile: the sum of its parts (R393). -/
def partBytes (bs : List Byte) : Nat := if bs.all (· == 0) then 16 else 16 + Config.partSize bs % 4097

def State.compressedSize (s : State) (pa n : Nat) : Nat :=
  sumOver (List.range (n / 4096)) (fun i => partBytes ((List.range 4096).map (fun j => s.byte (pa + 4096 * i + j))))

/-! Moves (R189, R190). A move stands in State.moves from step 1 on; its next event ends the copy, or restarts it. -/

/-- Write the first word of a TTE with a new frame, tier and state. -/
def moveTte (t : Tte) (frame tier state : Nat) : Op Unit :=
  writeTteLo t.addr (setField (setField (setField t.lo 0 29 frame) 29 2 tier) 31 2 state)

/-- Return a frame to the pool of its tier, size and home die (R213). -/
def returnFrame (d : TDesc) (tier frame : Nat) : Op Unit :=
  modify (fun s => s.pushFrame (homeDie (frame * 4096)) (poolOf tier d.tlog) frame)

/-- The arena, where a move names a pool: pools 0 to 11 hold frames. -/
def arenaPool : Nat := 12

/-- Whether a tile is being moved. -/
def State.moving (s : State) (ctx tid v x : Nat) : Bool :=
  s.moves.any (fun m => m.ctx == ctx && m.tensor == tid && m.ver == v && m.tile == x)

/-- Step 1: the TTE's state is in flight, and the copy begins. -/
def beginMove (die ctx tid v x : Nat) (d : TDesc) (t : Tte) (new newPool : Nat) (cmd : Option Nat) : Op Unit := do
  moveTte t t.frame t.tier 1
  modify (fun s => { s with moves := s.moves ++
    [⟨die, ctx, tid, v, x, t.frame, if t.tier = 2 then arenaPool else poolOf t.tier d.tlog, new, newPool, s.npub, 0, cmd⟩] })

def State.dropMove (s : State) (m : Move) : State := { s with moves := s.moves.erase m }

/-- The frame taken for a move goes back to its pool. -/
def Move.giveBack (m : Move) : Op Unit :=
  if m.newPool < arenaPool then modify (fun s => s.pushFrame (homeDie (m.new * 4096)) m.newPool m.new) else pure ()

/-- End a move without effect: its frame goes back (R190). -/
def cancelMove (m : Move) : Op Unit := do
  m.giveBack
  modify (fun s => s.dropMove m)

/-- The moves of a command that ends. -/
def cancelMoves (id : Nat) : Op Unit := do
  forAll ((← get).moves.filter (fun m => m.cmd == some id)) cancelMove

/-- Whether something has been published to the old frame since the copy began: `n` bytes. -/
def State.written (s : State) (m : Move) (n : Nat) : Bool :=
  m.oldPool < arenaPool &&
    (s.pubs.take (s.npub - m.since)).any (fun p => m.old * 512 ≤ p.granule && p.granule < m.old * 512 + n / 8)

/-- What a copy has come to: it goes on, it is given up, or nothing has disturbed it, and the TTE. -/
inductive Copied where
  | again
  | gone
  | whole (t : Tte)
  deriving DecidableEq, Repr

/-- End step 2, or restart it; the fourth disturbance gives the move up, and the tile stays resident in its old frame
(R190). A TTE that software has changed meanwhile stays as it is (log 31). -/
def endCopy (m : Move) (d : TDesc) : Op Copied := do
  let s ← get
  let t ← readTte d m.ver m.tile
  if t.frame != m.old || t.state != 1 then do
    cancelMove m
    return .gone
  else if s.written m d.tileBytes then
    if m.restarts = 3 then do
      moveTte t t.frame t.tier 0
      cancelMove m
      return .gone
    else do
      let m' : Move := { m with since := s.npub, restarts := m.restarts + 1 }
      modify (fun s => { s with moves := s.moves.map (fun y => if y = m then m' else y) })
      return .again
  else return .whole t

/-- Step 3 of a move between frames, into tier `tier` and state `st`; the old frame drains (step 4). -/
def swapFrame (m : Move) (d : TDesc) (t : Tte) (tier st : Nat) : Op Unit := do
  modify (fun s => s.copyFrame (m.old * 4096) (m.new * 4096) d.tileBytes)
  moveTte t m.new tier st
  modify (fun s => (s.modDie (homeDie (m.old * 4096)) (fun x => { x with
    oldFrames := x.oldFrames ++ [⟨m.oldPool, m.old⟩] })).dropMove m)

/-! One tile of a STASH (R247). -/

/-- What a tile comes to. -/
inductive StashRes where
  | handled (bytes : Nat)
  | moves (fb : Bool)
  | stalls
  | fails (code : Nat)
  deriving DecidableEq, Repr

/-- Begin action `act` on a tile, or carry it out at once; none when it cannot be. The agent's die gives the frame
(log 33). -/
def stashAct (k : Cmd) (d : TDesc) (x : Nat) (t : Tte) (act : Nat) (fb : Bool) : Op (Option StashRes) := do
  match act with
  | 0 => return some (.handled 0)
  | 1 => do
    beginMove k.die k.ctx k.g0.toNat 0 x d t 0 arenaPool (some k.id)
    return some (.moves fb)
  | 2 => do
    let (f, s) := (← get).popFrame k.die (poolOf 1 d.tlog)
    set s
    match f with
    | none => return none
    | some f => do
      beginMove k.die k.ctx k.g0.toNat 0 x d t f (poolOf 1 d.tlog) (some k.id)
      return some (.moves fb)
  | _ => do
    moveTte t t.frame 3 3
    stampTile k.die k.ctx d 0 x
    returnFrame d t.tier t.frame
    return some (.handled 0)

/-- The fallback on a tile (R245). -/
def stashFb (k : Cmd) (d : TDesc) (x : Nat) (t : Tte) (pol cls : Nat) : Op StashRes := do
  return (← stashAct k d x t (polFb pol cls) true).getD .stalls

/-- Handle one tile of a STASH. A tile that another agent moves is waited for (log 31). -/
def stashTile (k : Cmd) (d : TDesc) (x pol cls : Nat) : Op StashRes := do
  let t ← readTte d 0 x
  if (← get).poisoned t.addr 16 then return .fails stDESC
  if t.bad then return .fails stTENSOR
  if !t.accessible || t.pin || t.shx || 1 < t.refcnt then return .handled 0
  if !paOk (t.frame * 4096) then return .fails stNOTMAP
  if (← get).moving k.ctx k.g0.toNat 0 x then throwWait
  flushFor k (fun l => t.frame * 4096 ≤ l.pa && l.pa < t.frame * 4096 + d.tileBytes)
  match ← stashAct k d x t (polAct pol cls) false with
  | some r => return r
  | none => stashFb k d x t pol cls

/-- The end of a compression: the run's units when they fit CMAX and the arena, and the tile compressed into them
(R246, R247, R393). -/
def compress (m : Move) (d : TDesc) (t : Tte) (cmax : Nat) : Op Bool := do
  let pa := m.old * 4096
  let s ← get
  let n := s.compressedSize pa d.tileBytes
  let units := (n + 4095) / 4096
  let D := s.die m.die
  if (cmax + 1) * d.tileBytes < 8 * n then return false
  match firstFit D.caunits.toNat units 0 D.arena with
  | none => return false
  | some u => do
    let bs := s.plainBytes pa d.tileBytes
    let po := (List.range (d.tileBytes / 8)).filter (fun g => s.poisoned (pa + 8 * g) 8)
    let data := po.foldl (fun m g => Store.set 0 m (2 ^ 32 + g) 1) (Store.setMany 0 [] 0 (bs.map (·.1)))
    modify (fun s => s.modDie m.die (fun y => { y with arena := insertRun ⟨u, units, data, anyPoison bs⟩ y.arena }))
    let a := D.cabase.toNat + 4096 * u
    forAll (List.range (512 * units)) (fun i => do hwWr (a + 8 * i) 8 ((← draw) % 2 ^ 64))
    moveTte t (D.cabase.toNat / 4096 + u) 2 2
    modify (fun s => (s.modDie (homeDie pa) (fun x => { x with oldFrames := x.oldFrames ++ [⟨m.oldPool, m.old⟩] })).dropMove m)
    return true

/-- Go on with the move of a STASH: the tile handled, the copy restarted (none), or the fallback's result when the tile
does not compress. -/
def stashMove (k : Cmd) (m : Move) (d : TDesc) (pol cls : Nat) : Op (Option StashRes) := do
  match ← endCopy m d with
  | .again => return none
  | .gone => return some (.handled 0)
  | .whole t =>
    if m.newPool = arenaPool then do
      if ← compress m d t (polCmax pol cls) then return some (.handled d.tileBytes)
      else do
        moveTte t t.frame t.tier 0
        cancelMove m
        if k.phase = 2 then return some (← stashFb k d m.tile (← readTte d 0 m.tile) pol cls)
        else return some .stalls
    else do
      swapFrame m d t 1 2
      return some (.handled d.tileBytes)

/-- Handle tiles from `x` on: how many were handled, the bytes moved and how it ended. -/
def stashTiles (k : Cmd) (d : TDesc) (pol cls : Nat) : Nat → Nat → Nat → Nat → Op (Nat × Nat × StashRes)
  | 0, _, n, b => pure (n, b, .handled 0)
  | m + 1, x, n, b => do
    match ← stashTile k d x pol cls with
    | .handled w => stashTiles k d pol cls m (x + 1) (n + 1) (b + w)
    | r => return (n, b, r)

/-! STASH. Its command is in phase 1 while it stalls, 2 while it moves a tile by ACT and 3 by FB; `walk.told` is one above
the tile, counted from the first, at which its stall began. -/

/-- End a STASH early: its entry ends at the last tile handled, or goes when there is none (R247). -/
def cutStash (k : Cmd) (e : DirEnt) (code : Nat) : Op Unit := do
  if k.prog = 0 then dropDir k.die e else changeDir k.die { e with last := e.first + k.prog - 1 }
  finishCmd k code k.prog k.walk.acked

/-- What the command becomes when it stands at tile `k.prog` with result `r`. -/
def stashStands (k : Cmd) (e : DirEnt) (r : StashRes) : Op Unit := do
  match r with
  | .handled _ => finishCmd k stOK k.prog k.walk.acked
  | .fails c => cutStash k e c
  | .moves fb => modify (fun s => s.setCmd { k with phase := if fb then 3 else 2 })
  | .stalls => do
    let now := (← get).clock
    let since := if k.walk.told = k.prog + 1 then k.since else now
    let walk : Walk := { k.walk with told := k.prog + 1 }
    let k' : Cmd := { k with phase := 1, since, walk }
    modify (fun s => s.setCmd k')

/-- Go on with a STASH at the tile it stands at. -/
def stashOn (k : Cmd) (p : Nat × Nat) (e : DirEnt) (d : TDesc) : Op Unit := do
  let pol := (← get).stashPol p
  let left := k.g2.toNat - k.g1.toNat + 1 - k.prog
  let (n, b, r) ← stashTiles k d pol e.cls left (k.g1.toNat + k.prog) 0 k.walk.acked
  let walk : Walk := { k.walk with acked := b }
  stashStands { k with prog := k.prog + n, walk } e r

/-- Start a STASH: its checks and its directory entry, then its tiles (R247). -/
def stashStart (k : Cmd) : Op Unit := do
  match k.stageNo with
  | none => finishCmd k stNOSTAGE 0 0
  | some p => do
    match ← tdesc k.die k.ctx k.g0.toNat with
    | .notmap => finishCmd k stNOTMAP 0 0
    | .bad => finishCmd k stTENSOR 0 0
    | .poison => finishCmd k stDESC 0 0
    | .ok d =>
      if d.vers || k.g2.toNat < k.g1.toNat || d.nt ≤ k.g2.toNat then finishCmd k stTENSOR 0 0
      else
        match ((← get).die k.die).freePlace with
        | none => finishCmd k stDIRFULL 0 0
        | some pl => do
          let e : DirEnt := { place := pl, ctx := k.ctx, tensor := k.g0.toNat, first := k.g1.toNat, last := k.g2.toNat,
                              tag := k.tag, slot := p.2, cls := fieldOf k.g3.toNat 16 2 }
          addDir k.die e
          let w : Walk := { k.walk with iter := pl }
          stashOn { k with walk := w } p e d

/-- The entry, tensor and stage of a STASH that has started. -/
def stashState (k : Cmd) : Op (Option ((Nat × Nat) × DirEnt × TDesc)) := do
  let s ← get
  match k.stageNo, (s.die k.die).dir.find? (fun e => e.place == k.walk.iter) with
  | some p, some e => do
    match ← tdesc k.die k.ctx k.g0.toNat with
    | .ok d => return some (p, e, d)
    | _ => return none
  | _, _ => return none

/-- The next piece of a STASH that has started: its move, or a stalled tile again (R247); one whose tensor has gone ends
TENSOR. -/
def stashAgain (k : Cmd) : Op Unit := do
  match ← stashState k with
  | none => do
    cancelMoves k.id
    finishCmd k stTENSOR k.prog k.walk.acked
  | some (p, e, d) => do
    let s ← get
    match s.moves.find? (fun m => m.cmd == some k.id) with
    | none => stashOn k p e d
    | some m => do
      match ← stashMove k m d (s.stashPol p) e.cls with
      | none => pure ()
      | some (.handled b) => do
        let walk : Walk := { k.walk with acked := k.walk.acked + b }
        stashOn { k with prog := k.prog + 1, walk } p e d
      | some r => stashStands k e r

def runStash (k : Cmd) : Op Unit := do
  if !(← get).stashTurn k then throwWait
  if k.phase = 0 then stashStart k else stashAgain k

/-- A pending command by its number. -/
def State.cmd (s : State) (id : Nat) : Option Cmd := s.cmds.find? (fun k => k.id == id)

def execStashRetry (id : Nat) (s : State) : Out :=
  event (do
    match (← get).cmd id with
    | some k => if k.kind == .stash && k.phase == 1 then stashAgain k else pure ()
    | none => pure ()) s

/-- Whether the stall or the wait of a command has lasted its stage's STO. -/
def State.stoOver (s : State) (k : Cmd) : Bool :=
  match k.stageNo with
  | some p => k.phase == 1 && k.since + stoClocks (s.stashPol p) ≤ s.clock
  | none => false

def execStashTimeout (id : Nat) (s : State) : Out :=
  event (do
    let s ← get
    match s.cmd id with
    | some k =>
      if k.kind == .stash && s.stoOver k then do
        match ← stashState k with
        | some (_, e, _) => cutStash k e stSTASHFULL
        | none => finishCmd k stSTASHFULL k.prog k.walk.acked
      else pure ()
    | none => pure ()) s

/-! Fetching back (R248). -/

/-- A compressed tile, and a spilled one (R205). -/
def Tte.compressed (t : Tte) : Bool := t.tier == 2 && (t.state == 0 || t.state == 2)
def Tte.spilled (t : Tte) : Bool := t.tier == 1 && t.state == 2

/-- The die whose arena holds the run that begins at a frame: the agent's own first. -/
def State.runDie (s : State) (die frame : Nat) : Nat :=
  let holds (d : Nat) : Bool := (s.die d).arena.any (fun r => (s.die d).cabase.toNat / 4096 + r.unit == frame)
  if holds die || !holds (1 - die) then die else 1 - die

/-- Free the arena run that begins at the frame of a compressed tile: its contents, with their poison. -/
def freeRun (die frame n : Nat) : Op (List RByte) := do
  let s ← get
  let die := s.runDie die frame
  let D := s.die die
  let u := D.unitOf frame
  let bs : List RByte := match D.arena.find? (fun r => r.unit == u) with
    | some r => (List.range n).map (fun i => (Store.get 0 r.data i, Store.get 0 r.data (2 ^ 32 + i / 8) != 0))
    | none => List.replicate n (0, false)
  modify (fun s => s.modDie die (fun y => { y with arena := y.arena.filter (fun r => r.unit != u) }))
  return bs

/-- What fetching a tile comes to: nothing to do, it has moved, its move goes on, or there is no frame. -/
inductive TileFetch where
  | same
  | moved
  | goesOn
  | noFrame
  deriving DecidableEq, Repr

/-- Step 3 of a fetch into the HB tier: a compressed tile's run is decompressed and freed, a spilled one's frame
drains. -/
def endFetch (m : Move) (d : TDesc) (t : Tte) : Op Unit := do
  if m.oldPool = arenaPool then do
    let bs ← freeRun m.die m.old d.tileBytes
    modify (fun s => s.publishBytes (m.new * 4096) bs)
    moveTte t m.new 0 0
    modify (fun s => s.dropMove m)
  else swapFrame m d t 0 0

/-- The next piece of bringing one tile back to the HB tier for command `id` (R248). -/
def fetchTile (id die ctx tid : Nat) (d : TDesc) (x : Nat) : Op TileFetch := do
  match (← get).moves.find? (fun m => m.cmd == some id && m.tensor == tid && m.ctx == ctx && m.tile == x) with
  | some m => do
    match ← endCopy m d with
    | .again => return .goesOn
    | .gone => return .same
    | .whole t => do
      endFetch m d t
      return .moved
  | none => do
    let t ← readTte d 0 x
    if !t.compressed && !t.spilled then return .same
    let (f, s) := (← get).popFrame die (poolOf 0 d.tlog)
    set s
    match f with
    | none => return .noFrame
    | some f => do
      beginMove die ctx tid 0 x d t f (poolOf 0 d.tlog) (some id)
      return .goesOn

/-- How a walk of tiles or entries ends: at its end with a code, at a move that goes on, or for want of a frame. -/
inductive FetchEnd where
  | done (code : Nat)
  | goesOn
  | noFrame
  deriving DecidableEq, Repr

/-- Fetch tiles in order: the number moved. -/
def fetchTiles (id die ctx tid : Nat) (d : TDesc) : List Nat → Nat → Op (Nat × FetchEnd)
  | [], n => pure (n, .done stOK)
  | x :: t, n => do
    match ← fetchTile id die ctx tid d x with
    | .noFrame => return (n, .noFrame)
    | .goesOn => return (n, .goesOn)
    | .moved => fetchTiles id die ctx tid d t (n + 1)
    | .same => fetchTiles id die ctx tid d t n

/-- The tiles of an entry. -/
def DirEnt.tiles (e : DirEnt) : List Nat := (List.range (e.last - e.first + 1)).map (e.first + ·)

/-- A walk over the entries: tiles moved and bytes moved. -/
def fetchEntries (id die : Nat) : List DirEnt → Nat → Nat → Op (Nat × Nat × FetchEnd)
  | [], n, b => pure (n, b, .done stOK)
  | e :: t, n, b => do
    match ← tdesc die e.ctx e.tensor with
    | .ok d => do
      let (m, r) ← fetchTiles id die e.ctx e.tensor d e.tiles 0
      let b := b + m * d.tileBytes
      match r with
      | .done _ => fetchEntries id die t (n + m) b
      | r => return (n + m, b, r)
    | .notmap => return (n, b, .done stNOTMAP)
    | .bad => return (n, b, .done stTENSOR)
    | .poison => return (n, b, .done stDESC)

/-- The fetches of the same tag that wait for this one complete with it: those that no other command of the tag stands
before (R248). -/
def State.joiners (s : State) (k : Cmd) : List Cmd :=
  let later := s.cmds.filter (fun x => x.isStash && x.die == k.die && x.tag == k.tag && k.id < x.id)
  later.takeWhile (fun x => x.kind == .stfetch && x.stageNo == k.stageNo)

def finishFetch (k : Cmd) (code prog bytes : Nat) : Op Unit := do
  let js := (← get).joiners k
  finishCmd k code prog bytes
  forAll js (fun j => finishCmd j code 0 0)

/-- The next piece of an STFETCH: in phase 1 it waits for a frame, in phase 2 it moves a tile. -/
def runFetch (k : Cmd) : Op Unit := do
  let s ← get
  if !s.stashTurn k then throwWait
  match k.stageNo with
  | none => finishCmd k stNOSTAGE 0 0
  | some p => do
    let (n, b, r) ← fetchEntries k.id k.die (s.entries k.die p.2 k.tag) k.prog k.walk.acked
    let walk : Walk := { k.walk with acked := b }
    match r with
    | .done c => do
      cancelMoves k.id
      finishFetch k c n b
    | .goesOn => modify (fun s => s.setCmd { k with phase := 2, prog := n, walk })
    | .noFrame => do
      let since := if k.phase = 1 && n = k.prog then k.since else s.clock
      let k' : Cmd := { k with phase := 1, prog := n, since, walk }
      modify (fun s => s.setCmd k')

def execFetchTimeout (id : Nat) (s : State) : Out :=
  event (do
    let s ← get
    match s.cmd id with
    | some k => if k.kind == .stfetch && s.stoOver k then finishFetch k stNOFRAME k.prog k.walk.acked else pure ()
    | none => pure ()) s

/-! STDROP (R248, R343). -/

def dropTile (die ctx : Nat) (d : TDesc) (x : Nat) : Op Unit := do
  let t ← readTte d 0 x
  if t.compressed then do
    let _ ← freeRun die t.frame 0
    moveTte t t.frame 3 3
    stampTile die ctx d 0 x
  else if t.spilled then do
    moveTte t t.frame 3 3
    stampTile die ctx d 0 x
    returnFrame d 1 t.frame

def dropEntries (die : Nat) : List DirEnt → Nat → Op (Nat × Nat)
  | [], n => pure (n, stOK)
  | e :: t, n => do
    match ← tdesc die e.ctx e.tensor with
    | .ok d => do
      forAll e.tiles (dropTile die e.ctx d)
      dropDir die e
      dropEntries die t (n + e.tiles.length)
    | .notmap => return (n, stNOTMAP)
    | .bad => return (n, stTENSOR)
    | .poison => return (n, stDESC)

def runDrop (k : Cmd) : Op Unit := do
  let s ← get
  if !s.stashTurn k then throwWait
  match k.stageNo with
  | none => finishCmd k stNOSTAGE 0 0
  | some p => do
    let (n, c) ← dropEntries k.die (s.entries k.die p.2 k.tag) 0
    finishCmd k c n 0

/-! Issue. -/

/-- The directory entries of the tag at issue; 0 for a block without a stage (log 34). -/
def rdEntries (k : Cmd) : Op (Option Nat) := do
  let s ← get
  match k.stageNo with
  | some p => return some (s.entries k.die p.2 k.tag).length
  | none => return some 0

def execStash (c : Ctl) (e : EngF) (s : State) : Out :=
  engineInstr (.stash c e) c .stash 0x92 e
    (fun k => pure (some (if k.g1.toNat ≤ k.g2.toNat then k.g2.toNat - k.g1.toNat + 1 else 0))) s
def execStfetch (c : Ctl) (e : EngF) (s : State) : Out := engineInstr (.stfetch c e) c .stfetch 0x93 e rdEntries s
def execStdrop (c : Ctl) (e : EngF) (s : State) : Out := engineInstr (.stdrop c e) c .stdrop 0x94 e rdEntries s

/-- A fetch by tag that the scheduler of die `d` starts for stage slot `n` (R69). -/
def State.prefetch (s : State) (d n tag : Nat) : State :=
  let k : Cmd := { id := s.nextId, kind := .stfetch, op := 0x93, core := 288 + d, seq := .C, ctr := 0,
                   g0 := BitVec.ofNat 32 tag, g1 := BitVec.ofNat 32 n, g2 := 0, g3 := 0, ctx := (s.stage d n).ctx,
                   priv := false, acq := false, rel := false, scope := 0, buf := 0, rd := 0, block := none,
                   since := s.clock }
  { s with cmds := s.cmds ++ [k], nextId := s.nextId + 1 }

end Sys2Proof.Machine
end

