-- ==== Sys2Proof/Machine/Resident.lean ====
section
/-! DEFINITION. Residency requests: TILEREQ and PGREQ (R210, R358, R407). -/

namespace Sys2Proof.Machine

/-- Firmware, the host or the stash engine refuses a request that it has not served: a free choice, for the spec gives
no signal of it (log 38). -/
def refused : Op Bool := do return (← pick 2) == 1

/-- Message words of a residency request (R407). -/
def askFirmware (k : Cmd) (sub w1 w2 : Nat) : Op Unit :=
  modify (fun s => s.postUnit k.die 6 sub w1 w2 k.ctx)

/-! TILEREQ. -/

def CmdKind.write : CmdKind → Bool
  | .tilereq w _ => w
  | .pgreq w => w
  | _ => false

def CmdKind.hb : CmdKind → Bool
  | .tilereq _ h => h
  | _ => false

/-- A tile stands in the requested form. -/
def Tte.inForm (t : Tte) (w hb : Bool) : Bool :=
  t.accessible && (!hb || t.tier == 0) && (!w || !(t.cow && 1 < t.refcnt))

/-- The tensor, version and tiles of a TILEREQ, or its status. -/
def tileRange (k : Cmd) : Op (ER (TDesc × Nat × List Nat)) := do
  match ← tdesc k.die k.ctx k.g0.toNat with
  | .notmap => return .error stNOTMAP
  | .bad => return .error stTENSOR
  | .poison => return .error stDESC
  | .ok d =>
    let first := k.g1.toNat
    let last := k.g2.toNat
    let v := if d.vers then k.g3.toNat else 0
    if last < first || d.nt ≤ last || first + 65536 ≤ last || (d.vers && !d.hasVersion v) then return .error stTENSOR
    else return .ok (d, v, (List.range (last - first + 1)).map (first + ·))

/-- The tiles not in the requested form. -/
def tilesOut (k : Cmd) (d : TDesc) (v : Nat) (xs : List Nat) : Op (List (Nat × Tte)) := do
  let l ← collect xs (fun x => do return (x, ← readTte d v x))
  return l.filter (fun p => !p.2.inForm k.kind.write k.kind.hb)

/-- Serve one tile: fetched back from a stash (R248), or copied for writing; a status when that fails. -/
def serveTile (k : Cmd) (d : TDesc) (v : Nat) (p : Nat × Tte) : Op (Option Nat) := do
  let t := p.2
  if t.bad then return some stTENSOR
  if t.compressed || t.spilled then do
    let _ ← fetchTile k.id k.die k.ctx k.g0.toNat d p.1
    return none
  else if t.accessible && k.kind.write && t.cow && 1 < t.refcnt then do
    match ← cowTile k.die k.ctx k.g0.toNat d v p.1 t with
    | .empty => return some stCOWFAIL
    | .ok _ => return none
  else return none

def serveTiles (k : Cmd) (d : TDesc) (v : Nat) : List (Nat × Tte) → Op (Option Nat)
  | [] => pure none
  | p :: t => do
    match ← serveTile k d v p with
    | some e => return some e
    | none => serveTiles k d v t

/-- The next piece of the moves that the command has begun. -/
def goOnMoves (k : Cmd) (d : TDesc) : Op Unit := do
  forAll ((← get).moves.filter (fun m => m.cmd == some k.id)) (fun m => do
    let _ ← fetchTile k.id k.die k.ctx k.g0.toNat d m.tile)

/-- A tile that only firmware can bring: absent, or in the LP tier and wanted in the HB tier; not one that is being moved. -/
def Tte.forFirmware (t : Tte) (hb : Bool) : Bool :=
  t.state != 1 && ((!t.accessible && !t.compressed && !t.spilled) || (hb && t.accessible && t.tier != 0))

/-- A TILEREQ goes on with its moves, serves what is not in form, and completes when every tile is and no move of its
own is left. -/
def runTilereq (k : Cmd) : Op Unit := do
  match ← tileRange k with
  | .error e => do
    cancelMoves k.id
    finishCmd k e 0 0
  | .ok (d, v, xs) => do
    goOnMoves k d
    let out ← tilesOut k d v xs
    if k.phase = 0 && out.any (fun p => p.2.forFirmware k.kind.hb) then
      askFirmware k 1 (k.g0.toNat + k.g1.toNat * 2 ^ 32)
        (k.g2.toNat + v % 8 * 2 ^ 32 + bitAt k.kind.write 35 + bitAt k.kind.hb 36)
    let r ← serveTiles k d v out
    let left ← tilesOut k d v xs
    if (← get).moves.any (fun m => m.cmd == some k.id) then modify (fun s => s.setCmd { k with phase := 1 })
    else match r with
      | some e => finishCmd k e 0 0
      | none => do
        if left.isEmpty then finishCmd k stOK 0 0
        else if k.phase = 1 && (← refused) then finishCmd k stNONRES 0 0
        else modify (fun s => s.setCmd { k with phase := 1 })

/-- RD at issue: the tiles of the range not yet in the requested form; 0 for a range that fails. -/
def rdTiles (k : Cmd) : Op (Option Nat) := do
  match ← tileRange k with
  | .error _ => return some 0
  | .ok (d, v, xs) => return some (← tilesOut k d v xs).length

/-! PGREQ. -/

/-- The status of a PGREQ's operands. -/
def pgreqBad (k : Cmd) : Option Nat :=
  let a := k.va0
  let b := a + k.g2.toNat - 1
  if k.g3 != 0 then some stDESC
  else if k.g2 = 0 || 134217728 < k.g2.toNat then some stSIZE
  else if 2 ^ 64 ≤ b || crossesHalf a b || (bit a 63 && (fieldOf a 48 15 != 0 || fieldOf b 48 15 != 0)) then
    some stNOTMAP
  else none

/-- A page of the range: a mapped one by its first address, whichever of its entries names it (R197), an unmapped 4 KiB of the device half, or a host page;
with whether it is resident in the requested form. -/
structure PgState where
  host : Bool
  key : Nat
  here : Bool
  refused : Bool
  deriving DecidableEq, Repr

def pgOf (k : Cmd) (c : CtxEnt) (w : Bool) (page : Nat) : Op PgState := do
  let va := 4096 * page
  if bit va 63 then do
    match ← walk va 4 c.root with
    | .leaf _ pte size => return ⟨false, va / size * size, bit pte 6 && (!w || bit pte 3), false⟩
    | _ => return ⟨false, 2 ^ 64 + page, false, false⟩
  else do
    match (← get).ats.find? (fun e => e.die == k.die && e.pasid == c.pasid && e.page == page) with
    | some e => return ⟨true, page, !e.err && e.r && (!w || e.w), e.err || (w && e.asked && !e.w) || !e.r⟩
    | none => return ⟨true, page, false, false⟩

/-- The pages of the range, each once. -/
def pgStates (k : Cmd) (c : CtxEnt) : Op (List PgState) := do
  let a := k.va0 / 4096
  let n := (k.va0 + k.g2.toNat - 1) / 4096 - a + 1
  let l ← collect (List.range n) (fun i => pgOf k c k.kind.write (a + i))
  return l.eraseDups

/-- Ask for the pages that are not there: one message for the device half, one Page Request for each host page, in
place of an answer that denied it. -/
def askPages (k : Cmd) (c : CtxEnt) (out : List PgState) : Op Unit := do
  if out.any (fun p => !p.host) then
    askFirmware k 0 k.va0 (k.g2.toNat + bitAt k.kind.write 35)
  forAll (out.filter (·.host)) (fun p => do
    modify (fun s => { s with ats := s.ats.filter (fun e => !(e.die == k.die && e.pasid == c.pasid && e.page == p.key)),
                              pcie := s.pcie ++ [.pageRequest k.die c.pasid p.key k.kind.write] })
    askHost k.die c.pasid p.key k.kind.write true)

/-- The context of a PGREQ, or its status. -/
def pgCtx (k : Cmd) : Op (ER CtxEnt) := do
  let c ← ctxEnt k.die k.ctx
  if c.poisoned then return .error stDESC
  if !c.valid || (!bit k.va0 63 && !c.hen) then return .error stNOTMAP
  return .ok c

def runPgreq (k : Cmd) : Op Unit := do
  match pgreqBad k with
  | some e => finishCmd k e 0 0
  | none => do
    match ← pgCtx k with
    | .error e => finishCmd k e 0 0
    | .ok c => do
      let out := (← pgStates k c).filter (fun p => !p.here)
      if out.isEmpty then finishCmd k stOK 0 0
      else if k.phase = 0 then do
        askPages k c out
        let k' : Cmd := { k with phase := 1 }
        modify (fun s => s.setCmd k')
      else if out.any (·.refused) then finishCmd k stNONRES 0 0
      else if out.any (fun p => !p.host) && (← refused) then finishCmd k stNONRES 0 0
      else throwWait

/-- RD at issue: the pages not yet resident in the requested form. -/
def rdPages (k : Cmd) : Op (Option Nat) := do
  match pgreqBad k with
  | some _ => return some 0
  | none => do
    match ← pgCtx k with
    | .error _ => return some 0
    | .ok c => return some ((← pgStates k c).filter (fun p => !p.here)).length

def execTilereq (c : Ctl) (grp ctr buf rd : Nat) (w hb : Bool) (s : State) : Out :=
  issue (.tilereq c grp ctr buf rd w hb) c noPre (groupRegs grp)
    (engineIssue (s.mkCmd (.tilereq w hb) 0x85 grp ctr buf rd false false 0) rdTiles) s
def execPgreq (c : Ctl) (grp ctr buf rd : Nat) (w : Bool) (s : State) : Out :=
  issue (.pgreq c grp ctr buf rd w) c noPre (groupRegs grp)
    (engineIssue (s.mkCmd (.pgreq w) 0x86 grp ctr buf rd false false 0) rdPages) s

end Sys2Proof.Machine
end

