-- ==== Sys2Proof/Machine/Complete.lean ====
section
/-! DEFINITION. ENGINE_COMMAND_COMPLETION: the unit that serves a command does its next piece of work, and completes the
command when that was the last (R25, R238 to R257, R358). -/

namespace Sys2Proof.Machine

/-- ACQ at HOST or SYSTEM: before a command's first read, die 0's L2 drops its host-half lines (R234). -/
def acquireFirst (k : Cmd) : Op Unit :=
  if k.acq && hostScope k.scope && k.phase == 0 && !k.admitted && !k.walk.started then modify State.dropHostLines
  else pure ()

/-- The next piece of a command's work. -/
def runCmd (k : Cmd) : Op Unit := do
  acquireFirst k
  match k.kind with
  | .cpy | .cpyr => runCopy k
  | .stash => runStash k
  | .stfetch => runFetch k
  | .stdrop => runDrop k
  | .chsend => runChsend k
  | .chrecv => runChrecv k
  | .chrel => runChrel k
  | .coll => runColl k
  | .prst => runPrst k
  | .tilereq .. => runTilereq k
  | .pgreq _ => runPgreq k

def execEngineCommandCompletion (id : Nat) (s : State) : Out :=
  event (do
    match (← get).cmd id with
    | some k => runCmd k
    | none => pure ()) s

end Sys2Proof.Machine
end

