-- ==== Sys2Proof/Machine/Streams.lean ====
section
/-! DEFINITION. Stream registers and stream transfers, OP 0x80–0x84, and STREAM_TRANSFER_RETIREMENT (R90 to R92, R113,
R203, R207, R209, R344 to R352). -/

namespace Sys2Proof.Machine

/-! Writing stream registers (R91, R350 to R352). -/

/-- The checks of R91 on a register as it would stand; `i` gives the instruction word of an UNDEF trap. -/
def needStream (i : Instr) (x : Stream) : Op Unit := do
  need (!x.undef) cUNDEF (encode i)
  need (!x.badFmt) cFMT (List.getD x 1 0).toNat

/-- STRCFG reads its image as eleven LD.I64 of class 0 (R351). -/
def execStrcfg (c : Ctl) (n ra : Nat) (imm : BitVec 24) (s : State) : Out :=
  issue (.strcfg c n ra imm) c noPre [ra, ra + 1] (do
    needOrder 0
    let s ← get
    let a := addrAdd (s.pair ra).toNat (sextNat 64 imm)
    need (a % 8 == 0) cALIGN a
    let ws ← collect (List.range 11) (fun k => loadVa (addrAdd a (8 * k)) 8)
    let x : Stream := ws.map (BitVec.ofNat 64)
    needStream (.strcfg c n ra imm) x
    modify (fun s => s.modMe (fun k => k.setStream n x))
    return .next) s

def execStrset (c : Ctl) (n ra w : Nat) (s : State) : Out :=
  issue (.strset c n ra w) c noPre [ra, ra + 1] (do
    let s ← get
    let x : Stream := (s.me.stream n).set w (s.pair ra)
    needStream (.strset c n ra w) x
    modify (fun s => s.modMe (fun k => k.setStream n x))
    return .next) s

/-- Coordinate j after a step of level k (R92). -/
def Stream.stepped (x : Stream) (k j : Nat) : Nat := uint 32 ((x.coord j : Int) + x.step k j)

/-- STRADV writes C0 to C3 in one step (R350). -/
def execStradv (c : Ctl) (sa k : Nat) (s : State) : Out :=
  issue (.stradv c sa k) c noPre [] (do
    needOwner sa
    let x := (← get).me.stream sa
    let w (j : Nat) : DWord := BitVec.ofNat 64 (x.stepped k j + x.stepped k (j + 1) * 2 ^ 32)
    modify (fun s => s.modMe (fun q => q.setStream sa ((x.set 3 (w 0)).set 4 (w 2))))
    return .next) s

/-! Where the elements of a transfer lie in memory (R92, R345). -/

/-- The first bit of element (i, j) of a KIND 01b transfer, before the address wraps. -/
def Xfer.memBit (x : Xfer) (i j : Nat) : Nat :=
  8 * (x.sa.base + (x.sa.coord 0 + i) * x.sa.pitch) + (x.sa.coord 1 + j) * x.width

/-- The virtual addresses of an element's bytes. -/
def Xfer.vas (x : Xfer) (i j : Nat) : List Nat :=
  let (a, n) := bitSpan (x.memBit i j) x.width
  (List.range n).map (fun k => (a + k) % 2 ^ 64)

/-- The pages that a transfer touches, in row-major order of their first element. -/
def Xfer.pages (x : Xfer) : List Nat :=
  ((List.range x.rows).flatMap (fun i =>
    let a := x.memBit i 0 / 8
    let b := (x.memBit i (x.cols - 1) + x.width - 1) / 8
    (List.range (b / 4096 - a / 4096 + 1)).map (fun k => (a / 4096 + k) % 2 ^ 52))).eraseDups

/-- Tensor coordinates of element (i, j). -/
def Xfer.coords (x : Xfer) (i j : Nat) : List Nat :=
  [x.sa.coord 0 + i, x.sa.coord 1 + j, x.sa.coord 2, x.sa.coord 3]

/-- All element places in row-major order. -/
def Xfer.cells (x : Xfer) : List (Nat × Nat) :=
  (List.range x.rows).flatMap (fun i => (List.range x.cols).map (fun j => (i, j)))

/-- The tiles that a transfer touches, in row-major order of their first element. -/
def Xfer.tilesOf (x : Xfer) (d : TDesc) : List Nat :=
  (x.cells.filterMap (fun p =>
    let c := x.coords p.1 p.2
    if d.inBounds c then some (d.place c).1 else none)).eraseDups

/-- Whether a KIND 01b transfer touches both halves (R194). -/
def Xfer.crosses (x : Xfer) : Bool :=
  let vs := (List.range x.rows).flatMap (fun i => x.vas i 0 ++ x.vas i (x.cols - 1))
  vs.any (fun a => vs.any (fun b => crossesHalf a b))

/-- The cause of a failed page for a transfer; control space takes PERM. -/
def pageCause (load : Bool) (x : Xlat) : Option Nat :=
  match x with
  | .ctl .. => some cPERM
  | .nonres => if load then none else some cNRSTORE
  | x => xlCause (if load then .load else .store) x

/-- Find in a list of keyed results. -/
def lookup {α : Type} (l : List (Nat × α)) (k : Nat) : Option α := (l.find? (fun p => p.1 == k)).map (·.2)

/-- What keeps an element from being reached: the first cause of R271's order among its bytes' pages, NOTMAP before PERM
before NRSTORE before ECC, at the first byte that has it; else a page that waits; else a non-resident one. -/
def firstOdd? (load : Bool) (l : List (Nat × Option Xlat)) : Option Spot :=
  let c := [cNOTMAP, cPERM, cNRSTORE, cECC].findSome? (fun k =>
    (l.find? (fun p => (p.2.bind (pageCause load)) == some k)).map (fun p => Spot.fail k p.1))
  match c with
  | some z => some z
  | none =>
    if l.any (fun p => p.2 == none || p.2 == some .pend || p.2 == some .mig) then some .pend
    else if l.any (fun p => p.2 == some .nonres) then some .absent else none

/-- Where element (i, j) is. -/
def Xfer.spot (x : Xfer) (m : MemSide) (crosses : Bool) (i j : Nat) : Spot :=
  match m with
  | .pages ps =>
    if crosses then .fail cNOTMAP (((x.vas 0 0).headD 0))
    else
      let bs := (x.vas i j).map (fun a => (a, lookup ps (a / 4096)))
      match firstOdd? x.load bs with
      | some z => z
      | none => .at_ (x.memBit i j % 8) (bs.map (fun b => match b.2 with
          | some (.ok pa) => pa + b.1 % 4096
          | _ => 0))
  | .tiles d v ts =>
    let c := x.coords i j
    if !d.inBounds c then (if x.sa.zp then .zero else .fail cTENSOR x.san)
    else
      let (t, e) := d.place c
      match lookup ts t with
      | some (.ok pa _) =>
        let lo := e * x.width
        let (a, n) := bitSpan lo x.width
        .at_ (lo % 8) ((List.range n).map (fun k => pa + a + k))
      | some .bad => .fail cTENSOR (x.sa.base % 2 ^ 32)
      | some .absent => if x.load then .absent else .fail cNRSTORE x.san
      | some .notmap => .fail cNOTMAP (x.sa.base % 2 ^ 32)
      | some .poison => .fail cECC (d.table v + 16 * t)
      | none => .pend

/-- Resolve the memory side (R202, R70). -/
def Xfer.resolve (x : Xfer) (c : Nat) : Op MemSide := do
  let die := dieOfCore c
  if x.sa.kind = 1 then
    let ps ← collect x.pages (fun p => do
      return (p, ← xlate (agentCore c) die x.ctx x.priv (if x.load then .load else .store) (4096 * p)))
    return .pages ps
  else
    let tid := x.sa.base % 2 ^ 32
    match ← tdesc die x.ctx tid with
    | .ok d => do
      let s ← get
      let v := if x.load then s.readVersion (s.core c).cur tid d else d.current
      let ts ← collect (x.tilesOf d) (fun t => do return (t, ← tileOf d v t))
      return .tiles d v ts
    | .notmap => throwTrap cNOTMAP tid
    | .bad => throwTrap cTENSOR tid
    | .poison => do
      let e ← ctxEnt die x.ctx
      let s ← get
      throwTrap cECC (if e.poisoned then s.ctxAddr die x.ctx else e.tdBase + 128 * tid)

/-- The checks of R346 from order 2 on; the memory side when none traps. -/
def Xfer.check (x : Xfer) (sbn c : Nat) : Op MemSide := do
  need (x.sa.kind != 0) cTENSOR x.san
  need (x.sb.kind == 0) cTENSOR sbn
  let b := x.width
  let m ← x.resolve c
  match m with
  | .tiles d _ _ => need (fmtBits d.fmt == b) cFMT x.sa.fmt
  | .pages _ => pure ()
  need (!(x.tr && b < 8)) cFMT x.sa.fmt
  if x.sa.kind = 1 then need (x.memBit 0 0 % 8 == 0) cALIGN (x.memBit 0 0 / 8 % 2 ^ 64)
  if !x.tr then needByteRow x.sb b
  let cr := x.sa.kind == 1 && x.crosses
  let bad := x.cells.findSome? (fun p =>
    let z := x.spot m cr p.1 p.2
    match z with
    | .fail k a => if k = cTENSOR ∧ a = x.san then some z
      else match beyondLs (x.localBit p.1 p.2) b with
        | some l => some (.fail cTENSOR (l % 2 ^ 64))
        | none => some z
    | _ =>
      match beyondLs (x.localBit p.1 p.2) b with
      | some l => some (.fail cTENSOR (l % 2 ^ 64))
      | none => if z = .pend then some z else none)
  match bad with
  | some (.fail k a) => throwTrap k a
  | some _ => throwWait
  | none => return m

/-- Copy-on-write and the writable tiles of a KIND 10b store: none when a pool is empty (R211, R212). -/
def Xfer.cow (x : Xfer) (c : Nat) (d : TDesc) : List (Nat × Tile) → Op (Option (List (Nat × Tile)))
  | [] => pure (some [])
  | (n, .ok _ t) :: r => do
    match ← cowTile (dieOfCore c) x.ctx (x.sa.base % 2 ^ 32) d d.current n t with
    | .empty => return none
    | .ok pa => do
      match ← Xfer.cow x c d r with
      | some l => return some ((n, .ok pa t) :: l)
      | none => return none
  | p :: r => do
    match ← Xfer.cow x c d r with
    | some l => return some (p :: l)
    | none => return none

/-- Runs of consecutive tile numbers of a sorted list. -/
def tileRuns : List Nat → List (Nat × Nat)
  | [] => []
  | a :: t =>
    match tileRuns t with
    | (f, l) :: r => if a + 1 = f then (a, l) :: r else (a, a) :: (f, l) :: r
    | [] => [(a, a)]

/-- Insert into an ascending list without repeats. -/
def insertNat (a : Nat) : List Nat → List Nat
  | [] => [a]
  | b :: t => if a < b then a :: b :: t else if a = b then b :: t else b :: insertNat a t

def sortNat (l : List Nat) : List Nat := l.foldr insertNat []

/-- What a load adds to the read set (R262, R348). -/
def Xfer.note (x : Xfer) (c : Nat) (m : MemSide) : Op Unit :=
  if !x.load then pure ()
  else match m with
    | .pages _ =>
      forAll (List.range x.rows) (fun i =>
        modify (fun s => s.noteRead c (x.memBit i 0 / 8 % 2 ^ 64) (x.cols * x.width / 8)))
    | .tiles _ _ ts =>
      forAll (tileRuns (sortNat (ts.map (·.1)))) (fun r =>
        modify (fun s => s.noteTiles c (x.sa.base % 2 ^ 32) r.1 r.2))

/-- The 256-byte chunks of memory that a transfer touches. -/
def Xfer.chunks (x : Xfer) (m : MemSide) : List Nat :=
  (x.cells.flatMap (fun p => match x.spot m false p.1 p.2 with
    | .at_ _ pas => pas.map (· / 256)
    | _ => [])).eraseDups

/-- Where every element is, in row-major order. -/
def Xfer.spotsAt (x : Xfer) (m : MemSide) : List Spot := x.cells.map (fun p => x.spot m false p.1 p.2)

/-- The issue of a stream transfer (R345 to R347): what it reads, and where a store of KIND 01b goes, is translated now
(R70, R215). -/
def xferIssue (load : Bool) (sa sb : Nat) (tx : Bool) : Op Post := do
  needOrder 0
  let s ← get
  if 8 ≤ (s.me.xfersOf s.curSeq).length || 128 ≤ s.checkerCount s.cur then throwWait
  needOwner sa
  needOwner sb
  let x : Xfer := {
    id := s.nextId, seq := s.curSeq, load, san := sa, sa := s.me.stream sa, sb := s.me.stream sb, tx,
    ctx := s.me.ctx.toNat, priv := s.me.onPriv s.curSeq, parts := [] }
  let m ← x.check sb s.cur
  match m with
  | .tiles d _ ts =>
    if !load then
      match ← x.cow s.cur d ts with
      | none => throwTrap cCOWFAIL (x.sa.base % 2 ^ 32)
      | some _ => pure ()
  | .pages _ => pure ()
  x.note s.cur m
  let _ ← freshId
  modify (fun s =>
    let s := s.stallSync s.cur s.curSeq
    let parts := if x.sa.cal then s.calParts s.cur (x.chunks m) else []
    s.modMe (fun k => { k with xfers := k.xfers ++ [{ x with parts, side := m, spots := x.spotsAt m }] }))
  return .next

def execStrld (c : Ctl) (sa sb : Nat) (tx : Bool) (s : State) : Out :=
  issue (.strld c sa sb tx) c noPre [] (xferIssue true sa sb tx) s
def execStrst (c : Ctl) (sa sb : Nat) (s : State) : Out :=
  issue (.strst c sa sb) c noPre [] (xferIssue false sa sb false) s

/-! Moving the data and retiring (R347 to R349). -/

/-- Bytes of memory by address, as an engine gathers them. -/
abbrev ByteMap := Store RByte

/-- Bytes at physical addresses: from the map, else from memory. -/
def mapBytes (s : State) (m : ByteMap) (pas : List Nat) : List RByte :=
  pas.map (fun a =>
    match m.find? (fun e => e.1 == a) with
    | some e => e.2
    | none => (s.byte a, Store.get false s.poison (a / 8)))

/-- Put bits into the map. -/
def mapPut (s : State) (m : ByteMap) (off w v : Nat) (po : Bool) (pas : List Nat) : ByteMap :=
  let old := (mapBytes s m pas).map (fun b => (b.1, false))
  (pas.zip (putBits off w v po old)).foldl (fun m p => Store.insert p.1 p.2 m) m

/-- Publish the bytes of a map: one event per granule, ascending (R221, R225). -/
def State.publishMap (s : State) (m : ByteMap) : State :=
  let gs := (m.map (fun e => e.1 / 8)).eraseDups
  gs.foldl (fun s g =>
    s.publishGranule g ((m.filter (fun e => e.1 / 8 == g)).map (fun e => (e.1 % 8, e.2)))) s

/-- A core sees at least what its own transfers read and wrote (log 16). -/
def State.sawGranules (s : State) (c : Nat) (gs : List Nat) : State :=
  s.modCore c (fun k => { k with seen := gs.foldl (fun m g => Store.set 0 m g s.npub) k.seen })

/-- The granules of a transfer's elements. -/
def spotGranules (l : List Spot) : List Nat :=
  (l.flatMap (fun z => match z with
    | .at_ _ pas => pas.map (· / 8)
    | _ => [])).eraseDups

/-- One element as read: its bits, or none for a non-resident one. -/
def spotRead (s : State) (c : Nat) (g : Option (Store DWord)) (w : Nat) (z : Spot) : Option (Nat × Bool) :=
  match z with
  | .at_ off pas =>
    match g with
    | none =>
      let bs := mapBytes s [] pas
      some (bitsOf off w bs, anyPoison bs)
    | some m =>
      let bs := pas.map (fun a => (s.core c).ownOver a
        ((Store.get 0 m (a / 8)).extractLsb' (8 * (a % 8)) 8, Store.get false s.poison (a / 8)))
      some (bitsOf off w bs, anyPoison bs)
  | .absent => none
  | _ => some (0, false)

/-- The patch of element (i, j) (R345). -/
def Xfer.patchOf (x : Xfer) (p : Nat × Nat) : Nat := p.1 / 16 * x.sa.pc + p.2 / 16

/-- The requests of a transfer for the lines of its granules; a load of KIND 01b with NT 0 goes through the L1 (R171,
R172, R175). -/
def Xfer.request (x : Xfer) (c : Nat) (spots : List Spot) (s : State) : State :=
  let pas := (spotGranules spots).map (8 * ·)
  if x.load && x.sa.kind == 1 && !x.sa.nt then s.loadLines c pas else s.requestLines c pas

/-- The work of an STRLD: patches with a non-resident element become zeros and set their mask bit (R209, R348). A later
load of the core reads nothing older than a KIND 10b transfer read (log 16). -/
def Xfer.doLoad (x : Xfer) (c : Nat) : Op Unit := do
  let g ← if x.sa.kind = 1 then (do return some (← granulesAt c (spotGranules x.spots))) else pure none
  let s ← get
  let es := x.cells.zip (x.spots.map (spotRead s c g x.width))
  let gone := ((es.filter (fun e => e.2.isNone)).map (fun e => x.patchOf e.1)).eraseDups
  modify (fun s => s.modCore c (fun k =>
    let k := es.foldl (fun k e =>
      let v := if gone.contains (x.patchOf e.1) then (0, false) else e.2.getD (0, false)
      k.lsPut (x.localBit e.1.1 e.1.2) x.width v.1 v.2) k
    { k with srm := Store.set 0 k.srm x.san (BitVec.ofNat 64 (posMask gone)) }))
  if x.sa.kind != 1 then modify (fun s => s.sawGranules c (spotGranules x.spots))
  modify (x.request c x.spots)

/-- The work of an STRST: its elements published, its tiles stamped (R259, R349). -/
def Xfer.doStore (x : Xfer) (c : Nat) (m : MemSide) (spots : List Spot) : Op Unit := do
  let s ← get
  let k := s.core c
  let es := (x.cells.zip spots).filterMap (fun e => match e.2 with
    | .at_ off pas => some (e.1, off, pas, k.lsBits (x.localBit e.1.1 e.1.2) x.width)
    | _ => none)
  let map := es.foldl (fun mp e => mapPut s mp e.2.1 x.width e.2.2.2.1 e.2.2.2.2 e.2.2.1) ([] : ByteMap)
  modify (fun s => x.request c spots ((s.publishMap map).sawGranules c (spotGranules spots)))
  match m with
  | .pages _ => pure ()
  | .tiles d v ts =>
    forAll ts (fun t => do
      stampTile (dieOfCore c) x.ctx d v t.1
      if es.any (fun e => e.2.2.2.2 && (d.place (x.coords e.1.1 e.1.2)).1 == t.1) then poisonTile d v t.1)

/-- Whether an element's place can be written. -/
def Spot.usable : Spot → Bool
  | .fail .. | .pend | .absent => false
  | _ => true

/-- Where a store goes: a tensor-space write is translated when it is published, copied for writing where it must be
(R70, R189, R211); an element that the tables no longer give, and every element of a KIND 01b store, where it was translated
at issue (R215). It waits for a frame. -/
def Xfer.target (x : Xfer) (c : Nat) : Op (MemSide × List Spot) := do
  match x.side with
  | .pages _ => return (x.side, x.spots)
  | .tiles .. => do
    match ← tdesc (dieOfCore c) x.ctx (x.sa.base % 2 ^ 32) with
    | .ok d => do
      let ts ← collect (x.tilesOf d) (fun t => do return (t, ← tileOf d d.current t))
      match ← x.cow c d ts with
      | none => throwWait
      | some ts =>
        let m := MemSide.tiles d d.current ts
        return (m, (x.spotsAt m).zipWith (fun z old => if z.usable then z else old) x.spots)
    | _ => return (x.side, x.spots)

/-- Retire transfer `x` of core `c`: it waits for its parts and for older overlapping local accesses (R183, R242, R347). -/
def Xfer.retire (x : Xfer) (c : Nat) : Op Unit := do
  if !x.parts.isEmpty then throwWait
  if !(← get).rangeFree c x.id x.foot then throwWait
  if x.load then x.doLoad c
  else do
    let (m, spots) ← x.target c
    x.doStore c m spots
  modify (fun s => (s.addHot c x.sa.buf (x.rows * x.cols * x.width / 8)).modCore c (fun k =>
    ({ k with xfers := k.xfers.filter (fun y => y.id != x.id) }).flushSigs x.seq))

/-- The transfer of number `id` with its core. -/
def State.xfer (s : State) (id : Nat) : Option (Nat × Xfer) :=
  s.cores.findSome? (fun e => (e.2.xfers.find? (fun x => x.id == id)).map (fun x => (e.1, x)))

def execStreamTransferRetirement (id : Nat) (s : State) : Out :=
  event (do
    match (← get).xfer id with
    | none => pure ()
    | some (c, x) => x.retire c) s

end Sys2Proof.Machine
end

