-- ==== Sys2Proof/Machine/Controllers.lean ====
section
/-! DEFINITION. The memory controllers' calendars, row prediction and disturbance trackers, line migration and tile moves
(R175, R176, R182 to R190), and the host's translation responses (R199, R217). -/

namespace Sys2Proof.Machine

def Die.chan (d : Die) (n : Nat) : Channel := Store.get {} d.chans n
def Die.setChan (d : Die) (n : Nat) (c : Channel) : Die := { d with chans := Store.set {} d.chans n c }

/-! Row activation (R185, R186). -/

/-- The number of the predictor's counter for row x of bank b (R185). -/
def predIndex (b x : Nat) : Nat := 64 * b + Nat.xor (Nat.xor (x % 64) (x / 64 % 64)) (x / 4096 % 16)

def Channel.pred (c : Channel) (b x : Nat) : BitVec 2 := Store.get 2 c.preds (predIndex b x)

/-- A tracker's update for an activation of row `x`: the tracker after it, and whether `x` asks for directed refreshes. -/
def Tracker.activate (t : Tracker) (th x : Nat) : Tracker × Bool :=
  let put (i n : Nat) : Tracker × Bool :=
    if th ≤ n then ({ t with ents := t.ents.set i (x, t.sp) }, true) else ({ t with ents := t.ents.set i (x, n) }, false)
  match (List.range 16).find? (fun i => (t.ents.getD i (0, 0)).1 == x) with
  | some i => put i ((t.ents.getD i (0, 0)).2 + 1)
  | none =>
    match (List.range 16).find? (fun i => (t.ents.getD i (0, 0)).2 ≤ t.sp) with
    | some i => put i (t.sp + 1)
    | none => ({ t with sp := t.sp + 1 }, false)

/-- The neighbours to refresh; below row 0 there is none. -/
def neighbours (blast : Bool) (x : Nat) : List Nat :=
  (if 1 ≤ x then [x - 1] else []) ++ [x + 1] ++ (if blast then (if 2 ≤ x then [x - 2] else []) ++ [x + 2] else [])

/-- An access to row `x` of bank `b`: the predictor learns, the row is activated unless it is open, and the counter of
`x` decides whether it stays open (R185, R186). -/
def Channel.access (c : Channel) (th : Nat) (blast preden : Bool) (b x : Nat) : Channel :=
  let last := Store.get none c.rows b
  let preds := match last with
    | none => c.preds
    | some (r, _) =>
      let v := c.pred b r
      let v' : BitVec 2 := if r = x then (if v = 3 then 3 else v + 1) else (if v = 0 then 0 else v - 1)
      Store.set 2 c.preds (predIndex b r) v'
  let c := { c with preds }
  let c :=
    if last == some (x, true) then c
    else
      let (t, ask) := (Store.get {} c.trackers b : Tracker).activate th x
      let c := { c with trackers := Store.set {} c.trackers b t }
      if ask then
        let drfm := c.drfm ++ (neighbours blast x).map (fun r => (b, r))
        { c with drfm, held := c.held || 32 < drfm.length }
      else c
  let openRow := !preden || 2 ≤ (c.pred b x).toNat
  { c with rows := Store.set none c.rows b (some (x, openRow)) }

/-- An access of the channel of a die: RHOVER is set while more than 32 directed refreshes wait (R187). -/
def Die.access (d : Die) (n pa : Nat) : Die :=
  let (b, x) := Config.bankRow pa
  let c := (d.chan n).access d.trkth.toNat d.blast d.preden (b % 32) (x % 65536)
  { (d.setChan n c) with rhover := d.rhover || 32 < c.drfm.length }

/-- Whether a cached-class access of an address is held back: it would activate its row, and its bank is concerned (R187). -/
def Channel.holdsBack (c : Channel) (pa : Nat) : Bool :=
  let b := (Config.bankRow pa).1 % 32
  c.held && Store.get none c.rows b != some ((Config.bankRow pa).2 % 65536, true) && c.drfm.any (fun p => p.1 == b)

/-- Issue up to two directed refreshes (R187). -/
def Die.issueDrfm (d : Die) (n : Nat) : Die :=
  let c := d.chan n
  let k := min 2 c.drfm.length
  let drfm := c.drfm.drop k
  { (d.setChan n { c with drfm, held := c.held && 16 ≤ drfm.length }) with drfmcnt := d.drfmcnt + BitVec.ofNat 32 k }

/-- A refresh command: every row of the channel is closed (R185). -/
def Die.refresh (d : Die) (n : Nat) : Die := d.setChan n { d.chan n with rows := [] }

/-! The slot calendar (R182 to R184). -/

/-- CALOWN writes of an earlier rotation than `rot` have taken effect (R184). -/
def Die.applyOwners (d : Die) (n rot : Nat) : Die :=
  let due (p : Nat × Nat × Byte × Nat) : Bool := p.1 == n && p.2.2.2 < rot
  { d with
    calown := (d.calPend.filter due).foldl (fun m p => Store.insert (32 * n + p.2.1) p.2.2.1 m) d.calown,
    calPend := d.calPend.filter (fun p => !due p) }

/-- Whether a part lies on channel `ch` of die `d`. -/
def partOn (d ch pa : Nat) : Bool := homeDie pa == d && chanOf pa == ch

/-- Remove parts of core `c` from its transfers and copies: those that `sel` selects. -/
def State.dropParts (s : State) (c : Nat) (sel : Part → Bool) : State :=
  let cut (x : Xfer) : Xfer := { x with parts := x.parts.filter (fun p => !sel p) }
  let cutCmd (k : Cmd) : Cmd := if k.core == c then { k with parts := k.parts.filter (fun p => !sel p) } else k
  { (s.modCore c (fun k => { k with xfers := k.xfers.map cut })) with cmds := s.cmds.map cutCmd }

/-- Parts that wait for a channel on which their core owns no slot any more are served as cached-class requests (R184). -/
def State.dropUnowned (s : State) (d ch : Nat) : State :=
  (List.range 144).foldl (fun s n =>
    let c := 144 * d + n
    if s.ownsSlot c d ch then s else s.dropParts c (fun p => partOn d ch p.at_)) s

/-- The oldest part of core `c` on a channel that has reached the controller by clock `t`: the number of its transfer or
copy, and the part (R183). -/
def State.partOf (s : State) (c d ch t : Nat) : Option (Nat × Part) :=
  let here (p : Part) : Bool := partOn d ch p.at_ && p.since ≤ t
  let ofX := (s.core c).xfers.filterMap (fun x => (x.parts.find? here).map (fun p => (x.id, p)))
  let ofK := (s.cmds.filter (fun k => k.core == c)).filterMap (fun k => (k.parts.find? here).map (fun p => (k.id, p)))
  (ofX ++ ofK).foldl (fun b p => match b with
    | none => some p
    | some q => if p.1 < q.1 then some p else some q) none

/-- Serve one part. -/
def State.servePart (s : State) (c : Nat) (p : Nat × Part) : State :=
  let cut (x : Xfer) : Xfer := if x.id = p.1 then { x with parts := x.parts.erase p.2 } else x
  let cutCmd (k : Cmd) : Cmd := if k.id = p.1 then { k with parts := k.parts.erase p.2 } else k
  { (s.modCore c (fun k => { k with xfers := k.xfers.map cut })) with cmds := s.cmds.map cutCmd }

/-- What slot `slot`, which began at clock `t0`, carries: in a maintenance slot a refresh or directed refreshes; in a data
slot the part of its owner that had arrived in its clock 0 or 1, or else a cached-class access, or waiting directed
refreshes. -/
def runSlot (d ch slot t0 : Nat) (cached : Option Nat) : Op Unit := do
  let s ← get
  let x := s.die d
  let own := s.owner d ch slot
  let part := if isMaint ch slot || 144 ≤ own then none else s.partOf (144 * d + own) d ch (t0 + 1)
  if isMaint ch slot then do
    let r ← if (x.chan ch).drfm.isEmpty then pure 1 else pick 2
    modify (fun s => s.modDie d (fun x => if r = 0 then x.issueDrfm ch else x.refresh ch))
  else match part with
    | some p => modify (fun s => (s.servePart (144 * d + own) p).modDie d (fun x => x.access ch p.2.at_))
    | none =>
      match cached with
      | some pa =>
        if partOn d ch pa && !(x.chan ch).holdsBack pa then modify (fun s => s.modDie d (fun x => x.access ch pa))
        else modify (fun s => s.modDie d (fun x => x.issueDrfm ch))
      | none => modify (fun s => s.modDie d (fun x => x.issueDrfm ch))

/-- CALENDAR_SLOT_START: the slot whose clock 1 has been reached by now, if it has not been run; slots count from die
start-up (R182). `cached` is the address of the cached-class access that a free data slot carries. -/
def execCalendarSlotStart (die chan : Nat) (cached : Option Nat) (s : State) : Out :=
  event (do
    let t := s.clock - s.start
    let n := t / slotClocks chan
    let done := Store.get 0 (s.die die).calSlots chan
    if 144 ≤ chan || n < done || t % slotClocks chan = 0 then return ()
    modify (fun s => s.modDie die (fun d => { d with calSlots := Store.set 0 d.calSlots chan (n + 1) }))
    modify (fun s => (s.modDie die (fun d => d.applyOwners chan (n / slotsOf chan))).dropUnowned die chan)
    runSlot die chan (n % slotsOf chan) (s.start + n * slotClocks chan) cached) s

/-- The clocks of a refresh window: 32 ms (R186). -/
def windowClocks : Nat := usClocks 32000

/-- REFRESH_WINDOW: a window has begun, and the trackers are cleared (R186). -/
def execRefreshWindow (die : Nat) (s : State) : Out :=
  event (modify (fun s =>
    let n := (s.clock - s.start) / windowClocks
    let clear (e : Nat × Channel) : Nat × Channel := (e.1, { e.2 with trackers := [] })
    if (s.die die).windows < n then
      s.modDie die (fun d => { d with windows := n, chans := (d.chans.map clear).filter (fun e => e.2 != {}) })
    else s)) s

/-! Line migration (R175, R176). -/

/-- The slice beside the lowest-numbered core of a quad (R12). -/
def quadSlice (q : Nat) : Nat := 24 * (q / 6) + 2 * (q % 6)

/-- LINE_MIGRATION: a line whose count has reached 3 moves to the slice beside the requesting quad; where its home slice
has no free forwarding entry, the line that migrated longest ago goes home. -/
def execLineMigration (die line : Nat) (s : State) : Out :=
  event (modify (fun s =>
    let d := s.die die
    let r := Store.get {} d.lines line
    let home := homeSlice (128 * line)
    let to_ := quadSlice r.quad
    if r.count < 3 || r.holder.getD home = to_ then s
    else
      let fwd := d.lines.filter (fun e => e.2.holder.isSome && homeSlice (128 * e.1) == home && e.1 != line)
      let oldest := fwd.foldl (fun (b : Option (Nat × LineRec)) e => match b with
        | none => some e
        | some x => if e.2.moved < x.2.moved then some e else some x) none
      let lines := match oldest with
        | some e =>
          if 4096 ≤ fwd.length && to_ != home then Store.set {} d.lines e.1 { e.2 with holder := none, moved := 0 } else d.lines
        | none => d.lines
      let r' : LineRec := { r with count := 0, holder := if to_ = home then none else some to_, moved := d.fwdOrder }
      s.modDie die (fun d => { d with lines := Store.set {} lines line r', fwdOrder := d.fwdOrder + 1 }))) s

/-! Tile moves (R189, R190). -/

/-- A firmware demotion that is given up is told by mailbox (R190, R407). -/
def moveAbandoned (die ctx tid x : Nat) (toLp : Bool) : Op Unit :=
  if toLp then modify (fun s => s.postUnit die 4 1 (tid + x * 2 ^ 32) 0 ctx) else pure ()

/-- Begin a firmware move of a resident tile, or report that it cannot be made. -/
def beginTileMove (die ctx tensor v tile : Nat) (d : TDesc) (t : Tte) (toLp : Bool) : Op Unit := do
  let tier := bitAt toLp 0
  if t.bad || !t.accessible || t.state != 0 || t.tier == tier then return ()
  if (toLp && t.pin) || t.shx || t.refcnt != 1 then moveAbandoned die ctx tensor tile toLp
  else do
    let (f, s) := (← get).popFrame die (poolOf tier d.tlog)
    set s
    match f with
    | none => moveAbandoned die ctx tensor tile toLp
    | some f => beginMove die ctx tensor v tile d t f (poolOf tier d.tlog) none

/-- TILE_MOVE: a stash engine moves a resident tile to the other tier for firmware (R189). The first event begins the move,
each later one ends its copy or restarts it; a move given up is reported (R190). -/
def execTileMove (die ctx tensor ver tile : Nat) (toLp : Bool) (s : State) : Out :=
  event (do
    match ← tdesc die ctx tensor with
    | .ok d => do
      let v := if d.vers then ver else 0
      if (d.vers && !d.hasVersion ver) || d.nt ≤ tile then return ()
      match (← get).moves.find? (fun m => m.cmd == none && m.ctx == ctx && m.tensor == tensor && m.ver == v && m.tile == tile) with
      | none => beginTileMove die ctx tensor v tile d (← readTte d v tile) toLp
      | some m => do
        match ← endCopy m d with
        | .again => pure ()
        | .gone => moveAbandoned m.die ctx tensor tile (6 ≤ m.newPool)
        | .whole t => swapFrame m d t (m.newPool / 6) 0
    | _ => pure ()) s

/-- Whether an access translated to bytes [a, a + n) is still on its way: a transfer, an access performed late, or a write let
go (R189 step 4, R223, R234). -/
def State.reaches (s : State) (a n : Nat) : Bool :=
  let here (x : Nat) : Bool := a ≤ x && x < a + n
  s.posted.any (fun p => here p.pa) ||
    s.cores.any (fun e => e.2.xfers.any (fun x => (spotGranules x.spots).any (fun g => here (8 * g))) ||
      allSeqs.any (fun q => (e.2.seq q).late.any (fun l => l.work.pas.any here)))

/-- OLD_FRAME_RELEASE: the accesses to the oldest old frame have drained, and it returns to its pool (R189 step 4). -/
def execOldFrameRelease (die : Nat) (s : State) : Out :=
  event (match (s.die die).oldFrames with
    | [] => pure ()
    | f :: r => modify (fun s =>
      if s.reaches (f.frame * 4096) (32768 * 2 ^ (f.pool % 6)) then s
      else (s.modDie die (fun d => { d with oldFrames := r })).pushFrame die f.pool f.frame)) s

/-! The host's translations (R199, R217). -/

/-- ATS_TRANSLATION_RESPONSE: an outstanding request's answer is cached; 'not yet' leaves the request to be made again. -/
def execAtsTranslationResponse (die pasid page hpa : Nat) (grantR grantW error later : Bool) (s : State) : Out :=
  event (modify (fun s =>
    let mine (q : AtsReq) : Bool := q.die == die && q.pasid == pasid && q.page == page
    let asked := s.atsReqs.any (fun q => mine q && q.write)
    let ent : AtsEnt := ⟨die, pasid, page, hpa, grantR, grantW, error, asked⟩
    if later || !s.atsReqs.any mine then s
    else { s with
      atsReqs := s.atsReqs.filter (fun q => !mine q),
      ats := ent :: s.ats.filter (fun e => !(e.die == die && e.pasid == pasid && e.page == page)) })) s

end Sys2Proof.Machine
end

