-- ==== Sys2Proof/Machine/Fetch.lean ====
section
/-! DEFINITION. Fetching an instruction word and choosing what a turn runs (R77, R83, R103, R237, R271). -/

namespace Sys2Proof.Machine

/-- The turn that comes next: the head of the list, else the schedule's (log 4). -/
def State.nextTurn (s : State) : Turn × State :=
  match s.turns with
  | t :: r => (t, { s with turns := r })
  | [] => (Config.turn s.nturn, { s with nturn := s.nturn + 1 })

/-- The first point of the publication order whose value of a granule the sequencer may execute: that of its line in the
instruction cache, which holds it whole or not at all, or of the last ICINV that a branch has followed (R237). -/
def State.fetchBound (s : State) (pa : Nat) : Nat :=
  let x := s.mySeq
  let at_ := Store.get 0 (if x.icPending then x.oldLines else s.me.iLines) (pa / 128)
  if at_ = 0 then x.fetchFrom else at_ - 1

/-- The line of a word that was fetched at point `pt` is in the cache from then on, unless the word is one that the sequencer
held before an ICINV; a miss is a request (R171, R175, R237). -/
def State.fetchLine (s : State) (pa pt : Nat) : State :=
  if Store.get 0 s.me.iLines (pa / 128) != 0 || (s.mySeq.icPending && pt < s.mySeq.icFrom) then s
  else (s.requestLine s.cur pa).modMe (fun k => { k with iLines := Store.set 0 k.iLines (pa / 128) (pt + 1) })

/-- Fetch the word at the pc (R237). -/
def fetchWord : Op Nat := do
  let s ← get
  let va := s.mySeq.pc.toNat
  need (va % 8 == 0) cALIGN va
  match ← seqXlate .fetch va with
  | .ctl d o => do
    let (v, p) := s.ctlRead d o
    need (!p) cECC va
    return v
  | .ok pa => do
    need (!(← get).poisoned pa 8) cECC va
    let s ← get
    let old := pubsOf (pa / 8) (s.fetchBound pa) s.npub s.pubs
    let i ← pick (old.length + 1)
    let (pt, v) := if i = 0 then (s.npub, s.rd pa 8) else (old.map (fun p => (p.1, p.2.toNat))).getD (i - 1) (s.npub, s.rd pa 8)
    modify (fun s => s.fetchLine pa pt)
    return v
  | x => do
    firstFail .fetch [(va, x)]
    throwTrap cNOTMAP va

/-- Whether a sequencer may issue at all: its core neither halted, in reset nor about to trap, and itself neither held nor parked; the C-seq runs in a handler whatever it was (R21, R40, R272, R277, R290). -/
def State.mayIssue (s : State) (c : Nat) (q : SeqId) : Bool :=
  let k := s.core c
  let x := k.seq q
  c < 288 && !k.halted && !k.resetting && k.trapping.isNone && (k.onPriv q || (!x.held && !x.parked))

/-- What a turn of a sequencer does: nothing, a class A trap (R271), or an instruction. -/
inductive TurnKind where
  | idle
  | trapA (r : TrapReq) (rest : List PendA)
  | run
  deriving DecidableEq, Repr

/-- Whether a core in which nothing runs stands at a boundary: its sector ready and all four sequencers parked (R269, R280). -/
def State.rests (s : State) (c : Nat) : Bool :=
  let k := s.core c
  c < 288 && !k.halted && !k.resetting && k.trapping.isNone && s.sectorReady c && allSeqs.all (fun q => (k.seq q).parked)

def State.turnKind (s : State) (c : Nat) (q : SeqId) : TurnKind :=
  match (s.core c).dueA with
  | some (r, rest) => if s.mayIssue c q || s.rests c then .trapA r rest else .idle
  | none => if s.mayIssue c q then .run else .idle

/-- The instruction that the sequencer runs: the one it waits in, or the decoded word at its pc; else a trap (R79,
R103). -/
inductive Fetched where
  | ok (i : Instr) (s : State)
  | out (o : Out)

def State.fetchInstr (s : State) : Fetched :=
  match s.mySeq.wait with
  | some w => .ok w.i s
  | none =>
    match fetchWord s with
    | .error (.trap k v) s' => .out (trapHere k v (errState s s'))
    | .error (.wait _) s' => .out (.next (errState s s'))
    | .error (.fault f) _ => .out (.fault f)
    | .ok w s' =>
      match decode w with
      | .ok i => .ok i s'
      | .undefOp => .out (trapHere cUNDEF w s')
      | .undefField => .out (trapHere (if accepts s.curSeq w || isSysWord w then cUNDEF else cSEQCLASS) w s')

/-! Order within one clock (R38, R64, R242, R271, R352; log 77). -/

/-- The place within its clock of a turn that issues an instruction: by core, then L, X, S, C. -/
def orderOf : Act → Option Nat
  | .issue c q => some (4 * c + q.code)
  | .event (.blockStart c) => some (4 * c + 3)
  | .event (.tqpopTimeout c) => some (4 * c + 3)
  | .event (.sleepWakeup c) => some (4 * c + 3)
  | .event (.barTimeout c q) => some (4 * c + q.code)
  | _ => none

/-- PENN, MBPOST and the version instructions reach a scheduler after the evaluations of their clock (R64). -/
def toScheduler : Instr → Bool
  | .pennLoad .. | .pennStart .. | .pennStop .. | .pennUnload .. | .pennStat .. | .mbpost .. | .vernew .. | .verpin ..
  | .verdrop .. => true
  | _ => false

/-- Whether a turn issues an instruction that reaches a scheduler. -/
def State.sched (s : State) : Act → Bool
  | .issue c q =>
    let s := { s with cur := c, curSeq := q }
    s.turnKind c q == .run && (match s.fetchInstr with
      | .ok i _ => toScheduler i
      | .out _ => false)
  | _ => false

/-- Whether a turn is a stage evaluation of the schedule's own. -/
def evaluates : Act → Bool
  | .event (.stageEvaluation ..) => true
  | _ => false

/-- The clocks that pass before a turn: what would come out of order in this clock comes in the next. -/
def State.turnDt (s : State) (t : Turn) : Nat :=
  let late := ((orderOf t.act).any (fun k => k < s.rank)) ||
    (s.evaluated != 0 && !evaluates t.act && !s.sched t.act)
  if t.dt = 0 && late then 1 else t.dt

/-- Time passes. -/
def State.pass (s : State) (dt : Nat) : State :=
  if dt = 0 then s else { s with clock := s.clock + dt, rank := 0, evaluated := 0 }

/-- A turn begins. -/
def State.startTurn (s : State) (t : Turn) : State :=
  { s with
    rank := match orderOf t.act with
      | some k => k + 1
      | none => s.rank
    evaluated := if s.sched t.act then 16 else s.evaluated
    relax := t.late }

/-- The turn comes again. -/
def State.again (s : State) (t : Turn) : State := { s with turns := t :: s.turns }

/-! Placing a word where the next turn fetches it. -/

/-- The sequencer that runs a placed word: the C-seq where it accepts the word, else the first that does. -/
def seqFor (w : Nat) : SeqId := ([SeqId.C, .L, .X, .S].find? (fun q => accepts q w)).getD .C

def placeVa : Nat := 0x8000000000001000
def placePa : Nat := 0x1000

/-- Store a word where core 0 of die 0 fetches next: its Postmaster core, context 0 valid, the page of the pc cached
with every right, the C-seq privileged, and that sequencer's turn next (log 4). -/
def State.place (s : State) (w : Nat) : State :=
  let q := seqFor w
  let s := (s.wr placePa (bytesOf w 8)).wr (s.ctxAddr 0 (s.core 0).ctx.toNat + 0x0A) [0x20]
  let k := s.core 0
  let k := { k with halted := false, resetting := false, trapping := none, pend := [], preq := false,
                    priv := (q == SeqId.C) || k.priv, iLines := [] }
  let k := k.modSeq q (fun x => { x with
    pc := BitVec.ofNat 64 placeVa, parked := false, held := false, wait := none, icPending := false, fetchFrom := s.npub,
    late := [] })
  let ent : TlbEnt := ⟨agentCore 0, k.ctx.toNat, placeVa, 4096, placePa, true, true, true, true, true, placeVa / 4096, 0⟩
  let s := s.setCore 0 k
  { s with tlb := ent :: s.tlb, turns := ⟨0, .issue 0 q, false⟩ :: s.turns, rank := 0, evaluated := 0 }

end Sys2Proof.Machine
end

