-- ==== Sys2Proof/Machine/Release.lean ====
section
/-! DEFINITION. What the releases of PHASE, BAR, TDONE, TTRIG and MBPOST share: the link step, the deferred poison mask
(R226, R227, R283); and the events that let a waiting instruction go on. -/

namespace Sys2Proof.Machine

/-! The link step (R220, R227, R291). -/

/-- Whether port `p` leads to packages of scope `sc`. -/
def State.inScope (s : State) (sc p : Nat) : Bool :=
  let q := s.port p
  let pipe := q.inStage || q.inPipe || p < 6
  match sc with
  | 6 => q.inStage
  | 7 => p < 6
  | 8 => pipe
  | 9 => q.inRing
  | 11 => pipe || q.inRing
  | _ => false

/-- Whether a command's transfers toward the scope may still be on their way. -/
def State.linkBusy (s : State) (sc : Nat) (k : Cmd) : Bool :=
  (k.kind == .chsend && s.inScope sc (s.chan k.sendChan).port) ||
    (k.kind == .coll && (List.range 8).any (s.inScope sc))

/-- Whether a direct write, or a store performed late, is on its way from core `c` to host memory (R227). -/
def State.hostBusy (s : State) (c : Nat) : Bool :=
  let host (z : Spot) : Bool := match z with
    | .at_ _ pas => pas.any (hostBase ≤ ·)
    | _ => false
  (s.core c).xfers.any (fun x => !x.load && x.spots.any host) || (s.core c).latePas.any (hostBase ≤ ·)

/-- Wait for the accesses of the sequencers in `qs` of core `c`: those performed late, stream transfers, and links of the
scope; at HOST and SYSTEM for every host-half write of the core (R223, R226, R227). -/
def settle (c sc : Nat) (qs : List SeqId) : Op Unit := do
  let s ← get
  if qs.any (fun q => !((s.core c).xfersOf q).isEmpty || !((s.core c).seq q).late.isEmpty) then throwWait
  if hostScope sc && s.hostBusy c then throwWait
  if s.cmds.any (fun k => k.core == c && qs.contains k.seq && s.linkBusy sc k) then throwWait

/-- The traps that come before a release publishes anything: the deferred mask (R283) and the buffer's capacity
(R173, R226). -/
def releaseTraps (c : Nat) (deferred : Bool) : Op Unit := do
  let k := (← get).core c
  let m := k.deferred
  need (k.psbLines.length ≤ psbCapacity) cPHASEOV ((k.psb.getLast?.map (·.va)).getD 0)
  need (!deferred || m == 0) cECC (0xFFFD000000000000 + (opPopc m) * 2 ^ 16 +
    sumOver (List.range 16) (fun r => bitAt (fieldOf m (64 * r) 64 != 0) r))
where
  /-- The number of lanes in a mask. -/
  opPopc (m : Nat) : Nat := ((List.range 1024).filter (fun i => m.testBit i)).length

/-- Whether the mailbox ring of a die is set up and empty. -/
def Die.mailIdle (d : Die) : Bool := d.mailRoom && d.mail.isEmpty && d.mbhead == d.mbtail

/-- Work of an instruction whose messages must find room in the ring: where they do not, it waits with no effect (R280, R290).
More messages than an empty ring holds wait in the die's list (log 53). -/
def asPoster {α : Type} (x : Op α) : Op α := do
  let d0 := (← get).die (← get).myDie
  let a ← x
  let d1 := (← get).die (← get).myDie
  if d0.mail.length < d1.mail.length && !d0.mailIdle then throwWait
  return a

/-! Events for waiting instructions. -/

/-- Let sequencer `q` of core `c` issue the instruction it waits in once more, when `ok` holds of it and the core may
issue now. -/
def reissue (c : Nat) (q : SeqId) (ok : Waiting → Bool) (run : Instr → State → Out) (s : State) : Out :=
  match ((s.core c).seq q).wait with
  | none => .next s
  | some w =>
    if ok w && s.mayIssue c q && (s.core c).dueA.isNone then run w.i { s with cur := c, curSeq := q } else .next s

end Sys2Proof.Machine
end

