-- ==== Sys2Proof/Machine/Tasks.lean ====
section
/-! DEFINITION. The task instructions and the events of the Sorting Frame (R29, R36 to R45, R356 to R361). -/

namespace Sys2Proof.Machine

/-! TQPOP (R359). -/

/-- Deliver a block to the core: acquire, registers, sequencers; then RD (R29, R88, R359). -/
def deliver (rd : Nat) (t : Task) (b : Nat) : Op Post := do
  let s ← get
  need (scopeOk t.info.scope) cSCOPE t.info.scope
  let stamp ← match t.relaunch with
    | some (n, _) => pure n
    | none => stampNow s.myDie t.info.ctx
  let pc ← startBlock s.cur t b stamp (s.mySeq.pc + 8)
  modify (fun s => s.setG rd (1 + bitAt t.pf 1))
  return .goto pc

/-- Whether the time-out form has run out. -/
def State.popExpired (s : State) (timeout : Option Nat) (since : Nat) : Bool :=
  match timeout with
  | some ra => since + usClocks (s.g ra).toNat ≤ s.clock
  | none => false

/-- Whether some task will qualify once its 64 clocks have passed (R38). -/
def State.popSoon (s : State) (c : Nat) : Bool :=
  s.sectorReady c && s.tasks.any (fun t => bit t.info.cset c && t.frames.any (fun f => f.die == dieOfCore c))

/-- The clock at which the instruction began to wait on something other than tokens. -/
def State.issuedAt (s : State) : Nat :=
  match s.mySeq.wait with
  | some w => if w.counted then s.clock else w.since
  | none => s.clock

def tqpopBody (rd : Nat) (timeout : Option Nat) : Op Post := do
  let s ← get
  let k := s.me
  if k.cur.isSome then do
    set (s.setG rd 0)
    return .next
  if !(k.l.parked && k.x.parked && k.s.parked) then throwWait
  match ← popBlock s.cur with
  | some (t, b) => deliver rd t b
  | none => do
    let s ← get
    if s.popExpired timeout s.issuedAt && !s.popSoon s.cur then do
      set (s.setG rd 4)
      return .next
    else throwWait

def execTqpop (c : Ctl) (rd : Nat) (timeout : Option Nat) (s : State) : Out :=
  issue (.tqpop c rd timeout) c noPre timeout.toList (tqpopBody rd timeout) s

/-- Run a waiting TQPOP. -/
def runTqpop (i : Instr) (s : State) : Out :=
  match i with
  | .tqpop c rd t => execTqpop c rd t s
  | _ => .next s

/-- BLOCK_START: the frame serves the pop of a waiting core. -/
def execBlockStart (core : Nat) (s : State) : Out :=
  reissue core .C (fun w => match w.i with | .tqpop .. => true | _ => false) runTqpop s

/-- TQPOP_TIMEOUT: the time-out of a waiting TQPOP has run out. -/
def execTqpopTimeout (core : Nat) (s : State) : Out :=
  reissue core .C (fun w => match w.i with
    | .tqpop _ _ (some ra) => !w.counted && w.since + usClocks ((s.core core).g .C ra).toNat ≤ s.clock
    | _ => false) runTqpop s

/-! TQPUSH and TARM (R356, R360). -/

/-- Give a result and go on. -/
def result (rd v : Nat) : Op Post := do
  modify (fun s => s.setG rd (BitVec.ofNat 32 v))
  return .next

/-- The frames a task with these blocks enters. -/
def TaskInfo.room (t : TaskInfo) (sel : List Nat) (s : State) : Bool :=
  (List.range 2).all (fun d => (t.dieBlocks sel d).isEmpty || s.frameCount d < 65536)

/-- Mark the full frames that a task would enter (R39). -/
def TaskInfo.noteFull (t : TaskInfo) (sel : List Nat) (s : State) : State :=
  (List.range 2).foldl (fun s d =>
    if (t.dieBlocks sel d).isEmpty || s.frameCount d < 65536 then s
    else s.modDie d (fun x => { x with fullseen := true })) s

/-- An inserter other than TQPUSH reports a failed insertion by mailbox too (R35, R407). -/
def insertReport (die ctx h code : Nat) : Op Unit := modify (fun s => s.postUnit die 1 2 h code ctx)

/-- A poisoned TCB that an instruction meets is told by mailbox, in the form of a failed insertion with TQPUSH's code (R282,
R407; log 53). -/
def tellPoison (die ctx h : Nat) : Op Unit := do
  let c ← ctxEnt die ctx
  if h < c.tcbSize && (← poisonedAt (agTask die) die ctx (tcbVa c h) 128) then insertReport die ctx h 5

def execTqpush (c : Ctl) (rd ra : Nat) (s : State) : Out :=
  issue (.tqpush c rd ra) c noPre [ra] (do
    let s ← get
    match ← prepTask s.myDie s.me.ctx.toNat (s.g ra).toNat true with
    | .fail code => do
      if code = 5 then tellPoison s.myDie s.me.ctx.toNat (s.g ra).toNat
      result rd code
    | .ok t w => do
      let sel := List.range (blockCount t.kinds t.extent)
      if !t.room sel (← get) then do
        modify (t.noteFull sel)
        throwWait
      startTask s.myDie t w sel none
      result rd 0) s

/-- Write what TARM sets: PREDCNT, STATE and flags, STATUS and the counts; none when the TCB cannot be written. -/
def armTcb (die ctx h n : Nat) : Op Bool := do
  let c ← ctxEnt die ctx
  if !(← agCanWrite (agTask die) die ctx (tcbVa c h) 128) then return false
  let put (off k v : Nat) : Op Unit := putTcb die ctx h off k v
  put 0x0C 2 n
  put 0x0E 1 0
  put 0x78 2 0
  put 0x5C 4 0
  put 0x6C 4 0
  put 0x7C 4 0
  return true

def tarmBody (rd h n : Nat) : Op Post := do
  let s ← get
  let d := s.myDie
  let x := s.me.ctx.toNat
  let c ← ctxEnt d x
  if c.tcbSize ≤ h then result rd 5
  else if 65535 < n then result rd 4
  else match ← readTcb d x h with
    | .beyond | .unreadable => do
      tellPoison d x h
      result rd 6
    | .ok w => do
      if !([0, 4, 5].contains (fieldOf (w.getD 1 0) 48 4)) || s.holdsTask x h then result rd 2
      else if !(← armTcb d x h n) then result rd 6
      else if n != 0 then result rd 0
      else do
        let code ← insertTask d x h
        if code = 0 then result rd 1
        else do
          insertReport d x h code
          result rd 3

def execTarm (c : Ctl) (rd ra rb : Nat) (s : State) : Out :=
  issue (.tarm c rd ra rb) c noPre [ra, rb] (do
    let s ← get
    tarmBody rd (s.g ra).toNat (s.g rb).toNat) s

/-! TDONE (R41, R45, R357). -/

/-- What TDONE waits for: parked sequencers, but those a handler holds; counters at 0; transfers retired; no class A cause
pending that could be taken (R41, R45). -/
def State.drained (s : State) : Bool :=
  let k := s.me
  (k.nest != 0 || (k.l.parked && k.x.parked && k.s.parked && k.pend.isEmpty)) &&
    allSeqs.all (fun q => (List.range 4).all (fun n => s.ecnt s.cur q n == 0)) && k.quiet

/-- A handler's TDONE sets the other sequencers parked (R45). -/
def Core.parkLxs (c : Core) : Core :=
  [SeqId.L, .X, .S].foldl (fun c q => c.modSeq q (fun x => { x with parked := true, wait := none })) c

/-- TDONE with 0xFFFF: the same block again, in user mode, with its triggered mark (R43, R45). No register takes the result of
a TQPOP: R45 delivers the block "as R40 states" and names none (DESIGN CHOICE, log 55). -/
def rerun (b : Block) : Op Post := do
  let s ← get
  match s.task b.info.ctx b.info.h with
  | none => return .next
  | some t => do
    need (scopeOk t.info.scope) cSCOPE t.info.scope
    set (s.modMe (fun k => (k.parkLxs.modSeq .C (fun x => { x with parked := false, held := false })).leave))
    syncHeld s.myDie b
    let stamp ← match t.relaunch with
      | some (n, _) => pure n
      | none => stampNow s.myDie t.info.ctx
    let pc ← startBlock s.cur { t with info := b.info } b.blk stamp b.after
    modify (fun s => s.modBlock s.cur (fun y => { y with trig := b.trig }))
    return .goto pc

/-- TDONE with another status. -/
def finishBlock (b : Block) (status : Nat) : Op Post := do
  let s ← get
  need (scopeOk b.info.scope) cSCOPE b.info.scope
  settle s.cur b.info.scope allSeqs
  releaseAlone s.cur b.info.scope
  writeTrace s.cur b status
  if s.me.nest != 0 then modify (fun s => s.modMe (·.parkLxs))
  retireBlock s.cur b status
  return .next

def tdoneBody (i : Instr) (ra : Nat) : Op Post := do
  let s ← get
  let status := (s.g ra).toNat % 65536
  need (status != 0xFFFF || s.me.onPriv s.curSeq) cPRIV (encode i)
  match s.me.cur with
  | none => return .next
  | some b => do
    releaseTraps s.cur true
    if !s.drained then throw (.wait true)
    if status = 0xFFFF then rerun b else finishBlock b status

def execTdone (c : Ctl) (ra : Nat) (s : State) : Out :=
  issue (.tdone c ra) c noPre [ra] (asPoster (tdoneBody (.tdone c ra) ra)) s

/-! TTRIG (R43, R236, R361). -/

/-- The release of TTRIG and MBPOST: every store of the core in the block, at the SCOPE of its task (R43, R327). -/
def releaseBlock (b : Block) : Op Unit := do
  let s ← get
  need (scopeOk b.info.scope) cSCOPE b.info.scope
  releaseTraps s.cur false
  settle s.cur b.info.scope allSeqs
  releaseAlone s.cur b.info.scope

def ttrigBody : Op Post := do
  let s ← get
  match s.me.cur with
  | none => return .next
  | some b => do
    if b.trig then return .next
    releaseBlock b
    modify (fun s => s.modBlock s.cur (fun b => { b with trig := true }))
    countTrig s.myDie b.info.ctx b.info.h
    return .next

def execTtrig (c : Ctl) (s : State) : Out :=
  issue (.ttrig c) c noPre [] (asPoster ttrigBody) s

/-! Events of the frame. -/

/-- FRAME_AGING_TICK: the ticks that have fallen are counted (R37). -/
def execFrameAgingTick (die : Nat) (s : State) : Out := event (modify (fun s => s.ageSync die)) s

/-- TASK_INSERTION: a task that waits for room enters its frames once each has it (R36). -/
def execTaskInsertion (ctx h : Nat) (s : State) : Out :=
  event (modify (fun s => s.enterWaiting (s.tasks.filter (fun t => t.is ctx h)))) s

end Sys2Proof.Machine
end

