-- ==== Sys2Proof/Machine/Pennant.lean ====
section
/-! DEFINITION. The pennant scheduler: installing a stage, arrivals, stepping the table, releases (R48 to R69, R73,
R326, R327, R335, R336). -/

namespace Sys2Proof.Machine

/-- The scheduler of die `d` as an agent (R405). -/
def agPenn (d : Nat) : Nat := agentDie d 6

/-- A message of the scheduler: word 3 holds context, slot and die (R290, R407). -/
def State.postStage (s : State) (d n sub w1 w2 : Nat) (cause : Nat := noCause) : State :=
  s.post d (mailWord0 cause 0 0 2 sub) w1 w2 ((s.stage d n).ctx + n * 2 ^ 16 + d * 2 ^ 19)

/-! Fields of the descriptor (R49). -/

def StageSlot.wv (st : StageSlot) : Bool := bit (st.desc.getD 2 0) 24
def StageSlot.instBase (st : StageSlot) : Nat := fieldOf (st.desc.getD 2 0) 32 24
def StageSlot.plen (st : StageSlot) : Nat := fieldOf (st.desc.getD 4 0) 0 9
def StageSlot.wrap (st : StageSlot) : Nat := fieldOf (st.desc.getD 4 0) 9 8
/-- Records that make an arrival of a phase complete (R56). -/
def StageSlot.need (st : StageSlot) (ph : Nat) : Nat := fieldOf (st.desc.getD 4 0) (14 + 3 * ph) 3 + 1
def StageSlot.prefetches (st : StageSlot) : Bool := bit (st.desc.getD 4 0) 26
def StageSlot.qBase (st : StageSlot) (ph : Nat) : Nat := st.desc.getD (4 + ph) 0
def StageSlot.qCap (st : StageSlot) (ph : Nat) : Nat := 2 ^ fieldOf (st.desc.getD 8 0) (4 * (ph - 1)) 4
def StageSlot.arrBase (st : StageSlot) : Nat := st.desc.getD 9 0
def StageSlot.vsBase (st : StageSlot) : Nat := st.desc.getD 21 0
/-- HOLDTO in µs; 0 means 1,000. -/
def StageSlot.holdTo (st : StageSlot) : Nat :=
  let t := fieldOf (st.desc.getD 20 0) 0 20
  if t = 0 then 1000 else t
/-- The template of a phase. -/
def stageTemplate (desc : List Nat) (ph : Nat) : Nat :=
  match ph with
  | 1 => fieldOf (desc.getD 1 0) 0 24
  | 2 => fieldOf (desc.getD 1 0) 32 24
  | _ => fieldOf (desc.getD 2 0) 0 24

/-- A pennant entry's fields (R61). -/
def penPh (e : Nat) : Nat := fieldOf e 0 2
def penRep (e : Nat) : Nat := fieldOf e 2 6
def penRule (e : Nat) : Nat := fieldOf e 8 2
def penSub (e : Nat) : Bool := bit e 10
def penHold (e : Nat) : Bool := bit e 11
def penNv (e : Nat) : Bool := bit e 12

/-- A reserved encoding in an entry (R61). -/
def penBad (wv : Bool) (e : Nat) : Bool :=
  penPh e == 0 || (penPh e == 3 && !wv) || penRep e == 0 || penRule e == 3 || fieldOf e 13 3 != 0

def StageSlot.cur (st : StageSlot) : Nat := st.ptab.getD st.entry 0

def StageSlot.q (st : StageSlot) (ph : Nat) : ArrQ := match ph with | 1 => st.qf | 2 => st.qb | _ => st.qw
def StageSlot.setQ (st : StageSlot) (ph : Nat) (q : ArrQ) : StageSlot :=
  match ph with | 1 => { st with qf := q } | 2 => { st with qb := q } | _ => { st with qw := q }

def QRec.tag (r : QRec) : Nat := r.lo.toNat % 65536

/-- The unconsumed records of a phase with a tag, oldest first. -/
def StageSlot.recsOf (st : StageSlot) (ph t : Nat) : List QRec :=
  (st.q ph).recs.filter (fun r => !r.used && r.tag == t)

/-- The tags whose arrival of a phase is complete, each with the clock of the record that completed it (R56, R62). -/
def StageSlot.complete (st : StageSlot) (ph : Nat) : List (Nat × Nat) :=
  let tags := (((st.q ph).recs.filter (fun r => !r.used)).map (·.tag)).eraseDups
  tags.filterMap (fun t => ((st.recsOf ph t)[st.need ph - 1]?).map (fun r => (t, r.clk)))

/-- The slot of a tag in flight (R58). -/
def StageSlot.slotOf (st : StageSlot) (t : Nat) : Option (Nat × TagSlot) :=
  st.tags.findSome? (fun e => match e.2 with
    | some x => if x.tag == t then some (e.1, x) else none
    | none => none)

/-- The lowest free slot. -/
def StageSlot.freeSlot (st : StageSlot) : Option Nat := (List.range 256).find? (fun i => (Store.get none st.tags i).isNone)

/-- Consume the oldest records that make an arrival complete; entries are reused in order (R55, R59). -/
def StageSlot.consume (st : StageSlot) (ph t : Nat) : StageSlot :=
  let q := st.q ph
  let mark (acc : List QRec × Nat) (r : QRec) : List QRec × Nat :=
    if !r.used && r.tag == t && 0 < acc.2 then (acc.1 ++ [{ r with used := true }], acc.2 - 1) else (acc.1 ++ [r], acc.2)
  let recs := (q.recs.foldl mark (([] : List QRec), st.need ph)).1
  let left := recs.dropWhile (·.used)
  st.setQ ph { head := (q.head + (recs.length - left.length)) % st.qCap ph, recs := left }

/-! Arrivals (R54 to R57, R69). -/

/-- What appending a record does. -/
inductive Appended where
  | done
  | full
  | failed
  deriving DecidableEq, Repr

/-- Append a record to its phase's queue. A write that fails sends the stage to FAULT (R55). -/
def appendRec (d n : Nat) (lo hi : DWord) : Op Appended := do
  let st := (← get).stage d n
  let ph := fieldOf lo.toNat 16 2
  let q := st.q ph
  if st.qCap ph ≤ q.recs.length then return .full
  let va := addrAdd (st.qBase ph) (16 * ((q.head + q.recs.length) % st.qCap ph))
  if !(← agWriteBytes (agPenn d) d st.ctx va (wordBytes [lo.toNat, hi.toNat])) then do
    modify (fun s => (s.modStage d n (fun x => { x with state := 4 })).postStage d n 4 lo.toNat va)
    return .failed
  let s ← get
  let q' : ArrQ := { q with recs := q.recs ++ [{ lo, hi, clk := s.clock, used := false }] }
  let st' := st.setQ ph q'
  let t := lo.toNat % 65536
  let done := (st'.recsOf ph t).length == st.need ph
  set ((s.modStage d n (fun _ => { st' with due := st.due || done })).wakeDie d)
  if done && ph == 2 && st.prefetches then modify (fun s => s.prefetch d n t)
  return .done

/-- ARRIVAL_RECORD_APPEND: a channel appends the oldest record it holds, unless the slot is empty, the queue has no
reusable entry, or an earlier write failed and the stage has not been started since (R52, R55). A record whose write failed is
held over UNLOAD and a new LOAD too, up to the next START: R55 speaks of a restart alone (DESIGN CHOICE, log 58). -/
def execArrivalRecordAppend (chan : Nat) (s : State) : Out :=
  event (do
    let c := s.chan chan
    match c.recs with
    | [] => pure ()
    | (lo, hi) :: rest => do
      let st := s.stage c.stgdie c.stg
      if st.state = 0 || c.recFail || fieldOf lo.toNat 16 2 = 0 then return ()
      match ← appendRec c.stgdie c.stg lo hi with
      | .full => pure ()
      | .failed => modify (fun s => s.setChan chan { s.chan chan with recFail := true })
      | .done => do
        modify (fun s => s.setChan chan { s.chan chan with recs := rest })
        delivered chan (fieldOf hi.toNat 32 32)) s

/-- Complete B and W arrivals whose tag is not in flight are consumed (R57). -/
def strays (d n : Nat) : Op Unit :=
  forAll [2, 3] (fun ph => do
    let st := (← get).stage d n
    forAll (st.complete ph) (fun p => do
      let st := (← get).stage d n
      if (st.slotOf p.1).isNone then do
        let recs := (st.recsOf ph p.1).take (st.need ph)
        modify (fun s => s.modStage d n (fun x => { x.consume ph p.1 with stray := true }))
        forAll recs (fun r => modify (fun s => s.postStage d n 0 r.lo.toNat r.hi.toNat))))

/-! Eligibility and choice (R60, R62, R63). -/

def StageSlot.eligible (st : StageSlot) (holds : Bool) (ph t : Nat) : Bool :=
  match ph with
  | 1 => (st.slotOf t).isNone && st.freeSlot.isSome && !(holds && penHold st.cur)
  | 2 => match st.slotOf t with
    | some (_, x) => x.doneF && !x.relB
    | none => false
  | _ => match st.slotOf t with
    | some (_, x) => st.wv && x.doneB && !x.relW
    | none => false

/-- The smallest by a measure; the lower tag among equals. -/
def leastBy (f : Nat × Nat → Nat) : List (Nat × Nat) → Option (Nat × Nat)
  | [] => none
  | a :: r =>
    match leastBy f r with
    | none => some a
    | some b => if f b < f a || (f b == f a && b.1 < a.1) then some b else some a

def StageSlot.next (st : StageSlot) (ph : Nat) : Nat := match ph with | 1 => st.nextF | 2 => st.nextB | _ => st.nextW
def StageSlot.setNext (st : StageSlot) (ph v : Nat) : StageSlot :=
  match ph with | 1 => { st with nextF := v } | 2 => { st with nextB := v } | _ => { st with nextW := v }

/-- Choose a tag for a phase by a rule. -/
def StageSlot.choose (st : StageSlot) (holds : Bool) (ph rule : Nat) : Option Nat :=
  let c := (st.complete ph).filter (fun p => st.eligible holds ph p.1)
  match rule with
  | 0 => (leastBy (·.2) c).map (·.1)
  | 1 => (leastBy (·.1) c).map (·.1)
  | _ => if c.any (fun p => p.1 == st.next ph) then some (st.next ph) else none

/-! Releases (R59, R71). -/

/-- Write the version-set mirror of a slot; a failure is told by mailbox (R71). -/
def mirrorSet (d n slot vset : Nat) : Op Unit := do
  let st := (← get).stage d n
  let va := addrAdd st.vsBase (8 * slot)
  if !(← agWrite (agPenn d) d st.ctx va 8 vset) then modify (fun s => s.postStage d n 5 slot va)

/-- The words of an instance TCB made from its template (R59 steps 1 to 3). -/
def instanceTcb (w : List Nat) (t ph slot n : Nat) (pf : Bool) : List Nat :=
  let w1 := setField (setField (setField (w.getD 1 0) 32 16 0) 48 8 0) 52 1 (bitAt pf 0)
  let w2 := setField (setField (setField (setField (setField (w.getD 2 0) 0 16 t) 16 2 ph) 24 8 slot) 32 3 n) 35 1 1
  ((w.set 1 w1).set 2 w2).set 15 (setField (w.getD 15 0) 0 16 0)

/-- A release that fails: nothing is consumed, the stage enters FAULT (R52, R59). -/
def releaseFails (d n h code : Nat) : Op Bool := do
  modify (fun s => (s.modStage d n (fun x => { x with state := 4 })).postStage d n 1 h code)
  return false

/-- Release phase `ph` for tag `t`; false when it fails. A template TCB that cannot be read, or is poisoned, fails the release
with code 6 as a failed write does: R59 and R407 name writes alone (DESIGN CHOICE, log 59). -/
def releaseTag (d n ph t : Nat) : Op Bool := do
  let st := (← get).stage d n
  let slot := match st.slotOf t with
    | some p => p.1
    | none => st.freeSlot.getD 0
  let old := (st.slotOf t).map (·.2)
  let c ← ctxEnt d st.ctx
  let h := st.instBase + 3 * slot + (ph - 1)
  let arr := addrAdd st.arrBase (128 * (3 * slot + ph - 1))
  match ← agWords (agPenn d) d st.ctx (tcbVa c (stageTemplate st.desc ph)) 16 with
  | none => releaseFails d n h 6
  | some w => do
    let recs := (st.recsOf ph t).take (st.need ph)
    let body := wordBytes (padTo 0 16 ((recs.map (fun r => [r.lo.toNat, r.hi.toNat])).flatten))
    if !(← agCanWrite (agPenn d) d st.ctx (tcbVa c h) 128) then releaseFails d n h 6
    else if !(← agCanWrite (agPenn d) d st.ctx arr 128) then releaseFails d n h 6
    else do
      let pf := (old.map (·.failed)).getD false
      let _ ← agWriteBytes (agPenn d) d st.ctx (tcbVa c h) (wordBytes (instanceTcb w t ph slot n pf))
      let _ ← agWriteBytes (agPenn d) d st.ctx arr body
      let code ← insertTask d st.ctx h
      if code != 0 then releaseFails d n h code
      else do
        let vset ← match old with
          | some x => pure x.vset
          | none => currentSet d st.ctx st.weights
        let base : TagSlot := old.getD { tag := t, vset }
        let x : TagSlot := { base with relB := base.relB || ph == 2, relW := base.relW || ph == 3 }
        modify (fun s => s.modStage d n (fun y => { y.consume ph t with tags := Store.set none y.tags slot (some x) }))
        if old.isNone then mirrorSet d n slot vset
        return true

/-! Stepping the table (R64, R73). -/

/-- What an NV entry meets. -/
inductive NvRes where
  | made
  | hold
  | fault (tid : Nat)
  deriving DecidableEq, Repr

/-- The checks of every weight: a fault first, then a hold (R73). -/
def nvCheck (d : Nat) (st : StageSlot) : Op NvRes := do
  let rs ← collect st.weights (fun t => do
    match ← tdesc d st.ctx t with
    | .ok x => return (t, ← verNewCheck x)
    | _ => return (t, VerNew.fail 0xFFFFFFFE))
  let bad (p : Nat × VerNew) : Bool := match p.2 with
    | .fail c => c != 0xFFFFFFFF
    | _ => false
  match rs.find? bad with
  | some p => return .fault p.1
  | none =>
    if rs.any (fun p => p.2 == .fail 0xFFFFFFFF) then return .hold
    if rs.any (fun p => p.2 == .waits) then throwWait
    return .made

/-- Make a new version of every weight as one step (R73). -/
def vernewAll (d : Nat) (st : StageSlot) : Op NvRes := do
  let r ← nvCheck d st
  if r == .made then
    forAll st.weights (fun t => do
      match ← tdesc d st.ctx t with
      | .ok x => match ← verNewCheck x with
        | .make v => verNewMake d st.ctx t x v
        | _ => pure ()
      | _ => pure ())
  return r

/-- After a release by the entry itself: REPLEFT, ENTRY and NEW (R64). A stage that went to FAULT before its first START has
REPLEFT 0 and no NEW when a later START makes it RUNNING; what REPLEFT − 1 gives there is the model's choice (DESIGN CHOICE,
log 59): the entry counts as used up by its first release. -/
def StageSlot.advance (st : StageSlot) : StageSlot :=
  if 1 < st.repleft then { st with repleft := st.repleft - 1 }
  else
    let e := if st.entry + 1 = st.plen then st.wrap else st.entry + 1
    { st with entry := e, repleft := penRep (st.ptab.getD e 0), isNew := true }

/-- Enter the current entry if it is new; whether the evaluation goes on. -/
def enterEntry (d n : Nat) : Op Bool := do
  let s ← get
  let st := s.stage d n
  if !st.isNew then return true
  let go : Op Bool := do
    modify (fun s => s.modStage d n (fun x => { x with isNew := false, holdv := false, verfull := false }))
    return true
  if !penNv st.cur then do
    modify (fun s => s.modStage d n (fun x => { x with isNew := false }))
    return true
  match ← vernewAll d st with
  | .made => go
  | .hold => do
    modify (fun s => s.modStage d n (fun x =>
      { x with holdv := true, holdvSince := if x.holdv then x.holdvSince else s.clock }))
    return false
  | .fault t => do
    modify (fun s => (s.modStage d n (fun x => { x with state := 4 })).postStage d n 3 n t)
    return false

/-- One evaluation, at most `fuel` turns of its loop: each but the last consumes records. -/
def evaluate (d n : Nat) : Nat → Op Unit
  | 0 => pure ()
  | fuel + 1 => do
    if !(← enterEntry d n) then return ()
    let s ← get
    let st := s.stage d n
    let holds := s.holds d n
    let e := st.cur
    match st.choose holds (penPh e) (penRule e) with
    | some t => do
      if ← releaseTag d n (penPh e) t then do
        modify (fun s => s.modStage d n (fun x =>
          (if penRule e = 2 then x.setNext (penPh e) ((t + 1) % 65536) else x).advance))
        evaluate d n fuel
    | none =>
      if penSub e then
        match [2, 3, 1].findSome? (fun ph => (st.choose holds ph 0).map (fun t => (ph, t))) with
        | none => pure ()
        | some (ph, t) => do
          if ← releaseTag d n ph t then evaluate d n fuel
      else pure ()

/-- Turns enough for every record in the queues. -/
def StageSlot.fuel (st : StageSlot) : Nat := st.qf.recs.length + st.qb.recs.length + st.qw.recs.length + 2

/-- Whether something of R64 has happened to a stage since its last evaluation. -/
def State.evalDue (s : State) (d n : Nat) : Bool :=
  let st := s.stage d n
  st.state != 0 && (st.due || st.heldSeen != s.holds d n)

/-- Whether any stage is to be evaluated. -/
def State.anyDue (s : State) : Bool := (List.range 16).any (fun k => s.evalDue (k / 8) (k % 8))

/-- The stage whose evaluation comes next in this clock: stages go up, each once (R64, log 77). -/
def State.nextEval (s : State) : Option (Nat × Nat) :=
  ((List.range 16).find? (fun k => s.evaluated ≤ k && s.evalDue (k / 8) (k % 8))).map (fun k => (k / 8, k % 8))

/-- STAGE_EVALUATION of the stage whose turn it is: strays are consumed and a RUNNING stage steps its table; not while a
message of the scheduler waits for room in the mailbox (R290). -/
def execStageEvaluation (die slot : Nat) (s : State) : Out :=
  if s.nextEval != some (die, slot) then .next s
  else event (do
    let s ← get
    let st := s.stage die slot
    if (s.die die).mail.any (fun m => fieldOf m.w0.toNat 24 3 == 2) then return ()
    modify (fun s => s.modStage die slot (fun x => { x with due := false, heldSeen := s.holds die slot }))
    strays die slot
    if st.state = 2 then evaluate die slot st.fuel) { s with evaluated := 8 * die + slot + 1 }

/-- The evaluation that comes before a turn: all of a clock's come before the clock passes, and before an instruction that
reaches a scheduler (R64). -/
def State.evalBefore (s : State) (t : Turn) : Option Instr :=
  if s.turnDt t != 0 || s.sched t.act then s.nextEval.map (fun p => .stageEvaluation p.1 p.2) else none

/-- VERFULL: HOLDV has stayed set for HOLDTO; told once (R73, R407). -/
def execVerfull (die slot : Nat) (s : State) : Out :=
  event (do
    let st := s.stage die slot
    if !st.holdv || st.verfull || s.clock < st.holdvSince + usClocks st.holdTo then return ()
    let full ← collect st.weights (fun t => do
      match ← tdesc die st.ctx t with
      | .ok x => return if x.vmask == 255 then some t else none
      | _ => return none)
    let tid := match full.findSome? id with
      | some t => t
      | none => st.weights.headD 0
    modify (fun s => (s.modStage die slot (fun x => { x with verfull := true })).postStage die slot 2 slot tid 0x11)) s

/-! PENN (R51, R52, R335, R336). -/

/-- Fields in range and Res0 bits clear, structures aligned (R49, R51, R245). -/
def stageFieldsOk (va : Nat) (w : List Nat) : Bool :=
  let w2 := w.getD 2 0
  let w4 := w.getD 4 0
  let w8 := w.getD 8 0
  let pol := w.getD 10 0
  let nwt := fieldOf (w.getD 11 0) 0 5
  va % 256 == 0 && w.getD 0 0 != 0 && w.getD 0 0 % 64 == 0 &&
    fieldOf (w.getD 1 0) 24 8 == 0 && fieldOf (w.getD 1 0) 56 8 == 0 && fieldOf w2 25 7 == 0 && fieldOf w2 56 8 == 0 &&
    w.getD 3 0 % 2 == 0 && 1 ≤ fieldOf w4 0 9 && fieldOf w4 0 9 ≤ 256 && fieldOf w4 9 8 < fieldOf w4 0 9 &&
    fieldOf w4 28 36 == 0 && [5, 6, 7].all (fun i => w.getD i 0 % 16 == 0) &&
    [0, 4, 8].all (fun i => 4 ≤ fieldOf w8 i 4 && fieldOf w8 i 4 ≤ 12) && fieldOf w8 12 52 == 0 &&
    w.getD 9 0 % 128 == 0 && fieldOf pol 52 12 == 0 && [7, 15, 23, 31].all (fun i => !bit pol i) &&
    nwt ≤ 16 && fieldOf (w.getD 11 0) 5 59 == 0 &&
    (List.range 16).all (fun i => i < nwt || fieldOf (w.getD (12 + i / 2) 0) (32 * (i % 2)) 32 == 0) &&
    fieldOf (w.getD 20 0) 20 44 == 0 && w.getD 21 0 % 8 == 0 && (w.drop 22).all (· == 0)

/-- A structure that LOAD reads: it breaks R51, cannot be read, or is as it should be. -/
inductive LoadRes where
  | ok
  | refused
  | unreadable
  deriving DecidableEq, Repr

/-- A template is IDLE, on the stage's die, without a D level, and outside the instances (R51). -/
def templateCheck (d ctx inst h : Nat) : Op LoadRes := do
  if inst ≤ h && h ≤ inst + 767 then return .refused
  match ← readTcb d ctx h with
  | .beyond => return .refused
  | .unreadable => return .unreadable
  | .ok w =>
    match ← agWords (agPenn d) d ctx (w.getD 0 0) 32 with
    | none => return .unreadable
    | some k =>
      let nlev := fieldOf (k.getD 10 0) 0 3
      let dLevel := (List.range nlev).any (fun i => fieldOf (k.getD (4 + i) 0) 0 2 == 3)
      if fieldOf (w.getD 1 0) 48 4 == 0 && fieldOf (w.getD 1 0) 56 2 == d && !dLevel then return .ok else return .refused

/-- The core set lies on the die, is not empty and names no Postmaster core (R51). -/
def coreSetOk (d m : Nat) : Bool :=
  m != 0 && m == fieldOf m (144 * d) 144 * 2 ^ (144 * d) && !bit m (144 * d)

/-- R50: versioned tensors, none twice, none a weight of an installed stage. -/
def weightsOk (d ctx : Nat) (ws : List Nat) : Op Bool := do
  let s ← get
  let vs ← collect ws (fun t => do
    match ← tdesc d ctx t with
    | .ok x => return x.vers && (s.weightStage ctx t).isNone
    | _ => return false)
  return vs.all id && ws.eraseDups.length == ws.length

/-- Install the descriptor at `va` in an empty slot: the result code (R336). -/
def pennLoad (d ctx n va : Nat) : Op Nat := do
  match ← agWords (agPenn d) d ctx va 32 with
  | none => do
    if ← poisonedAt (agPenn d) d ctx va 256 then modify (fun s => s.postStage d n 1 va 4)
    return 4
  | some w => do
    if !stageFieldsOk va w then return 2
    match ← agBytes (agPenn d) d ctx (w.getD 3 0) (2 * fieldOf (w.getD 4 0) 0 9) with
    | none => return 4
    | some pb => do
      if anyPoison pb then return 4
      let ptab := (List.range (fieldOf (w.getD 4 0) 0 9)).map (fun i => rbytesNat ((pb.drop (2 * i)).take 2))
      let wv := bit (w.getD 2 0) 24
      if ptab.any (penBad wv) then return 2
      match ← agRead (agPenn d) d ctx (w.getD 0 0) 36 with
      | none => return 4
      | some m => do
        if !coreSetOk d m then return 2
        let c ← ctxEnt d ctx
        let inst := fieldOf (w.getD 2 0) 32 24
        if c.tcbSize < inst + 768 then return 2
        let ts ← collect (if wv then [1, 2, 3] else [1, 2]) (fun ph => templateCheck d ctx inst (stageTemplate w ph))
        match ts.find? (· != .ok) with
        | some .unreadable => return 4
        | some _ => return 2
        | none => do
          let st : StageSlot := { state := 1, ctx, desc := w, ptab, stray := ((← get).stage d n).stray }
          if !(← weightsOk d ctx st.weights) then return 2
          modify (fun s => s.modStage d n (fun _ => st))
          return 0

/-- One PENN on die `d`: the value for Gd (R336). -/
def pennOp (d ctx sub n va : Nat) : Op Nat := do
  let s ← get
  if 7 < n then return if sub = 4 then 0xFFFFFFFF else 3
  let st := s.stage d n
  if sub = 4 then return st.stat (s.holds d n)
  if st.state != 0 && st.ctx != ctx then return 5
  match sub with
  | 0 => if st.state = 0 then pennLoad d ctx n va else return 1
  | 1 =>
    if st.state = 1 || st.state = 3 then do
      let fresh (x : StageSlot) : StageSlot :=
        if x.state = 1 then { x with entry := 0, repleft := penRep (x.ptab.getD 0 0), isNew := true } else x
      let again (c : TChan) : TChan := if c.stgv && c.stg == n && c.stgdie == d then { c with recFail := false } else c
      modify (fun s => (List.range 64).foldl (fun s i => s.setChan i (again (s.chan i)))
        (s.modStage d n (fun x => { fresh x with state := 2, due := true })))
      return 0
    else return 1
  | 2 =>
    if st.state = 2 || st.state = 4 then do
      modify (fun s => s.modStage d n (fun x => { x with state := 3 }))
      return 0
    else return 1
  | _ =>
    if st.state = 3 && st.tags.isEmpty then do
      let left := sumOver [1, 2, 3] (fun ph => ((st.q ph).recs.filter (fun r => !r.used)).length)
      modify (fun s => s.modStage d n (fun x => { stray := x.stray }))
      return left * 256
    else return 1

/-- A PENN of a core. -/
def penn (i : Instr) (c : Ctl) (sub rd ra : Nat) (rb : Option Nat) (s : State) : Out :=
  issue i c noPre (ra :: (match rb with | some b => [b, b + 1] | none => [])) (do
    let s ← get
    let va := match rb with
      | some b => (s.pair b).toNat
      | none => 0
    result rd (← pennOp s.myDie s.me.ctx.toNat sub (s.g ra).toNat va)) s

def execPennLoad (c : Ctl) (rd ra rb : Nat) (s : State) : Out := penn (.pennLoad c rd ra rb) c 0 rd ra (some rb) s
def execPennStart (c : Ctl) (rd ra : Nat) (s : State) : Out := penn (.pennStart c rd ra) c 1 rd ra none s
def execPennStop (c : Ctl) (rd ra : Nat) (s : State) : Out := penn (.pennStop c rd ra) c 2 rd ra none s
def execPennUnload (c : Ctl) (rd ra : Nat) (s : State) : Out := penn (.pennUnload c rd ra) c 3 rd ra none s
def execPennStat (c : Ctl) (rd ra : Nat) (s : State) : Out := penn (.pennStat c rd ra) c 4 rd ra none s

/-! MBPOST (R67, R326, R327). -/

def mbpostBody (grp rd : Nat) : Op Post := do
  let s ← get
  let g (i : Nat) : Nat := (s.g (4 * grp + i)).toNat
  let op := g 0
  let n := fieldOf op 18 3
  let ph := fieldOf op 16 2
  let st := s.stage s.myDie n
  if fieldOf op 21 11 != 0 then result rd 4
  else match s.me.cur with
    | none => result rd 5
    | some b => do
      if st.state = 0 || st.ctx != s.me.ctx.toNat then result rd 2
      else if ph < 2 || (ph = 3 && !st.wv) then result rd 3
      else do
        releaseBlock b
        match ← appendRec s.myDie n (BitVec.ofNat 64 (op % 2 ^ 18 + 2 ^ 24 + g 1 * 2 ^ 32)) (BitVec.ofNat 64 (g 2)) with
        | .done => result rd 0
        | .full | .failed => result rd 1

def execMbpost (c : Ctl) (grp rd : Nat) (s : State) : Out :=
  issue (.mbpost c grp rd) c noPre [4 * grp, 4 * grp + 1, 4 * grp + 2] (mbpostBody grp rd) s

end Sys2Proof.Machine
end

