-- ==== Sys2Proof/Machine/Host.lean ====
section
/-! DEFINITION. Boot, attestation, health and errors; the host's accesses; the work queues and the operators of the front
end (R13, R19, R258, R282, R284 to R295). -/

namespace Sys2Proof.Machine

/-! Boot (R19, R292). -/

def State.bothDies (s : State) (f : Die → Die) : State := (s.modDie 0 f).modDie 1 f

/-- The Postmaster core of die `d` begins to run firmware, in privileged mode (R13, R292; log 66). -/
def State.startFirmware (s : State) (d : Nat) : State :=
  s.modCore (144 * d) (fun k =>
    ({ k with priv := true }).modSeq .C (fun x => { x with parked := false, pc := Config.firmwareEntry d }))

/-- Power-on or a fundamental reset: everything but host memory is reset, and the ROM loader begins step 1 on die 0's
Postmaster core. The clock goes on, and is that of die start-up (log 80). -/
def State.beginBoot (s : State) (fail : Nat) (svn : BitVec 16) (ports : Byte) : State :=
  let clean : State := { State.reset with
    mem := s.hostMem, hostMem := s.hostMem, clock := s.clock, start := s.clock, draws := s.draws, turns := s.turns,
    nturn := s.nturn, nextId := s.nextId }
  (clean.bothDies (fun d => { d with
    bootStep := 1, bootPorts := ports, bootAt := s.clock, loader := some (fail, svn) })).startFirmware 0

/-- A step has failed: its code is shown, and every program core is in reset. -/
def State.failBoot (s : State) : State :=
  let s := s.bothDies (fun d => { d with bootErr := BitVec.ofNat 8 d.bootStep.toNat, loader := none, sectors := 0 })
  { s with cores := s.cores.filter (fun e => isPostmaster e.1) }

/-- The loader's step ends, and the next begins: the image's version is that of the firmware once step 4 has passed it, step 5
starts die 1's Postmaster core, and step 6 goes on with SECTOR_START. -/
def State.nextLoad (s : State) (fail : Nat) (svn : BitVec 16) : State :=
  let k := (s.die 0).bootStep.toNat
  if fail = k then s.failBoot
  else
    let s := s.bothDies (fun d => { d with
      bootStep := BitVec.ofNat 4 (k + 1), svn := if k = 4 then svn else d.svn,
      loader := if k = 5 && fail != 6 then none else d.loader })
    if k = 5 then s.startFirmware 1 else s

/-- BOOT: it begins the loader's steps, and each further BOOT of the same image ends one, up to the one that fails, or to the start
of the sectors. `fail` is the number of the step that fails, 0 for none; `ports` are those that step 7 will find trained. -/
def execBoot (fail : Nat) (svn : BitVec 16) (ports : Byte) (s : State) : Out :=
  event (modify (fun s =>
    if (s.die 0).loader = some (fail, svn) ∧ (s.die 0).bootPorts = ports then s.nextLoad fail svn
    else s.beginBoot fail svn ports)) s

/-- How many sectors have started. -/
def State.sectorsUp (s : State) : Nat :=
  sumOver [0, 1] (fun d => ((List.range 4).filter (fun i => (s.die d).sectors.getLsbD i)).length)

/-- Step 7: the ports that can be trained are. -/
def State.trainPorts (s : State) : State :=
  (List.range 8).foldl (fun t i => t.setPort i { t.port i with trained := (s.die 0).bootPorts.getLsbD i }) s

/-- SECTOR_START: the next sector comes up 2 µs after the one before; after the last, step 7 trains the ports, and step 8 sets
READY. -/
def execSectorStart (die sector : Nat) (s : State) : Out :=
  event (modify (fun s =>
    let d0 := s.die 0
    let n := s.sectorsUp
    if s.bootFailed then s
    else if d0.bootStep = 7 && die == 1 && sector == 3 then s.bothDies (fun d => { d with bootStep := 8, ready := true })
    else if d0.bootStep != 6 || n != 4 * die + sector || (n != 0 && s.clock < d0.bootAt + usClocks 2) ||
        (n == 7 && d0.loader.isSome) then s
    else
      let s := s.modDie die (fun d => { d with sectors := d.sectors ||| BitVec.ofNat 4 (2 ^ sector) })
      let s := s.modDie 0 (fun d => { d with bootAt := s.clock })
      if n != 7 then s else s.trainPorts.bothDies (fun d => { d with bootStep := 7 }))) s

/-! Attestation (R293). -/

/-- The front end and the firmware's own accesses of die `d`. -/
def agHost (d : Nat) : Nat := agentDie d 7

/-- `n` free bytes. -/
def drawBytes (n : Nat) : Op (List Byte) := fun s =>
  .ok ((List.range n).map (fun i => BitVec.ofNat 8 (Config.free (s.draws + i)))) { s with draws := s.draws + n }

/-- The report: version, stepping code, SVN, serial number, nonce, the hashes of the image and of fuses and BOOTSTAT, public
key, signature. `boot` is BOOTSTAT. -/
def attReport (d : Die) (boot : Nat) (sig : List Byte) : List Byte :=
  bytesOf 1 4 ++ bytesOf 0xB1 4 ++ bytesOf d.svn.toNat 8 ++ (List.range 16).map (fun i => Config.identity (0x10 + i)) ++
    ((List.range 4).map (fun i => bytesOf (Store.get 0 d.nonce i).toNat 8)).flatten ++
    (List.range 64).map (fun i => Config.identity (0x40 + i)) ++ (List.range 64).map (Config.fuseHash boot) ++
    (List.range 64).map (fun i => Config.identity (0xC0 + i)) ++ sig

/-- ATTESTATION_REPORT: firmware writes the report that ATTREQ asks for and sets ATTDONE; where it cannot be written the
request stands. -/
def execAttestationReport (die : Nat) (s : State) : Out :=
  event (do
    let s ← get
    match (s.die die).attreq with
    | none => pure ()
    | some va => do
      let ctx := (s.die 0).hwctx.toNat
      let sig ← drawBytes 29792
      let rep := attReport (s.die die) (s.ctlRead die 0x9000A00).1 sig
      if ← agWriteBytes (agHost die) die ctx va.toNat (rep.map (fun b => (b, false))) then
        modify (fun s => s.modDie die (fun d => { d with attreq := none, attdone := true }))) s

/-! The host's accesses (R218, R284, R289). -/

/-- Where the descriptor of queue `q` stands. -/
def State.queueAt (s : State) (q : Nat) : Nat := (s.die (q / 65536)).qtbase.toNat + 32 * (q % 65536)

def State.qpoll (s : State) (q : Nat) : QPoll := Store.get {} s.qpolls q
def State.setQpoll (s : State) (q : Nat) (p : QPoll) : State := { s with qpolls := Store.set {} s.qpolls q p }

/-- Send a message over PCIe. -/
def tellHost (m : PcieMsg) : Op Unit := modify (fun s => { s with pcie := s.pcie ++ [m] })

/-- Whether `n` bytes at `pa` lie in the frame that a tile is leaving. -/
def Move.meets (m : Move) (pa n : Nat) : Bool :=
  m.oldPool < arenaPool && m.old * 4096 < pa + n && pa < m.old * 4096 + 32768 * 2 ^ (m.oldPool % 6)

/-- Whether an access of the host meets a page or a tile that is being migrated (R218). -/
def underMigration (ctx va n : Nat) : Op Bool := do
  let c ← ctxEnt 0 ctx
  if c.poisoned || !c.valid then return false
  let l ← collect (pageParts va n) (fun p => do
    match ← walk p.1 4 c.root with
    | .leaf _ pte size => do
      let moves := (← get).moves
      return bit pte 7 || moves.any (·.meets (fieldOf pte 16 29 * 4096 + p.1 % size) p.2)
    | _ => return false)
  return l.any id

/-- Serve an access of the host to device memory: a walk in its context, or Completer Abort with nothing changed. -/
def serveHost (a : HostAcc) : Op Unit :=
  match a.wr with
  | none => do
    match ← agBytes (agHost 0) 0 a.ctx a.va a.n with
    | some l => tellHost (.readData (l.map (·.1)))
    | none => tellHost .completerAbort
  | some bs => do
    if !(← agWriteBytes (agHost 0) 0 a.ctx a.va (bs.map (fun b => (b, false)))) then tellHost .completerAbort

/-- Whether two accesses of the host touch a common byte. -/
def HostAcc.meets (a b : HostAcc) : Bool := a.va < b.va + b.n && b.va < a.va + a.n

/-- An access through BAR2. One that meets a migration is queued, with the address and the context it arrived with, and so is one to
bytes for which another is queued; the same event serves it once it may go on (R218, R289; log 68). -/
def bar2Access (off n : Nat) (wr : Option (List Byte)) : Op Unit := do
  let s ← get
  let d := s.die 0
  let new : HostAcc := ⟨off, n, wr, addrAdd (2 ^ 63 + d.hwbase.toNat) off, d.hwctx.toNat⟩
  let a := (s.hostQ.find? (fun a => a.off == off && a.n == n && a.wr == wr)).getD new
  let held ← underMigration a.ctx a.va a.n
  if held || (s.hostQ.takeWhile (· != a)).any (·.meets a) then
    if s.hostQ.contains a then pure () else modify (fun s => { s with hostQ := s.hostQ ++ [a] })
  else do
    modify (fun s => { s with hostQ := s.hostQ.erase a })
    serveHost a

/-- HOST_BAR2_ACCESS: a read or write of bytes at an offset of the window of BAR2; through BAR0 or BAR4 a read of a word of the
control space, or of a queue's descriptor (R284). After a failed boot the boot and identity registers alone are served (R292). -/
def execHostBar2Access (place : HostPlace) (wr : Option (List Byte)) (s : State) : Out :=
  event (do
    let s ← get
    let off := place.off
    match place.bar with
    | 0 =>
      if s.served (off % ctlDieSize) then
        tellHost (.readData (bytesOf (s.ctlRead (off / ctlDieSize) (off % ctlDieSize)).1 8))
    | 4 => do
      if s.bootFailed then return ()
      let v ← hwRd (s.queueAt (off / 32) + off % 32) 8
      tellHost (.readData (bytesOf v 8))
    | _ => if s.bootFailed then return () else bar2Access off place.n wr) s

/-! Work queues (R286). -/

/-- QUEUE_DESCRIPTOR_WRITE: the host writes one word through BAR4. RDIDX is read-only and reserved bits stay 0; enabling
sets the interval to 256 ns. -/
def execQueueDescriptorWrite (q word : Nat) (v : DWord) (s : State) : Out :=
  event (do
    let s ← get
    let a := s.queueAt q
    if s.bootFailed then return ()
    match word with
    | 0 => hwWr a 8 v.toNat
    | 1 => do
      hwWr (a + 8) 8 (fieldOf v.toNat 0 32)
      let p := s.qpoll q
      modify (fun s => s.setQpoll q { p with wrote := p.wrote ++ [(fieldOf v.toNat 0 32, s.npub)] })
    | 2 => pure ()
    | _ => do
      let old ← hwRd (a + 0x18) 8
      hwWr (a + 0x18) 8 (fieldOf v.toNat 0 42)
      if bit v.toNat 0 && !bit old 0 then
        modify (fun s => s.setQpoll q { s.qpoll q with interval := 448, last := s.clock })) s

/-- Whether an operator's predecessor has completed. -/
def State.prevDone (s : State) (o : OpRun) : Bool :=
  match o.prev with
  | none => true
  | some p => !s.ops.any (fun x => x.id == p)

/-- An operator in the active bank: its predecessor has completed, or CONC is 1 (R287). -/
def State.opActive (s : State) (o : OpRun) : Bool := s.prevDone o || bit (o.words.getD 0 0) 10

/-- A record that holds a reserved value or a set Res0 bit. -/
def badRecord (w : List Nat) : Bool :=
  let w0 := w.getD 0 0
  let opc := fieldOf w0 0 8
  opc == 0 || 4 < opc || fieldOf w0 11 5 != 0 || fieldOf w0 27 37 != 0 || w.getD 7 0 != 0 ||
    (opc == 2 && 4 ≤ fieldOf (w.getD 2 0) 4 3)

/-- Put an operator into its queue; one whose status is known has nothing to do. -/
def pushOp (q ctx : Nat) (w : List Nat) (status : Nat) : Op Unit := do
  let id ← freshId
  modify (fun s =>
    let p := s.qpoll q
    let o : OpRun := { id, prev := p.lastOp, q, die := q / 65536, ctx, words := w, begun := status != 0, status, upto := 0,
                       ended := [] }
    { (s.setQpoll q { p with lastOp := some id }) with ops := s.ops ++ [o] })

/-- Stop a queue: QERR set, EN cleared. -/
def stopQueue (q w3 : Nat) : Op Unit := do
  let a := (← get).queueAt q
  hwWr (a + 0x18) 8 (setField (setField w3 0 1 0) 41 1 1)
  modify (fun s => s.setQpoll q { s.qpoll q with chain := none })

/-- Whether a write of WRIDX with value `w` covers slot `rd`. -/
def covers (w rd : Nat) : Bool := let k := (w + 2 ^ 32 - rd) % 2 ^ 32; 1 ≤ k && k ≤ 2 ^ 15

/-- The chain of the record at RDIDX has been read. -/
def advance (q rd : Nat) : Op Unit := do
  let a := (← get).queueAt q
  hwWr (a + 0x10) 4 ((rd + 1) % 2 ^ 32)
  modify (fun s =>
    let p := s.qpoll q
    s.setQpoll q { p with chain := none, wrote := p.wrote.filter (fun e => covers e.1 (rd + 1)) })

/-- The point from which the record in slot `rd` is the host's to be read: that of the write of WRIDX that covers it. -/
def State.slotPoint (s : State) (q rd : Nat) : Nat :=
  (((s.qpoll q).wrote.find? (fun e => covers e.1 rd)).map (·.2)).getD s.npub

/-- The record in a slot, at HOST scope; one that the host has rewritten since is read as either value in each granule (R222,
R286). -/
def readSlot (d ctx va point : Nat) : Op (Option (List RByte)) := do
  match ← agBytes (agHost d) d ctx va 64, ← xlAgent (agHost d) d ctx .load va with
  | some l, some pa =>
    if va % 64 != 0 then return some l
    let s ← get
    let words ← collect (List.range 8) (fun i => do
      let old := pubsOf (pa / 8 + i) point s.npub s.pubs
      let now := BitVec.ofNat 64 (s.rd (pa + 8 * i) 8)
      let j ← pick (old.length + 1)
      return if j = 0 then now else ((old.getD (j - 1) (0, now)).2))
    return some ((words.flatMap (fun w => bytesOf w.toNat 8)).zip (l.map (·.2)))
  | _, _ => return none

/-- Take the next record of a queue: the chained one, or that at RDIDX. -/
def takeRecord (q ring rd w3 : Nat) : Op Unit := do
  modify State.dropHostLines
  let s ← get
  let d := q / 65536
  let ctx := fieldOf w3 5 16
  let chain := (s.qpoll q).chain
  let rec_ ← (match chain with
    | some va => agBytes (agHost d) d ctx va 64
    | none => readSlot d ctx (addrAdd ring (64 * (rd % 2 ^ fieldOf w3 1 4))) (s.slotPoint q rd))
  match rec_ with
  | none =>
    if chain.isNone then stopQueue q w3
    else do
      pushOp q ctx [] 6
      advance q rd
  | some l =>
    if anyPoison l then do
      pushOp q ctx [] 6
      advance q rd
    else do
      let w := (List.range 8).map (fun i => rbytesNat ((l.drop (8 * i)).take 8))
      pushOp q ctx w (if badRecord w then 2 else 0)
      if bit (w.getD 0 0) 8 then modify (fun s => s.setQpoll q { s.qpoll q with chain := some (w.getD 1 0) })
      else advance q rd

/-- The largest polling interval (R286). -/
def maxInterval (w3 : Nat) : Nat := usClocks (if fieldOf w3 21 20 = 0 then 1000 else fieldOf w3 21 20)

/-- The enabled queues of die `d`, ascending. -/
def State.enabledQueues (s : State) (d : Nat) : List Nat :=
  let base := (s.die d).qtbase.toNat
  s.mem.filterMap (fun e =>
    if base ≤ e.1 && e.1 < base + 32 * 65536 && (e.1 - base) % 32 == 24 && e.2.getLsbD 0 then
      some (65536 * d + (e.1 - base) / 32)
    else none)

/-- The queue that the Collection Round visits next: in ascending number, of those whose interval has elapsed. -/
def State.nextQueue (s : State) (d : Nat) : Option Nat :=
  let due := (s.enabledQueues d).filter (fun q => (s.qpoll q).last + (s.qpoll q).interval ≤ s.clock)
  (due.find? (fun q => (s.die d).round ≤ q % 65536)).or due.head?

/-- COLLECTION_ROUND_POLL: queue `q` is polled, if it is the next to be visited. -/
def execCollectionRoundPoll (die q : Nat) (s : State) : Out :=
  event (do
    let s ← get
    if !(s.die die).run || s.bootFailed || s.nextQueue die != some q then return ()
    let s := s.modDie die (fun d => { d with round := q % 65536 + 1 })
    set s
    let p := s.qpoll q
    let a := s.queueAt q
    let ring ← hwRd a 8
    let wi ← hwRd (a + 8) 4
    let rd ← hwRd (a + 0x10) 4
    let w3 ← hwRd (a + 0x18) 8
    if !bit w3 0 then return ()
    let n := (wi + 2 ^ 32 - rd) % 2 ^ 32
    let log := fieldOf w3 1 4
    if log < 4 || 2 ^ log < n then stopQueue q w3
    else if n = 0 then
      set (s.setQpoll q { p with interval := min (2 * p.interval) (maxInterval w3), last := s.clock })
    else do
      set (s.setQpoll q { p with interval := 448, last := s.clock })
      -- the shadow bank holds one operator of the queue
      if s.ops.all (fun o => o.q != q || s.opActive o) then takeRecord q ring rd w3) s

/-! Operators (R287). -/

def State.setOp (s : State) (o : OpRun) : State := { s with ops := s.ops.map (fun x => if x.id == o.id then o else x) }

/-- The oldest active operator of queue `q` with an operation code, of those not begun. -/
def State.nextOp (s : State) (q opc : Nat) : Option OpRun :=
  s.ops.find? (fun o => o.q == q && o.opc == opc && !o.begun && s.opActive o)

/-- Run the next operator of a kind; `f` gives its status and how far into its range it went. -/
def operate (q opc : Nat) (f : OpRun → Op (Nat × Nat)) (s : State) : Out :=
  event (do
    match (← get).nextOp q opc with
    | none => pure ()
    | some o => do
      let (status, upto) ← f o
      modify (fun s => s.setOp { o with begun := true, status, upto })) s

/-- A new launch stamp (R258). -/
def newStamp (die ctx : Nat) : Op Unit := do
  let n ← stampNow die ctx
  let a := (← get).ctxAddr die ctx + 0x30
  hwWr a 4 (if (n + 1) % 2 ^ 32 = 0 then 1 else (n + 1) % 2 ^ 32)

/-- Whether TCB `h`'s core set names a Postmaster core (R13). -/
def namesPostmaster (die ctx h : Nat) : Op Bool := do
  match ← readTcb die ctx h with
  | .ok w =>
    let cs := w.getD 3 0
    if cs = 0 || cs % 64 != 0 then return false
    match ← agRead (agTask die) die ctx cs 36 with
    | some m => return bit m 0 || bit m 144
    | none => return false
  | _ => return false

/-- The first of the handles that names a Postmaster core. -/
def findPostmaster (die ctx : Nat) : List Nat → Op (Option Nat)
  | [] => return none
  | h :: r => do if ← namesPostmaster die ctx h then return some h else findPostmaster die ctx r

/-- A failed insertion of the front end (R35, R407). -/
def frontReport (die ctx h code : Nat) : Op Unit := modify (fun s => s.postUnit die 5 0 h code ctx)

/-- Insert the TCBs of the list with PREDCNT 0 up to the first failure: the status, and how many TCBs were gone through. -/
def insertReady (die ctx : Nat) : List Nat → Nat → Op (Nat × Nat)
  | [], n => return (0, n)
  | h :: r, n => do
    let later ← (do match ← readTcb die ctx h with
      | .ok w => return fieldOf (w.getD 1 0) 32 16 != 0
      | _ => return false)
    if later then insertReady die ctx r (n + 1)
    else do
      let code ← insertTask die ctx h
      if code = 0 then insertReady die ctx r (n + 1)
      else do
        frontReport die ctx h code
        return (if code = 5 then 6 else 4, n)

/-- LAUNCH: the ready TCBs of a range are inserted in handle order, under a new stamp. -/
def execLaunch (q : Nat) (s : State) : Out :=
  operate q 1 (fun o => do
    let c ← ctxEnt o.die o.ctx
    if o.count = 0 then return (2, 0)
    if c.poisoned || !c.valid then return (6, 0)
    if c.tcbSize < o.first + o.count then return (2, 0)
    let hs := (List.range o.count).map (o.first + ·)
    match ← findPostmaster o.die o.ctx hs with
    | some h => do
      frontReport o.die o.ctx h 6
      return (3, 0)
    | none => do
      newStamp o.die o.ctx
      insertReady o.die o.ctx hs 0) s

/-- STAGE: PENN on the slot; any failure of it is STAGEREF (R336). -/
def execStage (q : Nat) (s : State) : Out :=
  operate q 2 (fun o => do
    let a := o.words.getD 2 0
    let r ← pennOp (fieldOf a 3 1) o.ctx (fieldOf a 4 3) (fieldOf a 0 3) (o.words.getD 3 0)
    return (if r % 256 = 0 then 0 else 5, 0)) s

/-- FENCE: done when the previous operator has completed. -/
def execOperatorFence (q : Nat) (s : State) : Out :=
  event (modify (fun s =>
    match s.ops.find? (fun o => o.q == q && o.opc == 3 && !o.begun && s.prevDone o) with
    | some o => s.setOp { o with begun := true }
    | none => s)) s

/-- WRITE: ARG1 goes to VA ARG0, released at HOST. -/
def execWrite (q : Nat) (s : State) : Out :=
  operate q 4 (fun o => do
    let ok ← agWrite (agHost o.die) o.die o.ctx (o.words.getD 2 0) 8 (o.words.getD 3 0)
    if ok then do
      hostStep 10
      return (0, 0)
    else return (6, 0)) s

/-- Whether TCB `h` of a launch is DONE or FAILED, by what the retirement hardware has told or by memory; and FAILED. -/
def taskOver (o : OpRun) (h : Nat) : Op (Bool × Bool) := do
  match o.ended.find? (fun e => e.1 == h) with
  | some e => return (true, e.2)
  | none =>
    if ((← get).task o.ctx h).isSome then return (false, false)
    match ← readTcb o.die o.ctx h with
    | .ok w =>
      let st := fieldOf (w.getD 1 0) 48 4
      return (st == 4 || st == 5, st == 5)
    | _ => return (false, false)

/-- OPERATOR_COMPLETION: an operator whose work is done writes its completion, sends its MSI-X message and leaves the
bank. -/
def execOperatorCompletion (q : Nat) (s : State) : Out :=
  event (do
    let s ← get
    match s.ops.find? (fun o => o.q == q && o.begun && s.opActive o) with
    | none => pure ()
    | some o => do
      let ends ← collect ((List.range o.upto).map (o.first + ·)) (taskOver o)
      if o.status = 0 && !ends.all (·.1) then return ()
      let failed := (ends.filter (·.2)).length
      let status := if o.status = 0 && failed != 0 then 1 else o.status
      let compl := o.words.getD 5 0
      if compl != 0 then do
        let _ ← agWriteBytes (agHost o.die) o.die o.ctx compl (wordBytes [status + failed * 2 ^ 8, o.words.getD 6 0])
        hostStep 10
      let w0 := o.words.getD 0 0
      modify (fun s => { s with
        ops := s.ops.filter (fun x => x.id != o.id),
        pcie := if bit w0 9 then s.pcie ++ [.msix (fieldOf w0 16 11)] else s.pcie })) s

/-! Errors and health (R282, R294, R295). -/

/-- Add 1 to a counter of 32 bits that saturates. -/
def satInc (w : Word) : Word := if w = BitVec.allOnes 32 then w else w + 1

/-- CORRECTABLE_ERROR: counted, without another effect. -/
def execCorrectableError (die : Nat) (s : State) : Out :=
  event (modify (fun s => s.modDie die (fun d => { d with cecnt := satInc d.cecnt }))) s

/-- Poison what an uncorrectable error strikes. -/
def State.strike (s : State) : ErrPlace → State
  | .memory g => if paOk (8 * g) then s.setPoison g true 1 else s
  | .localStore c g => s.modCore c (fun k => { k with storePoison := Store.set false k.storePoison g true })
  | .gReg c q n => s.modCore c (fun k =>
      if n = 0 then k
      else if k.onPriv q then { k with pgPoison := k.pgPoison ||| 2 ^ n }
      else k.modSeq q (fun x => { x with gPoison := x.gPoison ||| 2 ^ n }))
  | .vReg c n p => s.modCore c (fun k => k.vset n (k.vget n) (k.vpo n ||| 2 ^ p))
  | .acc c p => s.modCore c (fun k => { k with
      accPoison := Store.set 0 k.accPoison (p / 1024) (Store.get 0 k.accPoison (p / 1024) ||| 2 ^ (p % 1024)) })

/-- UNCORRECTABLE_ERROR: poison, counted. -/
def execUncorrectableError (die : Nat) (place : ErrPlace) (s : State) : Out :=
  event (modify (fun s => (s.strike place).modDie die (fun d => { d with uecnt := satInc d.uecnt }))) s

/-- A list as a store, from key 0. -/
def storeOf {α : Type} [DecidableEq α] (dflt : α) (l : List α) : Store α := Store.setMany dflt [] 0 l

/-- HEALTH_REFRESH: firmware refreshes the sensors of the four sectors, the counters of the four stacks and EOLH. -/
def execHealthRefresh (die : Nat) (sage : List (BitVec 16)) (hbm : List DWord) (eol : BitVec 32) (s : State) : Out :=
  event (modify (fun s => s.modDie die (fun d => { d with
    sage := storeOf 0 (sage.take 4), hbm := storeOf 0 (hbm.take 4), eolh := eol }))) s

end Sys2Proof.Machine
end

