-- ==== Sys2Proof/Machine/Sync.lean ====
section
/-! DEFINITION. Phases, fences, barriers and instruction-cache invalidation, OP 0xB0–0xB3 (R116, R226 to R232, R237). -/

namespace Sys2Proof.Machine

/-! PHASE and FENCE. -/

/-- PHASE (R226): at SEQ and CORE a release waits for the sequencer's own writes alone; wider it publishes. Only the
X-seq's PHASE meets the deferred mask (R283). -/
def phaseBody (scope : Nat) (acq rel : Bool) : Op Post := do
  let s ← get
  releaseTraps s.cur (s.curSeq == .X)
  settle s.cur (if rel then scope else 0) [s.curSeq]
  if rel then releaseAlone s.cur scope
  if acq then acquire s.cur scope
  return .next

def execPhase (c : Ctl) (scope : Nat) (acq rel : Bool) (s : State) : Out :=
  issue (.phase c scope acq rel) c (preScope scope) [] (phaseBody scope acq rel) s

/-- Whether late work is a load or an atomic, and whether it is a store or an atomic. -/
def LateWork.loads : LateWork → Bool
  | .store .. => false
  | _ => true
def LateWork.stores : LateWork → Bool
  | .store .. | .atomic .. => true
  | _ => false

/-- Whether a command's entry has been admitted to the range checker (R242). -/
def State.entered (s : State) (k : Cmd) : Bool := s.oldAdmitted k.core k.id && (!k.isCopy || k.admitted)

/-- FENCE (R230): what is still to be performed are stream transfers, the accesses performed late, and commands that the range
checker has not admitted. -/
def execFence (c : Ctl) (ld st eng : Bool) (s : State) : Out :=
  issue (.fence c ld st eng) c noPre [] (do
    let s ← get
    if (s.me.xfersOf s.curSeq).any (fun x => if x.load then ld else st) then throwWait
    if s.mySeq.late.any (fun l => (ld && l.work.loads) || (st && l.work.stores)) then throwWait
    if eng && s.cmds.any (fun k => k.core == s.cur && k.seq == s.curSeq && !s.entered k) then throwWait
    return .next) s

/-! BAR (R231, R232). -/

/-- Whether the scope covers every participant (R12, R220): a quad is 4 cores of one die, a sector 36. -/
def scopeCovers (sc : Nat) (g : Group) : Bool :=
  let same (f : Nat → Nat) : Bool := ((g.members.map f).eraseDups).length ≤ 1
  if 4 ≤ sc then true
  else if sc = 3 then same (fun n => 2 * (n / 12 / 6) + n % 12 / 6)
  else if sc = 2 then same (fun n => 6 * (n / 12 / 2) + n % 12 / 2)
  else g.members.length ≤ 1

/-- The publications made since point `n0`: granule and point. -/
def State.pubsSince (s : State) (n0 : Nat) : List (Nat × Nat) :=
  ((s.pubs.take (s.npub - n0)).zipIdx).map (fun p => (p.1.granule, s.npub - 1 - p.2))

/-- The release of a BAR, with the buffered writes that it has published. -/
def barRelease (c sc : Nat) : Op (List (Nat × Nat)) := do
  let n0 := (← get).npub
  if 2 ≤ sc then flushLines c (fun _ => true)
  let l := (← get).pubsSince n0
  release c sc
  return l

/-- Complete one waiting participant's BAR: Gd, the acquire, and its retirement (R231). -/
def finishBar (count c : Nat) (q : SeqId) : Op Unit := do
  let s ← get
  match ((s.core c).seq q).wait with
  | some w =>
    match w.i with
    | .bar ctl sc acq _ rd _ _ => do
      let (c0, q0) := (s.cur, s.curSeq)
      set { s with cur := c, curSeq := q }
      modify (fun s => s.setG rd (BitVec.ofNat 32 (1 + count * 2 ^ 16)))
      if acq then acquire c sc
      modify (fun s => { retire ctl .next s with cur := c0, curSeq := q0 })
    | _ => pure ()
  | none => pure ()

/-- The sequencers that wait at barrier `g` of die `d`, other than the one that runs; a core about to trap has withdrawn. -/
def State.barWaiters (s : State) (d g : Nat) : List (Nat × SeqId) :=
  (List.range 144).flatMap (fun n =>
    let c := 144 * d + n
    allSeqs.filterMap (fun q =>
      match ((s.core c).seq q).wait with
      | some w =>
        match w.i with
        | .bar _ _ _ _ _ ra _ =>
          if w.arrived && (s.core c).trapping.isNone && ((s.core c).g q ra).toNat == g && !(c == s.cur && q == s.curSeq) then some (c, q) else none
        | _ => none
      | none => none))

/-- The last arrival: every waiting participant completes now, and a superstep may begin (R231, R232). -/
def barComplete (g rd : Nat) (sc : Nat) (acq : Bool) : Op Post := do
  let s ← get
  let d := s.myDie
  let count := ((s.die d).group g).count
  forAll (s.barWaiters d g) (fun p => finishBar count p.1 p.2)
  modify (fun s => s.modGroup d g (fun x => { x with
    barCores := [], step := x.whole, stepAt := s.npub, whole := true, barPubs := [] }))
  modify (fun s => s.setG rd (BitVec.ofNat 32 (1 + count * 2 ^ 16)))
  if acq then acquire s.cur sc
  return .next

/-- Record that this sequencer waits at its barrier from now on. -/
def State.arriveBar (s : State) (i : Instr) : State :=
  s.modMySeq (fun x => { x with wait := some ⟨i, s.clock, true, false, s.clock⟩ })

/-- The time-out: the arrival is withdrawn (R231), unless another sequencer of the core waits at the barrier too (log 57). The
arrivals counted are those before. -/
def barExpire (g rd sc : Nat) (acq : Bool) : Op Post := do
  let s ← get
  let d := s.myDie
  let n := ((s.die d).group g).barCores.length
  if !(s.barWaiters d g).any (fun p => p.1 == s.cur) then modify (fun s => s.modGroup d g (fun x => x.withdraw s.cur))
  modify (fun s => s.setG rd (BitVec.ofNat 32 (2 + n * 2 ^ 16)))
  if acq then acquire s.cur sc
  return .next

/-- Whether the count has been reached. -/
def Group.full (g : Group) : Bool := g.count ≤ g.barCores.length

def State.barTimedOut (s : State) (timeout : Option Nat) (since : Nat) : Bool :=
  match timeout with
  | some rb => since + usClocks (s.g rb).toNat ≤ s.clock
  | none => false

def barBody (i : Instr) (scope : Nat) (acq rel : Bool) (rd ra : Nat) (timeout : Option Nat) : Op Post := do
  let s ← get
  let g := (s.g ra).toNat
  let d := s.myDie
  match s.mySeq.wait with
  | some ⟨_, since, true, _, _⟩ =>
    if ((s.die d).group g).full then barComplete g rd scope acq
    else if s.barTimedOut timeout since then barExpire g rd scope acq
    else return .hold false
  | _ => do
    releaseTraps s.cur (s.curSeq == .X)
    settle s.cur (if rel then scope else 0) [s.curSeq]
    let x := (s.die d).group g
    if 64 ≤ g || !x.isValid || !bit x.part (s.cur % 144) then do
      if rel then releaseAlone s.cur scope
      modify (fun s => s.setG rd 4)
      return .next
    let pubs ← if rel then barRelease s.cur scope else pure []
    if rel && 2 ≤ scope then modify (fun s => s.breakSteps s.cur (some g))
    let bounds := acq && rel && scopeCovers scope x
    modify (fun s => (s.modGroup d g (fun x => { x with
      barCores := if x.barCores.contains s.cur then x.barCores else x.barCores ++ [s.cur],
      whole := x.whole && bounds, step := x.step && bounds, barPubs := x.barPubs ++ pubs })).arriveBar i)
    let s ← get
    if ((s.die d).group g).full then barComplete g rd scope acq
    else if s.barTimedOut timeout s.clock then barExpire g rd scope acq
    else return .hold false

def execBar (c : Ctl) (scope : Nat) (acq rel : Bool) (rd ra : Nat) (timeout : Option Nat) (s : State) : Out :=
  let i : Instr := .bar c scope acq rel rd ra timeout
  issue i c (preScope scope) (ra :: timeout.toList) (barBody i scope acq rel rd ra timeout) s

/-- BAR_TIMEOUT: the time-out of a waiting BAR has run out. -/
def execBarTimeout (core : Nat) (q : SeqId) (s : State) : Out :=
  reissue core q (fun w => match w.i with
    | .bar _ _ _ _ _ _ (some rb) => w.arrived && w.since + usClocks ((s.core core).g q rb).toNat ≤ s.clock
    | _ => false)
    (fun i s => match i with
      | .bar c sc acq rel rd ra t => execBar c sc acq rel rd ra t s
      | _ => .next s) s

/-! ICINV (R237). -/

/-- A sequencer fetches afresh from its next taken branch on; until then it may execute the words it held. -/
def Seq.refetch (x : Seq) (lines : Store Nat) (npub : Nat) : Seq :=
  { x with icPending := true, icFrom := npub, oldLines := if x.icPending then x.oldLines else lines }

def Core.invalidateFetch (c : Core) (npub : Nat) : Core :=
  { (allSeqs.foldl (fun c q => c.modSeq q (fun x => x.refetch c.iLines npub)) c) with iLines := [] }

def execIcinv (c : Ctl) (s : State) : Out :=
  issue (.icinv c) c noPre [] (simple (fun s => s.modMe (fun k => k.invalidateFetch s.npub))) s

end Sys2Proof.Machine
end

