-- ==== Sys2Proof/Machine/System.lean ====
section
/-! DEFINITION. Special registers, invalidation, TRAP, ERET and SLEEP, OP 0xC0–0xC4 (R93, R94, R214 to R216, R275, R276,
R338, R339, R353, R354), and the events of traps, pre-emption and the watchdog (R271, R272, R277, R280). -/

namespace Sys2Proof.Machine

/-! Special registers (R93, R94). -/

/-- A privileged register. -/
def sysPriv (num : Nat) : Bool := (0x030 ≤ num && num ≤ 0x033) || num == 0x040

/-- A register of which each sequencer has a copy. DESIGN CHOICE (log 83): VARR and NSAMP, whose scope R93 gives as the X-seq,
are not among them, so MOD of a C-seq's SYSR or SYSW of them is ignored. -/
def sysPerSeq (num : Nat) : Bool :=
  (0x008 ≤ num && num ≤ 0x00D) || (0x010 ≤ num && num ≤ 0x014) || num == 0x018

/-- The value of a special register; `q` names the copy of a sequencer's register. XLINV is write-only and reads 0. -/
def State.sysGet (s : State) (num : Nat) (q : SeqId) : Nat :=
  let k := s.me
  let x := k.seq q
  if num = 0x000 then k.tag.toNat
  else if num = 0x001 then k.phase.toNat
  else if num = 0x002 then k.blk.toNat
  else if num = 0x003 then k.tcbh.toNat
  else if num = 0x004 then s.cur
  else if num ≤ 0x00D then (Store.get 0 x.li (num - 0x008)).toNat
  else if num = 0x010 then x.iter.toNat
  else if num = 0x011 then x.lc.toNat
  else if num = 0x012 then x.ec.toNat
  else if num = 0x013 then x.ringv.toNat
  else if num = 0x014 then x.ringp.toNat
  else if num = 0x018 then x.fstat.toNat
  else if num = 0x019 then k.seed.toNat
  else if num = 0x01A then k.varr.toNat
  else if num = 0x01B then k.nsamp.toNat
  else if num ≤ 0x02F then (Store.get 0 k.srm (num - 0x020)).toNat
  else if num = 0x030 then k.cause.toNat
  else if num = 0x031 then k.epc.toNat
  else if num = 0x032 then k.eva.toNat
  else if num = 0x033 then k.ctx.toNat
  else if num = 0x040 then 0
  else if num < 0x200 then Store.get 0 k.hotb (num - 0x100)
  else Store.get 0 k.hots (num - 0x200)

/-- Write a special register; a read-only one keeps its value (R354). -/
def Core.sysSet (k : Core) (num : Nat) (q : SeqId) (v : Nat) : Core :=
  let m (f : Seq → Seq) : Core := k.modSeq q f
  if num < 0x008 then k
  else if num ≤ 0x00D then m (fun x => { x with li := Store.set 0 x.li (num - 0x008) (BitVec.ofNat 24 v) })
  else if num = 0x010 then m (fun x => { x with iter := BitVec.ofNat 32 v })
  else if num = 0x011 then m (fun x => { x with lc := BitVec.ofNat 32 v })
  else if num = 0x012 then m (fun x => { x with ec := BitVec.ofNat 32 v })
  else if num = 0x013 then m (fun x => { x with ringv := BitVec.ofNat 64 v })
  else if num = 0x014 then m (fun x => { x with ringp := BitVec.ofNat 32 v })
  else if num = 0x018 then m (fun x => { x with fstat := BitVec.ofNat 5 v })
  else if num = 0x019 then { k with seed := BitVec.ofNat 32 v, gens := [] }
  else if 0x020 ≤ num && num ≤ 0x02F then { k with srm := Store.set 0 k.srm (num - 0x020) (BitVec.ofNat 64 v) }
  else if num = 0x031 then { k with epc := BitVec.ofNat 64 v }
  else if num = 0x033 then { k with ctx := BitVec.ofNat 16 v, hotb := [], hots := [] }
  else k

/-- SYSR and SYSW of a privileged register in user mode trap PRIV (R94). -/
def sysPre (i : Instr) (num : Nat) : Op Unit := if sysPriv num then prePriv i else noPre

/-- The stall clocks of every wait are counted up to now before a hotness counter is read (R191). -/
def State.syncHot (s : State) : State := allSeqs.foldl (fun s q => s.stallSync s.cur q) s

def execSysr (c : Ctl) (rd num md : Nat) (s : State) : Out :=
  issue (.sysr c rd num md) c (sysPre (.sysr c rd num md) num) []
    (simple (fun s =>
      let s := if 0x200 ≤ num then s.syncHot else s
      s.setOpnd (sysWidth num == some 64) rd (s.sysGet num (seqOfCode md)))) s

/-- SYSW (R94, R354): another sequencer's copy only while that sequencer is parked or held; a ring map is checked. -/
def execSysw (c : Ctl) (rs num md : Nat) (s : State) : Out :=
  let i : Instr := .sysw c rs num md
  let wide := sysWidth num == some 64
  issue i c (sysPre i num) (srcRegs wide [rs]) (do
    let s ← get
    let q := seqOfCode md
    let v := s.opnd wide rs
    need (!sysPerSeq num || q == s.curSeq || s.me.partFree q) cUNDEF (encode i)
    need (num != 0x013 || ringOk 16 v) cLOOPH v
    need (num != 0x014 || ringOk 8 v) cLOOPH v
    set (s.modMe (·.sysSet num q v))
    return .next) s

/-! Translation invalidation (R214 to R216). -/

/-- Read the descriptor at `a`: none when it is malformed. -/
def State.invDesc (s : State) (a : Nat) : Option InvDesc :=
  let w2 := s.rd (a + 0x10) 8
  let d : InvDesc := ⟨a, s.rd a 8, s.rd (a + 8) 8, fieldOf w2 0 16, bit w2 16, fieldOf w2 17 2, 0, []⟩
  let ok := fieldOf w2 19 45 == 0 && fieldOf (s.rd (a + 0x18) 8) 8 56 == 0 &&
    (match d.kind with
     | 0 => d.start % 4096 == 0 && d.len != 0 && d.len % 4096 == 0
     | 1 => true
     | 2 => d.len == 0
     | _ => false)
  if ok then some d else none

/-- Whether an address range of context `ctx` is covered. -/
def InvDesc.covers (d : InvDesc) (ctx base size : Nat) : Bool :=
  d.kind == 0 && (d.all || ctx == d.ctx) && base < d.start + d.len && d.start < base + size

/-- Whether a host translation is covered, `pasid` being that of the descriptor's context. -/
def InvDesc.coversHost (d : InvDesc) (pasid : Nat) (e : AtsEnt) : Bool :=
  d.kind == 0 && (d.all || e.pasid == pasid) && 4096 * e.page < d.start + d.len && d.start < 4096 * e.page + 4096

/-- Remove the covered translations everywhere (R215). `pasid` is that of the descriptor's context. -/
def State.dropXlat (s : State) (d : InvDesc) (pasid : Nat) : State :=
  { s with tlb := s.tlb.filter (fun e => !d.covers e.ctx e.base e.size), ats := s.ats.filter (fun e => !d.coversHost pasid e) }

/-- The frame of a host translation. -/
def AtsEnt.frame (e : AtsEnt) (ctx : Option Nat) : Option Nat × Nat × Nat := (ctx, hostBase + e.hpa / 4096 * 4096, 4096)

/-- The frames of the translations that the invalidation removes. -/
def State.goneXlat (s : State) (d : InvDesc) (pasid : Nat) : List (Option Nat × Nat × Nat) :=
  (s.tlb.filter (fun e => d.covers e.ctx e.base e.size)).map (fun e => (some e.ctx, e.pa, e.size)) ++
    (s.ats.filter (d.coversHost pasid)).map (fun e => e.frame (if d.all then none else some d.ctx))

/-- Whether an access of context `ctx` at `pa` was translated under a removed translation. -/
def inGone (g : List (Option Nat × Nat × Nat)) (ctx pa : Nat) : Bool :=
  g.any (fun r => (r.1 == none || r.1 == some ctx) && r.2.1 ≤ pa && pa < r.2.1 + r.2.2)

/-- Whether a stream transfer was translated under what an invalidation has removed: pages by their frames, tiles by their
tensor and number. -/
def Xfer.under (x : Xfer) (d : InvDesc) : Bool :=
  match x.side with
  | .pages _ => x.spots.any (fun z => match z with
    | .at_ _ pas => pas.any (inGone d.gone x.ctx)
    | _ => false)
  | .tiles _ _ ts => (d.kind == 1 || d.kind == 2) && (d.all || x.ctx == d.ctx) && x.sa.base % 2 ^ 32 == d.start % 2 ^ 32 &&
      (d.kind == 2 || ts.any (fun t => fieldOf d.len 0 32 ≤ t.1 && t.1 ≤ fieldOf d.len 32 32))

/-- Whether an access that was translated under what an invalidation has removed has not drained: a stream transfer, or an access
performed late (R215). -/
def State.undrained (s : State) (d : InvDesc) : Bool :=
  s.cores.any (fun e => e.2.xfers.any (fun x => x.id < d.upto && x.under d) ||
    allSeqs.any (fun q => (e.2.seq q).late.any (fun l => l.id < d.upto && l.work.pas.any (inGone d.gone e.2.ctx.toNat))))

/-- Write the buffered lines of every core that `sel` selects to their frames (R215); it ends their supersteps. -/
def flushFrames (sel : PLine → Bool) : Op Unit := do
  let cores := ((← get).cores.filter (fun e => e.2.psb.any sel)).map (·.1)
  forAll cores (fun c => do
    let lines := ((← get).core c).psb.filter sel
    modify (fun s => lines.foldl (fun s l => (s.publishLine l.pa l).sawLine c l.pa l) s)
    modify (fun s => (s.modCore c (fun k => { k with psb := k.psb.filter (fun l => !sel l) })).breakSteps c))

/-- The end of an invalidation, once what it covers has drained: the covered buffered lines are written to their frames, and the
writes that engines have let go there are published (R215). -/
def drainInval (d : InvDesc) (sel : PLine → Bool) : Op Unit := do
  if (← get).undrained d then throwWait
  flushFrames (fun l => sel l || inGone d.gone l.ctx l.pa)
  modify (fun s => s.publishPosted (fun p => d.gone.any (fun r => r.2.1 ≤ p.pa && p.pa < r.2.1 + r.2.2)))

/-- XLINV (R214): it begins the invalidation when it first issues, and retires once that is acknowledged. -/
def xlinvBody (i : Instr) (rs : Nat) : Op Post := do
  let s ← get
  let a := (s.pair rs).toNat
  need (fieldOf a 41 23 == 0 && a % 32 == 0) cUNDEF (encode i)
  match s.mySeq.wait with
  | some ⟨_, _, true, _, _⟩ => if s.me.inval.isNone then return .next else return .hold false
  | _ => do
    need (paOk a) cNOTMAP a
    need (!s.poisoned a 32) cECC a
    match s.invDesc a with
    | none => do
      set (s.publishN (a + 0x18) 1 2)
      return .next
    | some d => do
      let e ← ctxEnt s.myDie d.ctx
      let d' : InvDesc := { d with upto := s.nextId, gone := s.goneXlat d e.pasid }
      modify (fun s => (s.dropXlat d e.pasid).modMe (fun k =>
        let w : Waiting := ⟨i, s.clock, true, false, s.clock⟩
        { (k.modSeq .C (fun x => { x with wait := some w })) with inval := some d' }))
      return .hold false

def execXlinv (c : Ctl) (rs md : Nat) (s : State) : Out :=
  issue (.xlinv c rs md) c (prePriv (.xlinv c rs md)) [rs, rs + 1] (xlinvBody (.xlinv c rs md) rs) s

/-- INVALIDATION_ACKNOWLEDGEMENT: what the invalidation covers has drained, and STATUS is written (R214, R215). -/
def execInvalidationAcknowledgement (core : Nat) (s : State) : Out :=
  event (do
    match (s.core core).inval with
    | none => pure ()
    | some d => do
      drainInval d (fun l => d.covers l.ctx l.va 128)
      modify (fun s => (s.publishN (d.addr + 0x18) 1 1).modCore core (fun k => { k with inval := none }))) s

/-- The host's invalidation as a descriptor of no one context. -/
def AtsInv.desc (a : AtsInv) : InvDesc := ⟨0, a.start, a.len, 0, true, 0, a.upto, a.gone⟩

/-- An invalidation of the host begins: the PASID's translations of the range go (R216). -/
def State.beginAtsInv (s : State) (die pasid start len : Nat) : State :=
  let mine (e : AtsEnt) : Bool := e.pasid == pasid && 4096 * e.page < start + len && start < 4096 * e.page + 4096
  { s with
    atsInv := s.atsInv ++ [⟨die, pasid, start, len, s.nextId, (s.ats.filter mine).map (fun e => e.frame none)⟩]
    ats := s.ats.filter (fun e => !mine e) }

/-- ATS_INVALIDATION_REQUEST: the host's request for a PASID begins its invalidation, and its completion is sent once what it
covers has drained; until then the event comes again (R216). -/
def execAtsInvalidationRequest (die pasid start len : Nat) (s : State) : Out :=
  let mine (a : AtsInv) : Bool := a.die == die && a.pasid == pasid && a.start == start && a.len == len
  event (do
    match (← get).atsInv.find? mine with
    | none => pure ()
    | some a => do
      let ctxs := (((← get).cores.flatMap (fun e => e.2.psb.map (·.ctx)))).eraseDups
      let ids ← collect ctxs (fun x => do return (x, (← ctxEnt die x).pasid))
      drainInval a.desc (fun l => l.va < 2 ^ 63 && l.va < start + len && start < l.va + 128 &&
        ids.any (fun p => p.1 == l.ctx && p.2 == pasid))
      modify (fun s => { s with
        atsInv := s.atsInv.erase a
        pcie := s.pcie ++ [.invalidationCompletion die pasid start len] }))
    (if s.atsInv.any mine then s else s.beginAtsInv die pasid start len)

/-! TRAP, ERET, SLEEP. -/

def execTrap (c : Ctl) (code : BitVec 16) (s : State) : Out :=
  issue (.trap c code) c noPre [] (throwTrap cBREAK code.toNat) s

def execEret (c : Ctl) (s : State) : Out :=
  issue (.eret c) c (prePriv (.eret c)) [] (do
    need ((← get).me.nest != 0) cUNDEF (encode (.eret c))
    eretOp) s

/-- SLEEP (R339): until the event flag is set, or a time that is not 0 has passed. -/
def sleepBody (ra : Nat) : Op Post := do
  let s ← get
  let us := (s.g ra).toNat
  if s.me.event || (us != 0 && s.issuedAt + usClocks us ≤ s.clock) then do
    set (s.modMe (fun k => { k with event := false }))
    return .next
  else throwWait

def execSleep (c : Ctl) (ra : Nat) (s : State) : Out := issue (.sleep c ra) c noPre [ra] (sleepBody ra) s

/-- SLEEP_WAKEUP: the time of a waiting SLEEP has passed. -/
def execSleepWakeup (core : Nat) (s : State) : Out :=
  reissue core .C (fun w => match w.i with
    | .sleep _ ra =>
      let us := ((s.core core).g .C ra).toNat
      !w.counted && us != 0 && w.since + usClocks us ≤ s.clock
    | _ => false)
    (fun i s => match i with
      | .sleep c ra => execSleep c ra s
      | _ => .next s) s

/-! Events of traps, pre-emption and reset. -/

/-- TRAP_ENTRY: the core's last transfer has retired. -/
def execTrapEntry (core : Nat) (s : State) : Out := tryEnter core s

/-- The sequencer that TIMEOUT names, with its wait byte, when every sequencer that is not parked has waited on tokens or
counters for WDOG µs (R280). -/
def State.watchdogDue (s : State) (c : Nat) : Option (SeqId × Nat) :=
  let k := s.core c
  let live := allSeqs.filter (fun q => !(k.seq q).parked)
  let stuck (q : SeqId) : Bool :=
    match (k.seq q).wait with
    | some w => w.counted && w.since + usClocks k.wdog.toNat ≤ s.clock
    | none => false
  if k.wdog != 0 && k.nest == 0 && !k.halted && live.all stuck && !k.pend.any (fun p => p.cause == cTIMEOUT) then
    match live with
    | q :: _ => (k.seq q).wait.map (fun w => (q, fieldOf (encode w.i) 56 8))
    | [] => none
  else none

def execWatchdogTimeout (core : Nat) (s : State) : Out :=
  event (match s.watchdogDue core with
    | some (q, b) => modify (fun s => s.raiseA core q cTIMEOUT b)
    | none => pure ()) s

/-- A write of a register that a failed boot leaves unserved (R292). -/
def ctlEvent (f : State → State) (s : State) : Out := event (modify (fun s => if s.bootFailed then s else f s)) s

def execPreemptionRequestDie (die : Nat) (s : State) : Out := ctlEvent (fun s => s.preempt die) s
def execPreemptionRequestPackage (s : State) : Out := ctlEvent (fun s => (s.preempt 0).preempt 1) s

/-- Park and clear a core that is being reset (R277). -/
def Core.clear (k : Core) : Core :=
  let k := allSeqs.foldl (fun k q => k.modSeq q (fun x => { x with parked := true, held := false, wait := none })) k
  { k with tokq := [], nest := 0, priv := false, halted := false, resetting := false, trapping := none }

/-- Work whose trap is dropped: a reset core has no handler to tell. -/
def untrapped (x : Op Unit) : Op Unit := fun s =>
  match x s with
  | .ok _ s' => .ok () s'
  | .error (.trap ..) s' => .ok () (errState s s')
  | .error e s' => .error e s'

/-- CORECTL_RESET: once its commands and transfers have drained, a halted core is reset, and its block retires with
0xFFFE (R277). -/
def execCorectlReset (core : Nat) (s : State) : Out :=
  event (do
    let k := s.core core
    if !k.halted then return ()
    modify (fun s => s.modCore core (fun k => { k with resetting := true }))
    let idle := k.quiet && allSeqs.all (fun q => (List.range 4).all (fun n => s.ecnt core q n == 0))
    if idle then do
      modify (fun s => s.modCore core (·.clear))
      match k.cur with
      | none => pure ()
      | some b => do
        untrapped (releaseAlone core b.info.scope)
        untrapped (writeTrace core b 0xFFFE)
        retireBlock core b 0xFFFE) s

/-- CORECTL_START: the C-seq starts at RPC3 in user mode, if all four sequencers are parked and no block is current
(R273); after a failed boot the write is not served (R292). -/
def execCorectlStart (core : Nat) (s : State) : Out := ctlEvent (fun s => s.startCore core) s

/-! Writes of control registers by software. -/

/-- REGISTER_WRITE: a write of one aligned word of a die's control space (R274, R285). -/
def execRegisterWrite (die off : Nat) (v : DWord) (s : State) : Out :=
  event (modify (fun s =>
    if off % 8 = 0 && off < ctlDieSize && s.served off then s.ctlWrite die off v.toNat else s)) s

def execRegisterWindowWrite (core off : Nat) (v : DWord) (s : State) : Out :=
  ctlEvent (fun s => if off % 8 = 0 && off < 0x100000 then s.winWrite core off v.toNat else s) s

def execFramecfgWrite (die : Nat) (v : DWord) (s : State) : Out := ctlEvent (fun s => s.putFramecfg die v.toNat) s
def execL2seedWrite (die : Nat) (v : DWord) (s : State) : Out := ctlEvent (fun s => s.putL2seed die v.toNat) s
def execCalownWrite (die chan slot : Nat) (v : Byte) (s : State) : Out :=
  ctlEvent (fun s =>
    if chan < 144 && slot < slotsOf chan then s.modDie die (fun x => x.putOwner (s.rotation chan) chan slot v) else s) s
def execGroupEntryWrite (die g word : Nat) (v : DWord) (s : State) : Out :=
  ctlEvent (fun s => s.putGroup die g word v.toNat) s
def execChcfgWrite (chan word : Nat) (v : DWord) (s : State) : Out :=
  ctlEvent (fun s => s.putChcfg chan word v.toNat) s
def execMbtailWrite (die : Nat) (v : DWord) (s : State) : Out := ctlEvent (fun s => s.putMbtail die v.toNat) s
def execAttreq (die : Nat) (va : DWord) (s : State) : Out := event (modify (fun s => s.putAttreq die va.toNat)) s

/-- MAILBOX_POST: the oldest message of a die's posters goes into the ring, if that has room (R290). -/
def execMailboxPost (die : Nat) (s : State) : Out := event (modify (fun s => s.mailOne die)) s

end Sys2Proof.Machine
end

