-- ==== Sys2Proof/Machine/Trace.lean ====
section
/-! DEFINITION. Weight versions (VERNEW, VERPIN, VERDROP), the dependence trace (TRACE) and RELAUNCH (R70 to R76, R258 to
R267, R372 to R374). -/

namespace Sys2Proof.Machine

/-! Versions. -/

/-- The descriptor of a tensor named in a register, or its trap (R200, R201). -/
def needTensor (die ctx tid : Nat) : Op TDesc := do
  match ← tdesc die ctx tid with
  | .ok d => return d
  | .bad => throwTrap cTENSOR tid
  | .notmap => throwTrap cNOTMAP tid
  | .poison => do
    let e ← ctxEnt die ctx
    let s ← get
    throwTrap cECC (if e.poisoned then s.ctxAddr die ctx else e.tdBase + 128 * tid)

/-- VERNEW (R72, R373): it waits while a tile of the current version is in flight. -/
def vernewBody (rd t : Nat) : Op Post := do
  let s ← get
  let x := s.me.ctx.toNat
  let d ← needTensor s.myDie x t
  match ← verNewCheck d with
  | .fail code => result rd code
  | .waits => throwWait
  | .make v => do
    verNewMake s.myDie x t d v
    result rd v

def execVernew (c : Ctl) (rd ra : Nat) (s : State) : Out :=
  issue (.vernew c rd ra) c noPre [ra] (do
    let t := ((← get).g ra).toNat
    asPoster (vernewBody rd t)) s

/-- The results of VERPIN (R74, R374). -/
def verpinBody (rd tag i v n : Nat) : Op Post := do
  let s ← get
  let die := s.myDie
  let x := s.me.ctx.toNat
  let st := s.stage die n
  if st.state = 0 || st.ctx != x then result rd 4
  else match st.slotOf tag with
    | none => result rd 1
    | some (k, slot) =>
      match st.weights[i]? with
      | none => result rd 2
      | some t => do
        let d ← needTensor die x t
        if 8 ≤ v || !d.hasVersion v then result rd 3
        else do
          let old := fieldOf slot.vset (4 * i) 4
          let slot' : TagSlot := { slot with vset := setField slot.vset (4 * i) 4 v }
          modify (fun s => s.modStage die n (fun y => { y with tags := Store.set none y.tags k (some slot') }))
          mirrorSet die n k slot'.vset
          let _ ← freeIfDue die x t old
          result rd 0

def execVerpin (c : Ctl) (rd ra rb rc slot : Nat) (s : State) : Out :=
  issue (.verpin c rd ra rb rc slot) c noPre [ra, rb, rc] (do
    let s ← get
    verpinBody rd (s.g ra).toNat (s.g rb).toNat (s.g rc).toNat slot) s

/-- VERDROP (R75, R374). -/
def execVerdrop (c : Ctl) (rd ra rb : Nat) (s : State) : Out :=
  issue (.verdrop c rd ra rb) c noPre [ra, rb] (do
    let s ← get
    let x := s.me.ctx.toNat
    let t := (s.g ra).toNat
    let v := (s.g rb).toNat
    let d ← needTensor s.myDie x t
    if !d.vers then result rd 4
    else if 8 ≤ v || !d.hasVersion v then result rd 3
    else if d.cur = v then result rd 2
    else if s.isDropped x t v then result rd 5
    else do
      modify (fun s => { s with drops := ⟨x, t, v⟩ :: s.drops })
      result rd (if ← freeIfDue s.myDie x t v then 1 else 0)) s

/-! TRACE (R262 to R264). -/

/-- Whether the core's current block is traced. -/
def State.traced (s : State) : Bool :=
  match s.me.cur with
  | some b => b.info.traced
  | none => false

def execTraceAdd (c : Ctl) (ra rb rc : Nat) (s : State) : Out :=
  issue (.traceAdd c ra rb rc) c noPre [ra, rb, rc]
    (simple (fun s =>
      if s.traced then s.noteTiles s.cur (s.g ra).toNat (s.g rb).toNat (s.g rc).toNat else s)) s

def execTracePath (c : Ctl) (ra : Nat) (s : State) : Out :=
  issue (.tracePath c ra) c noPre [ra]
    (simple (fun s => if s.traced then s.modMySeq (fun x => { x with crc := crcWord x.crc (s.g ra) }) else s)) s

/-! RELAUNCH (R265). -/

/-- A piece of work that reads where R169 puts nothing gives none. -/
def orNone {α : Type} (x : Op α) : Op (Option α) := fun s =>
  match x s with
  | .ok a s' => .ok (some a) s'
  | .error (.fault _) s' => .ok none s'
  | .error e s' => .error e s'

/-- Whether a tile of a range was stamped after `stamp`; none where a TTE or a summary word is poisoned. -/
def rangeNewer (d : TDesc) (stamp first last : Nat) : Op (Option Bool) := do
  let v := d.current
  let gs ← collect (List.range (last / 64 + 1 - first / 64)) (fun i => do
    let g := first / 64 + i
    let a := d.summary v (64 * g)
    let w ← hwRd a 4
    if (← get).poisoned a 4 then return (none : Option Bool)
    if w ≤ stamp then return some false
    let lo := max first (64 * g)
    let hi := min last (64 * g + 63)
    let ts ← collect (List.range (hi + 1 - lo)) (fun j => do
      let t ← readTte d v (lo + j)
      if (← get).poisoned t.addr 16 then return (none : Option Bool)
      return some (stamp < t.stampw))
    if ts.any (·.isNone) then return none
    return some (ts.any (· == some true)))
  if gs.any (·.isNone) then return none
  return some (gs.any (· == some true))

/-- Whether a range of a postmark selects its block. -/
def rangeSelects (die ctx stamp r : Nat) : Op (Option Bool) := do
  let first := fieldOf r 24 24
  let last := first + fieldOf r 48 16
  match ← tdesc die ctx (fieldOf r 0 24) with
  | .ok d => if d.nt ≤ last then return some true else rangeNewer d stamp first last
  | .bad => return some true
  | .notmap | .poison => return none

/-- Whether block `b` is selected; none when something cannot be read. -/
def blockSelected (die : Nat) (t : TaskInfo) (s b : Nat) : Op (Option Bool) := do
  match ← agWords (agTask die) die t.ctx (addrAdd t.tracebuf (64 * b)) 8 with
  | none => return none
  | some p => do
    let w := p.getD 0 0
    let stamp := fieldOf w 32 32
    if !bit w 24 || bit w 25 || bit w 26 || bit w 27 then return some true
    if stamp = 0 || s < stamp then return some true
    let rs ← collect (List.range (min 6 (fieldOf w 28 3))) (fun k =>
      do return (← orNone (rangeSelects die t.ctx stamp (p.getD (2 + k) 0))).join)
    if rs.any (·.isNone) then return none
    return some (rs.any (· == some true))

/-- The two words of a relaunch summary that hold anything (R261). -/
def summaryWords (sched stamp : Nat) (done : Bool) : List Nat :=
  [sched + bitAt done 25 + stamp * 2 ^ 32, 0, 0, 0, 0, 0, 0, 0]

/-- RELAUNCH of handle `h`: the value for Gd. The walk is one step, so a task's STATE cannot change under it. -/
def relaunchOp (die ctx h : Nat) : Op Nat := do
  match ← readTcb die ctx h with
  | .beyond => return 0x03000000
  | .unreadable => do
    tellPoison die ctx h
    return 0x06000000
  | .ok w => do
    let st := fieldOf (w.getD 1 0) 48 4
    if (st != 4 && st != 5) || (← get).holdsTask ctx h then return 0x01000000
    match ← agWords (agTask die) die ctx (w.getD 0 0) 32 with
    | none => return 0x06000000
    | some k => do
      if !bit (k.getD 10 0) 3 || w.getD 14 0 = 0 then return 0x02000000
      if bit (w.getD 2 0) 35 then return 0x04000000
      let now ← stampNow die ctx
      let s := if (now + 1) % 2 ^ 32 = 0 then 1 else (now + 1) % 2 ^ 32
      let t := mkInfo ctx h w k 0
      let nb := blockCount t.kinds t.extent
      let sel ← collect (List.range nb) (fun b => do return (b, ← blockSelected die t s b))
      if sel.any (fun p => p.2.isNone) then return 0x06000000
      let chosen := (sel.filter (fun p => p.2 == some true)).map (·.1)
      let sa := addrAdd t.tracebuf (64 * nb)
      if !(← agCanWrite (agTask die) die ctx sa 64) then return 0x06000000
      if chosen.isEmpty then do
        let _ ← agWriteBytes (agTask die) die ctx sa (wordBytes (summaryWords 0 now true))
        return 0
      match ← prepTask die ctx h false (some chosen.length) with
      | .fail code => do
        insertReport die ctx h code
        return 0x05000000
      | .ok t w => do
        let a := (← get).ctxAddr die ctx + 0x30
        hwWr a 4 s
        let _ ← agWriteBytes (agTask die) die ctx sa (wordBytes (summaryWords chosen.length s false))
        startTask die t w chosen (some (s, chosen.length))
        return chosen.length

def execRelaunch (c : Ctl) (rd ra : Nat) (s : State) : Out :=
  issue (.relaunch c rd ra) c noPre [ra] (do
    let s ← get
    result rd (← relaunchOp s.myDie s.me.ctx.toNat (s.g ra).toNat)) s

end Sys2Proof.Machine
end

