-- ==== Sys2Proof/Machine/Dispatch.lean ====
section
/-! DEFINITION. The one match over the instructions and events: one arm each. -/

namespace Sys2Proof.Machine

def exec (i : Instr) (s : State) : Host.Outcome State Fault Refusal :=
  match i with
  | .nop c => Sys2Proof.Machine.execNop c s
  | .add c w rd ra rb => Sys2Proof.Machine.execAdd c w rd ra rb s
  | .sub c w rd ra rb => Sys2Proof.Machine.execSub c w rd ra rb s
  | .and c w rd ra rb => Sys2Proof.Machine.execAnd c w rd ra rb s
  | .or c w rd ra rb => Sys2Proof.Machine.execOr c w rd ra rb s
  | .xor c w rd ra rb => Sys2Proof.Machine.execXor c w rd ra rb s
  | .shl c w rd ra rb => Sys2Proof.Machine.execShl c w rd ra rb s
  | .shr c w rd ra rb => Sys2Proof.Machine.execShr c w rd ra rb s
  | .sra c w rd ra rb => Sys2Proof.Machine.execSra c w rd ra rb s
  | .mul c w rd ra rb => Sys2Proof.Machine.execMul c w rd ra rb s
  | .mulh c w u rd ra rb => Sys2Proof.Machine.execMulh c w u rd ra rb s
  | .div c w u rd ra rb => Sys2Proof.Machine.execDiv c w u rd ra rb s
  | .rem c w u rd ra rb => Sys2Proof.Machine.execRem c w u rd ra rb s
  | .min c w u rd ra rb => Sys2Proof.Machine.execMin c w u rd ra rb s
  | .max c w u rd ra rb => Sys2Proof.Machine.execMax c w u rd ra rb s
  | .cmp c w u cond rd ra rb => Sys2Proof.Machine.execCmp c w u cond rd ra rb s
  | .sel c w rd ra rb rc => Sys2Proof.Machine.execSel c w rd ra rb rc s
  | .clz c w rd ra => Sys2Proof.Machine.execClz c w rd ra s
  | .popc c w rd ra => Sys2Proof.Machine.execPopc c w rd ra s
  | .movi c rd imm => Sys2Proof.Machine.execMovi c rd imm s
  | .moviHi c rd imm => Sys2Proof.Machine.execMoviHi c rd imm s
  | .addi c rd ra imm => Sys2Proof.Machine.execAddi c rd ra imm s
  | .addp c rd ra imm => Sys2Proof.Machine.execAddp c rd ra imm s
  | .br c t => Sys2Proof.Machine.execBr c t s
  | .bz c cr off => Sys2Proof.Machine.execBz c cr off s
  | .bnz c cr off => Sys2Proof.Machine.execBnz c cr off s
  | .call c t => Sys2Proof.Machine.execCall c t s
  | .ret c => Sys2Proof.Machine.execRet c s
  | .loop c off => Sys2Proof.Machine.execLoop c off s
  | .looph c rd ra rb rc => Sys2Proof.Machine.execLooph c rd ra rb rc s
  | .loopt c k off => Sys2Proof.Machine.execLoopt c k off s
  | .ld c m => Sys2Proof.Machine.execLd c m s
  | .ldZeroExtending c m => Sys2Proof.Machine.execLdZeroExtending c m s
  | .st c m => Sys2Proof.Machine.execSt c m s
  | .aadd c a => Sys2Proof.Machine.execAadd c a s
  | .amin c a => Sys2Proof.Machine.execAmin c a s
  | .aminUnsigned c a => Sys2Proof.Machine.execAminUnsigned c a s
  | .amax c a => Sys2Proof.Machine.execAmax c a s
  | .amaxUnsigned c a => Sys2Proof.Machine.execAmaxUnsigned c a s
  | .aand c a => Sys2Proof.Machine.execAand c a s
  | .aor c a => Sys2Proof.Machine.execAor c a s
  | .axchg c a => Sys2Proof.Machine.execAxchg c a s
  | .acas c a => Sys2Proof.Machine.execAcas c a s
  | .afadd c bf16 sr a => Sys2Proof.Machine.execAfadd c bf16 sr a s
  | .vadd c rm sat f => Sys2Proof.Machine.execVadd c rm sat f s
  | .vsub c rm sat f => Sys2Proof.Machine.execVsub c rm sat f s
  | .vmul c rm sat f => Sys2Proof.Machine.execVmul c rm sat f s
  | .vfma c rm f vc => Sys2Proof.Machine.execVfma c rm f vc s
  | .vmin c f => Sys2Proof.Machine.execVmin c f s
  | .vmax c f => Sys2Proof.Machine.execVmax c f s
  | .vabs c rm sat f => Sys2Proof.Machine.execVabs c rm sat f s
  | .vneg c rm sat f => Sys2Proof.Machine.execVneg c rm sat f s
  | .vand c f => Sys2Proof.Machine.execVand c f s
  | .vor c f => Sys2Proof.Machine.execVor c f s
  | .vxor c f => Sys2Proof.Machine.execVxor c f s
  | .vshl c f => Sys2Proof.Machine.execVshl c f s
  | .vshr c f => Sys2Proof.Machine.execVshr c f s
  | .vsra c f => Sys2Proof.Machine.execVsra c f s
  | .vcmp c cond f => Sys2Proof.Machine.execVcmp c cond f s
  | .vsel c f => Sys2Proof.Machine.execVsel c f s
  | .vcvt c dst rm f => Sys2Proof.Machine.execVcvt c dst rm f s
  | .vmov c f => Sys2Proof.Machine.execVmov c f s
  | .vmovi c ty vd imm => Sys2Proof.Machine.execVmovi c ty vd imm s
  | .vget c ty g v p => Sys2Proof.Machine.execVget c ty g v p s
  | .vput c ty g v p => Sys2Proof.Machine.execVput c ty g v p s
  | .vexp c f => Sys2Proof.Machine.execVexp c f s
  | .vlog c f => Sys2Proof.Machine.execVlog c f s
  | .vrcp c f => Sys2Proof.Machine.execVrcp c f s
  | .vrsq c f => Sys2Proof.Machine.execVrsq c f s
  | .vtanh c f => Sys2Proof.Machine.execVtanh c f s
  | .verf c f => Sys2Proof.Machine.execVerf c f s
  | .vrrot c amt f => Sys2Proof.Machine.execVrrot c amt f s
  | .vrbc c amt f => Sys2Proof.Machine.execVrbc c amt f s
  | .vrred c op f => Sys2Proof.Machine.execVrred c op f s
  | .vcrot c amt f => Sys2Proof.Machine.execVcrot c amt f s
  | .vcbc c amt f => Sys2Proof.Machine.execVcbc c amt f s
  | .vcred c op f => Sys2Proof.Machine.execVcred c op f s
  | .vtrn16 c f => Sys2Proof.Machine.execVtrn16 c f s
  | .vamax c m f => Sys2Proof.Machine.execVamax c m f s
  | .vqnt c fmt rm f => Sys2Proof.Machine.execVqnt c fmt rm f s
  | .vdqnt c fmt f => Sys2Proof.Machine.execVdqnt c fmt f s
  | .vld c f => Sys2Proof.Machine.execVld c f s
  | .vst c f => Sys2Proof.Machine.execVst c f s
  | .vldm c pq f => Sys2Proof.Machine.execVldm c pq f s
  | .vstm c f => Sys2Proof.Machine.execVstm c f s
  | .voptw c sr grp f vc => Sys2Proof.Machine.execVoptw c sr grp f vc s
  | .pand c pd pa pb pr => Sys2Proof.Machine.execPand c pd pa pb pr s
  | .por c pd pa pb pr => Sys2Proof.Machine.execPor c pd pa pb pr s
  | .pnot c pd pa pr => Sys2Proof.Machine.execPnot c pd pa pr s
  | .pset c pd n pr => Sys2Proof.Machine.execPset c pd n pr s
  | .mldb c sa pn tx => Sys2Proof.Machine.execMldb c sa pn tx s
  | .mma c sa pn tile tx zc sat => Sys2Proof.Machine.execMma c sa pn tile tx zc sat s
  | .mscfg c n => Sys2Proof.Machine.execMscfg c n s
  | .msamp c rd sa pn tile tx zc => Sys2Proof.Machine.execMsamp c rd sa pn tile tx zc s
  | .accz c tile => Sys2Proof.Machine.execAccz c tile s
  | .accrd c tile rm sat fmt vd => Sys2Proof.Machine.execAccrd c tile rm sat fmt vd s
  | .accwr c tile fmt vs => Sys2Proof.Machine.execAccwr c tile fmt vs s
  | .accq c sa sb tile rm fmt blk => Sys2Proof.Machine.execAccq c sa sb tile rm fmt blk s
  | .accst c sa tile => Sys2Proof.Machine.execAccst c sa tile s
  | .accld c sa tile => Sys2Proof.Machine.execAccld c sa tile s
  | .strcfg c n ra imm => Sys2Proof.Machine.execStrcfg c n ra imm s
  | .strset c n ra w => Sys2Proof.Machine.execStrset c n ra w s
  | .strld c sa sb tx => Sys2Proof.Machine.execStrld c sa sb tx s
  | .strst c sa sb => Sys2Proof.Machine.execStrst c sa sb s
  | .stradv c sa k => Sys2Proof.Machine.execStradv c sa k s
  | .tilereq c grp ctr buf rd w hb => Sys2Proof.Machine.execTilereq c grp ctr buf rd w hb s
  | .pgreq c grp ctr buf rd w => Sys2Proof.Machine.execPgreq c grp ctr buf rd w s
  | .cpy c e => Sys2Proof.Machine.execCpy c e s
  | .cpyr c e => Sys2Proof.Machine.execCpyr c e s
  | .stash c e => Sys2Proof.Machine.execStash c e s
  | .stfetch c e => Sys2Proof.Machine.execStfetch c e s
  | .stdrop c e => Sys2Proof.Machine.execStdrop c e s
  | .chsend c e => Sys2Proof.Machine.execChsend c e s
  | .chrecv c e => Sys2Proof.Machine.execChrecv c e s
  | .chrel c e => Sys2Proof.Machine.execChrel c e s
  | .coll c e => Sys2Proof.Machine.execColl c e s
  | .prst c e => Sys2Proof.Machine.execPrst c e s
  | .tqpop c rd timeout => Sys2Proof.Machine.execTqpop c rd timeout s
  | .tqpush c rd ra => Sys2Proof.Machine.execTqpush c rd ra s
  | .tarm c rd ra rb => Sys2Proof.Machine.execTarm c rd ra rb s
  | .tdone c ra => Sys2Proof.Machine.execTdone c ra s
  | .ttrig c => Sys2Proof.Machine.execTtrig c s
  | .mbpost c grp rd => Sys2Proof.Machine.execMbpost c grp rd s
  | .pennLoad c rd ra rb => Sys2Proof.Machine.execPennLoad c rd ra rb s
  | .pennStart c rd ra => Sys2Proof.Machine.execPennStart c rd ra s
  | .pennStop c rd ra => Sys2Proof.Machine.execPennStop c rd ra s
  | .pennUnload c rd ra => Sys2Proof.Machine.execPennUnload c rd ra s
  | .pennStat c rd ra => Sys2Proof.Machine.execPennStat c rd ra s
  | .relaunch c rd ra => Sys2Proof.Machine.execRelaunch c rd ra s
  | .traceAdd c ra rb rc => Sys2Proof.Machine.execTraceAdd c ra rb rc s
  | .tracePath c ra => Sys2Proof.Machine.execTracePath c ra s
  | .vernew c rd ra => Sys2Proof.Machine.execVernew c rd ra s
  | .verpin c rd ra rb rc slot => Sys2Proof.Machine.execVerpin c rd ra rb rc slot s
  | .verdrop c rd ra rb => Sys2Proof.Machine.execVerdrop c rd ra rb s
  | .phase c scope acq rel => Sys2Proof.Machine.execPhase c scope acq rel s
  | .fence c ld st eng => Sys2Proof.Machine.execFence c ld st eng s
  | .bar c scope acq rel rd ra timeout => Sys2Proof.Machine.execBar c scope acq rel rd ra timeout s
  | .icinv c => Sys2Proof.Machine.execIcinv c s
  | .sysr c rd num md => Sys2Proof.Machine.execSysr c rd num md s
  | .sysw c rs num md => Sys2Proof.Machine.execSysw c rs num md s
  | .xlinv c rs md => Sys2Proof.Machine.execXlinv c rs md s
  | .trap c code => Sys2Proof.Machine.execTrap c code s
  | .eret c => Sys2Proof.Machine.execEret c s
  | .sleep c ra => Sys2Proof.Machine.execSleep c ra s
  | .boot fail svn ports => Sys2Proof.Machine.execBoot fail svn ports s
  | .sectorStart die sector => Sys2Proof.Machine.execSectorStart die sector s
  | .registerWrite die off v => Sys2Proof.Machine.execRegisterWrite die off v s
  | .registerWindowWrite core off v => Sys2Proof.Machine.execRegisterWindowWrite core off v s
  | .corectlReset core => Sys2Proof.Machine.execCorectlReset core s
  | .corectlStart core => Sys2Proof.Machine.execCorectlStart core s
  | .preemptionRequestDie die => Sys2Proof.Machine.execPreemptionRequestDie die s
  | .preemptionRequestPackage => Sys2Proof.Machine.execPreemptionRequestPackage s
  | .framecfgWrite die v => Sys2Proof.Machine.execFramecfgWrite die v s
  | .l2seedWrite die v => Sys2Proof.Machine.execL2seedWrite die v s
  | .calownWrite die chan slot v => Sys2Proof.Machine.execCalownWrite die chan slot v s
  | .groupEntryWrite die g word v => Sys2Proof.Machine.execGroupEntryWrite die g word v s
  | .chcfgWrite chan word v => Sys2Proof.Machine.execChcfgWrite chan word v s
  | .mbtailWrite die v => Sys2Proof.Machine.execMbtailWrite die v s
  | .attreq die va => Sys2Proof.Machine.execAttreq die va s
  | .attestationReport die => Sys2Proof.Machine.execAttestationReport die s
  | .frameAgingTick die => Sys2Proof.Machine.execFrameAgingTick die s
  | .taskInsertion ctx h => Sys2Proof.Machine.execTaskInsertion ctx h s
  | .blockStart core => Sys2Proof.Machine.execBlockStart core s
  | .trapEntry core => Sys2Proof.Machine.execTrapEntry core s
  | .watchdogTimeout core => Sys2Proof.Machine.execWatchdogTimeout core s
  | .barTimeout core q => Sys2Proof.Machine.execBarTimeout core q s
  | .tqpopTimeout core => Sys2Proof.Machine.execTqpopTimeout core s
  | .sleepWakeup core => Sys2Proof.Machine.execSleepWakeup core s
  | .stageEvaluation die slot => Sys2Proof.Machine.execStageEvaluation die slot s
  | .arrivalRecordAppend chan => Sys2Proof.Machine.execArrivalRecordAppend chan s
  | .verfull die slot => Sys2Proof.Machine.execVerfull die slot s
  | .mailboxPost die => Sys2Proof.Machine.execMailboxPost die s
  | .engineCommandCompletion id => Sys2Proof.Machine.execEngineCommandCompletion id s
  | .streamTransferRetirement id => Sys2Proof.Machine.execStreamTransferRetirement id s
  | .stashRetry id => Sys2Proof.Machine.execStashRetry id s
  | .stashTimeout id => Sys2Proof.Machine.execStashTimeout id s
  | .fetchTimeout id => Sys2Proof.Machine.execFetchTimeout id s
  | .dataFlit port seqNo chan off crcOk last hdr payload => Sys2Proof.Machine.execDataFlit port seqNo chan off crcOk last hdr payload s
  | .windowGrant chan window rlog stgv => Sys2Proof.Machine.execWindowGrant chan window rlog stgv s
  | .acknowledgementOfPublication chan status => Sys2Proof.Machine.execAcknowledgementOfPublication chan status s
  | .collectiveFlit way cid off round1 payload => Sys2Proof.Machine.execCollectiveFlit way cid off round1 payload s
  | .negativeAcknowledgement port seqNo => Sys2Proof.Machine.execNegativeAcknowledgement port seqNo s
  | .portDown port => Sys2Proof.Machine.execPortDown port s
  | .pushReduceCombine die g => Sys2Proof.Machine.execPushReduceCombine die g s
  | .prstTimeout die g => Sys2Proof.Machine.execPrstTimeout die g s
  | .calendarSlotStart die chan cached => Sys2Proof.Machine.execCalendarSlotStart die chan cached s
  | .refreshWindow die => Sys2Proof.Machine.execRefreshWindow die s
  | .lineMigration die line => Sys2Proof.Machine.execLineMigration die line s
  | .tileMove die ctx tensor ver tile toLp => Sys2Proof.Machine.execTileMove die ctx tensor ver tile toLp s
  | .oldFrameRelease die => Sys2Proof.Machine.execOldFrameRelease die s
  | .invalidationAcknowledgement core => Sys2Proof.Machine.execInvalidationAcknowledgement core s
  | .atsInvalidationRequest die pasid start len => Sys2Proof.Machine.execAtsInvalidationRequest die pasid start len s
  | .atsTranslationResponse die pasid page hpa grantR grantW error later => Sys2Proof.Machine.execAtsTranslationResponse die pasid page hpa grantR grantW error later s
  | .hostBar2Access place wr => Sys2Proof.Machine.execHostBar2Access place wr s
  | .collectionRoundPoll die q => Sys2Proof.Machine.execCollectionRoundPoll die q s
  | .launch q => Sys2Proof.Machine.execLaunch q s
  | .stage q => Sys2Proof.Machine.execStage q s
  | .operatorFence q => Sys2Proof.Machine.execOperatorFence q s
  | .write q => Sys2Proof.Machine.execWrite q s
  | .operatorCompletion q => Sys2Proof.Machine.execOperatorCompletion q s
  | .correctableError die => Sys2Proof.Machine.execCorrectableError die s
  | .uncorrectableError die place => Sys2Proof.Machine.execUncorrectableError die place s
  | .healthRefresh die sage hbm eol => Sys2Proof.Machine.execHealthRefresh die sage hbm eol s
  | .queueDescriptorWrite q word v => Sys2Proof.Machine.execQueueDescriptorWrite q word v s

end Sys2Proof.Machine
end

