-- ==== Sys2Proof/Machine/Late.lean ====
section
/-! DEFINITION. Accesses that a sequencer performs later than it issues them (R223, R224; log 76). -/

namespace Sys2Proof.Machine

/-- The storage of a register of the sequencer that runs holds poison (R282). -/
def State.poisonG (s : State) (n : Nat) : State :=
  if n = 0 then s
  else s.modMe (fun c =>
    if c.onPriv s.curSeq then { c with pgPoison := Nat.lor c.pgPoison (2 ^ n) }
    else c.modSeq s.curSeq (fun x => { x with gPoison := Nat.lor x.gPoison (2 ^ n) }))

/-- Registers that take a poisoned result. -/
def State.poisonGs (s : State) (po : Bool) (rs : List Nat) : State := if po then rs.foldl State.poisonG s else s

/-- Perform late work for the sequencer that runs. Poison met only now reaches the result register; an atomic that meets
it writes nothing (log 76). -/
def performWork (ac : Nat) (w : LateWork) : Op Unit := do
  let s ← get
  match w with
  | .load m sx _ pa n => do
    let bs ← loadBytes s.cur pa n
    modify (fun s => (s.putLoad m sx (rbytesNat bs)).poisonGs (anyPoison bs) (dstAt (m.sz == .b8) m.rd))
  | .store ctx bs => storeBytes s.cur s.curSeq ac ctx bs
  | .atomic i _ pa x k =>
    let w64 := atomLen i == 8
    match dstRegs i with
    | rd :: _ =>
      if s.poisoned pa (atomLen i) then set (s.poisonGs true (dstRegs i))
      else do
        let (old, s) := s.atomAt s.cur i pa x k
        set (s.setOpnd w64 rd old)
    | [] => pure ()
  | .vload t vd pq es => do
    let ld ← readElems s.cur t es
    modify (fun s => s.modMe (fun k => k.putLoads vd pq ld))

/-- Whether entry `n` may be performed: none of its class issued before it by another instruction still waits. -/
def mayPerform (l : List Late) (n : Nat) : Bool :=
  match l[n]? with
  | some e => (l.take n).all (fun x => x.ac != e.ac || x.id == e.id)
  | none => false

/-- Perform entry `n` of the accesses that a sequencer performs late; a signal or a trap that waited for it follows. -/
def performLate (c : Nat) (q : SeqId) (n : Nat) (s : State) : Out :=
  let l := ((s.core c).seq q).late
  match l[n]? with
  | none => .next s
  | some e =>
    if !mayPerform l n then .next s
    else match performWork e.ac e.work { s with cur := c, curSeq := q } with
    | .ok _ s' =>
      tryEnter c ({ s' with cur := s.cur, curSeq := s.curSeq }.modCore c (fun k =>
        (k.modSeq q (fun x => { x with late := x.late.eraseIdx n })).flushSigs q))
    | .error (.fault f) _ => .fault f
    | .error _ s' => .next (errState s s')

end Sys2Proof.Machine
end

