-- ==== Sys2Proof/Machine/Step.lean ====
section
/-! DEFINITION. One step of the package: the next turn of the schedule (log 4). -/

namespace Sys2Proof.Machine

/-- A turn of a sequencer. -/
def issueTurn (c : Nat) (q : SeqId) (s : State) : Host.Outcome State Fault Refusal :=
  let s := { s with cur := c, curSeq := q }
  match s.turnKind c q with
  | .idle => .next s
  | .trapA r rest => takeTrap c r (s.modCore c (fun k => { k with pend := rest }))
  | .run =>
    match s.fetchInstr with
    | .ok i s => exec i s
    | .out o => o

/-- What a turn runs. -/
def runAct (a : Act) (s : State) : Host.Outcome State Fault Refusal :=
  match a with
  | .issue c q => issueTurn c q s
  | .perform c q n => performLate c q n s
  | .publish n => .next (s.publishOne n)
  | .hostWrite a n v h => .next (s.hostWrite a n v h)
  | .event i => if i.isEvent && i.wellFormed then exec i s else .next s

/-- Turn `t` begins when `dt` clocks have passed; a reduction whose time is over by then ends first (R257, R392). -/
def runTurn (t : Turn) (dt : Nat) (s : State) : Host.Outcome State Fault Refusal :=
  let s := s.pass dt
  match s.overdue with
  | some p => exec (.prstTimeout p.1 p.2) (s.again { t with dt := 0 })
  | none => runAct t.act (s.startTurn t)

/-- One step. The next turn runs, after what comes before it: the stage evaluations of a clock that ends, or that an instruction
reaches a scheduler in (R64); where a stage is still to be evaluated, clocks pass one by one. -/
def step (s : State) : Host.Outcome State Fault Refusal :=
  let (t, s) := s.nextTurn
  match s.evalBefore t with
  | some i => exec i (s.again t)
  | none =>
    if 1 < s.turnDt t && s.anyDue then .next ((s.pass 1).again { t with dt := s.turnDt t - 1 })
    else runTurn t (s.turnDt t) s

/-- `s` with the instruction of `nbits` bits `w` stored where the next step fetches, and that fetch's turn next. -/
def State.withFetchWord (s : State) (nbits w : Nat) : State := s.place (w % 2 ^ nbits)

end Sys2Proof.Machine
end

