-- ==== Sys2Proof/Safety.lean ====
section
/-! DEFINITION. What counts as a safe run, when an instruction can issue, and what an instruction may change: the
vocabulary of the statements. -/

namespace Sys2Proof.Machine

/-- A step is safe when it ends in a next state. -/
def safeStep (s : State) : Prop := ∃ t, step s = .next t

/-- Memory, its poison, host memory and what is still to be sent there keep their canonical form (log 2, log 78). -/
def State.memWf (s : State) : Bool :=
  Memory.wf s.mem && Store.wf false s.poison && Memory.wf s.hostMem && Store.wf false s.hostDirty

/-! When an instruction issues and retires. -/

/-- Instruction `i`, with wait and signal bytes `c` and the scalar sources `srcs`, can issue: its sequencer accepts it
(R103), its wait is satisfied (R22), no register that it names is still to be written by an engine (R238), no source is
poisoned (R282), and its signal fits its queue (R24). -/
def Ready (i : Instr) (c : Ctl) (srcs : List Nat) (s : State) : Prop :=
  accepts s.curSeq (encode i) = true ∧ waitMet c s = true ∧ rdBlocked i srcs s = false ∧ poisonedSrc srcs s = none ∧
    sigRoom c s = true

/-- A turn that runs `a` begins in `u`: it is the next turn, no stage evaluation and no end of a reduction comes before it, and
its clocks pass at once (R64, R257, log 4, log 77). -/
def State.begins (s : State) (a : Act) (u : State) : Prop :=
  ∃ t s0, s.nextTurn = (t, s0) ∧ t.act = a ∧ s0.evalBefore t = none ∧ (s0.turnDt t ≤ 1 ∨ s0.anyDue = false) ∧
    (s0.pass (s0.turnDt t)).overdue = none ∧ u = (s0.pass (s0.turnDt t)).startTurn t

/-- `exec i s` answers a next state of which `P` holds. -/
def Completes (i : Instr) (s : State) (P : State → Prop) : Prop := ∃ t, exec i s = .next t ∧ P t

/-! What an instruction changes and what it leaves alone. -/

/-- The scalar registers outside `ds`, in either bank, keep value and poison; those in `ds` lose their poison (R87, R272,
R282). -/
def State.bankOnly (ds : List Nat) (s t : State) : Prop :=
  (∀ n, n ∉ ds → t.g n = s.g n) ∧
  (∀ n, t.me.gPoisoned s.curSeq n = (s.me.gPoisoned s.curSeq n && !ds.contains n)) ∧
  (if s.me.onPriv s.curSeq then t.mySeq.g = s.mySeq.g ∧ t.mySeq.gPoison = s.mySeq.gPoison
   else t.me.pg = s.me.pg ∧ t.me.pgPoison = s.me.pgPoison)

/-- An instruction with wait and signal bytes `c` has retired from `s` in `t`. Outside its core `t` is `r`; its core is
`k`, whose other three sequencers keep what `k` has; its own sequencer is `x`; of its scalar registers those in `ds` alone
are written. Where neither the wait byte names a token queue nor the signal byte a peer, no token moves (R22, R23). With
`r`, `k` and `x` those of `s` this is the whole frame: memory and its poison, the publications, the dies, links and
queues, every other core, and of this core the vector, predicate, accumulator, stream, special and exception registers,
the flags and the local store stay as they were. -/
def State.retires (s : State) (c : Ctl) (ds : List Nat) (r : State) (k : Core) (x : Seq) (t : State) : Prop :=
  t = { r with cores := t.cores } ∧ (∀ n, n ≠ s.cur → t.core n = r.core n) ∧
  (∀ q, q ≠ s.curSeq → t.me.seq q = k.seq q) ∧ s.bankOnly ds t ∧
  ((c.wsel = 0 ∨ 4 ≤ c.wsel) → c.ssel = 0 →
    t.me.tokq = k.tokq ∧ t.me.event = k.event ∧ t.mySeq.sigq = x.sigq) ∧
  t.me = { k with l := t.me.l, x := t.me.x, s := t.me.s, c := t.me.c, pg := t.me.pg, pgPoison := t.me.pgPoison,
                  tokq := t.me.tokq, event := t.me.event } ∧
  t.mySeq = { x with g := t.mySeq.g, gPoison := t.mySeq.gPoison, sigq := t.mySeq.sigq }

/-- A sequencer that goes on to the next word. -/
def Seq.onward (x : Seq) : Seq := { x with pc := x.pc + 8, wait := none }

/-- A sequencer that has taken a branch to `a`: after an ICINV it executes no word from before it any more (R237). -/
def Seq.jumped (x : Seq) (a : DWord) : Seq :=
  { x with pc := a, wait := none, fetchFrom := if x.icPending then x.icFrom else x.fetchFrom, icPending := false,
           oldLines := [] }

/-- The instruction has written scalar registers `ds`, gone on to the next word, and done nothing else. -/
def State.scalarOnly (c : Ctl) (ds : List Nat) (s t : State) : Prop :=
  s.retires c ds s s.me s.mySeq.onward t

/-- The scalar registers after a result `v` at a width: its low word in RD, at width 64 its high word in RD + 1; G0 reads
zero (R87, R305). -/
def State.putsScalar (w : Bool) (rd v : Nat) (s t : State) : Prop :=
  ∀ n, t.g n = if n = 0 then 0 else if n = rd then BitVec.ofNat 32 v
    else if w = true ∧ n = rd + 1 then BitVec.ofNat 32 (v / 2 ^ 32) else s.g n

/-! The results of the scalar family (R303 to R307), as the manual words them: on bit patterns. -/

/-- The fields of a two-operand scalar instruction: bytes, width, RD, RA and RB (R304). -/
def binFields : Instr → Option (Ctl × Bool × Nat × Nat × Nat)
  | .add c w d a b | .sub c w d a b | .and c w d a b | .or c w d a b | .xor c w d a b | .shl c w d a b
  | .shr c w d a b | .sra c w d a b | .mul c w d a b | .mulh c w _ d a b | .div c w _ d a b | .rem c w _ d a b
  | .min c w _ d a b | .max c w _ d a b => some (c, w, d, a, b)
  | _ => none

/-- Its result on words of n bits, U choosing the unsigned reading (R305). -/
def binWord {n : Nat} (i : Instr) (a b : BitVec n) : BitVec n :=
  match i with
  | .add .. => a + b
  | .sub .. => a - b
  | .and .. => a &&& b
  | .or .. => a ||| b
  | .xor .. => a ^^^ b
  | .shl .. => a <<< (b.toNat % n)
  | .shr .. => a >>> (b.toNat % n)
  | .sra .. => a.sshiftRight (b.toNat % n)
  | .mul .. => a * b
  | .mulh _ _ u .. =>
    (if u then a.setWidth (2 * n) * b.setWidth (2 * n) else a.signExtend (2 * n) * b.signExtend (2 * n)).extractLsb' n n
  | .div _ _ u .. => if b = 0 then BitVec.allOnes n else if u then a.udiv b else a.sdiv b
  | .rem _ _ u .. => if b = 0 then a else if u then a.umod b else a.srem b
  | .min _ _ u .. => if (if u then b.ult a else b.slt a) then b else a
  | .max _ _ u .. => if (if u then a.ult b else a.slt b) then b else a
  | _ => 0

/-- Whether A cond B holds on words of n bits (R305). -/
def condWord {n : Nat} (u : Bool) (k : Cond) (a b : BitVec n) : Bool :=
  match k with
  | .eq => a == b
  | .ne => a != b
  | .lt => if u then a.ult b else a.slt b
  | .le => if u then a.ule b else a.sle b
  | .gt => if u then b.ult a else b.slt a
  | .ge => if u then b.ule a else b.sle a
  | .un => false

/-- The branch target of BR and CALL (R83, R310). -/
def State.target (s : State) : BTarget → DWord
  | .rel off => s.mySeq.pc + 8 * off.signExtend 64
  | .ind cr off => s.pair cr + 8 * off.signExtend 64

/-! Memory as the accesses of a core see it. -/

/-- `s` is `b` but for what a translation does: the marks in the page tables with all that a publication records of them,
the cached translations, the requests to the host, the free values drawn (R195, R196, R199). -/
def xlOnly (b s : State) : Prop :=
  s = { b with mem := s.mem, poison := s.poison, pubs := s.pubs, npub := s.npub, hostDirty := s.hostDirty, tlb := s.tlb,
               ats := s.ats, atsReqs := s.atsReqs, draws := s.draws }

/-- No granule of the `n` bytes at `pa` has been published since the core's last acquire, nor by a closing BAR of its open
superstep, so a load of it has one value (R222, R232). -/
def State.settled (s : State) (pa n : Nat) : Prop :=
  ∀ g, pa / 8 ≤ g → 8 * g < pa + n → pubsOf g s.me.acq s.npub s.pubs = [] ∧ s.heldBack s.cur g = none

/-- An access of class `ac` is performed as it issues: it is not put off, and no access issued before it that it is ordered
after has been (R223, log 76). -/
abbrev State.prompt (s : State) (ac : Nat) : Prop := s.defers ac = false ∧ s.mySeq.behindLate ac = false

/-- The byte at physical address `x` with the core's own buffered byte over it, and whether it is poisoned (R173, R282). -/
def State.sees (s : State) (x : Nat) : RByte :=
  match s.me.buffered x with
  | some p => (p.val, p.poison)
  | none => (s.byte x, Store.get false s.poison (x / 8))

/-- Of the dies nothing changes but the records of the requests for lines (R175). -/
def State.linesOnly (s t : State) : Prop := ∀ d, t.die d = { s.die d with lines := (t.die d).lines }

/-- What a load leaves behind besides its result: what its translation did (R195, R196), what the core has now seen of the
granules (R222), the lines of its L1 and the record of its request (R171, R175), and whether its block has read outside its
parameters (R262). -/
def State.loadOnly (s t : State) : Prop :=
  t = { s with mem := t.mem, poison := t.poison, pubs := t.pubs, npub := t.npub, tlb := t.tlb, ats := t.ats,
               atsReqs := t.atsReqs, draws := t.draws, cores := t.cores, dies := t.dies } ∧
  (∀ n, n ≠ s.cur → t.core n = s.core n) ∧ s.linesOnly t ∧
  t.me = { s.me with seen := t.me.seen, cur := t.me.cur, l1 := t.me.l1 }

/-- An access of class `ac` has issued and is put off: its work is left in `t`, and no register is written (R223). -/
def State.putsOff (s : State) (c : Ctl) (ac : Nat) (ws : List LateWork) (r : State) (k : Core) (t : State) : Prop :=
  s.retires c [] { r with nextId := r.nextId + 1 } k
    { s.mySeq.onward with late := s.mySeq.late ++ ws.map fun w => ⟨r.nextId, ac, w⟩ } t ∧ ∀ g, t.g g = s.g g

/-- Entry `n` of the accesses that the sequencer performs late has been performed, from `s` in `t`: it is gone; outside the core
`t` is `r`; the core is `k`; of its scalar registers those in `ds` alone are written; a signal that waited for the access may
have followed it (R223, R229). -/
def State.performs (s : State) (n : Nat) (ds : List Nat) (r : State) (k : Core) (t : State) : Prop :=
  t = { r with cores := t.cores } ∧ (∀ m, m ≠ s.cur → t.core m = r.core m) ∧
  (∀ q, q ≠ s.curSeq → t.me.seq q = k.seq q) ∧ s.bankOnly ds t ∧
  t.me = { k with l := t.me.l, x := t.me.x, s := t.me.s, c := t.me.c, pg := t.me.pg, pgPoison := t.me.pgPoison,
                  tokq := t.me.tokq, event := t.me.event } ∧
  t.mySeq = { s.mySeq with late := s.mySeq.late.eraseIdx n, g := t.mySeq.g, gPoison := t.mySeq.gPoison,
                           sigq := t.mySeq.sigq }

/-- Entry `n` of the accesses that the sequencer performs late is `w` of class `ac`, it may be performed now, and no trap waits
for it. -/
abbrev State.lateTurn (s : State) (n ac : Nat) (w : LateWork) : Prop :=
  (s.mySeq.late[n]?).map (fun e => (e.ac, e.work)) = some (ac, w) ∧ mayPerform s.mySeq.late n = true ∧ s.me.trapping = none

/-- The alias class of a scalar memory instruction (R223). -/
def aliasOf : Instr → Nat
  | .ld _ m | .ldZeroExtending _ m | .st _ m => m.ac
  | .aadd _ a | .amin _ a | .aminUnsigned _ a | .amax _ a | .amaxUnsigned _ a | .aand _ a | .aor _ a | .axchg _ a
  | .acas _ a | .afadd _ _ _ a => a.ac
  | _ => 0

/-- A loaded value of a size in its register: 8 bytes as they are, fewer extended to 32 bits (R82, R321). -/
def extended (sz : MSize) (sx : Bool) (v : Nat) : Nat :=
  match sz with
  | .b1 => if sx then ((BitVec.ofNat 8 v).signExtend 32).toNat else v
  | .b2 => if sx then ((BitVec.ofNat 16 v).signExtend 32).toNat else v
  | _ => v

/-! The atomics (R178, R179, R298, R299). -/

/-- The integer atomics: bytes, fields, and whether there is a compare value. -/
def atomFields : Instr → Option (Ctl × AtomF × Bool)
  | .aadd c a | .amin c a | .aminUnsigned c a | .amax c a | .amaxUnsigned c a | .aand c a | .aor c a
  | .axchg c a => some (c, a, false)
  | .acas c a => some (c, a, true)
  | _ => none

/-- The new value of an integer atomic on words of n bits: `old` in memory, the operand `x`, the compare value `k`. -/
def atomWord {n : Nat} (i : Instr) (old x k : BitVec n) : BitVec n :=
  match i with
  | .aadd .. => old + x
  | .amin .. => if x.slt old then x else old
  | .aminUnsigned .. => if x.ult old then x else old
  | .amax .. => if old.slt x then x else old
  | .amaxUnsigned .. => if old.ult x then x else old
  | .aand .. => old &&& x
  | .aor .. => old ||| x
  | .axchg .. => x
  | .acas .. => if old = k then x else old
  | _ => old

/-- An atomic of `n` bytes at `pa` has left `new` there. On the device: in memory and nowhere else. A request to the host: in host
memory, one AtomicOp request with the operands has been sent, and the device's view of the granule follows host memory but for
the bytes that it has still to send (R178, R180). -/
def State.atomicLeaves (s : State) (i : Instr) (pa n x k new : Nat) (t : State) : Prop :=
  if toHost i pa = true then
    t.pcie = s.pcie ++ [.atomicOp i (pa - hostBase) n x k] ∧ t.hostRd pa n = new ∧
    (∀ a, a < pa ∨ pa + n ≤ a → t.hostByte a = s.hostByte a) ∧ t.hostDirty = s.hostDirty ∧
    ∀ a, t.byte a = if a / 8 = pa / 8 ∧ Store.get false s.hostDirty a = false then t.hostByte a else s.byte a
  else
    t.pcie = s.pcie ∧ t.hostMem = s.hostMem ∧ t.rd pa n = new ∧
    (∀ a, a < pa ∨ pa + n ≤ a → t.byte a = s.byte a ∧ Store.get false t.hostDirty a = Store.get false s.hostDirty a) ∧
    ∀ a, pa ≤ a → a < pa + n → Store.get false t.hostDirty a = (decide (hostBase ≤ pa) || Store.get false s.hostDirty a)

/-- What an atomic may change outside its core's registers: memory, host memory, what is sent, and the records of requests for
lines (R171, R175, R178, R180). -/
def State.atomicOver (s t : State) : State :=
  { s with mem := t.mem, poison := t.poison, pubs := t.pubs, npub := t.npub, dies := t.dies, hostMem := t.hostMem,
           hostDirty := t.hostDirty, pcie := t.pcie }

/-- The address operand of a memory instruction: the base pair plus the signed offset, modulo 2^64 (R82). -/
def State.address {n : Nat} (s : State) (bp : Nat) (off : BitVec n) : Nat :=
  (s.pair (2 * bp) + off.signExtend 64).toNat

/-! Vector registers by position 64·i + j (R89). -/

/-- The element of type `t` at position `p` of Vn: for a 64-bit type the column pair that begins there (R89, R355). -/
def Core.elem (k : Core) (t : Ty) (n p : Nat) : Nat :=
  let w (q : Nat) : Nat := ((k.vget n).getD q 0).toNat
  if t.is64 then w p + w (p + 1) * 2 ^ 32 else w p % 2 ^ t.bits

/-- Whether the element is poisoned (R282). -/
def Core.elemPoison (k : Core) (wide : Bool) (n p : Nat) : Bool :=
  (k.vpo n).testBit p || (wide && (k.vpo n).testBit (p + 1))

/-- Where the lane of position `p` begins. -/
def laneOf (wide : Bool) (p : Nat) : Nat := if wide then p / 2 * 2 else p

/-- The generator word of position `p`: under SR its row's, one step of converter 0 for each row, rotated left by its
column (R128, R355). -/
def State.posWord (s : State) (rm : Rm) (p : Nat) : Nat :=
  if rm = .sr then rotl32 (xorshift^[p / 64 + 1] (s.genOf s.cur 0)) (p % 64) else 0

/-- The generators after an instruction that has stepped converter `conv` `n` times (R128). -/
def State.stepped (s : State) (conv n : Nat) (u : State) : Prop :=
  ∀ j, u.genOf s.cur j = if j = conv then xorshift^[n] (s.genOf s.cur j) else s.genOf s.cur j

/-- The elements of Vd that `gov` governs have become `val` of their lane, with poison `po`; the others, and every other
register, are as they were (R89, R282). -/
def State.writesLanes (s : State) (wide : Bool) (vd gov : Nat) (val : Nat → Nat) (po : Nat → Bool) (u : State) : Prop :=
  (∀ n, n ≠ vd → u.me.vget n = s.me.vget n ∧ u.me.vpo n = s.me.vpo n) ∧
  ∀ p, p < 1024 →
    (u.me.vget vd).getD p 0 = (if gov.testBit (laneOf wide p) then
        BitVec.ofNat 32 (if wide && p % 2 == 1 then val (laneOf wide p) / 2 ^ 32 else val (laneOf wide p))
      else (s.me.vget vd).getD p 0) ∧
    (u.me.vpo vd).testBit p = (if gov.testBit (laneOf wide p) then po p else (s.me.vpo vd).testBit p)

/-- A flag is set after, when it was set before or some governed lane raises it (R134). -/
def State.raises (s : State) (wide : Bool) (gov : Nat) (fl : Nat → Flags) (u : State) : Prop :=
  ∀ i, u.mySeq.fstat.getLsbD i = true ↔ s.mySeq.fstat.getLsbD i = true ∨
    ∃ p, p < 1024 ∧ laneOf wide p = p ∧ gov.testBit p = true ∧ (fl p).getLsbD i = true

/-- The frame of a vector instruction: the vector registers, the generators and the flags apart, nothing changes. -/
def State.vectorOnly (s : State) (c : Ctl) (u : State) : Prop :=
  s.retires c [] s { s.me with v := u.me.v, vPoison := u.me.vPoison, gens := u.me.gens }
    { s.mySeq.onward with fstat := u.mySeq.fstat } u ∧ ∀ n, u.g n = s.g n

/-- The frame of an instruction that writes predicates alone. -/
def State.predOnly (s : State) (c : Ctl) (u : State) : Prop :=
  s.retires c [] s { s.me with p := u.me.p } s.mySeq.onward u ∧ ∀ n, u.g n = s.g n

/-- Bit `i` of the governed positions of Pd has become `b i`, the rest and every other predicate stay; P0 reads all ones
(R89, R334). -/
def State.writesPred (s : State) (pd gov : Nat) (b : Nat → Bool) (u : State) : Prop :=
  ∀ n, n < 16 → ∀ i, i < 1024 → (u.me.pget n).testBit i =
    if n = pd ∧ n ≠ 0 ∧ gov.testBit i = true then b i else (s.me.pget n).testBit i

/-- An elementwise vector instruction: bytes, type, rounding, Vd, up to three sources, governing predicate, and the result
of a lane from its generator word and the sources' patterns. -/
structure VecRow where
  c : Ctl
  ty : Ty
  rm : Rm
  vd : RReg
  va : RReg
  vb : RReg
  vc : RReg
  pr : RReg
  f : Nat → Nat → Nat → Nat → Nat × Flags

/-- An integer operation as R363 words it: the exact result wrapped to the type's width, or clamped to its range. -/
def fitInt (t : Ty) (sat : Bool) (x : Int) : Nat × Flags :=
  ((if sat then max t.range.1 (min x t.range.2) else x).emod (2 ^ t.bits) |>.toNat, 0)

/-- The row of a three-operand form and of a two-operand form. -/
def vrow3 (c : Ctl) (rm : Rm) (f : VF) (g : Nat → Nat → Nat → Nat × Flags) : Option VecRow :=
  some ⟨c, f.ty, rm, f.vd, f.va, f.vb, f.va, f.pr, fun r a b _ => g r a b⟩
def vrow2 (c : Ctl) (rm : Rm) (f : VF2) (g : Nat → Nat → Nat × Flags) : Option VecRow :=
  some ⟨c, f.ty, rm, f.vd, f.va, f.va, f.va, f.pr, fun r a _ _ => g r a⟩

/-- The elementwise instructions (R362, R363, R365, R375, R380, R384): exact values, rounded once. -/
def vecRow : Instr → Option VecRow
  | .vadd c rm sat f => vrow3 c rm f fun r a b =>
    if f.ty.isFloat then f.ty.round rm r ((f.ty.val a).add (rm == .rdn) (f.ty.val b))
    else fitInt f.ty sat (f.ty.int a + f.ty.int b)
  | .vsub c rm sat f => vrow3 c rm f fun r a b =>
    if f.ty.isFloat then f.ty.round rm r ((f.ty.val a).add (rm == .rdn) (f.ty.val b).neg)
    else fitInt f.ty sat (f.ty.int a - f.ty.int b)
  | .vmul c rm sat f => vrow3 c rm f fun r a b =>
    if f.ty.isFloat then f.ty.round rm r ((f.ty.val a).mul (f.ty.val b)) else fitInt f.ty sat (f.ty.int a * f.ty.int b)
  | .vfma c rm f vc => some ⟨c, f.ty, rm, f.vd, f.va, f.vb, vc, f.pr, fun r a b d =>
    f.ty.round rm r (Val.fma (rm == .rdn) (f.ty.val a) (f.ty.val b) (f.ty.val d))⟩
  | .vmin c f => vrow3 c .rne f fun _ a b =>
    if f.ty.isFloat then f.ty.round .rne 0 (Val.minmax false (f.ty.val a) (f.ty.val b))
    else fitInt f.ty false (min (f.ty.int a) (f.ty.int b))
  | .vmax c f => vrow3 c .rne f fun _ a b =>
    if f.ty.isFloat then f.ty.round .rne 0 (Val.minmax true (f.ty.val a) (f.ty.val b))
    else fitInt f.ty false (max (f.ty.int a) (f.ty.int b))
  | .vabs c rm sat f => vrow2 c rm f fun _ a =>
    if f.ty.isFloat then ((f.ty.ffmt.encode .rne 0 (f.ty.val a).abs).1, 0) else fitInt f.ty sat |f.ty.int a|
  | .vneg c rm sat f => vrow2 c rm f fun _ a =>
    if f.ty.isFloat then ((f.ty.ffmt.encode .rne 0 (f.ty.val a).neg).1, 0) else fitInt f.ty sat (-f.ty.int a)
  | .vand c f => vrow3 c .rne f fun _ a b => (a &&& b, 0)
  | .vor c f => vrow3 c .rne f fun _ a b => (a ||| b, 0)
  | .vxor c f => vrow3 c .rne f fun _ a b => (a ^^^ b, 0)
  | .vshl c f => vrow3 c .rne f fun _ a b => ((a <<< (b % f.ty.bits)) % 2 ^ f.ty.bits, 0)
  | .vshr c f => vrow3 c .rne f fun _ a b => (a >>> (b % f.ty.bits), 0)
  | .vsra c f => vrow3 c .rne f fun _ a b =>
    ((BitVec.ofNat f.ty.bits a).sshiftRight (b % f.ty.bits) |>.toNat, 0)
  | .vmov c f => vrow2 c .rne f fun _ a => (a, 0)
  | .vexp c f => vrow2 c .rne f fun _ a => TFun.finish f.ty (Config.pickUp 0 a) (TFun.eval .exp (f.ty.val a))
  | .vlog c f => vrow2 c .rne f fun _ a => TFun.finish f.ty (Config.pickUp 1 a) (TFun.eval .log (f.ty.val a))
  | .vrcp c f => vrow2 c .rne f fun _ a => TFun.finish f.ty (Config.pickUp 2 a) (TFun.eval .rcp (f.ty.val a))
  | .vrsq c f => vrow2 c .rne f fun _ a => TFun.finish f.ty (Config.pickUp 3 a) (TFun.eval .rsq (f.ty.val a))
  | .vtanh c f => vrow2 c .rne f fun _ a => TFun.finish f.ty (Config.pickUp 4 a) (TFun.eval .tanh (f.ty.val a))
  | .verf c f => vrow2 c .rne f fun _ a => TFun.finish f.ty (Config.pickUp 5 a) (TFun.eval .erf (f.ty.val a))
  | _ => none

/-- The axis moves (R366, R385): bytes, fields, and the row and column that element (i, j) comes from. -/
def moveRow : Instr → Option (Ctl × VF2 × (Nat → Nat → Nat × Nat))
  | .vrrot c n f => some (c, f, fun i j => ((i + n) % 16, j))
  | .vrbc c n f => some (c, f, fun _ j => (n, j))
  | .vcrot c n f => some (c, f, fun i j => (i, (j + n) % (if f.ty.is64 then 32 else 64)))
  | .vcbc c n f => some (c, f, fun i _ => (i, n))
  | .vtrn16 c f => some (c, f, fun i j => (j % 16, j / 16 * 16 + i))
  | _ => none

/-- Every byte of memory reads as before. -/
def State.memKept (s t : State) : Prop := (∀ a, t.byte a = s.byte a) ∧ t.poison = s.poison ∧ t.pubs = s.pubs

/-! Issue (R22 to R24, R79, R103, R282). -/

/-- The wait and signal bytes of an instruction word; an event has none (R77). -/
def ctlOf : Instr → Ctl
  | .nop c | .add c .. | .sub c .. | .and c .. | .or c .. | .xor c .. | .shl c .. | .shr c .. | .sra c ..
  | .mul c .. | .mulh c .. | .div c .. | .rem c .. | .min c .. | .max c .. | .cmp c .. | .sel c .. | .clz c ..
  | .popc c .. | .movi c .. | .moviHi c .. | .addi c .. | .addp c .. | .br c .. | .bz c .. | .bnz c .. | .call c ..
  | .ret c | .loop c .. | .looph c .. | .loopt c .. | .ld c .. | .ldZeroExtending c .. | .st c .. | .aadd c ..
  | .amin c .. | .aminUnsigned c .. | .amax c .. | .amaxUnsigned c .. | .aand c .. | .aor c .. | .axchg c ..
  | .acas c .. | .afadd c .. | .vadd c .. | .vsub c .. | .vmul c .. | .vfma c .. | .vmin c .. | .vmax c ..
  | .vabs c .. | .vneg c .. | .vand c .. | .vor c .. | .vxor c .. | .vshl c .. | .vshr c .. | .vsra c ..
  | .vcmp c .. | .vsel c .. | .vcvt c .. | .vmov c .. | .vmovi c .. | .vget c .. | .vput c .. | .vexp c ..
  | .vlog c .. | .vrcp c .. | .vrsq c .. | .vtanh c .. | .verf c .. | .vrrot c .. | .vrbc c .. | .vrred c ..
  | .vcrot c .. | .vcbc c .. | .vcred c .. | .vtrn16 c .. | .vamax c .. | .vqnt c .. | .vdqnt c .. | .vld c ..
  | .vst c .. | .vldm c .. | .vstm c .. | .voptw c .. | .pand c .. | .por c .. | .pnot c .. | .pset c ..
  | .mldb c .. | .mma c .. | .mscfg c .. | .msamp c .. | .accz c .. | .accrd c .. | .accwr c .. | .accq c ..
  | .accst c .. | .accld c .. | .strcfg c .. | .strset c .. | .strld c .. | .strst c .. | .stradv c ..
  | .tilereq c .. | .pgreq c .. | .cpy c .. | .cpyr c .. | .stash c .. | .stfetch c .. | .stdrop c .. | .chsend c ..
  | .chrecv c .. | .chrel c .. | .coll c .. | .prst c .. | .tqpop c .. | .tqpush c .. | .tarm c .. | .tdone c ..
  | .ttrig c | .mbpost c .. | .pennLoad c .. | .pennStart c .. | .pennStop c .. | .pennUnload c .. | .pennStat c ..
  | .relaunch c .. | .traceAdd c .. | .tracePath c .. | .vernew c .. | .verpin c .. | .verdrop c .. | .phase c ..
  | .fence c .. | .bar c .. | .icinv c | .sysr c .. | .sysw c .. | .xlinv c .. | .trap c .. | .eret c | .sleep c .. => c
  | _ => ⟨0, 0, 0, 0⟩

/-- The decode trap of a word that its sequencer accepts, with its EVA: a privileged instruction or register in user mode,
a reserved format code, a reserved scope (R103 steps 4 to 6). -/
def decodeTrap (i : Instr) (s : State) : Option (Nat × Nat) :=
  let priv : Option (Nat × Nat) := if s.me.onPriv s.curSeq then none else some (cPRIV, encode i)
  let fmt (f : Nat) : Option (Nat × Nat) := if f < 24 then none else some (cFMT, f)
  let scope (sc : Nat) : Option (Nat × Nat) := if sc < 12 then none else some (cSCOPE, sc)
  match i with
  | .eret .. | .xlinv .. => priv
  | .sysr _ _ num _ | .sysw _ _ num _ => if num ∈ [0x030, 0x031, 0x032, 0x033, 0x040] then priv else none
  | .vqnt _ f .. | .vdqnt _ f .. => fmt f
  | .accrd _ _ _ _ (some f) _ | .accwr _ _ (some f) _ | .accq _ _ _ _ _ (some f) _ => fmt f
  | .aadd _ a | .amin _ a | .aminUnsigned _ a | .amax _ a | .amaxUnsigned _ a | .aand _ a | .aor _ a | .axchg _ a
  | .acas _ a | .afadd _ _ _ a => scope a.scope
  | .cpy _ e | .cpyr _ e | .stash _ e | .stfetch _ e | .stdrop _ e | .chsend _ e | .chrecv _ e | .chrel _ e
  | .coll _ e | .prst _ e => if e.acq || e.rel then scope e.scope else none
  | .phase _ sc .. | .bar _ sc .. => scope sc
  | _ => none

/-- The queue that a sequencer's wait byte names, or its signal byte: the number of the ordered pair (R21, R273). -/
def waitQueue (q : SeqId) (c : Ctl) : Option Nat :=
  if 1 ≤ c.wsel ∧ c.wsel ≤ 3 then some (queueTo (peerOf q c.wsel) q) else none
def signalQueue (q : SeqId) (c : Ctl) : Option Nat := if 1 ≤ c.ssel ∧ c.ssel ≤ 3 then some (queueNo q c.ssel) else none

/-- The memory access of a scalar load, store or atomic: the registers it reads, its kind, address and size. -/
def memAccess (i : Instr) (s : State) : Option (List Nat × Acc × Nat × Nat) :=
  match i with
  | .ld _ m | .ldZeroExtending _ m => some (baseRegs m.bp, .load, s.address m.bp m.off, sizeBytes m.sz)
  | .st _ m => some (baseRegs m.bp ++ srcRegs (m.sz == .b8) [m.rd], .store, s.address m.bp m.off, sizeBytes m.sz)
  | .aadd _ a | .amin _ a | .aminUnsigned _ a | .amax _ a | .amaxUnsigned _ a | .aand _ a | .aor _ a | .axchg _ a =>
    some (baseRegs a.bp ++ srcRegs a.w64 [a.rd], .atomic, s.address a.bp a.off, if a.w64 then 8 else 4)
  | .acas _ a =>
    some (baseRegs a.bp ++ srcRegs a.w64 [a.rd, a.rd + (if a.w64 then 2 else 1)], .atomic, s.address a.bp a.off,
      if a.w64 then 8 else 4)
  | .afadd _ bf16 _ a => some (baseRegs a.bp ++ [a.rd], .atomic, s.address a.bp a.off, if bf16 then 2 else 4)
  | _ => none

/-! Traps (R269 to R277). -/

/-- No sequencer of core `c` waits in a BAR, which a trap would withdraw (R231), and its C-seq is not in a SLEEP that has
issued, which a trap would retire (R339). -/
def State.plainWaits (s : State) (c : Nat) : Prop :=
  ∀ q w, ((s.core c).seq q).wait = some w → (∀ ctl sc a r rd ra t, w.i ≠ .bar ctl sc a r rd ra t) ∧
    ∀ ctl ra, w.i = .sleep ctl ra → w.counted = true

/-- A sequencer as a first trap holds it (R272). -/
def Seq.stopped (x : Seq) : Seq := { x with rpc := x.pc, held := !x.parked, wait := none }

/-- `t` is `s` but for core `c`, which is `k`, and for its counters of stalled clocks (R191). -/
def State.onlyCore (s : State) (c : Nat) (k : Core) (t : State) : Prop :=
  t = { s with cores := t.cores } ∧ (∀ n, n ≠ c → t.core n = s.core n) ∧ t.core c = { k with hots := (t.core c).hots }

/-- The state after HELD of the current block's task has been brought up to date, when a block is current (R45). -/
def State.heldTold (s : State) (c : Nat) (b : Option Block) (t : State) : Prop :=
  match b with
  | none => t = s
  | some b => syncHeld (dieOfCore c) b s = .ok () t

/-! The Product Array and the accumulator store (R138 to R164). -/

/-- The generator word of position `p` from converter `conv` (R128). -/
def State.convWord (s : State) (conv : Nat) (rm : Rm) (p : Nat) : Nat :=
  if rm = .sr then rotl32 (xorshift^[p / 64 + 1] (s.genOf s.cur conv)) (p % 64) else 0

/-- The first bit of operand element (i, k) under the effective TR (R139). -/
def Stream.cellBit (x : Stream) (b : Nat) (tr : Bool) (i k : Nat) : Nat :=
  if tr then x.localBit b k i else x.localBit b i k

/-- A stream can be read as an operand of `ni` × `nk` elements with the scales of `rows` rows of `n`: KIND 00b, a format
that is no less than a byte when transposed, rows that begin on bytes, and nothing beyond the local store (R92, R126,
R139, R165). -/
def Stream.readable (x : Stream) (tr : Bool) (ni nk rows n : Nat) : Prop :=
  let b := fmtBits x.fmt
  x.kind = 0 ∧ x.fmt < 24 ∧ (tr = true → 8 ≤ b) ∧ (tr = false → x.localBit b 0 0 % 8 = 0) ∧
  (∀ i k, i < ni → k < nk → x.cellBit b tr i k + b ≤ 8 * lsSize) ∧
  (x.smode = 1 ∨ x.smode = 2 → ∀ r j, r < rows → j * x.sbl < n → x.scaleLoc + x.sstr * r + j < lsSize)

/-- The pattern of element B[i][n] that a panel holds (R141). -/
def Panel.element (p : Panel) (i n : Nat) : Nat :=
  fieldOf (imgBig p.img) (8 * patBase + (64 * i + n) * fmtBits p.code) (fmtBits p.code)

/-- The integer that a pattern of an integer-class format stands for (R118). -/
def fmtInteger (c p : Nat) : Int :=
  match c with
  | 16 => (BitVec.ofNat 16 p).toInt
  | 17 => (BitVec.ofNat 8 p).toInt
  | 18 => (p % 256 : Nat)
  | 19 => (BitVec.ofNat 4 p).toInt
  | 20 => (p % 16 : Nat)
  | 21 => (BitVec.ofNat 2 p).toInt
  | 22 => if p % 4 = 1 then 1 else if p % 4 = 3 then -1 else 0
  | _ => if p % 2 = 1 then -1 else 1

/-- The frame of an instruction that writes tiles: the accumulator store, its owners and the flags apart, nothing of the
core changes but what `k` says. -/
def State.tileOnly (s : State) (c : Ctl) (ds : List Nat) (k : Core) (t : State) : Prop :=
  s.retires c ds s { k with acc := t.me.acc, accPoison := t.me.accPoison, accOwner := t.me.accOwner }
    { s.mySeq.onward with fstat := t.mySeq.fstat } t

/-- Tile `n` holds `val` with poison `po` and belongs to the core's context; every other tile is as it was (R152). -/
def State.setsTile (s : State) (n : Nat) (val : Nat → Nat) (po : Nat → Bool) (t : State) : Prop :=
  (∀ m, m ≠ n → t.me.tile m = s.me.tile m ∧ t.me.tilePoison m = s.me.tilePoison m ∧ t.me.tileOwner m = s.me.tileOwner m) ∧
  t.me.tileOwner n = s.me.ctx.toNat ∧
  ∀ p, p < 1024 → (t.me.tile n).getD p 0 = BitVec.ofNat 32 (val p) ∧ (t.me.tilePoison n).testBit p = po p

/-- A flag is set after, when it was set before or `fl` raises it. -/
def State.flagged (s : State) (fl : Nat → Prop) (t : State) : Prop :=
  ∀ i, t.mySeq.fstat.getLsbD i = true ↔ s.mySeq.fstat.getLsbD i = true ∨ fl i

/-- Two runs of bits without a common bit. -/
def apart (a b : Nat × Nat) : Prop := a.1 + a.2 ≤ b.1 ∨ b.1 + b.2 ≤ a.1

/-- A column of a panel at its own depth, and its flags (R141, R143). -/
def Panel.line (p : Panel) (n : Nat) : Lined × Flags := p.column (imgBig p.img) (fmtK p.code) n

/-- The norm entry of index `i` of a panel, from its elements and scales (R141). -/
def Panel.norm (p : Panel) (i : Nat) : Val :=
  sumSquares ((List.range 64).map fun j => (p.line j).1.vals.getD i (.zero false))

/-- The norm of index `i` of a sampled product (R158): column `i` of A over its 16 rows, row `i` of B over its 64 columns,
`kk` indices in each panel. -/
def Core.sampleNorm (k : Core) (x : Stream) (tr : Bool) (kk n i : Nat) : Val :=
  normOf (sumSquares ((List.range 16).map fun r => ((k.rowA x tr n r).1.vals).getD i (.zero false)))
    ((k.panel (i / kk)).norm (i % kk))

/-- Z, the sum of the norms (R158). -/
def Core.sampleZ (k : Core) (x : Stream) (tr : Bool) (kk n : Nat) : Val :=
  (rne32 (((List.range n).map (k.sampleNorm x tr kk n)).foldl (fun (p : Val × Flags) v => p.1.add false v) (.zero false, 0))).1

/-! Engine commands (R114, R210, R238). -/

/-- The instructions that issue an engine command: bytes, kind, OP, fields, and what RD takes at issue, if anything. -/
def engRow : Instr → Option (Ctl × CmdKind × Nat × EngF × (Cmd → Op (Option Nat)))
  | .cpy c e => some (c, .cpy, 0x90, e, fun _ => pure (some 0))
  | .cpyr c e => some (c, .cpyr, 0x91, e, fun _ => pure (some 0))
  | .stash c e => some (c, .stash, 0x92, e, fun k => pure (some (k.g2.toNat + 1 - k.g1.toNat)))
  | .stfetch c e => some (c, .stfetch, 0x93, e, rdEntries)
  | .stdrop c e => some (c, .stdrop, 0x94, e, rdEntries)
  | .chsend c e => some (c, .chsend, 0x95, e, rdWindow)
  | .chrecv c e => some (c, .chrecv, 0x96, e, fun _ => pure (some 0))
  | .chrel c e => some (c, .chrel, 0x97, e, rdRelease)
  | .coll c e => some (c, .coll, 0x98, e, fun _ => pure none)
  | .prst c e => some (c, .prst, 0x99, e, fun _ => pure none)
  | .tilereq c grp ctr buf rd w hb => some (c, .tilereq w hb, 0x85, ⟨grp, ctr, false, false, 0, buf, rd⟩, rdTiles)
  | .pgreq c grp ctr buf rd w => some (c, .pgreq w, 0x86, ⟨grp, ctr, false, false, 0, buf, rd⟩, rdPages)
  | _ => none

/-- The state after the versions and tiles that an STRST needs are writable; a load needs none (R211, R212). -/
def Xfer.made (x : Xfer) (c : Nat) (m : MemSide) (s t : State) : Prop :=
  match m with
  | .tiles d _ ts => if x.load then t = s else ∃ l, x.cow c d ts s = .ok (some l) t
  | .pages _ => t = s

/-! Tasks, stages and versions. -/

/-- The instruction has done its work, which left `u`, put `v` in RD and gone on. -/
def State.gives (s : State) (c : Ctl) (rd v : Nat) (u t : State) : Prop :=
  s.retires c [rd] u u.me u.mySeq.onward t ∧ s.putsScalar false rd v t

/-- The mailbox messages of work that leads from `s` to `u` find room, so the instruction need not wait for it (R290). -/
def State.mailFits (s u : State) : Prop :=
  (u.die s.myDie).mail.length ≤ (s.die s.myDie).mail.length ∨ (s.die s.myDie).mailIdle = true

/-- An instruction whose work leads to `u` and may post messages: where they find room it does what `done` says, else it waits
with none of its effect (R280, R290). -/
def State.toPost (s : State) (i : Instr) (u : State) (done : Prop) : Prop :=
  (s.mailFits u → done) ∧
  (¬ s.mailFits u → ∃ w : State, exec i s = .next (w.waitFor i false) ∧ w.tasks = s.tasks ∧ w.cores = s.cores ∧ w.mem = s.mem)

/-- The checks of R35 on the 16 words `w` of a TCB, the 32 of its descriptor `k` and the core set `cs`, for `n` blocks: DIE, the
addresses, the descriptor (R26, R27), the Res0 bits of the TCB (R32), the rectangle within its bounds and with one D level at
most, the block count, no Postmaster core, and a program core on every die that has blocks. -/
def insertSound (w k : List Nat) (cs n : Nat) : Prop :=
  let tw (j : Nat) : Nat := w.getD j 0
  let kw (j : Nat) : Nat := k.getD j 0
  let bits (v at_ len : Nat) : Nat := v / 2 ^ at_ % 2 ^ len
  let nlev := bits (kw 10) 0 3
  let kind (j : Nat) : Nat := bits (kw (4 + j)) 0 2
  let org (j : Nat) : Nat := bits (tw (4 + j / 2)) (32 * (j % 2)) 24
  let ext (j : Nat) : Nat := bits (tw (7 + j / 2)) (32 * (j % 2)) 24
  let bound (j : Nat) : Nat := bits (kw (4 + j)) 8 24
  let die := bits (tw 1) 56 2
  die ≤ 1 ∧ tw 0 % 256 = 0 ∧ tw 3 % 64 = 0 ∧
  nlev ≤ 6 ∧ bits (kw 10) 4 60 = 0 ∧ (∀ j, 11 ≤ j → kw j = 0) ∧ (∀ j, j < 4 → kw j % 8 = 0) ∧
  (∀ j, j < nlev → kind j ≠ 0 ∧ bits (kw (4 + j)) 2 6 = 0 ∧ bits (kw (4 + j)) 32 32 = 0 ∧ bound j ≠ 0 ∧
    (kind j = 3 → bound j ≤ 2) ∧ 1 ≤ ext j ∧ org j + ext j ≤ bound j ∧
    bits (tw (4 + j / 2)) (32 * (j % 2) + 24) 8 = 0 ∧ bits (tw (7 + j / 2)) (32 * (j % 2) + 24) 8 = 0) ∧
  (∀ i j, i < nlev → j < nlev → kind i = 3 → kind j = 3 → i = j) ∧
  bits (tw 1) 62 2 = 0 ∧ bits (tw 2) 18 6 = 0 ∧ bits (tw 2) 36 28 = 0 ∧ bits (tw 11) 16 16 = 0 ∧ bits (tw 15) 16 16 = 0 ∧
  n ≤ 16777215 ∧ cs.testBit 0 = false ∧ cs.testBit 144 = false ∧
  ∀ d, d < 2 → (∃ j, j < nlev ∧ kind j = 3 ∧ org j ≤ d ∧ d < org j + ext j) ∨ ((∀ j, j < nlev → kind j ≠ 3) ∧ d = die) →
    ∃ c, c < 144 ∧ cs.testBit (144 * d + c) = true

/-- The checks of R51 on the 32 words `w` of the stage descriptor at `va`: alignments, Res0 bits, PLEN 1 to 256, WRAP below it,
queues of 16 to 4,096 records, at most 16 weights (R49, R245). -/
def stageSound (va : Nat) (w : List Nat) : Prop :=
  let sw (j : Nat) : Nat := w.getD j 0
  let bits (j at_ len : Nat) : Nat := sw j / 2 ^ at_ % 2 ^ len
  va % 256 = 0 ∧ sw 0 ≠ 0 ∧ sw 0 % 64 = 0 ∧ bits 1 24 8 = 0 ∧ bits 1 56 8 = 0 ∧ bits 2 25 7 = 0 ∧ bits 2 56 8 = 0 ∧
  sw 3 % 2 = 0 ∧ 1 ≤ bits 4 0 9 ∧ bits 4 0 9 ≤ 256 ∧ bits 4 9 8 < bits 4 0 9 ∧ bits 4 28 36 = 0 ∧
  (∀ j, 5 ≤ j → j ≤ 7 → sw j % 16 = 0) ∧ (∀ j, j < 3 → 4 ≤ bits 8 (4 * j) 4 ∧ bits 8 (4 * j) 4 ≤ 12) ∧ bits 8 12 52 = 0 ∧
  sw 9 % 128 = 0 ∧ bits 10 52 12 = 0 ∧ (∀ j, j < 4 → bits 10 (8 * j + 7) 1 = 0) ∧ bits 11 0 5 ≤ 16 ∧ bits 11 5 59 = 0 ∧
  (∀ j, bits 11 0 5 ≤ j → j < 16 → bits (12 + j / 2) (32 * (j % 2)) 32 = 0) ∧ bits 20 20 44 = 0 ∧ sw 21 % 8 = 0 ∧
  ∀ j, 22 ≤ j → j < 32 → sw j = 0

/-- An entry of a pennant table without a reserved encoding; `wv` when the stage has a W template (R61). -/
def entrySound (wv : Bool) (e : Nat) : Prop :=
  (e % 4 = 1 ∨ e % 4 = 2 ∨ e % 4 = 3 ∧ wv = true) ∧ e / 4 % 64 ≠ 0 ∧ e / 256 % 4 ≠ 3 ∧ e / 8192 % 8 = 0

/-- The first word of a tile table entry after one more version shares its frame: COW set, REFCNT one up, the rest as it was
(R205, R373). -/
def sharedTte (lo lo' : Nat) : Prop := ∀ j, j < 64 →
  lo'.testBit j = if j = 33 then true
    else if 36 ≤ j ∧ j < 44 then ((lo / 2 ^ 36 % 256 + 1) % 256).testBit (j - 36) else lo.testBit j

/-- Where the table of version `k` of a tensor stands, its summary words behind its entries (R202, R206). -/
def TDesc.room (d : TDesc) (k : Nat) : Nat × Nat := (d.table k, 256 * ((d.nt + 15) / 16) + 4 * ((d.nt + 63) / 64))

/-- The accessible tile entry at `a` in memory (R205). -/
def State.heldTile (s : State) (a : Nat) : Prop := s.rd a 8 / 2 ^ 29 % 4 ≤ 1 ∧ s.rd a 8 / 2 ^ 31 % 4 ≤ 1

/-- What G56 to G60 receive when a block starts (R88). -/
def startReg (i : TaskInfo) (b : Nat) (pf : Bool) (old : Nat → Word) (n : Nat) : Word :=
  if n = 56 then BitVec.ofNat 32 i.tag else if n = 57 then BitVec.ofNat 32 i.phase
  else if n = 58 then BitVec.ofNat 32 b else if n = 59 then BitVec.ofNat 32 i.h
  else if n = 60 then (if pf then 1 else 0) else old n

/-- Core `k` has been given block `b` of a task, delivered to its C-seq whose next word is `after`, in `k'` (R29, R30, R40,
R88, R93): the special registers and token queues, and each sequencer with a kernel started at its entry, its call depth 0,
its path signature fresh and its loop origins set. `rd` is the C-seq's register that the TQPOP writes. -/
def Core.delivered (k : Core) (i : TaskInfo) (b stamp : Nat) (pf re : Bool) (after : DWord) (rd : Nat) (k' : Core) : Prop :=
  let e (q : SeqId) : Nat := i.entries.getD q.code 0
  k'.tag = BitVec.ofNat 16 i.tag ∧ k'.phase = BitVec.ofNat 2 i.phase ∧ k'.blk = BitVec.ofNat 24 b ∧
  k'.tcbh = BitVec.ofNat 24 i.h ∧ k'.inHandler = false ∧
  k'.cur = some { info := i, blk := b, stamp := stamp, pf := pf, trig := false, relaunched := re, ranges := [],
                  untr := false, satr := false, fltd := false, after := after } ∧
  (∀ q, (k'.seq q).crc = 0xFFFFFFFF ∧ (k'.seq q).depth = 0 ∧
    ∀ n, n < 6 → Store.get 0 (k'.seq q).li n = BitVec.ofNat 24 (i.li b n)) ∧
  (∀ q, q ≠ .C → (k'.seq q).parked = (e q == 0) ∧ (k'.seq q).wait = none ∧
    (k'.seq q).pc = if e q = 0 then (k.seq q).pc else BitVec.ofNat 64 (e q)) ∧
  k'.c.pc = (if e .C = 0 then after else BitVec.ofNat 64 (e .C)) ∧ k'.c.wait = none ∧
  (∀ q n, q ≠ .C → k'.g q n = if e q = 0 then k.g q n else startReg i b pf (k.g q) n) ∧
  ∀ n, k'.g .C n = if n = rd ∧ n ≠ 0 then (if pf then 3 else 1) else startReg i b pf (k.g .C) n

/-! Synchronisation and the special registers. -/

/-- The buffer's lines stand at whole lines, their bytes at offsets below 128, and no address twice (R173). -/
def Core.psbOk (k : Core) : Prop :=
  (∀ l, l ∈ k.psb → l.pa % 128 = 0 ∧ ∀ b, b ∈ l.bytes → b.off < 128) ∧
  (k.psb.flatMap fun l => l.bytes.map fun b => l.pa + b.off).Nodup

/-- A special register that SYSW writes (R93, R354). -/
def sysWritable (num : Nat) : Bool :=
  (0x008 ≤ num && num ≤ 0x00D) || (0x010 ≤ num && num ≤ 0x014) || num == 0x018 || num == 0x019 ||
    (0x020 ≤ num && num ≤ 0x02F) || num == 0x031 || num == 0x033

/-- A sequencer with the special registers of `y` (R93). -/
def Seq.sysFrom (x y : Seq) : Seq :=
  { x with li := y.li, iter := y.iter, lc := y.lc, ec := y.ec, ringv := y.ringv, ringp := y.ringp, fstat := y.fstat }

/-- `t` is `s` but for one instruction waiting in the sequencer, its wait begun and to be resumed (R214, R231). -/
def State.holding (s : State) (i : Instr) (k : Core) (t : State) : Prop :=
  (∀ n, n ≠ s.cur → t.core n = s.core n) ∧ (∀ q, q ≠ s.curSeq → t.me.seq q = k.seq q) ∧
  t.me = { k with l := t.me.l, x := t.me.x, s := t.me.s, c := t.me.c } ∧
  t.mySeq = { k.seq s.curSeq with wait := some ⟨i, s.clock, true, false, s.clock⟩ }

/-! Events of the dies and the host. -/

/-- `t` is `s` but for die `d`, which is `x`. -/
def State.onlyDie (s : State) (d : Nat) (x : Die) (t : State) : Prop :=
  t = { s with dies := t.dies } ∧ (∀ n, n ≠ d → t.die n = s.die n) ∧ t.die d = x

/-- `t` is `s` but for core `c`, which is `k`. -/
def State.onlyThat (s : State) (c : Nat) (k : Core) (t : State) : Prop :=
  t = { s with cores := t.cores } ∧ (∀ n, n ≠ c → t.core n = s.core n) ∧ t.core c = k

/-- A frame entry of die `d` with the ticks that have fallen since they were last counted; they count from die start-up (R37). -/
def State.older (s : State) (d : Nat) (f : FrameEnt) : FrameEnt :=
  let p := 1750 * 2 ^ (s.die d).agesh.toNat
  let n := if (s.die d).agesh = 15 then 0 else (s.clock - s.start) / p - ((s.die d).lastTick - s.start) / p
  if f.die = d then { f with age := min (f.age + n) 4294967295 } else f

/-- The state in which a command's work begins: with ACQ at HOST or SYSTEM, before its first read, die 0's L2 has dropped its
host-half lines (R234). -/
def State.acquired (s : State) (k : Cmd) : State :=
  if k.acq = true ∧ (k.scope = 10 ∨ k.scope = 11) ∧ k.phase = 0 ∧ k.admitted = false ∧ k.walk.started = false
  then s.dropHostLines else s

/-- `u` is `s` but for the `n` bytes at `a`, which hold `v` (R221). -/
def State.putsAt (s : State) (a n v : Nat) (u : State) : Prop :=
  u = { s with mem := u.mem, poison := u.poison, pubs := u.pubs, npub := u.npub, hostDirty := u.hostDirty } ∧ u.rd a n = v ∧
  ∀ x, x < a ∨ a + n ≤ x → u.byte x = s.byte x

/-- The first word of tile entry `t` has been written with a frame, a tier and a state, in one update (R204, R205). -/
def State.tteMoved (s : State) (t : Tte) (frame tier state : Nat) (u : State) : Prop :=
  ∃ lo, s.putsAt t.addr 8 lo u ∧ ∀ j, j < 64 → lo.testBit j =
    if j < 29 then frame.testBit j else if j < 31 then tier.testBit (j - 29)
    else if j < 33 then state.testBit (j - 31) else t.lo.testBit j

/-- `t` is what the entry of tile `x` in version `v` holds (R204). -/
def State.holdsTte (s : State) (d : TDesc) (v x : Nat) (t : Tte) : Prop :=
  t.addr = d.table v + 16 * x ∧ t.lo = s.rd t.addr 8 ∧ t.hi = s.rd (t.addr + 8) 8

/-- The byte and the place in it of bit `k` of an element in memory (R119). -/
def Spot.bitAt (z : Spot) (k : Nat) : Option (Nat × Nat) :=
  match z with
  | .at_ off pas => (pas[(off % 8 + k) / 8]?).map fun a => (a, (off % 8 + k) % 8)
  | _ => none

/-- One element pair of a reduction, `t` at the destination and `x` from the source: the sum, the greater or the lesser, rounded
once, and its flags; `r` is the generator's word (R128, R244, R253). -/
def reduced (rt ro : Nat) (sr : Bool) (r t x : Nat) : Nat × Flags :=
  let y : Ty := if rt = 0 then .f32 else if rt = 1 then .bf16 else if rt = 2 then .i32 else .i64
  if ro = 0 then
    if y.isFloat then y.round (if sr then .sr else .rne) r ((y.val t).add false (y.val x)) else fitInt y false (y.int t + y.int x)
  else if y.isFloat then y.round .rne 0 (Val.minmax (ro == 1) (y.val t) (y.val x))
  else fitInt y false (if ro = 1 then max (y.int t) (y.int x) else min (y.int t) (y.int x))

/-- The bytes of a reduction element of type `rt`. -/
def redBytes (rt : Nat) : Nat := if rt = 0 then 4 else if rt = 1 then 2 else if rt = 2 then 4 else 8

/-- The number that `n` bytes of the local store at `a` hold. -/
def Core.lsNum (k : Core) (a n : Nat) : Nat := rbytesNat (k.lsBytes a n)

/-- Control registers of a die that hold what is written to them, no other register and no message with it: the offset and
the bits (R285). -/
def plainRegs : List (Nat × Nat) :=
  [(0x9000200, 32), (0x9000300, 41), (0x9000500, 41), (0x9000508, 24), (0x9000518, 41), (0x9000520, 24), (0x9000600, 64),
   (0x9000900, 41), (0x9000908, 1), (0x9000AC8, 32), (0x9000AD0, 32)]

/-- Engine command `k` has completed, from `u`, with a status, its progress and the bytes it moved: it is gone, so its counter
is one lower; a release to HOST or SYSTEM has sent what the device has published there, and a zero-length read; its bytes are counted; the event flag is set for the
C-seq's command; a status other than OK is pending as ENGERR or STASHFULL (R25, R191, R234, R239, R240, R339). -/
def State.ended (u : State) (k : Cmd) (status prog bytes : Nat) (t : State) : Prop :=
  let c := u.core k.core
  let d := t.core k.core
  let out : Prop := k.rel = true ∧ (k.scope = 10 ∨ k.scope = 11)
  t = { u with cores := t.cores, cmds := u.cmds.filter (·.id != k.id), hostMem := t.hostMem, hostDirty := t.hostDirty,
               pcie := t.pcie } ∧
  (out → t.hostMem = u.sendHost.hostMem ∧ t.hostDirty = [] ∧ t.pcie = u.pcie ++ [.zeroRead]) ∧
  (¬ out → t.hostMem = u.hostMem ∧ t.hostDirty = u.hostDirty ∧ t.pcie = u.pcie) ∧
  (∀ n, n ≠ k.core → t.core n = u.core n) ∧
  d = { c with l := d.l, x := d.x, s := d.s, c := d.c, hotb := d.hotb, hots := d.hots,
               event := c.event || k.seq == .C || status % 256 != 0,
               pend := c.pend ++ (if status % 256 = 0 then [] else
                 [⟨k.seq, if status % 256 = 0x0C then cSTASHFULL else cENGERR,
                   status + k.op * 2 ^ 16 + k.ctr * 2 ^ 24 + prog % 2 ^ 32 * 2 ^ 32⟩]) } ∧
  (∀ q, d.seq q = { c.seq q with wait := (d.seq q).wait } ∧ (d.seq q).wait.map (·.i) = (c.seq q).wait.map (·.i)) ∧
  ∀ b, Store.get 0 d.hotb b =
    if b = k.buf then min (2 ^ 64 - 1) (Store.get 0 c.hotb b + bytes) else Store.get 0 c.hotb b

end Sys2Proof.Machine
end

