-- ==== Sys2Proof/Certificates/Slice0/Obligations.lean ====
section
/-! DEFINITION. The statements for the provers. -/

section Statements

open Sys2Proof Sys2Proof.Machine

/-- R305, for the fourteen two-operand members: the result, in RD or in the pair at RD, is that of R305 on the bit
patterns of RA and RB; nothing else changes, G0 discards its half. -/
def Obligations.ScalarTwoOperandResults : Prop :=
  ∀ (i : Instr) (c : Ctl) (w : Bool) (rd ra rb : Nat) (s : State),
    binFields i = some (c, w, rd, ra, rb) → Ready i c (srcRegs w [ra, rb]) s →
    Completes i s fun t => s.scalarOnly c (dstAt w rd) t ∧
      s.putsScalar w rd (if w then (binWord i (s.pair ra) (s.pair rb)).toNat else (binWord i (s.g ra) (s.g rb)).toNat) t

/-- R305, for CMP, SEL, CLZ and POPC: CMP writes 1 or 0 to a single register; SEL takes a when G[RC] is not 0, else b; CLZ
writes the number of leading zero bits, POPC that of 1 bits, the high register of a pair receiving 0. -/
def Obligations.ScalarCompareSelectCount : Prop :=
  (∀ (c : Ctl) (w u : Bool) (k : Cond) (rd ra rb : Nat) (s : State),
    Ready (.cmp c w u k rd ra rb) c (srcRegs w [ra, rb]) s →
    Completes (.cmp c w u k rd ra rb) s fun t => s.scalarOnly c [rd] t ∧
      s.putsScalar false rd (if (if w then condWord u k (s.pair ra) (s.pair rb) else condWord u k (s.g ra) (s.g rb))
        then 1 else 0) t) ∧
  (∀ (c : Ctl) (w : Bool) (rd ra rb rc : Nat) (s : State),
    Ready (.sel c w rd ra rb rc) c (srcRegs w [ra, rb] ++ [rc]) s →
    Completes (.sel c w rd ra rb rc) s fun t => s.scalarOnly c (dstAt w rd) t ∧
      s.putsScalar w rd (if s.g rc = 0 then s.opnd w rb else s.opnd w ra) t) ∧
  (∀ (c : Ctl) (w : Bool) (rd ra : Nat) (s : State),
    Ready (.clz c w rd ra) c (srcRegs w [ra]) s →
    ∃ n, Completes (.clz c w rd ra) s (fun t => s.scalarOnly c (dstAt w rd) t ∧ s.putsScalar w rd n t) ∧
      n ≤ wid w ∧ s.opnd w ra < 2 ^ (wid w - n) ∧ (n < wid w → 2 ^ (wid w - n - 1) ≤ s.opnd w ra)) ∧
  (∀ (c : Ctl) (w : Bool) (rd ra : Nat) (s : State),
    Ready (.popc c w rd ra) c (srcRegs w [ra]) s →
    Completes (.popc c w rd ra) s fun t => s.scalarOnly c (dstAt w rd) t ∧
      s.putsScalar w rd ((List.range 64).countP (s.opnd w ra).testBit) t)

/-- R307, R332: MOVI, MOVI.hi, ADDI and ADDP, and NOP, which writes nothing. -/
def Obligations.ScalarImmediateResults : Prop :=
  (∀ (c : Ctl) (s : State), Ready (.nop c) c [] s →
    Completes (.nop c) s fun t => s.scalarOnly c [] t ∧ ∀ n, t.g n = s.g n) ∧
  (∀ (c : Ctl) (rd : Nat) (imm : BitVec 24) (s : State), Ready (.movi c rd imm) c [] s →
    Completes (.movi c rd imm) s fun t => s.scalarOnly c [rd] t ∧
      ∀ n, t.g n = if n = 0 then 0 else if n = rd then imm.signExtend 32 else s.g n) ∧
  (∀ (c : Ctl) (rd : Nat) (imm : BitVec 16) (s : State), Ready (.moviHi c rd imm) c [rd] s →
    Completes (.moviHi c rd imm) s fun t => s.scalarOnly c [rd] t ∧
      ∀ n, t.g n = if n = 0 then 0 else if n = rd then imm ++ (s.g rd).setWidth 16 else s.g n) ∧
  (∀ (c : Ctl) (rd ra : Nat) (imm : BitVec 24) (s : State), Ready (.addi c rd ra imm) c [ra] s →
    Completes (.addi c rd ra imm) s fun t => s.scalarOnly c [rd] t ∧
      ∀ n, t.g n = if n = 0 then 0 else if n = rd then s.g ra + imm.signExtend 32 else s.g n) ∧
  (∀ (c : Ctl) (rd ra : Nat) (imm : BitVec 24) (s : State), Ready (.addp c rd ra imm) c [ra, ra + 1] s →
    Completes (.addp c rd ra imm) s fun t => s.scalarOnly c [rd, rd + 1] t ∧
      s.putsScalar true rd (s.pair ra + imm.signExtend 64).toNat t)

/-- R310, for BR: a taken branch goes to its target, modulo 2^64, feeds nothing and writes no register; a target that is
no multiple of 8 traps ALIGN with the target in EVA. -/
def Obligations.BranchAlways : Prop :=
  ∀ (c : Ctl) (g : BTarget) (s : State), Ready (.br c g) c (targetSrcs g) s →
    ((s.target g).toNat % 8 = 0 → Completes (.br c g) s fun t =>
      s.retires c [] s s.me (s.mySeq.jumped (s.target g)) t ∧ ∀ n, t.g n = s.g n) ∧
    ((s.target g).toNat % 8 ≠ 0 → exec (.br c g) s = trapHere cALIGN (s.target g).toNat s)

/-- R310, R263, for BZ and BNZ: taken when G[CR] is 0, or is not; either way one bit, taken or not, goes into the path
signature, and no register is written. -/
def Obligations.BranchOnZero : Prop :=
  ∀ (c : Ctl) (cr : Nat) (off : BitVec 32) (s : State) (z : Bool),
    let i := if z then Instr.bz c cr off else Instr.bnz c cr off
    let taken : Bool := (s.g cr == 0) == z
    let y := { s.mySeq with crc := crcBit s.mySeq.crc taken }
    Ready i c [cr] s → Completes i s fun t =>
      s.retires c [] s s.me (if taken then y.jumped (s.target (.rel off)) else y.onward) t ∧ ∀ n, t.g n = s.g n

/-- R312, for CALL: the target comes from the pair as it stands before the link; G62:G63 receive PC + 8; the depth rises
by one, at most to 255. -/
def Obligations.CallLinks : Prop :=
  ∀ (c : Ctl) (g : BTarget) (s : State), Ready (.call c g) c (targetSrcs g) s →
    ((s.target g).toNat % 8 = 0 → Completes (.call c g) s fun t =>
      s.retires c [62, 63] s s.me ({ s.mySeq with depth := min (s.mySeq.depth + 1) 255 }.jumped (s.target g)) t ∧
      s.putsScalar true 62 (s.mySeq.pc + 8).toNat t) ∧
    ((s.target g).toNat % 8 ≠ 0 → exec (.call c g) s = trapHere cALIGN (s.target g).toNat s)

/-- R312, R313, for RET: at a depth above 0, and always on the C-seq, it goes to pair(62) and the depth falls, never below
0; at depth 0 the L-, X- and S-seq park. -/
def Obligations.ReturnOrPark : Prop :=
  ∀ (c : Ctl) (s : State),
    ((0 < s.mySeq.depth ∨ s.curSeq = .C) → Ready (.ret c) c [62, 63] s →
      ((s.pair 62).toNat % 8 = 0 → Completes (.ret c) s fun t =>
        s.retires c [] s s.me ({ s.mySeq with depth := s.mySeq.depth - 1 }.jumped (s.pair 62)) t ∧
        ∀ n, t.g n = s.g n) ∧
      ((s.pair 62).toNat % 8 ≠ 0 → exec (.ret c) s = trapHere cALIGN (s.pair 62).toNat s)) ∧
    (s.mySeq.depth = 0 → s.curSeq ≠ .C → Ready (.ret c) c [] s → Completes (.ret c) s fun t =>
      s.retires c [] s s.me { s.mySeq.onward with parked := true } t ∧ ∀ n, t.g n = s.g n)

/-- R98, R323, for LOOP: with LC above 0, else with EC above 1, it branches, counts down, advances ITER and, on the X-seq,
writes all ones, or all zeros, to the register that P(8 + L − 1) names after ITER has changed; else it falls through. One
bit goes into the path signature. -/
def Obligations.LoopPipelines : Prop :=
  ∀ (c : Ctl) (off : BitVec 32) (s : State), Ready (.loop c off) c [] s →
    let a := s.target (.rel off)
    let back (y : Seq) (v : Nat) (t : State) : Prop :=
      s.retires c [] s (if s.curSeq = .X then s.me.pset (y.preg ⟨8 + stageLen s.mySeq.ringp.toNat - 1, true⟩) v else s.me)
        (y.jumped a) t ∧ ∀ n, t.g n = s.g n
    (s.mySeq.lc ≠ 0 → Completes (.loop c off) s (back
      { s.mySeq with lc := s.mySeq.lc - 1, iter := s.mySeq.iter + 1, crc := crcBit s.mySeq.crc true } allPos)) ∧
    (s.mySeq.lc = 0 → 1 < s.mySeq.ec → Completes (.loop c off) s (back
      { s.mySeq with ec := s.mySeq.ec - 1, iter := s.mySeq.iter + 1, crc := crcBit s.mySeq.crc true } 0)) ∧
    (s.mySeq.lc = 0 → s.mySeq.ec ≤ 1 → Completes (.loop c off) s fun t =>
      s.retires c [] s s.me { s.mySeq with crc := crcBit s.mySeq.crc false }.onward t ∧ ∀ n, t.g n = s.g n)

/-- R97, R324, for LOOPH: valid maps are written with LC and EC, ITER becomes 0, and on the X-seq the stage-predicate ring
is cleared but for P(8 + L − 1), which becomes all ones; an invalid map traps LOOPH with the map in EVA, RINGMAPV first.
Format R, OP 0x26: an odd RD or an FN other than 0 is UNDEF. -/
def Obligations.LoopHeader : Prop :=
  (∀ rd ra rb rc fn : Nat, rd < 64 → ra < 64 → rb < 64 → rc < 64 → fn < 65536 →
    decode (0x26 * 2 ^ 40 + rd * 2 ^ 34 + ra * 2 ^ 28 + rb * 2 ^ 22 + rc * 2 ^ 16 + fn) =
      if rd % 2 = 0 ∧ fn = 0 then .ok (.looph ⟨0, 0, 0, 0⟩ rd ra rb rc) else .undefField) ∧
  ∀ (c : Ctl) (rd ra rb rc : Nat) (s : State), Ready (.looph c rd ra rb rc) c [rd, rd + 1, ra, rb, rc] s →
    let mv := s.pair rd
    let mp := s.g ra
    let l := stageLen mp.toNat
    (ringOk 16 mv.toNat = true → ringOk 8 mp.toNat = true → Completes (.looph c rd ra rb rc) s fun t =>
      s.retires c [] s { s.me with p := t.me.p }
        { s.mySeq with ringv := mv, ringp := mp, lc := s.g rb, ec := s.g rc, iter := 0 }.onward t ∧
      (∀ n, t.g n = s.g n) ∧
      ∀ n, t.me.pget n = if s.curSeq = .X ∧ 8 ≤ n ∧ n < 8 + l then (if n = 8 + l - 1 then allPos else 0)
        else s.me.pget n) ∧
    (ringOk 16 mv.toNat = false → exec (.looph c rd ra rb rc) s = trapHere cLOOPH mv.toNat s) ∧
    (ringOk 16 mv.toNat = true → ringOk 8 mp.toNat = false →
      exec (.looph c rd ra rb rc) s = trapHere cLOOPH mp.toNat s)

/-- R325, for LOOPT: on a temporal level of the current block whose bound LIk + 1 has not reached, LIk counts up and the
sequencer branches; in every other case it falls through with LIk unchanged. One bit goes into the path signature. -/
def Obligations.LoopTemporal : Prop :=
  ∀ (c : Ctl) (k : Nat) (off : BitVec 32) (s : State), Ready (.loopt c k off) c [] s →
    let li := Store.get 0 s.mySeq.li k
    let goes : Prop := ∃ b, s.me.cur = some b ∧ k < b.info.nlev ∧ b.info.kinds.getD k 0 = 1 ∧
      li.toNat + 1 < b.info.origin.getD k 0 + b.info.extent.getD k 0
    (goes → Completes (.loopt c k off) s fun t =>
      s.retires c [] s s.me
        ({ s.mySeq with li := Store.set 0 s.mySeq.li k (li + 1), crc := crcBit s.mySeq.crc true }.jumped
          (s.target (.rel off))) t ∧ ∀ n, t.g n = s.g n) ∧
    (¬ goes → Completes (.loopt c k off) s fun t =>
      s.retires c [] s s.me { s.mySeq with crc := crcBit s.mySeq.crc false }.onward t ∧ ∀ n, t.g n = s.g n)

/-- R82, R222, R223, R321, for both forms of LD in memory: an aligned load whose translation succeeds, of granules not
published since the core's last acquire, gives the little-endian value of memory with the core's own buffered bytes over
it, extended as the form says; it changes nothing but RD and what `loadOnly` names. A load of a non-zero alias class may be
performed later than it issues: then it leaves its work, which gives RD that value when it is performed, never before an access
of its class issued earlier (the model's choice of how, log 76); one that must come after such an access waits. -/
def Obligations.LoadValue : Prop :=
  (∀ (sx : Bool) (c : Ctl) (m : MemF) (s s1 : State) (pa : Nat),
    let i := if sx then Instr.ld c m else Instr.ldZeroExtending c m
    let n := sizeBytes m.sz
    let a := s.address m.bp m.off
    let bs := (List.range n).map (fun j => s1.sees (pa + j))
    Ready i c (baseRegs m.bp) s → a % n = 0 →
    (s.defers m.ac = false → s.mySeq.behindLate m.ac = true → exec i s = .next (s.waitFor i false)) ∧
    (seqXlate .load a s = .ok (.ok pa) s1 →
      (s.prompt m.ac → s1.settled pa n → anyPoison bs = false → Completes i s fun t =>
        (∃ u, s1.loadOnly u ∧ u.mem = s1.mem ∧ s.retires c (dstAt (m.sz == .b8) m.rd) u u.me s.mySeq.onward t) ∧
        (∀ x, t.byte x = s1.byte x) ∧
        s.putsScalar (m.sz == .b8) m.rd (extended m.sz sx (rbytesNat bs)) t) ∧
      (s.defers m.ac = true → s1.poisoned pa n = false → Completes i s fun t =>
        s.putsOff c m.ac [.load m sx a pa n] s1 { s1.me with cur := t.me.cur } t))) ∧
  ∀ (k ac va pa : Nat) (m : MemF) (sx : Bool) (s : State),
    let n := sizeBytes m.sz
    let bs := (List.range n).map (fun j => s.sees (pa + j))
    s.lateTurn k ac (.load m sx va pa n) → s.settled pa n → anyPoison bs = false →
    ∃ t u, performLate s.cur s.curSeq k s = .next t ∧ s.loadOnly u ∧ u.mem = s.mem ∧
      s.performs k (dstAt (m.sz == .b8) m.rd) u u.me t ∧
      s.putsScalar (m.sz == .b8) m.rd (extended m.sz sx (rbytesNat bs)) t

/-- R262, R285, R322: a privileged load of control space reads the register there; it lies outside the block's parameters, so
its block is untraced from then on. -/
def Obligations.LoadControlSpace : Prop :=
  ∀ (sx : Bool) (c : Ctl) (m : MemF) (s s1 : State) (d o : Nat),
    let i := if sx then Instr.ld c m else Instr.ldZeroExtending c m
    let n := sizeBytes m.sz
    let a := s.address m.bp m.off
    Ready i c (baseRegs m.bp) s → a % n = 0 → s.mySeq.behindLate m.ac = false →
    seqXlate .load a s = .ok (.ctl d o) s1 → (s1.ctlRead d (o / 8 * 8)).2 = false →
    Completes i s fun t => s.retires c (dstAt (m.sz == .b8) m.rd) s1 { s1.me with cur := t.me.cur } s.mySeq.onward t ∧
      (t.me.cur = s1.me.cur.map fun b =>
        if b.info.param ≤ a ∧ a + n ≤ b.info.param + b.info.paramlen then b else { b with untr := true }) ∧
      s.putsScalar (m.sz == .b8) m.rd
        (extended m.sz sx ((s1.ctlRead d (o / 8 * 8)).1 / 2 ^ (8 * (o % 8)) % 2 ^ (8 * n))) t

/-- R173, R221, R223, R285, R341, for ST: to memory, its bytes enter the core's phase store buffer under the sequencer and its
alias class, in place of any buffered byte at their addresses; memory itself keeps every byte. A store of a non-zero class may
be performed later than it issues, and then puts its bytes there (log 76). A store that would need more lines than the buffer
and its overflow have traps PHASEOV with nothing stored; of what its translation did only the requests to the host and the
values drawn stay (the model's choice, log 72). A privileged ST of 8 bytes to control space writes the register there, a
shorter one traps ALIGN. -/
def Obligations.StoreBuffers : Prop :=
  (∀ (c : Ctl) (m : MemF) (s s1 : State),
    let n := sizeBytes m.sz
    let a := s.address m.bp m.off
    let bs := placeBytes a
    let by_ (j : Nat) : Byte := BitVec.ofNat 8 (s.opnd (m.sz == .b8) m.rd / 256 ^ j)
    let fits (pa : Nat) : Prop := s.me.psbLines.length + s.me.newLines (pa :: s.me.latePas) ≤ psbCapacity
    let u : State := { s with ats := s1.ats, atsReqs := s1.atsReqs, draws := s1.draws }
    Ready (.st c m) c (baseRegs m.bp ++ srcRegs (m.sz == .b8) [m.rd]) s → a % n = 0 →
    (s.defers m.ac = false → s.mySeq.behindLate m.ac = true → exec (.st c m) s = .next (s.waitFor (.st c m) false)) ∧
    (∀ pa, seqXlate .store a s = .ok (.ok pa) s1 →
      (fits pa → s.prompt m.ac → Completes (.st c m) s fun t =>
        s.retires c [] s1 { s.me with psb := t.me.psb } s.mySeq.onward t ∧ (∀ r, t.g r = s.g r) ∧
        (∀ x, t.byte x = s1.byte x) ∧
        ∀ x, t.me.buffered x = if pa ≤ x ∧ x < pa + n then some ⟨x % 128, by_ (x - pa), s.curSeq, m.ac, false⟩
          else s.me.buffered x) ∧
      (fits pa → s.defers m.ac = true → Completes (.st c m) s fun t =>
        s.putsOff c m.ac [.store s.me.ctx.toNat (bs pa ((List.range n).map fun j => (by_ j, false)))] s1 s.me t) ∧
      (¬ fits pa → s.defers m.ac = true ∨ s.mySeq.behindLate m.ac = false → exec (.st c m) s = trapHere cPHASEOV a u)) ∧
    ∀ d o, seqXlate .store a s = .ok (.ctl d o) s1 → s.mySeq.behindLate m.ac = false →
      (n = 8 → exec (.st c m) s = .next (retire c .next (s1.ctlWrite d o (s.pair m.rd).toNat))) ∧
      (n ≠ 8 → exec (.st c m) s = trapHere cALIGN a u)) ∧
  ∀ (k ac ctx : Nat) (l : List Placed) (s : State), s.lateTurn k ac (.store ctx l) →
    ∃ t, performLate s.cur s.curSeq k s = .next t ∧ s.performs k [] s { s.me with psb := t.me.psb } t ∧
      (∀ r, t.g r = s.g r) ∧
      ∀ x, t.me.buffered x = match l.reverse.find? (fun b => b.2.1 == x) with
        | some b => some ⟨x % 128, b.2.2.1, s.curSeq, ac, b.2.2.2⟩
        | none => s.me.buffered x

/-- R178, R180, R298 to R301, for the nine integer atomics: memory at the address receives the combined value as one write, RD
(or the pair) the old one; no other byte of memory changes. A host-half atomic at scope HOST or SYSTEM is a request to the
host, and host memory receives the value. An atomic of a non-zero alias class may be performed later than it issues (log 76). -/
def Obligations.AtomicResults : Prop :=
  ∀ (i : Instr) (c : Ctl) (a : AtomF) (cas : Bool) (s s1 : State) (pa : Nat),
    let n := if a.w64 then 8 else 4
    let k := a.rd + (if a.w64 then 2 else 1)
    let old (u : State) : Nat := if toHost i pa then u.hostRd pa n else u.rd pa n
    let word (u : State) (x y : Nat) : Nat :=
      if a.w64 then (atomWord i (BitVec.ofNat 64 (old u)) (BitVec.ofNat 64 x) (BitVec.ofNat 64 y)).toNat
      else (atomWord i (BitVec.ofNat 32 (old u)) (BitVec.ofNat 32 x) (BitVec.ofNat 32 y)).toNat
    let done (u t : State) (x y : Nat) : Prop :=
      u.atomicLeaves i pa n x y (word u x y) t ∧ u.linesOnly t ∧ u.putsScalar a.w64 a.rd (old u) t
    atomFields i = some (c, a, cas) →
    (a.scope < 12 → Ready i c (baseRegs a.bp ++ srcRegs a.w64 (if cas then [a.rd, k] else [a.rd])) s →
      s.address a.bp a.off % n = 0 →
      (s.defers a.ac = false → s.mySeq.behindLate a.ac = true → exec i s = .next (s.waitFor i false)) ∧
      (seqXlate .atomic (s.address a.bp a.off) s = .ok (.ok pa) s1 →
        (pa < hostBase ∨ a.scope < 10 ∨ pcieAtomic i = true) → s1.poisoned pa n = false →
        (s.prompt a.ac → Completes i s fun t =>
          s.retires c (dstAt a.w64 a.rd) (s1.atomicOver t) { s.me with seen := t.me.seen, cur := t.me.cur, l1 := t.me.l1 }
            s.mySeq.onward t ∧ done s1 t (s.opnd a.w64 a.rd) (s.opnd a.w64 k)) ∧
        (s.defers a.ac = true → Completes i s fun t =>
          s.putsOff c a.ac [.atomic i (s.address a.bp a.off) pa (s.opnd a.w64 a.rd) (s.opnd a.w64 k)] s1
            { s1.me with cur := t.me.cur } t))) ∧
    ∀ e ac va x y, s.lateTurn e ac (.atomic i va pa x y) → s.poisoned pa n = false → x < 256 ^ n → y < 256 ^ n →
      ∃ t, performLate s.cur s.curSeq e s = .next t ∧
        s.performs e (dstAt a.w64 a.rd) (s.atomicOver t) { s.me with seen := t.me.seen, l1 := t.me.l1 } t ∧ done s t x y

/-- R179, R181, for AFADD: the old value goes to RD, and memory receives the exact sum rounded once, in F32, or in BF16 to
nearest even or stochastically with the next word of the home slice's generator; that generator, and no other, has stepped
once after the stochastic form, none after another. -/
def Obligations.AtomicFloatAdd : Prop :=
  ∀ (c : Ctl) (bf16 sr : Bool) (a : AtomF) (s s1 : State) (pa : Nat),
    let i := Instr.afadd c bf16 sr a
    let n := if bf16 then 2 else 4
    let gen (u : State) (d j : Nat) : Nat := Store.get (sliceSeed (u.die d).l2seed.toNat j) (u.die d).sliceGens j
    let new (u : State) (x : Nat) : Nat :=
      let old := u.rd pa n
      if !bf16 then floatSum fmtF32 .rne 0 old x
      else if sr then floatSum fmtBF16 .sr (xorshift (gen u (homeDie pa) (homeSlice pa))) old (x % 65536)
      else floatSum fmtBF16 .rne 0 old (x % 65536)
    let done (u t : State) (x : Nat) : Prop :=
      u.atomicLeaves i pa n x x (new u x % 2 ^ (8 * n)) t ∧
      u.putsScalar false a.rd (u.rd pa n) t ∧
      (∀ d, t.die d = { u.die d with lines := (t.die d).lines, sliceGens := (t.die d).sliceGens }) ∧
      ∀ d j, gen t d j = if bf16 = true ∧ sr = true ∧ d = homeDie pa ∧ j = homeSlice pa
        then xorshift (gen u d j) else gen u d j
    a.w64 = false → (pa < hostBase ∨ a.scope < 10) →
    (a.scope < 12 → Ready i c (baseRegs a.bp ++ [a.rd]) s → s.address a.bp a.off % n = 0 →
      seqXlate .atomic (s.address a.bp a.off) s = .ok (.ok pa) s1 → s1.poisoned pa n = false →
      (s.prompt a.ac → Completes i s fun t =>
        s.retires c [a.rd] (s1.atomicOver t) { s.me with seen := t.me.seen, cur := t.me.cur, l1 := t.me.l1 }
          s.mySeq.onward t ∧ done s1 t (s.g a.rd).toNat) ∧
      (s.defers a.ac = true → ∃ y, Completes i s fun t =>
        s.putsOff c a.ac [.atomic i (s.address a.bp a.off) pa (s.g a.rd).toNat y] s1 { s1.me with cur := t.me.cur } t)) ∧
    ∀ e ac va x y, s.lateTurn e ac (.atomic i va pa x y) → s.poisoned pa n = false →
      ∃ t, performLate s.cur s.curSeq e s = .next t ∧
        s.performs e [a.rd] (s.atomicOver t) { s.me with seen := t.me.seen, l1 := t.me.l1 } t ∧ done s t x

/-- R89, R134, R282, R355, R362 to R365, R375, R380, R384, for the elementwise instructions: every governed element of Vd
becomes the result of its lane, exact and rounded once, or wrapped or clamped; sources are read whole first; other
elements and registers stay; flags of governed lanes only are set; an SR form steps converter 0 once for each row. For VEXP,
VLOG, VTANH and VERF the lane is one of the two neighbours of the exact result that R375 allows, by a free value that is the
model's choice (log 5). -/
def Obligations.VectorLanewise : Prop :=
  ∀ (i : Instr) (r : VecRow) (s : State), vecRow i = some r → Ready i r.c [] s →
    let x := s.mySeq
    let k := s.me
    let w := r.ty.is64
    let gov := k.pget (x.preg r.pr)
    let res (p : Nat) : Nat × Flags := r.f (s.posWord r.rm p) (k.elem r.ty (x.vreg r.va) p)
      (k.elem r.ty (x.vreg r.vb) p) (k.elem r.ty (x.vreg r.vc) p)
    Completes i s fun u => s.vectorOnly r.c u ∧
      s.writesLanes w (x.vreg r.vd) gov (fun p => r.ty.extend (res p).1)
        (fun p => k.elemPoison w (x.vreg r.va) (laneOf w p) || k.elemPoison w (x.vreg r.vb) (laneOf w p) ||
          k.elemPoison w (x.vreg r.vc) (laneOf w p)) u ∧
      s.raises w gov (fun p => (res p).2) u ∧ s.stepped 0 (if r.rm = .sr then 16 else 0) u

/-- R369, R370, R371, for VCVT, VQNT and VDQNT: VCVT converts each governed element, in lanes of column pairs where either
type has 64 bits; VQNT divides by its scale and encodes in the format, its pattern extended to 32 bits, and VDQNT decodes
the low bits of its element and multiplies by its scale. A format code above 23 traps FMT. -/
def Obligations.VectorConvert : Prop :=
  (∀ (c : Ctl) (dst : Ty) (rm : Rm) (f : VF2) (s : State), Ready (.vcvt c dst rm f) c [] s →
    let x := s.mySeq
    let k := s.me
    let w := f.ty.is64 || dst.is64
    let gov := k.pget (x.preg f.pr)
    let res (p : Nat) : Nat × Flags := f.ty.convert dst rm (s.posWord rm p) (k.elem f.ty (x.vreg f.va) p)
    Completes (.vcvt c dst rm f) s fun u => s.vectorOnly c u ∧
      s.writesLanes w (x.vreg f.vd) gov (fun p => dst.extend (res p).1)
        (fun p => k.elemPoison f.ty.is64 (x.vreg f.va) (laneOf w p) && (dst.is64 || laneOf w p == p)) u ∧
      s.raises w gov (fun p => (res p).2) u ∧ s.stepped 0 (if rm = .sr then 16 else 0) u) ∧
  (∀ (c : Ctl) (fmt : Nat) (rm : Rm) (f : VF) (s : State), Ready (.vqnt c fmt rm f) c [] s → fmt < 24 →
    let x := s.mySeq
    let k := s.me
    let gov := k.pget (x.preg f.pr)
    let res (p : Nat) : Nat × Flags :=
      let a := f.ty.val (k.elem f.ty (x.vreg f.va) p)
      let b := f.ty.val (k.elem f.ty (x.vreg f.vb) p)
      let q := a.div b
      let e := fmtEncode fmt rm (s.posWord rm p) q.1
      (fmtExtend fmt e.1, q.2 ||| e.2 ||| (if a.isNan || b.isNan then fNV else 0))
    Completes (.vqnt c fmt rm f) s fun u => s.vectorOnly c u ∧
      s.writesLanes false (x.vreg f.vd) gov (fun p => (res p).1)
        (fun p => (k.vpo (x.vreg f.va)).testBit p || (k.vpo (x.vreg f.vb)).testBit p) u ∧
      s.raises false gov (fun p => (res p).2) u ∧ s.stepped 0 (if rm = .sr then 16 else 0) u) ∧
  (∀ (c : Ctl) (fmt : Nat) (f : VF) (s : State), Ready (.vdqnt c fmt f) c [] s → fmt < 24 →
    let x := s.mySeq
    let k := s.me
    let gov := k.pget (x.preg f.pr)
    let res (p : Nat) : Nat × Flags :=
      let d := fmtDecode fmt (k.elem .n32 (x.vreg f.va) p % 2 ^ fmtBits fmt)
      let e := f.ty.round .rne 0 (d.1.mul (f.ty.val (k.elem f.ty (x.vreg f.vb) p)))
      (e.1, e.2 ||| d.2)
    Completes (.vdqnt c fmt f) s fun u => s.vectorOnly c u ∧
      s.writesLanes false (x.vreg f.vd) gov (fun p => (res p).1)
        (fun p => (k.vpo (x.vreg f.va)).testBit p || (k.vpo (x.vreg f.vb)).testBit p) u ∧
      s.raises false gov (fun p => (res p).2) u ∧ s.stepped 0 0 u) ∧
  (∀ (c : Ctl) (fmt : Nat) (rm : Rm) (f : VF) (s : State), 24 ≤ fmt →
    (accepts s.curSeq (encode (.vqnt c fmt rm f)) = true →
      exec (.vqnt c fmt rm f) s = trapHere cFMT fmt s) ∧
    (accepts s.curSeq (encode (.vdqnt c fmt f)) = true → exec (.vdqnt c fmt f) s = trapHere cFMT fmt s))

/-- R368, R380, R383, for VCMP, VSEL and VMOVI: VCMP writes one bit to each governed position, both columns of a pair for
a 64-bit type; VSEL takes VA where its predicate is set, else VB, in every position; VMOVI writes every position. -/
def Obligations.VectorCompareSelect : Prop :=
  (∀ (c : Ctl) (cond : Cond) (f : VF) (s : State), Ready (.vcmp c cond f) c [] s →
    let x := s.mySeq
    let k := s.me
    let w := f.ty.is64
    let gov := k.pget (x.preg f.pr)
    let holds (p : Nat) : Bool :=
      let a := k.elem f.ty (x.vreg f.va) (laneOf w p)
      let b := k.elem f.ty (x.vreg f.vb) (laneOf w p)
      if f.ty.isFloat then condVal cond (f.ty.val a) (f.ty.val b) else condInt cond (f.ty.int a) (f.ty.int b)
    Completes (.vcmp c cond f) s fun u => s.predOnly c u ∧
      ∀ n, n < 16 → ∀ p, p < 1024 → (u.me.pget n).testBit p =
        if n = x.preg f.vd ∧ n ≠ 0 ∧ gov.testBit (laneOf w p) = true then holds p else (k.pget n).testBit p) ∧
  (∀ (c : Ctl) (f : VF) (s : State), Ready (.vsel c f) c [] s →
    let x := s.mySeq
    let k := s.me
    let w := f.ty.is64
    let pick (p : Nat) : Nat := if (k.pget (x.preg f.pr)).testBit p then x.vreg f.va else x.vreg f.vb
    Completes (.vsel c f) s fun u => s.vectorOnly c u ∧
      s.writesLanes w (x.vreg f.vd) allPos (fun p => f.ty.extend (k.elem f.ty (pick p) p))
        (fun p => k.elemPoison w (pick (laneOf w p)) (laneOf w p)) u ∧
      u.mySeq.fstat = s.mySeq.fstat ∧ s.stepped 0 0 u) ∧
  (∀ (c : Ctl) (ty : Ty) (vd : Nat) (imm : BitVec 24) (s : State), Ready (.vmovi c ty vd imm) c [] s →
    Completes (.vmovi c ty vd imm) s fun u => s.vectorOnly c u ∧
      s.writesLanes false vd allPos
        (fun _ => if ty = .i32 ∨ ty = .n32 then (imm.signExtend 32).toNat else imm.toNat * 256) (fun _ => false) u ∧
      u.mySeq.fstat = s.mySeq.fstat ∧ s.stepped 0 0 u)

/-- R376, R282, for VGET and VPUT: the element at the position in a scalar register, modulo 1,024 and even for a 64-bit
type, moves to a scalar register or pair, or from one; reading a poisoned element traps ECC with its position in EVA. -/
def Obligations.VectorElementMoves : Prop :=
  (∀ (c : Ctl) (ty : Ty) (g : Nat) (v : RReg) (p : Nat) (s : State), Ready (.vget c ty g v p) c [p] s →
    let n := s.mySeq.vreg v
    let q := laneOf ty.is64 ((s.g p).toNat % 1024)
    (s.me.elemPoison ty.is64 n q = false → Completes (.vget c ty g v p) s fun u =>
      s.scalarOnly c (dstAt ty.is64 g) u ∧ s.putsScalar ty.is64 g (ty.extend (s.me.elem ty n q)) u) ∧
    (s.me.elemPoison ty.is64 n q = true →
      exec (.vget c ty g v p) s = trapHere cECC (0xFFFE000000000000 + q) s)) ∧
  (∀ (c : Ctl) (ty : Ty) (g : Nat) (v : RReg) (p : Nat) (s : State),
    Ready (.vput c ty g v p) c (srcRegs ty.is64 [g] ++ [p]) s →
    let q := laneOf ty.is64 ((s.g p).toNat % 1024)
    Completes (.vput c ty g v p) s fun u => s.vectorOnly c u ∧
      s.writesLanes ty.is64 (s.mySeq.vreg v) (2 ^ q) (fun _ => ty.extend (s.opnd ty.is64 g % 2 ^ ty.bits))
        (fun _ => false) u ∧ u.mySeq.fstat = s.mySeq.fstat ∧ s.stepped 0 0 u)

/-- R366, R367, R385, for the rotations and broadcasts of rows and columns and for VTRN16: each governed element of Vd is the
element of VA that the instruction names, VA being read whole first. -/
def Obligations.VectorAxisMoves : Prop :=
  ∀ (i : Instr) (c : Ctl) (f : VF2) (g : Nat → Nat → Nat × Nat) (s : State), moveRow i = some (c, f, g) →
    i.wellFormed = true → Ready i c [] s →
    let x := s.mySeq
    let w := f.ty.is64
    let from_ (p : Nat) : Nat :=
      let q := if w then g (p / 64) (p % 64 / 2) else g (p / 64) (p % 64)
      64 * q.1 + (if w then 2 * q.2 else q.2)
    Completes i s fun u => s.vectorOnly c u ∧
      s.writesLanes w (x.vreg f.vd) (s.me.pget (x.preg f.pr)) (fun p => f.ty.extend (s.me.elem f.ty (x.vreg f.va) (from_ p)))
        (fun p => s.me.elemPoison w (x.vreg f.va) (from_ (laneOf w p))) u ∧
      u.mySeq.fstat = s.mySeq.fstat ∧ s.stepped 0 0 u

/-- R136, R364, R367, for VRRED, VCRED and VAMAX: every governed element of a column, or of a row, receives the pairwise
reduction of all its elements, flags and poison of what it is formed from included; VAMAX gives every governed element of
a row, of half a row, or of the register the largest magnitude of that set, NaNs left out. -/
def Obligations.VectorReductions : Prop :=
  (∀ (c : Ctl) (op : RedOp) (f : VF2) (s : State), Ready (.vrred c op f) c [] s →
    let x := s.mySeq
    let w := f.ty.is64
    let n := lanesPerRow w
    let red (p : Nat) : Lane := reduceLanes f.ty op 4 (laneCol n (srcLanes s f) (if w then p % 64 / 2 else p % 64))
    let gov := s.me.pget (x.preg f.pr)
    Completes (.vrred c op f) s fun u => s.vectorOnly c u ∧
      s.writesLanes w (x.vreg f.vd) gov (fun p => f.ty.extend (red p).v) (fun p => (red p).po) u ∧
      s.raises w gov (fun p => (red p).fl) u ∧ s.stepped 0 0 u) ∧
  (∀ (c : Ctl) (op : RedOp) (f : VF2) (s : State), Ready (.vcred c op f) c [] s →
    let x := s.mySeq
    let w := f.ty.is64
    let n := lanesPerRow w
    let red (p : Nat) : Lane := reduceLanes f.ty op (if w then 5 else 6) (laneRow n (srcLanes s f) (p / 64))
    let gov := s.me.pget (x.preg f.pr)
    Completes (.vcred c op f) s fun u => s.vectorOnly c u ∧
      s.writesLanes w (x.vreg f.vd) gov (fun p => f.ty.extend (red p).v) (fun p => (red p).po) u ∧
      s.raises w gov (fun p => (red p).fl) u ∧ s.stepped 0 0 u) ∧
  (∀ (c : Ctl) (m : AmaxSet) (f : VF2) (s : State), Ready (.vamax c m f) c [] s → f.ty.isFloat = true →
    let x := s.mySeq
    let size := match m with | .row => 64 | .blk => 32 | .all => 1024
    let top (p v : Nat) : Prop :=
      (∃ q, q < 1024 ∧ q / size = p / size ∧ v = (if (f.ty.val (s.me.elem f.ty (x.vreg f.va) q)).isNan then 0
        else s.me.elem f.ty (x.vreg f.va) q % 2 ^ (f.ty.bits - 1))) ∧
      ∀ q, q < 1024 → q / size = p / size → (f.ty.val (s.me.elem f.ty (x.vreg f.va) q)).isNan = false →
        s.me.elem f.ty (x.vreg f.va) q % 2 ^ (f.ty.bits - 1) ≤ v
    ∃ val : Nat → Nat, (∀ p, p < 1024 → top p (val p)) ∧
      Completes (.vamax c m f) s fun u => s.vectorOnly c u ∧
        s.writesLanes false (x.vreg f.vd) (s.me.pget (x.preg f.pr)) (fun p => f.ty.extend (val p))
          (fun p => (List.range 1024).any fun q => q / size == p / size && (s.me.vpo (x.vreg f.va)).testBit q) u ∧
        u.mySeq.fstat = s.mySeq.fstat ∧ s.stepped 0 0 u)

/-- R283, R381, R382, for VOPTW: each governed lane without a poisoned operand receives the new weight and both moments
from its weight, moments and gradient and the eight scalars, step by step as R382 writes them, each step rounded once and its
flags raised; a governed lane with one is left, becomes poisoned in all
three, and joins the deferred mask. -/
def Obligations.VectorOptimiser : Prop :=
  ∀ (c : Ctl) (sr : Bool) (grp : Nat) (f : VF) (vc : RReg) (s : State),
    Ready (.voptw c sr grp f vc) c ((List.range 8).map (8 * grp + ·)) s →
    let x := s.mySeq
    let k := s.me
    let rm : Rm := if sr then .sr else .rne
    let d := x.vreg f.vd
    let a := x.vreg f.va
    let b := x.vreg f.vb
    let g := x.vreg vc
    let sc (i : Nat) : Val := fmtF32.decode (s.g (8 * grp + i)).toNat
    let gov := k.pget (x.preg f.pr)
    let hurt (p : Nat) : Bool := (k.vpo d).testBit p || (k.vpo a).testBit p || (k.vpo b).testBit p || (k.vpo g).testBit p
    let rne (x : Val × Flags) : Val × Flags := (fmtF32.decode (Ty.f32.round .rne 0 x).1, (Ty.f32.round .rne 0 x).2)
    let res (p : Nat) : Nat × Nat × Nat × Flags :=
      let w := f.ty.val (k.elem f.ty d p)
      let m := fmtF32.decode (k.elem .n32 a p)
      let v := fmtF32.decode (k.elem .n32 b p)
      let gr := rne ((sc 7).mul (f.ty.val (k.elem f.ty g p)))
      let n1 := rne ((Val.ofInt 1).add false (sc 1).neg)
      let m1 := rne (dot2 (sc 1) m n1.1 gr.1)
      let g2 := rne (gr.1.mul gr.1)
      let n2 := rne ((Val.ofInt 1).add false (sc 2).neg)
      let v1 := rne (dot2 (sc 2) v n2.1 g2.1)
      let q := rne (v1.1.mul (sc 6))
      let root := rne q.1.sqrt
      let den := rne (root.1.add false (sc 3))
      let num := rne (m1.1.mul (sc 5))
      let u := rne (num.1.div den.1)
      let u2 := rne (Val.fma false (sc 4) w u.1)
      let w1 := f.ty.round rm (s.posWord rm p) (Val.fma false (sc 0).neg u2.1 w)
      (w1.1, (fmtF32.encode .rne 0 m1.1).1, (fmtF32.encode .rne 0 v1.1).1,
        gr.2 ||| n1.2 ||| m1.2 ||| g2.2 ||| n2.2 ||| v1.2 ||| q.2 ||| root.2 ||| den.2 ||| num.2 ||| u.2 ||| u2.2 ||| w1.2)
    Completes (.voptw c sr grp f vc) s fun u =>
      s.retires c [] s { k with v := u.me.v, vPoison := u.me.vPoison, gens := u.me.gens, deferred := u.me.deferred }
        { x.onward with fstat := u.mySeq.fstat } u ∧ (∀ n, u.g n = s.g n) ∧
      (∀ n, n ≠ d → n ≠ a → n ≠ b → u.me.vget n = k.vget n ∧ u.me.vpo n = k.vpo n) ∧
      (∀ p, p < 1024 →
        let on : Bool := gov.testBit p && !hurt p
        let put (n v : Nat) : Prop :=
          (u.me.vget n).getD p 0 = (if on then BitVec.ofNat 32 v else (k.vget n).getD p 0) ∧
          (u.me.vpo n).testBit p = (if on then false else if gov.testBit p then true else (k.vpo n).testBit p)
        put d (res p).1 ∧ (a ≠ d → put a (res p).2.1) ∧ (b ≠ d → b ≠ a → put b (res p).2.2.1) ∧
        u.me.deferred.testBit p = (k.deferred.testBit p || (gov.testBit p && hurt p))) ∧
      (∀ i, u.mySeq.fstat.getLsbD i = true ↔ x.fstat.getLsbD i = true ∨
        ∃ p, p < 1024 ∧ gov.testBit p = true ∧ hurt p = false ∧ (res p).2.2.2.getLsbD i = true) ∧
      s.stepped 0 (if sr then 16 else 0) u

/-- R89, R333, R334, for PAND, POR, PNOT and PSET: the governed bits of Pd receive the result, a write to P0 is discarded;
PSET repeats the stream's row mask over the 16 rows, and traps SEQCLASS where the stream is another sequencer's. -/
def Obligations.PredicateResults : Prop :=
  (∀ (c : Ctl) (pd pa pb pr : RReg) (s : State),
    let x := s.mySeq
    let bit (r : RReg) (i : Nat) : Bool := (s.me.pget (x.preg r)).testBit i
    let wr (f : Nat → Bool) (u : State) : Prop :=
      s.predOnly c u ∧ s.writesPred (x.preg pd) (s.me.pget (x.preg pr)) f u
    (Ready (.pand c pd pa pb pr) c [] s → Completes (.pand c pd pa pb pr) s (wr fun i => bit pa i && bit pb i)) ∧
    (Ready (.por c pd pa pb pr) c [] s → Completes (.por c pd pa pb pr) s (wr fun i => bit pa i || bit pb i)) ∧
    (Ready (.pnot c pd pa pr) c [] s → Completes (.pnot c pd pa pr) s (wr fun i => !bit pa i))) ∧
  (∀ (c : Ctl) (pd : RReg) (n : Nat) (pr : RReg) (s : State), Ready (.pset c pd n pr) c [] s →
    let x := s.mySeq
    ((s.me.stream n).own = s.curSeq → Completes (.pset c pd n pr) s fun u => s.predOnly c u ∧
      s.writesPred (x.preg pd) (s.me.pget (x.preg pr)) (fun i => (Store.get 0 s.me.srm n).getLsbD (i % 64)) u) ∧
    ((s.me.stream n).own ≠ s.curSeq → exec (.pset c pd n pr) s = trapHere cSEQCLASS n s))

/-- R89, R207, R208, R222, R377, R378, for VLD and VLDM: where every governed element is aligned and translates (VLDM letting a
page that is not resident pass), and its granules were not published since the core's last acquire, each governed element of Vd
becomes the little-endian bytes of memory with the core's own buffered bytes over them, extended as its type is, and poisoned
as they are; under VLDM an element without a resident page becomes 0, and the predicate receives at the governed positions
whether the page was resident. Nothing else of the register or of the core's registers changes, no byte of memory. A load of a
non-zero alias class may be performed later than it issues, and gives the same then (log 76). -/
def Obligations.VectorLoads : Prop :=
  ∀ (m : Bool) (f : VMemF),
    let n := f.ty.colBytes
    let pred (pq : Nat) : Option Nat := if m then some pq else none
    let leaves (s u : State) (vd : Nat) (pq : Option Nat) (l : List (Nat × Option Nat)) : Prop :=
      (∀ a, u.byte a = s.byte a) ∧
      (∀ r, r ≠ vd → u.me.vget r = s.me.vget r ∧ u.me.vpo r = s.me.vpo r) ∧
      (∀ p pa, (p, some pa) ∈ l → let bs := (List.range n).map fun j => s.sees (pa + j)
        (u.me.vget vd).getD p 0 = BitVec.ofNat 32 (if f.ty.is64 then rbytesNat bs else f.ty.extend (rbytesNat bs)) ∧
        (u.me.vpo vd).testBit p = anyPoison bs) ∧
      (∀ p, (p, none) ∈ l → (u.me.vget vd).getD p 0 = 0 ∧ (u.me.vpo vd).testBit p = false) ∧
      (∀ p, p < 1024 → p ∉ l.map (·.1) → (u.me.vget vd).getD p 0 = (s.me.vget vd).getD p 0 ∧
        (u.me.vpo vd).testBit p = (s.me.vpo vd).testBit p) ∧
      ∀ q p, q < 16 → p < 1024 → (u.me.pget q).testBit p =
        if some q = pq ∧ q ≠ 0 ∧ p ∈ l.map (·.1) then l.any fun e => e.1 == p && e.2.isSome else (s.me.pget q).testBit p
    (∀ (c : Ctl) (pq : Nat) (s s1 : State) (l : List (VElem × Xlat)),
      let i := if m then Instr.vldm c pq f else Instr.vld c f
      let vd := s.mySeq.vreg f.vd
      Ready i c (baseRegs f.b ++ (if m then [2 * f.b + 2] else [])) s →
      vecXlate .load m (vecElems f.ty (s.pair (2 * f.b)).toNat (s.rowPitch f.ty f.b m)
        (s.me.pget (s.mySeq.preg f.pr))) s = .ok l s1 →
      (s.prompt f.ac → (∀ p pa, (p, some pa) ∈ elemPlaces l → pa % n = 0 ∧ s1.settled pa n) → Completes i s fun u => ∃ w,
        s1.loadOnly w ∧ w.mem = s1.mem ∧
        s.retires c [] w { w.me with v := u.me.v, vPoison := u.me.vPoison, p := u.me.p } s.mySeq.onward u ∧
        (∀ r, u.g r = s.g r) ∧ leaves s1 u vd (pred pq) (elemPlaces l)) ∧
      (s.defers f.ac = true → Completes i s fun u =>
        s.putsOff c f.ac [.vload f.ty vd (pred pq) (elemPlaces l)] s1 { s1.me with cur := u.me.cur } u)) ∧
    ∀ (k ac vd : Nat) (pq : Option Nat) (l : List (Nat × Option Nat)) (s : State),
      s.lateTurn k ac (.vload f.ty vd pq l) → (l.map (·.1)).Pairwise (· < ·) → (∀ p, p ∈ l.map (·.1) → p < 1024) →
      (∀ p pa, (p, some pa) ∈ l → pa % n = 0 ∧ s.settled pa n) → ∃ t u, performLate s.cur s.curSeq k s = .next t ∧
        s.loadOnly u ∧ u.mem = s.mem ∧ leaves s t vd pq l ∧
        s.performs k [] u { u.me with v := t.me.v, vPoison := t.me.vPoison, p := t.me.p } t ∧ ∀ r, t.g r = s.g r

/-- R173, R224, R378, R379, for VST and VSTM: where every governed element is aligned and translates and the buffer has room,
the element's bytes enter the phase store buffer, with their poison; no byte of memory changes, and the buffer holds at
every other address what it held. A store of a non-zero alias class may be performed later than it issues, the bytes of one
granule together (log 76). -/
def Obligations.VectorStores : Prop :=
  ∀ (m : Bool) (c : Ctl) (f : VMemF) (s s1 : State) (l : List (VElem × Xlat)),
    let i := if m then Instr.vstm c f else Instr.vst c f
    let n := f.ty.colBytes
    let val (e : VElem × Nat) : Nat := ((s.me.vget (s.mySeq.vreg f.vd)).getD e.1.pos 0).toNat
    let po (e : VElem × Nat) : Bool := (s.me.vpo (s.mySeq.vreg f.vd)).testBit e.1.pos
    let bytes : List Placed := (okElems l).flatMap fun e =>
      (List.range n).map fun j => (e.1.va + j, e.2 + j, (BitVec.ofNat 8 (val e / 256 ^ j), po e))
    Ready i c (baseRegs f.b ++ (if m then [2 * f.b + 2] else [])) s →
    vecXlate .store false (vecElems f.ty (s.pair (2 * f.b)).toNat (s.rowPitch f.ty f.b m)
      (s.me.pget (s.mySeq.preg f.pr))) s = .ok l s1 →
    s.me.psbLines.length + s.me.newLines ((okElems l).map (·.2) ++ s.me.latePas) ≤ psbCapacity →
    (s.prompt f.ac → Completes i s fun u =>
      s.retires c [] s1 { s.me with psb := u.me.psb } s.mySeq.onward u ∧
      (∀ r, u.g r = s.g r) ∧ (∀ a, u.byte a = s1.byte a) ∧
      (∀ x, (∀ e, e ∈ okElems l → x < e.2 ∨ e.2 + n ≤ x) → u.me.buffered x = s.me.buffered x) ∧
      ((okElems l).Pairwise (fun a b => a.2 + n ≤ b.2 ∨ b.2 + n ≤ a.2) →
        ∀ e, e ∈ okElems l → ∀ j, j < n → u.me.buffered (e.2 + j) = some ⟨(e.2 + j) % 128,
          BitVec.ofNat 8 (val e / 256 ^ j), s.curSeq, f.ac, po e⟩)) ∧
    (s.defers f.ac = true → Completes i s fun u => ∃ ws : List (List Placed),
      s.putsOff c f.ac (ws.map (.store s.me.ctx.toNat)) s1 s.me u ∧ (∀ b, b ∈ ws.flatten ↔ b ∈ bytes) ∧
      ∀ w, w ∈ ws → ∃ g, w = bytes.filter fun b => b.2.1 / 8 == g)

/-- R103, R77: words that the manual writes out with their assembly, one or more for each family. -/
def Obligations.DecodeWords : Prop :=
  decode 0xA023000000000000 = .ok (.nop ⟨5, 0, 1, 3⟩) ∧
  decode 0x0000010C41400000 = .ok (.add ⟨0, 0, 0, 0⟩ false 3 4 5) ∧
  decode 0x0000121C70FFFFFF = .ok (.addi ⟨0, 0, 0, 0⟩ 7 7 (-1)) ∧
  decode 0x00002500FFFFFFFC = .ok (.loop ⟨0, 0, 0, 0⟩ (-4)) ∧
  decode 0x000030185AFFFFF0 = .ok (.ld ⟨0, 0, 0, 0⟩ ⟨.b8, 6, 2, 2, -16⟩) ∧
  decode 0x0000330C50400008 = .ok (.aadd ⟨0, 0, 0, 0⟩ ⟨false, 3, 2, 0, 4, 8⟩) ∧
  decode 0x000040AC0A09C800 =
    .ok (.vadd ⟨0, 0, 0, 0⟩ .rne false ⟨.i32, ⟨21, true⟩, ⟨16, true⟩, ⟨5, false⟩, ⟨9, true⟩⟩) ∧
  decode 0x000061190A020000 = .ok (.pand ⟨0, 0, 0, 0⟩ ⟨3, false⟩ ⟨4, false⟩ ⟨5, false⟩ ⟨2, false⟩) ∧
  decode 0x0000715041A00000 = .ok (.mma ⟨0, 0, 0, 0⟩ 5 2 3 false true false) ∧
  decode 0x0000776702004A01 = .ok (.accq ⟨0, 0, 0, 0⟩ 6 7 4 .rne (some 5) true) ∧
  decode 0x0000800840000040 = .ok (.strcfg ⟨0, 0, 0, 0⟩ 2 4 0x40) ∧
  decode 0x0000902540300000 = .ok (.cpy ⟨0, 0, 0, 0⟩ ⟨2, 1, false, true, 4, 3, 0⟩) ∧
  decode 0x0000A53000024000 = .ok (.mbpost ⟨0, 0, 0, 0⟩ 3 9) ∧
  decode 0x0000B00000000034 = .ok (.phase ⟨0, 0, 0, 0⟩ 4 true true) ∧
  decode 0x0000C20000000000 = .ok (.trap ⟨0, 0, 0, 0⟩ 0)

/-- R79, R77 to R117: decoding and encoding agree. Every well-formed instruction word is read back from its encoding,
whatever its operands; and what the decoder reads from a word is well formed, no event, and encodes to that word: no bit of
a word is dropped. -/
def Obligations.EncodeDecodeAgree : Prop :=
  (∀ i : Instr, i.isEvent = false → i.wellFormed = true → encode i < 2 ^ 64 ∧ decode (encode i) = .ok i) ∧
  ∀ (w : Nat) (i : Instr), w < 2 ^ 64 → decode w = .ok i → encode i = w ∧ i.isEvent = false ∧ i.wellFormed = true

/-- R64, R77, R79, R83, R103, R237, R257: a turn of a sequencer that may run issues the instruction it waits in, else the word at
its pc: translated for fetching and unpoisoned, it is memory's word, or an older one that the sequencer may still execute; it is
decoded and run, or traps UNDEF or SEQCLASS; nothing else is done but noting the cached line and its request. A pc that is no
multiple of 8 traps ALIGN (log 23). A turn of a well-formed event runs it (log 4), the other turns perform a late access, publish
an engine's write, or write host memory (log 76, log 21, log 78). Before a turn come the stage evaluations of the clock that ends
and the reductions whose time is over (log 77). -/
def Obligations.StepRunsInstruction : Prop :=
  (∀ (s u : State) (c : Nat) (q : SeqId), s.begins (.issue c q) u →
    let s1 : State := { u with cur := c, curSeq := q }
    let pc := s1.mySeq.pc.toNat
    s1.turnKind c q = .run →
      (∀ w, s1.mySeq.wait = some w → step s = exec w.i s1) ∧
      (s1.mySeq.wait = none → pc % 8 ≠ 0 → step s = trapHere cALIGN pc s1) ∧
      (s1.mySeq.wait = none → pc % 8 = 0 → ∀ s2 pa, seqXlate .fetch pc s1 = .ok (.ok pa) s2 → s2.poisoned pa 8 = false →
        ∃ (w : Nat) (l : Store Nat) (v : State),
          (w = s2.rd pa 8 ∨ ∃ p, p ∈ pubsOf (pa / 8) (s2.fetchBound pa) s2.npub s2.pubs ∧ w = p.2.toNat) ∧
          v = { s2 with cores := v.cores, dies := v.dies, draws := v.draws } ∧ s2.linesOnly v ∧
          (∀ n, n ≠ c → v.core n = s2.core n) ∧ v.core c = { s2.core c with iLines := l } ∧
          (∀ j, j ≠ pa / 128 → Store.get 0 l j = Store.get 0 (s2.core c).iLines j) ∧
          (∀ i, decode w = .ok i → step s = exec i v) ∧
          (decode w = .undefOp → step s = trapHere cUNDEF w v) ∧
          (decode w = .undefField → step s =
            trapHere (if accepts q w || isSysWord w then cUNDEF else cSEQCLASS) w v))) ∧
  (∀ (s u : State) (e : Instr), s.begins (.event e) u →
    step s = if e.isEvent = true ∧ e.wellFormed = true then exec e u else .next u) ∧
  (∀ (s u : State),
    (∀ c q n, s.begins (.perform c q n) u → step s = performLate c q n u) ∧
    (∀ n, s.begins (.publish n) u → step s = .next (u.publishOne n)) ∧
    ∀ a n v h, s.begins (.hostWrite a n v h) u → step s = .next (u.hostWrite a n v h)) ∧
  ∀ (s s0 : State) (t : Turn), s.nextTurn = (t, s0) →
    (∀ e, s0.evalBefore t = some e → step s = exec e (s0.again t)) ∧
    (s0.evalBefore t = none → 1 < s0.turnDt t → s0.anyDue = true →
      step s = .next ((s0.pass 1).again { t with dt := s0.turnDt t - 1 })) ∧
    ∀ d g, s0.evalBefore t = none → (s0.turnDt t ≤ 1 ∨ s0.anyDue = false) →
      (s0.pass (s0.turnDt t)).overdue = some (d, g) →
      step s = exec (.prstTimeout d g) ((s0.pass (s0.turnDt t)).again { t with dt := 0 })

/-- R21, R39, R40, R77, R87, R93, R181, R187, R273, R286, R288, R290, R292: what reset leaves: every sequencer parked, none
held, no call depth, no signal owed; user mode, no trap, no block, no token; the die's AGESH, l2 seed, TRKTH, PREDEN, TRAPVEC,
RUN and mailbox indices at the values the manual gives; memory in its canonical form. The model's choices: the values of the
registers without a reset value, and CRC all ones before the first block, which R263 gives at a block's start alone (log 1). -/
def Obligations.ResetState : Prop :=
  State.reset.memWf = true ∧
  (∀ c q, let x := (State.reset.core c).seq q
    x.parked = true ∧ x.held = false ∧ x.depth = 0 ∧ x.fstat = 0 ∧ x.crc = 0xFFFFFFFF ∧ x.wait = none ∧ x.rpc = 0) ∧
  (∀ c, let k := State.reset.core c
    k.priv = false ∧ k.nest = 0 ∧ k.halted = false ∧ k.cur = none ∧ k.preq = false ∧ k.wdog = 0 ∧ k.psb = [] ∧
    (∀ n, k.tok n = 0) ∧ ∀ q n, State.reset.ecnt c q n = 0) ∧
  (∀ d, let x := State.reset.die d
    x.agesh = 4 ∧ x.l2seed = 1 ∧ x.trkth = 0x0400 ∧ x.blast = false ∧ x.preden = true ∧ x.trapvec = 0 ∧ x.run = false ∧
    x.mbhead = 0 ∧ x.mbtail = 0)

/-- R169, R221, R282, log 2, log 78: every step keeps memory, its poison, host memory and what is still to be sent there in
canonical form. -/
def Obligations.StepKeepsMemoryCanonical : Prop :=
  ∀ s t : State, s.memWf = true → step s = .next t → t.memWf = true

/-- R22, R94, R103: of a word that decodes, the checks come in one order: the sequencer's class (SEQCLASS), then privilege,
format code and scope, then the wait byte, which holds the sequencer where it is. -/
def Obligations.IssueChecks : Prop :=
  ∀ (i : Instr) (s : State), i.isEvent = false →
    let c := ctlOf i
    (accepts s.curSeq (encode i) = false → exec i s = trapHere cSEQCLASS (encode i) s) ∧
    (accepts s.curSeq (encode i) = true →
      (∀ k v, decodeTrap i s = some (k, v) → exec i s = trapHere k v s) ∧
      (decodeTrap i s = none →
        ((∃ n, waitQueue s.curSeq c = some n ∧ s.me.tok n < c.wcnt) ∨
          (4 ≤ c.wsel ∧ c.wcnt < s.ecnt s.cur s.curSeq (c.wsel - 4))) →
        exec i s = .next (s.waitFor i true)))

/-- R22, R23, R24, R238, R282, R339, shown on NOP and the two-operand scalar family: the wait byte's tokens are popped and
the signal byte's pushed, a push towards the C-seq setting its event flag; a signal that would overfill its queue traps
TOKOV, a poisoned source ECC, and a register that an engine or a late access has yet to write holds the sequencer, which has
not issued. A SLEEP whose signal would overfill its queue traps TOKOV as it issues, whether it would wait or not. -/
def Obligations.TokensAndOverflow : Prop :=
  (∀ (i : Instr) (c : Ctl) (srcs : List Nat) (s : State),
    (i = .nop c ∧ srcs = [] ∨ ∃ w rd ra rb, binFields i = some (c, w, rd, ra, rb) ∧ srcs = srcRegs w [ra, rb]) →
    c.ok = true → accepts s.curSeq (encode i) = true → waitMet c s = true →
    let taken (n : Nat) : Nat := if waitQueue s.curSeq c = some n then c.wcnt else 0
    let given (n : Nat) : Nat := if signalQueue s.curSeq c = some n then c.scnt else 0
    (rdBlocked i srcs s = true → exec i s = .next (s.modMySeq fun x => { x with wait := none })) ∧
    (rdBlocked i srcs s = false → ∀ r, poisonedSrc srcs s = some r →
      exec i s = trapHere cECC (0xFFFF000000000000 + 64 * s.curSeq.code + r) s) ∧
    (rdBlocked i srcs s = false → poisonedSrc srcs s = none → s.me.xfersOf s.curSeq = [] → s.mySeq.late = [] →
      s.mySeq.sigq = [] →
      ((∃ n, signalQueue s.curSeq c = some n ∧ 63 < s.me.tok n + c.scnt) →
        exec i s = trapHere cTOKOV (32 * c.ssel + c.scnt) s) ∧
      ((∀ n, signalQueue s.curSeq c = some n → s.me.tok n + c.scnt ≤ 63) →
        Completes i s fun t => (∀ n, t.me.tok n = s.me.tok n - taken n + given n) ∧ t.mySeq.sigq = [] ∧
          t.me.event = (s.me.event || (c.scnt != 0 && (signalQueue s.curSeq c == some 2 ||
            signalQueue s.curSeq c == some 5 || signalQueue s.curSeq c == some 8)))))) ∧
  ∀ (c : Ctl) (ra n : Nat) (s : State), let i := Instr.sleep c ra
    accepts s.curSeq (encode i) = true → waitMet c s = true → rdBlocked i [ra] s = false → poisonedSrc [ra] s = none →
    s.mySeq.sigq = [] → signalQueue s.curSeq c = some n → 63 < s.me.tok n + c.scnt →
    exec i s = trapHere cTOKOV (32 * c.ssel + c.scnt) s

/-- R178, R198, R199, R207, R219, R282, R300, R322, R342: where a scalar load, store or atomic does not reach memory. A
misaligned address traps ALIGN; then what its translation gives: NOTMAP, PERM, for a page that is not resident NRSTORE of a
store and NOTMAP of the others, ECC of a poisoned entry, each with the address in EVA (for a poisoned entry the model's choice,
log 25); a migrating page or an unanswered host makes it wait. An atomic to control space traps PERM. Nothing else changes but
the requests of the translation and the values drawn (the model's choice, log 72). -/
def Obligations.MemoryAccessTraps : Prop :=
  ∀ (i : Instr) (srcs : List Nat) (acc : Acc) (a n : Nat) (s : State),
    memAccess i s = some (srcs, acc, a, n) → decodeTrap i s = none → Ready i (ctlOf i) srcs s →
    (a % n ≠ 0 → exec i s = trapHere cALIGN a s) ∧
    (a % n = 0 → s.defers (aliasOf i) = true ∨ s.mySeq.behindLate (aliasOf i) = false →
      ∀ x s1, seqXlate acc a s = .ok x s1 →
      let u := { s with ats := s1.ats, atsReqs := s1.atsReqs, draws := s1.draws }
      (x = .notmap → exec i s = trapHere cNOTMAP a u) ∧
      (x = .perm → exec i s = trapHere cPERM a u) ∧
      (x = .nonres → exec i s = trapHere (if acc = .store then cNRSTORE else cNOTMAP) a u) ∧
      (x = .poison → exec i s = trapHere cECC a u) ∧
      (x = .mig ∨ x = .pend → exec i s = .next (u.waitFor i false)) ∧
      (∀ d o, x = .ctl d o → acc = .atomic → exec i s = trapHere cPERM a u))

/-- R269, R272, R277, R283, R290: taking a trap. It waits for the core's transfers to retire and its late accesses to be
performed. The first stops all four
sequencers: RPC, HELD, CAUSE, EPC and EVA written, NEST 1, privileged, the C-seq at TRAPVEC; ECC of the deferred mask moves
that mask to DEFMASK. A second goes to TRAPVEC + 0x100 on a Postmaster core, with the outer CAUSE, EPC and EVA kept; another
core it halts, and posts a message. A third halts and raises the die's fatal error. -/
def Obligations.TrapEntry : Prop :=
  ∀ (c : Nat) (r : TrapReq) (s : State), s.plainWaits c →
    let k := s.core c
    let vec := (s.die (dieOfCore c)).trapvec
    let mask : Bool := r.cause == cECC && r.eva / 2 ^ 48 == 0xFFFD
    let k1 : Core := { k with defmask := if mask then k.deferred else k.defmask, deferred := if mask then 0 else k.deferred,
                              trapping := none }
    let idle (x : Seq) : Seq := { x with wait := none }
    let k2 : Core := { k1 with l := idle k.l, x := idle k.x, s := idle k.s, c := idle k.c }
    let code := BitVec.ofNat 8 (r.cause % 64 + 64 * r.seq.code)
    (k.quiet = false → takeTrap c r s = .next (s.setCore c { k with trapping := some r })) ∧
    (k.quiet = true → k.nest = 0 → r.cause ≠ cPREEMPT → ∃ u,
      s.onlyCore c { k1 with
        l := k.l.stopped, x := k.x.stopped, s := k.s.stopped, c := { k.c.stopped with pc := vec }, cause := code,
        epc := r.epc, eva := BitVec.ofNat 64 r.eva, nest := 1, priv := true, inHandler := k.cur.isSome,
        cur := k.cur.map fun b => { b with fltd := true } } u ∧
      ∀ t, u.heldTold c k.cur t → takeTrap c r s = .next t) ∧
    (k.quiet = true → k.nest = 1 → isPostmaster c = true → ∃ u,
      s.onlyCore c { k2 with
        c := { idle k.c with pc := vec + 0x100 }, pcause := k.cause.setWidth 64, pepc := k.epc, peva := k.eva,
        cause := code, epc := r.epc, eva := BitVec.ofNat 64 r.eva, nest := 2 } u ∧ takeTrap c r s = .next u) ∧
    (k.quiet = true → k.nest = 1 → isPostmaster c = false → ∃ u, s.onlyCore c { k2 with halted := true } u ∧
      takeTrap c r s = .next
        (u.post (dieOfCore c) (mailWord0 r.cause r.seq.code c 0 0) r.epc.toNat r.eva k.ctx.toNat)) ∧
    (k.quiet = true → 2 ≤ k.nest → ∃ u, s.onlyCore c { k2 with halted := true } u ∧
      takeTrap c r s = .next (u.modDie (dieOfCore c) fun d => { d with fatal := true }))

/-- R275: ERET. At NEST 2 the outer handler goes on at EPC with its own CAUSE, EPC and EVA again; at NEST 1 every
sequencer that is not parked goes on at its RPC, the one that CAUSE names at EPC, none is held, the C-seq is in user mode
and its user bank, NEST is 0, the stopped copies run again and HELD of the task is brought up to date. It waits for the accesses
that its sequencer performs late (log 76). -/
def Obligations.ReturnFromTrap : Prop :=
  ∀ (c : Ctl) (s : State), Ready (.eret c) c [] s → s.me.onPriv s.curSeq = true →
    let k := s.me
    let back (q : SeqId) : Seq :=
      let x := k.seq q
      if x.parked then { x with held := false }
      else { x with held := false, pc := if q.code = k.cause.toNat / 64 then k.epc else x.rpc }
    (k.nest = 0 → exec (.eret c) s = trapHere cUNDEF (encode (.eret c)) s) ∧
    (k.nest ≠ 0 → s.mySeq.late ≠ [] → exec (.eret c) s = .next (s.waitFor (.eret c) false)) ∧
    (k.nest = 2 → s.mySeq.late = [] → Completes (.eret c) s fun t => (∀ n, t.g n = s.g n) ∧
      s.retires c [] s { k with cause := k.pcause.setWidth 8, epc := k.pepc, eva := k.peva, nest := 1 }
        { s.mySeq with pc := k.epc, wait := none } t) ∧
    (k.nest = 1 → s.mySeq.late = [] → ∃ u : State, u = { s with cores := u.cores, cmds := u.cmds, nextId := u.nextId } ∧
      (∀ n, n ≠ s.cur → u.core n = s.core n) ∧ (∀ x, x ∈ s.cmds → x ∈ u.cmds) ∧
      (k.engimg = [] → u.cmds = s.cmds ∧ u.nextId = s.nextId) ∧
      u.me = { k with l := back .L, x := back .X, s := back .S, c := back .C, priv := false, nest := 0,
                      inHandler := false, engimg := [] } ∧
      ∀ u2, u.heldTold s.cur k.cur u2 → Completes (.eret c) s fun t =>
        t = { u2 with cores := t.cores } ∧ (∀ n, n ≠ s.cur → t.core n = u2.core n) ∧
        t.me = { u2.me with l := t.me.l, x := t.me.x, s := t.me.s, c := t.me.c, tokq := t.me.tokq, event := t.me.event } ∧
        (∀ q : SeqId, t.me.seq q = { u2.me.seq q with
          wait := if q = SeqId.C then none else (u2.me.seq q).wait, sigq := (t.me.seq q).sigq }))

/-- R272, R276: TRAP, which the C-seq alone accepts, traps BREAK with the code in EVA and the address after it in EPC; the
word of TRAP 42 is 0x0000_C200_0000_002A, the code stands in [15:0], and a set bit of [39:16] is UNDEF. At NEST 0, with no access
of the core still to be performed, it completes with CAUSE 0x14 of the C-seq, EPC, EVA, NEST 1, the C-seq privileged at TRAPVEC,
every sequencer that was not parked held, and no byte of memory written but HELD of the block's task. -/
def Obligations.TrapInstruction : Prop :=
  (∀ v, v < 2 ^ 40 → decode (0x0000C20000000000 + v) =
    if v < 65536 then .ok (.trap ⟨0, 0, 0, 0⟩ (BitVec.ofNat 16 v)) else .undefField) ∧
  (∀ (c : Ctl) (code : BitVec 16) (s : State), c.ok = true → (accepts s.curSeq (encode (.trap c code)) = true ↔ s.curSeq = .C)) ∧
  ∀ (c : Ctl) (code : BitVec 16) (s : State), Ready (.trap c code) c [] s →
    exec (.trap c code) s = takeTrap s.cur ⟨s.curSeq, cBREAK, code.toNat, s.mySeq.pc + 8⟩ s ∧ cBREAK = 0x14 ∧
    let entered (t : State) : Prop := t.me.cause = BitVec.ofNat 8 (0x14 + 64 * s.curSeq.code) ∧ t.me.epc = s.mySeq.pc + 8 ∧ t.me.eva = code.setWidth 64 ∧
      t.me.nest = 1 ∧ t.me.priv = true ∧ t.me.c.pc = (s.die s.myDie).trapvec ∧
      ∀ q, (t.me.seq q).held = !(s.me.seq q).parked ∧ (t.me.seq q).wait = none
    (s.me.nest = 0 → s.me.quiet = true → s.me.cur = none → Completes (.trap c code) s fun t =>
      entered t ∧ ∀ x, t.byte x = s.byte x) ∧
    (s.me.nest = 0 → s.me.quiet = true → ∃ u : State, entered u ∧ (∀ x, u.byte x = s.byte x) ∧
      ∀ t, u.heldTold s.cur s.me.cur t → exec (.trap c code) s = .next t) ∧
    (s.me.quiet = false → ∃ u : State, exec (.trap c code) s = .next u ∧
      u.me.trapping = some ⟨s.curSeq, cBREAK, code.toNat, s.mySeq.pc + 8⟩)

/-- R91, R139 to R141, R152, R282, for MLDB: the panel takes the K × 64 elements of the operand with its format, scale mode,
block size, and in the float class its scales and for each index the norm that MSAMP uses, the sum of the squares of its 64
scaled elements rounded once; a column's poison is that of any element or scale of it, and the flags of
reading and aligning the columns are raised; no other panel changes. A stream of another sequencer traps SEQCLASS, a panel of
another context PANELOWN. -/
def Obligations.PanelLoad : Prop :=
  ∀ (c : Ctl) (sa pn : Nat) (tx : Bool) (s : State), Ready (.mldb c sa pn tx) c [] s →
    let k := s.me
    let x := k.stream sa
    let tr := x.tr != tx
    let b := fmtBits x.fmt
    let depth := 1536 / b
    let cell (i n : Nat) : Nat × Bool := k.lsBits (x.cellBit b tr i n) b
    let fl (n : Nat) : Flags :=
      let l := lineColumn x.fmt x.smode x.sbl (fun j => (k.scaleAt x n j).1) false ((List.range depth).map fun i => (cell i n).1)
      l.2 ||| (if l.1.nx then fNX else 0)
    (x.own ≠ s.curSeq → exec (.mldb c sa pn tx) s = trapHere cSEQCLASS sa s) ∧
    (x.own = s.curSeq → (k.panel pn).owner ≠ k.ctx.toNat → exec (.mldb c sa pn tx) s = trapHere cPANELOWN pn s) ∧
    (x.own = s.curSeq → (k.panel pn).owner = k.ctx.toNat → x.readable tr depth 64 64 depth →
      Completes (.mldb c sa pn tx) s fun t =>
        s.retires c [] s { k with panels := t.me.panels } { s.mySeq.onward with fstat := t.mySeq.fstat } t ∧
        (∀ g, t.g g = s.g g) ∧ (∀ p, p ≠ pn → t.me.panel p = k.panel p) ∧
        (t.me.panel pn).owner = k.ctx.toNat ∧ (t.me.panel pn).fmt = some x.fmt ∧ (t.me.panel pn).smode = x.smode ∧
        (t.me.panel pn).sbl = x.sblCode ∧ (x.smode = 3 → (t.me.panel pn).tscale = x.scaleLoc) ∧
        (∀ i n, i < depth → n < 64 → (t.me.panel pn).element i n = (cell i n).1) ∧
        (fmtIsInt x.fmt = false → x.smode = 1 ∨ x.smode = 2 → ∀ n j, n < 64 → j * x.sbl < depth →
          (t.me.panel pn).scale n j = (k.scaleAt x n j).1) ∧
        (∀ n, n < 64 → ((t.me.panel pn).poison.testBit n = true ↔ (∃ i, i < depth ∧ (cell i n).2 = true) ∨
          (x.smode = 1 ∨ x.smode = 2) ∧ ∃ j, j * x.sbl < depth ∧ (k.scaleAt x n j).2 = true)) ∧
        (fmtIsInt x.fmt = false → x.smode ≤ 3 → ∀ i, i < depth →
          let v (n : Nat) : Val := scaledVal x.smode (k.scaleAt x n (i / x.sbl)).1 (fmtDecode x.fmt (cell i n).1).1
          (t.me.panel pn).norm i = (rne32 ((List.range 64).foldl (fun a n => ((v n).mul (v n)).1.add false a.1)
            (.zero false, 0))).1) ∧
        s.flagged (fun i => ∃ n, n < 64 ∧ (fl n).getLsbD i = true) t)

/-- R91, R142 to R147, R152, R282, for MMA: in the integer class every element of the tile becomes its old value, or 0, plus
the exact sum of the products, wrapped or clamped; in the float class the wide sum of the aligned row and column with its
48-bit window, or the NaN or infinity of R146; its poison
is that of its row, its column and its old value. The tile then belongs to the context. What it needs traps in order:
SEQCLASS, PANELOWN, ACCOWN, FMT. -/
def Obligations.MatrixProduct : Prop :=
  (∀ (c : Ctl) (sa pn tile : Nat) (tx zc sat : Bool) (s : State), Ready (.mma c sa pn tile tx zc sat) c [] s →
    let i := Instr.mma c sa pn tile tx zc sat
    let k := s.me
    let x := k.stream sa
    let q := k.panel pn
    let tr := x.tr != tx
    let depth := min (1536 / fmtBits x.fmt) (1536 / fmtBits q.code)
    let old (p : Nat) : Nat := ((k.tile tile).getD p 0).toNat
    let row (r : Nat) : Lined × Flags := k.rowA x tr depth r
    let a (r j : Nat) : Int := fmtInteger x.fmt (k.lsBits (x.cellBit (fmtBits x.fmt) tr r j) (fmtBits x.fmt)).1
    let dot (p : Nat) : Int := ((List.range depth).map fun j => a (p / 64) j * fmtInteger q.code (q.element j (p % 64))).sum
    let total (p : Nat) : Int := (if zc then 0 else (BitVec.ofNat 32 (old p)).toInt) + dot p
    let fl (p : Nat) : Flags := (row (p / 64)).2 ||| (if (row (p / 64)).1.nx then fNX else 0)
    let owned : Prop := x.own = s.curSeq ∧ q.owner = k.ctx.toNat ∧ k.tileOwner tile = k.ctx.toNat
    (x.own ≠ s.curSeq → exec i s = trapHere cSEQCLASS sa s) ∧
    (x.own = s.curSeq → q.owner ≠ k.ctx.toNat → exec i s = trapHere cPANELOWN pn s) ∧
    (x.own = s.curSeq → q.owner = k.ctx.toNat → k.tileOwner tile ≠ k.ctx.toNat → exec i s = trapHere cACCOWN tile s) ∧
    (owned → q.fmt = none → exec i s = trapHere cFMT pn s) ∧
    (owned → q.fmt.isSome = true → fmtIsInt x.fmt ≠ fmtIsInt q.code → exec i s = trapHere cFMT x.fmt s) ∧
    (owned → q.fmt.isSome = true → fmtIsInt x.fmt = true → fmtIsInt q.code = true → x.smode = 0 → q.smode = 0 →
      x.readable tr 16 depth 16 depth → Completes i s fun t => s.tileOnly c [] k t ∧ (∀ g, t.g g = s.g g) ∧
        s.setsTile tile (fun p => if sat then (max (-2147483648) (min 2147483647 (total p))).emod 4294967296 |>.toNat
            else (total p).emod 4294967296 |>.toNat)
          (fun p => (row (p / 64)).1.poison || q.poison.testBit (p % 64) || (!zc && (k.tilePoison tile).testBit p)) t ∧
        s.flagged (fun j => ∃ p, p < 1024 ∧ (fl p).getLsbD j = true) t) ∧
    (owned → q.fmt.isSome = true → fmtIsInt x.fmt = false → fmtIsInt q.code = false →
      x.readable tr 16 depth 16 depth → Completes i s fun t => s.tileOnly c [] k t ∧ (∀ g, t.g g = s.g g) ∧
        let el (p : Nat) : Nat × Flags :=
          floatElem (row (p / 64)).1 (q.line (p % 64)).1 (if zc then none else some (old p))
        s.setsTile tile (fun p => (el p).1)
          (fun p => (row (p / 64)).1.poison || q.poison.testBit (p % 64) || (!zc && (k.tilePoison tile).testBit p)) t ∧
        s.flagged (fun j => ∃ p, p < 1024 ∧ (fl p ||| (el p).2).getLsbD j = true) t)) ∧
  ∀ (a b : Lined) (c : Option Nat), a.special = a.vals.any (!·.isFin) → b.special = b.vals.any (!·.isFin) →
    let cv : Option Val := c.map fmtF32.decode
    let met (P : Val → Val → Prop) : Prop := ∃ p, p ∈ a.vals.zip b.vals ∧ P p.1 p.2
    let nan : Prop := cv = some .nan ∨ met fun x y => x.isNan = true ∨ y.isNan = true
    let inv : Prop := met fun x y => (∃ g, x = .inf g ∧ y.isZero = true) ∨ ∃ g, y = .inf g ∧ x.isZero = true
    let inf (g : Bool) : Prop := cv = some (.inf g) ∨ met fun x y => x.isNan = false ∧ y.isNan = false ∧
      (x.isFin = false ∨ y.isFin = false) ∧ x.isZero = false ∧ y.isZero = false ∧ (x.sign != y.sign) = g
    let r := floatElem a b c
    (nan → r = (fmtF32.packNan, 0)) ∧
    (¬ nan → inv ∨ inf false ∧ inf true → r = (fmtF32.packNan, fNV)) ∧
    (¬ nan → ¬ inv → ∀ g, inf g → ¬ inf (!g) → r = (fmtF32.signBit g + fmtF32.packInf, 0)) ∧
    (¬ nan → ¬ inv → ¬ inf false → ¬ inf true →
      let parts : List (Int × Int) := List.zipWith (fun (g h : Group32) => ((List.zipWith (· * ·) g.codes h.codes).sum, g.q + h.q))
        a.groups b.groups
      let own : List (Int × Int) := match cv with
        | some (.fin neg n _ e) => [(if neg then -(n : Int) else n, e)]
        | _ => []
      let nz := (parts ++ own).filter fun t => t.1 != 0
      let size (t : Int × Int) : Int := (Nat.log2 t.1.natAbs : Int) + t.2
      (nz = [] → r = (0, 0)) ∧
      ∀ top, (∃ t, t ∈ nz ∧ size t = top) → (∀ t, t ∈ nz → size t ≤ top) →
        let lo := top - 47
        let kept (t : Int × Int) : Nat := t.1.natAbs * 2 ^ (t.2 - lo).toNat / 2 ^ (lo - t.2).toNat
        let u := (nz.map fun t => if t.1 < 0 then -(kept t : Int) else kept t).sum
        let e := fmtF32.encode .rne 0 (.fin (decide (u < 0)) u.natAbs 1 lo)
        r.1 = (if u = 0 then 0 else e.1) ∧ ∀ j, r.2.getLsbD j = true ↔ e.2.getLsbD j = true ∨
          fNX.getLsbD j = true ∧ ∃ t, t ∈ nz ∧ kept t * 2 ^ (lo - t.2).toNat ≠ t.1.natAbs * 2 ^ (t.2 - lo).toNat)

/-- R156, R157, R330, for MSCFG; R158 to R161, R331, for MSAMP where its operands can be read: an index without a finite norm
traps SAMPLE with the least such index, a sum Z of the norms that is not finite traps SAMPLE (its EVA is free, log 3); else RD
and NSAMP receive the number of samples, a multiple of 64 or the budget, the tile belongs to the context, and a Z of zero takes
no sample, draws no word and adds nothing to the tile. For a non-zero Z the samples are drawn from the alias table, passes add
to the estimate, VARR and the count are those at which R161 stops, and the tile receives the scaled estimate. Which of the
roundings raise flags is the model's choice (log 86). -/
def Obligations.SampledProduct : Prop :=
  (∀ (c : Ctl) (n : Nat) (s : State), Ready (.mscfg c n) c [4 * n, 4 * n + 1, 4 * n + 2, 4 * n + 3] s →
    let i := Instr.mscfg c n
    let budget := (s.g (4 * n)).toNat
    let thr := (s.g (4 * n + 1)).toNat
    let v := fmtF32.decode thr
    let own := s.me.sampler.owner = s.me.ctx.toNat
    (¬ own → exec i s = trapHere cPANELOWN 8 s) ∧
    (own → (budget = 0 ∨ 4096 < budget) → exec i s = trapHere cSAMPLE budget s) ∧
    (own → 1 ≤ budget → budget ≤ 4096 → (v.isNan = true ∨ v.lt (.zero false) = true) → exec i s = trapHere cSAMPLE thr s) ∧
    (own → 1 ≤ budget → budget ≤ 4096 → v.isNan = false → v.lt (.zero false) = false → Completes i s fun t =>
      s.retires c [] s { s.me with sampler := t.me.sampler } s.mySeq.onward t ∧ (∀ g, t.g g = s.g g) ∧
      t.me.sampler.budget = budget ∧ t.me.sampler.threshold = thr ∧ t.me.sampler.owner = s.me.ctx.toNat ∧
      let seed := (s.pair (4 * n + 2)).toNat
      let z1 := mix64 ((seed + 0x9E3779B97F4A7C15) % 2 ^ 64)
      let z2 := mix64 ((seed + 2 * 0x9E3779B97F4A7C15) % 2 ^ 64)
      t.me.sampler.s0 = (if z1 = 0 ∧ z2 = 0 then 1 else z1 % 2 ^ 32) ∧ t.me.sampler.s1 = z1 / 2 ^ 32 ∧
      t.me.sampler.s2 = z2 % 2 ^ 32 ∧ t.me.sampler.s3 = z2 / 2 ^ 32)) ∧
  (∀ (c : Ctl) (rd sa pn tile : Nat) (tx zc : Bool) (s : State), Ready (.msamp c rd sa pn tile tx zc) c [] s →
    let i := Instr.msamp c rd sa pn tile tx zc
    let k := s.me
    let x := k.stream sa
    let tr := x.tr != tx
    let f := (k.panel 0).code
    let kk := min (1536 / fmtBits x.fmt) (1536 / fmtBits f)
    let n := (pn + 1) * kk
    let norm := k.sampleNorm x tr kk n
    let z := k.sampleZ x tr kk n
    x.own = s.curSeq → k.sampler.owner = k.ctx.toNat → k.tileOwner tile = k.ctx.toNat →
    (∀ p, p ≤ pn → (k.panel p).owner = k.ctx.toNat ∧ (k.panel p).fmt.isSome = true ∧ (k.panel p).code = f) →
    fmtIsInt x.fmt = false → fmtIsInt f = false → 1 ≤ k.sampler.budget → n ≤ 1536 → x.readable tr 16 n 16 n →
      (∀ j, j < n → (norm j).isFin = false → (∀ l, l < j → (norm l).isFin = true) → exec i s = trapHere cSAMPLE j s) ∧
      ((∀ j, j < n → (norm j).isFin = true) → z.isFin = false →
        exec i s = trapHere cSAMPLE (Config.free s.draws % 2 ^ 64) { s with draws := s.draws + 1 }) ∧
      ((∀ j, j < n → (norm j).isFin = true) → z.isFin = true → ∃ m, m ≤ k.sampler.budget ∧ (m = 0 ↔ z.isZero = true) ∧
        (m % 64 = 0 ∨ m = k.sampler.budget) ∧ Completes i s fun t =>
          s.tileOnly c [rd] { k with nsamp := BitVec.ofNat 13 m, varr := t.me.varr, sampler := t.me.sampler } t ∧
          s.putsScalar false rd m t ∧ t.me.tileOwner tile = k.ctx.toNat ∧
          (∀ p, p ≠ tile → t.me.tile p = k.tile p ∧ t.me.tilePoison p = k.tilePoison p ∧ t.me.tileOwner p = k.tileOwner p) ∧
          (z.isZero = true → t.me.varr = 0 ∧ t.me.sampler = k.sampler ∧
            ∀ p, p < 1024 → (t.me.tile tile).getD p 0 = if zc then 0 else (k.tile tile).getD p 0) ∧
          (z.isZero = false →
            let ns := (List.range n).map norm
            let cols := (List.range 64).map fun j => (List.range (pn + 1)).flatMap fun q => (((k.panel q).line j).1.byIndex).take kk
            let p : Sampled := ⟨n, k.sampler.budget, z, ns, (List.range 16).map fun r => (k.rowA x tr n r).1.vals, cols,
              aliasTable (ns.map fun v => aliasWeight v z n), fmtF32.decode k.sampler.threshold⟩
            let r := p.run (p.budget + 1) 0 (List.replicate 1024 (0, 0)) 0 k.sampler
            m = r.t ∧ t.me.varr = BitVec.ofNat 32 r.varr ∧ t.me.sampler = r.gen ∧
            ∀ q, q < 1024 → let e := fmtF32.decode (r.est.getD q 0)
              e.isFin = true → let old := ((k.tile tile).getD q 0).toNat
              ((t.me.tile tile).getD q 0).toNat = (addWide (if zc then none else some old) e.term).1))) ∧
  -- R159: the alias table and a draw from it
  (∀ (v z : Val) (n : Nat) (g : Bool) (a b : Nat) (e : Int), (v.div z).1 = .fin g a b e →
    aliasWeight v z n = (roundMag .rne 0 false (a * n) b (e + 32) 0).1) ∧
  (∀ (fuel l sl g sg : Nat) (small large : List (Nat × Nat)), let w := sg + sl - 2 ^ 32
    aliasBuild (fuel + 1) ((l, sl) :: small) ((g, sg) :: large) = (l, sl, g) ::
        (if w < 2 ^ 32 then aliasBuild fuel (small ++ [(g, w)]) large else aliasBuild fuel small ((g, w) :: large)) ∧
      aliasBuild (fuel + 1) [] large = [] ∧ aliasBuild (fuel + 1) small [] = []) ∧
  (∀ (ws : List Nat), let p := ws.zipIdx.map fun w => (w.2, w.1)
    aliasTable ws = aliasBuild ws.length (p.filter (·.2 < 2 ^ 32)) (p.filter (2 ^ 32 ≤ ·.2))) ∧
  (∀ (x : Sampler) (tab : List (Nat × Nat × Nat)) (n : Nat), let u := x.next
    let v := u.2.next
    let i := u.1 * n / 2 ^ 32
    x.draw tab n = ((match tab.find? (·.1 == i) with
      | some e => if v.1 < e.2.1 then i else e.2.2
      | none => i), v.2)) ∧
  (∀ x : Sampler, let t := x.s1 * 512 % 2 ^ 32
    x.next = (rotl32 (x.s1 * 5 % 2 ^ 32) 7 * 9 % 2 ^ 32, { x with
      s2 := (x.s2 ^^^ x.s0) ^^^ t, s3 := rotl32 (x.s3 ^^^ x.s1) 11, s1 := x.s1 ^^^ (x.s2 ^^^ x.s0),
      s0 := x.s0 ^^^ (x.s3 ^^^ x.s1) })) ∧
  -- R160: a pass, and its part of the estimate
  (∀ (p : Sampled) (fuel t : Nat) (ms : List (Nat × Nat)) (x : Sampler), let d := x.draw p.tab p.n
    let ms' := if d.1 ∈ ms.map (·.1) then ms.map fun e => if e.1 = d.1 then (e.1, e.2 + 1) else e else ms ++ [(d.1, 1)]
    (ms.map (·.1)).Nodup → drawPass p (fuel + 1) t ms x =
      if ms'.length = 16 ∨ (t + 1) % 64 = 0 ∨ t + 1 = p.budget then (ms', t + 1, d.2) else drawPass p fuel (t + 1) ms' d.2) ∧
  (∀ (p : Sampled) (ms : List (Nat × Nat)) (u : List (Nat × Flags)), p.rows.length = 16 → p.cols.length = 64 →
    u.length = 1024 →
    let line (r : Nat) : Group32 × Bool := alignGroup 8 (ms.map fun m =>
      ((((((p.rows.getD r []).getD m.1 (.zero false)).mul (.ofInt m.2)).1.mul p.z).1).div
        ((p.ns.getD m.1 .nan).mul (.ofInt p.budget)).1).1)
    let term (r c : Nat) : Term := sumTerms ((ms.zip (line r).1.codes).map fun q =>
      let b := (p.cols.getD c []).getD q.1.1 (0, 0)
      (⟨q.2 * b.1, (line r).1.q + b.2⟩ : Term))
    let res := p.addPass ms u
    (∀ q, q < 1024 → let e := u.getD q (0, 0)
      let s := addWide (some e.1) (term (q / 64) (q % 64))
      res.1.getD q (0, 0) = (s.1, e.2 ||| s.2)) ∧
    res.2 = if (List.range 16).any (fun r => (line r).2) then fNX else 0) ∧
  -- R161: the scaled estimate, its variance, and when sampling stops
  (∀ (p : Sampled) (t : Nat) (est : List Nat), let f := (rne32 (est.foldl (fun a v =>
      ((fmtF32.decode v).mul (fmtF32.decode v)).1.add false a.1) (.zero false, 0))).1
    let zz := (rne32 (p.z.mul p.z)).1
    let v := (rne32 ((rne32 ((rne32 (zz.div f)).1.add false (.ofInt (-1)))).1.div (.ofInt t))).1
    (∀ u, t ≠ p.budget → p.scaleUp t u = (fmtF32.encode .rne 0
      (rne32 ((rne32 ((fmtF32.decode u).mul (.ofInt p.budget))).1.div (.ofInt t))).1).1) ∧
    (∀ u, p.scaleUp p.budget u = u) ∧
    (f.isZero = true → p.varr t est = .inf false) ∧ (f.isZero = false → v.lt (.zero false) = true → p.varr t est = .zero false) ∧
    (f.isZero = false → v.lt (.zero false) = false → p.varr t est = v)) ∧
  (∀ (p : Sampled) (fuel t : Nat) (u : List (Nat × Flags)) (fl : Flags) (x : Sampler),
    let d := drawPass p 64 t [] x
    let t' := d.2.1
    let w := p.addPass d.1 u
    let est := w.1.map fun e => p.scaleUp t' e.1
    let v := p.varr t' est
    p.run (fuel + 1) t u fl x = if (t' % 64 = 0 ∨ t' = p.budget) ∧ (v.lt p.thr = true ∨ t' = p.budget)
      then ⟨est, t', (fmtF32.encode .rne 0 v).1, fl ||| w.2 ||| orAll (w.1.map (·.2)), d.2.2⟩
      else p.run fuel t' w.1 (fl ||| w.2) d.2.2)

/-- R91, R152 to R154, R165, R302, for ACCZ, ACCRD, ACCWR, ACCLD and ACCST: the tile becomes zeros, the vector register, the
local store's words; or goes to one of them, whole or converted element by element under a format override. Another context's
tile traps ACCOWN. ACCST writes the tile's words and no other byte of the local store. -/
def Obligations.AccumulatorMoves : Prop :=
  (∀ (c : Ctl) (tile : Nat) (s : State), Ready (.accz c tile) c [] s →
    (s.me.tileOwner tile ≠ s.me.ctx.toNat → exec (.accz c tile) s = trapHere cACCOWN tile s) ∧
    (s.me.tileOwner tile = s.me.ctx.toNat → Completes (.accz c tile) s fun t => s.tileOnly c [] s.me t ∧
      (∀ g, t.g g = s.g g) ∧ s.setsTile tile (fun _ => 0) (fun _ => false) t ∧ t.mySeq.fstat = s.mySeq.fstat)) ∧
  (∀ (c : Ctl) (tile : Nat) (rm : Rm) (sat : Bool) (fmt : Option Nat) (vd : Nat) (s : State),
    let i := Instr.accrd c tile rm sat fmt vd
    Ready i c [] s → (∀ f, fmt = some f → f < 24) → (fmt = none → rm = .rne) →
    let old (p : Nat) : Nat := ((s.me.tile tile).getD p 0).toNat
    let res (p : Nat) : Nat × Flags := match fmt with
      | none => (old p, 0)
      | some f => accRead f rm sat (s.convWord 1 rm p) (old p)
    (s.me.tileOwner tile ≠ s.me.ctx.toNat → exec i s = trapHere cACCOWN tile s) ∧
    (s.me.tileOwner tile = s.me.ctx.toNat → Completes i s fun t => s.vectorOnly c t ∧
      s.writesLanes false vd allPos (fun p => (res p).1) (fun p => (s.me.tilePoison tile).testBit p) t ∧
      s.raises false allPos (fun p => (res p).2) t ∧ s.stepped 1 (if rm = .sr then 16 else 0) t)) ∧
  (∀ (c : Ctl) (tile : Nat) (fmt : Option Nat) (vs : Nat) (s : State),
    let i := Instr.accwr c tile fmt vs
    Ready i c [] s → (∀ f, fmt = some f → f < 24) →
    let w (p : Nat) : Nat := ((s.me.vget vs).getD p 0).toNat
    let res (p : Nat) : Nat × Flags := match fmt with
      | none => (w p, 0)
      | some f => accWrite f (w p)
    (s.me.tileOwner tile ≠ s.me.ctx.toNat → exec i s = trapHere cACCOWN tile s) ∧
    (s.me.tileOwner tile = s.me.ctx.toNat → Completes i s fun t => s.tileOnly c [] s.me t ∧ (∀ g, t.g g = s.g g) ∧
      s.setsTile tile (fun p => (res p).1) (fun p => (s.me.vpo vs).testBit p) t ∧
      s.raises false allPos (fun p => (res p).2) t)) ∧
  (∀ (c : Ctl) (sa tile : Nat) (s : State),
    let k := s.me
    let x := k.stream sa
    let bit_ (p : Nat) : Nat := x.localBit 32 (p / 64) (p % 64)
    x.own = s.curSeq → k.tileOwner tile = k.ctx.toNat → x.kind = 0 → (∀ p, p < 1024 → bit_ p + 32 ≤ 8 * lsSize) →
    (Ready (.accld c sa tile) c [] s → Completes (.accld c sa tile) s fun t => s.tileOnly c [] k t ∧ (∀ g, t.g g = s.g g) ∧
      s.setsTile tile (fun p => (k.lsBits (bit_ p) 32).1) (fun p => (k.lsBits (bit_ p) 32).2) t ∧
      t.mySeq.fstat = s.mySeq.fstat) ∧
    (Ready (.accst c sa tile) c [] s → Completes (.accst c sa tile) s fun t =>
      s.retires c [] s { k with store := t.me.store, storePoison := t.me.storePoison } s.mySeq.onward t ∧
      (∀ g, t.g g = s.g g) ∧
      (∀ a, (∀ p, p < 1024 → a < bit_ p / 8 ∨ bit_ p / 8 + 4 ≤ a) → (t.me.lsByte a).1 = (k.lsByte a).1) ∧
      (256 ≤ x.pitch → ∀ p, p < 1024 → (t.me.lsBits (bit_ p) 32).1 = ((k.tile tile).getD p 0).toNat)))

/-- R91, R126, R128, R139, R155, R165, for ACCQ: without a scale mode, or with one and a stream for the scales, every element
of the tile is divided by its block's scale and encoded in the format at its place; the scale of a block, a tile or 32
columns of a row, comes from the largest magnitude in it, as R155 states for each scale mode, and is written at its place. No bit of the local store outside the
elements and the scales changes. -/
def Obligations.AccumulatorQuantise : Prop :=
  ∀ (c : Ctl) (sa sb tile : Nat) (rm : Rm) (fmt : Option Nat) (blk : Bool) (s : State),
    let i := Instr.accq c sa sb tile rm fmt blk
    Ready i c [] s → (∀ f, fmt = some f → f < 24) →
    let k := s.me
    let x := k.stream sa
    let y := k.stream sb
    let f := fmt.getD x.fmt
    let b := fmtBits f
    let sw := if x.smode = 3 then 32 else 8
    let per := if blk then 32 else 1024
    let nb := if x.smode = 0 then 0 else 1024 / per
    let cell (p : Nat) : Nat × Nat := (x.cellBit b x.tr (p / 64) (p % 64), b)
    let spot (h : Nat) : Nat × Nat := (if blk then y.localBit sw (h / 2) (h % 2) else y.localBit sw 0 0, sw)
    let old (p : Nat) : Nat := ((k.tile tile).getD p 0).toNat
    ∃ top : Nat → Nat, (∀ h, (∀ j, j < per → (fmtF32.decode (old (per * h + j))).isNan = false →
        old (per * h + j) % 2 ^ 31 ≤ top h) ∧
      (top h = 0 ∨ ∃ j, j < per ∧ (fmtF32.decode (old (per * h + j))).isNan = false ∧ old (per * h + j) % 2 ^ 31 = top h)) ∧
    let scale (h : Nat) : Nat :=
      let amax := fmtF32.decode (top h)
      let ratio := (amax.div (fmtLargest f)).1
      if x.smode = 0 then 0
      else if amax.isZero = true then (if x.smode = 1 then 127 else if x.smode = 2 then 0x38 else 0x3F800000)
      else if x.smode = 1 then (if ratio.isFin = true then (max (-127) (min 127 (ceilLog2 ratio)) + 127).toNat else 254)
      else if x.smode = 2 then max 1 (min 0x7E (fmtE4M3.encode .rup 0 ratio).1)
      else min (fmtF32.packLargest) (fmtF32.encode .rup 0 ratio).1
    let res (p : Nat) : Nat × Flags :=
      let v := fmtF32.decode (old p)
      fmtEncode f rm (s.convWord 1 rm p) (if x.smode = 0 then v else (v.div (scaleDecode x.smode (scale (p / per)))).1)
    let spans := (List.range 1024).map cell ++ (List.range nb).map spot
    x.own = s.curSeq → (x.smode ≠ 0 → y.own = s.curSeq ∧ y.kind = 0) → k.tileOwner tile = k.ctx.toNat → x.kind = 0 →
    (x.tr = true → 8 ≤ b) → (x.tr = false → x.localBit b 0 0 % 8 = 0) → (∀ e, e ∈ spans → e.1 + e.2 ≤ 8 * lsSize) →
      Completes i s fun t =>
        s.retires c [] s { k with store := t.me.store, storePoison := t.me.storePoison, gens := t.me.gens }
          { s.mySeq.onward with fstat := t.mySeq.fstat } t ∧ (∀ g, t.g g = s.g g) ∧
        (∀ a, (∀ e, e ∈ spans → 8 * a + 8 ≤ e.1 ∨ e.1 + e.2 ≤ 8 * a) → (t.me.lsByte a).1 = (k.lsByte a).1) ∧
        (spans.Pairwise apart →
          (∀ p, p < 1024 → (t.me.lsBits (cell p).1 b).1 = (res p).1 % 2 ^ b) ∧
          ∀ h, h < nb → (t.me.lsBits (spot h).1 sw).1 = scale h % 2 ^ sw) ∧
        s.raises false allPos (fun p => (res p).2) t ∧ s.stepped 1 (if rm = .sr then 16 else 0) t

/-- R90 to R92, R350 to R352, for STRCFG, STRSET and STRADV: eleven words loaded from memory, one word from a register pair,
or the four coordinates moved by a step; a reserved field or a set Res0 bit traps UNDEF, a reserved format, block size or
scale mode FMT with word 1, a misaligned image ALIGN; a STRADV of another sequencer's stream SEQCLASS. No other stream
changes. What the traps of an image leave of its translations is the model's choice (log 72). -/
def Obligations.StreamRegisters : Prop :=
  (∀ (c : Ctl) (n ra : Nat) (imm : BitVec 24) (s : State), Ready (.strcfg c n ra imm) c [ra, ra + 1] s →
    let i := Instr.strcfg c n ra imm
    let a := (s.pair ra + imm.signExtend 64).toNat
    (s.mySeq.behindLate 0 = true → exec i s = .next (s.waitFor i false)) ∧
    (s.mySeq.behindLate 0 = false → a % 8 ≠ 0 → exec i s = trapHere cALIGN a s) ∧
    (s.mySeq.behindLate 0 = false → a % 8 = 0 →
      ∀ ws s1, collect (List.range 11) (fun j => loadVa ((a + 8 * j) % 2 ^ 64) 8) s = .ok ws s1 →
      let x : Stream := ws.map (BitVec.ofNat 64)
      let u := { s with ats := s1.ats, atsReqs := s1.atsReqs, draws := s1.draws }
      (x.undef = true → exec i s = trapHere cUNDEF (encode i) u) ∧
      (x.undef = false → x.badFmt = true → exec i s = trapHere cFMT (x.getD 1 0).toNat u) ∧
      (x.undef = false → x.badFmt = false → Completes i s fun t =>
        s.retires c [] s1 { s1.me with streams := t.me.streams } s.mySeq.onward t ∧ (∀ g, t.g g = s.g g) ∧
        t.me.stream n = x ∧ ∀ m, m ≠ n → t.me.stream m = s.me.stream m))) ∧
  (∀ (c : Ctl) (n ra w : Nat) (s : State), Ready (.strset c n ra w) c [ra, ra + 1] s → w < 11 →
    let i := Instr.strset c n ra w
    let x : Stream := (s.me.stream n).set w (s.pair ra)
    (x.undef = true → exec i s = trapHere cUNDEF (encode i) s) ∧
    (x.undef = false → x.badFmt = true → exec i s = trapHere cFMT (x.getD 1 0).toNat s) ∧
    (x.undef = false → x.badFmt = false → Completes i s fun t =>
      s.retires c [] s { s.me with streams := t.me.streams } s.mySeq.onward t ∧ (∀ g, t.g g = s.g g) ∧
      (∀ j, (t.me.stream n).getD j 0 = if j = w then s.pair ra else (s.me.stream n).getD j 0) ∧
      ∀ m, m ≠ n → t.me.stream m = s.me.stream m)) ∧
  (∀ (c : Ctl) (sa k : Nat) (s : State), Ready (.stradv c sa k) c [] s →
    let x := s.me.stream sa
    (x.own ≠ s.curSeq → exec (.stradv c sa k) s = trapHere cSEQCLASS sa s) ∧
    (x.own = s.curSeq → Completes (.stradv c sa k) s fun t =>
      s.retires c [] s { s.me with streams := t.me.streams } s.mySeq.onward t ∧ (∀ g, t.g g = s.g g) ∧
      (∀ j, j < 4 → ((t.me.stream sa).coord j : Int) = ((x.coord j : Int) + x.step k j) % 4294967296) ∧
      (∀ j, j ≠ 3 → j ≠ 4 → (t.me.stream sa).getD j 0 = x.getD j 0) ∧ ∀ m, m ≠ sa → t.me.stream m = s.me.stream m))

/-- R91, R113, R345 to R347, for STRLD and STRST: with room for a transfer, both streams its own and its checks passed, the
sequencer goes on at once with one more transfer in flight, which holds what it read at issue, its elements' places among it
(R70, R215); the scalar registers, the local store and every stream stay. A ninth transfer, a full checker, or an access that
its sequencer performs late, makes it wait; another's stream traps SEQCLASS. -/
def Obligations.StreamTransfersIssue : Prop :=
  ∀ (load : Bool) (c : Ctl) (sa sb : Nat) (tx : Bool) (s : State), (load = false → tx = false) →
    let i := if load then Instr.strld c sa sb tx else Instr.strst c sa sb
    let x : Xfer := { id := s.nextId, seq := s.curSeq, load := load, san := sa, sa := s.me.stream sa, sb := s.me.stream sb,
                      tx := tx, ctx := s.me.ctx.toNat, priv := s.me.onPriv s.curSeq, parts := [] }
    let room : Prop := (s.me.xfersOf s.curSeq).length < 8 ∧ s.checkerCount s.cur < 128 ∧ s.mySeq.behindLate 0 = false
    Ready i c [] s →
    (¬ room → exec i s = .next (s.waitFor i false)) ∧
    (room → x.sa.own ≠ s.curSeq → exec i s = trapHere cSEQCLASS sa s) ∧
    (room → x.sa.own = s.curSeq → x.sb.own ≠ s.curSeq → exec i s = trapHere cSEQCLASS sb s) ∧
    (room → x.sa.own = s.curSeq → x.sb.own = s.curSeq → ∀ m s1 s2, x.check sb s.cur s = .ok m s1 → x.made s.cur m s1 s2 →
      Completes i s fun t => (∀ g, t.g g = s.g g) ∧ ∃ y, y = { x with parts := y.parts, side := m, spots := x.cells.map fun p => x.spot m false p.1 p.2 } ∧
        (x.sa.cal = false → y.parts = []) ∧
        s.retires c [] { s2 with nextId := s2.nextId + 1 }
          { s2.me with xfers := s2.me.xfers ++ [y], cur := t.me.cur, hots := t.me.hots } s.mySeq.onward t)

/-- R25, R86, R114, R210, R234, R238, R242, R247, R248, R250, for the twelve instructions that issue an engine command: once the
sequencer's earlier writes have been performed, and with room in the checker and on the counter, the command joins the
outstanding ones, holding its four operand registers, and RD takes what the row gives, or is left for the completion; nothing
else of the core changes. Without room it waits. The values that STASH, STFETCH, STDROP, CHSEND, CHREL, TILEREQ and PGREQ put in
RD at issue rest on log 34, log 51 and log 52 where the manual leaves them open. -/
def Obligations.EngineCommandsIssue : Prop :=
  ∀ (i : Instr) (c : Ctl) (kind : CmdKind) (op : Nat) (e : EngF) (v : Cmd → Op (Option Nat)) (s : State),
    engRow i = some (c, kind, op, e, v) → decodeTrap i s = none →
    Ready i c [4 * e.grp, 4 * e.grp + 1, 4 * e.grp + 2, 4 * e.grp + 3] s →
    let k : Cmd := {
      id := s.nextId, kind := kind, op := op, core := s.cur, seq := s.curSeq, ctr := e.ctr, g0 := s.g (4 * e.grp),
      g1 := s.g (4 * e.grp + 1), g2 := s.g (4 * e.grp + 2), g3 := s.g (4 * e.grp + 3), ctx := s.me.ctx.toNat,
      priv := s.me.onPriv s.curSeq, acq := e.acq, rel := e.rel, scope := e.scope, buf := e.buf, rd := e.rd,
      block := s.me.cur, since := s.clock }
    let room : Prop := s.mySeq.late = [] ∧ (∀ x, x ∈ s.me.xfersOf s.curSeq → x.load = true) ∧
      s.checkerCount s.cur < 128 ∧ s.ecnt s.cur s.curSeq e.ctr < 4095
    (¬ room → exec i s = .next (s.waitFor i false)) ∧
    (room → ∀ r s1, v k s = .ok r s1 → Completes i s fun t =>
      s.retires c (if r.isSome then [e.rd] else []) { s1 with cmds := s1.cmds ++ [k], nextId := s1.nextId + 1 } s1.me
        s.mySeq.onward t ∧
      match r with
      | some n => s.putsScalar false e.rd n t
      | none => ∀ g, t.g g = s.g g)

/-- R29, R38, R40, R88, R359, for TQPOP: with a block current RD is 0; with another sequencer running it waits; a block that
the Sorting Frame hands out starts on the core; when none is to be had, the time-out form gives 4 once its time has passed, and
waits until then, and while a task for the core stands in its 64 clocks (the model's choice, log 54). R35, R360, for TQPUSH: it
fails with 4 for a handle beyond the pool, 5 for what cannot be read, 1 for a task that is not IDLE, 2 for a PREDCNT, 3 for any
other check of R35; else the task is inserted, in state 1 with all its blocks to run, and RD is 0; without room in a frame it
waits. A poisoned TCB is told by mailbox (R282), and the instruction does not wait for that message (log 53). -/
def Obligations.TaskQueueInstructions : Prop :=
  (∀ (c : Ctl) (rd : Nat) (to_ : Option Nat) (s : State), Ready (.tqpop c rd to_) c to_.toList s →
    let i := Instr.tqpop c rd to_
    let free : Prop := s.me.cur = none ∧ s.me.l.parked = true ∧ s.me.x.parked = true ∧ s.me.s.parked = true
    (s.me.cur ≠ none → Completes i s (s.gives c rd 0 s)) ∧
    (s.me.cur = none → ¬ free → exec i s = .next (s.waitFor i false)) ∧
    (free → ∀ s1, popBlock s.cur s = .ok none s1 →
      (s1.popExpired to_ s1.issuedAt = true → s1.popSoon s.cur = false → Completes i s (s.gives c rd 4 s1)) ∧
      (s1.popExpired to_ s1.issuedAt = false ∨ s1.popSoon s.cur = true → exec i s = .next (s.waitFor i false))) ∧
    (free → ∀ tk b s1, s.curSeq = .C → popBlock s.cur s = .ok (some (tk, b)) s1 → tk.info.scope < 12 →
      ∀ stamp s2, (match tk.relaunch with | some p => EStateM.Result.ok p.1 s1 | none => stampNow s.myDie tk.info.ctx s1) = .ok stamp s2 →
      let s3 := if 10 ≤ tk.info.scope then s2.dropHostLines else s2
      Completes i s fun t => t = { s3 with cores := t.cores } ∧ (∀ n, n ≠ s.cur → t.core n = s3.core n) ∧
        s.me.delivered tk.info b stamp tk.pf tk.relaunch.isSome (s.mySeq.pc + 8) rd t.me ∧
        (2 ≤ tk.info.scope → t.me.acq = s3.npub ∧ t.me.seen = [] ∧ t.me.l1 = []) ∧ (c.ssel = 0 → ∀ n, t.me.tok n = 0))) ∧
  (∀ (d x h : Nat) (s : State),
    let prep := prepTask d x h true none s
    (∀ s1, readTcb d x h s = .ok .beyond s1 → prep = .ok (.fail 4) s1) ∧
    (∀ s1, readTcb d x h s = .ok .unreadable s1 → prep = .ok (.fail 5) s1) ∧
    ∀ w s1, readTcb d x h s = .ok (.ok w) s1 →
      let idle : Prop := w.getD 1 0 / 2 ^ 48 % 16 = 0 ∧ s1.holdsTask x h = false
      let placed : Prop := w.getD 0 0 % 256 = 0 ∧ w.getD 3 0 % 64 = 0
      (¬ idle → prep = .ok (.fail 1) s1) ∧
      (idle → w.getD 1 0 / 2 ^ 32 % 2 ^ 16 ≠ 0 → prep = .ok (.fail 2) s1) ∧
      (idle → w.getD 1 0 / 2 ^ 32 % 2 ^ 16 = 0 → ¬ placed → prep = .ok (.fail 3) s1) ∧
      (idle → w.getD 1 0 / 2 ^ 32 % 2 ^ 16 = 0 → placed →
        (∀ s2, agWords (agTask d) d x (w.getD 0 0) 32 s1 = .ok none s2 → prep = .ok (.fail 5) s2) ∧
        ∀ k s2, agWords (agTask d) d x (w.getD 0 0) 32 s1 = .ok (some k) s2 →
          (w.getD 3 0 ≠ 0 → ∀ s3, agRead (agTask d) d x (w.getD 3 0) 36 s2 = .ok none s3 → prep = .ok (.fail 5) s3) ∧
          ∀ cs s3, (w.getD 3 0 = 0 ∧ cs = 2 ^ 288 - 1 - 1 - 2 ^ 144 ∧ s3 = s2 ∨
              w.getD 3 0 ≠ 0 ∧ agRead (agTask d) d x (w.getD 3 0) 36 s2 = .ok (some cs) s3) →
            let tk := mkInfo x h w k cs
            (insertSound w k cs (blockCount tk.kinds tk.extent) → prep = .ok (.ok tk w) s3) ∧
            (¬ insertSound w k cs (blockCount tk.kinds tk.extent) → prep = .ok (.fail 3) s3))) ∧
  (∀ (c : Ctl) (rd ra : Nat) (s : State), Ready (.tqpush c rd ra) c [ra] s →
    let i := Instr.tqpush c rd ra
    let prep := prepTask s.myDie s.me.ctx.toNat (s.g ra).toNat true none s
    (∀ code s1, prep = .ok (.fail code) s1 → code ≠ 5 → Completes i s (s.gives c rd code s1)) ∧
    (∀ s1, prep = .ok (.fail 5) s1 → ∀ s2, tellPoison s.myDie s.me.ctx.toNat (s.g ra).toNat s1 = .ok () s2 →
      Completes i s (s.gives c rd 5 s2)) ∧
    (∀ tk w s1, prep = .ok (.ok tk w) s1 →
      let sel := List.range (blockCount tk.kinds tk.extent)
      ((∃ d, d < 2 ∧ tk.dieBlocks sel d ≠ [] ∧ 65536 ≤ s1.frameCount d) →
        ∃ u : State, exec i s = .next (u.waitFor i false) ∧ u.tasks = s.tasks ∧ u.cores = s.cores ∧ u.mem = s.mem) ∧
      ((∀ d, d < 2 → tk.dieBlocks sel d ≠ [] → s1.frameCount d < 65536) → ∀ s2, startTask s.myDie tk w sel none s1 = .ok () s2 →
        (∃ x, x ∈ s2.tasks ∧ x.info = tk ∧ x.state = 1 ∧ x.blkleft = sel.length ∧ x.trigleft = sel.length ∧ x.nextblk = 0) ∧
        Completes i s (s.gives c rd 0 s2))))

/-- R35, R356, for TARM: 5 for a handle beyond the pool, 4 for a count above 65,535, 6 for a TCB that cannot be read or
written, 2 for a task that is neither idle nor ended; else the TCB is armed and RD is 0, or, armed with no predecessor, the
task is inserted and RD is 1, or 3 when that fails, which is told by mailbox. R35, R42, R43, R45, R357, R361, for TDONE and
TTRIG: outside a block neither has an effect, nor a second TTRIG; TDONE of 0xFFFF in user mode traps PRIV, and waits for the
core to be drained; after its release, trace and counts the block is no longer current, after 0xFFFF the same block has
started again with its triggered mark; TTRIG marks it. The messages and code 6 are log 53's, TDONE in a handler and of 0xFFFF
log 55's choice; a message without room makes TDONE and TTRIG wait (R290). -/
def Obligations.TaskEndInstructions : Prop :=
  (∀ (c : Ctl) (rd ra rb : Nat) (s : State), Ready (.tarm c rd ra rb) c [ra, rb] s →
    let i := Instr.tarm c rd ra rb
    let h := (s.g ra).toNat
    let n := (s.g rb).toNat
    let x := s.me.ctx.toNat
    let res (v : Nat) (u : State) : Prop := Completes i s (s.gives c rd v u)
    ∀ e s0, ctxEnt s.myDie x s = .ok e s0 →
      (e.tcbSize ≤ h → Completes i s (s.gives c rd 5 s0)) ∧
      (h < e.tcbSize → 65535 < n → Completes i s (s.gives c rd 4 s0)) ∧
      (h < e.tcbSize → n ≤ 65535 →
        (∀ s1 s2, readTcb s.myDie x h s0 = .ok .unreadable s1 → tellPoison s.myDie x h s1 = .ok () s2 → res 6 s2) ∧
        ∀ w s1, readTcb s.myDie x h s0 = .ok (.ok w) s1 →
          let st := w.getD 1 0 / 2 ^ 48 % 16
          let ended : Prop := (st = 0 ∨ st = 4 ∨ st = 5) ∧ s1.holdsTask x h = false
          (¬ ended → Completes i s (s.gives c rd 2 s1)) ∧
          (ended →
            (∀ s2, armTcb s.myDie x h n s1 = .ok false s2 → Completes i s (s.gives c rd 6 s2)) ∧
            ∀ s2, armTcb s.myDie x h n s1 = .ok true s2 →
              (n ≠ 0 → res 0 s2) ∧
              (n = 0 → ∀ code s3, insertTask s.myDie x h s2 = .ok code s3 →
                (code = 0 → res 1 s3) ∧ (code ≠ 0 → res 3 (s3.postUnit s.myDie 1 2 h code x)))))) ∧
  (∀ (c : Ctl) (ra : Nat) (s : State), Ready (.tdone c ra) c [ra] s →
    let i := Instr.tdone c ra
    let status := (s.g ra).toNat % 65536
    (status = 0xFFFF → s.me.onPriv s.curSeq = false → exec i s = trapHere cPRIV (encode i) s) ∧
    (status ≠ 0xFFFF ∨ s.me.onPriv s.curSeq = true →
      (s.me.cur = none → Completes i s fun t => s.retires c [] s s.me s.mySeq.onward t ∧ ∀ g, t.g g = s.g g) ∧
      (s.me.cur ≠ none → s.me.deferred = 0 → s.me.psbLines.length ≤ psbCapacity → s.drained = false →
        exec i s = .next (s.waitFor i true)) ∧
      (∀ b, s.me.cur = some b → s.me.deferred = 0 → s.me.psbLines.length ≤ psbCapacity → s.drained = true → b.info.scope < 12 →
        (status ≠ 0xFFFF → ∀ s1 s2 s3, settle s.cur b.info.scope allSeqs s = .ok () s →
          releaseAlone s.cur b.info.scope s = .ok () s1 → writeTrace s.cur b status s1 = .ok () s2 →
          retireBlock s.cur b status (if s.me.nest = 0 then s2 else s2.modMe (·.parkLxs)) = .ok () s3 →
          s3.me.cur = none ∧ s3.me.inHandler = false ∧
          s.toPost i s3 (Completes i s fun t => s.retires c [] s3 s3.me s3.mySeq.onward t)) ∧
        (status = 0xFFFF → ∀ s1 a, rerun b s = .ok (.goto a) s1 → s1.me.nest = 0 ∧ s1.me.priv = false ∧
          s.toPost i s1 (∃ t y, exec i s = .next t ∧ t.me.cur = some y ∧ y.info = b.info ∧ y.blk = b.blk ∧ y.ranges = [] ∧
            y.trig = b.trig))))) ∧
  (∀ (c : Ctl) (s : State), Ready (.ttrig c) c [] s →
    let i := Instr.ttrig c
    let nothing (t : State) : Prop := s.retires c [] s s.me s.mySeq.onward t ∧ ∀ g, t.g g = s.g g
    (s.me.cur = none → Completes i s nothing) ∧
    (∀ b, s.me.cur = some b → (b.trig = true → Completes i s nothing) ∧
      (b.trig = false → ∀ s1 s2, releaseBlock b s = .ok () s1 →
        countTrig s.myDie b.info.ctx b.info.h (s1.modBlock s.cur fun b => { b with trig := true }) = .ok () s2 →
        s2.me.cur.map (·.trig) = some true ∧
        s.toPost i s2 (Completes i s fun t => s.retires c [] s2 s2.me s2.mySeq.onward t))))

/-- R51, R52, R53, R336, for the five forms of PENN: a slot number above 7 gives 3, or all ones for PENN.stat; a slot of another
context 5; PENN.load of a full slot 1, of an empty one what the load gives; PENN.start of a loaded or stopped stage makes it
run, from its first entry when it had never run; PENN.stop of a running or faulted one stops it; PENN.unload of a stopped
one without tags in flight empties the slot and gives the number of records left times 256; each gives 1 in another
state; PENN.stat gives the status word. The load's checks (R49 to R51, R61): 4 for a descriptor, pennant table, core set, template
or template descriptor that cannot be read; 2 for a field, address, entry, core set, instance range, template or weight that
R51 refuses; else the slot is LOADED and the load gives 0. R54, R67, R326, R327, for MBPOST: 4 for reserved bits, 5 outside a
block, 2 for a slot of another context, 3 for a phase that the stage does not take; else it releases and appends the record:
0, or 1. The order of the checks of slot, context and state, and the STRAY bit kept over UNLOAD, are log 59's choice; MBPOST's 1
for a record that could not be written is log 58's. -/
def Obligations.StageInstructions : Prop :=
  (∀ (sub : Nat) (c : Ctl) (rd ra rb : Nat) (s : State), sub < 5 →
    let i := match sub with
      | 0 => Instr.pennLoad c rd ra rb
      | 1 => Instr.pennStart c rd ra
      | 2 => Instr.pennStop c rd ra
      | 3 => Instr.pennUnload c rd ra
      | _ => Instr.pennStat c rd ra
    let n := (s.g ra).toNat
    let st := s.stage s.myDie n
    let theirs : Prop := st.state ≠ 0 ∧ st.ctx ≠ s.me.ctx.toNat
    let res (v : Nat) : Prop := Completes i s (s.gives c rd v s)
    let made (v : Nat) (f : StageSlot → Prop) : Prop := ∃ u : State, u = { s with dies := u.dies, chans := u.chans } ∧
      (∀ d, d ≠ s.myDie → u.die d = s.die d) ∧ u.die s.myDie = { s.die s.myDie with stages := (u.die s.myDie).stages } ∧
      (∀ m, m ≠ n → u.stage s.myDie m = s.stage s.myDie m) ∧ f (u.stage s.myDie n) ∧ Completes i s (s.gives c rd v u)
    Ready i c (ra :: (if sub = 0 then [rb, rb + 1] else [])) s →
    (7 < n → res (if sub = 4 then 0xFFFFFFFF else 3)) ∧
    (n ≤ 7 → sub = 4 → res (st.stat (s.holds s.myDie n))) ∧
    (n ≤ 7 → sub ≠ 4 → theirs → res 5) ∧
    (n ≤ 7 → ¬ theirs →
      (sub = 0 → st.state ≠ 0 → res 1) ∧
      (sub = 0 → st.state = 0 → ∀ v s1, pennLoad s.myDie s.me.ctx.toNat n (s.pair rb).toNat s = .ok v s1 →
        Completes i s (s.gives c rd v s1)) ∧
      (sub = 1 → st.state = 1 → made 0 fun x => x = { st with
        state := 2, due := true, entry := 0, repleft := penRep (st.ptab.getD 0 0), isNew := true }) ∧
      (sub = 1 → st.state = 3 → made 0 fun x => x = { st with state := 2, due := true }) ∧
      (sub = 1 → st.state ≠ 1 → st.state ≠ 3 → res 1) ∧
      (sub = 2 → st.state = 2 ∨ st.state = 4 → made 0 fun x => x = { st with state := 3 }) ∧
      (sub = 2 → st.state ≠ 2 → st.state ≠ 4 → res 1) ∧
      (sub = 3 → st.state = 3 → st.tags = [] →
        let left (ph : Nat) : Nat := ((st.q ph).recs.filter (fun r => !r.used)).length
        made (256 * (left 1 + left 2 + left 3)) fun x => x = { stray := st.stray }) ∧
      (sub = 3 → st.state ≠ 3 ∨ st.tags ≠ [] → res 1))) ∧
  (∀ (d x n va : Nat) (s : State),
    let res (v : Nat) (u : State) : Prop := pennLoad d x n va s = .ok v u
    let a := agPenn d
    (∀ s1 b s2, agWords a d x va 32 s = .ok none s1 → poisonedAt a d x va 256 s1 = .ok b s2 →
      res 4 (if b then s2.postStage d n 1 va 4 else s2)) ∧
    ∀ w s1, agWords a d x va 32 s = .ok (some w) s1 →
      let plen := w.getD 4 0 % 512
      let inst := w.getD 2 0 / 2 ^ 32 % 2 ^ 24
      let wv := (w.getD 2 0).testBit 24
      let phases : List Nat := if wv then [1, 2, 3] else [1, 2]
      (¬ stageSound va w → res 2 s1) ∧
      (stageSound va w → ∀ o s2, agBytes a d x (w.getD 3 0) (2 * plen) s1 = .ok o s2 →
        ((∀ l, o = some l → ∃ e, e ∈ l ∧ e.2 = true) → res 4 s2) ∧
        ∀ l, o = some l → (∀ e, e ∈ l → e.2 = false) →
          let byte (j : Nat) : Nat := (l.getD j (0, false)).1.toNat
          let entry (j : Nat) : Nat := byte (2 * j) + 256 * byte (2 * j + 1)
          ((∃ j, j < plen ∧ ¬ entrySound wv (entry j)) → res 2 s2) ∧
          ((∀ j, j < plen → entrySound wv (entry j)) →
            (∀ s3, agRead a d x (w.getD 0 0) 36 s2 = .ok none s3 → res 4 s3) ∧
            ∀ m s3, agRead a d x (w.getD 0 0) 36 s2 = .ok (some m) s3 →
              let set : Prop := (∃ j, m.testBit j = true) ∧ ∀ j, m.testBit j = true → 144 * d < j ∧ j < 144 * d + 144
              (¬ set → res 2 s3) ∧
              (set → ∀ e s4, ctxEnt d x s3 = .ok e s4 →
                (e.tcbSize < inst + 768 → res 2 s4) ∧
                (inst + 768 ≤ e.tcbSize → ∀ ts s5,
                  collect phases (fun ph => templateCheck d x inst (stageTemplate w ph)) s4 = .ok ts s5 →
                  (ts.find? (· != .ok) = some .unreadable → res 4 s5) ∧
                  (ts.find? (· != .ok) = some .refused → res 2 s5) ∧
                  ((∀ r, r ∈ ts → r = .ok) →
                    let ws := (List.range (w.getD 11 0 % 32)).map fun j => w.getD (12 + j / 2) 0 / 2 ^ (32 * (j % 2)) % 2 ^ 32
                    ∀ vs s6, collect ws (fun t => tdesc d x t) s5 = .ok vs s6 →
                    let fresh : Prop := (∀ r, r ∈ vs → ∃ y, r = .ok y ∧ y.vers = true) ∧ ws.Nodup ∧
                      ∀ d' m', d' < 2 → m' < 8 → (s5.stage d' m').state ≠ 0 → (s5.stage d' m').ctx = x →
                        ∀ t, t ∈ ws → t ∉ (s5.stage d' m').weights
                    (¬ fresh → res 2 s6) ∧
                    (fresh → res 0 (s6.modStage d n fun y =>
                      { state := 1, ctx := x, desc := w, ptab := (List.range plen).map entry, stray := y.stray })))))))) ∧
  (∀ (d x inst h : Nat) (s : State),
    let res (r : LoadRes) (u : State) : Prop := templateCheck d x inst h s = .ok r u
    (inst ≤ h → h ≤ inst + 767 → res .refused s) ∧
    (h < inst ∨ inst + 767 < h →
      (∀ s1, readTcb d x h s = .ok .beyond s1 → res .refused s1) ∧
      (∀ s1, readTcb d x h s = .ok .unreadable s1 → res .unreadable s1) ∧
      ∀ w s1, readTcb d x h s = .ok (.ok w) s1 →
        (∀ s2, agWords (agPenn d) d x (w.getD 0 0) 32 s1 = .ok none s2 → res .unreadable s2) ∧
        ∀ k s2, agWords (agPenn d) d x (w.getD 0 0) 32 s1 = .ok (some k) s2 →
          let good : Prop := w.getD 1 0 / 2 ^ 48 % 16 = 0 ∧ w.getD 1 0 / 2 ^ 56 % 4 = d ∧
            ∀ j, j < k.getD 10 0 % 8 → k.getD (4 + j) 0 % 4 ≠ 3
          (good → res .ok s2) ∧ (¬ good → res .refused s2))) ∧
  (∀ (c : Ctl) (grp rd : Nat) (s : State), Ready (.mbpost c grp rd) c [4 * grp, 4 * grp + 1, 4 * grp + 2] s →
    let i := Instr.mbpost c grp rd
    let op := (s.g (4 * grp)).toNat
    let n := op / 2 ^ 18 % 8
    let ph := op / 2 ^ 16 % 4
    let st := s.stage s.myDie n
    let mine : Prop := st.state ≠ 0 ∧ st.ctx = s.me.ctx.toNat
    let res (v : Nat) : Prop := Completes i s (s.gives c rd v s)
    (op / 2 ^ 21 ≠ 0 → res 4) ∧
    (op / 2 ^ 21 = 0 → s.me.cur = none → res 5) ∧
    (∀ b, op / 2 ^ 21 = 0 → s.me.cur = some b → (¬ mine → res 2) ∧
      (mine → (ph < 2 ∨ ph = 3 ∧ st.wv = false) → res 3) ∧
      (mine → ph = 2 ∨ ph = 3 ∧ st.wv = true → ∀ s1 x s2, releaseBlock b s = .ok () s1 →
        appendRec s.myDie n (BitVec.ofNat 64 (op % 2 ^ 18 + 2 ^ 24 + (s.g (4 * grp + 1)).toNat * 2 ^ 32))
          (BitVec.ofNat 64 (s.g (4 * grp + 2)).toNat) s1 = .ok x s2 →
        Completes i s (s.gives c rd (if x = .done then 0 else 1) s2))))

/-- R70 to R75, R372 to R374, for VERNEW, VERPIN and VERDROP: of a readable tensor, VERNEW gives the code of what forbids a
new version, waits for a tile in flight, or makes the version and gives its number; VERPIN gives 4, 1, 2 or 3 for the slot,
the tag, the weight or the version, or moves the pin and gives 0; VERDROP 4, 3, 2 or 5, or marks the version, freed at once
(1) or later (0). A tensor that is malformed traps TENSOR, one that is not mapped NOTMAP (R193, R200, R201). VERNEW's checks:
0xFFFFFFFE for an unversioned tensor, 0xFFFFFFFC above 65,536 tiles, 0xFFFFFFFF with 8 versions or a tile whose REFCNT is 255,
0xFFFFFFFD for a TTBASE that is 0 or no multiple of 256, of the lowest free version v. Making v: its table holds the current
one's entries and summary words; of an accessible tile every existing version that holds the frame, and v, get COW and one
more in REFCNT; VMASK gains v, CUR is v, and no other byte changes (with SHX clear and no AUTODROP, which post and free besides). That VERNEW is one step is log 20's choice; one whose
messages lack room waits (R290, log 53). -/
def Obligations.VersionInstructions : Prop :=
  (∀ (c : Ctl) (rd ra : Nat) (s : State), Ready (.vernew c rd ra) c [ra] s →
    let i := Instr.vernew c rd ra
    let x := s.me.ctx.toNat
    let t := (s.g ra).toNat
    let res (v : Nat) (u : State) : Prop := s.toPost i u (Completes i s (s.gives c rd v u))
    (tdesc s.myDie x t s = .ok .bad s → exec i s = trapHere cTENSOR t s) ∧
    (tdesc s.myDie x t s = .ok .notmap s → exec i s = trapHere cNOTMAP t s) ∧
    ∀ d, tdesc s.myDie x t s = .ok (.ok d) s →
      (∀ code s2, verNewCheck d s = .ok (.fail code) s2 → res code s2) ∧
      (verNewCheck d s = .ok .waits s → exec i s = .next (s.waitFor i false)) ∧
      ∀ v s2 s3, verNewCheck d s = .ok (.make v) s2 → verNewMake s.myDie x t d v s2 = .ok () s3 → res v s3) ∧
  (∀ (d : TDesc) (s : State),
    let res (r : VerNew) (u : State) : Prop := verNewCheck d s = .ok r u
    (d.vers = false → res (.fail 0xFFFFFFFE) s) ∧
    (d.vers = true → 65536 < d.nt → res (.fail 0xFFFFFFFC) s) ∧
    (d.vers = true → d.nt ≤ 65536 →
      ((∀ k, k < 8 → d.hasVersion k = true) → res (.fail 0xFFFFFFFF) s) ∧
      ∀ v, v < 8 → d.hasVersion v = false → (∀ k, k < v → d.hasVersion k = true) →
        let base := d.ttbase.getD v 0
        (base = 0 ∨ base % 256 ≠ 0 → res (.fail 0xFFFFFFFD) s) ∧
        (base ≠ 0 → base % 256 = 0 → ∀ ts s1, collect (List.range d.nt) (readTte d d.cur) s = .ok ts s1 →
          let full : Prop := ∃ x, x ∈ ts ∧ x.accessible = true ∧ x.lo / 2 ^ 36 % 256 = 255
          let moving : Prop := ∃ x, x ∈ ts ∧ x.lo / 2 ^ 31 % 4 = 1
          (full → res (.fail 0xFFFFFFFF) s1) ∧ (¬ full → moving → res .waits s1) ∧
          (¬ full → ¬ moving → res (.make v) s1)))) ∧
  (∀ (die x t v : Nat) (d : TDesc) (s s' : State), verNewMake die x t d v s = .ok () s' →
    d.vers = true → d.cur < 8 → d.hasVersion d.cur = true → d.hasVersion v = false → v < 8 → s.autoDrop x t = false →
    let ours (k : Nat) : Prop := k < 8 ∧ (k = v ∨ d.hasVersion k = true)
    (∀ k k', ours k → ours k' → k ≠ k' → apart (d.room k) (d.room k')) → (∀ k, ours k → apart (d.room k) (d.addr, 128)) →
    (∀ j, j < d.nt → (s.rd (d.table d.cur + 16 * j) 8).testBit 52 = false) →
    (∀ j, j < d.nt →
      let was (k : Nat) : Nat := d.table k + 16 * j
      let holds (k : Nat) : Prop := s.heldTile (was d.cur) ∧ s.heldTile (was k) ∧
        s.rd (was k) 8 % 2 ^ 29 = s.rd (was d.cur) 8 % 2 ^ 29
      (∀ k, k < 8 → d.hasVersion k = true → s'.rd (was k + 8) 8 = s.rd (was k + 8) 8 ∧
        (holds k → sharedTte (s.rd (was k) 8) (s'.rd (was k) 8)) ∧ (¬ holds k → s'.rd (was k) 8 = s.rd (was k) 8)) ∧
      s'.rd (was v + 8) 8 = s.rd (was d.cur + 8) 8 ∧
      (s.heldTile (was d.cur) → sharedTte (s.rd (was d.cur) 8) (s'.rd (was v) 8)) ∧
      (¬ s.heldTile (was d.cur) → s'.rd (was v) 8 = s.rd (was d.cur) 8)) ∧
    (∀ g, 64 * g < d.nt → s'.rd (d.summary v (64 * g)) 4 = s.rd (d.summary d.cur (64 * g)) 4) ∧
    (∀ j, j < 64 → (s'.rd (d.addr + 0x10) 8).testBit j = if 25 ≤ j ∧ j < 28 then v.testBit (j - 25)
      else if j = 28 + v then true else (s.rd (d.addr + 0x10) 8).testBit j) ∧
    ∀ a, (a < d.addr ∨ d.addr + 128 ≤ a) → (∀ k, ours k → a < (d.room k).1 ∨ (d.room k).1 + (d.room k).2 ≤ a) →
      s'.byte a = s.byte a) ∧
  (∀ (c : Ctl) (rd ra rb rc n : Nat) (s : State), Ready (.verpin c rd ra rb rc n) c [ra, rb, rc] s →
    let i := Instr.verpin c rd ra rb rc n
    let x := s.me.ctx.toNat
    let st := s.stage s.myDie n
    let mine : Prop := st.state ≠ 0 ∧ st.ctx = x
    let w := (s.g rb).toNat
    let v := (s.g rc).toNat
    let res (v : Nat) (u : State) : Prop := Completes i s (s.gives c rd v u)
    (¬ mine → res 4 s) ∧
    (mine → st.slotOf (s.g ra).toNat = none → res 1 s) ∧
    (mine → ∀ k slot, st.slotOf (s.g ra).toNat = some (k, slot) →
      (st.weights[w]? = none → res 2 s) ∧
      ∀ t d, st.weights[w]? = some t → tdesc s.myDie x t s = .ok (.ok d) s →
        (8 ≤ v ∨ d.hasVersion v = false → res 3 s) ∧
        (v < 8 → d.hasVersion v = true →
          let slot' : TagSlot := { slot with vset := setField slot.vset (4 * w) 4 v }
          let u := s.modStage s.myDie n fun y => { y with tags := Store.set none y.tags k (some slot') }
          ∀ s2 b s3, mirrorSet s.myDie n k slot'.vset u = .ok () s2 →
            freeIfDue s.myDie x t (fieldOf slot.vset (4 * w) 4) s2 = .ok b s3 → res 0 s3))) ∧
  (∀ (c : Ctl) (rd ra rb : Nat) (s : State), Ready (.verdrop c rd ra rb) c [ra, rb] s →
    let i := Instr.verdrop c rd ra rb
    let x := s.me.ctx.toNat
    let t := (s.g ra).toNat
    let v := (s.g rb).toNat
    let res (v : Nat) (u : State) : Prop := Completes i s (s.gives c rd v u)
    ∀ d, tdesc s.myDie x t s = .ok (.ok d) s →
      let there : Prop := d.vers = true ∧ v < 8 ∧ d.hasVersion v = true
      (d.vers = false → res 4 s) ∧
      (d.vers = true → ¬ there → res 3 s) ∧
      (there → d.cur = v → res 2 s) ∧
      (there → d.cur ≠ v → ⟨x, t, v⟩ ∈ s.drops → res 5 s) ∧
      (there → d.cur ≠ v → ⟨x, t, v⟩ ∉ s.drops → ∀ b s2,
        freeIfDue s.myDie x t v { s with drops := ⟨x, t, v⟩ :: s.drops } = .ok b s2 → res (if b then 1 else 0) s2))

/-- R262 to R265, for TRACE.ADD, TRACE.PATH and RELAUNCH: outside a traced block a TRACE does nothing; in one, ADD offers its
range to the block's read set, where nothing fits it marks the block saturated, and PATH feeds its 32 bits, from the lowest,
into the path signature. RELAUNCH gives 0x03000000 for a handle beyond the pool, 0x06000000 for a TCB, kernel descriptor,
postmark, TTE or summary word that cannot be read or a relaunch summary that cannot be written, 0x01000000 for a task that has
not ended or is held, 0x02000000 for a kernel that is not traced, 0x04000000 for a stage task, 0x05000000 for a failed
insertion; no block selected gives 0 with the summary DONE; else STAMP and summary are written, the task starts with the
selected blocks and RD is their number. A block is selected whose postmark is not VALID or has UNTR, SATR or FLTD, or a stamp of
0 or above the new one, or a range of an ill-formed tensor, beyond its tiles, or with a tile stamped later in a group whose
summary word is later. That the walk is one step is log 20's choice, the stamps of a die's context log 60's, the
messages, for which it does not wait, log 53's. -/
def Obligations.TraceInstructions : Prop :=
  (∀ (c : Ctl) (ra rb rc : Nat) (s : State), Ready (.traceAdd c ra rb rc) c [ra, rb, rc] s →
    let t0 := (s.g ra).toNat
    let first := (s.g rb).toNat
    let last := (s.g rc).toNat
    ∃ cur, Completes (.traceAdd c ra rb rc) s (fun t =>
        s.retires c [] s { s.me with cur := cur } s.mySeq.onward t ∧ ∀ g, t.g g = s.g g) ∧
      (s.me.cur = none → cur = none) ∧
      ∀ b, s.me.cur = some b → ∃ y, cur = some y ∧ y = { b with ranges := y.ranges, satr := y.satr } ∧
        (b.info.traced = false → y = b) ∧
        (b.info.traced = true → last < first ∨ 2 ^ 24 ≤ t0 ∨ 2 ^ 24 ≤ first ∨ 65535 < last - first →
          y.ranges = b.ranges ∧ y.satr = true) ∧
        (b.info.traced = true → b.ranges = [] → first ≤ last → t0 < 2 ^ 24 → first < 2 ^ 24 → last - first ≤ 65535 →
          y.ranges = [⟨t0, first, last⟩] ∧ y.satr = b.satr)) ∧
  (∀ (c : Ctl) (ra : Nat) (s : State), Ready (.tracePath c ra) c [ra] s →
    let traced : Bool := (s.me.cur.map (·.info.traced)).getD false
    Completes (.tracePath c ra) s fun t => s.retires c [] s s.me
      (if traced then { s.mySeq with crc := (List.range 32).foldl (fun k j => crcBit k ((s.g ra).getLsbD j)) s.mySeq.crc }
        else s.mySeq).onward t ∧ ∀ g, t.g g = s.g g) ∧
  (∀ (c : Ctl) (rd ra : Nat) (s : State), Ready (.relaunch c rd ra) c [ra] s →
    let i := Instr.relaunch c rd ra
    let x := s.me.ctx.toNat
    let h := (s.g ra).toNat
    let d := s.myDie
    let ag := agTask d
    let res (v : Nat) (u : State) : Prop := Completes i s (s.gives c rd v u)
    (∀ v s1, relaunchOp d x h s = .ok v s1 → res v s1) ∧
    (∀ s1, readTcb d x h s = .ok .beyond s1 → res 0x03000000 s1) ∧
    (∀ s1 s2, readTcb d x h s = .ok .unreadable s1 → tellPoison d x h s1 = .ok () s2 → res 0x06000000 s2) ∧
    ∀ w s1, readTcb d x h s = .ok (.ok w) s1 →
      let st := w.getD 1 0 / 2 ^ 48 % 16
      let ended : Prop := (st = 4 ∨ st = 5) ∧ s1.holdsTask x h = false
      (¬ ended → res 0x01000000 s1) ∧
      (ended → (∀ s2, agWords ag d x (w.getD 0 0) 32 s1 = .ok none s2 → res 0x06000000 s2) ∧
        ∀ k s2, agWords ag d x (w.getD 0 0) 32 s1 = .ok (some k) s2 →
          let traced : Prop := (k.getD 10 0).testBit 3 = true ∧ w.getD 14 0 ≠ 0
          (¬ traced → res 0x02000000 s2) ∧
          (traced → (w.getD 2 0).testBit 35 = true → res 0x04000000 s2) ∧
          (traced → (w.getD 2 0).testBit 35 = false → ∀ now s3, stampNow d x s2 = .ok now s3 →
            let stamp := if (now + 1) % 2 ^ 32 = 0 then 1 else (now + 1) % 2 ^ 32
            let tk := mkInfo x h w k 0
            let nb := blockCount tk.kinds tk.extent
            let sum := addrAdd tk.tracebuf (64 * nb)
            let words (lo hi : Nat) : List RByte := wordBytes [lo + hi * 2 ^ 32, 0, 0, 0, 0, 0, 0, 0]
            ∀ sel s4, collect (List.range nb) (fun b => blockSelected d tk stamp b) s3 = .ok sel s4 →
              (none ∈ sel → res 0x06000000 s4) ∧
              (none ∉ sel →
                let chosen := (List.range nb).filter fun b => sel.getD b none == some true
                (∀ s5, agCanWrite ag d x sum 64 s4 = .ok false s5 → res 0x06000000 s5) ∧
                ∀ s5, agCanWrite ag d x sum 64 s4 = .ok true s5 →
                  (chosen = [] → ∀ ok s6, agWriteBytes ag d x sum (words (2 ^ 25) now) s5 = .ok ok s6 → res 0 s6) ∧
                  (chosen ≠ [] →
                    (∀ code s6 s7, prepTask d x h false (some chosen.length) s5 = .ok (.fail code) s6 →
                      insertReport d x h code s6 = .ok () s7 → res 0x05000000 s7) ∧
                    ∀ tk' w' s6 s7 ok s8 s9, prepTask d x h false (some chosen.length) s5 = .ok (.ok tk' w') s6 →
                      hwWr (s6.ctxAddr d x + 0x30) 4 stamp s6 = .ok () s7 →
                      agWriteBytes ag d x sum (words chosen.length stamp) s7 = .ok ok s8 →
                      startTask d tk' w' chosen (some (stamp, chosen.length)) s8 = .ok () s9 → res chosen.length s9))))) ∧
  (∀ (d stamp b : Nat) (t : TaskInfo) (s : State),
    let res (r : Option Bool) (u : State) : Prop := blockSelected d t stamp b s = .ok r u
    let mark := agWords (agTask d) d t.ctx (addrAdd t.tracebuf (64 * b)) 8
    (∀ s1, mark s = .ok none s1 → res none s1) ∧
    ∀ p s1, mark s = .ok (some p) s1 →
      let f (j : Nat) : Bool := (p.getD 0 0).testBit j
      let made := p.getD 0 0 / 2 ^ 32 % 2 ^ 32
      let blind : Prop := f 24 = false ∨ f 25 = true ∨ f 26 = true ∨ f 27 = true ∨ made = 0 ∨ stamp < made
      (blind → res (some true) s1) ∧
      (¬ blind → ∀ rs s2, collect (List.range (min 6 (p.getD 0 0 / 2 ^ 28 % 8)))
          (fun k => orNone (rangeSelects d t.ctx made (p.getD (2 + k) 0))) s1 = .ok rs s2 →
        ((∃ r, r ∈ rs ∧ r.join = none) → res none s2) ∧
        ((∀ r, r ∈ rs → r.join ≠ none) → ∃ y, res (some y) s2 ∧ (y = true ↔ some (some true) ∈ rs)))) ∧
  (∀ (d x made r : Nat) (s : State),
    let res (o : Option Bool) (u : State) : Prop := rangeSelects d x made r s = .ok o u
    let first := r / 2 ^ 24 % 2 ^ 24
    let last := first + r / 2 ^ 48 % 2 ^ 16
    ∀ o s1, tdesc d x (r % 2 ^ 24) s = .ok o s1 →
      (o = .bad → res (some true) s1) ∧ (o = .notmap ∨ o = .poison → res none s1) ∧
      ∀ y, o = .ok y → (y.nt ≤ last → res (some true) s1) ∧
        (last < y.nt → ∀ n s2, rangeNewer y made first last s1 = .ok n s2 → res n s2 ∧ s2 = s1 ∧
          let sum (k : Nat) : Nat := y.summary y.current k
          let tte (k : Nat) : Nat := y.table y.current + 16 * k
          let unread : Prop := ∃ k, first ≤ k ∧ k ≤ last ∧
            (s1.poisoned (sum k) 4 = true ∨ made < s1.rd (sum k) 4 ∧ s1.poisoned (tte k) 16 = true)
          (unread → n = none) ∧
          (¬ unread → ∃ z, n = some z ∧ (z = true ↔ ∃ k, first ≤ k ∧ k ≤ last ∧ made < s1.rd (sum k) 4 ∧
            made < s1.rd (tte k + 8) 8 % 2 ^ 32))))

/-- R173, R220 to R228, R232, R234, R283, for PHASE: a transfer of its own in flight, an access performed late, a link transfer
of the scope or, at HOST and SYSTEM, a host-half write of the core on its way makes it wait; a deferred mask traps ECC on the
X-seq with the lanes counted and the rows marked. An acquire at QUAD or wider takes the present publication point and empties
the L1, at HOST and SYSTEM the host half reads as host memory again; a release below QUAD publishes nothing; one at QUAD or
wider, every line of the buffer translating to where it was stored, empties the buffer and publishes the writes of the core's
completed commands: memory holds the buffered bytes and then those, the other bytes stay; open supersteps of the core's groups
end; at HOST and SYSTEM what the device has published in the host half is sent, and a zero-length read follows. Late accesses
are log 76's, writes published after their command log 21's, host memory log 78's choice. -/
def Obligations.PhaseOrders : Prop :=
  ∀ (c : Ctl) (sc : Nat) (acq rel : Bool) (s : State), sc < 12 → Ready (.phase c sc acq rel) c [] s →
    let i := Instr.phase c sc acq rel
    let host : Prop := sc = 10 ∨ sc = 11
    let fits : Prop := s.me.psbLines.length ≤ psbCapacity ∧ (s.curSeq = .X → s.me.deferred = 0)
    let still : Prop := s.me.xfersOf s.curSeq = [] ∧ s.mySeq.late = [] ∧ (rel = true → host → s.hostBusy s.cur = false) ∧
      ∀ k, k ∈ s.cmds → k.core = s.cur → k.seq = s.curSeq → s.linkBusy (if rel then sc else 0) k = false
    (psbCapacity < s.me.psbLines.length → ∃ a, exec i s = trapHere cPHASEOV a s) ∧
    (s.me.psbLines.length ≤ psbCapacity → s.curSeq = .X → s.me.deferred ≠ 0 → ∃ v, exec i s = trapHere cECC v s ∧
      v / 2 ^ 48 = 0xFFFD ∧ v / 2 ^ 16 % 2 ^ 32 = (List.range 1024).countP s.me.deferred.testBit ∧
      ∀ r, r < 16 → (v.testBit r = true ↔ ∃ j, j < 64 ∧ s.me.deferred.testBit (64 * r + j) = true)) ∧
    (fits → ¬ still → exec i s = .next (s.waitFor i false)) ∧
    (fits → still → rel = false ∨ sc < 2 → Completes i s fun t =>
      let r := if acq = true ∧ host then s.dropHostLines else s
      s.retires c [] r { s.me with acq := t.me.acq, seen := t.me.seen, l1 := t.me.l1 } s.mySeq.onward t ∧
      (∀ g, t.g g = s.g g) ∧
      (if acq = true ∧ 2 ≤ sc then t.me.acq = r.npub ∧ t.me.seen = [] ∧ t.me.l1 = []
        else t.me.acq = s.me.acq ∧ t.me.seen = s.me.seen ∧ t.me.l1 = s.me.l1) ∧
      ∀ x, t.byte x = if acq = true ∧ host ∧ hostBase ≤ x ∧ Store.get false s.hostDirty x = false then s.hostByte x
        else s.byte x) ∧
    (fits → still → rel = true → 2 ≤ sc → s.me.psbOk → s.memWf = true → ∀ s1,
      collect s.me.psb (fun l => do return (l, ← lineTarget s.cur l)) s = .ok (s.me.psb.map fun l => (l, l.pa)) s1 →
      let mine := s.posted.filter (·.core == s.cur)
      let has (p : Posted) (x : Nat) : Prop := p.pa ≤ x ∧ x < p.pa + p.bs.length
      let laid : Nat → Byte := mine.foldl
        (fun f p x => if p.pa ≤ x ∧ x < p.pa + p.bs.length then (p.bs.getD (x - p.pa) (0, false)).1 else f x)
        (fun x => match s.me.buffered x with | some b => b.val | none => s1.byte x)
      let wrote (x : Nat) : Prop := s.me.buffered x ≠ none ∨ ∃ p, p ∈ mine ∧ has p x
      let unsent (x : Nat) : Prop := Store.get false s1.hostDirty x = true ∨ hostBase ≤ x ∧ wrote x
      Completes i s fun t =>
        s.retires c [] { s1 with mem := t.mem, poison := t.poison, pubs := t.pubs, npub := t.npub, dies := t.dies,
                                 pcie := t.pcie, posted := t.posted, hostMem := t.hostMem, hostDirty := t.hostDirty }
          { s.me with psb := [], seen := t.me.seen, acq := t.me.acq, l1 := t.me.l1 } s.mySeq.onward t ∧
        (∀ g, t.g g = s.g g) ∧
        (∀ x, (hostBase ≤ x → acq = true → host → t.byte x = t.hostByte x) ∧
          (x < hostBase ∨ acq = false ∨ ¬ host → t.byte x = laid x)) ∧
        (∀ x, (host → unsent x → t.hostByte x = laid x) ∧ (¬ host ∨ ¬ unsent x → t.hostByte x = s1.hostByte x)) ∧
        (host → t.hostDirty = []) ∧ (¬ host → ∀ x, Store.get false t.hostDirty x = true ↔ unsent x) ∧
        t.posted = s.posted.filter (·.core != s.cur) ∧
        t.me.acq = (if acq then t.npub else s.me.acq) ∧
        (acq = true → t.me.seen = [] ∧ t.me.l1 = []) ∧ (acq = false → t.me.l1 = s.me.l1) ∧
        t.pcie = s.pcie ++ (if sc = 10 ∨ sc = 11 then [.zeroRead] else []) ∧
        ∀ d, t.die d = { s1.die d with lines := (t.die d).lines, groups := (t.die d).groups } ∧
          ∀ g, (t.die d).group g = if d = s.myDie ∧ bit ((s.die d).group g).part (s.cur % 144) = true
            then { (s.die d).group g with step := false } else (s.die d).group g)

/-- R230, R231, R232, R237, for FENCE, BAR and ICINV: a FENCE waits for the sequencer's own stream transfers and late accesses
of the kinds it names and, with ENG, for commands that the range checker has not admitted, and does nothing else. A BAR waits
as a PHASE does; its release made, at an entry that is not valid, or without this core, it gives 4; else the core has arrived
and waits; at the last arrival every core that waits goes on, each with 1 and the count in its RD, the count returns to 0, and a
superstep opens when every arrival had ACQ, REL and a scope that covers the participants; a time-out that has run out
withdraws it, with 2 and the arrivals, unless another sequencer of the core waits there too. A release ends the supersteps of
the core's other groups; an acquire takes the present publication point and empties the L1. An ICINV empties the instruction
cache, each sequencer keeping the oldest words until its next taken branch. What a FENCE waits for in place is log 9's choice,
late accesses log 76's; two sequencers of one core at a barrier, the count given at a time-out and the superstep's bounds are
log 57's. -/
def Obligations.FenceAndBarrier : Prop :=
  (∀ (c : Ctl) (ld st eng : Bool) (s : State), Ready (.fence c ld st eng) c [] s →
    let held : Prop := (∃ x, x ∈ s.me.xfersOf s.curSeq ∧ (if x.load then ld else st) = true) ∨
      (∃ l, l ∈ s.mySeq.late ∧ (ld = true ∧ l.work.loads = true ∨ st = true ∧ l.work.stores = true)) ∨
      eng = true ∧ ∃ k, k ∈ s.cmds ∧ k.core = s.cur ∧ k.seq = s.curSeq ∧ s.entered k = false
    (held → exec (.fence c ld st eng) s = .next (s.waitFor (.fence c ld st eng) false)) ∧
    (¬ held → Completes (.fence c ld st eng) s fun t => s.scalarOnly c [] t ∧ ∀ g, t.g g = s.g g)) ∧
  (∀ (c : Ctl) (sc : Nat) (acq rel : Bool) (rd ra : Nat) (to_ : Option Nat) (s : State),
    let i := Instr.bar c sc acq rel rd ra to_
    let g := (s.g ra).toNat
    let x := (s.die s.myDie).group g
    let host : Prop := sc = 10 ∨ sc = 11
    let part : Prop := g < 64 ∧ x.isValid = true ∧ bit x.part (s.cur % 144) = true
    let now := if x.barCores.contains s.cur then x.barCores else x.barCores ++ [s.cur]
    let late (since : Nat) : Prop := ∃ rb, to_ = some rb ∧ since + 1750 * (s.g rb).toNat ≤ s.clock
    let still : Prop := s.me.xfersOf s.curSeq = [] ∧ s.mySeq.late = [] ∧ (rel = true → host → s.hostBusy s.cur = false) ∧
      ∀ k, k ∈ s.cmds → k.core = s.cur → k.seq = s.curSeq → s.linkBusy (if rel then sc else 0) k = false
    let covers : Prop := 4 ≤ sc ∨ ∀ n n', n < 144 → n' < 144 → bit x.part n = true → bit x.part n' = true → n = n' ∨
      sc = 3 ∧ n / 72 = n' / 72 ∧ n % 12 / 6 = n' % 12 / 6 ∨ sc = 2 ∧ n / 24 = n' / 24 ∧ n % 12 / 2 = n' % 12 / 2
    let bounds : Prop := acq = true ∧ rel = true ∧ covers
    let only (u : State) (brk : Prop) (t : State) : Prop :=
      t = { u with cores := t.cores, dies := t.dies, mem := t.mem, poison := t.poison, pubs := t.pubs, npub := t.npub } ∧
      (∀ a, (a < hostBase ∨ Store.get false u.hostDirty a = true → t.byte a = u.byte a) ∧
        (t.byte a = u.byte a ∨ t.byte a = u.hostByte a)) ∧
      (∀ d, d ≠ s.myDie → t.die d = u.die d) ∧ t.die s.myDie = { u.die s.myDie with groups := (t.die s.myDie).groups } ∧
      ∀ m, m ≠ g → let y := (u.die s.myDie).group m
        (brk → bit y.part (s.cur % 144) = true → (t.die s.myDie).group m = { y with step := false }) ∧
        (¬ brk ∨ bit y.part (s.cur % 144) = false → (t.die s.myDie).group m = y)
    let ends (u : State) (brk : Prop) (code n : Nat) (left : List Nat) (t : State) : Prop :=
      only u brk t ∧ s.putsScalar false rd (code + n * 2 ^ 16) t ∧
      t.mySeq = { t.mySeq with pc := s.mySeq.pc + 8, wait := none } ∧ ((t.die s.myDie).group g).barCores = left ∧
      (acq = true → 2 ≤ sc → t.me.acq = t.npub ∧ t.me.seen = [] ∧ t.me.l1 = []) ∧
      (acq = true → host → ∀ a, hostBase ≤ a → Store.get false u.hostDirty a = false → t.byte a = u.hostByte a)
    let left (l : List Nat) : List Nat :=
      if (s.barWaiters s.myDie g).any (fun p => p.1 == s.cur) then l else l.filter (· != s.cur)
    let opens (u : State) (whole : Prop) (t : State) : Prop :=
      let y := (t.die s.myDie).group g
      (y.step = true ↔ whole) ∧ y.whole = true ∧ y.barPubs = [] ∧ u.npub ≤ y.stepAt ∧ y.stepAt ≤ t.npub ∧
      ∀ p, p ∈ s.barWaiters s.myDie g → ((t.core p.1).seq p.2).wait = none ∧
        ∀ w ctl sc' a r rd' ra' to', ((s.core p.1).seq p.2).wait = some w → w.i = .bar ctl sc' a r rd' ra' to' → rd' ≠ 0 →
          (t.core p.1).g p.2 rd' = BitVec.ofNat 32 (1 + x.count * 2 ^ 16)
    sc < 12 → Ready i c (ra :: to_.toList) s →
    (s.mySeq.wait = none → s.me.psbLines.length ≤ psbCapacity → (s.curSeq = .X → s.me.deferred = 0) →
      (¬ still → exec i s = .next (s.waitFor i false)) ∧
      (still → ∀ s1, (if rel then releaseAlone s.cur sc s else .ok () s) = .ok () s1 → ¬ part → Completes i s (s.gives c rd 4 s1)) ∧
      (still → ∀ pubs s1, (if rel then barRelease s.cur sc s else .ok [] s) = .ok pubs s1 → part →
        let brk : Prop := rel = true ∧ 2 ≤ sc
        (now.length < x.count → ¬ late s.clock → ∃ t, exec i s = .next t ∧ only s1 brk t ∧ s.holding i s1.me t ∧
          let y := (t.die s.myDie).group g
          y = { x with barCores := now, whole := y.whole, step := y.step, barPubs := x.barPubs ++ pubs } ∧
          (y.whole = true ↔ x.whole = true ∧ bounds) ∧ (y.step = true ↔ x.step = true ∧ bounds)) ∧
        (now.length < x.count → late s.clock → Completes i s (ends s1 brk 2 now.length (left now))) ∧
        (x.count ≤ now.length → Completes i s fun t => ends s1 brk 1 x.count [] t ∧
          opens s1 (x.whole = true ∧ bounds) t))) ∧
    (∀ i0 since v, s.mySeq.wait = some ⟨i0, since, true, false, v⟩ →
      (x.barCores.length < x.count → ¬ late since → ∃ t, exec i s = .next t ∧ only s False t ∧ ∀ n, t.core n = s.core n) ∧
      (x.barCores.length < x.count → late since →
        Completes i s (ends s False 2 x.barCores.length (left x.barCores))) ∧
      (x.count ≤ x.barCores.length → Completes i s fun t => ends s False 1 x.count [] t ∧ opens s (x.whole = true) t))) ∧
  (∀ (c : Ctl) (s : State), Ready (.icinv c) c [] s → Completes (.icinv c) s fun t =>
    let k := s.me
    let f (x : Seq) : Seq :=
      { x with icPending := true, icFrom := s.npub, oldLines := if x.icPending then x.oldLines else k.iLines }
    s.retires c [] s { k with iLines := [], l := f k.l, x := f k.x, s := f k.s, c := f k.c } (f s.mySeq).onward t ∧
    ∀ g, t.g g = s.g g)

/-- R93, R94, R353, R354, for SYSR and SYSW: a read gives the register's value, extended with zeros, to RD or the pair; a
write changes a writable register to the operand's low bits, in the copy that MOD names, and no other register, but that a
write of CTX clears the hotness counters; another running sequencer's copy traps UNDEF, a bad ring map LOOPH. -/
def Obligations.SpecialRegisters : Prop :=
  (∀ (c : Ctl) (rd num md : Nat) (s : State), Ready (.sysr c rd num md) c [] s → decodeTrap (.sysr c rd num md) s = none →
    let w : Bool := sysWidth num == some 64
    (num < 0x200 → Completes (.sysr c rd num md) s fun t => s.scalarOnly c (dstAt w rd) t ∧
      s.putsScalar w rd (s.sysGet num (seqOfCode md)) t) ∧
    (0x200 ≤ num → Completes (.sysr c rd num md) s fun t =>
      s.retires c (dstAt w rd) s.syncHot s.syncHot.me s.mySeq.onward t ∧
      s.putsScalar w rd (s.syncHot.sysGet num (seqOfCode md)) t)) ∧
  (∀ (c : Ctl) (rs num md : Nat) (s : State),
    let i := Instr.sysw c rs num md
    let w : Bool := sysWidth num == some 64
    let q := seqOfCode md
    let v := s.opnd w rs
    Ready i c (srcRegs w [rs]) s → decodeTrap i s = none →
    let apart : Prop := sysPerSeq num = true → q = s.curSeq ∨ s.me.partFree q = true
    (¬ apart → exec i s = trapHere cUNDEF (encode i) s) ∧
    (apart → (num = 0x013 ∧ ringOk 16 v = false ∨ num = 0x014 ∧ ringOk 8 v = false) → exec i s = trapHere cLOOPH v s) ∧
    (apart → ¬ (num = 0x013 ∧ ringOk 16 v = false ∨ num = 0x014 ∧ ringOk 8 v = false) → Completes i s fun t =>
      let k := s.me
      let u := t.me
      s.retires c [] s { k with
          l := k.l.sysFrom u.l, x := k.x.sysFrom u.x, s := k.s.sysFrom u.s, c := k.c.sysFrom u.c, seed := u.seed,
          gens := u.gens, srm := u.srm, epc := u.epc, ctx := u.ctx, hotb := u.hotb, hots := u.hots }
        (s.mySeq.sysFrom t.mySeq).onward t ∧ (∀ g, t.g g = s.g g) ∧
      ∀ m p n, sysWidth m = some n → t.sysGet m p =
        if m = num ∧ sysWritable num = true ∧ (sysPerSeq num = true → p = q) then v % 2 ^ n
        else if num = 0x033 ∧ 0x100 ≤ m then 0 else s.sysGet m p))

/-- R173: the phase store buffer holds no address twice: so at reset, and every store to it, and taking lines out of it,
keeps it so. The statements about releases assume it. -/
def Obligations.BufferHoldsEachByteOnce : Prop :=
  (∀ c, (State.reset.core c).psbOk) ∧
  (∀ (k : Core) (ctx va pa : Nat) (b : PByte), k.psbOk → b.off = pa % 128 → (k.bufferByte ctx va pa b).psbOk) ∧
  (∀ (k : Core) (keep : PLine → Bool), k.psbOk → ({ k with psb := k.psb.filter keep } : Core).psbOk) ∧
  ∀ (c : Ctl) (m : MemF) (s t : State), s.me.psbOk → exec (.st c m) s = .next t → t.me.psbOk

/-- R214, R215, R338, R339, for XLINV and SLEEP: XLINV of an address that is misaligned or beyond 41 bits traps UNDEF, where
nothing exists NOTMAP, of a poisoned descriptor ECC; a malformed descriptor has STATUS 2 written and it goes on; else the
covered translations are gone, those of the host too, and it waits for the acknowledgement, after which it goes on. SLEEP goes
on once the event flag is set or its time has passed, and clears the flag; else it waits. -/
def Obligations.InvalidateAndSleep : Prop :=
  (∀ (c : Ctl) (rs md : Nat) (s : State), Ready (.xlinv c rs md) c [rs, rs + 1] s → decodeTrap (.xlinv c rs md) s = none →
    let i := Instr.xlinv c rs md
    let a := (s.pair rs).toNat
    (a % 32 ≠ 0 ∨ 2 ^ 41 ≤ a → exec i s = trapHere cUNDEF (encode i) s) ∧
    (a % 32 = 0 → a < 2 ^ 41 → s.mySeq.wait = none →
      (paOk a = false → exec i s = trapHere cNOTMAP a s) ∧
      (paOk a = true → s.poisoned a 32 = true → exec i s = trapHere cECC a s) ∧
      (paOk a = true → s.poisoned a 32 = false → s.invDesc a = none → Completes i s fun t =>
        s.retires c [] { s with mem := t.mem, poison := t.poison, pubs := t.pubs, npub := t.npub } s.me s.mySeq.onward t ∧
        (∀ g, t.g g = s.g g) ∧ ∀ x, t.byte x = if x = a + 0x18 then 2 else s.byte x) ∧
      (paOk a = true → s.poisoned a 32 = false → ∀ d e, s.invDesc a = some d → ctxEnt s.myDie d.ctx s = .ok e s →
        ∃ t, exec i s = .next t ∧ t = { s with cores := t.cores, tlb := t.tlb, ats := t.ats } ∧
          s.holding i { s.me with inval := some { d with upto := s.nextId, gone := s.goneXlat d e.pasid } } t ∧
          (∀ x, x ∈ t.tlb ↔ x ∈ s.tlb ∧ d.covers x.ctx x.base x.size = false) ∧
          ∀ x, x ∈ t.ats ↔ x ∈ s.ats ∧ d.coversHost e.pasid x = false)) ∧
    (∀ i0 b k v, a % 32 = 0 → a < 2 ^ 41 → s.mySeq.wait = some ⟨i0, b, true, k, v⟩ → s.me.inval = none →
      Completes i s fun t => s.scalarOnly c [] t ∧ ∀ g, t.g g = s.g g)) ∧
  (∀ (c : Ctl) (ra : Nat) (s : State), Ready (.sleep c ra) c [ra] s →
    let i := Instr.sleep c ra
    let us := (s.g ra).toNat
    let done : Prop := s.me.event = true ∨ us ≠ 0 ∧ s.issuedAt + 1750 * us ≤ s.clock
    (done → Completes i s fun t => s.retires c [] s { s.me with event := false } s.mySeq.onward t ∧ ∀ g, t.g g = s.g g) ∧
    (¬ done → exec i s = .next (s.waitFor i false)))

/-- R181, for L2SEED_WRITE: L2SEED seeds the generator of every slice of its die. A write reseeds all of them before any
atomic that comes after it: slice n takes L2SEED XOR (n × 0x9E37_79B9)[31:0], or 0x6D2B_79F5 when that is 0, so the next word
that an AFADD draws there is the step from that seed. L2SEED is 1 at reset and reads back what was written. -/
def Obligations.SliceSeeds : Prop :=
  (∀ d, (State.reset.die d).l2seed = 1) ∧
  (∀ (d pa : Nat) (s : State), homeDie pa = d → (s.die d).sliceGens = [] →
    let y : BitVec 32 := (s.die d).l2seed ^^^ BitVec.ofNat 32 (homeSlice pa * 0x9E3779B9)
    (s.stepSlice pa).1 = xorshift (if y = 0 then 0x6D2B79F5 else y.toNat)) ∧
  ∀ (d : Nat) (v : DWord) (s : State), s.bootFailed = false → Completes (.l2seedWrite d v) s fun t =>
    s.onlyDie d { s.die d with l2seed := v.setWidth 32, sliceGens := [] } t ∧
    t.ctlRead d 0x9000200 = (v.toNat % 2 ^ 32, false) ∧
    ∀ pa, homeDie pa = d →
      let y : BitVec 32 := v.setWidth 32 ^^^ BitVec.ofNat 32 (homeSlice pa * 0x9E3779B9)
      (t.stepSlice pa).1 = xorshift (if y = 0 then 0x6D2B79F5 else y.toNat)

/-- R37, R39, R184, R249, R250, R255, R273, R274, R280, R285, R288, R290, R292, R293, for REGISTER_WRITE,
REGISTER_WINDOW_WRITE, FRAMECFG_WRITE, CALOWN_WRITE, GROUP_ENTRY_WRITE, CHCFG_WRITE, MBTAIL_WRITE, ATTREQ and the two
pre-emption requests. A plain register reads back what was written, in its width, and no other plain register changes; a
register of a sequencer is written only while that sequencer is parked or held; a maintenance slot and a reserved owner are
refused, any other owner waits for the next rotation and then holds; word 0 of a group makes it ready with nothing arrived;
enabling a channel starts its counts at 0, and it grants its window, as it does when a write of RLOG changes that; a frame
ages by the ticks of the old period up to the write (log 80: none of them falls after it); a request to a core that has one
pending adds nothing; a first attestation request is replaced by a second. After a failed boot none of them but
ATTREQ and the boot registers is served. -/
def Obligations.ControlWriteEvents : Prop :=
  (∀ (die off : Nat) (v : DWord) (s : State), s.bootFailed = false →
    (∀ n, (off, n) ∈ plainRegs → Completes (.registerWrite die off v) s fun t =>
      t = { s with dies := t.dies } ∧ (∀ d, d ≠ die → t.die d = s.die d) ∧
      ∀ o m, (o, m) ∈ plainRegs → t.ctlRead die o = if o = off then (v.toNat % 2 ^ n, false) else s.ctlRead die o) ∧
    ((off % 8 ≠ 0 ∨ 0x10000000 ≤ off) → exec (.registerWrite die off v) s = .next s)) ∧
  (∀ (n r : Nat) (q : SeqId) (v : DWord) (s : State), s.bootFailed = false → r < 32 →
    let g : Instr := .registerWindowWrite n (0x400 + 256 * q.code + 8 * r) v
    let k := s.core n
    (k.partFree q = false → exec g s = .next s) ∧
    (k.partFree q = true → Completes g s fun t => ∃ x : Seq, s.onlyThat n (k.setSeq q x) t ∧
      x = { k.seq q with g := x.g, gPoison := x.gPoison } ∧
      ∀ j, (Store.get 0 x.g j = if j = 2 * r + 1 then v.extractLsb' 32 32
          else if j = 2 * r ∧ j ≠ 0 then v.setWidth 32 else Store.get 0 (k.seq q).g j) ∧
        (x.gPoison.testBit j = if j / 2 = r then false else (k.seq q).gPoison.testBit j))) ∧
  (∀ (n off : Nat) (v : DWord) (s : State), off % 8 ≠ 0 → exec (.registerWindowWrite n off v) s = .next s) ∧
  (∀ (d : Nat) (v : DWord) (s : State), s.bootFailed = false → Completes (.framecfgWrite d v) s fun t =>
    t = { s with dies := t.dies, tasks := t.tasks } ∧ (∀ n, n ≠ d → t.die n = s.die n) ∧
    t.die d = { s.die d with agesh := v.setWidth 4, lastTick := s.clock } ∧
    (t.tasks = s.tasks.map fun x => { x with frames := x.frames.map (s.older d) }) ∧
    ((s.die d).agesh = 15 → (∀ x, x ∈ s.tasks → ∀ f, f ∈ x.frames → f.age < 2 ^ 32) → t.tasks = s.tasks)) ∧
  (∀ (d ch slot : Nat) (v : Byte) (s : State), s.bootFailed = false → ch < 144 →
    slot < (if ch < 128 then 32 else 16) →
    let fixed : Prop := slot = 0 ∨ slot = (if ch < 128 then 16 else 8) ∨ 0x90 ≤ v.toNat ∧ v.toNat ≤ 0xFE
    let rotation (u : State) : Nat := (u.clock - u.start) / (if ch < 128 then 256 else 512)
    Completes (.calownWrite d ch slot v) s fun t => (∀ j, t.owner d ch j = s.owner d ch j) ∧
      (fixed → s.onlyDie d (s.die d) t) ∧
      (¬ fixed → s.onlyDie d { s.die d with calPend := (s.die d).calPend ++ [(ch, slot, v, rotation s)] } t ∧
        ∀ u : State, u.die d = t.die d → rotation t < rotation u → u.owner d ch slot = v.toNat)) ∧
  (∀ (d g w : Nat) (v : DWord) (s : State), s.bootFailed = false → Completes (.groupEntryWrite d g w v) s fun t =>
    t = { s with dies := t.dies, cmds := t.cmds } ∧ (w ≠ 0 → t.cmds = s.cmds) ∧ (∀ n, n ≠ d → t.die n = s.die n) ∧
    t.die d = { s.die d with groups := (t.die d).groups } ∧ (∀ m, m ≠ g → (t.die d).group m = (s.die d).group m) ∧
    (w = 0 → ((t.die d).group g).word 0 = v.toNat &&& 0xFFFFFFFFFF0F ∧ ((t.die d).group g).contribs = [] ∧
      ((t.die d).group g).part = ((s.die d).group g).part) ∧
    (w = 1 ∨ w = 2 → ((t.die d).group g).word w = v.toNat) ∧
    (1 ≤ w → w ≤ 3 → ∀ n, ((t.die d).group g).part.testBit n =
      if n / 64 = w - 1 then v.getLsbD (n % 64) && n < 144 else ((s.die d).group g).part.testBit n && n < 144)) ∧
  (∀ (n w : Nat) (v : DWord) (s : State), s.bootFailed = false → w < 4 →
    let en : Prop := w = 0 ∧ v.getLsbD 0 = true ∧ (s.chan n).w0.getLsbD 0 = false
    let ring (x : TChan) : Bool := x.w0.getLsbD 0 && 12 ≤ x.rlog && x.rlog ≤ 28
    let grants (x : TChan) : Prop := ring x = true ∧ (ring (s.chan n) = false ∨ x.window ≠ (s.chan n).window)
    let m : DWord := v &&& (if w = 0 then 0x1FFFFFFF else if w = 2 then 0xFFFF else BitVec.allOnes 64)
    Completes (.chcfgWrite n w v) s fun t => t = { s with chans := t.chans, ports := t.ports } ∧
      (∀ j, j ≠ n → t.chan j = s.chan j) ∧ (t.chan n).word w = m ∧
      (∀ j, j < 4 → j ≠ w → (t.chan n).word j = (s.chan n).word j) ∧
      (¬ en → (t.chan n).delivered = (s.chan n).delivered ∧ (t.chan n).released = (s.chan n).released) ∧
      (en → (t.chan n).delivered = 0 ∧ (t.chan n).released = 0) ∧
      (¬ grants (t.chan n) → t.ports = s.ports) ∧
      (grants (t.chan n) → t.ports = ({ s with chans := t.chans }.sendGrant n).ports)) ∧
  (∀ (d : Nat) (v : DWord) (s : State), s.bootFailed = false → (s.die d).mail = [] →
    Completes (.mbtailWrite d v) s fun t =>
      t = { s with dies := t.dies, pcie := t.pcie } ∧ (∀ n, n ≠ d → t.die n = s.die n) ∧
      t.die d = { s.die d with mbtail := v.setWidth 31 } ∧
      t.pcie = s.pcie ++ (if v.getLsbD 31 = true ∧ v.setWidth 31 ≠ (s.die d).mbtail then [.msix 0] else [])) ∧
  (∀ (d : Nat) (v : DWord) (s : State), Completes (.attreq d v) s (s.onlyDie d { s.die d with attreq := some v })) ∧
  (∀ (i : Instr) (on : Nat → Bool) (s : State),
    (i = .preemptionRequestDie 0 ∧ on = fun n => decide (n < 144)) ∨
      (i = .preemptionRequestDie 1 ∧ on = fun n => decide (144 ≤ n)) ∨
      (i = .preemptionRequestPackage ∧ on = fun _ => true) → s.bootFailed = false →
    Completes i s fun t => t = { s with cores := t.cores } ∧ ∀ n, t.core n =
      if on n = true ∧ n < 288 ∧ n % 144 ≠ 0
        then { s.core n with preq := true, event := (s.core n).event || !(s.core n).preq } else s.core n) ∧
  ∀ (i : Instr) (s : State), s.bootFailed = true →
    (match i with
      | .registerWrite _ off _ => off < 0x9000A00 ∨ 0x9000A80 ≤ off
      | .registerWindowWrite .. | .framecfgWrite .. | .l2seedWrite .. | .calownWrite .. | .groupEntryWrite .. | .chcfgWrite ..
      | .mbtailWrite .. | .preemptionRequestDie .. | .preemptionRequestPackage => True
      | _ => False) → exec i s = .next s

/-- R36, R37, R38, R40, R199, R214 to R217, R231, R269, R272, R273, R277, R280, R292, R339, R359, for the events of the cores and
the Sorting Frame. A core leaves reset only when its accesses and commands have drained, and starts only when all four
sequencers are parked and no block is current, in user mode, and not after a failed boot; a waiting TQPOP, BAR or SLEEP goes on
when its block, or the end of its time, has come, and only while its core may issue; TRAP_ENTRY enters the pending trap once the
last access has been performed; WATCHDOG_TIMEOUT raises TIMEOUT when every sequencer that is not parked has waited too long; the
frames age by the ticks that have passed since die start-up; a waiting task enters all its frames in one step; an invalidation
is acknowledged with STATUS 1, the host's removes the page's translations and is completed, each once the accesses translated
under what it removed have drained; the host's response is cached and ends the request. The model's choices here: what
TIMEOUT counts is log 18's, when CORECTL acts log 29's, what the cache of responses keeps log 30's, the entry into frames and a
TQPOP's time-out log 54's, BAR's withdrawal log 57's, die start-up log 80's. -/
def Obligations.CoreEvents : Prop :=
  (∀ (n : Nat) (s : State), let k := s.core n
    let parkd (x : Seq) : Seq := { x with parked := true, held := false, wait := none }
    let idle : Prop := k.xfers = [] ∧ (∀ q, (k.seq q).late = []) ∧ ∀ q j, j < 4 → s.ecnt n q j = 0
    (k.halted = false → exec (.corectlReset n) s = .next s) ∧
    (k.halted = true → ¬ idle → Completes (.corectlReset n) s (s.onlyThat n { k with resetting := true })) ∧
    (k.halted = true → idle → k.cur = none → Completes (.corectlReset n) s (s.onlyThat n { k with
      l := parkd k.l, x := parkd k.x, s := parkd k.s, c := parkd k.c, tokq := [], nest := 0, priv := false, halted := false,
      resetting := false, trapping := none })) ∧
    let free : Prop := (∀ q, (k.seq q).parked = true) ∧ k.cur = none ∧ (s.sectorReady n = true ∨ n % 144 = 0)
    (free → s.bootFailed = false → Completes (.corectlStart n) s (s.onlyThat n { k with
      priv := false, c := { k.c with parked := false, held := false, pc := k.c.rpc } })) ∧
    (¬ free ∨ s.bootFailed = true → exec (.corectlStart n) s = .next s)) ∧
  (∀ (n : Nat) (q : SeqId) (i : Instr) (s : State),
    (q = .C ∧ (i = .blockStart n ∨ i = .tqpopTimeout n ∨ i = .sleepWakeup n)) ∨ i = .barTimeout n q →
    ((s.core n).seq q).wait = none ∨ s.mayIssue n q = false ∨ (s.core n).dueA ≠ none → exec i s = .next s) ∧
  (∀ (n : Nat) (w : Waiting) (s : State), let u : State := { s with cur := n, curSeq := .C }
    (s.core n).c.wait = some w → s.mayIssue n .C = true → (s.core n).dueA = none →
    (∀ c rd to_, w.i = .tqpop c rd to_ → Ready w.i c to_.toList u → u.me.cur = none → u.me.l.parked = true →
      u.me.x.parked = true → u.me.s.parked = true →
      (∀ tk b s1 stamp s2, popBlock n u = .ok (some (tk, b)) s1 → tk.info.scope < 12 → tk.relaunch = none →
        stampNow u.myDie tk.info.ctx s1 = .ok stamp s2 → Completes (.blockStart n) s fun t =>
          let s3 := if 10 ≤ tk.info.scope then s2.dropHostLines else s2
          t = { s3 with cores := t.cores } ∧ (∀ m, m ≠ n → t.core m = s3.core m) ∧
          u.me.delivered tk.info b stamp tk.pf false (u.mySeq.pc + 8) rd t.me) ∧
      (∀ ra s1, to_ = some ra → w.counted = false → w.since + 1750 * (u.g ra).toNat ≤ s.clock →
        popBlock n u = .ok none s1 → s1.popSoon n = false → Completes (.tqpopTimeout n) s (u.gives c rd 4 s1))) ∧
    (∀ c ra, w.i = .sleep c ra → w.counted = false → u.g ra ≠ 0 → w.since + 1750 * (u.g ra).toNat ≤ s.clock →
      Ready w.i c [ra] u → Completes (.sleepWakeup n) s fun t =>
        u.retires c [] u { u.me with event := false } u.mySeq.onward t ∧ ∀ g, t.g g = u.g g)) ∧
  (∀ (n : Nat) (q : SeqId) (w : Waiting) (c : Ctl) (sc : Nat) (acq rel : Bool) (rd ra rb : Nat) (s : State),
    let u : State := { s with cur := n, curSeq := q }
    let g := (u.g ra).toNat
    let x := (u.die u.myDie).group g
    ((s.core n).seq q).wait = some w → w.i = .bar c sc acq rel rd ra (some rb) → w.arrived = true → sc < 12 →
    s.mayIssue n q = true → (s.core n).dueA = none → Ready w.i c [ra, rb] u →
    (s.clock < w.since + 1750 * (u.g rb).toNat → exec (.barTimeout n q) s = .next s) ∧
    (w.since + 1750 * (u.g rb).toNat ≤ s.clock → x.barCores.length < x.count → Completes (.barTimeout n q) s fun t =>
      u.putsScalar false rd (2 + x.barCores.length * 2 ^ 16) t ∧ t.mySeq.pc = u.mySeq.pc + 8 ∧ t.mySeq.wait = none ∧
      ((t.die u.myDie).group g).barCores =
        if (u.barWaiters u.myDie g).any (fun p => p.1 == n) then x.barCores else x.barCores.filter (· != n))) ∧
  (∀ (n : Nat) (s : State), let k := s.core n
    let quiet : Prop := k.xfers = [] ∧ ∀ q, (k.seq q).late = []
    (k.trapping = none ∨ ¬ quiet → exec (.trapEntry n) s = .next s) ∧
    (∀ r, k.trapping = some r → quiet → k.nest = 0 → k.cur = none → r.cause ≠ cPREEMPT → r.cause ≠ cECC →
      s.plainWaits n → Completes (.trapEntry n) s (s.onlyCore n { k with
        l := k.l.stopped, x := k.x.stopped, s := k.s.stopped,
        c := { k.c.stopped with pc := (s.die (dieOfCore n)).trapvec },
        cause := BitVec.ofNat 8 (r.cause % 64 + 64 * r.seq.code), epc := r.epc, eva := BitVec.ofNat 64 r.eva, nest := 1,
        priv := true, inHandler := false, trapping := none }))) ∧
  (∀ (n : Nat) (q : SeqId) (w : Waiting) (s : State), let k := s.core n
    let stuck (x : Seq) : Prop :=
      ∃ w, x.wait = some w ∧ w.counted = true ∧ w.since + 1750 * k.wdog.toNat ≤ s.clock
    (k.wdog = 0 ∨ k.nest ≠ 0 ∨ k.halted = true ∨ (∃ q, (k.seq q).parked = false ∧ ¬ stuck (k.seq q)) →
      exec (.watchdogTimeout n) s = .next s) ∧
    (k.wdog ≠ 0 → k.nest = 0 → k.halted = false → (∀ p, p ∈ k.pend → p.cause ≠ cTIMEOUT) →
      (∀ p, (k.seq p).parked = false → stuck (k.seq p)) → (k.seq q).parked = false →
      (∀ p : SeqId, p.code < q.code → (k.seq p).parked = true) → (k.seq q).wait = some w →
      Completes (.watchdogTimeout n) s (s.onlyThat n { k with
        pend := k.pend ++ [⟨q, cTIMEOUT, encode w.i / 2 ^ 56 % 256⟩], event := true }))) ∧
  (∀ (d : Nat) (s : State),
    Completes (.frameAgingTick d) s fun t => t = { s with dies := t.dies, tasks := t.tasks } ∧
      (∀ m, m ≠ d → t.die m = s.die m) ∧ t.die d = { s.die d with lastTick := s.clock } ∧
      t.tasks = s.tasks.map fun x => { x with frames := x.frames.map (s.older d) }) ∧
  (∀ (ctx h : Nat) (x : Task) (s : State), s.tasks.filter (·.is ctx h) = [x] →
    let room : Prop := ∀ f, f ∈ x.waiting → s.frameCount f.die < 65536
    (x.waiting = [] ∨ ¬ room → exec (.taskInsertion ctx h) s = .next s) ∧
    (x.waiting ≠ [] → room → Completes (.taskInsertion ctx h) s fun t =>
      t = { s with dies := t.dies, tasks := t.tasks, cores := t.cores } ∧
      { x with waiting := [], frames := x.waiting.map fun f => { f with at_ := s.clock, age := 0 } } ∈ t.tasks ∧
      t.tasks.length = s.tasks.length ∧
      (∀ y, y ∈ t.tasks → y.is ctx h = false → ∃ z, z ∈ s.tasks ∧ y = { z with frames := y.frames }) ∧
      ∀ n, t.core n =
        if ∃ f, f ∈ x.waiting ∧ f.die = n / 144 then { s.core n with event := true } else s.core n)) ∧
  (∀ (n : Nat) (s : State), let k := s.core n
    (k.inval = none → exec (.invalidationAcknowledgement n) s = .next s) ∧
    (∀ d, k.inval = some d → s.undrained d = true → exec (.invalidationAcknowledgement n) s = .next s) ∧
    (∀ d, k.inval = some d → s.undrained d = false →
      (∀ e, e ∈ s.cores → ∀ l, l ∈ e.2.psb → d.covers l.ctx l.va 128 = false ∧ inGone d.gone l.ctx l.pa = false) →
      (∀ p, p ∈ s.posted → ∀ r, r ∈ d.gone → p.pa < r.2.1 ∨ r.2.1 + r.2.2 ≤ p.pa) →
      Completes (.invalidationAcknowledgement n) s fun t =>
        { s with mem := t.mem, poison := t.poison, pubs := t.pubs, npub := t.npub, hostDirty := t.hostDirty }.onlyThat n
          { k with inval := none } t ∧
        ∀ x, t.byte x = if x = d.addr + 0x18 then 1 else s.byte x)) ∧
  (∀ (die pasid start len : Nat) (s : State), (∀ e, e ∈ s.cores → e.2.psb = []) →
    let i := Instr.atsInvalidationRequest die pasid start len
    let mine (a : AtsInv) : Prop := a.die = die ∧ a.pasid = pasid ∧ a.start = start ∧ a.len = len
    let hit (e : AtsEnt) : Bool := e.pasid == pasid && 4096 * e.page < start + len && start < 4096 * e.page + 4096
    let new : AtsInv := ⟨die, pasid, start, len, s.nextId,
      (s.ats.filter hit).map fun e => (none, hostBase + e.hpa / 4096 * 4096, 4096)⟩
    let begun : State := { s with atsInv := s.atsInv ++ [new], ats := s.ats.filter fun e => !hit e }
    let out (a : AtsInv) (u : State) : Prop := (u.undrained a.desc = true → exec i s = .next u) ∧
      (u.undrained a.desc = false → (∀ p, p ∈ s.posted → ∀ r, r ∈ a.gone → p.pa < r.2.1 ∨ r.2.1 + r.2.2 ≤ p.pa) →
        exec i s = .next { u with atsInv := u.atsInv.erase a, pcie := s.pcie ++ [.invalidationCompletion die pasid start len] })
    ((∀ a, a ∈ s.atsInv → ¬ mine a) → out new begun) ∧
    ∀ a r, s.atsInv = a :: r → mine a → out a s) ∧
  (∀ (die pasid page hpa : Nat) (r w error later : Bool) (s : State),
    let i := Instr.atsTranslationResponse die pasid page hpa r w error later
    let mine (q : AtsReq) : Prop := q.die = die ∧ q.pasid = pasid ∧ q.page = page
    (later = true ∨ (∀ q, q ∈ s.atsReqs → ¬ mine q) → exec i s = .next s) ∧
    (later = false → (∃ q, q ∈ s.atsReqs ∧ mine q) → Completes i s fun t =>
      t = { s with ats := t.ats, atsReqs := t.atsReqs } ∧ (∀ q, q ∈ t.atsReqs ↔ q ∈ s.atsReqs ∧ ¬ mine q) ∧
      ∃ asked, (asked = true ↔ ∃ q, q ∈ s.atsReqs ∧ mine q ∧ q.write = true) ∧
        ∀ e, e ∈ t.ats ↔ e = ⟨die, pasid, page, hpa, r, w, error, asked⟩ ∨
          e ∈ s.ats ∧ ¬ (e.die = die ∧ e.pasid = pasid ∧ e.page = page)))

/-- R189, R190, R240, R241, R244, R247, R248, R250, R253, R254, R257, R347 to R349, R59, R60, R62 to R64, R55, R290, for the
events of the scheduler and the engines. A unit does the next piece of a command's work, and a completed command is gone with
its counter lowered and its error raised. Each kind's pieces: a copy's admission and its granules; CHSEND's checks, window and
flits; CHRECV's granules; CHREL; PRST's checks, contribution and result; COLL's record, transfers, gates, combining, and in
shared-exponent mode exponents, encoding and final step; STASH's entry and each tile by ACT and FB; STFETCH's and STDROP's
tiles; the steps of a move with its restarts. A stream load brings each element's bits to its place, a patch with a page that
is not resident zeros; a stream store publishes its elements' bits and no other, and stamps its tiles. A stalled STASH whose
tensor has gone ends TENSOR, or STASHFULL at its time-out; an STFETCH NOFRAME. An arrival record is appended while its queue
has room. Evaluations of a clock go up by stage; one enters its entry, chooses a tag, and releases it with the instance TCB and
records of R59, or faults the stage. A message enters the ring when that has room. The model's choices: a message's wait
log 12's, a work piece an event log 31's, directory places and pools logs 32's and 33's, a grant's count log 35's, elements
past NELEM log 37's, a refusal by firmware log 38's, evaluation and faults of a release logs 59's and 77's, a version pinned for
a weight that has gone log 20's, flags of an encoding log 85's. -/
def Obligations.SchedulerAndEngineEvents : Prop :=
  (∀ (id : Nat) (s : State), let i := Instr.engineCommandCompletion id
    (s.cmd id = none → exec i s = .next s) ∧
    ∀ k, s.cmd id = some k →
      (∀ t, runCmd k s = .ok () t → exec i s = .next t) ∧
      (k.core < 288 →
        let b := s.acquired k
        let core := k.core
        let done (u : State) (e prog n : Nat) : Prop := Completes i s (u.ended k e prog n)
        let waits : Prop := exec i s = .next s
        let turns (u : State) (y : Cmd) : Prop :=
          exec i s = .next { u with cmds := u.cmds.map fun z => if z.id = k.id then y else z }
        (k.kind = .chrel →
          let n := k.g0.toNat % 64
          (∀ e, chrelBad k (s.chan n) = some e → done b e 0 0) ∧
          (chrelBad k (s.chan n) = none → ∃ u : State, u = { b with chans := u.chans, ports := u.ports } ∧
            (k.g1 = 0 → u.ports = s.ports) ∧ (∀ j, j ≠ n → u.chan j = s.chan j) ∧
            u.chan n = { s.chan n with released := (s.chan n).released + k.g1.toNat } ∧ done u 0 0 0)) ∧
        (k.kind = .chsend → k.phase = 0 →
          let n := (k.g2.toNat / 2 ^ 18) % 64
          let ph := k.g2.toNat / 2 ^ 16 % 4
          let c := s.chan n
          let q := s.port c.port
          let len := k.g1.toNat
          let bad : Option Nat := if k.g2.toNat / 2 ^ 24 ≠ 0 then some 9
            else if c.enabled = false ∨ c.srccore ≠ core then some 0x0A else if q.trained = false then some 0x0B
            else if len % 16 ≠ 0 ∨ len < 16 then some 1 else none
          (∀ e, bad = some e → done b e 0 0) ∧ (bad = none → c.grant = none → waits) ∧
          ∀ g, bad = none → c.grant = some g →
            let bad' : Option Nat := if 2 ^ g.rlog < len then some 0x0A else if k.g0.toNat % 16 ≠ 0 then some 2
              else if lsSize < k.g0.toNat + len then some 3 else if ph = 0 ∧ g.stgv = true then some 9 else none
            let free : Prop := (∀ x, x ∈ s.cmds → x.kind = .chsend → x.phase = 0 → x.sendChan = n → k.id ≤ x.id) ∧
              g.sent + len ≤ g.window ∧ s.rangeFree core k.id (footOf k.g0.toNat len false) = true
            (∀ e, bad' = some e → done b e 0 0) ∧ (bad' = none → ¬ free → waits) ∧
            (bad' = none → free → ∃ t fl, exec i s = .next t ∧ t = { b with chans := t.chans, ports := t.ports, cmds := t.cmds } ∧
              (t.cmds = s.cmds.map fun z => if z.id = k.id then { k with phase := 1 } else z) ∧
              (∀ j, j ≠ n → t.chan j = s.chan j) ∧ t.chan n = { c with grant := some { g with sent := g.sent + len } } ∧
              (∀ j, j ≠ c.port → t.port j = s.port j) ∧
              t.port c.port = { q with tx := q.tx + fl.length, wire := q.wire ++ fl, replay := (t.port c.port).replay } ∧
              fl.length = (len + 223) / 224 ∧ ∀ (j : Nat) (f : Flit), fl[j]? = some f →
                f = ⟨(q.tx + j) % 65536, (q.rx + 65535) % 65536, 1, c.remch, 224 * j, ⟨k.g2.toNat % 65536, ph, k.g3.toNat, len⟩,
                  (((s.core core).lsBytes k.g0.toNat len).drop (224 * j)).take 224, Config.flitCrc f.bytes⟩)) ∧
        (k.kind = .chsend → k.phase ≠ 0 → waits) ∧
        (k.kind = .chrecv →
          let n := k.g0.toNat % 64
          let c := s.chan n
          let len := k.g2.toNat
          let bad : Option Nat := if 64 ≤ k.g0.toNat then some 9 else if c.enabled = false ∨ c.rctx ≠ k.ctx then some 0x0A
            else if len % 16 ≠ 0 ∨ 2 ^ c.rlog < len then some 1 else if k.g3.toNat % 16 ≠ 0 ∨ k.g1.toNat % 16 ≠ 0 then some 2
            else if lsSize < k.g3.toNat + len then some 3 else none
          (∀ e, bad = some e → done b e 0 0) ∧
          (bad = none → s.rangeFree core k.id k.foot = false → waits) ∧
          (bad = none → s.rangeFree core k.id k.foot = true → ∀ s1 e m s2,
            flushFor k (lineInVa c.rctx c.w1.toNat (2 ^ c.rlog)) b = .ok () s1 →
            recvRun k n c (List.range (len / 16)) s1 = .ok (e, m) s2 → done s2 e m (16 * m))) ∧
        (k.kind = .cpy ∨ k.kind = .cpyr → k.parts = [] → k.admitted = false →
          (s.oldAdmitted core k.id = false → waits) ∧
          (s.oldAdmitted core k.id = true →
            (∀ e s1, k.readDesc b = .ok (.error e) s1 → turns s1 { k with admitted := true, code := e, words := [], feet := [] }) ∧
            ∀ w s1, k.readDesc b = .ok (.ok w) s1 →
              turns s1 { k with admitted := true, code := 0, words := w, feet := (copyDescOf w).foot })) ∧
        (k.kind = .cpy ∨ k.kind = .cpyr → k.parts = [] → k.admitted = true →
          let d := copyDescOf k.words
          let at_ := addrAdd k.va0 0x28
          (s.rangeFree core k.id k.foot = false → waits) ∧
          (s.rangeFree core k.id k.foot = true →
            (k.code ≠ 0 → k.va0 % 64 ≠ 0 → done s k.code 0 0) ∧
            (k.code ≠ 0 → k.va0 % 64 = 0 → ∀ st s1, putStatus16 (agentCopy core) k at_ k.code s = .ok st s1 → done s1 st 0 0) ∧
            (k.code = 0 → d.bad (k.kind == .cpyr) = none → d.sk = 0 → d.dk = 0 → d.cal = false →
              apart (d.srca, d.size) (d.dsta, d.size) →
              let n := redBytes d.rt
              let x (e : Nat) : Nat := (s.core core).lsNum (d.srca + n * e) n
              let y (e : Nat) : Nat := (s.core core).lsNum (d.dsta + n * e) n
              let word (e : Nat) : Nat := if d.rsr then rotl32 (xorshift^[e / 64 + 1] (s.genOf core 2)) (e % 64 % 32) else 0
              let v (e : Nat) : Nat × Flags := reduced d.rt d.ro d.rsr (word e) (y e) (x e)
              ∃ (u : State) (fl : Flags), s.onlyThat core { s.core core with
                  store := (u.core core).store, storePoison := (u.core core).storePoison, gens := (u.core core).gens } u ∧
                (∀ j, u.genOf core j = if k.kind = .cpyr ∧ d.rsr = true ∧ j = 2
                  then xorshift^[(d.size / n + 63) / 64] (s.genOf core j) else s.genOf core j) ∧
                (∀ a, a < d.dsta ∨ d.dsta + d.size ≤ a → (u.core core).lsByte a = (s.core core).lsByte a) ∧
                (k.kind = .cpy → fl = 0 ∧ ∀ a, a < d.size →
                  (u.core core).lsByte (d.dsta + a) = (s.core core).lsByte (d.srca + a)) ∧
                (k.kind = .cpyr → (∀ j, fl.getLsbD j = true ↔ ∃ e, e < d.size / n ∧ (v e).2.getLsbD j = true) ∧
                  ∀ e j, e < d.size / n → j < n → let a := n * e + j
                    (u.core core).lsByte (d.dsta + a) = (BitVec.ofNat 8 ((v e).1 / 2 ^ (8 * j)),
                      ((s.core core).lsByte (d.dsta + a)).2 || ((s.core core).lsByte (d.srca + a)).2)) ∧
                ∀ st s1, putStatus16 (agentCopy core) k at_ (fl.toNat * 2 ^ 8) u = .ok st s1 →
                  done s1 st (d.size / 16) d.size))) ∧
        (k.kind = .prst → k.phase = 0 →
          let len := k.g1.toNat
          let d := core / 144
          let g := k.g2.toNat
          let bad : Option Nat := if k.g0.toNat % 16 ≠ 0 ∨ k.g3.toNat % 16 ≠ 0 then some 2
            else if len = 0 ∨ 256 < len ∨ 64 ≤ g then some 9
            else if lsSize < k.g0.toNat + 4 * len ∨ lsSize < k.g3.toNat + 4 * len then some 3 else none
          (∀ e, bad = some e → done (b.putRd k 0) e 0 0) ∧
          (bad = none →
            let u := if ((b.die d).group g).expired b.clock then b.prstExpire d g else b
            let x := (u.die d).group g
            let n := core % 144
            let part : Prop := x.isValid = true ∧ n < 144 ∧ x.part.testBit n = true ∧ x.state ≠ 2
            let mine : Prop := ∃ y, y ∈ x.contribs ∧ y.core = n
            let odd : Prop := ∃ y, y ∈ x.contribs ∧ y.els.length ≠ len
            (¬ part ∨ ¬ mine ∧ odd → done (u.putRd k 4) 0 0 0) ∧
            (part → ¬ mine → ¬ odd → u.rangeFree core k.id (footOf k.g0.toNat (4 * len) false) = true →
              let el (j : Nat) : Nat := (u.core core).lsNum (k.g0.toNat + 4 * j) 4 +
                (if ∃ a, a < 4 ∧ ((u.core core).lsByte (k.g0.toNat + 4 * j + a)).2 = true then 2 ^ 32 else 0)
              let y : Group := { x with contribs := x.contribs ++ [⟨n, k.id, (List.range len).map el⟩], state := 1,
                                        since := if x.contribs = [] then u.clock else x.since }
              turns (u.modGroup d g fun _ => y) { k with phase := 1 }))) ∧
        (k.kind = .prst → k.phase = 1 → waits) ∧
        (k.kind = .prst → 2 ≤ k.phase → k.walk.words.length = k.g1.toNat →
          s.rangeFree core k.id (footOf k.g3.toNat (4 * k.g1.toNat) true) = true →
          ∃ u : State, s.onlyThat core { s.core core with store := (u.core core).store, storePoison := (u.core core).storePoison } u ∧
            (∀ a, a < k.g3.toNat ∨ k.g3.toNat + 4 * k.g1.toNat ≤ a → ((u.core core).lsByte a).1 = ((s.core core).lsByte a).1) ∧
            (∀ j, j < k.g1.toNat → (u.core core).lsNum (k.g3.toNat + 4 * j) 4 = k.walk.words.getD j 0 % 2 ^ 32) ∧
            done (u.putRd k k.prog) 0 0 (4 * k.g1.toNat)) ∧
        let inTurn : Prop := ∀ y, y ∈ s.cmds → y.kind = .stash ∨ y.kind = .stfetch ∨ y.kind = .stdrop → y.die = k.die →
          y.tag = k.tag → k.id ≤ y.id
        let goesOn (y : Cmd) (p : Nat × Nat) (e : DirEnt) (d : TDesc) (u : State) : Prop :=
          ∀ t, stashOn y p e d u = .ok () t → exec i s = .next t
        let next (w : Nat) : Cmd := { k with prog := k.prog + 1, walk := { k.walk with acked := k.walk.acked + w } }
        let stalls (u : State) : Prop := turns u { k with
          phase := 1, since := if k.walk.told = k.prog + 1 then k.since else u.clock,
          walk := { k.walk with told := k.prog + 1 } }
        (k.kind = .stash ∨ k.kind = .stfetch ∨ k.kind = .stdrop → ¬ inTurn → waits) ∧
        (k.kind = .stash → inTurn → k.phase = 0 →
          (k.stageNo = none → done b 0x0F 0 0) ∧
          ∀ p, k.stageNo = some p → ∀ r s1, tdesc k.die k.ctx k.g0.toNat b = .ok r s1 →
            (r = .notmap → done s1 4 0 0) ∧ (r = .bad → done s1 7 0 0) ∧ (r = .poison → done s1 9 0 0) ∧
            ∀ d, r = .ok d →
              let odd : Prop := d.vers = true ∨ k.g2.toNat < k.g1.toNat ∨ d.nt ≤ k.g2.toNat
              let y := s1.die k.die
              let free (n : Nat) : Prop := n < y.sdcap.toNat ∧ ∀ e, e ∈ y.dir → e.place ≠ n
              (odd → done s1 7 0 0) ∧ (¬ odd → (∀ n, ¬ free n) → done s1 0x0E 0 0) ∧
              ∀ n, ¬ odd → free n → (∀ m, m < n → ¬ free m) → p.2 < 8 →
                let e : DirEnt := ⟨n, k.ctx, k.g0.toNat, k.g1.toNat, k.g2.toNat, k.g3.toNat % 65536, p.2, k.g3.toNat / 2 ^ 16 % 4⟩
                let a := y.sdbase.toNat + 16 * n
                (∀ j, j < 16 → paOk (a + j) = true) → ∃ s2 : State,
                  { s1 with mem := s2.mem, poison := s2.poison, pubs := s2.pubs, npub := s2.npub }.onlyDie k.die
                    { y with dir := (s2.die k.die).dir } s2 ∧
                  (∀ x, x ∈ (s2.die k.die).dir ↔ x = e ∨ x ∈ y.dir) ∧
                  s2.rd a 8 = e.tensor + e.first * 2 ^ 32 ∧
                  s2.rd (a + 8) 8 = e.last + e.tag * 2 ^ 32 + e.slot * 2 ^ 48 + e.cls * 2 ^ 51 + 2 ^ 53 ∧
                  (∀ x, x < a ∨ a + 16 ≤ x → s2.byte x = s1.byte x) ∧
                  goesOn { k with walk := { k.walk with iter := n } } p e d s2) ∧
        (k.kind = .stash → inTurn → k.phase ≠ 0 →
          (∀ s1 s2, stashState k b = .ok none s1 → cancelMoves k.id s1 = .ok () s2 → done s2 7 k.prog k.walk.acked) ∧
          ∀ p e d s1, stashState k b = .ok (some (p, e, d)) s1 →
            ((∀ m, m ∈ s1.moves → m.cmd ≠ some k.id) → goesOn k p e d s1) ∧
            ∀ m, s1.moves.find? (fun m => m.cmd == some k.id) = some m → ∀ r s2, endCopy m d s1 = .ok r s2 →
              (r = .again → exec i s = .next s2) ∧ (r = .gone → goesOn (next 0) p e d s2) ∧
              ∀ t, r = .whole t →
                (m.newPool ≠ 12 → ∀ s3, swapFrame m d t 1 2 s2 = .ok () s3 → goesOn (next d.tileBytes) p e d s3) ∧
                (m.newPool = 12 → ∀ ok s3, compress m d t (s1.stashPol p / 2 ^ (8 * e.cls + 4) % 8) s2 = .ok ok s3 →
                  (ok = true → goesOn (next d.tileBytes) p e d s3) ∧
                  (ok = false → ∀ s4 s5, moveTte t t.frame t.tier 0 s3 = .ok () s4 → cancelMove m s4 = .ok () s5 →
                    (k.phase ≠ 2 → stalls s5) ∧
                    (k.phase = 2 → ∀ t', s5.holdsTte d 0 m.tile t' → ∀ r' s6,
                      stashAct k d m.tile t' (s1.stashPol p / 2 ^ (8 * e.cls + 2) % 4) true s5 = .ok r' s6 →
                      (∀ w, r' = some (.handled w) → goesOn (next w) p e d s6) ∧
                      (∀ f, r' = some (.moves f) → turns s6 { k with phase := 3 }) ∧ (r' = none → stalls s6))))) ∧
        (k.kind = .stfetch → inTurn →
          (k.stageNo = none → done b 0x0F 0 0) ∧
          ∀ p, k.stageNo = some p → ∀ n y r s1,
            fetchEntries k.id k.die (b.entries k.die p.2 k.tag) k.prog k.walk.acked b = .ok (n, y, r) s1 →
            let k' : Cmd := { k with prog := n, walk := { k.walk with acked := y } }
            (r = .goesOn → turns s1 { k' with phase := 2 }) ∧
            (r = .noFrame → turns s1 { k' with phase := 1, since := if k.phase = 1 ∧ n = k.prog then k.since else b.clock }) ∧
            ∀ c, r = .done c → ∀ s2, cancelMoves k.id s1 = .ok () s2 → s2.joiners k = [] → done s2 c n y) ∧
        (k.kind = .stdrop → inTurn →
          (k.stageNo = none → done b 0x0F 0 0) ∧
          ∀ p, k.stageNo = some p → ∀ n c s1, dropEntries k.die (b.entries k.die p.2 k.tag) 0 b = .ok (n, c) s1 →
            done s1 c n 0) ∧
        (k.kind = .coll → k.walk.started = false →
          let busy := s.cmds.filter fun x => x.kind == .coll && x.walk.started && x.die == k.die
          let no := ((List.range 8).find? fun n => !busy.any (fun x => x.walk.no == n)).getD 0
          let k1 : Cmd := { k with walk := { k.walk with no := no } }
          let ends (y : Cmd) (u : State) (e : Nat) : Prop := ∀ st u1,
            putStatus16 (agentWalker k.die no) y (addrAdd k.va0 0x44) (e + k.flags.toNat * 2 ^ 8) u = .ok st u1 →
            done u1 st k.walk.iter (k.walk.iter * y.walk.tlen)
          (8 ≤ busy.length → waits) ∧
          (busy.length < 8 → k.va0 % 64 ≠ 0 → done b 2 0 0) ∧
          (busy.length < 8 → k.va0 % 64 = 0 → ∀ s1 r s2, flushFor k (lineInVa k.ctx k.va0 192) b = .ok () s1 →
            walkRead k1 k.va0 192 s1 = .ok r s2 →
            (∀ e, r = .error e → ends k1 s2 e) ∧
            ∀ l, r = .ok l → ((∃ y, y ∈ l ∧ y.2 = true) → ends k1 s2 9) ∧
              ((∀ y, y ∈ l → y.2 = false) →
                let ws := (List.range (l.length / 8)).map fun j => rbytesNat ((l.drop (8 * j)).take 8)
                let f (j lo n : Nat) : Nat := ws.getD j 0 / 2 ^ lo % 2 ^ n
                let k2 : Cmd := { k with walk := { k.walk with no := no, words := ws, started := true } }
                let nlev := f 0 2 2 + 1
                let mode := f 0 0 2
                let total := ((List.range nlev).map fun j => f (16 + 2 * j) 0 24).foldl (· * ·) 1
                let desc : Prop := f 0 11 5 ≠ 0 ∨ f 8 48 16 ≠ 0 ∨ (∃ j, 9 ≤ j ∧ j < 16 ∧ ws.getD j 0 ≠ 0) ∨
                  (∃ j, j < 4 ∧ f (16 + 2 * j) 24 7 ≠ 0) ∨ (∃ j, j < nlev ∧ f (16 + 2 * j) 0 24 = 0) ∨ mode = 3 ∨
                  (mode = 1 ∧ (f 0 6 2 = 3 ∨ f 0 8 1 = 1 ∧ (f 0 4 2 ≠ 1 ∨ f 0 6 2 ≠ 0))) ∨ (mode = 2 ∧ f 0 9 2 = 3) ∨
                  f 0 32 16 = 0 ∨ 4096 < f 0 32 16 ∨ f 0 32 16 ≤ f 0 48 16
                let size : Prop := f 6 0 32 = 0 ∨ f 6 0 32 % 16 ≠ 0 ∨ mode = 2 ∧ f 8 0 32 % 256 ≠ 0
                let align : Prop := ∃ j, (j = 1 ∨ j = 2 ∨ j = 4 ∨ j = 5) ∧ ws.getD j 0 % 16 ≠ 0
                let u := s2.putRd k2 total
                ((∃ x, x ∈ busy ∧ x.walk.cid = f 0 16 16) → exec i s = .next (errState s s2)) ∧
                ((∀ x, x ∈ busy → x.walk.cid ≠ f 0 16 16) →
                  (desc → ends k2 u 9) ∧ (¬ desc → size → ends k2 u 1) ∧ (¬ desc → ¬ size → align → ends k2 u 2) ∧
                  (¬ desc → ¬ size → ¬ align → mode ≠ 2 → turns u k2) ∧
                  (¬ desc → ¬ size → ¬ align → mode = 2 → ∀ z s3, loadValues k2 (u.setCmd k2) = .ok z s3 →
                    (∀ e, z = .error e → ends k2 s3 e) ∧
                    ∀ vs, z = .ok vs →
                      let blk := (List.range ((vs.length + 255) / 256)).map fun j => ((vs.drop (256 * j)).take 256).map (· % 2 ^ 32)
                      exec i s = .next (s3.modWalk k.id fun y => { y with
                        vs, eb := blk.map blockExp, special := blk.map (·.any fun v => !(f32Val v).isFin) })))))) ∧
        (k.kind = .coll → k.walk.started = true → ∀ m, s.heldFor k = some m → ∀ t,
          applyMsg k.id m (b.modDie k.die fun d => { d with hold := d.hold.erase m }) = .ok () t → exec i s = .next t) ∧
        (k.kind = .coll → k.walk.started = true → s.heldFor k = none → k.walk.mode = 2 →
          let x := k.walk
          let ends (u : State) (e : Nat) : Prop := ∀ st u1,
            putStatus16 (agentWalker k.die x.no) k (addrAdd k.va0 0x44) (e + k.flags.toNat * 2 ^ 8) u = .ok st u1 →
            done u1 st x.iter (x.iter * x.tlen)
          let u := b.modWalk k.id fun w => { w with told := x.told + 1 }
          (x.told < x.grp → x.told = x.me → exec i s = .next u) ∧
          (x.told < x.grp → x.told ≠ x.me → (∀ t, sendTo k x.told true 0 x.localExps u = .ok (.ok ()) t → exec i s = .next t) ∧
            ∀ e t, sendTo k x.told true 0 x.localExps u = .ok (.error e) t → ends t e) ∧
          (x.grp ≤ x.told → x.encoded = false → x.round1 + 1 ≠ x.grp → waits) ∧
          (x.grp ≤ x.told → x.encoded = false → x.round1 + 1 = x.grp → ∀ z s1,
            let es := (List.range x.nelem).map x.encodeElem
            walkWrite k (x.w 4) (bytesOfElems 8 (es.map (·.1))) b = .ok z s1 → (∀ e, z = .error e → ends s1 e) ∧
            (z = .ok () → ∀ y s2, walkWrite k (x.w 5) (bytesOfElems 4 (es.map (·.2))) s1 = .ok y s2 →
              (∀ e, y = .error e → ends s2 e) ∧
              (y = .ok () → exec i s = .next (s2.modWalk k.id fun w => { w with encoded := true }))))) ∧
        (k.kind = .coll → k.walk.started = true → s.heldFor k = none →
          k.walk.mode ≠ 2 ∨ k.walk.grp ≤ k.walk.told ∧ k.walk.encoded = true →
          let x := k.walk
          let n := x.iter
          let it (j : Nat) : Nat := n / (((List.range x.nlev).filter (j < ·)).map x.bound).foldl (· * ·) 1 % x.bound j
          let sum (g : Nat → Int) : Int := ((List.range x.nlev).map g).sum
          let open_ : Prop := ∀ j, j < x.nlev → x.gate j = true → it j ≠ 0 → it j * (x.incnt / x.bound j) ≤ x.applied
          let ends (u : State) (e prog : Nat) : Prop := ∀ st u1,
            putStatus16 (agentWalker k.die x.no) k (addrAdd k.va0 0x44) (e + k.flags.toNat * 2 ^ 8) u = .ok st u1 →
            done u1 st prog (prog * x.tlen)
          (n < x.total → ¬ open_ → waits) ∧
          (n < x.total → open_ →
            let src := sum fun j => it j * x.sstr j
            let va := (((if x.mode = 2 then (x.w 4 : Nat) + 8 * (src.fdiv 4) else (x.w 1 : Nat) + src : Int)).emod (2 ^ 64)).toNat
            let len := if x.mode = 2 then 2 * x.tlen else x.tlen
            let dst := ((sum fun j => it j * x.dstr j).emod (2 ^ 64)).toNat
            let peer := (((x.me : Nat) + sum fun j => x.pa j * it j + x.pb j : Int).emod x.grp).toNat
            ∀ s1 r s2, flushFor k (lineInVa k.ctx va len) b = .ok () s1 → walkRead k va len s1 = .ok r s2 →
              (∀ e, r = .error e → ends s2 e n) ∧
              ∀ l, r = .ok l →
                let u := (if k.block.isSome then s2.noteRead core va len else s2).modWalk k.id fun w => { w with iter := n + 1 }
                (∀ t, sendTo k peer false dst l u = .ok (.ok ()) t → exec i s = .next t) ∧
                ∀ e t, sendTo k peer false dst l u = .ok (.error e) t → ends t e n) ∧
          (x.total ≤ n → (x.acked ≠ x.total ∨ x.applied ≠ x.incnt) → waits) ∧
          (x.total ≤ n → x.acked = x.total → x.applied = x.incnt → ∀ z s1, finalStep k b = .ok z s1 →
            (∀ e, z = .error e → ends s1 e n) ∧
            ∀ fl, z = .ok fl → ∀ st u1, putStatus16 (agentWalker k.die x.no) k (addrAdd k.va0 0x44)
                ((k.flags ||| fl).toNat * 2 ^ 8) s1 = .ok st u1 → done u1 st n (n * x.tlen))))) ∧
  (∀ (k : Cmd) (z : ER Flags) (s u : State), finalStep k s = .ok z u → let x := k.walk
    (x.mode ≠ 2 ∨ x.finCnt = 0 → z = .ok 0 ∧ u = s) ∧
    (x.mode = 2 → x.finCnt ≠ 0 → x.finFirst + x.finCnt ≤ x.nelem → x.special.length = x.eb.length → x.nelem ≤ 256 * x.eb.length →
      ∀ r s1, walkRead k (addrAdd (x.w 4) (8 * x.finFirst)) (8 * x.finCnt) s = .ok r s1 →
      (∀ e, r = .error e → z = .error e ∧ u = s1) ∧
      ∀ l, r = .ok l → let v := if k.block.isSome then s1.noteRead k.core (addrAdd (x.w 4) (8 * x.finFirst)) (8 * x.finCnt) else s1
        let el (j : Nat) : Nat × Flags := let n := x.finFirst + j
          let sum := BitVec.ofNat 64 (rbytesNat ((l.drop (8 * j)).take 8))
          if x.special.getD (n / 256) false then (fmtF32.packNan, fNV)
          else fmtF32.encode .rne 0 ((Val.ofInt sum.toInt).scale2 (x.eb.getD (n / 256) 0 - x.sew + 2))
        l.length = 8 * x.finCnt → ∀ y s2, walkWrite k (addrAdd (x.w 2) (4 * x.finFirst)) (bytesOfElems 4
            ((List.range x.finCnt).map fun j => ((el j).1, anyPoison ((l.drop (8 * j)).take 8)))) v = .ok y s2 →
          u = s2 ∧ (∀ e, y = .error e → z = .error e) ∧
          (y = .ok () → ∃ fl : Flags, z = .ok fl ∧ ∀ b, fl.getLsbD b = true ↔ ∃ j, j < x.finCnt ∧ (el j).2.getLsbD b = true))) ∧
  (∀ (x : Walk) (j : Nat), let raw := x.vs.getD j 0
    let v := f32Val (raw % 2 ^ 32)
    let e := x.eb.getD (j / 256) (-32768)
    let q := (toIntRange (-2 ^ (x.sew - 1)) (2 ^ (x.sew - 1) - 1) .rne 0 (v.scale2 ((x.sew : Int) - 2 - e))).1
    x.encodeElem j = if x.special.getD (j / 256) false then ((0, raw.testBit 32), (0, raw.testBit 32))
      else (((q.emod (2 ^ 64)).toNat, raw.testBit 32),
        (f32Of (v.add false ((Val.ofInt q).scale2 (e - x.sew + 2)).neg).1, raw.testBit 32))) ∧
  (∀ (t : Tte) (f ti st : Nat) (s u : State), moveTte t f ti st s = .ok () u → s.tteMoved t f ti st u) ∧
  (∀ (m : Move) (s u : State), cancelMove m s = .ok () u → u =
    { (if m.newPool < 12 then s.pushFrame (homeDie (m.new * 4096)) m.newPool m.new else s) with moves := s.moves.erase m }) ∧
  (∀ (die ctx tid v x : Nat) (d : TDesc) (t : Tte) (new np : Nat) (cmd : Option Nat) (s u : State),
    beginMove die ctx tid v x d t new np cmd s = .ok () u → ∃ u1, s.tteMoved t t.frame t.tier 1 u1 ∧ u = { u1 with
      moves := s.moves ++ [Move.mk die ctx tid v x t.frame (if t.tier = 2 then 12 else 6 * t.tier + d.tlog) new np u1.npub 0
        cmd] }) ∧
  (∀ (m : Move) (d : TDesc) (t : Tte) (s u : State) (r : Copied), endCopy m d s = .ok r u → s.holdsTte d m.ver m.tile t →
    let held : Prop := t.frame = m.old ∧ t.state = 1
    let hit : Prop := m.oldPool < 12 ∧ ∃ p, p ∈ s.pubs.take (s.npub - m.since) ∧ m.old * 512 ≤ p.granule ∧
      p.granule < m.old * 512 + d.tileBytes / 8
    (¬ held → r = .gone ∧ cancelMove m s = .ok () u) ∧ (held → ¬ hit → r = .whole t ∧ u = s) ∧
    (held → hit → m.restarts = 3 → r = .gone ∧ ∃ u1, s.tteMoved t t.frame t.tier 0 u1 ∧ cancelMove m u1 = .ok () u) ∧
    (held → hit → m.restarts ≠ 3 → r = .again ∧ u = { s with
      moves := s.moves.map fun y => if y = m then { m with since := s.npub, restarts := m.restarts + 1 } else y })) ∧
  (∀ (m : Move) (d : TDesc) (t : Tte) (ti st : Nat) (s u : State), swapFrame m d t ti st s = .ok () u →
    m.new < 2 ^ 29 → d.tlog < 6 → ∃ u1 u2 : State,
      u1 = { s with mem := u1.mem, poison := u1.poison, pubs := u1.pubs, npub := u1.npub } ∧
      (∀ a, u1.byte a = if m.new * 4096 ≤ a ∧ a < m.new * 4096 + d.tileBytes then s.byte (m.old * 4096 + (a - m.new * 4096))
        else s.byte a) ∧
      u1.tteMoved t m.new ti st u2 ∧
      { u2 with moves := s.moves.erase m }.onlyDie (homeDie (m.old * 4096))
        { u2.die (homeDie (m.old * 4096)) with
          oldFrames := (s.die (homeDie (m.old * 4096))).oldFrames ++ [OldFrame.mk m.oldPool m.old] } u) ∧
  (∀ (total n : Nat) (l : List ArenaRun), 0 < n → (∀ r, r ∈ l → 0 < r.units ∧ r.unit + r.units ≤ total) →
    l.Pairwise (fun r r' => r.unit + r.units ≤ r'.unit) →
    let fits (a : Nat) : Prop := a + n ≤ total ∧ ∀ r, r ∈ l → apart (a, n) (r.unit, r.units)
    ∀ a, firstFit total n 0 l = some a ↔ fits a ∧ ∀ b, b < a → ¬ fits b) ∧
  (∀ (m : Move) (d : TDesc) (t : Tte) (cmax : Nat) (ok : Bool) (s u : State), compress m d t cmax s = .ok ok u →
    let y := s.die m.die
    let n := s.compressedSize (m.old * 4096) d.tileBytes
    let units := (n + 4095) / 4096
    let a := firstFit y.caunits.toNat units 0 y.arena
    ((cmax + 1) * d.tileBytes < 8 * n ∨ a = none → ok = false ∧ u = s) ∧
    (8 * n ≤ (cmax + 1) * d.tileBytes → ∀ at_, a = some at_ → d.tlog < 6 → ok = true ∧
      u.moves = s.moves.erase m ∧ (OldFrame.mk m.oldPool m.old) ∈ (u.die (homeDie (m.old * 4096))).oldFrames ∧
      ∃ r, r ∈ (u.die m.die).arena ∧ r.unit = at_ ∧ r.units = units ∧ (∀ j, j < d.tileBytes →
        Store.get 0 r.data j = s.byte (m.old * 4096 + j)) ∧ ∃ v : State, v.tteMoved t (y.cabase.toNat / 4096 + at_) 2 2
          { v with mem := u.mem, poison := u.poison, pubs := u.pubs, npub := u.npub, hostDirty := u.hostDirty })) ∧
  (∀ (k : Cmd) (d : TDesc) (x n : Nat) (t : Tte) (fb : Bool) (s u : State) (r : Option StashRes),
    stashAct k d x t n fb s = .ok r u → n < 4 →
    let pool := 6 + d.tlog
    let begins (new np : Nat) (v : State) : Prop := r = some (.moves fb) ∧
      beginMove k.die k.ctx k.g0.toNat 0 x d t new np (some k.id) v = .ok () u
    (n = 0 → r = some (.handled 0) ∧ u = s) ∧ (n = 1 → begins 0 12 s) ∧
    (n = 2 → (∀ v, s.popFrame k.die pool = (none, v) → r = none ∧ u = v) ∧
      ∀ f v, s.popFrame k.die pool = (some f, v) → begins f pool v) ∧
    (n = 3 → r = some (.handled 0) ∧ ∃ u1 u2, s.tteMoved t t.frame 3 3 u1 ∧ stampTile k.die k.ctx d 0 x u1 = .ok () u2 ∧
      u = u2.pushFrame (homeDie (t.frame * 4096)) (6 * t.tier + d.tlog) t.frame)) ∧
  (∀ (k : Cmd) (d : TDesc) (x pol cls : Nat) (t : Tte) (s u : State) (r : StashRes),
    stashTile k d x pol cls s = .ok r u → s.holdsTte d 0 x t →
    let ends (r' : StashRes) : Prop := r = r' ∧ u = s
    let hurt := s.poisoned t.addr 16
    let stays : Prop := t.accessible = false ∨ t.pin = true ∨ t.shx = true ∨ 1 < t.refcnt
    (hurt = true → ends (.fails 9)) ∧ (hurt = false → t.bad = true → ends (.fails 7)) ∧
    (hurt = false → t.bad = false → stays → ends (.handled 0)) ∧
    (hurt = false → t.bad = false → ¬ stays → paOk (t.frame * 4096) = false → ends (.fails 4)) ∧
    (hurt = false → t.bad = false → ¬ stays → paOk (t.frame * 4096) = true → ∀ v a w,
      flushFor k (fun l => decide (t.frame * 4096 ≤ l.pa) && decide (l.pa < t.frame * 4096 + d.tileBytes)) s = .ok () v →
      stashAct k d x t (pol / 2 ^ (8 * cls) % 4) false v = .ok a w →
      (∀ r', a = some r' → r = r' ∧ u = w) ∧
      (a = none → ∀ a' w', stashAct k d x t (pol / 2 ^ (8 * cls + 2) % 4) true w = .ok a' w' →
        r = a'.getD .stalls ∧ u = w'))) ∧
  (∀ (k : Cmd) (p : Nat × Nat) (e : DirEnt) (d : TDesc) (s : State), k.g1.toNat ≤ k.g2.toNat → k.core < 288 →
    let all := k.g2.toNat - k.g1.toNat + 1
    (all ≤ k.prog → ∀ u, stashOn k p e d s = .ok () u → s.ended k 0 k.prog k.walk.acked u) ∧
    (k.prog < all → ∀ r s1, stashTile k d (k.g1.toNat + k.prog) (s.stashPol p) e.cls s = .ok r s1 →
      s1.stashPol p = s.stashPol p →
      (∀ w, r = .handled w → stashOn k p e d s =
        stashOn { k with prog := k.prog + 1, walk := { k.walk with acked := k.walk.acked + w } } p e d s1) ∧
      (∀ fb, r = .moves fb → stashOn k p e d s = .ok () (s1.setCmd { k with phase := if fb then 3 else 2 })) ∧
      (r = .stalls → stashOn k p e d s = .ok () (s1.setCmd { k with
        phase := 1, since := if k.walk.told = k.prog + 1 then k.since else s1.clock,
        walk := { k.walk with told := k.prog + 1 } })) ∧
      ∀ c u, r = .fails c → stashOn k p e d s = .ok () u → ∃ v : State,
        { s1 with mem := v.mem, poison := v.poison, pubs := v.pubs, npub := v.npub, hostDirty := v.hostDirty }.onlyDie k.die
          { s1.die k.die with dir := if k.prog = 0 then (s1.die k.die).dir.filter (·.place != e.place)
              else (s1.die k.die).dir.map fun (y : DirEnt) => if y.place = e.place then { e with last := e.first + k.prog - 1 } else y } v ∧
        v.ended k c k.prog k.walk.acked u)) ∧
  (∀ (id die ctx tid x : Nat) (d : TDesc) (s u : State) (r : TileFetch), fetchTile id die ctx tid d x s = .ok r u →
    let mine (m : Move) : Bool := m.cmd == some id && m.tensor == tid && m.ctx == ctx && m.tile == x
    let tier (t : Tte) : Nat := t.tier
    (s.moves.find? mine = none → ∀ t, s.holdsTte d 0 x t →
      let out : Prop := tier t = 2 ∧ (t.state = 0 ∨ t.state = 2) ∨ tier t = 1 ∧ t.state = 2
      (¬ out → r = .same ∧ u = s) ∧
      (out → (∀ v, s.popFrame die d.tlog = (none, v) → r = .noFrame ∧ u = v) ∧
        ∀ f v, s.popFrame die d.tlog = (some f, v) → r = .goesOn ∧
          beginMove die ctx tid 0 x d t f d.tlog (some id) v = .ok () u)) ∧
    ∀ m, s.moves.find? mine = some m → ∀ c v, endCopy m d s = .ok c v →
      (c = .again → r = .goesOn ∧ u = v) ∧ (c = .gone → r = .same ∧ u = v) ∧
      ∀ t, c = .whole t → r = .moved ∧
        (m.oldPool ≠ 12 → swapFrame m d t 0 0 v = .ok () u) ∧
        (m.oldPool = 12 → ∃ l v1 v2, freeRun m.die m.old d.tileBytes v = .ok l v1 ∧
          (v1.publishBytes (m.new * 4096) l).tteMoved t m.new 0 0 v2 ∧ u = { v2 with moves := v.moves.erase m })) ∧
  (∀ (die frame n : Nat) (l : List RByte) (s u : State), freeRun die frame n s = .ok l u →
    let holds (d : Nat) : Prop := ∃ r, r ∈ (s.die d).arena ∧ (s.die d).cabase.toNat / 4096 + r.unit = frame
    ∀ d, (d = die ∧ (holds die ∨ ¬ holds (1 - die))) ∨ (d = 1 - die ∧ ¬ holds die ∧ holds (1 - die)) →
      let a := frame - (s.die d).cabase.toNat / 4096
      s.onlyDie d { s.die d with arena := (s.die d).arena.filter fun r => r.unit != a } u ∧
      ∀ r, (s.die d).arena.find? (fun r => r.unit == a) = some r →
        l.map (·.1) = (List.range n).map fun j => Store.get 0 r.data j) ∧
  (∀ (die ctx x : Nat) (d : TDesc) (t : Tte) (s u : State), dropTile die ctx d x s = .ok () u → s.holdsTte d 0 x t →
    let gone (v : State) (u' : State) : Prop := ∃ u1, v.tteMoved t t.frame 3 3 u1 ∧ stampTile die ctx d 0 x u1 = .ok () u'
    (t.compressed = true → ∃ l v, freeRun die t.frame 0 s = .ok l v ∧ gone v u) ∧
    (t.spilled = true → ∃ v, gone s v ∧ u = v.pushFrame (homeDie (t.frame * 4096)) (6 + d.tlog) t.frame) ∧
    (t.compressed = false → t.spilled = false → u = s)) ∧
  (∀ (die : Nat) (n : Nat) (s : State), dropEntries die [] n s = .ok (n, 0) s ∧
    ∀ e r, ∀ (z : TRes) s1, tdesc die e.ctx e.tensor s = .ok z s1 →
      (z = .notmap → dropEntries die (e :: r) n s = .ok (n, 4) s1) ∧ (z = .bad → dropEntries die (e :: r) n s = .ok (n, 7) s1) ∧
      (z = .poison → dropEntries die (e :: r) n s = .ok (n, 9) s1) ∧
      ∀ d s2 s3, z = .ok d → forAll e.tiles (dropTile die e.ctx d) s1 = .ok () s2 → dropDir die e s2 = .ok () s3 →
        dropEntries die (e :: r) n s = dropEntries die r (n + e.tiles.length) s3) ∧
  (∀ (id die ctx tid n : Nat) (d : TDesc) (s : State), fetchTiles id die ctx tid d [] n s = .ok (n, .done 0) s ∧
    ∀ x l r s1, fetchTile id die ctx tid d x s = .ok r s1 →
      let run := fetchTiles id die ctx tid d (x :: l) n s
      (r = .noFrame → run = .ok (n, .noFrame) s1) ∧ (r = .goesOn → run = .ok (n, .goesOn) s1) ∧
      (r = .moved → run = fetchTiles id die ctx tid d l (n + 1) s1) ∧ (r = .same → run = fetchTiles id die ctx tid d l n s1)) ∧
  (∀ (id die n b : Nat) (s : State), fetchEntries id die [] n b s = .ok (n, b, .done 0) s ∧
    ∀ e r, ∀ (z : TRes) s1, tdesc die e.ctx e.tensor s = .ok z s1 →
      let stops (c : Nat) : Prop := fetchEntries id die (e :: r) n b s = .ok (n, b, .done c) s1
      (z = .notmap → stops 4) ∧ (z = .bad → stops 7) ∧ (z = .poison → stops 9) ∧
      ∀ d m w s2, z = .ok d → fetchTiles id die e.ctx e.tensor d e.tiles 0 s1 = .ok (m, w) s2 →
        ((∃ c, w = .done c) → fetchEntries id die (e :: r) n b s = fetchEntries id die r (n + m) (b + m * d.tileBytes) s2) ∧
        ((∀ c, w ≠ .done c) → fetchEntries id die (e :: r) n b s = .ok (n + m, b + m * d.tileBytes, w) s2)) ∧
  (∀ (k : Cmd) (n : Nat) (c : TChan) (s : State), recvRun k n c [] s = .ok (0, k.g2.toNat / 16) s ∧
    ∀ j r, let va := addrAdd c.w1.toNat ((k.g1.toNat + 16 * j) % 2 ^ c.rlog)
      ∀ z s1, engPa (agChan (n / 32)) (n / 32) c.rctx k.priv .load va s = .ok z s1 →
        (∀ e, z = .error e → recvRun k n c (j :: r) s = .ok (e, j) s1) ∧
        ∀ pa, z = .ok (.mem pa) → recvRun k n c (j :: r) s =
          (let u := if k.block.isSome then s1.noteRead k.core va 16 else s1
           recvRun k n c r (u.modCore k.core fun x => x.lsWrite (k.g3.toNat + 16 * j)
             ((List.range 16).map fun b => (u.byte (pa + b), Store.get false u.poison ((pa + b) / 8)))))) ∧
  (∀ (k : Cmd) (p off : Nat) (r : Bool) (l : List RByte) (s : State),
    let m : CollMsg := ⟨k.walk.cid, r, off, l, if r then none else some k.id, none⟩
    (p = k.walk.me → ∀ t, acceptMsg k.die m s = .ok () t → sendTo k p r off l s = .ok (.ok ()) t) ∧
    (p ≠ k.walk.me → ∀ z s1, peerEntry k p s = .ok z s1 →
      (∀ e, z = .error e → sendTo k p r off l s = .ok (.error e) s1) ∧
      ∀ v, z = .ok v → let n := v % 64
        let c := s1.chan n
        (v.testBit 31 = true → ∀ t, acceptMsg (v / 2 ^ 8 % 2) m s1 = .ok () t → sendTo k p r off l s = .ok (.ok ()) t) ∧
        (v.testBit 31 = false → c.enabled = false → sendTo k p r off l s = .ok (.error 0x0A) s1) ∧
        (v.testBit 31 = false → c.enabled = true → (s1.port c.port).trained = false →
          sendTo k p r off l s = .ok (.error 0x0B) s1) ∧
        (v.testBit 31 = false → c.enabled = true → (s1.port c.port).trained = true → k.walk.mode ≠ 2 →
          ∃ t : State, sendTo k p r off l s = .ok (.ok ()) t ∧ t = { s1 with ports := t.ports, cmds := t.cmds } ∧
            (∀ q, q ≠ c.port → t.port q = s1.port q) ∧
            (t.port c.port).wire.length = (s1.port c.port).wire.length + (l.length + 223) / 224 ∧
            t.cmds = s1.cmds.map fun y => if y.id = k.id ∧ r = false
              then { y with walk := { y.walk with sent := y.walk.sent ++ [n] } } else y))) ∧
  (∀ (d : Nat) (m : CollMsg) (s : State),
    let waits (k : Cmd) : Prop := ∃ x, x ∈ (s.die d).hold ∧ x.cid = m.cid ∧ (x.round1 = true ∨ k.walk.mode ≠ 2 ∨ k.walk.encoded = true)
    let held : Prop := (s.die d).held + m.payload.length ≤ 65536 → acceptMsg d m s =
      .ok () (s.modDie d fun x => { x with hold := x.hold ++ [m] })
    (s.walker d m.cid = none → held) ∧
    ∀ k, s.walker d m.cid = some k →
      let ready : Prop := m.round1 = true ∨ k.walk.mode ≠ 2 ∨ k.walk.encoded = true
      (ready → ¬ waits k → acceptMsg d m s = applyMsg k.id m s) ∧ (¬ ready ∨ waits k → held)) ∧
  (∀ (id : Nat) (m : CollMsg) (k : Cmd) (s : State), s.cmd id = some k →
    let x := k.walk
    let n := m.payload.length
    ∀ s0, ackSrc m s = .ok () s0 →
      (m.round1 = true → applyMsg id m s = .ok () (s0.modWalk id fun w => { w with
        eb := (w.eb.zip (expsOf m.payload).1).map fun p => max p.1 p.2,
        special := (w.special.zip (expsOf m.payload).2).map fun p => p.1 || p.2, round1 := w.round1 + 1 })) ∧
      (m.round1 = false → x.mode = 0 → let va := addrAdd (x.w 2) m.off
        ∀ z s1, walkWrite k va m.payload s0 = .ok z s1 →
          (∀ e, z = .error e → applyMsg id m s = endColl k e x.iter s1) ∧
          (z = .ok () → applyMsg id m s = .ok () (s1.modCmd id fun y => { y with
            flags := y.flags ||| 0, walk := { y.walk with applied := y.walk.applied + 1 } }))) ∧
      (m.round1 = false → x.mode ≠ 0 →
        let va := if x.mode = 2 then addrOff (x.w 4) (8 * (sint 64 m.off).fdiv 4) else addrAdd (x.w 2) m.off
        let u := if x.mode = 1 ∧ k.block.isSome = true then s0.noteRead k.core va n else s0
        ∀ z s1, walkRead k va n u = .ok z s1 →
          (∀ e, z = .error e → applyMsg id m s = endColl k e x.iter s1) ∧
          ∀ old, z = .ok old → ∀ bs fl s2 y s3, combineMsg k m old s1 = .ok (bs, fl) s2 → walkWrite k va bs s2 = .ok y s3 →
            (∀ e, y = .error e → applyMsg id m s = endColl k e x.iter s3) ∧
            (y = .ok () → applyMsg id m s = .ok () (s3.modCmd id fun y => { y with
              flags := y.flags ||| fl, walk := { y.walk with
                applied := y.walk.applied + 1,
                added := if x.mode = 2 then (y.walk.added ++ blocksOf ((sint 64 m.off).fdiv 4) (n / 8)).eraseDups
                  else y.walk.added } })))) ∧
  (∀ (k : Cmd) (m : CollMsg) (old bs : List RByte) (fl : Flags) (s u : State), combineMsg k m old s = .ok (bs, fl) u →
    let x := k.walk
    let num (l : List RByte) (e n : Nat) : Nat := rbytesNat ((l.drop (n * e)).take n)
    let hurt (l : List RByte) (e n : Nat) : Bool := anyPoison ((l.drop (n * e)).take n)
    old.length = m.payload.length →
    (x.mode = 2 → u = s ∧ fl = 0 ∧ ∀ e, 8 * e + 8 ≤ old.length →
      num bs e 8 = (num old e 8 + num m.payload e 8) % 2 ^ 64 ∧ hurt bs e 8 = (hurt old e 8 || hurt m.payload e 8)) ∧
    (x.mode = 1 → let n := redBytes x.rt
      let word (e : Nat) : Nat := if x.rsr then rotl32 (xorshift^[e / 64 + 1] (s.genOf k.core 2)) (e % 64 % 32) else 0
      let v (e : Nat) : Nat × Flags := reduced x.rt x.ro x.rsr (word e) (num old e n) (num m.payload e n)
      (∀ e, n * e + n ≤ old.length → num bs e n = (v e).1 % 2 ^ (8 * n) ∧ hurt bs e n = (hurt old e n || hurt m.payload e n)) ∧
      (∀ j, fl.getLsbD j = true ↔ ∃ e, n * e + n ≤ old.length ∧ (v e).2.getLsbD j = true) ∧
      ∀ j, u.genOf k.core j = if x.rsr = true ∧ j = 2
        then xorshift^[(old.length / n + 63) / 64] (s.genOf k.core j) else s.genOf k.core j)) ∧
  (∀ (id : Nat) (s : State), let i := Instr.streamTransferRetirement id
    (s.xfer id = none → exec i s = .next s) ∧
    ∀ (c : Nat) (x : Xfer), s.xfer id = some (c, x) →
      (x.parts ≠ [] → exec i s = .next s) ∧
      (x.parts = [] → s.rangeFree c x.id x.foot = false → exec i s = .next s) ∧
      let away (p : Nat × Nat) : Nat := x.patchOf p
      let gone (q : Nat) : Prop := ∃ (j : Nat) (p : Nat × Nat), x.cells[j]? = some p ∧ x.spots[j]? = some Spot.absent ∧ away p = q
      let fin (u : State) : State := (u.addHot c x.sa.buf (x.rows * x.cols * x.width / 8)).modCore c fun k =>
        ({ k with xfers := k.xfers.filter (·.id != x.id) }).flushSigs x.seq
      (x.parts = [] → x.load = true → s.rangeFree c x.id x.foot = true →
        (∀ z, z ∈ x.spots → z = .absent ∨ ∃ off pas, z = Spot.at_ off pas) →
        (∀ p p', p ∈ x.cells → p' ∈ x.cells → p ≠ p' → apart (x.localBit p.1 p.2, x.width) (x.localBit p'.1 p'.2, x.width)) →
        ∀ g s1, (x.sa.kind = 1 → granulesAt c (spotGranules x.spots) s = .ok g s1) → (x.sa.kind ≠ 1 → s1 = s) →
        Completes i s fun t => t = { s1 with cores := t.cores, dies := t.dies } ∧ s1.linesOnly t ∧
          (∀ n, n ≠ c → t.core n = s1.core n) ∧
          (∀ (j : Nat) (p : Nat × Nat) (off : Nat) (pas : List Nat), x.cells[j]? = some p → x.spots[j]? = some (Spot.at_ off pas) → ¬ gone (away p) →
            ((t.core c).lsBits (x.localBit p.1 p.2) x.width).1 = bitsOf off x.width (pas.map fun a =>
              let po := Store.get false s1.poison (a / 8)
              if x.sa.kind = 1 then (s1.core c).ownOver a ((Store.get 0 g (a / 8)).extractLsb' (8 * (a % 8)) 8, po)
              else (s1.byte a, po))) ∧
          (∀ p, p ∈ x.cells → gone (away p) → ((t.core c).lsBits (x.localBit p.1 p.2) x.width).1 = 0) ∧
          (∀ q, q < 64 → ((Store.get 0 (t.core c).srm x.san).getLsbD q = true ↔ gone q)) ∧
          (t.core c).xfers = (s1.core c).xfers.filter (·.id != x.id)) ∧
      (x.parts = [] → x.load = false → s.rangeFree c x.id x.foot = true → ∀ m spots s1, x.target c s = .ok (m, spots) s1 →
        spots.length = x.cells.length → (∀ z, z ∈ spots → ∃ off pas, z = .at_ off pas) →
        let z (j : Nat) : Spot := spots.getD j .zero
        let val (j : Nat) : Nat × Bool :=
          let p := x.cells.getD j (0, 0)
          (s1.core c).lsBits (x.localBit p.1 p.2) x.width
        (∀ j k, j < spots.length → k < x.width → (z j).bitAt k ≠ none) →
        (∀ j j' k k', j < spots.length → j' < spots.length → k < x.width → k' < x.width →
          (z j).bitAt k = (z j').bitAt k' → j = j' ∧ k = k') →
        ∃ u : State, u = { s1 with mem := u.mem, poison := u.poison, pubs := u.pubs, npub := u.npub, cores := u.cores,
                                   dies := u.dies, hostDirty := u.hostDirty } ∧
          s1.linesOnly u ∧ (∀ n, n ≠ c → u.core n = s1.core n) ∧ u.core c = { s1.core c with seen := (u.core c).seen } ∧
          (∀ j k a q, j < spots.length → k < x.width → (z j).bitAt k = some (a, q) →
            (u.byte a).getLsbD q = (val j).1.testBit k) ∧
          (∀ a q, (∀ j k, j < spots.length → k < x.width → (z j).bitAt k ≠ some (a, q)) →
            (u.byte a).getLsbD q = (s1.byte a).getLsbD q) ∧
          (∀ l, m = .pages l → exec i s = .next (fin u)) ∧
          ∀ d v ts, m = .tiles d v ts → ∀ u1,
            forAll ts (fun t => do
              stampTile (dieOfCore c) x.ctx d v t.1
              if (List.range spots.length).any fun j =>
                  let p := x.cells.getD j (0, 0)
                  (val j).2 && (d.place (x.coords p.1 p.2)).1 == t.1 then poisonTile d v t.1) u = .ok () u1 →
            exec i s = .next (fin u1))) ∧
  (∀ (id : Nat) (s : State), let i := Instr.stashRetry id
    ((∀ k, s.cmd id = some k → k.kind ≠ .stash ∨ k.phase ≠ 1) → exec i s = .next s) ∧
    ∀ k, s.cmd id = some k → k.kind = .stash → k.phase = 1 → k.core < 288 →
      (∀ s1 s2, stashState k s = .ok none s1 → cancelMoves k.id s1 = .ok () s2 →
        Completes i s (s2.ended k 0x07 k.prog k.walk.acked)) ∧
      ∀ p e d s1 t, stashState k s = .ok (some (p, e, d)) s1 → (∀ m, m ∈ s1.moves → m.cmd ≠ some k.id) →
        stashOn k p e d s1 = .ok () t → exec i s = .next t) ∧
  (∀ (id : Nat) (s : State),
    ((∀ k, s.cmd id = some k → k.kind ≠ .stash ∨ s.stoOver k = false) → exec (.stashTimeout id) s = .next s) ∧
    ((∀ k, s.cmd id = some k → k.kind ≠ .stfetch ∨ s.stoOver k = false) → exec (.fetchTimeout id) s = .next s) ∧
    ∀ k, s.cmd id = some k → s.stoOver k = true → k.core < 288 →
      (k.kind = .stash →
        (∀ s1, stashState k s = .ok none s1 → Completes (.stashTimeout id) s (s1.ended k 0x0C k.prog k.walk.acked)) ∧
        ∀ p e d s1 t, stashState k s = .ok (some (p, e, d)) s1 → cutStash k e 0x0C s1 = .ok () t →
          exec (.stashTimeout id) s = .next t) ∧
      (k.kind = .stfetch → s.joiners k = [] → Completes (.fetchTimeout id) s (s.ended k 0x0D k.prog k.walk.acked))) ∧
  (∀ (d g : Nat) (s : State), let x := (s.die d).group g
    let gives (code : Nat) (els : List Nat) (fl : Flags) (y : Group) (t : State) : Prop :=
      t = { s with cmds := t.cmds, dies := t.dies } ∧ (∀ n, n ≠ d → t.die n = s.die n) ∧
      t.die d = { s.die d with groups := (t.die d).groups } ∧ (∀ m, m ≠ g → (t.die d).group m = (s.die d).group m) ∧
      (t.die d).group g = y ∧ t.cmds = s.cmds.map fun k => if ∃ c, c ∈ x.contribs ∧ c.cmd = k.id
        then { k with phase := 2, prog := code + fl.toNat * 8 + x.contribs.length % 65536 * 65536,
                      walk := { k.walk with words := els } }
        else k
    let whole : Prop := x.state = 1 ∧ x.contribs.length = x.count ∧ x.count ≠ 0
    let late : Prop := x.state = 1 ∧ x.contribs.length ≠ x.count ∧ x.timeout ≠ 0 ∧ x.since + 1750 * x.timeout ≤ s.clock
    (¬ whole → exec (.pushReduceCombine d g) s = .next s) ∧ (¬ late → exec (.prstTimeout d g) s = .next s) ∧
    ∀ els fl, x.combined = some (els, fl) →
      (whole → Completes (.pushReduceCombine d g) s (gives 1 els fl { x with state := 0, contribs := [] })) ∧
      (late → Completes (.prstTimeout d g) s (gives 2 els fl { x with state := 2 }))) ∧
  (∀ (n : Nat) (s : State), let i := Instr.arrivalRecordAppend n
    let c := s.chan n
    let st := s.stage c.stgdie c.stg
    (c.recs = [] ∨ st.state = 0 ∨ c.recFail = true → exec i s = .next s) ∧
    ∀ lo hi rest, c.recs = (lo, hi) :: rest → st.state ≠ 0 → c.recFail = false →
      let ph := lo.toNat / 2 ^ 16 % 4
      let q := (st.q ph).recs
      ph ≠ 0 → (st.qCap ph ≤ q.length → exec i s = .next s) ∧
      (q.length < st.qCap ph → ∀ ok s1, agWriteBytes (agPenn c.stgdie) c.stgdie st.ctx
          (addrAdd (st.qBase ph) (16 * (((st.q ph).head + q.length) % st.qCap ph))) (wordBytes [lo.toNat, hi.toNat]) s =
          .ok ok s1 →
        (ok = false → Completes i s fun t => (t.stage c.stgdie c.stg).state = 4 ∧ (t.chan n).recFail = true ∧
          (t.chan n).recs = (s1.chan n).recs) ∧
        (ok = true → (s1.chan n).w3 = 0 → Completes i s fun t =>
          t = { s1 with dies := t.dies, cores := t.cores, cmds := t.cmds, nextId := t.nextId, chans := t.chans, ports := t.ports } ∧
          t.chan n = { s1.chan n with recs := rest } ∧
          ((t.stage c.stgdie c.stg).q ph).recs = q ++ [⟨lo, hi, s1.clock, false⟩]))) ∧
  (∀ (d n : Nat) (s : State), let i := Instr.stageEvaluation d n
    let full : Prop := ∃ m, m ∈ (s.die d).mail ∧ m.w0.toNat / 2 ^ 24 % 8 = 2
    let due (d n : Nat) : Prop := (s.stage d n).state ≠ 0 ∧ ((s.stage d n).due = true ∨ (s.stage d n).heldSeen ≠ s.holds d n)
    let turn : Prop := d < 2 ∧ n < 8 ∧ s.evaluated ≤ 8 * d + n ∧ due d n ∧
      ∀ j, s.evaluated ≤ j → j < 8 * d + n → ¬ due (j / 8) (j % 8)
    let s' : State := { s with evaluated := 8 * d + n + 1 }
    let u := s'.modStage d n fun x => { x with due := false, heldSeen := s.holds d n }
    (¬ turn → exec i s = .next s) ∧ (turn → full → exec i s = .next s') ∧
    (turn → ¬ full → ∀ u1, strays d n u = .ok () u1 → ((s.stage d n).state ≠ 2 → exec i s = .next u1) ∧
      ((s.stage d n).state = 2 → ∀ u2, evaluate d n (s.stage d n).fuel u1 = .ok () u2 → exec i s = .next u2))) ∧
  (∀ (d n : Nat) (s : State), ((s.stage d n).complete 2 = [] → (s.stage d n).complete 3 = [] → strays d n s = .ok () s) ∧
    ∀ t c, (s.stage d n).complete 2 = [(t, c)] → (s.stage d n).complete 3 = [] → (s.stage d n).slotOf t = none →
      ∃ u : State, strays d n s = .ok () u ∧ (u.stage d n).stray = true ∧ u.stage d n =
        { (s.stage d n).consume 2 t with stray := true }) ∧
  (∀ (st : StageSlot) (h : Bool) (ph rule t : Nat),
    let cand (t c : Nat) : Prop := (t, c) ∈ st.complete ph ∧ (
      (ph = 1 ∧ st.slotOf t = none ∧ st.freeSlot ≠ none ∧ ¬ (h = true ∧ st.cur.testBit 11 = true)) ∨
      (ph = 2 ∧ ∃ p, st.slotOf t = some p ∧ p.2.doneF = true ∧ p.2.relB = false) ∨
      (ph ≠ 1 ∧ ph ≠ 2 ∧ ∃ p, st.slotOf t = some p ∧ st.wv = true ∧ p.2.doneB = true ∧ p.2.relW = false))
    (rule = 0 → (st.choose h ph rule = some t ↔ ∃ c, cand t c ∧ ∀ t' c', cand t' c' → c < c' ∨ c = c' ∧ t ≤ t')) ∧
    (rule = 1 → (st.choose h ph rule = some t ↔ ∃ c, cand t c ∧ ∀ t' c', cand t' c' → t ≤ t')) ∧
    (2 ≤ rule → (st.choose h ph rule = some t ↔ (∃ c, cand t c) ∧
      t = if ph = 1 then st.nextF else if ph = 2 then st.nextB else st.nextW))) ∧
  (∀ (d n fuel : Nat) (s : State), let st := s.stage d n
    let nv : Prop := st.isNew = true ∧ st.cur.testBit 12 = true
    let entered (u : State) : Prop := enterEntry d n s = .ok true u
    (st.isNew = false → entered s) ∧
    (st.isNew = true → ¬ nv → entered (s.modStage d n fun x => { x with isNew := false })) ∧
    (nv → ∀ r s1, vernewAll d st s = .ok r s1 →
      (r = .made → entered (s1.modStage d n fun x => { x with isNew := false, holdv := false, verfull := false })) ∧
      (r = .hold → enterEntry d n s = .ok false (s1.modStage d n fun x =>
        { x with holdv := true, holdvSince := if x.holdv then x.holdvSince else s.clock })) ∧
      ∀ t, r = .fault t → enterEntry d n s =
        .ok false ((s1.modStage d n fun x => { x with state := 4 }).postStage d n 3 n t)) ∧
    ∀ go s1, enterEntry d n s = .ok go s1 → (go = false → evaluate d n (fuel + 1) s = .ok () s1) ∧
      (go = true → let st := s1.stage d n
        let h := s1.holds d n
        let e := st.cur
        let ph := e % 4
        let rule := e / 256 % 4
        let stop (u : State) : Prop := evaluate d n (fuel + 1) s = .ok () u
        (st.choose h ph rule = none → e.testBit 10 = false → stop s1) ∧
        (∀ tag, st.choose h ph rule = some tag → ∀ ok u, releaseTag d n ph tag s1 = .ok ok u → (ok = false → stop u) ∧
          (ok = true → evaluate d n (fuel + 1) s = evaluate d n fuel (u.modStage d n fun x =>
            (if rule = 2 then x.setNext ph ((tag + 1) % 65536) else x).advance))) ∧
        (st.choose h ph rule = none → e.testBit 10 = true →
          (st.choose h 2 0 = none → st.choose h 3 0 = none → st.choose h 1 0 = none → stop s1) ∧
          ∀ p tag, (p = 2 ∨ p = 3 ∧ st.choose h 2 0 = none ∨ p = 1 ∧ st.choose h 2 0 = none ∧ st.choose h 3 0 = none) →
            st.choose h p 0 = some tag → ∀ ok u, releaseTag d n p tag s1 = .ok ok u →
              (ok = false → stop u) ∧ (ok = true → evaluate d n (fuel + 1) s = evaluate d n fuel u)))) ∧
  (∀ st : StageSlot, let e := if st.entry + 1 = st.plen then st.wrap else st.entry + 1
    (1 < st.repleft → st.advance = { st with repleft := st.repleft - 1 }) ∧
    (st.repleft ≤ 1 → st.advance = { st with entry := e, repleft := st.ptab.getD e 0 / 4 % 64, isNew := true })) ∧
  (∀ (d n ph t : Nat) (s : State) (c : CtxEnt) (s1 s2 : State) (r : Option (List Nat)), let st := s.stage d n
    let old := (st.slotOf t).map (·.2)
    let slot := ((st.slotOf t).map (·.1)).getD (st.freeSlot.getD 0)
    let h := st.instBase + 3 * slot + (ph - 1)
    let arr := addrAdd st.arrBase (128 * (3 * slot + ph - 1))
    let fails (code : Nat) (v : State) : Prop := releaseTag d n ph t s =
      .ok false ((v.modStage d n fun x => { x with state := 4 }).postStage d n 1 h code)
    ctxEnt d st.ctx s = .ok c s1 → agWords (agPenn d) d st.ctx (tcbVa c (stageTemplate st.desc ph)) 16 s1 = .ok r s2 →
    (r = none → fails 6 s2) ∧
    ∀ w, r = some w → ∀ a s3, agCanWrite (agPenn d) d st.ctx (tcbVa c h) 128 s2 = .ok a s3 → (a = false → fails 6 s3) ∧
      (a = true → ∀ b s4, agCanWrite (agPenn d) d st.ctx arr 128 s3 = .ok b s4 → (b = false → fails 6 s4) ∧
        (b = true →
          let recs := (((st.recsOf ph t).take (st.need ph)).map fun x => [x.lo.toNat, x.hi.toNat]).flatten
          let body := recs ++ List.replicate (16 - recs.length) 0
          ∀ a1 s5 b1 s6 code s7,
            agWriteBytes (agPenn d) d st.ctx (tcbVa c h)
              (wordBytes (instanceTcb w t ph slot n ((old.map (·.failed)).getD false))) s4 = .ok a1 s5 →
            agWriteBytes (agPenn d) d st.ctx arr (wordBytes body) s5 = .ok b1 s6 → insertTask d st.ctx h s6 = .ok code s7 →
            let took (x : TagSlot) (v : State) : State := v.modStage d n fun y => { y.consume ph t with
              tags := Store.set none y.tags slot
                (some { x with relB := x.relB || ph == 2, relW := x.relW || ph == 3 }) }
            (code ≠ 0 → fails code s7) ∧
            (code = 0 → (∀ x, old = some x → releaseTag d n ph t s = .ok true (took x s7)) ∧
              (old = none → ∀ vset s8 s9, currentSet d st.ctx st.weights s7 = .ok vset s8 →
                mirrorSet d n slot vset (took { tag := t, vset } s8) = .ok () s9 → releaseTag d n ph t s = .ok true s9))))) ∧
  (∀ (w : List Nat) (t ph slot n : Nat) (pf : Bool), w.length = 16 → slot < 256 → n < 8 → ph < 4 → t < 65536 →
    let v := instanceTcb w t ph slot n pf
    v.length = 16 ∧ ∀ j b, j < 16 → b < 64 → (v.getD j 0).testBit b =
      if j = 1 ∧ b = 52 then pf else if j = 1 ∧ 32 ≤ b ∧ b < 56 then false
      else if j = 2 ∧ b < 16 then t.testBit b else if j = 2 ∧ 16 ≤ b ∧ b < 18 then ph.testBit (b - 16)
      else if j = 2 ∧ 24 ≤ b ∧ b < 32 then slot.testBit (b - 24) else if j = 2 ∧ 32 ≤ b ∧ b < 35 then n.testBit (b - 32)
      else if j = 2 ∧ b = 35 then true else if j = 15 ∧ b < 16 then false else (w.getD j 0).testBit b) ∧
  (∀ (d n t0 : Nat) (s : State), let st := s.stage d n
    (st.holdv = false ∨ st.verfull = true ∨ s.clock < st.holdvSince + 1750 * st.holdTo → exec (.verfull d n) s = .next s) ∧
    (st.holdv = true → st.verfull = false → st.holdvSince + 1750 * st.holdTo ≤ s.clock → st.weights = [t0] →
      ∀ r s1, tdesc d st.ctx t0 s = .ok r s1 → exec (.verfull d n) s =
        .next ((s1.modStage d n fun x => { x with verfull := true }).postStage d n 2 n t0 0x11))) ∧
  ∀ (d : Nat) (s : State), let x := s.die d
    let room : Prop := 4 ≤ x.mblog.toNat ∧ x.mblog.toNat ≤ 12 ∧ (x.mbhead - x.mbtail).toNat < 2 ^ x.mblog.toNat ∧
      paOk x.mbbase.toNat = true
    let a := x.mbbase.toNat + 32 * (x.mbhead.toNat % 2 ^ x.mblog.toNat)
    (x.mail = [] ∨ ¬ room → exec (.mailboxPost d) s = .next s) ∧
    ∀ m rest, x.mail = m :: rest → room → Completes (.mailboxPost d) s fun t =>
      { s with mem := t.mem, poison := t.poison, pubs := t.pubs, npub := t.npub }.onlyDie d
        { x with mail := rest, mbhead := x.mbhead + 1 } t ∧
      t.rd a 8 = m.w0.toNat ∧ t.rd (a + 8) 8 = m.w1.toNat ∧ t.rd (a + 16) 8 = m.w2.toNat ∧ t.rd (a + 24) 8 = m.w3.toNat ∧
      ∀ b, b < a ∨ a + 32 ≤ b → t.byte b = s.byte b

/-- R54, R175, R176, R182 to R187, R189, R190, R250, R251, R291, for the events of the links and the memory. A flit out of
sequence or with a bad CRC is discarded and answered; in sequence its payload, poison and all, goes into the ring, the last one
adds the message's length and, on a stage's channel, its arrival record. A grant replaces the sender's window; an
acknowledgement completes the oldest CHSEND with its status; a negative one sends the stored flits again; the 16th replay of
one flit takes the port down and its commands with LINK. A slot closes the channel's rows, serves the part of its owner that
had come by its clock 1, or directed refreshes; owners written in an earlier rotation are in force; a refresh window clears the
trackers. A line counted three times moves to its quad's slice; a tile moved for firmware is in flight until its copy ends and
leaves its old frame to drain, and a drained frame returns to its pool. The model's choices: what a COLL's acknowledgement
names and the flits kept are logs 46's and 47's, refreshes and line requests log 62's, a tile that cannot be moved log 63's, the
transit of a part log 81's, the places of a flit's bytes log 82's, a grant's count log 35's. -/
def Obligations.LinkAndMemoryEvents : Prop :=
  (∀ (p seqNo n off : Nat) (ok last : Bool) (h : MsgHdr) (l : List RByte) (s : State),
    let i := Instr.dataFlit p seqNo n off ok last h l
    let q := s.port p
    let c := s.chan n
    let next : Prop := ok = true ∧ seqNo = q.rx % 65536
    (q.trained = false → exec i s = .next s) ∧
    (q.trained = true → ¬ next → Completes i s fun t => t = { s with ports := t.ports } ∧
      (∀ j, j ≠ p → t.port j = s.port j) ∧ ∃ f : Flit,
        f = ⟨q.tx % 65536, (q.rx + 65535) % 65536, 5, 0, 0, ⟨0, 0, 0, 0⟩, (bytesOf (q.rx % 65536) 2).map fun b => (b, false),
          Config.flitCrc f.bytes⟩ ∧
        t.port p = { q with nacks := q.nacks + 1, tx := q.tx + 1, wire := q.wire ++ [f],
                            replay := (q.replay ++ [f]).drop (q.replay.length + 1 - 512) }) ∧
    (q.trained = true → next → c.enabled = false → Completes i s fun t => t = { s with ports := t.ports } ∧
      (∀ j, j ≠ p → t.port j = s.port j) ∧ t.port p = { q with rx := q.rx + 1 }) ∧
    (q.trained = true → next → c.enabled = true → c.rxFail = false → ∀ e s1, ringWrite n (c.delivered + off) c l s = .ok e s1 →
      let whole : Prop := e = 0 ∧ last = true ∧ c.rxBytes + l.length = h.length
      let now (x : TChan) (f : State → State) : Prop := ∃ u : State, u = { s1 with chans := u.chans } ∧
        (∀ j, j ≠ n → u.chan j = s1.chan j) ∧ u.chan n = x ∧ exec i s = .next ((f u).tookFlit p)
      (last = false → now { c with rxBytes := c.rxBytes + l.length, rxFail := decide (e ≠ 0) }
        fun u => if e = 0 then u else u.sendAck n e (c.rxBytes / 16)) ∧
      (last = true → ¬ whole → now { c with rxBytes := 0, rxFail := false }
        fun u => if e = 0 then u else u.sendAck n e (c.rxBytes / 16)) ∧
      (whole → c.stgv = true ∨ c.w3 = 0 → now { c with
          delivered := c.delivered + h.length, rxBytes := 0,
          recs := if c.stgv then c.recs ++ [(BitVec.ofNat 64 (h.tag % 65536 + h.phase % 4 * 2 ^ 16 + n * 2 ^ 18 +
              h.tensor % 2 ^ 32 * 2 ^ 32),
            BitVec.ofNat 64 (c.delivered % 2 ^ c.rlog % 2 ^ 32 + h.length % 2 ^ 32 * 2 ^ 32))] else c.recs }
        fun u => if c.stgv then u else (u.sendGrant n).sendAck n 0 (h.length / 16)))) ∧
  (∀ (n w r : Nat) (g : Bool) (s : State), let p := (s.chan n).port
    Completes (.windowGrant n w r g) s fun t => t = { s with chans := t.chans, ports := t.ports } ∧
      (∀ j, j ≠ n → t.chan j = s.chan j) ∧ t.chan n = { s.chan n with grant := some ⟨w, r, g, 0⟩ } ∧
      ∀ j, t.port j = if j = p then { s.port p with rx := (s.port p).rx + 1 } else s.port j) ∧
  (∀ (n : Nat) (st : AckOf) (s : State), let i := Instr.acknowledgementOfPublication n st
    let u := s.tookFlit (s.chan n).port
    (s.unacked n = none → exec i s = .next u) ∧
    ∀ k, s.unacked n = some k → k.core < 288 →
      (k.kind = .chsend → st.code = 0 → Completes i s (u.ended k 0 0 k.g1.toNat)) ∧
      (k.kind = .chsend → st.code ≠ 0 → ∃ v : State, v = { u with chans := v.chans } ∧
        (∀ j, j ≠ n → v.chan j = s.chan j) ∧
        v.chan n = { s.chan n with grant := (s.chan n).grant.map fun g => { g with sent := g.sent - k.g1.toNat } } ∧
        Completes i s (v.ended k st.code st.prog 0)) ∧
      (k.kind = .coll → exec i s = .next (u.setCmd { k with
        walk := { k.walk with sent := k.walk.sent.erase n, acked := k.walk.acked + 1 } }))) ∧
  (∀ (w : FlitWay) (cid off : Nat) (r : Bool) (l : List RByte) (s : State), let i := Instr.collectiveFlit w cid off r l
    let m : CollMsg := ⟨cid, r, off, l, none, some w.chan⟩
    let p := (s.chan w.chan).port
    let room : Prop := (s.die w.die).held + l.length ≤ 65536
    (s.walker w.die cid = none → room → exec i s =
      .next ((s.modDie w.die fun x => { x with hold := x.hold ++ [m] }).tookFlit p)) ∧
    (s.walker w.die cid = none → ¬ room → exec i s = .next s) ∧
    ∀ t, acceptMsg w.die m s = .ok () t → exec i s = .next (t.tookFlit (t.chan w.chan).port)) ∧
  (∀ (p x : Nat) (s : State), let q := s.port p
    Completes (.negativeAcknowledgement p x) s (fun t => t = { s with ports := t.ports } ∧
      (∀ j, j ≠ p → t.port j = s.port j) ∧
      t.port p = { q with rx := q.rx + 1, wire := q.wire ++ q.replay.dropWhile (·.seqNo != x), replayNo := x,
                          replays := if q.replayNo = x then q.replays + 1 else 1 }) ∧
    (q.replays < 16 ∨ q.trained = false → exec (.portDown p) s = .next s) ∧
    (16 ≤ q.replays → q.trained = true → ∃ u : State,
      u = { s with ports := u.ports } ∧ (∀ j, j ≠ p → u.port j = s.port j) ∧ u.port p = { q with trained := false } ∧
      let down (v t : State) : Prop := t = { v with chans := t.chans } ∧
        ∀ n, t.chan n = if n < 64 ∧ (v.chan n).port = p then { v.chan n with rxBytes := 0, rxFail := false } else v.chan n
      let users := s.cmds.filter (s.usesPort · p)
      (users = [] → Completes (.portDown p) s (down u)) ∧
      ∀ k, users = [k] → k.core < 288 →
        (k.kind ≠ .coll → ∃ v, u.ended k 0x0B 0 0 v ∧ Completes (.portDown p) s (down v)) ∧
        (k.kind = .coll → ∀ st u1, putStatus16 (agentWalker k.die k.walk.no) k (addrAdd k.va0 0x44)
            (0x0B + k.flags.toNat * 2 ^ 8) u = .ok st u1 →
          ∃ v, u1.ended k st k.walk.acked (k.walk.acked * k.walk.tlen) v ∧ Completes (.portDown p) s (down v)))) ∧
  (∀ (d n : Nat) (cached : Option Nat) (s : State), let i := Instr.calendarSlotStart d n cached
    let x := s.die d
    let clocks := if n < 128 then 8 else 32
    let slots := if n < 128 then 32 else 16
    let at_ := s.clock - s.start
    let k := at_ / clocks
    let late : Prop := 144 ≤ n ∨ k < Store.get 0 x.calSlots n ∨ at_ % clocks = 0
    let due (y : Nat × Nat × Byte × Nat) : Bool := y.1 == n && decide (y.2.2.2 < k / slots)
    (late → exec i s = .next s) ∧
    (¬ late → ∃ u : State, u = { s with dies := u.dies, cores := u.cores, cmds := u.cmds } ∧
      (∀ m, m ≠ d → u.die m = s.die m) ∧ Store.get 0 (u.die d).calSlots n = k + 1 ∧
      (∀ m, m ≠ n → Store.get 0 (u.die d).calSlots m = Store.get 0 x.calSlots m) ∧ (u.die d).chans = x.chans ∧
      (∀ y, y ∈ (u.die d).calPend ↔ y ∈ x.calPend ∧ due y = false) ∧
      (∀ y, x.calPend.filter due = [y] → y.2.1 < slots → isMaint n y.2.1 = false → u.owner d n y.2.1 = y.2.2.1.toNat) ∧
      (x.calPend.filter due = [] → ∀ j, u.owner d n j = s.owner d n j) ∧
      (∀ j, j < 144 → let c := 144 * d + j
        (u.core c).xfers = (s.core c).xfers.map fun y => { y with
          parts := y.parts.filter fun p => u.ownsSlot c d n || !(homeDie p.at_ == d && chanOf p.at_ == n) }) ∧
      let slot := k % slots
      let own := u.owner d n slot
      let part := u.partOf (144 * d + own) d n (s.start + k * clocks + 1)
      let y := (u.die d).chan n
      (isMaint n slot = true → y.drfm = [] → Completes i s fun t =>
        u.onlyDie d { u.die d with chans := (t.die d).chans } t ∧ (t.die d).chan n = { y with rows := [] } ∧
        ∀ m, m ≠ n → (t.die d).chan m = x.chan m) ∧
      (isMaint n slot = false → own < 144 → ∀ p, part = some p →
        exec i s = .next ((u.servePart (144 * d + own) p).modDie d (·.access n p.2.at_))) ∧
      (isMaint n slot = false → 144 ≤ own ∨ part = none →
        (∀ pa, cached = some pa → homeDie pa = d → chanOf pa = n → y.holdsBack pa = false →
          exec i s = .next (u.modDie d (·.access n pa))) ∧
        (cached = none ∨ (∃ pa, cached = some pa ∧ y.holdsBack pa = true) → Completes i s fun t =>
          u.onlyDie d { u.die d with chans := (t.die d).chans, drfmcnt := x.drfmcnt + BitVec.ofNat 32 (min 2 y.drfm.length) } t ∧
          (t.die d).chan n = { y with drfm := y.drfm.drop 2, held := y.held && decide (16 ≤ (y.drfm.drop 2).length) } ∧
          ∀ m, m ≠ n → (t.die d).chan m = x.chan m)))) ∧
  (∀ (d : Nat) (s : State), let n := (s.clock - s.start) / 56000000
    (n ≤ (s.die d).windows → exec (.refreshWindow d) s = .next s) ∧
    ((s.die d).windows < n → ((s.die d).chans.map (·.1)).Nodup → Completes (.refreshWindow d) s fun t =>
      s.onlyDie d { s.die d with windows := n, chans := (t.die d).chans } t ∧
      ∀ c, (t.die d).chan c = { (s.die d).chan c with trackers := [] })) ∧
  (∀ (d line : Nat) (s : State), let x := s.die d
    let r : LineRec := Store.get {} x.lines line
    let home := (if hostBase ≤ 128 * line then 128 * line - hostBase else 128 * line) / 128 % 144
    let to_ := 24 * (r.quad / 6) + 2 * (r.quad % 6)
    (r.count < 3 ∨ r.holder.getD home = to_ → exec (.lineMigration d line) s = .next s) ∧
    (3 ≤ r.count → r.holder.getD home ≠ to_ → x.lines.length < 4096 ∨ to_ = home →
      Completes (.lineMigration d line) s fun t =>
        s.onlyDie d { x with lines := (t.die d).lines, fwdOrder := x.fwdOrder + 1 } t ∧
        ∀ m, Store.get {} (t.die d).lines m = if m = line
          then { r with count := 0, holder := if to_ = home then none else some to_, moved := x.fwdOrder }
          else Store.get {} x.lines m)) ∧
  (∀ (d ctx tid ver x : Nat) (lp : Bool) (s s1 : State) (td : TDesc), let i := Instr.tileMove d ctx tid ver x lp
    let v := if td.vers then ver else 0
    let mine (m : Move) : Bool := m.cmd == none && m.ctx == ctx && m.tensor == tid && m.ver == v && m.tile == x
    tdesc d ctx tid s = .ok (.ok td) s1 → x < td.nt → (td.vers = true → td.hasVersion ver = true) →
    let tier := if lp then 1 else 0
    let pool := 6 * tier + td.tlog
    let stays (u : State) : State := if lp then u.postUnit d 4 1 (tid + x * 2 ^ 32) 0 ctx else u
    (s1.moves.find? mine = none → ∀ t s2, readTte td v x s1 = .ok t s2 →
      let fits : Prop := t.bad = false ∧ t.accessible = true ∧ t.state = 0 ∧ t.tier ≠ tier
      let barred : Prop := (lp = true ∧ t.pin = true) ∨ t.shx = true ∨ t.refcnt ≠ 1
      (¬ fits → exec i s = .next s2) ∧ (fits → barred → exec i s = .next (stays s2)) ∧
      (fits → ¬ barred → (∀ s3, s2.popFrame d pool = (none, s3) → exec i s = .next (stays s3)) ∧
        ∀ f s3 s4, s2.popFrame d pool = (some f, s3) → beginMove d ctx tid v x td t f pool none s3 = .ok () s4 →
          exec i s = .next s4)) ∧
    ∀ m, s1.moves.find? mine = some m → ∀ r s2, endCopy m td s1 = .ok r s2 →
      (r = .again → exec i s = .next s2) ∧
      (r = .gone → exec i s = .next (if 6 ≤ m.newPool then s2.postUnit m.die 4 1 (tid + x * 2 ^ 32) 0 ctx else s2)) ∧
      ∀ t s3, r = .whole t → swapFrame m td t (m.newPool / 6) 0 s2 = .ok () s3 → exec i s = .next s3) ∧
  ∀ (d : Nat) (s : State), let x := s.die d
    (x.oldFrames = [] → exec (.oldFrameRelease d) s = .next s) ∧
    ∀ f rest, x.oldFrames = f :: rest → let p := x.pool f.pool
      let busy := s.reaches (f.frame * 4096) (32768 * 2 ^ (f.pool % 6))
      (busy = true → exec (.oldFrameRelease d) s = .next s) ∧
      (busy = false → p.cap ≤ p.count → exec (.oldFrameRelease d) s =
        .next ((s.modDie d fun y => { y with oldFrames := rest }).postUnit d 4 0 f.pool f.frame 0)) ∧
      (busy = false → p.count < p.cap → Completes (.oldFrameRelease d) s fun t =>
        { s with mem := t.mem, poison := t.poison, pubs := t.pubs, npub := t.npub, hostDirty := t.hostDirty }.onlyDie d
          { x with oldFrames := rest, pools := (t.die d).pools } t ∧
        (∀ k, (t.die d).pool k = if k = f.pool then { p with count := p.count + 1 } else x.pool k) ∧
        t.rd (p.base + 4 * p.count) 4 = f.frame % 2 ^ 32 ∧
        ∀ b, b < p.base + 4 * p.count ∨ p.base + 4 * p.count + 4 ≤ b → t.byte b = s.byte b)

/-- R19, R218, R258, R282, R284, R286, R287, R289, R292 to R295, for the events of the host and the firmware. BOOT resets
everything but host memory and begins step 1; each further BOOT ends a step, fails at the one that fails, or starts die 1's
firmware at step 5; the sectors start in order, 2 µs apart, and after the last the ports train and READY is set. A requested
attestation report, 30,048 bytes in its layout, is written and ATTDONE set. An access through the second window gives its data
or ends in Completer Abort, and is queued while it meets a migration; reads of the control space and of descriptors answer. A
queue's descriptor takes what the host may write; the due queues are visited in ascending number; a poll that finds nothing
doubles the interval up to its limit, one that finds a record takes it and moves RDIDX. LAUNCH, STAGE, FENCE and WRITE end in
the status of R287; a completed operator leaves the bank with its message. Errors are counted, saturating; the health
registers hold what was refreshed last. The model's choices: boot's events log 65's and where firmware begins log 66's, what the
report's fixed bytes are log 67's, the host's accesses and their queue log 68's, a record rewritten early log 69's, an operator's
failures log 70's, what the counters count log 71's. -/
def Obligations.HostEvents : Prop :=
  (∀ (fail : Nat) (svn : BitVec 16) (ports : Byte) (s : State), let i := Instr.boot fail svn ports
    let again : Prop := (s.die 0).loader = some (fail, svn) ∧ (s.die 0).bootPorts = ports
    let k := (s.die 0).bootStep.toNat
    let runs (d : Nat) (x : Core) : Core :=
      { x with priv := true, c := { x.c with parked := false, pc := Config.firmwareEntry d } }
    (¬ again → Completes i s fun t =>
      t = { State.reset with mem := s.hostMem, hostMem := s.hostMem, clock := s.clock, start := s.clock, draws := s.draws,
                             turns := s.turns, nturn := s.nturn, nextId := s.nextId, dies := t.dies, cores := t.cores } ∧
      (∀ d, t.die d = if d < 2 then { State.reset.die d with
          bootStep := 1, bootPorts := ports, bootAt := s.clock, loader := some (fail, svn) } else State.reset.die d) ∧
      ∀ n, t.core n = if n = 0 then runs 0 (State.reset.core 0) else State.reset.core n) ∧
    (again → fail = k → Completes i s fun t => t = { s with dies := t.dies, cores := t.cores } ∧
      (∀ d, t.die d = if d < 2 then { s.die d with
          bootErr := BitVec.ofNat 8 (s.die d).bootStep.toNat, loader := none, sectors := 0 } else s.die d) ∧
      ∀ n, t.core n = if n % 144 = 0 then s.core n else State.reset.core n) ∧
    (again → fail ≠ k → Completes i s fun t => t = { s with dies := t.dies, cores := t.cores } ∧
      (∀ d, t.die d = if d < 2 then { s.die d with
          bootStep := BitVec.ofNat 4 (k + 1), svn := if k = 4 then svn else (s.die d).svn,
          loader := if k = 5 ∧ fail ≠ 6 then none else (s.die d).loader } else s.die d) ∧
      ∀ n, t.core n = if k = 5 ∧ n = 144 then runs 1 (s.core 144) else s.core n)) ∧
  (∀ (d sec : Nat) (s : State), let i := Instr.sectorStart d sec
    let n := s.sectorsUp
    let step := (s.die 0).bootStep
    let last : Prop := step = 7 ∧ d = 1 ∧ sec = 3
    let due : Prop := step = 6 ∧ n = 4 * d + sec ∧ (n = 0 ∨ (s.die 0).bootAt + 3500 ≤ s.clock) ∧
      (n = 7 → (s.die 0).loader = none)
    (s.bootFailed = true ∨ ¬ last ∧ ¬ due → exec i s = .next s) ∧
    (s.bootFailed = false → last → Completes i s fun t => t = { s with dies := t.dies } ∧
      ∀ m, t.die m = if m < 2 then { s.die m with bootStep := 8, ready := true } else s.die m) ∧
    (s.bootFailed = false → due → Completes i s fun t => t = { s with dies := t.dies, ports := t.ports } ∧
      (∀ m, t.die m = { s.die m with
        sectors := if m = d then (s.die m).sectors ||| BitVec.ofNat 4 (2 ^ sec) else (s.die m).sectors,
        bootAt := if m = 0 then s.clock else (s.die m).bootAt,
        bootStep := if n = 7 ∧ m < 2 then 7 else (s.die m).bootStep }) ∧
      ∀ p, t.port p = if n = 7 ∧ p < 8 then { s.port p with trained := (s.die 0).bootPorts.getLsbD p } else s.port p)) ∧
  (∀ (d : Nat) (s : State), let i := Instr.attestationReport d
    let x := s.die d
    (x.attreq = none → exec i s = .next s) ∧
    ∀ va, x.attreq = some va → ∃ sig : List Byte, sig.length = 29792 ∧
      let rep := bytesOf 1 4 ++ bytesOf 0xB1 4 ++ bytesOf x.svn.toNat 8 ++
        (List.range 16).map (fun j => Config.identity (0x10 + j)) ++
        ((List.range 4).map fun j => bytesOf (Store.get 0 x.nonce j).toNat 8).flatten ++
        (List.range 64).map (fun j => Config.identity (0x40 + j)) ++
        (List.range 64).map (Config.fuseHash (s.ctlRead d 0x9000A00).1) ++
        (List.range 64).map (fun j => Config.identity (0xC0 + j)) ++ sig
      rep.length = 30048 ∧
      ∀ ok s1, agWriteBytes (agHost d) d (s.die 0).hwctx.toNat va.toNat (rep.map fun b => (b, false))
          { s with draws := s.draws + 29792 } = .ok ok s1 →
        (ok = true → Completes i s (s1.onlyDie d { s1.die d with attreq := none, attdone := true })) ∧
        (ok = false → exec i s = .next s1)) ∧
  (∀ (off n : Nat) (wr : Option (List Byte)) (s : State), let i := Instr.hostBar2Access ⟨2, off, n⟩ wr
    let new : HostAcc := ⟨off, n, wr, addrAdd (2 ^ 63 + (s.die 0).hwbase.toNat) off, (s.die 0).hwctx.toNat⟩
    let a := (s.hostQ.find? fun x => x.off == off && x.n == n && x.wr == wr).getD new
    let behind : Prop := ∃ x, x ∈ s.hostQ.takeWhile (· != a) ∧ x.va < a.va + a.n ∧ a.va < x.va + x.n
    let abort (t : State) : State := { t with pcie := t.pcie ++ [.completerAbort] }
    (s.bootFailed = true → exec i s = .next s) ∧
    (s.bootFailed = false → ∀ m s1, underMigration a.ctx a.va a.n s = .ok m s1 →
      (m = true ∨ behind → exec i s = .next (if a ∈ s.hostQ then s1 else { s1 with hostQ := s1.hostQ ++ [a] })) ∧
      (m = false → ¬ behind → let u : State := { s1 with hostQ := s1.hostQ.erase a }
        (∀ bs ok s2, a.wr = some bs →
          agWriteBytes (agHost 0) 0 a.ctx a.va (bs.map fun b => (b, false)) u = .ok ok s2 →
          exec i s = .next (if ok then s2 else abort s2)) ∧
        ∀ r s2, a.wr = none → agBytes (agHost 0) 0 a.ctx a.va a.n u = .ok r s2 →
          (r = none → exec i s = .next (abort s2)) ∧
          ∀ l, r = some l → exec i s = .next { s2 with pcie := s2.pcie ++ [.readData (l.map (·.1))] }))) ∧
  (∀ (off n : Nat) (s : State),
    (s.served (off % 2 ^ 28) = false → exec (.hostBar2Access ⟨0, off, n⟩ none) s = .next s) ∧
    (s.served (off % 2 ^ 28) = true → exec (.hostBar2Access ⟨0, off, n⟩ none) s =
      .next { s with pcie := s.pcie ++ [.readData (bytesOf (s.ctlRead (off / 2 ^ 28) (off % 2 ^ 28)).1 8)] }) ∧
    (s.bootFailed = true → exec (.hostBar2Access ⟨4, off, n⟩ none) s = .next s) ∧
    (s.bootFailed = false →
      let a := (s.die (off / 32 / 65536)).qtbase.toNat + 32 * (off / 32 % 65536) + off % 32
      paOk a = true → paOk (a + 7) = true → exec (.hostBar2Access ⟨4, off, n⟩ none) s =
        .next { s with pcie := s.pcie ++ [.readData (bytesOf (s.rd a 8) 8)] })) ∧
  (∀ (q : Nat) (v : DWord) (s : State),
    let a := (s.die (q / 65536)).qtbase.toNat + 32 * (q % 65536)
    let ok : Prop := s.bootFailed = false ∧ ∀ b, a ≤ b → b < a + 32 → paOk b = true
    let puts (o w : Nat) (t : State) : Prop := t.rd (a + o) 8 = w ∧ ∀ b, b < a + o ∨ a + o + 8 ≤ b → t.byte b = s.byte b
    let only (t : State) : Prop := t = { s with mem := t.mem, poison := t.poison, pubs := t.pubs, npub := t.npub, qpolls := t.qpolls }
    exec (.queueDescriptorWrite q 2 v) s = .next s ∧
    (ok → Completes (.queueDescriptorWrite q 0 v) s (fun t => only t ∧ puts 0 v.toNat t ∧ t.qpolls = s.qpolls) ∧
      Completes (.queueDescriptorWrite q 1 v) s (fun t => only t ∧ puts 8 (v.toNat % 2 ^ 32) t ∧
        (∀ j, j ≠ q → t.qpoll j = s.qpoll j) ∧
        t.qpoll q = { s.qpoll q with wrote := (s.qpoll q).wrote ++ [(v.toNat % 2 ^ 32, t.npub)] }) ∧
      Completes (.queueDescriptorWrite q 3 v) s fun t => puts 0x18 (v.toNat % 2 ^ 42) t ∧ only t ∧
        (v.getLsbD 0 = true → (s.rd (a + 0x18) 8).testBit 0 = false →
          t.qpoll q = { s.qpoll q with interval := 448, last := s.clock }) ∧
        (v.getLsbD 0 = false ∨ (s.rd (a + 0x18) 8).testBit 0 = true → t.qpolls = s.qpolls))) ∧
  (∀ (d q : Nat) (s : State), s.memWf = true →
    let base := (s.die d).qtbase.toNat
    let due (j : Nat) : Prop := j < 65536 ∧ (s.byte (base + 32 * j + 24)).getLsbD 0 = true ∧
      (s.qpoll (65536 * d + j)).last + (s.qpoll (65536 * d + j)).interval ≤ s.clock
    s.nextQueue d = some q ↔ ∃ j, q = 65536 * d + j ∧ due j ∧
      ((s.die d).round ≤ j ∧ (∀ k, (s.die d).round ≤ k → k < j → ¬ due k) ∨
        (∀ k, (s.die d).round ≤ k → ¬ due k) ∧ ∀ k, k < j → ¬ due k)) ∧
  (∀ (d q : Nat) (s : State), let i := Instr.collectionRoundPoll d q
    let p := s.qpoll q
    let a := (s.die (q / 65536)).qtbase.toNat + 32 * (q % 65536)
    let wi := s.rd (a + 8) 4
    let rd := s.rd (a + 0x10) 4
    let w3 := s.rd (a + 0x18) 8
    let log := w3 / 2 % 16
    let limit := w3 / 2 ^ 21 % 2 ^ 20
    let due : Prop := (s.die d).run = true ∧ s.bootFailed = false ∧ s.nextQueue d = some q
    let sound : Prop := ∀ b, a ≤ b → b < a + 32 → paOk b = true
    let u := s.modDie d fun x => { x with round := q % 65536 + 1 }
    let polled (n : Nat) (t : State) : Prop := t.qpoll q = { p with interval := n, last := s.clock }
    (¬ due → exec i s = .next s) ∧
    (due → sound → w3.testBit 0 = false → exec i s = .next u) ∧
    (due → sound → w3.testBit 0 = true → (log < 4 ∨ 2 ^ log < (wi + 2 ^ 32 - rd) % 2 ^ 32) → Completes i s fun t =>
      (t.rd (a + 0x18) 8).testBit 0 = false ∧ (t.rd (a + 0x18) 8).testBit 41 = true ∧ t.ops = s.ops) ∧
    (due → sound → w3.testBit 0 = true → 4 ≤ log → wi = rd → Completes i s fun t => t = { u with qpolls := t.qpolls } ∧
      polled (min (2 * p.interval) (1750 * (if limit = 0 then 1000 else limit))) t ∧
      ∀ m, m ≠ q → t.qpoll m = s.qpoll m) ∧
    (due → sound → w3.testBit 0 = true → 4 ≤ log → wi ≠ rd → (wi + 2 ^ 32 - rd) % 2 ^ 32 ≤ 2 ^ log → p.chain = none →
      (∀ o, o ∈ s.ops → o.q = q → s.opActive o = true) →
      let s2 := (u.setQpoll q { p with interval := 448, last := s.clock }).dropHostLines
      ∀ l s1, readSlot (q / 65536) (w3 / 2 ^ 5 % 2 ^ 16) (addrAdd (s.rd a 8) (64 * (rd % 2 ^ log))) (s2.slotPoint q rd) s2 =
        .ok (some l) s1 → anyPoison l = false →
      let w := (List.range 8).map fun j => rbytesNat ((l.drop (8 * j)).take 8)
      (w.getD 0 0).testBit 8 = false → s1.queueAt q = a → s1.qpoll q = { p with interval := 448, last := s.clock } →
      Completes i s fun t => t.rd (a + 0x10) 4 = (rd + 1) % 2 ^ 32 ∧
        t.ops = s1.ops ++ [{ id := s1.nextId, prev := p.lastOp, q := q, die := q / 65536, ctx := w3 / 2 ^ 5 % 2 ^ 16,
                             words := w, begun := badRecord w, status := if badRecord w then 2 else 0, upto := 0,
                             ended := [] }])) ∧
  (∀ (q : Nat) (s : State),
    let done (s1 : State) (o : OpRun) (status upto : Nat) : State := s1.setOp { o with begun := true, status, upto }
    (s.nextOp q 1 = none → exec (.launch q) s = .next s) ∧ (s.nextOp q 2 = none → exec (.stage q) s = .next s) ∧
    (s.nextOp q 4 = none → exec (.write q) s = .next s) ∧
    (∀ o, s.nextOp q 1 = some o → ∀ c s1, ctxEnt o.die o.ctx s = .ok c s1 →
      (o.count = 0 → exec (.launch q) s = .next (done s1 o 2 0)) ∧
      (o.count ≠ 0 → c.poisoned = true ∨ c.valid = false → exec (.launch q) s = .next (done s1 o 6 0)) ∧
      (o.count ≠ 0 → c.poisoned = false → c.valid = true → c.tcbSize < o.first + o.count →
        exec (.launch q) s = .next (done s1 o 2 0)) ∧
      (o.count ≠ 0 → c.poisoned = false → c.valid = true → o.first + o.count ≤ c.tcbSize →
        let hs := (List.range o.count).map (o.first + ·)
        (∀ h s2, findPostmaster o.die o.ctx hs s1 = .ok (some h) s2 →
          exec (.launch q) s = .next (done (s2.postUnit o.die 5 0 h 6 o.ctx) o 3 0)) ∧
        ∀ s2 s3 st n s4, findPostmaster o.die o.ctx hs s1 = .ok none s2 → newStamp o.die o.ctx s2 = .ok () s3 →
          insertReady o.die o.ctx hs 0 s3 = .ok (st, n) s4 → exec (.launch q) s = .next (done s4 o st n))) ∧
    (∀ o, s.nextOp q 2 = some o → let a := o.words.getD 2 0
      ∀ r s1, pennOp (a / 8 % 2) o.ctx (a / 16 % 8) (a % 8) (o.words.getD 3 0) s = .ok r s1 →
        exec (.stage q) s = .next (done s1 o (if r % 256 = 0 then 0 else 5) 0)) ∧
    (∀ o, s.nextOp q 4 = some o → ∀ ok s1,
      agWrite (agHost o.die) o.die o.ctx (o.words.getD 2 0) 8 (o.words.getD 3 0) s = .ok ok s1 → exec (.write q) s =
        .next (if ok then done { s1.sendHost with pcie := s1.pcie ++ [.zeroRead] } o 0 0 else done s1 o 6 0)) ∧
    let fence := s.ops.find? fun o => o.q == q && o.opc == 3 && !o.begun && s.prevDone o
    (fence = none → exec (.operatorFence q) s = .next s) ∧
    (∀ o, fence = some o → exec (.operatorFence q) s = .next (s.setOp { o with begun := true })) ∧
    let ready := s.ops.find? fun o => o.q == q && o.begun && s.opActive o
    (ready = none → exec (.operatorCompletion q) s = .next s) ∧
    ∀ o, ready = some o → o.upto = 0 →
      let w0 := o.words.getD 0 0
      let va := o.words.getD 5 0
      let leaves (u : State) : State := { u with
        ops := u.ops.filter (·.id != o.id),
        pcie := if w0.testBit 9 then u.pcie ++ [.msix (w0 / 2 ^ 16 % 2 ^ 11)] else u.pcie }
      (va = 0 → exec (.operatorCompletion q) s = .next (leaves s)) ∧
      (va ≠ 0 → ∀ ok s1, agWriteBytes (agHost o.die) o.die o.ctx va
          ((bytesOf o.status 8 ++ bytesOf (o.words.getD 6 0) 8).map fun b => (b, false)) s = .ok ok s1 →
        exec (.operatorCompletion q) s = .next (leaves { s1.sendHost with pcie := s1.pcie ++ [.zeroRead] }))) ∧
  (∀ (d : Nat) (s : State), let x := s.die d
    let up (w : Word) : Word := if w = 0xFFFFFFFF then w else w + 1
    Completes (.correctableError d) s (s.onlyDie d { x with cecnt := up x.cecnt }) ∧
    (∀ g, paOk (8 * g) = true → Completes (.uncorrectableError d (.memory g)) s fun t =>
      { s with poison := t.poison }.onlyDie d { x with uecnt := up x.uecnt } t ∧
      ∀ j, Store.get false t.poison j = (j == g || Store.get false s.poison j)) ∧
    (∀ c g, Completes (.uncorrectableError d (.localStore c g)) s fun t => t = { s with cores := t.cores, dies := t.dies } ∧
      (∀ n, n ≠ c → t.core n = s.core n) ∧ t.core c = { s.core c with storePoison := (t.core c).storePoison } ∧
      (∀ j, Store.get false (t.core c).storePoison j = (j == g || Store.get false (s.core c).storePoison j)) ∧
      (∀ m, m ≠ d → t.die m = s.die m) ∧ t.die d = { x with uecnt := up x.uecnt }) ∧
    ∀ sage hbm eol, Completes (.healthRefresh d sage hbm eol) s fun t =>
      s.onlyDie d { x with sage := (t.die d).sage, hbm := (t.die d).hbm, eolh := eol } t ∧
      ∀ j, j < 4 → Store.get 0 (t.die d).sage j = sage.getD j 0 ∧ Store.get 0 (t.die d).hbm j = hbm.getD j 0)

end Statements
end

