-- ==== Sys2Proof/Laws/Store.lean ====
section
/-! SUPPORT. What reading and writing a store do, and that every write keeps the canonical form. -/

namespace Sys2Proof.Machine

variable {β : Type}

theorem Store.get_insert (d : β) (m : Store β) (k j : Nat) (v : β) :
    Store.get d (Store.insert k v m) j = if j = k then v else Store.get d m j := by
  induction m with
  | nil => simp only [Store.insert, Store.get, eq_comm]
  | cons e t ih =>
    obtain ⟨a, w⟩ := e
    rcases lt_trichotomy k a with h | h | h
    · simp only [Store.insert, if_pos h, Store.get, eq_comm]
    · subst h
      simp only [Store.insert, lt_irrefl, if_true, if_false, Store.get]
      by_cases e : k = j
      · simp only [e, if_true]
      · simp only [if_neg e, if_neg (Ne.symm e)]
    · simp only [Store.insert, if_neg (by omega : ¬ k < a), if_neg (by omega : ¬ k = a), Store.get, ih]
      by_cases e : a = j
      · simp only [if_pos e, if_neg (by omega : ¬ j = k)]
      · simp only [if_neg e]

theorem Store.get_filter_ne (d : β) (m : Store β) (k j : Nat) :
    Store.get d (m.filter (fun e => e.1 != k)) j = if j = k then d else Store.get d m j := by
  induction m with
  | nil => simp only [List.filter, Store.get, ite_self]
  | cons e t ih =>
    obtain ⟨a, w⟩ := e
    by_cases h : a = k
    · subst h
      simp only [List.filter, bne_self_eq_false, ih, Store.get]
      by_cases e : a = j
      · simp only [e, if_true]
      · simp only [if_neg e]
    · have h' : (a != k) = true := by simpa using h
      simp only [List.filter, h', Store.get, ih]
      by_cases e : a = j
      · simp only [if_pos e, if_neg (e ▸ h)]
      · simp only [if_neg e]

/-- Reading back: the key written holds the value, every other key what it held. -/
@[simp] theorem Store.get_set [DecidableEq β] (d : β) (m : Store β) (k j : Nat) (v : β) :
    Store.get d (Store.set d m k v) j = if j = k then v else Store.get d m j := by
  unfold Store.set
  split
  · subst_vars; exact Store.get_filter_ne _ m k j
  · exact Store.get_insert d m k j v

/-- All keys of `m` lie above `k`. -/
theorem Store.rising_cons_iff (a : Nat) (w : β) (t : Store β) :
    Store.rising ((a, w) :: t) = true ↔ (∀ e ∈ t, a < e.1) ∧ t.rising = true := by
  induction t generalizing a w with
  | nil => simp [Store.rising]
  | cons f u ih =>
    obtain ⟨b, x⟩ := f
    simp only [Store.rising, Bool.and_eq_true, decide_eq_true_eq, List.mem_cons, forall_eq_or_imp]
    constructor
    · rintro ⟨h, g⟩
      have := (ih b x).1 g
      exact ⟨⟨h, fun e he => lt_trans h (this.1 e he)⟩, g⟩
    · rintro ⟨⟨h, -⟩, g⟩; exact ⟨h, g⟩

theorem Store.mem_insert {k : Nat} {v : β} {m : Store β} {e : Nat × β} (h : e ∈ Store.insert k v m) :
    e = (k, v) ∨ e ∈ m := by
  induction m with
  | nil => simpa [Store.insert] using h
  | cons f t ih =>
    obtain ⟨a, w⟩ := f
    simp only [Store.insert] at h
    split at h
    · simpa using h
    · split at h
      · rcases List.mem_cons.1 h with h | h <;> simp [h]
      · rcases List.mem_cons.1 h with h | h
        · simp [h]
        · rcases ih h with h | h <;> simp [h]

theorem Store.rising_insert (k : Nat) (v : β) (m : Store β) (h : m.rising = true) :
    (Store.insert k v m).rising = true := by
  induction m with
  | nil => rfl
  | cons f t ih =>
    obtain ⟨a, w⟩ := f
    have ⟨h1, h2⟩ := (Store.rising_cons_iff a w t).1 h
    simp only [Store.insert]
    split
    · rw [Store.rising_cons_iff]
      refine ⟨fun e he => ?_, h⟩
      rcases List.mem_cons.1 he with rfl | he
      · assumption
      · exact lt_trans ‹k < a› (h1 e he)
    · split
      · subst_vars; rw [Store.rising_cons_iff]; exact ⟨h1, h2⟩
      · rw [Store.rising_cons_iff]
        refine ⟨fun e he => ?_, ih h2⟩
        rcases Store.mem_insert he with rfl | he
        · dsimp only; omega
        · exact h1 e he

theorem Store.rising_filter (p : Nat × β → Bool) (m : Store β) (h : m.rising = true) :
    Store.rising (m.filter p) = true := by
  induction m with
  | nil => rfl
  | cons f t ih =>
    obtain ⟨a, w⟩ := f
    have ⟨h1, h2⟩ := (Store.rising_cons_iff a w t).1 h
    simp only [List.filter]
    split
    · rw [Store.rising_cons_iff]
      exact ⟨fun e he => h1 e (List.mem_filter.1 he).1, ih h2⟩
    · exact ih h2

/-- A write keeps the keys rising. -/
theorem Store.rising_set [DecidableEq β] (d : β) (m : Store β) (k : Nat) (v : β) (h : m.rising = true) :
    (Store.set d m k v).rising = true := by
  unfold Store.set
  split
  · exact Store.rising_filter _ m h
  · exact Store.rising_insert k v m h

/-- A write keeps the canonical form. -/
theorem Store.wf_set [DecidableEq β] (d : β) (m : Store β) (k : Nat) (v : β) (h : Store.wf d m = true) :
    Store.wf d (Store.set d m k v) = true := by
  simp only [Store.wf, Store.noDefault, Bool.and_eq_true, List.all_eq_true] at h ⊢
  refine ⟨Store.rising_set d m k v h.1, fun e he => ?_⟩
  unfold Store.set at he
  split at he
  · exact h.2 e (List.mem_filter.1 he).1
  · rcases Store.mem_insert he with rfl | he
    · simpa using ‹_›
    · exact h.2 e he

/-- Writing a run of keys keeps the canonical form. -/
theorem Store.wf_setMany [DecidableEq β] (d : β) (l : List β) : ∀ (m : Store β) (k : Nat), Store.wf d m = true →
    Store.wf d (Store.setMany d m k l) = true := by
  induction l with
  | nil => intro m k h; exact h
  | cons v t ih => intro m k h; exact ih _ _ (Store.wf_set d m k v h)

theorem Store.rising_of_wf [DecidableEq β] {d : β} {m : Store β} (h : Store.wf d m = true) : m.rising = true := by
  simp only [Store.wf, Bool.and_eq_true] at h; exact h.1

/-- Reading after a run of writes: inside the run its value, outside what was there. -/
theorem Store.get_setMany [DecidableEq β] (d : β) (l : List β) : ∀ (m : Store β) (k j : Nat),
    Store.get d (Store.setMany d m k l) j = if k ≤ j ∧ j < k + l.length then l.getD (j - k) d else Store.get d m j := by
  induction l with
  | nil => intro m k j; rw [Store.setMany, if_neg (by simp)]
  | cons v t ih =>
    intro m k j
    rw [Store.setMany, ih, Store.get_set]
    by_cases e : j = k
    · subst e; simp
    · simp only [e, if_false, List.length_cons]
      by_cases g : k + 1 ≤ j ∧ j < k + 1 + t.length
      · rw [if_pos g, if_pos (by omega)]
        obtain ⟨n, rfl⟩ : ∃ n, j = k + 1 + n := ⟨j - (k + 1), by omega⟩
        have e1 : k + 1 + n - (k + 1) = n := by omega
        have e2 : k + 1 + n - k = n + 1 := by omega
        simp [e1, e2]
      · rw [if_neg g, if_neg (by omega)]

/-- Two stores in canonical form that read alike are equal. -/
theorem Store.ext_of_wf [DecidableEq β] (d : β) : ∀ (m n : Store β), Store.wf d m = true → Store.wf d n = true →
    (∀ k, Store.get d m k = Store.get d n k) → m = n := by
  have absent : ∀ (m : Store β) (k : Nat), (∀ e ∈ m, k < e.1) → Store.get d m k = d := by
    intro m k h
    induction m with
    | nil => rfl
    | cons f t ih =>
      obtain ⟨a, w⟩ := f
      have h1 := h (a, w) (by simp)
      simp only [Store.get]
      rw [if_neg (by dsimp only at h1; omega)]
      exact ih (fun e he => h e (by simp [he]))
  have tl : ∀ (a : Nat) (w : β) (t : Store β), Store.wf d ((a, w) :: t) = true →
      w ≠ d ∧ (∀ e ∈ t, a < e.1) ∧ Store.wf d t = true := by
    intro a w t h
    simp only [Store.wf, Bool.and_eq_true, Store.rising_cons_iff, Store.noDefault, List.all_cons, bne_iff_ne, ne_eq] at h ⊢
    exact ⟨h.2.1, h.1.1, h.1.2, h.2.2⟩
  intro m
  induction m with
  | nil =>
    intro n _ hn h
    cases n with
    | nil => rfl
    | cons f t =>
      obtain ⟨a, w⟩ := f
      have := h a
      simp only [Store.get, if_true] at this
      exact absurd this.symm (tl a w t hn).1
  | cons e t ih =>
    obtain ⟨a, w⟩ := e
    intro n hm hn h
    obtain ⟨hw, hlt, ht⟩ := tl a w t hm
    cases n with
    | nil =>
      have := h a
      simp only [Store.get, if_true] at this
      exact absurd this hw
    | cons f u =>
      obtain ⟨b, x⟩ := f
      obtain ⟨hx, hlu, hu⟩ := tl b x u hn
      have hab : a = b := by
        rcases lt_trichotomy a b with g | g | g
        · have := h a
          rw [absent ((b, x) :: u) a (by
            intro e he
            rcases List.mem_cons.1 he with rfl | he
            · exact g
            · exact lt_trans g (hlu e he))] at this
          simp only [Store.get, if_true] at this
          exact absurd this hw
        · exact g
        · have := h b
          rw [absent ((a, w) :: t) b (by
            intro e he
            rcases List.mem_cons.1 he with rfl | he
            · exact g
            · exact lt_trans g (hlt e he))] at this
          simp only [Store.get, if_true] at this
          exact absurd this.symm hx
      subst hab
      have hwx : w = x := by have := h a; simpa only [Store.get, if_true] using this
      subst hwx
      congr 1
      refine ih u ht hu (fun k => ?_)
      have := h k
      simp only [Store.get] at this
      by_cases g : a = k
      · subst g; rw [absent t a hlt, absent u a hlu]
      · simpa only [if_neg g] using this

end Sys2Proof.Machine
end

