-- ==== Sys2Proof/Laws/State.lean ====
section
/-! SUPPORT. What each update of the state leaves alone and what it sets: one lemma a field. -/

namespace Sys2Proof.Machine

variable (s : State) (n : Nat) (q : SeqId)

/-! `setCore`. -/

@[simp] theorem setCore_mem (k : Core) : (s.setCore n k).mem = s.mem := rfl
@[simp] theorem setCore_poison (k : Core) : (s.setCore n k).poison = s.poison := rfl
@[simp] theorem setCore_pubs (k : Core) : (s.setCore n k).pubs = s.pubs := rfl
@[simp] theorem setCore_npub (k : Core) : (s.setCore n k).npub = s.npub := rfl
@[simp] theorem setCore_dies (k : Core) : (s.setCore n k).dies = s.dies := rfl
@[simp] theorem setCore_cmds (k : Core) : (s.setCore n k).cmds = s.cmds := rfl
@[simp] theorem setCore_tasks (k : Core) : (s.setCore n k).tasks = s.tasks := rfl
@[simp] theorem setCore_chans (k : Core) : (s.setCore n k).chans = s.chans := rfl
@[simp] theorem setCore_ports (k : Core) : (s.setCore n k).ports = s.ports := rfl
@[simp] theorem setCore_tlb (k : Core) : (s.setCore n k).tlb = s.tlb := rfl
@[simp] theorem setCore_ats (k : Core) : (s.setCore n k).ats = s.ats := rfl
@[simp] theorem setCore_atsReqs (k : Core) : (s.setCore n k).atsReqs = s.atsReqs := rfl
@[simp] theorem setCore_drops (k : Core) : (s.setCore n k).drops = s.drops := rfl
@[simp] theorem setCore_ops (k : Core) : (s.setCore n k).ops = s.ops := rfl
@[simp] theorem setCore_qpolls (k : Core) : (s.setCore n k).qpolls = s.qpolls := rfl
@[simp] theorem setCore_pcie (k : Core) : (s.setCore n k).pcie = s.pcie := rfl
@[simp] theorem setCore_hostQ (k : Core) : (s.setCore n k).hostQ = s.hostQ := rfl
@[simp] theorem setCore_hostMem (k : Core) : (s.setCore n k).hostMem = s.hostMem := rfl
@[simp] theorem setCore_hostDirty (k : Core) : (s.setCore n k).hostDirty = s.hostDirty := rfl
@[simp] theorem setCore_posted (k : Core) : (s.setCore n k).posted = s.posted := rfl
@[simp] theorem setCore_atsInv (k : Core) : (s.setCore n k).atsInv = s.atsInv := rfl
@[simp] theorem setCore_moves (k : Core) : (s.setCore n k).moves = s.moves := rfl
@[simp] theorem setCore_clock (k : Core) : (s.setCore n k).clock = s.clock := rfl
@[simp] theorem setCore_start (k : Core) : (s.setCore n k).start = s.start := rfl
@[simp] theorem setCore_rank (k : Core) : (s.setCore n k).rank = s.rank := rfl
@[simp] theorem setCore_evaluated (k : Core) : (s.setCore n k).evaluated = s.evaluated := rfl
@[simp] theorem setCore_relax (k : Core) : (s.setCore n k).relax = s.relax := rfl
@[simp] theorem setCore_draws (k : Core) : (s.setCore n k).draws = s.draws := rfl
@[simp] theorem setCore_turns (k : Core) : (s.setCore n k).turns = s.turns := rfl
@[simp] theorem setCore_nturn (k : Core) : (s.setCore n k).nturn = s.nturn := rfl
@[simp] theorem setCore_cur (k : Core) : (s.setCore n k).cur = s.cur := rfl
@[simp] theorem setCore_curSeq (k : Core) : (s.setCore n k).curSeq = s.curSeq := rfl
@[simp] theorem setCore_nextId (k : Core) : (s.setCore n k).nextId = s.nextId := rfl

/-! `modCore`. -/

@[simp] theorem modCore_mem (f : Core → Core) : (s.modCore n f).mem = s.mem := rfl
@[simp] theorem modCore_poison (f : Core → Core) : (s.modCore n f).poison = s.poison := rfl
@[simp] theorem modCore_pubs (f : Core → Core) : (s.modCore n f).pubs = s.pubs := rfl
@[simp] theorem modCore_npub (f : Core → Core) : (s.modCore n f).npub = s.npub := rfl
@[simp] theorem modCore_dies (f : Core → Core) : (s.modCore n f).dies = s.dies := rfl
@[simp] theorem modCore_cmds (f : Core → Core) : (s.modCore n f).cmds = s.cmds := rfl
@[simp] theorem modCore_tasks (f : Core → Core) : (s.modCore n f).tasks = s.tasks := rfl
@[simp] theorem modCore_chans (f : Core → Core) : (s.modCore n f).chans = s.chans := rfl
@[simp] theorem modCore_ports (f : Core → Core) : (s.modCore n f).ports = s.ports := rfl
@[simp] theorem modCore_tlb (f : Core → Core) : (s.modCore n f).tlb = s.tlb := rfl
@[simp] theorem modCore_ats (f : Core → Core) : (s.modCore n f).ats = s.ats := rfl
@[simp] theorem modCore_atsReqs (f : Core → Core) : (s.modCore n f).atsReqs = s.atsReqs := rfl
@[simp] theorem modCore_drops (f : Core → Core) : (s.modCore n f).drops = s.drops := rfl
@[simp] theorem modCore_ops (f : Core → Core) : (s.modCore n f).ops = s.ops := rfl
@[simp] theorem modCore_qpolls (f : Core → Core) : (s.modCore n f).qpolls = s.qpolls := rfl
@[simp] theorem modCore_pcie (f : Core → Core) : (s.modCore n f).pcie = s.pcie := rfl
@[simp] theorem modCore_hostQ (f : Core → Core) : (s.modCore n f).hostQ = s.hostQ := rfl
@[simp] theorem modCore_hostMem (f : Core → Core) : (s.modCore n f).hostMem = s.hostMem := rfl
@[simp] theorem modCore_hostDirty (f : Core → Core) : (s.modCore n f).hostDirty = s.hostDirty := rfl
@[simp] theorem modCore_posted (f : Core → Core) : (s.modCore n f).posted = s.posted := rfl
@[simp] theorem modCore_atsInv (f : Core → Core) : (s.modCore n f).atsInv = s.atsInv := rfl
@[simp] theorem modCore_moves (f : Core → Core) : (s.modCore n f).moves = s.moves := rfl
@[simp] theorem modCore_clock (f : Core → Core) : (s.modCore n f).clock = s.clock := rfl
@[simp] theorem modCore_start (f : Core → Core) : (s.modCore n f).start = s.start := rfl
@[simp] theorem modCore_rank (f : Core → Core) : (s.modCore n f).rank = s.rank := rfl
@[simp] theorem modCore_evaluated (f : Core → Core) : (s.modCore n f).evaluated = s.evaluated := rfl
@[simp] theorem modCore_relax (f : Core → Core) : (s.modCore n f).relax = s.relax := rfl
@[simp] theorem modCore_draws (f : Core → Core) : (s.modCore n f).draws = s.draws := rfl
@[simp] theorem modCore_turns (f : Core → Core) : (s.modCore n f).turns = s.turns := rfl
@[simp] theorem modCore_nturn (f : Core → Core) : (s.modCore n f).nturn = s.nturn := rfl
@[simp] theorem modCore_cur (f : Core → Core) : (s.modCore n f).cur = s.cur := rfl
@[simp] theorem modCore_curSeq (f : Core → Core) : (s.modCore n f).curSeq = s.curSeq := rfl
@[simp] theorem modCore_nextId (f : Core → Core) : (s.modCore n f).nextId = s.nextId := rfl

/-! `modMe`. -/

@[simp] theorem modMe_mem (f : Core → Core) : (s.modMe f).mem = s.mem := rfl
@[simp] theorem modMe_poison (f : Core → Core) : (s.modMe f).poison = s.poison := rfl
@[simp] theorem modMe_pubs (f : Core → Core) : (s.modMe f).pubs = s.pubs := rfl
@[simp] theorem modMe_npub (f : Core → Core) : (s.modMe f).npub = s.npub := rfl
@[simp] theorem modMe_dies (f : Core → Core) : (s.modMe f).dies = s.dies := rfl
@[simp] theorem modMe_cmds (f : Core → Core) : (s.modMe f).cmds = s.cmds := rfl
@[simp] theorem modMe_tasks (f : Core → Core) : (s.modMe f).tasks = s.tasks := rfl
@[simp] theorem modMe_chans (f : Core → Core) : (s.modMe f).chans = s.chans := rfl
@[simp] theorem modMe_ports (f : Core → Core) : (s.modMe f).ports = s.ports := rfl
@[simp] theorem modMe_tlb (f : Core → Core) : (s.modMe f).tlb = s.tlb := rfl
@[simp] theorem modMe_ats (f : Core → Core) : (s.modMe f).ats = s.ats := rfl
@[simp] theorem modMe_atsReqs (f : Core → Core) : (s.modMe f).atsReqs = s.atsReqs := rfl
@[simp] theorem modMe_drops (f : Core → Core) : (s.modMe f).drops = s.drops := rfl
@[simp] theorem modMe_ops (f : Core → Core) : (s.modMe f).ops = s.ops := rfl
@[simp] theorem modMe_qpolls (f : Core → Core) : (s.modMe f).qpolls = s.qpolls := rfl
@[simp] theorem modMe_pcie (f : Core → Core) : (s.modMe f).pcie = s.pcie := rfl
@[simp] theorem modMe_hostQ (f : Core → Core) : (s.modMe f).hostQ = s.hostQ := rfl
@[simp] theorem modMe_hostMem (f : Core → Core) : (s.modMe f).hostMem = s.hostMem := rfl
@[simp] theorem modMe_hostDirty (f : Core → Core) : (s.modMe f).hostDirty = s.hostDirty := rfl
@[simp] theorem modMe_posted (f : Core → Core) : (s.modMe f).posted = s.posted := rfl
@[simp] theorem modMe_atsInv (f : Core → Core) : (s.modMe f).atsInv = s.atsInv := rfl
@[simp] theorem modMe_moves (f : Core → Core) : (s.modMe f).moves = s.moves := rfl
@[simp] theorem modMe_clock (f : Core → Core) : (s.modMe f).clock = s.clock := rfl
@[simp] theorem modMe_start (f : Core → Core) : (s.modMe f).start = s.start := rfl
@[simp] theorem modMe_rank (f : Core → Core) : (s.modMe f).rank = s.rank := rfl
@[simp] theorem modMe_evaluated (f : Core → Core) : (s.modMe f).evaluated = s.evaluated := rfl
@[simp] theorem modMe_relax (f : Core → Core) : (s.modMe f).relax = s.relax := rfl
@[simp] theorem modMe_draws (f : Core → Core) : (s.modMe f).draws = s.draws := rfl
@[simp] theorem modMe_turns (f : Core → Core) : (s.modMe f).turns = s.turns := rfl
@[simp] theorem modMe_nturn (f : Core → Core) : (s.modMe f).nturn = s.nturn := rfl
@[simp] theorem modMe_cur (f : Core → Core) : (s.modMe f).cur = s.cur := rfl
@[simp] theorem modMe_curSeq (f : Core → Core) : (s.modMe f).curSeq = s.curSeq := rfl
@[simp] theorem modMe_nextId (f : Core → Core) : (s.modMe f).nextId = s.nextId := rfl

/-! `modSeq`. -/

@[simp] theorem modSeq_mem (f : Seq → Seq) : (s.modSeq n q f).mem = s.mem := rfl
@[simp] theorem modSeq_poison (f : Seq → Seq) : (s.modSeq n q f).poison = s.poison := rfl
@[simp] theorem modSeq_pubs (f : Seq → Seq) : (s.modSeq n q f).pubs = s.pubs := rfl
@[simp] theorem modSeq_npub (f : Seq → Seq) : (s.modSeq n q f).npub = s.npub := rfl
@[simp] theorem modSeq_dies (f : Seq → Seq) : (s.modSeq n q f).dies = s.dies := rfl
@[simp] theorem modSeq_cmds (f : Seq → Seq) : (s.modSeq n q f).cmds = s.cmds := rfl
@[simp] theorem modSeq_tasks (f : Seq → Seq) : (s.modSeq n q f).tasks = s.tasks := rfl
@[simp] theorem modSeq_chans (f : Seq → Seq) : (s.modSeq n q f).chans = s.chans := rfl
@[simp] theorem modSeq_ports (f : Seq → Seq) : (s.modSeq n q f).ports = s.ports := rfl
@[simp] theorem modSeq_tlb (f : Seq → Seq) : (s.modSeq n q f).tlb = s.tlb := rfl
@[simp] theorem modSeq_ats (f : Seq → Seq) : (s.modSeq n q f).ats = s.ats := rfl
@[simp] theorem modSeq_atsReqs (f : Seq → Seq) : (s.modSeq n q f).atsReqs = s.atsReqs := rfl
@[simp] theorem modSeq_drops (f : Seq → Seq) : (s.modSeq n q f).drops = s.drops := rfl
@[simp] theorem modSeq_ops (f : Seq → Seq) : (s.modSeq n q f).ops = s.ops := rfl
@[simp] theorem modSeq_qpolls (f : Seq → Seq) : (s.modSeq n q f).qpolls = s.qpolls := rfl
@[simp] theorem modSeq_pcie (f : Seq → Seq) : (s.modSeq n q f).pcie = s.pcie := rfl
@[simp] theorem modSeq_hostQ (f : Seq → Seq) : (s.modSeq n q f).hostQ = s.hostQ := rfl
@[simp] theorem modSeq_hostMem (f : Seq → Seq) : (s.modSeq n q f).hostMem = s.hostMem := rfl
@[simp] theorem modSeq_hostDirty (f : Seq → Seq) : (s.modSeq n q f).hostDirty = s.hostDirty := rfl
@[simp] theorem modSeq_posted (f : Seq → Seq) : (s.modSeq n q f).posted = s.posted := rfl
@[simp] theorem modSeq_atsInv (f : Seq → Seq) : (s.modSeq n q f).atsInv = s.atsInv := rfl
@[simp] theorem modSeq_moves (f : Seq → Seq) : (s.modSeq n q f).moves = s.moves := rfl
@[simp] theorem modSeq_clock (f : Seq → Seq) : (s.modSeq n q f).clock = s.clock := rfl
@[simp] theorem modSeq_start (f : Seq → Seq) : (s.modSeq n q f).start = s.start := rfl
@[simp] theorem modSeq_rank (f : Seq → Seq) : (s.modSeq n q f).rank = s.rank := rfl
@[simp] theorem modSeq_evaluated (f : Seq → Seq) : (s.modSeq n q f).evaluated = s.evaluated := rfl
@[simp] theorem modSeq_relax (f : Seq → Seq) : (s.modSeq n q f).relax = s.relax := rfl
@[simp] theorem modSeq_draws (f : Seq → Seq) : (s.modSeq n q f).draws = s.draws := rfl
@[simp] theorem modSeq_turns (f : Seq → Seq) : (s.modSeq n q f).turns = s.turns := rfl
@[simp] theorem modSeq_nturn (f : Seq → Seq) : (s.modSeq n q f).nturn = s.nturn := rfl
@[simp] theorem modSeq_cur (f : Seq → Seq) : (s.modSeq n q f).cur = s.cur := rfl
@[simp] theorem modSeq_curSeq (f : Seq → Seq) : (s.modSeq n q f).curSeq = s.curSeq := rfl
@[simp] theorem modSeq_nextId (f : Seq → Seq) : (s.modSeq n q f).nextId = s.nextId := rfl

/-! `modMySeq`. -/

@[simp] theorem modMySeq_mem (f : Seq → Seq) : (s.modMySeq f).mem = s.mem := rfl
@[simp] theorem modMySeq_poison (f : Seq → Seq) : (s.modMySeq f).poison = s.poison := rfl
@[simp] theorem modMySeq_pubs (f : Seq → Seq) : (s.modMySeq f).pubs = s.pubs := rfl
@[simp] theorem modMySeq_npub (f : Seq → Seq) : (s.modMySeq f).npub = s.npub := rfl
@[simp] theorem modMySeq_dies (f : Seq → Seq) : (s.modMySeq f).dies = s.dies := rfl
@[simp] theorem modMySeq_cmds (f : Seq → Seq) : (s.modMySeq f).cmds = s.cmds := rfl
@[simp] theorem modMySeq_tasks (f : Seq → Seq) : (s.modMySeq f).tasks = s.tasks := rfl
@[simp] theorem modMySeq_chans (f : Seq → Seq) : (s.modMySeq f).chans = s.chans := rfl
@[simp] theorem modMySeq_ports (f : Seq → Seq) : (s.modMySeq f).ports = s.ports := rfl
@[simp] theorem modMySeq_tlb (f : Seq → Seq) : (s.modMySeq f).tlb = s.tlb := rfl
@[simp] theorem modMySeq_ats (f : Seq → Seq) : (s.modMySeq f).ats = s.ats := rfl
@[simp] theorem modMySeq_atsReqs (f : Seq → Seq) : (s.modMySeq f).atsReqs = s.atsReqs := rfl
@[simp] theorem modMySeq_drops (f : Seq → Seq) : (s.modMySeq f).drops = s.drops := rfl
@[simp] theorem modMySeq_ops (f : Seq → Seq) : (s.modMySeq f).ops = s.ops := rfl
@[simp] theorem modMySeq_qpolls (f : Seq → Seq) : (s.modMySeq f).qpolls = s.qpolls := rfl
@[simp] theorem modMySeq_pcie (f : Seq → Seq) : (s.modMySeq f).pcie = s.pcie := rfl
@[simp] theorem modMySeq_hostQ (f : Seq → Seq) : (s.modMySeq f).hostQ = s.hostQ := rfl
@[simp] theorem modMySeq_hostMem (f : Seq → Seq) : (s.modMySeq f).hostMem = s.hostMem := rfl
@[simp] theorem modMySeq_hostDirty (f : Seq → Seq) : (s.modMySeq f).hostDirty = s.hostDirty := rfl
@[simp] theorem modMySeq_posted (f : Seq → Seq) : (s.modMySeq f).posted = s.posted := rfl
@[simp] theorem modMySeq_atsInv (f : Seq → Seq) : (s.modMySeq f).atsInv = s.atsInv := rfl
@[simp] theorem modMySeq_moves (f : Seq → Seq) : (s.modMySeq f).moves = s.moves := rfl
@[simp] theorem modMySeq_clock (f : Seq → Seq) : (s.modMySeq f).clock = s.clock := rfl
@[simp] theorem modMySeq_start (f : Seq → Seq) : (s.modMySeq f).start = s.start := rfl
@[simp] theorem modMySeq_rank (f : Seq → Seq) : (s.modMySeq f).rank = s.rank := rfl
@[simp] theorem modMySeq_evaluated (f : Seq → Seq) : (s.modMySeq f).evaluated = s.evaluated := rfl
@[simp] theorem modMySeq_relax (f : Seq → Seq) : (s.modMySeq f).relax = s.relax := rfl
@[simp] theorem modMySeq_draws (f : Seq → Seq) : (s.modMySeq f).draws = s.draws := rfl
@[simp] theorem modMySeq_turns (f : Seq → Seq) : (s.modMySeq f).turns = s.turns := rfl
@[simp] theorem modMySeq_nturn (f : Seq → Seq) : (s.modMySeq f).nturn = s.nturn := rfl
@[simp] theorem modMySeq_cur (f : Seq → Seq) : (s.modMySeq f).cur = s.cur := rfl
@[simp] theorem modMySeq_curSeq (f : Seq → Seq) : (s.modMySeq f).curSeq = s.curSeq := rfl
@[simp] theorem modMySeq_nextId (f : Seq → Seq) : (s.modMySeq f).nextId = s.nextId := rfl

/-! `setG`. -/

@[simp] theorem setG_mem (v : Word) : (s.setG n v).mem = s.mem := rfl
@[simp] theorem setG_poison (v : Word) : (s.setG n v).poison = s.poison := rfl
@[simp] theorem setG_pubs (v : Word) : (s.setG n v).pubs = s.pubs := rfl
@[simp] theorem setG_npub (v : Word) : (s.setG n v).npub = s.npub := rfl
@[simp] theorem setG_dies (v : Word) : (s.setG n v).dies = s.dies := rfl
@[simp] theorem setG_cmds (v : Word) : (s.setG n v).cmds = s.cmds := rfl
@[simp] theorem setG_tasks (v : Word) : (s.setG n v).tasks = s.tasks := rfl
@[simp] theorem setG_chans (v : Word) : (s.setG n v).chans = s.chans := rfl
@[simp] theorem setG_ports (v : Word) : (s.setG n v).ports = s.ports := rfl
@[simp] theorem setG_tlb (v : Word) : (s.setG n v).tlb = s.tlb := rfl
@[simp] theorem setG_ats (v : Word) : (s.setG n v).ats = s.ats := rfl
@[simp] theorem setG_atsReqs (v : Word) : (s.setG n v).atsReqs = s.atsReqs := rfl
@[simp] theorem setG_drops (v : Word) : (s.setG n v).drops = s.drops := rfl
@[simp] theorem setG_ops (v : Word) : (s.setG n v).ops = s.ops := rfl
@[simp] theorem setG_qpolls (v : Word) : (s.setG n v).qpolls = s.qpolls := rfl
@[simp] theorem setG_pcie (v : Word) : (s.setG n v).pcie = s.pcie := rfl
@[simp] theorem setG_hostQ (v : Word) : (s.setG n v).hostQ = s.hostQ := rfl
@[simp] theorem setG_hostMem (v : Word) : (s.setG n v).hostMem = s.hostMem := rfl
@[simp] theorem setG_hostDirty (v : Word) : (s.setG n v).hostDirty = s.hostDirty := rfl
@[simp] theorem setG_posted (v : Word) : (s.setG n v).posted = s.posted := rfl
@[simp] theorem setG_atsInv (v : Word) : (s.setG n v).atsInv = s.atsInv := rfl
@[simp] theorem setG_moves (v : Word) : (s.setG n v).moves = s.moves := rfl
@[simp] theorem setG_clock (v : Word) : (s.setG n v).clock = s.clock := rfl
@[simp] theorem setG_start (v : Word) : (s.setG n v).start = s.start := rfl
@[simp] theorem setG_rank (v : Word) : (s.setG n v).rank = s.rank := rfl
@[simp] theorem setG_evaluated (v : Word) : (s.setG n v).evaluated = s.evaluated := rfl
@[simp] theorem setG_relax (v : Word) : (s.setG n v).relax = s.relax := rfl
@[simp] theorem setG_draws (v : Word) : (s.setG n v).draws = s.draws := rfl
@[simp] theorem setG_turns (v : Word) : (s.setG n v).turns = s.turns := rfl
@[simp] theorem setG_nturn (v : Word) : (s.setG n v).nturn = s.nturn := rfl
@[simp] theorem setG_cur (v : Word) : (s.setG n v).cur = s.cur := rfl
@[simp] theorem setG_curSeq (v : Word) : (s.setG n v).curSeq = s.curSeq := rfl
@[simp] theorem setG_nextId (v : Word) : (s.setG n v).nextId = s.nextId := rfl

/-! `setPair`. -/

@[simp] theorem setPair_mem (v : DWord) : (s.setPair n v).mem = s.mem := rfl
@[simp] theorem setPair_poison (v : DWord) : (s.setPair n v).poison = s.poison := rfl
@[simp] theorem setPair_pubs (v : DWord) : (s.setPair n v).pubs = s.pubs := rfl
@[simp] theorem setPair_npub (v : DWord) : (s.setPair n v).npub = s.npub := rfl
@[simp] theorem setPair_dies (v : DWord) : (s.setPair n v).dies = s.dies := rfl
@[simp] theorem setPair_cmds (v : DWord) : (s.setPair n v).cmds = s.cmds := rfl
@[simp] theorem setPair_tasks (v : DWord) : (s.setPair n v).tasks = s.tasks := rfl
@[simp] theorem setPair_chans (v : DWord) : (s.setPair n v).chans = s.chans := rfl
@[simp] theorem setPair_ports (v : DWord) : (s.setPair n v).ports = s.ports := rfl
@[simp] theorem setPair_tlb (v : DWord) : (s.setPair n v).tlb = s.tlb := rfl
@[simp] theorem setPair_ats (v : DWord) : (s.setPair n v).ats = s.ats := rfl
@[simp] theorem setPair_atsReqs (v : DWord) : (s.setPair n v).atsReqs = s.atsReqs := rfl
@[simp] theorem setPair_drops (v : DWord) : (s.setPair n v).drops = s.drops := rfl
@[simp] theorem setPair_ops (v : DWord) : (s.setPair n v).ops = s.ops := rfl
@[simp] theorem setPair_qpolls (v : DWord) : (s.setPair n v).qpolls = s.qpolls := rfl
@[simp] theorem setPair_pcie (v : DWord) : (s.setPair n v).pcie = s.pcie := rfl
@[simp] theorem setPair_hostQ (v : DWord) : (s.setPair n v).hostQ = s.hostQ := rfl
@[simp] theorem setPair_hostMem (v : DWord) : (s.setPair n v).hostMem = s.hostMem := rfl
@[simp] theorem setPair_hostDirty (v : DWord) : (s.setPair n v).hostDirty = s.hostDirty := rfl
@[simp] theorem setPair_posted (v : DWord) : (s.setPair n v).posted = s.posted := rfl
@[simp] theorem setPair_atsInv (v : DWord) : (s.setPair n v).atsInv = s.atsInv := rfl
@[simp] theorem setPair_moves (v : DWord) : (s.setPair n v).moves = s.moves := rfl
@[simp] theorem setPair_clock (v : DWord) : (s.setPair n v).clock = s.clock := rfl
@[simp] theorem setPair_start (v : DWord) : (s.setPair n v).start = s.start := rfl
@[simp] theorem setPair_rank (v : DWord) : (s.setPair n v).rank = s.rank := rfl
@[simp] theorem setPair_evaluated (v : DWord) : (s.setPair n v).evaluated = s.evaluated := rfl
@[simp] theorem setPair_relax (v : DWord) : (s.setPair n v).relax = s.relax := rfl
@[simp] theorem setPair_draws (v : DWord) : (s.setPair n v).draws = s.draws := rfl
@[simp] theorem setPair_turns (v : DWord) : (s.setPair n v).turns = s.turns := rfl
@[simp] theorem setPair_nturn (v : DWord) : (s.setPair n v).nturn = s.nturn := rfl
@[simp] theorem setPair_cur (v : DWord) : (s.setPair n v).cur = s.cur := rfl
@[simp] theorem setPair_curSeq (v : DWord) : (s.setPair n v).curSeq = s.curSeq := rfl
@[simp] theorem setPair_nextId (v : DWord) : (s.setPair n v).nextId = s.nextId := rfl

/-! `setDie`. -/

@[simp] theorem setDie_mem (d : Die) : (s.setDie n d).mem = s.mem := rfl
@[simp] theorem setDie_poison (d : Die) : (s.setDie n d).poison = s.poison := rfl
@[simp] theorem setDie_pubs (d : Die) : (s.setDie n d).pubs = s.pubs := rfl
@[simp] theorem setDie_npub (d : Die) : (s.setDie n d).npub = s.npub := rfl
@[simp] theorem setDie_cores (d : Die) : (s.setDie n d).cores = s.cores := rfl
@[simp] theorem setDie_cmds (d : Die) : (s.setDie n d).cmds = s.cmds := rfl
@[simp] theorem setDie_tasks (d : Die) : (s.setDie n d).tasks = s.tasks := rfl
@[simp] theorem setDie_chans (d : Die) : (s.setDie n d).chans = s.chans := rfl
@[simp] theorem setDie_ports (d : Die) : (s.setDie n d).ports = s.ports := rfl
@[simp] theorem setDie_tlb (d : Die) : (s.setDie n d).tlb = s.tlb := rfl
@[simp] theorem setDie_ats (d : Die) : (s.setDie n d).ats = s.ats := rfl
@[simp] theorem setDie_atsReqs (d : Die) : (s.setDie n d).atsReqs = s.atsReqs := rfl
@[simp] theorem setDie_drops (d : Die) : (s.setDie n d).drops = s.drops := rfl
@[simp] theorem setDie_ops (d : Die) : (s.setDie n d).ops = s.ops := rfl
@[simp] theorem setDie_qpolls (d : Die) : (s.setDie n d).qpolls = s.qpolls := rfl
@[simp] theorem setDie_pcie (d : Die) : (s.setDie n d).pcie = s.pcie := rfl
@[simp] theorem setDie_hostQ (d : Die) : (s.setDie n d).hostQ = s.hostQ := rfl
@[simp] theorem setDie_hostMem (d : Die) : (s.setDie n d).hostMem = s.hostMem := rfl
@[simp] theorem setDie_hostDirty (d : Die) : (s.setDie n d).hostDirty = s.hostDirty := rfl
@[simp] theorem setDie_posted (d : Die) : (s.setDie n d).posted = s.posted := rfl
@[simp] theorem setDie_atsInv (d : Die) : (s.setDie n d).atsInv = s.atsInv := rfl
@[simp] theorem setDie_moves (d : Die) : (s.setDie n d).moves = s.moves := rfl
@[simp] theorem setDie_clock (d : Die) : (s.setDie n d).clock = s.clock := rfl
@[simp] theorem setDie_start (d : Die) : (s.setDie n d).start = s.start := rfl
@[simp] theorem setDie_rank (d : Die) : (s.setDie n d).rank = s.rank := rfl
@[simp] theorem setDie_evaluated (d : Die) : (s.setDie n d).evaluated = s.evaluated := rfl
@[simp] theorem setDie_relax (d : Die) : (s.setDie n d).relax = s.relax := rfl
@[simp] theorem setDie_draws (d : Die) : (s.setDie n d).draws = s.draws := rfl
@[simp] theorem setDie_turns (d : Die) : (s.setDie n d).turns = s.turns := rfl
@[simp] theorem setDie_nturn (d : Die) : (s.setDie n d).nturn = s.nturn := rfl
@[simp] theorem setDie_cur (d : Die) : (s.setDie n d).cur = s.cur := rfl
@[simp] theorem setDie_curSeq (d : Die) : (s.setDie n d).curSeq = s.curSeq := rfl
@[simp] theorem setDie_nextId (d : Die) : (s.setDie n d).nextId = s.nextId := rfl

/-! `modDie`. -/

@[simp] theorem modDie_mem (f : Die → Die) : (s.modDie n f).mem = s.mem := rfl
@[simp] theorem modDie_poison (f : Die → Die) : (s.modDie n f).poison = s.poison := rfl
@[simp] theorem modDie_pubs (f : Die → Die) : (s.modDie n f).pubs = s.pubs := rfl
@[simp] theorem modDie_npub (f : Die → Die) : (s.modDie n f).npub = s.npub := rfl
@[simp] theorem modDie_cores (f : Die → Die) : (s.modDie n f).cores = s.cores := rfl
@[simp] theorem modDie_cmds (f : Die → Die) : (s.modDie n f).cmds = s.cmds := rfl
@[simp] theorem modDie_tasks (f : Die → Die) : (s.modDie n f).tasks = s.tasks := rfl
@[simp] theorem modDie_chans (f : Die → Die) : (s.modDie n f).chans = s.chans := rfl
@[simp] theorem modDie_ports (f : Die → Die) : (s.modDie n f).ports = s.ports := rfl
@[simp] theorem modDie_tlb (f : Die → Die) : (s.modDie n f).tlb = s.tlb := rfl
@[simp] theorem modDie_ats (f : Die → Die) : (s.modDie n f).ats = s.ats := rfl
@[simp] theorem modDie_atsReqs (f : Die → Die) : (s.modDie n f).atsReqs = s.atsReqs := rfl
@[simp] theorem modDie_drops (f : Die → Die) : (s.modDie n f).drops = s.drops := rfl
@[simp] theorem modDie_ops (f : Die → Die) : (s.modDie n f).ops = s.ops := rfl
@[simp] theorem modDie_qpolls (f : Die → Die) : (s.modDie n f).qpolls = s.qpolls := rfl
@[simp] theorem modDie_pcie (f : Die → Die) : (s.modDie n f).pcie = s.pcie := rfl
@[simp] theorem modDie_hostQ (f : Die → Die) : (s.modDie n f).hostQ = s.hostQ := rfl
@[simp] theorem modDie_hostMem (f : Die → Die) : (s.modDie n f).hostMem = s.hostMem := rfl
@[simp] theorem modDie_hostDirty (f : Die → Die) : (s.modDie n f).hostDirty = s.hostDirty := rfl
@[simp] theorem modDie_posted (f : Die → Die) : (s.modDie n f).posted = s.posted := rfl
@[simp] theorem modDie_atsInv (f : Die → Die) : (s.modDie n f).atsInv = s.atsInv := rfl
@[simp] theorem modDie_moves (f : Die → Die) : (s.modDie n f).moves = s.moves := rfl
@[simp] theorem modDie_clock (f : Die → Die) : (s.modDie n f).clock = s.clock := rfl
@[simp] theorem modDie_start (f : Die → Die) : (s.modDie n f).start = s.start := rfl
@[simp] theorem modDie_rank (f : Die → Die) : (s.modDie n f).rank = s.rank := rfl
@[simp] theorem modDie_evaluated (f : Die → Die) : (s.modDie n f).evaluated = s.evaluated := rfl
@[simp] theorem modDie_relax (f : Die → Die) : (s.modDie n f).relax = s.relax := rfl
@[simp] theorem modDie_draws (f : Die → Die) : (s.modDie n f).draws = s.draws := rfl
@[simp] theorem modDie_turns (f : Die → Die) : (s.modDie n f).turns = s.turns := rfl
@[simp] theorem modDie_nturn (f : Die → Die) : (s.modDie n f).nturn = s.nturn := rfl
@[simp] theorem modDie_cur (f : Die → Die) : (s.modDie n f).cur = s.cur := rfl
@[simp] theorem modDie_curSeq (f : Die → Die) : (s.modDie n f).curSeq = s.curSeq := rfl
@[simp] theorem modDie_nextId (f : Die → Die) : (s.modDie n f).nextId = s.nextId := rfl

/-! `setChan`. -/

@[simp] theorem setChan_mem (x : TChan) : (s.setChan n x).mem = s.mem := rfl
@[simp] theorem setChan_poison (x : TChan) : (s.setChan n x).poison = s.poison := rfl
@[simp] theorem setChan_pubs (x : TChan) : (s.setChan n x).pubs = s.pubs := rfl
@[simp] theorem setChan_npub (x : TChan) : (s.setChan n x).npub = s.npub := rfl
@[simp] theorem setChan_cores (x : TChan) : (s.setChan n x).cores = s.cores := rfl
@[simp] theorem setChan_dies (x : TChan) : (s.setChan n x).dies = s.dies := rfl
@[simp] theorem setChan_cmds (x : TChan) : (s.setChan n x).cmds = s.cmds := rfl
@[simp] theorem setChan_tasks (x : TChan) : (s.setChan n x).tasks = s.tasks := rfl
@[simp] theorem setChan_ports (x : TChan) : (s.setChan n x).ports = s.ports := rfl
@[simp] theorem setChan_tlb (x : TChan) : (s.setChan n x).tlb = s.tlb := rfl
@[simp] theorem setChan_ats (x : TChan) : (s.setChan n x).ats = s.ats := rfl
@[simp] theorem setChan_atsReqs (x : TChan) : (s.setChan n x).atsReqs = s.atsReqs := rfl
@[simp] theorem setChan_drops (x : TChan) : (s.setChan n x).drops = s.drops := rfl
@[simp] theorem setChan_ops (x : TChan) : (s.setChan n x).ops = s.ops := rfl
@[simp] theorem setChan_qpolls (x : TChan) : (s.setChan n x).qpolls = s.qpolls := rfl
@[simp] theorem setChan_pcie (x : TChan) : (s.setChan n x).pcie = s.pcie := rfl
@[simp] theorem setChan_hostQ (x : TChan) : (s.setChan n x).hostQ = s.hostQ := rfl
@[simp] theorem setChan_hostMem (x : TChan) : (s.setChan n x).hostMem = s.hostMem := rfl
@[simp] theorem setChan_hostDirty (x : TChan) : (s.setChan n x).hostDirty = s.hostDirty := rfl
@[simp] theorem setChan_posted (x : TChan) : (s.setChan n x).posted = s.posted := rfl
@[simp] theorem setChan_atsInv (x : TChan) : (s.setChan n x).atsInv = s.atsInv := rfl
@[simp] theorem setChan_moves (x : TChan) : (s.setChan n x).moves = s.moves := rfl
@[simp] theorem setChan_clock (x : TChan) : (s.setChan n x).clock = s.clock := rfl
@[simp] theorem setChan_start (x : TChan) : (s.setChan n x).start = s.start := rfl
@[simp] theorem setChan_rank (x : TChan) : (s.setChan n x).rank = s.rank := rfl
@[simp] theorem setChan_evaluated (x : TChan) : (s.setChan n x).evaluated = s.evaluated := rfl
@[simp] theorem setChan_relax (x : TChan) : (s.setChan n x).relax = s.relax := rfl
@[simp] theorem setChan_draws (x : TChan) : (s.setChan n x).draws = s.draws := rfl
@[simp] theorem setChan_turns (x : TChan) : (s.setChan n x).turns = s.turns := rfl
@[simp] theorem setChan_nturn (x : TChan) : (s.setChan n x).nturn = s.nturn := rfl
@[simp] theorem setChan_cur (x : TChan) : (s.setChan n x).cur = s.cur := rfl
@[simp] theorem setChan_curSeq (x : TChan) : (s.setChan n x).curSeq = s.curSeq := rfl
@[simp] theorem setChan_nextId (x : TChan) : (s.setChan n x).nextId = s.nextId := rfl

/-! `setPort`. -/

@[simp] theorem setPort_mem (x : Port) : (s.setPort n x).mem = s.mem := rfl
@[simp] theorem setPort_poison (x : Port) : (s.setPort n x).poison = s.poison := rfl
@[simp] theorem setPort_pubs (x : Port) : (s.setPort n x).pubs = s.pubs := rfl
@[simp] theorem setPort_npub (x : Port) : (s.setPort n x).npub = s.npub := rfl
@[simp] theorem setPort_cores (x : Port) : (s.setPort n x).cores = s.cores := rfl
@[simp] theorem setPort_dies (x : Port) : (s.setPort n x).dies = s.dies := rfl
@[simp] theorem setPort_cmds (x : Port) : (s.setPort n x).cmds = s.cmds := rfl
@[simp] theorem setPort_tasks (x : Port) : (s.setPort n x).tasks = s.tasks := rfl
@[simp] theorem setPort_chans (x : Port) : (s.setPort n x).chans = s.chans := rfl
@[simp] theorem setPort_tlb (x : Port) : (s.setPort n x).tlb = s.tlb := rfl
@[simp] theorem setPort_ats (x : Port) : (s.setPort n x).ats = s.ats := rfl
@[simp] theorem setPort_atsReqs (x : Port) : (s.setPort n x).atsReqs = s.atsReqs := rfl
@[simp] theorem setPort_drops (x : Port) : (s.setPort n x).drops = s.drops := rfl
@[simp] theorem setPort_ops (x : Port) : (s.setPort n x).ops = s.ops := rfl
@[simp] theorem setPort_qpolls (x : Port) : (s.setPort n x).qpolls = s.qpolls := rfl
@[simp] theorem setPort_pcie (x : Port) : (s.setPort n x).pcie = s.pcie := rfl
@[simp] theorem setPort_hostQ (x : Port) : (s.setPort n x).hostQ = s.hostQ := rfl
@[simp] theorem setPort_hostMem (x : Port) : (s.setPort n x).hostMem = s.hostMem := rfl
@[simp] theorem setPort_hostDirty (x : Port) : (s.setPort n x).hostDirty = s.hostDirty := rfl
@[simp] theorem setPort_posted (x : Port) : (s.setPort n x).posted = s.posted := rfl
@[simp] theorem setPort_atsInv (x : Port) : (s.setPort n x).atsInv = s.atsInv := rfl
@[simp] theorem setPort_moves (x : Port) : (s.setPort n x).moves = s.moves := rfl
@[simp] theorem setPort_clock (x : Port) : (s.setPort n x).clock = s.clock := rfl
@[simp] theorem setPort_start (x : Port) : (s.setPort n x).start = s.start := rfl
@[simp] theorem setPort_rank (x : Port) : (s.setPort n x).rank = s.rank := rfl
@[simp] theorem setPort_evaluated (x : Port) : (s.setPort n x).evaluated = s.evaluated := rfl
@[simp] theorem setPort_relax (x : Port) : (s.setPort n x).relax = s.relax := rfl
@[simp] theorem setPort_draws (x : Port) : (s.setPort n x).draws = s.draws := rfl
@[simp] theorem setPort_turns (x : Port) : (s.setPort n x).turns = s.turns := rfl
@[simp] theorem setPort_nturn (x : Port) : (s.setPort n x).nturn = s.nturn := rfl
@[simp] theorem setPort_cur (x : Port) : (s.setPort n x).cur = s.cur := rfl
@[simp] theorem setPort_curSeq (x : Port) : (s.setPort n x).curSeq = s.curSeq := rfl
@[simp] theorem setPort_nextId (x : Port) : (s.setPort n x).nextId = s.nextId := rfl

/-! `modStage`. -/

@[simp] theorem modStage_mem (d : Nat) (f : StageSlot → StageSlot) : (s.modStage d n f).mem = s.mem := rfl
@[simp] theorem modStage_poison (d : Nat) (f : StageSlot → StageSlot) : (s.modStage d n f).poison = s.poison := rfl
@[simp] theorem modStage_pubs (d : Nat) (f : StageSlot → StageSlot) : (s.modStage d n f).pubs = s.pubs := rfl
@[simp] theorem modStage_npub (d : Nat) (f : StageSlot → StageSlot) : (s.modStage d n f).npub = s.npub := rfl
@[simp] theorem modStage_cores (d : Nat) (f : StageSlot → StageSlot) : (s.modStage d n f).cores = s.cores := rfl
@[simp] theorem modStage_cmds (d : Nat) (f : StageSlot → StageSlot) : (s.modStage d n f).cmds = s.cmds := rfl
@[simp] theorem modStage_tasks (d : Nat) (f : StageSlot → StageSlot) : (s.modStage d n f).tasks = s.tasks := rfl
@[simp] theorem modStage_chans (d : Nat) (f : StageSlot → StageSlot) : (s.modStage d n f).chans = s.chans := rfl
@[simp] theorem modStage_ports (d : Nat) (f : StageSlot → StageSlot) : (s.modStage d n f).ports = s.ports := rfl
@[simp] theorem modStage_tlb (d : Nat) (f : StageSlot → StageSlot) : (s.modStage d n f).tlb = s.tlb := rfl
@[simp] theorem modStage_ats (d : Nat) (f : StageSlot → StageSlot) : (s.modStage d n f).ats = s.ats := rfl
@[simp] theorem modStage_atsReqs (d : Nat) (f : StageSlot → StageSlot) : (s.modStage d n f).atsReqs = s.atsReqs := rfl
@[simp] theorem modStage_drops (d : Nat) (f : StageSlot → StageSlot) : (s.modStage d n f).drops = s.drops := rfl
@[simp] theorem modStage_ops (d : Nat) (f : StageSlot → StageSlot) : (s.modStage d n f).ops = s.ops := rfl
@[simp] theorem modStage_qpolls (d : Nat) (f : StageSlot → StageSlot) : (s.modStage d n f).qpolls = s.qpolls := rfl
@[simp] theorem modStage_pcie (d : Nat) (f : StageSlot → StageSlot) : (s.modStage d n f).pcie = s.pcie := rfl
@[simp] theorem modStage_hostQ (d : Nat) (f : StageSlot → StageSlot) : (s.modStage d n f).hostQ = s.hostQ := rfl
@[simp] theorem modStage_hostMem (d : Nat) (f : StageSlot → StageSlot) : (s.modStage d n f).hostMem = s.hostMem := rfl
@[simp] theorem modStage_hostDirty (d : Nat) (f : StageSlot → StageSlot) : (s.modStage d n f).hostDirty = s.hostDirty := rfl
@[simp] theorem modStage_posted (d : Nat) (f : StageSlot → StageSlot) : (s.modStage d n f).posted = s.posted := rfl
@[simp] theorem modStage_atsInv (d : Nat) (f : StageSlot → StageSlot) : (s.modStage d n f).atsInv = s.atsInv := rfl
@[simp] theorem modStage_moves (d : Nat) (f : StageSlot → StageSlot) : (s.modStage d n f).moves = s.moves := rfl
@[simp] theorem modStage_clock (d : Nat) (f : StageSlot → StageSlot) : (s.modStage d n f).clock = s.clock := rfl
@[simp] theorem modStage_start (d : Nat) (f : StageSlot → StageSlot) : (s.modStage d n f).start = s.start := rfl
@[simp] theorem modStage_rank (d : Nat) (f : StageSlot → StageSlot) : (s.modStage d n f).rank = s.rank := rfl
@[simp] theorem modStage_evaluated (d : Nat) (f : StageSlot → StageSlot) : (s.modStage d n f).evaluated = s.evaluated := rfl
@[simp] theorem modStage_relax (d : Nat) (f : StageSlot → StageSlot) : (s.modStage d n f).relax = s.relax := rfl
@[simp] theorem modStage_draws (d : Nat) (f : StageSlot → StageSlot) : (s.modStage d n f).draws = s.draws := rfl
@[simp] theorem modStage_turns (d : Nat) (f : StageSlot → StageSlot) : (s.modStage d n f).turns = s.turns := rfl
@[simp] theorem modStage_nturn (d : Nat) (f : StageSlot → StageSlot) : (s.modStage d n f).nturn = s.nturn := rfl
@[simp] theorem modStage_cur (d : Nat) (f : StageSlot → StageSlot) : (s.modStage d n f).cur = s.cur := rfl
@[simp] theorem modStage_curSeq (d : Nat) (f : StageSlot → StageSlot) : (s.modStage d n f).curSeq = s.curSeq := rfl
@[simp] theorem modStage_nextId (d : Nat) (f : StageSlot → StageSlot) : (s.modStage d n f).nextId = s.nextId := rfl

/-! `modGroup`. -/

@[simp] theorem modGroup_mem (d : Nat) (f : Group → Group) : (s.modGroup d n f).mem = s.mem := rfl
@[simp] theorem modGroup_poison (d : Nat) (f : Group → Group) : (s.modGroup d n f).poison = s.poison := rfl
@[simp] theorem modGroup_pubs (d : Nat) (f : Group → Group) : (s.modGroup d n f).pubs = s.pubs := rfl
@[simp] theorem modGroup_npub (d : Nat) (f : Group → Group) : (s.modGroup d n f).npub = s.npub := rfl
@[simp] theorem modGroup_cores (d : Nat) (f : Group → Group) : (s.modGroup d n f).cores = s.cores := rfl
@[simp] theorem modGroup_cmds (d : Nat) (f : Group → Group) : (s.modGroup d n f).cmds = s.cmds := rfl
@[simp] theorem modGroup_tasks (d : Nat) (f : Group → Group) : (s.modGroup d n f).tasks = s.tasks := rfl
@[simp] theorem modGroup_chans (d : Nat) (f : Group → Group) : (s.modGroup d n f).chans = s.chans := rfl
@[simp] theorem modGroup_ports (d : Nat) (f : Group → Group) : (s.modGroup d n f).ports = s.ports := rfl
@[simp] theorem modGroup_tlb (d : Nat) (f : Group → Group) : (s.modGroup d n f).tlb = s.tlb := rfl
@[simp] theorem modGroup_ats (d : Nat) (f : Group → Group) : (s.modGroup d n f).ats = s.ats := rfl
@[simp] theorem modGroup_atsReqs (d : Nat) (f : Group → Group) : (s.modGroup d n f).atsReqs = s.atsReqs := rfl
@[simp] theorem modGroup_drops (d : Nat) (f : Group → Group) : (s.modGroup d n f).drops = s.drops := rfl
@[simp] theorem modGroup_ops (d : Nat) (f : Group → Group) : (s.modGroup d n f).ops = s.ops := rfl
@[simp] theorem modGroup_qpolls (d : Nat) (f : Group → Group) : (s.modGroup d n f).qpolls = s.qpolls := rfl
@[simp] theorem modGroup_pcie (d : Nat) (f : Group → Group) : (s.modGroup d n f).pcie = s.pcie := rfl
@[simp] theorem modGroup_hostQ (d : Nat) (f : Group → Group) : (s.modGroup d n f).hostQ = s.hostQ := rfl
@[simp] theorem modGroup_hostMem (d : Nat) (f : Group → Group) : (s.modGroup d n f).hostMem = s.hostMem := rfl
@[simp] theorem modGroup_hostDirty (d : Nat) (f : Group → Group) : (s.modGroup d n f).hostDirty = s.hostDirty := rfl
@[simp] theorem modGroup_posted (d : Nat) (f : Group → Group) : (s.modGroup d n f).posted = s.posted := rfl
@[simp] theorem modGroup_atsInv (d : Nat) (f : Group → Group) : (s.modGroup d n f).atsInv = s.atsInv := rfl
@[simp] theorem modGroup_moves (d : Nat) (f : Group → Group) : (s.modGroup d n f).moves = s.moves := rfl
@[simp] theorem modGroup_clock (d : Nat) (f : Group → Group) : (s.modGroup d n f).clock = s.clock := rfl
@[simp] theorem modGroup_start (d : Nat) (f : Group → Group) : (s.modGroup d n f).start = s.start := rfl
@[simp] theorem modGroup_rank (d : Nat) (f : Group → Group) : (s.modGroup d n f).rank = s.rank := rfl
@[simp] theorem modGroup_evaluated (d : Nat) (f : Group → Group) : (s.modGroup d n f).evaluated = s.evaluated := rfl
@[simp] theorem modGroup_relax (d : Nat) (f : Group → Group) : (s.modGroup d n f).relax = s.relax := rfl
@[simp] theorem modGroup_draws (d : Nat) (f : Group → Group) : (s.modGroup d n f).draws = s.draws := rfl
@[simp] theorem modGroup_turns (d : Nat) (f : Group → Group) : (s.modGroup d n f).turns = s.turns := rfl
@[simp] theorem modGroup_nturn (d : Nat) (f : Group → Group) : (s.modGroup d n f).nturn = s.nturn := rfl
@[simp] theorem modGroup_cur (d : Nat) (f : Group → Group) : (s.modGroup d n f).cur = s.cur := rfl
@[simp] theorem modGroup_curSeq (d : Nat) (f : Group → Group) : (s.modGroup d n f).curSeq = s.curSeq := rfl
@[simp] theorem modGroup_nextId (d : Nat) (f : Group → Group) : (s.modGroup d n f).nextId = s.nextId := rfl

/-! `wr`. -/

@[simp] theorem wr_poison (l : List Byte) : (s.wr n l).poison = s.poison := rfl
@[simp] theorem wr_pubs (l : List Byte) : (s.wr n l).pubs = s.pubs := rfl
@[simp] theorem wr_npub (l : List Byte) : (s.wr n l).npub = s.npub := rfl
@[simp] theorem wr_cores (l : List Byte) : (s.wr n l).cores = s.cores := rfl
@[simp] theorem wr_dies (l : List Byte) : (s.wr n l).dies = s.dies := rfl
@[simp] theorem wr_cmds (l : List Byte) : (s.wr n l).cmds = s.cmds := rfl
@[simp] theorem wr_tasks (l : List Byte) : (s.wr n l).tasks = s.tasks := rfl
@[simp] theorem wr_chans (l : List Byte) : (s.wr n l).chans = s.chans := rfl
@[simp] theorem wr_ports (l : List Byte) : (s.wr n l).ports = s.ports := rfl
@[simp] theorem wr_tlb (l : List Byte) : (s.wr n l).tlb = s.tlb := rfl
@[simp] theorem wr_ats (l : List Byte) : (s.wr n l).ats = s.ats := rfl
@[simp] theorem wr_atsReqs (l : List Byte) : (s.wr n l).atsReqs = s.atsReqs := rfl
@[simp] theorem wr_drops (l : List Byte) : (s.wr n l).drops = s.drops := rfl
@[simp] theorem wr_ops (l : List Byte) : (s.wr n l).ops = s.ops := rfl
@[simp] theorem wr_qpolls (l : List Byte) : (s.wr n l).qpolls = s.qpolls := rfl
@[simp] theorem wr_pcie (l : List Byte) : (s.wr n l).pcie = s.pcie := rfl
@[simp] theorem wr_hostQ (l : List Byte) : (s.wr n l).hostQ = s.hostQ := rfl
@[simp] theorem wr_hostMem (l : List Byte) : (s.wr n l).hostMem = s.hostMem := rfl
@[simp] theorem wr_posted (l : List Byte) : (s.wr n l).posted = s.posted := rfl
@[simp] theorem wr_atsInv (l : List Byte) : (s.wr n l).atsInv = s.atsInv := rfl
@[simp] theorem wr_moves (l : List Byte) : (s.wr n l).moves = s.moves := rfl
@[simp] theorem wr_clock (l : List Byte) : (s.wr n l).clock = s.clock := rfl
@[simp] theorem wr_start (l : List Byte) : (s.wr n l).start = s.start := rfl
@[simp] theorem wr_rank (l : List Byte) : (s.wr n l).rank = s.rank := rfl
@[simp] theorem wr_evaluated (l : List Byte) : (s.wr n l).evaluated = s.evaluated := rfl
@[simp] theorem wr_relax (l : List Byte) : (s.wr n l).relax = s.relax := rfl
@[simp] theorem wr_draws (l : List Byte) : (s.wr n l).draws = s.draws := rfl
@[simp] theorem wr_turns (l : List Byte) : (s.wr n l).turns = s.turns := rfl
@[simp] theorem wr_nturn (l : List Byte) : (s.wr n l).nturn = s.nturn := rfl
@[simp] theorem wr_cur (l : List Byte) : (s.wr n l).cur = s.cur := rfl
@[simp] theorem wr_curSeq (l : List Byte) : (s.wr n l).curSeq = s.curSeq := rfl
@[simp] theorem wr_nextId (l : List Byte) : (s.wr n l).nextId = s.nextId := rfl

/-! `orFlags`. -/

@[simp] theorem orFlags_mem (f : Flags) : (s.orFlags n q f).mem = s.mem := rfl
@[simp] theorem orFlags_poison (f : Flags) : (s.orFlags n q f).poison = s.poison := rfl
@[simp] theorem orFlags_pubs (f : Flags) : (s.orFlags n q f).pubs = s.pubs := rfl
@[simp] theorem orFlags_npub (f : Flags) : (s.orFlags n q f).npub = s.npub := rfl
@[simp] theorem orFlags_dies (f : Flags) : (s.orFlags n q f).dies = s.dies := rfl
@[simp] theorem orFlags_cmds (f : Flags) : (s.orFlags n q f).cmds = s.cmds := rfl
@[simp] theorem orFlags_tasks (f : Flags) : (s.orFlags n q f).tasks = s.tasks := rfl
@[simp] theorem orFlags_chans (f : Flags) : (s.orFlags n q f).chans = s.chans := rfl
@[simp] theorem orFlags_ports (f : Flags) : (s.orFlags n q f).ports = s.ports := rfl
@[simp] theorem orFlags_tlb (f : Flags) : (s.orFlags n q f).tlb = s.tlb := rfl
@[simp] theorem orFlags_ats (f : Flags) : (s.orFlags n q f).ats = s.ats := rfl
@[simp] theorem orFlags_atsReqs (f : Flags) : (s.orFlags n q f).atsReqs = s.atsReqs := rfl
@[simp] theorem orFlags_drops (f : Flags) : (s.orFlags n q f).drops = s.drops := rfl
@[simp] theorem orFlags_ops (f : Flags) : (s.orFlags n q f).ops = s.ops := rfl
@[simp] theorem orFlags_qpolls (f : Flags) : (s.orFlags n q f).qpolls = s.qpolls := rfl
@[simp] theorem orFlags_pcie (f : Flags) : (s.orFlags n q f).pcie = s.pcie := rfl
@[simp] theorem orFlags_hostQ (f : Flags) : (s.orFlags n q f).hostQ = s.hostQ := rfl
@[simp] theorem orFlags_hostMem (f : Flags) : (s.orFlags n q f).hostMem = s.hostMem := rfl
@[simp] theorem orFlags_hostDirty (f : Flags) : (s.orFlags n q f).hostDirty = s.hostDirty := rfl
@[simp] theorem orFlags_posted (f : Flags) : (s.orFlags n q f).posted = s.posted := rfl
@[simp] theorem orFlags_atsInv (f : Flags) : (s.orFlags n q f).atsInv = s.atsInv := rfl
@[simp] theorem orFlags_moves (f : Flags) : (s.orFlags n q f).moves = s.moves := rfl
@[simp] theorem orFlags_clock (f : Flags) : (s.orFlags n q f).clock = s.clock := rfl
@[simp] theorem orFlags_start (f : Flags) : (s.orFlags n q f).start = s.start := rfl
@[simp] theorem orFlags_rank (f : Flags) : (s.orFlags n q f).rank = s.rank := rfl
@[simp] theorem orFlags_evaluated (f : Flags) : (s.orFlags n q f).evaluated = s.evaluated := rfl
@[simp] theorem orFlags_relax (f : Flags) : (s.orFlags n q f).relax = s.relax := rfl
@[simp] theorem orFlags_draws (f : Flags) : (s.orFlags n q f).draws = s.draws := rfl
@[simp] theorem orFlags_turns (f : Flags) : (s.orFlags n q f).turns = s.turns := rfl
@[simp] theorem orFlags_nturn (f : Flags) : (s.orFlags n q f).nturn = s.nturn := rfl
@[simp] theorem orFlags_cur (f : Flags) : (s.orFlags n q f).cur = s.cur := rfl
@[simp] theorem orFlags_curSeq (f : Flags) : (s.orFlags n q f).curSeq = s.curSeq := rfl
@[simp] theorem orFlags_nextId (f : Flags) : (s.orFlags n q f).nextId = s.nextId := rfl

/-! Reading a unit back. -/

@[simp] theorem core_setCore (m : Nat) (k : Core) : (s.setCore n k).core m = if m = n then k else s.core m := by
  simp [State.core, State.setCore]
@[simp] theorem core_modCore (m : Nat) (f : Core → Core) :
    (s.modCore n f).core m = if m = n then f (s.core n) else s.core m := by simp [State.modCore]
@[simp] theorem me_modMe (f : Core → Core) : (s.modMe f).me = f s.me := by simp [State.me, State.modMe]
@[simp] theorem core_modMe (m : Nat) (f : Core → Core) :
    (s.modMe f).core m = if m = s.cur then f s.me else s.core m := by simp [State.modMe, State.me]
@[simp] theorem die_setDie (m : Nat) (d : Die) : (s.setDie n d).die m = if m = n then d else s.die m := by
  simp [State.die, State.setDie]
@[simp] theorem die_modDie (m : Nat) (f : Die → Die) :
    (s.modDie n f).die m = if m = n then f (s.die n) else s.die m := by simp [State.modDie]
@[simp] theorem chan_setChan (m : Nat) (x : TChan) : (s.setChan n x).chan m = if m = n then x else s.chan m := by
  simp [State.chan, State.setChan]
@[simp] theorem port_setPort (m : Nat) (x : Port) : (s.setPort n x).port m = if m = n then x else s.port m := by
  simp [State.port, State.setPort]

@[simp] theorem die_setCore (m : Nat) (k : Core) : (s.setCore n k).die m = s.die m := rfl
@[simp] theorem die_modCore (m : Nat) (f : Core → Core) : (s.modCore n f).die m = s.die m := rfl
@[simp] theorem die_modMe (m : Nat) (f : Core → Core) : (s.modMe f).die m = s.die m := rfl
@[simp] theorem core_setDie (m : Nat) (d : Die) : (s.setDie n d).core m = s.core m := rfl
@[simp] theorem core_modDie (m : Nat) (f : Die → Die) : (s.modDie n f).core m = s.core m := rfl
@[simp] theorem core_wr (m a : Nat) (l : List Byte) : (s.wr a l).core m = s.core m := rfl
@[simp] theorem die_wr (m a : Nat) (l : List Byte) : (s.wr a l).die m = s.die m := rfl
@[simp] theorem byte_setCore (a : Nat) (k : Core) : (s.setCore n k).byte a = s.byte a := rfl
@[simp] theorem byte_modCore (a : Nat) (f : Core → Core) : (s.modCore n f).byte a = s.byte a := rfl
@[simp] theorem byte_modMe (a : Nat) (f : Core → Core) : (s.modMe f).byte a = s.byte a := rfl
@[simp] theorem byte_setDie (a : Nat) (d : Die) : (s.setDie n d).byte a = s.byte a := rfl
@[simp] theorem byte_modDie (a : Nat) (f : Die → Die) : (s.modDie n f).byte a = s.byte a := rfl

/-! Sequencers of a core. -/

variable (k : Core)

@[simp] theorem seq_setSeq (p : SeqId) (x : Seq) : (k.setSeq q x).seq p = if p = q then x else k.seq p := by
  cases q <;> cases p <;> rfl
@[simp] theorem seq_modSeq (p : SeqId) (f : Seq → Seq) :
    (k.modSeq q f).seq p = if p = q then f (k.seq q) else k.seq p := by simp [Core.modSeq]
@[simp] theorem setSeq_pg (x : Seq) : (k.setSeq q x).pg = k.pg := by cases q <;> rfl
@[simp] theorem modSeq_core_pg (f : Seq → Seq) : (k.modSeq q f).pg = k.pg := by simp [Core.modSeq]
@[simp] theorem setSeq_pgPoison (x : Seq) : (k.setSeq q x).pgPoison = k.pgPoison := by cases q <;> rfl
@[simp] theorem modSeq_core_pgPoison (f : Seq → Seq) : (k.modSeq q f).pgPoison = k.pgPoison := by simp [Core.modSeq]
@[simp] theorem setSeq_priv (x : Seq) : (k.setSeq q x).priv = k.priv := by cases q <;> rfl
@[simp] theorem modSeq_core_priv (f : Seq → Seq) : (k.modSeq q f).priv = k.priv := by simp [Core.modSeq]
@[simp] theorem setSeq_nest (x : Seq) : (k.setSeq q x).nest = k.nest := by cases q <;> rfl
@[simp] theorem modSeq_core_nest (f : Seq → Seq) : (k.modSeq q f).nest = k.nest := by simp [Core.modSeq]
@[simp] theorem setSeq_halted (x : Seq) : (k.setSeq q x).halted = k.halted := by cases q <;> rfl
@[simp] theorem modSeq_core_halted (f : Seq → Seq) : (k.modSeq q f).halted = k.halted := by simp [Core.modSeq]
@[simp] theorem setSeq_tag (x : Seq) : (k.setSeq q x).tag = k.tag := by cases q <;> rfl
@[simp] theorem modSeq_core_tag (f : Seq → Seq) : (k.modSeq q f).tag = k.tag := by simp [Core.modSeq]
@[simp] theorem setSeq_phase (x : Seq) : (k.setSeq q x).phase = k.phase := by cases q <;> rfl
@[simp] theorem modSeq_core_phase (f : Seq → Seq) : (k.modSeq q f).phase = k.phase := by simp [Core.modSeq]
@[simp] theorem setSeq_blk (x : Seq) : (k.setSeq q x).blk = k.blk := by cases q <;> rfl
@[simp] theorem modSeq_core_blk (f : Seq → Seq) : (k.modSeq q f).blk = k.blk := by simp [Core.modSeq]
@[simp] theorem setSeq_tcbh (x : Seq) : (k.setSeq q x).tcbh = k.tcbh := by cases q <;> rfl
@[simp] theorem modSeq_core_tcbh (f : Seq → Seq) : (k.modSeq q f).tcbh = k.tcbh := by simp [Core.modSeq]
@[simp] theorem setSeq_seed (x : Seq) : (k.setSeq q x).seed = k.seed := by cases q <;> rfl
@[simp] theorem modSeq_core_seed (f : Seq → Seq) : (k.modSeq q f).seed = k.seed := by simp [Core.modSeq]
@[simp] theorem setSeq_gens (x : Seq) : (k.setSeq q x).gens = k.gens := by cases q <;> rfl
@[simp] theorem modSeq_core_gens (f : Seq → Seq) : (k.modSeq q f).gens = k.gens := by simp [Core.modSeq]
@[simp] theorem setSeq_srm (x : Seq) : (k.setSeq q x).srm = k.srm := by cases q <;> rfl
@[simp] theorem modSeq_core_srm (f : Seq → Seq) : (k.modSeq q f).srm = k.srm := by simp [Core.modSeq]
@[simp] theorem setSeq_streams (x : Seq) : (k.setSeq q x).streams = k.streams := by cases q <;> rfl
@[simp] theorem modSeq_core_streams (f : Seq → Seq) : (k.modSeq q f).streams = k.streams := by simp [Core.modSeq]
@[simp] theorem setSeq_cause (x : Seq) : (k.setSeq q x).cause = k.cause := by cases q <;> rfl
@[simp] theorem modSeq_core_cause (f : Seq → Seq) : (k.modSeq q f).cause = k.cause := by simp [Core.modSeq]
@[simp] theorem setSeq_epc (x : Seq) : (k.setSeq q x).epc = k.epc := by cases q <;> rfl
@[simp] theorem modSeq_core_epc (f : Seq → Seq) : (k.modSeq q f).epc = k.epc := by simp [Core.modSeq]
@[simp] theorem setSeq_eva (x : Seq) : (k.setSeq q x).eva = k.eva := by cases q <;> rfl
@[simp] theorem modSeq_core_eva (f : Seq → Seq) : (k.modSeq q f).eva = k.eva := by simp [Core.modSeq]
@[simp] theorem setSeq_ctx (x : Seq) : (k.setSeq q x).ctx = k.ctx := by cases q <;> rfl
@[simp] theorem modSeq_core_ctx (f : Seq → Seq) : (k.modSeq q f).ctx = k.ctx := by simp [Core.modSeq]
@[simp] theorem setSeq_pcause (x : Seq) : (k.setSeq q x).pcause = k.pcause := by cases q <;> rfl
@[simp] theorem modSeq_core_pcause (f : Seq → Seq) : (k.modSeq q f).pcause = k.pcause := by simp [Core.modSeq]
@[simp] theorem setSeq_pepc (x : Seq) : (k.setSeq q x).pepc = k.pepc := by cases q <;> rfl
@[simp] theorem modSeq_core_pepc (f : Seq → Seq) : (k.modSeq q f).pepc = k.pepc := by simp [Core.modSeq]
@[simp] theorem setSeq_peva (x : Seq) : (k.setSeq q x).peva = k.peva := by cases q <;> rfl
@[simp] theorem modSeq_core_peva (f : Seq → Seq) : (k.modSeq q f).peva = k.peva := by simp [Core.modSeq]
@[simp] theorem setSeq_hotb (x : Seq) : (k.setSeq q x).hotb = k.hotb := by cases q <;> rfl
@[simp] theorem modSeq_core_hotb (f : Seq → Seq) : (k.modSeq q f).hotb = k.hotb := by simp [Core.modSeq]
@[simp] theorem setSeq_hots (x : Seq) : (k.setSeq q x).hots = k.hots := by cases q <;> rfl
@[simp] theorem modSeq_core_hots (f : Seq → Seq) : (k.modSeq q f).hots = k.hots := by simp [Core.modSeq]
@[simp] theorem setSeq_tokq (x : Seq) : (k.setSeq q x).tokq = k.tokq := by cases q <;> rfl
@[simp] theorem modSeq_core_tokq (f : Seq → Seq) : (k.modSeq q f).tokq = k.tokq := by simp [Core.modSeq]
@[simp] theorem setSeq_store (x : Seq) : (k.setSeq q x).store = k.store := by cases q <;> rfl
@[simp] theorem modSeq_core_store (f : Seq → Seq) : (k.modSeq q f).store = k.store := by simp [Core.modSeq]
@[simp] theorem setSeq_storePoison (x : Seq) : (k.setSeq q x).storePoison = k.storePoison := by cases q <;> rfl
@[simp] theorem modSeq_core_storePoison (f : Seq → Seq) : (k.modSeq q f).storePoison = k.storePoison := by simp [Core.modSeq]
@[simp] theorem setSeq_psb (x : Seq) : (k.setSeq q x).psb = k.psb := by cases q <;> rfl
@[simp] theorem modSeq_core_psb (f : Seq → Seq) : (k.modSeq q f).psb = k.psb := by simp [Core.modSeq]
@[simp] theorem setSeq_v (x : Seq) : (k.setSeq q x).v = k.v := by cases q <;> rfl
@[simp] theorem modSeq_core_v (f : Seq → Seq) : (k.modSeq q f).v = k.v := by simp [Core.modSeq]
@[simp] theorem setSeq_vPoison (x : Seq) : (k.setSeq q x).vPoison = k.vPoison := by cases q <;> rfl
@[simp] theorem modSeq_core_vPoison (f : Seq → Seq) : (k.modSeq q f).vPoison = k.vPoison := by simp [Core.modSeq]
@[simp] theorem setSeq_p (x : Seq) : (k.setSeq q x).p = k.p := by cases q <;> rfl
@[simp] theorem modSeq_core_p (f : Seq → Seq) : (k.modSeq q f).p = k.p := by simp [Core.modSeq]
@[simp] theorem setSeq_acc (x : Seq) : (k.setSeq q x).acc = k.acc := by cases q <;> rfl
@[simp] theorem modSeq_core_acc (f : Seq → Seq) : (k.modSeq q f).acc = k.acc := by simp [Core.modSeq]
@[simp] theorem setSeq_accPoison (x : Seq) : (k.setSeq q x).accPoison = k.accPoison := by cases q <;> rfl
@[simp] theorem modSeq_core_accPoison (f : Seq → Seq) : (k.modSeq q f).accPoison = k.accPoison := by simp [Core.modSeq]
@[simp] theorem setSeq_accOwner (x : Seq) : (k.setSeq q x).accOwner = k.accOwner := by cases q <;> rfl
@[simp] theorem modSeq_core_accOwner (f : Seq → Seq) : (k.modSeq q f).accOwner = k.accOwner := by simp [Core.modSeq]
@[simp] theorem setSeq_panels (x : Seq) : (k.setSeq q x).panels = k.panels := by cases q <;> rfl
@[simp] theorem modSeq_core_panels (f : Seq → Seq) : (k.modSeq q f).panels = k.panels := by simp [Core.modSeq]
@[simp] theorem setSeq_sampler (x : Seq) : (k.setSeq q x).sampler = k.sampler := by cases q <;> rfl
@[simp] theorem modSeq_core_sampler (f : Seq → Seq) : (k.modSeq q f).sampler = k.sampler := by simp [Core.modSeq]
@[simp] theorem setSeq_varr (x : Seq) : (k.setSeq q x).varr = k.varr := by cases q <;> rfl
@[simp] theorem modSeq_core_varr (f : Seq → Seq) : (k.modSeq q f).varr = k.varr := by simp [Core.modSeq]
@[simp] theorem setSeq_nsamp (x : Seq) : (k.setSeq q x).nsamp = k.nsamp := by cases q <;> rfl
@[simp] theorem modSeq_core_nsamp (f : Seq → Seq) : (k.modSeq q f).nsamp = k.nsamp := by simp [Core.modSeq]
@[simp] theorem setSeq_deferred (x : Seq) : (k.setSeq q x).deferred = k.deferred := by cases q <;> rfl
@[simp] theorem modSeq_core_deferred (f : Seq → Seq) : (k.modSeq q f).deferred = k.deferred := by simp [Core.modSeq]
@[simp] theorem setSeq_defmask (x : Seq) : (k.setSeq q x).defmask = k.defmask := by cases q <;> rfl
@[simp] theorem modSeq_core_defmask (f : Seq → Seq) : (k.modSeq q f).defmask = k.defmask := by simp [Core.modSeq]
@[simp] theorem setSeq_wdog (x : Seq) : (k.setSeq q x).wdog = k.wdog := by cases q <;> rfl
@[simp] theorem modSeq_core_wdog (f : Seq → Seq) : (k.modSeq q f).wdog = k.wdog := by simp [Core.modSeq]
@[simp] theorem setSeq_preq (x : Seq) : (k.setSeq q x).preq = k.preq := by cases q <;> rfl
@[simp] theorem modSeq_core_preq (f : Seq → Seq) : (k.modSeq q f).preq = k.preq := by simp [Core.modSeq]
@[simp] theorem setSeq_event (x : Seq) : (k.setSeq q x).event = k.event := by cases q <;> rfl
@[simp] theorem modSeq_core_event (f : Seq → Seq) : (k.modSeq q f).event = k.event := by simp [Core.modSeq]
@[simp] theorem setSeq_cur (x : Seq) : (k.setSeq q x).cur = k.cur := by cases q <;> rfl
@[simp] theorem modSeq_core_cur (f : Seq → Seq) : (k.modSeq q f).cur = k.cur := by simp [Core.modSeq]
@[simp] theorem setSeq_inHandler (x : Seq) : (k.setSeq q x).inHandler = k.inHandler := by cases q <;> rfl
@[simp] theorem modSeq_core_inHandler (f : Seq → Seq) : (k.modSeq q f).inHandler = k.inHandler := by simp [Core.modSeq]
@[simp] theorem setSeq_pend (x : Seq) : (k.setSeq q x).pend = k.pend := by cases q <;> rfl
@[simp] theorem modSeq_core_pend (f : Seq → Seq) : (k.modSeq q f).pend = k.pend := by simp [Core.modSeq]
@[simp] theorem setSeq_trapping (x : Seq) : (k.setSeq q x).trapping = k.trapping := by cases q <;> rfl
@[simp] theorem modSeq_core_trapping (f : Seq → Seq) : (k.modSeq q f).trapping = k.trapping := by simp [Core.modSeq]
@[simp] theorem setSeq_xfers (x : Seq) : (k.setSeq q x).xfers = k.xfers := by cases q <;> rfl
@[simp] theorem modSeq_core_xfers (f : Seq → Seq) : (k.modSeq q f).xfers = k.xfers := by simp [Core.modSeq]
@[simp] theorem setSeq_engimg (x : Seq) : (k.setSeq q x).engimg = k.engimg := by cases q <;> rfl
@[simp] theorem modSeq_core_engimg (f : Seq → Seq) : (k.modSeq q f).engimg = k.engimg := by simp [Core.modSeq]
@[simp] theorem setSeq_resetting (x : Seq) : (k.setSeq q x).resetting = k.resetting := by cases q <;> rfl
@[simp] theorem modSeq_core_resetting (f : Seq → Seq) : (k.modSeq q f).resetting = k.resetting := by simp [Core.modSeq]
@[simp] theorem setSeq_acq (x : Seq) : (k.setSeq q x).acq = k.acq := by cases q <;> rfl
@[simp] theorem modSeq_core_acq (f : Seq → Seq) : (k.modSeq q f).acq = k.acq := by simp [Core.modSeq]
@[simp] theorem setSeq_seen (x : Seq) : (k.setSeq q x).seen = k.seen := by cases q <;> rfl
@[simp] theorem modSeq_core_seen (f : Seq → Seq) : (k.modSeq q f).seen = k.seen := by simp [Core.modSeq]
@[simp] theorem setSeq_l1 (x : Seq) : (k.setSeq q x).l1 = k.l1 := by cases q <;> rfl
@[simp] theorem modSeq_core_l1 (f : Seq → Seq) : (k.modSeq q f).l1 = k.l1 := by simp [Core.modSeq]
@[simp] theorem setSeq_iLines (x : Seq) : (k.setSeq q x).iLines = k.iLines := by cases q <;> rfl
@[simp] theorem modSeq_core_iLines (f : Seq → Seq) : (k.modSeq q f).iLines = k.iLines := by simp [Core.modSeq]
@[simp] theorem setSeq_inval (x : Seq) : (k.setSeq q x).inval = k.inval := by cases q <;> rfl
@[simp] theorem modSeq_core_inval (f : Seq → Seq) : (k.modSeq q f).inval = k.inval := by simp [Core.modSeq]

@[simp] theorem mySeq_modMySeq (f : Seq → Seq) : (s.modMySeq f).mySeq = f s.mySeq := by
  simp [State.modMySeq, State.mySeq]
@[simp] theorem me_modMySeq (f : Seq → Seq) : (s.modMySeq f).me = s.me.modSeq s.curSeq f := by simp [State.modMySeq]

/-- A core is its four sequencers and the rest. -/
theorem Core.ext_seq {a b : Core} (h : ∀ q, a.seq q = b.seq q)
    (e : a = { b with l := a.l, x := a.x, s := a.s, c := a.c }) : a = b := by
  have h1 : a.l = b.l := h .L
  have h2 : a.x = b.x := h .X
  have h3 : a.s = b.s := h .S
  have h4 : a.c = b.c := h .C
  rw [e, h1, h2, h3, h4]

end Sys2Proof.Machine
end

