-- ==== Sys2Proof/Laws/Issue.lean ====
section
/-! SUPPORT. What issue and retirement do: when an instruction completes, and what its retirement changes. -/

namespace Sys2Proof.Machine

/-! Issue. -/

/-- An instruction that can issue, and whose body succeeds, retires. -/
theorem issue_next {i : Instr} {c : Ctl} {pre : Op Unit} {srcs : List Nat} {body : Op Post} {s u s' : State} {p : Post}
    (h : Ready i c srcs s) (hp : pre s = .ok () u) (hb : body s = .ok p s') (hn : ∀ n, p ≠ .hold n) :
    issue i c pre srcs body s = .next (retire c p s') := by
  obtain ⟨h1, h2, h3, h4, h5⟩ := h
  cases p
  case hold n => exact absurd rfl (hn n)
  all_goals simp only [issue, h1, h2, h3, h4, h5, hp, hb, Bool.not_true, Bool.false_eq_true, if_false]

/-- An instruction without decode traps. -/
theorem issue_simple {i : Instr} {c : Ctl} {srcs : List Nat} {f : State → State} {s : State} (h : Ready i c srcs s) :
    issue i c noPre srcs (simple f) s = .next (retire c .next (f s)) :=
  issue_next (u := s) h rfl rfl (by intro n; exact Post.noConfusion)

theorem leaveMarks_self (s t : State) (d : Nat) (h : s.die d = t.die d) : leaveMarks s d t = t := by
  unfold leaveMarks
  dsimp only
  rw [h]
  have key : ∀ l : List Nat, l.foldl (fun (y : Die) (k : Nat) =>
      if ((t.die d).pool k).empty && !(y.pool k).empty then y.setPool k { y.pool k with empty := true } else y)
      (t.die d) = t.die d := by
    intro l
    induction l with
    | nil => rfl
    | cons k l ih =>
      rw [List.foldl_cons]
      have e : (((t.die d).pool k).empty && !((t.die d).pool k).empty) = false := by simp
      simpa only [e, Bool.false_eq_true, if_false] using ih
  rw [key]
  simp

/-- An attempt that leaves the dies alone leaves no mark. -/
theorem errState_eq {s s' : State} (h : s'.dies = s.dies) :
    errState s s' = { s with ats := s'.ats, atsReqs := s'.atsReqs, draws := s'.draws } := by
  have e : ∀ (t : State) (d : Nat), t.dies = s.dies → leaveMarks s' d t = t := fun t d g =>
    leaveMarks_self _ _ _ (by unfold State.die; rw [g, h])
  unfold errState
  rw [e { s with ats := s'.ats, atsReqs := s'.atsReqs, draws := s'.draws } 0 rfl]
  exact e { s with ats := s'.ats, atsReqs := s'.atsReqs, draws := s'.draws } 1 rfl

@[simp] theorem errState_self (s : State) : errState s s = s := errState_eq rfl

/-- An instruction that can issue and whose body traps. -/
theorem issue_trap {i : Instr} {c : Ctl} {pre : Op Unit} {srcs : List Nat} {body : Op Post} {s u s' : State} {k v : Nat}
    (h : Ready i c srcs s) (hp : pre s = .ok () u) (hb : body s = .error (.trap k v) s') :
    issue i c pre srcs body s = trapHere k v (errState s s') := by
  obtain ⟨h1, h2, h3, h4, h5⟩ := h
  simp only [issue, h1, h2, h3, hp, hb, Bool.not_true, Bool.false_eq_true, if_false]

/-- Everything that issuing can come to. -/
theorem issue_cases (i : Instr) (c : Ctl) (pre : Op Unit) (srcs : List Nat) (body : Op Post) (s : State) :
    (∃ k v, issue i c pre srcs body s = trapHere k v s) ∨
    (∃ k v s', body s = .error (.trap k v) s' ∧ issue i c pre srcs body s = trapHere k v (errState s s')) ∨
    (∃ f, issue i c pre srcs body s = .fault f) ∨
    (issue i c pre srcs body s = .next s) ∨
    (issue i c pre srcs body s = .next (s.waitFor i true)) ∨
    (issue i c pre srcs body s = .next s.unwait) ∨
    (∃ n s', body s = .error (.wait n) s' ∧ issue i c pre srcs body s = .next ((errState s s').waitFor i n)) ∨
    (∃ n s', body s = .ok (.hold n) s' ∧ issue i c pre srcs body s = .next (s'.waitFor i n)) ∨
    (∃ p s', body s = .ok p s' ∧ issue i c pre srcs body s = .next (retire c p s')) := by
  unfold issue
  split
  · exact .inl ⟨_, _, rfl⟩
  split
  · exact .inl ⟨_, _, rfl⟩
  · exact .inr (.inr (.inl ⟨_, rfl⟩))
  · exact .inr (.inr (.inr (.inl rfl)))
  split
  · exact .inr (.inr (.inr (.inr (.inl rfl))))
  split
  · exact .inr (.inr (.inr (.inr (.inr (.inl rfl)))))
  split
  · exact .inr (.inl ⟨_, _, _, ‹_›, rfl⟩)
  · exact .inr (.inr (.inl ⟨_, rfl⟩))
  · split
    · exact .inl ⟨_, _, rfl⟩
    split
    · exact .inl ⟨_, _, rfl⟩
    · exact .inr (.inr (.inr (.inr (.inr (.inr (.inl ⟨_, _, ‹_›, rfl⟩))))))
  · split
    · exact .inl ⟨_, _, rfl⟩
    split
    · exact .inl ⟨_, _, rfl⟩
    split
    · exact .inr (.inr (.inr (.inr (.inr (.inr (.inr (.inl ⟨_, _, ‹_›, rfl⟩)))))))
    · exact .inr (.inr (.inr (.inr (.inr (.inr (.inr (.inr ⟨_, _, ‹_›, rfl⟩)))))))

/-- An event whose work succeeds. -/
theorem event_next {body : Op Unit} {s t : State} (h : body s = .ok () t) : event body s = .next t := by
  simp only [event, h]

/-! Tokens and signals. -/

theorem pushTok_eq (k : Core) (n v : Nat) :
    k.pushTok n v = { k with tokq := (k.pushTok n v).tokq, event := (k.pushTok n v).event } := by
  unfold Core.pushTok Core.setTok; dsimp only; split <;> rfl

theorem foldl_pushTok_eq (l : List (Nat × Nat × Nat)) : ∀ k : Core,
    l.foldl (fun c p => c.pushTok p.1 p.2.1) k =
      { k with tokq := (l.foldl (fun c p => c.pushTok p.1 p.2.1) k).tokq,
               event := (l.foldl (fun c p => c.pushTok p.1 p.2.1) k).event } := by
  induction l with
  | nil => intro k; rfl
  | cons p t ih => intro k; simp only [List.foldl_cons]; rw [ih]; generalize (t.foldl _ _) = z; rw [pushTok_eq]

theorem flushSigs_seq (k : Core) (q p : SeqId) :
    (k.flushSigs q).seq p = if p = q then { k.seq q with sigq := ((k.flushSigs q).seq q).sigq } else k.seq p := by
  unfold Core.flushSigs
  dsimp only
  rw [foldl_pushTok_eq]
  generalize (List.foldl _ _ _) = z
  cases p <;> cases q <;> rfl

theorem flushSigs_eq (k : Core) (q : SeqId) :
    k.flushSigs q = { k with
      l := (k.flushSigs q).l, x := (k.flushSigs q).x, s := (k.flushSigs q).s, c := (k.flushSigs q).c,
      tokq := (k.flushSigs q).tokq, event := (k.flushSigs q).event } := by
  unfold Core.flushSigs
  dsimp only
  rw [foldl_pushTok_eq]
  generalize (List.foldl _ _ _) = z
  cases q <;> rfl

/-! Retirement. -/

/-- The sequencer after retirement, its signals apart. -/
def seqAfter (p : Post) (x : Seq) : Seq :=
  match p with
  | .next => { x with pc := x.pc + 8, wait := none }
  | .goto a => { x.branchTo a with wait := none }
  | .park => { x with pc := x.pc + 8, parked := true, wait := none }
  | .done => { x with wait := none }
  | .hold _ => x

/-- Outside the core that runs, `t` is `s`. -/
def State.coreOnly (s t : State) : Prop :=
  t = { s with cores := t.cores } ∧ ∀ n, n ≠ s.cur → t.core n = s.core n

theorem modMe_coreOnly (s : State) (f : Core → Core) : s.coreOnly (s.modMe f) :=
  ⟨rfl, fun n h => by simp [h]⟩

theorem State.coreOnly.cur {s t : State} (h : s.coreOnly t) : t.cur = s.cur := by rw [h.1]
theorem State.coreOnly.curSeq {s t : State} (h : s.coreOnly t) : t.curSeq = s.curSeq := by rw [h.1]

theorem State.coreOnly.trans {s t u : State} (h : s.coreOnly t) (g : t.coreOnly u) : s.coreOnly u := by
  refine ⟨?_, fun n hn => ?_⟩
  · rw [g.1]; conv_lhs => rw [h.1]
  · rw [g.2 n (by rw [h.cur]; exact hn), h.2 n hn]

theorem State.coreOnly.refl (s : State) : s.coreOnly s := ⟨rfl, fun _ _ => rfl⟩

theorem State.coreOnly.memKept {s t : State} (h : s.coreOnly t) : s.memKept t := by
  refine ⟨fun a => ?_, ?_, ?_⟩
  · unfold State.byte; rw [h.1]
  · rw [h.1]
  · rw [h.1]

theorem popTokens_coreOnly (c : Ctl) (s : State) : s.coreOnly (popTokens c s) := by
  unfold popTokens
  split
  · exact modMe_coreOnly _ _
  · exact .refl s

theorem moveOn_coreOnly (p : Post) (s : State) : s.coreOnly (moveOn p s) := by
  unfold moveOn State.modMySeq; exact modMe_coreOnly _ _

theorem pushSignal_coreOnly (c : Ctl) (s : State) : s.coreOnly (pushSignal c s) := by
  unfold pushSignal
  split
  · exact .refl s
  · exact modMe_coreOnly _ _

/-- Retirement touches the core that runs alone. -/
theorem retire_coreOnly (c : Ctl) (p : Post) (s : State) : s.coreOnly (retire c p s) :=
  ((popTokens_coreOnly c s).trans (moveOn_coreOnly p _)).trans (pushSignal_coreOnly c _)

theorem popTokens_me (c : Ctl) (s : State) :
    (popTokens c s).me = { s.me with tokq := (popTokens c s).me.tokq } := by
  unfold popTokens
  split
  · simp only [me_modMe, Core.setTok]
  · rfl

theorem popTokens_mySeq (c : Ctl) (s : State) : (popTokens c s).mySeq = s.mySeq := by
  have h := popTokens_coreOnly c s
  unfold State.mySeq; rw [popTokens_me, h.curSeq]; cases s.curSeq <;> rfl

theorem moveOn_me (p : Post) (s : State) : (moveOn p s).me = s.me.modSeq s.curSeq (seqAfter p) := by
  unfold moveOn; rw [me_modMySeq]; rfl

theorem pushSignal_me (c : Ctl) (s : State) :
    (pushSignal c s).me = { s.me with
      l := (pushSignal c s).me.l, x := (pushSignal c s).me.x, s := (pushSignal c s).me.s,
      c := (pushSignal c s).me.c, tokq := (pushSignal c s).me.tokq, event := (pushSignal c s).me.event } := by
  unfold pushSignal
  split
  · rfl
  · rw [me_modMe, flushSigs_eq]; cases s.curSeq <;> rfl

theorem pushSignal_seq (c : Ctl) (s : State) (q : SeqId) :
    (pushSignal c s).me.seq q =
      if q = s.curSeq then { s.mySeq with sigq := (pushSignal c s).mySeq.sigq } else s.me.seq q := by
  have hc : (pushSignal c s).curSeq = s.curSeq := (pushSignal_coreOnly c s).curSeq
  unfold State.mySeq
  rw [hc]
  unfold pushSignal
  split
  · split <;> simp_all
  · rw [me_modMe, flushSigs_seq]
    split
    · subst_vars; rw [flushSigs_seq]; simp
    · simp [*]

/-- The rest of the core: retirement changes its sequencers, token queues and event flag at most. -/
theorem retire_me (c : Ctl) (p : Post) (s : State) :
    (retire c p s).me = { s.me with
      l := (retire c p s).me.l, x := (retire c p s).me.x, s := (retire c p s).me.s,
      c := (retire c p s).me.c, tokq := (retire c p s).me.tokq, event := (retire c p s).me.event } := by
  unfold retire
  rw [pushSignal_me, moveOn_me, popTokens_me]
  generalize (popTokens c s).curSeq = q
  cases q <;> rfl

/-- The sequencers after retirement. -/
theorem retire_seq (c : Ctl) (p : Post) (s : State) (q : SeqId) :
    (retire c p s).me.seq q =
      if q = s.curSeq then { seqAfter p s.mySeq with sigq := (retire c p s).mySeq.sigq } else s.me.seq q := by
  have h1 := (popTokens_coreOnly c s).curSeq
  have h2 := (moveOn_coreOnly p (popTokens c s)).curSeq
  unfold retire
  rw [pushSignal_seq, h2, h1]
  have hm : (moveOn p (popTokens c s)).mySeq = seqAfter p s.mySeq := by
    unfold State.mySeq
    rw [moveOn_me, h2, seq_modSeq, if_pos rfl]
    exact congrArg (seqAfter p) (popTokens_mySeq c s)
  split
  · rw [hm]
  · rw [moveOn_me, seq_modSeq, h1, if_neg ‹_›, popTokens_me]
    cases q <;> rfl

theorem retire_mySeq (c : Ctl) (p : Post) (s : State) :
    (retire c p s).mySeq = { seqAfter p s.mySeq with sigq := (retire c p s).mySeq.sigq } := by
  conv_lhs => unfold State.mySeq
  rw [(retire_coreOnly c p s).curSeq, retire_seq, if_pos rfl]

/-- Without a token queue in its wait byte or a peer in its signal byte an instruction moves no token. -/
theorem retire_tokens {c : Ctl} (p : Post) (s : State) (h : c.wsel = 0 ∨ 4 ≤ c.wsel) (g : c.ssel = 0) :
    (retire c p s).me.tokq = s.me.tokq ∧ (retire c p s).me.event = s.me.event ∧
      (retire c p s).mySeq.sigq = s.mySeq.sigq := by
  have e : popTokens c s = s := by
    unfold popTokens
    rw [if_neg]
    simp only [Bool.and_eq_true, decide_eq_true_eq]; omega
  have r : retire c p s = moveOn p s := by unfold retire pushSignal; rw [e, if_pos g]
  rw [r]
  unfold State.mySeq
  rw [moveOn_me, (moveOn_coreOnly p s).curSeq]
  refine ⟨by simp, by simp, ?_⟩
  rw [seq_modSeq, if_pos rfl]
  cases p <;> rfl

/-! Scalar registers. -/

theorem testBit_sub_pow (n : Nat) : ∀ x m : Nat, x.testBit n = true →
    (x - 2 ^ n).testBit m = (x.testBit m && m != n) := by
  induction n with
  | zero =>
    intro x m h
    have h1 : x % 2 = 1 := by simpa [Nat.testBit_zero] using h
    cases m with
    | zero => simp [Nat.testBit_zero]; omega
    | succ m =>
      have e : (x - 1) / 2 = x / 2 := by omega
      simp [Nat.testBit_add_one, e]
  | succ n ih =>
    intro x m h
    have h1 : (x / 2).testBit n = true := by rwa [Nat.testBit_add_one] at h
    have h2 : 2 ^ (n + 1) = 2 * 2 ^ n := by rw [Nat.pow_succ, Nat.mul_comm]
    cases m with
    | zero =>
      have : 2 ^ (n + 1) ≤ x := Nat.ge_two_pow_of_testBit h
      have e : (x - 2 ^ (n + 1)) % 2 = x % 2 := by omega
      simp [Nat.testBit_zero, e]
    | succ m =>
      have e : (x - 2 ^ (n + 1)) / 2 = x / 2 - 2 ^ n := by omega
      rw [Nat.testBit_add_one, e, ih _ _ h1, Nat.testBit_add_one]
      by_cases g : m = n <;> simp [g]

theorem testBit_clear (x n m : Nat) :
    (if x.testBit n then x - 2 ^ n else x).testBit m = (x.testBit m && m != n) := by
  split
  · exact testBit_sub_pow n x m ‹_›
  · by_cases e : m = n
    · subst e; simp_all
    · simp [e]

theorem Core.g_setG (k : Core) (q : SeqId) (n m : Nat) (v : Word) :
    (k.setG q n v).g q m = if m = 0 then 0 else if m = n then v else k.g q m := by
  unfold Core.setG Core.g
  by_cases hm : m = 0
  · simp [hm]
  by_cases hn : n = 0
  · subst hn; simp [hm]
  simp only [hm, hn, if_false]
  by_cases hp : k.onPriv q = true
  · simp only [hp, if_true]
    have : Core.onPriv { k with pg := Store.set 0 k.pg n v, pgPoison := if k.pgPoison.testBit n then k.pgPoison - 2 ^ n else k.pgPoison } q = true := hp
    simp only [this, if_true, Store.get_set]
  · have e : (k.modSeq q (fun x => { x with g := Store.set 0 x.g n v, gPoison := if x.gPoison.testBit n then x.gPoison - 2 ^ n else x.gPoison })).onPriv q = false := by
      unfold Core.onPriv; rw [modSeq_core_priv]; simpa [Core.onPriv] using hp
    simp only [hp, e, if_false, Bool.false_eq_true, seq_modSeq, if_true, Store.get_set]

theorem Core.gPoisoned_setG (k : Core) (q : SeqId) (n m : Nat) (v : Word) :
    (k.setG q n v).gPoisoned q m = (k.gPoisoned q m && m != n) := by
  unfold Core.setG Core.gPoisoned
  by_cases hn : n = 0
  · subst hn
    by_cases hm : m = 0 <;> simp [hm]
  simp only [hn, if_false]
  by_cases hp : k.onPriv q = true
  · simp only [hp, if_true]
    have : Core.onPriv { k with pg := Store.set 0 k.pg n v, pgPoison := if k.pgPoison.testBit n then k.pgPoison - 2 ^ n else k.pgPoison } q = true := hp
    simp only [this, if_true, testBit_clear, Bool.and_assoc]
  · have e : (k.modSeq q (fun x => { x with g := Store.set 0 x.g n v, gPoison := if x.gPoison.testBit n then x.gPoison - 2 ^ n else x.gPoison })).onPriv q = false := by
      unfold Core.onPriv; rw [modSeq_core_priv]; simpa [Core.onPriv] using hp
    simp only [hp, e, if_false, Bool.false_eq_true, seq_modSeq, if_true, testBit_clear, Bool.and_assoc]

/-- What a write of a scalar register leaves of its core. -/
theorem Core.setG_eq (k : Core) (q : SeqId) (n : Nat) (v : Word) :
    k.setG q n v = { k with
      l := (k.setG q n v).l, x := (k.setG q n v).x, s := (k.setG q n v).s, c := (k.setG q n v).c,
      pg := (k.setG q n v).pg, pgPoison := (k.setG q n v).pgPoison } := by
  unfold Core.setG
  split
  · rfl
  · split
    · rfl
    · cases q <;> rfl

theorem Core.setG_seq (k : Core) (q p : SeqId) (n : Nat) (v : Word) :
    (k.setG q n v).seq p =
      if p = q then { k.seq q with g := ((k.setG q n v).seq q).g, gPoison := ((k.setG q n v).seq q).gPoison }
      else k.seq p := by
  have keep : ∀ k' : Core, (∀ r, k'.seq r = k.seq r) →
      k'.seq p = if p = q then { k.seq q with g := (k'.seq q).g, gPoison := (k'.seq q).gPoison } else k.seq p := by
    intro k' h
    rw [h p, h q]
    split
    · subst_vars; rfl
    · rfl
  unfold Core.setG
  split
  · exact keep k (fun _ => rfl)
  · split
    · exact keep _ (fun r => by cases r <;> rfl)
    · rw [seq_modSeq]
      split
      · subst_vars; rw [seq_modSeq, if_pos rfl]
      · rfl

theorem Core.setG_bank (k : Core) (q : SeqId) (n : Nat) (v : Word) :
    if k.onPriv q then ((k.setG q n v).seq q).g = (k.seq q).g ∧ ((k.setG q n v).seq q).gPoison = (k.seq q).gPoison
    else (k.setG q n v).pg = k.pg ∧ (k.setG q n v).pgPoison = k.pgPoison := by
  unfold Core.setG
  by_cases hp : k.onPriv q = true
  · rw [if_pos hp, if_pos hp]
    split
    · exact ⟨rfl, rfl⟩
    · cases q <;> exact ⟨rfl, rfl⟩
  · rw [if_neg hp, if_neg hp]
    split
    · exact ⟨rfl, rfl⟩
    · exact ⟨modSeq_core_pg _ _ _, modSeq_core_pgPoison _ _ _⟩

@[simp] theorem g_setG (s : State) (n m : Nat) (v : Word) :
    (s.setG n v).g m = if m = 0 then 0 else if m = n then v else s.g m := by
  unfold State.g State.setG
  rw [me_modMe]
  exact Core.g_setG _ _ _ _ _

theorem g_zero (s : State) : s.g 0 = 0 := by simp [State.g, Core.g]

end Sys2Proof.Machine
end

