-- ==== Sys2Proof/Laws/Scalar.lean ====
section
/-! SUPPORT. The frame of an instruction: what its work and its retirement change. -/

namespace Sys2Proof.Machine

theorem core_setG (s : State) (n : Nat) (v : Word) : s.coreOnly (s.setG n v) := modMe_coreOnly _ _

theorem me_setG (s : State) (n : Nat) (v : Word) : (s.setG n v).me = s.me.setG s.curSeq n v := me_modMe s _

/-- The work of an instruction before it retires, in the terms of `State.retires`. -/
structure State.does (s : State) (ds : List Nat) (r : State) (k : Core) (x : Seq) (u : State) : Prop where
  rest : u = { r with cores := u.cores }
  cur : r.cur = s.cur
  curSeq : r.curSeq = s.curSeq
  others : ∀ n, n ≠ s.cur → u.core n = r.core n
  seqs : ∀ q, q ≠ s.curSeq → u.me.seq q = k.seq q
  bank : s.bankOnly ds u
  priv : k.priv = s.me.priv
  me : u.me = { k with l := u.me.l, x := u.me.x, s := u.me.s, c := u.me.c, pg := u.me.pg, pgPoison := u.me.pgPoison }
  seq : u.mySeq = { x with g := u.mySeq.g, gPoison := u.mySeq.gPoison }

theorem State.does.ucur {s : State} {ds : List Nat} {r : State} {k : Core} {x : Seq} {u : State}
    (h : s.does ds r k x u) : u.cur = s.cur := by rw [h.rest]; exact h.cur

theorem State.does.ucurSeq {s : State} {ds : List Nat} {r : State} {k : Core} {x : Seq} {u : State}
    (h : s.does ds r k x u) : u.curSeq = s.curSeq := by rw [h.rest]; exact h.curSeq

theorem State.does.onPriv {s : State} {ds : List Nat} {r : State} {k : Core} {x : Seq} {u : State}
    (h : s.does ds r k x u) (q : SeqId) : u.me.onPriv q = s.me.onPriv q := by
  have : u.me.priv = s.me.priv := by rw [h.me]; exact h.priv
  unfold Core.onPriv; rw [this]

theorem bankOnly_refl (s : State) : s.bankOnly [] s := by
  refine ⟨fun _ _ => rfl, fun n => by simp, ?_⟩
  split <;> exact ⟨rfl, rfl⟩

/-- Nothing but the core that runs is touched, and of its scalar registers none. -/
theorem does_modMe {s : State} (f : Core → Core) (hg : ∀ q, ((f s.me).seq q).g = (s.me.seq q).g)
    (hgp : ∀ q, ((f s.me).seq q).gPoison = (s.me.seq q).gPoison) (hpg : (f s.me).pg = s.me.pg)
    (hpp : (f s.me).pgPoison = s.me.pgPoison) (hp : (f s.me).priv = s.me.priv) :
    s.does [] s (f s.me) ((f s.me).seq s.curSeq) (s.modMe f) := by
  have hm : (s.modMe f).me = f s.me := me_modMe s f
  have hs : (s.modMe f).mySeq = (f s.me).seq s.curSeq := by unfold State.mySeq; rw [hm]; rfl
  have hmy : s.mySeq = s.me.seq s.curSeq := rfl
  refine ⟨rfl, rfl, rfl, fun n h => (modMe_coreOnly s f).2 n h, fun q _ => by rw [hm], ⟨fun n _ => ?_, fun n => ?_, ?_⟩, hp,
    ?_, ?_⟩
  · unfold State.g Core.g Core.onPriv; rw [hm, hp, hpg]
    show (if n = 0 then (0 : Word) else Store.get 0 (if (s.curSeq == SeqId.C && s.me.priv) = true then s.me.pg
      else ((f s.me).seq s.curSeq).g) n) = _
    rw [hg]
  · unfold Core.gPoisoned Core.onPriv; rw [hm, hp, hpp, hgp]; simp
  · rw [hs, hm, hg, hgp, hpg, hpp, hmy]; split <;> exact ⟨rfl, rfl⟩
  · rw [hm]
  · rw [hs]

theorem does_refl (s : State) : s.does [] s s.me s.mySeq s :=
  ⟨rfl, rfl, rfl, fun _ _ => rfl, fun _ _ => rfl, bankOnly_refl s, rfl, rfl, rfl⟩

/-- The sequencer changed besides. -/
theorem State.does.modMySeq {s : State} {ds : List Nat} {r : State} {k : Core} {x : Seq} {u : State}
    (h : s.does ds r k x u) (f : Seq → Seq)
    (hf : ∀ y g p, f { y with g := g, gPoison := p } = { f y with g := g, gPoison := p }) :
    s.does ds r k (f x) (u.modMySeq f) := by
  have hcur := h.ucur
  have hcs := h.ucurSeq
  have hop := h.onPriv
  obtain ⟨a1, a2, a3, a4, a5, ⟨a6, a7, a8⟩, a9, b1, b2⟩ := h
  have hc : u.coreOnly (u.modMySeq f) := modMe_coreOnly _ _
  have hm : (u.modMySeq f).me = u.me.modSeq u.curSeq f := me_modMySeq u f
  have hq : ∀ q, (u.modMySeq f).me.seq q = if q = u.curSeq then f u.mySeq else u.me.seq q := by
    intro q; rw [hm, seq_modSeq]; split
    · subst_vars; rfl
    · rfl
  have fg : ∀ y : Seq, (f y).g = y.g ∧ (f y).gPoison = y.gPoison := by
    intro y
    have := hf y y.g y.gPoison
    have e : f y = { f y with g := y.g, gPoison := y.gPoison } := this
    exact ⟨by rw [e], by rw [e]⟩
  have hg : ∀ q, ((u.modMySeq f).me.seq q).g = (u.me.seq q).g ∧
      ((u.modMySeq f).me.seq q).gPoison = (u.me.seq q).gPoison := by
    intro q; rw [hq]; split
    · subst_vars; exact fg _
    · exact ⟨rfl, rfl⟩
  have hp : (u.modMySeq f).me.priv = u.me.priv := by rw [hm]; simp
  have hpg : (u.modMySeq f).me.pg = u.me.pg := by rw [hm]; simp
  have hpp : (u.modMySeq f).me.pgPoison = u.me.pgPoison := by rw [hm]; simp
  have hs : (u.modMySeq f).mySeq = f u.mySeq := by
    unfold State.mySeq; rw [hc.curSeq, hq, if_pos rfl]; rfl
  refine ⟨?_, a2, a3, fun n hn => ?_, fun q hn => ?_, ⟨fun n hn => ?_, fun n => ?_, ?_⟩, a9, ?_, ?_⟩
  · exact hc.1.trans (congrArg (fun z : State => { z with cores := (u.modMySeq f).cores }) a1)
  · rw [hc.2 n (by rw [hcur]; exact hn)]; exact a4 n hn
  · rw [hq, if_neg (by rw [hcs]; exact hn)]; exact a5 q hn
  · rw [← a6 n hn]; unfold State.g Core.g Core.onPriv; rw [hc.curSeq, hp, hpg, (hg _).1]
  · rw [← a7 n]; unfold Core.gPoisoned Core.onPriv; rw [hp, hpp, (hg _).2]
  · rw [hs, (fg _).1, (fg _).2, hpg, hpp]; exact a8
  · have : u.me.modSeq u.curSeq f = { u.me with
        l := (u.me.modSeq u.curSeq f).l, x := (u.me.modSeq u.curSeq f).x, s := (u.me.modSeq u.curSeq f).s,
        c := (u.me.modSeq u.curSeq f).c } := by cases u.curSeq <;> rfl
    rw [hm, this]
    exact congrArg (fun z : Core => { z with
      l := (u.me.modSeq u.curSeq f).l, x := (u.me.modSeq u.curSeq f).x, s := (u.me.modSeq u.curSeq f).s,
      c := (u.me.modSeq u.curSeq f).c }) b1
  · rw [hs]; conv_lhs => rw [b2]
    rw [hf, (fg _).1, (fg _).2]

/-- The core changed besides, its sequencers and privileged bank kept. -/
theorem State.does.modMe {s : State} {ds : List Nat} {r : State} {k : Core} {x : Seq} {u : State}
    (h : s.does ds r k x u) (f : Core → Core)
    (hf : ∀ y l x s c g p, f { y with l := l, x := x, s := s, c := c, pg := g, pgPoison := p } =
      { f y with l := l, x := x, s := s, c := c, pg := g, pgPoison := p })
    (hpr : ∀ y, (f y).priv = y.priv) :
    s.does ds r (f k) x (u.modMe f) := by
  have hcur := h.ucur
  have hcs := h.ucurSeq
  have hop := h.onPriv
  obtain ⟨a1, a2, a3, a4, a5, ⟨a6, a7, a8⟩, a9, b1, b2⟩ := h
  have hc : u.coreOnly (u.modMe f) := modMe_coreOnly _ _
  have hm : (u.modMe f).me = f u.me := me_modMe u f
  have e : ∀ y : Core, f y = { f y with
      l := y.l, x := y.x, s := y.s, c := y.c, pg := y.pg, pgPoison := y.pgPoison } :=
    fun y => hf y y.l y.x y.s y.c y.pg y.pgPoison
  have hq : ∀ (y : Core) q, (f y).seq q = y.seq q := by intro y q; rw [e y]; cases q <;> rfl
  have hs : (u.modMe f).mySeq = u.mySeq := by
    unfold State.mySeq; rw [hm, hc.curSeq, hq]
  have hp : (u.modMe f).me.priv = u.me.priv := by rw [hm, hpr]
  have hpg : (u.modMe f).me.pg = u.me.pg := by rw [hm, e]
  have hpp : (u.modMe f).me.pgPoison = u.me.pgPoison := by rw [hm, e]
  refine ⟨?_, a2, a3, fun n hn => ?_, fun q hn => ?_, ⟨fun n hn => ?_, fun n => ?_, ?_⟩, ?_, ?_, ?_⟩
  · exact hc.1.trans (congrArg (fun z : State => { z with cores := (u.modMe f).cores }) a1)
  · rw [hc.2 n (by rw [hcur]; exact hn)]; exact a4 n hn
  · rw [hm, hq, hq, a5 q hn]
  · rw [← a6 n hn]; unfold State.g Core.g Core.onPriv; rw [hc.curSeq, hp, hpg, hm, hq]
  · rw [← a7 n]; unfold Core.gPoisoned Core.onPriv; rw [hp, hpp, hm, hq]
  · rw [hs, hpg, hpp]; exact a8
  · rw [hpr, a9]
  · rw [hm]; conv_lhs => rw [b1, hf]
    conv_rhs => rw [e u.me]
  · rw [hs]; exact b2

/-- The package around the cores changed besides. -/
theorem State.does.outer {s : State} {ds : List Nat} {r : State} {k : Core} {x : Seq} {u : State}
    (h : s.does ds r k x u) (f : State → State) (hf : ∀ y c, f { y with cores := c } = { f y with cores := c })
    (hc : ∀ y, (f y).cur = y.cur) (hq : ∀ y, (f y).curSeq = y.curSeq) : s.does ds (f r) k x (f u) := by
  have hk : ∀ y, (f y).cores = y.cores := by intro y; have e : f y = { f y with cores := y.cores } := hf y y.cores; rw [e]
  have hco : ∀ y n, (f y).core n = y.core n := by intro y n; unfold State.core; rw [hk]
  have hm : (f u).me = u.me := by unfold State.me; rw [hco, hc]
  have hs : (f u).mySeq = u.mySeq := by unfold State.mySeq; rw [hm, hq]
  have hgg : ∀ n, (f u).g n = u.g n := fun n => by unfold State.g; rw [hm, hq]
  obtain ⟨a1, a2, a3, a4, a5, ⟨a6, a7, a8⟩, a9, b1, b2⟩ := h
  refine ⟨?_, ?_, ?_, fun n hn => ?_, fun q hq' => ?_, ⟨fun n hn => ?_, fun n => ?_, ?_⟩, a9, ?_, ?_⟩
  · conv_lhs => rw [a1, hf]
    rw [hk]
  · rw [hc, a2]
  · rw [hq, a3]
  · rw [hco, hco]; exact a4 n hn
  · rw [hm]; exact a5 q hq'
  · rw [hgg]; exact a6 n hn
  · rw [hm]; exact a7 n
  · rw [hs, hm]; exact a8
  · rw [hm]; exact b1
  · rw [hs]; exact b2

/-- Scalar registers that the work leaves alone. -/
theorem State.does.g {s : State} {ds : List Nat} {r : State} {k : Core} {x : Seq} {u : State}
    (h : s.does ds r k x u) {n : Nat} (hn : n ∉ ds) : u.g n = s.g n := h.bank.1 n hn

/-- Work that leaves the sequencers and the privileged bank alone, whatever else it does. -/
theorem does_of {s w : State} (hc : w.cur = s.cur) (hq : w.curSeq = s.curSeq)
    (h : w.me = { w.me with l := s.me.l, x := s.me.x, s := s.me.s, c := s.me.c, pg := s.me.pg, pgPoison := s.me.pgPoison,
                            priv := s.me.priv }) : s.does [] w w.me s.mySeq w := by
  have hs : ∀ q, w.me.seq q = s.me.seq q := by intro q; rw [h]; cases q <;> rfl
  have hm : w.mySeq = s.mySeq := by unfold State.mySeq; rw [hs, hq]
  have hp : w.me.priv = s.me.priv := by rw [h]
  have hpg : w.me.pg = s.me.pg := by rw [h]
  have hpp : w.me.pgPoison = s.me.pgPoison := by rw [h]
  refine ⟨rfl, hc, hq, fun _ _ => rfl, fun _ _ => rfl, ⟨fun n _ => ?_, fun n => ?_, ?_⟩, hp, rfl, ?_⟩
  · unfold State.g Core.g Core.onPriv; rw [hq, hp, hpg, hs]
  · unfold Core.gPoisoned Core.onPriv; rw [hp, hpp, hs]; simp
  · rw [hm, hpg, hpp]; split <;> exact ⟨rfl, rfl⟩
  · rw [hm]

/-- A scalar register written besides. -/
theorem State.does.setG {s : State} {ds : List Nat} {r : State} {k : Core} {x : Seq} {u : State}
    (h : s.does ds r k x u) (n : Nat) (v : Word) : s.does (ds ++ [n]) r k x (u.setG n v) := by
  have hc := core_setG u n v
  have hcur := h.ucur
  have hcs := h.ucurSeq
  have hop := h.onPriv
  obtain ⟨a1, a2, a3, a4, a5, ⟨a6, a7, a8⟩, a9, b1, b2⟩ := h
  refine ⟨?_, a2, a3, fun m hm => ?_, fun q hq => ?_, ⟨fun m hm => ?_, fun m => ?_, ?_⟩, a9, ?_, ?_⟩
  · exact hc.1.trans (congrArg (fun z : State => { z with cores := (u.setG n v).cores }) a1)
  · rw [hc.2 m (by rw [hcur]; exact hm)]; exact a4 m hm
  · rw [me_setG, Core.setG_seq, if_neg (by rw [hcs]; exact hq)]; exact a5 q hq
  · simp only [List.mem_append, List.mem_singleton, not_or] at hm
    rw [g_setG]; split
    · subst_vars; exact (g_zero s).symm
    · rw [if_neg hm.2, a6 m hm.1]
  · rw [me_setG, hcs, Core.gPoisoned_setG, a7 m]; by_cases e : m = n <;> simp [e]
  · have := Core.setG_bank u.me u.curSeq n v
    unfold State.mySeq at a8 ⊢
    rw [hop, hcs] at this
    rw [hcs] at a8
    rw [me_setG, hc.curSeq, hcs]
    split
    · rw [if_pos ‹_›] at this a8; exact ⟨this.1.trans a8.1, this.2.trans a8.2⟩
    · rw [if_neg ‹_›] at this a8; exact ⟨this.1.trans a8.1, this.2.trans a8.2⟩
  · rw [me_setG, Core.setG_eq]
    exact congrArg (fun z : Core => { z with
      l := (u.me.setG u.curSeq n v).l, x := (u.me.setG u.curSeq n v).x, s := (u.me.setG u.curSeq n v).s,
      c := (u.me.setG u.curSeq n v).c, pg := (u.me.setG u.curSeq n v).pg,
      pgPoison := (u.me.setG u.curSeq n v).pgPoison }) b1
  · unfold State.mySeq at b2 ⊢
    rw [me_setG, hc.curSeq, Core.setG_seq, if_pos rfl]
    exact congrArg (fun z : Seq => { z with
      g := ((u.me.setG u.curSeq n v).seq u.curSeq).g,
      gPoison := ((u.me.setG u.curSeq n v).seq u.curSeq).gPoison }) b2

theorem State.does.setPair {s : State} {ds : List Nat} {r : State} {k : Core} {x : Seq} {u : State}
    (h : s.does ds r k x u) (n : Nat) (v : DWord) : s.does (ds ++ [n, n + 1]) r k x (u.setPair n v) := by
  have := (h.setG n (v.extractLsb' 0 32)).setG (n + 1) (v.extractLsb' 32 32)
  rwa [List.append_assoc] at this

theorem State.does.setOpnd {s : State} {ds : List Nat} {r : State} {k : Core} {x : Seq} {u : State}
    (h : s.does ds r k x u) (w : Bool) (n v : Nat) : s.does (ds ++ dstAt w n) r k x (u.setOpnd w n v) := by
  cases w
  · exact h.setG n _
  · exact h.setPair n _

theorem seq_frame {p : Post} {x y z : Seq} (h : y = { x with g := y.g, gPoison := y.gPoison })
    (k : z = { seqAfter p y with sigq := z.sigq }) :
    z = { seqAfter p x with g := z.g, gPoison := z.gPoison, sigq := z.sigq } := by
  cases x; cases y; cases z
  cases p <;> simp only [seqAfter, Seq.branchTo, Seq.mk.injEq] at h k ⊢ <;> simp_all

/-- Retirement after such work. -/
theorem State.does.retire {s : State} {ds : List Nat} {r : State} {k : Core} {x : Seq} {u : State}
    (h : s.does ds r k x u) (c : Ctl) (p : Post) : s.retires c ds r k (seqAfter p x) (retire c p u) := by
  have hcur := h.ucur
  have hcs := h.ucurSeq
  have hop := h.onPriv
  obtain ⟨a1, a2, a3, a4, a5, ⟨a6, a7, a8⟩, a9, b1, b2⟩ := h
  have hc := retire_coreOnly c p u
  have hq : ∀ q, (Machine.retire c p u).me.seq q = if q = s.curSeq then
      { seqAfter p u.mySeq with sigq := (Machine.retire c p u).mySeq.sigq } else u.me.seq q := by
    intro q; rw [retire_seq, hcs]
  have hm := retire_mySeq c p u
  have hp : (Machine.retire c p u).me.priv = u.me.priv := by rw [retire_me]
  have hpg : (Machine.retire c p u).me.pg = u.me.pg := by rw [retire_me]
  have hpp : (Machine.retire c p u).me.pgPoison = u.me.pgPoison := by rw [retire_me]
  have ho : ∀ q, (Machine.retire c p u).me.onPriv q = u.me.onPriv q := by intro q; simp only [Core.onPriv, hp]
  have hsa : ∀ y : Seq, (seqAfter p y).g = y.g ∧ (seqAfter p y).gPoison = y.gPoison := by
    intro y; cases p <;> exact ⟨rfl, rfl⟩
  have hg : ∀ q, ((Machine.retire c p u).me.seq q).g = (u.me.seq q).g ∧
      ((Machine.retire c p u).me.seq q).gPoison = (u.me.seq q).gPoison := by
    intro q; rw [hq]; split
    · subst_vars; unfold State.mySeq; rw [hcs]; exact hsa _
    · exact ⟨rfl, rfl⟩
  refine ⟨?_, fun n hn => ?_, fun q hn => ?_, ⟨fun n hn => ?_, fun n => ?_, ?_⟩, ?_, ?_, ?_⟩
  · exact hc.1.trans (congrArg (fun z : State => { z with cores := (Machine.retire c p u).cores }) a1)
  · rw [hc.2 n (by rw [hcur]; exact hn)]; exact a4 n hn
  · rw [hq, if_neg hn]; exact a5 q hn
  · rw [← a6 n hn]
    unfold State.g Core.g
    rw [hc.curSeq, ho, hpg, (hg _).1]
  · rw [← a7 n]
    unfold Core.gPoisoned
    rw [ho, hpp, (hg _).2]
  · split at a8
    · rw [if_pos ‹_›]; rw [hm]; exact ⟨(hsa _).1.trans a8.1, (hsa _).2.trans a8.2⟩
    · rw [if_neg ‹_›, hpg, hpp]; exact a8
  · intro h1 h2
    obtain ⟨t1, t2, t3⟩ := retire_tokens p u h1 h2
    rw [t1, t2, t3]
    refine ⟨by rw [b1], by rw [b1], ?_⟩
    have e : ∀ y : Seq, (seqAfter p y).sigq = y.sigq := by intro y; cases p <;> rfl
    rw [e, b2]
  · rw [retire_me]
    exact congrArg (fun z : Core => { z with
      l := (Machine.retire c p u).me.l, x := (Machine.retire c p u).me.x, s := (Machine.retire c p u).me.s,
      c := (Machine.retire c p u).me.c, tokq := (Machine.retire c p u).me.tokq,
      event := (Machine.retire c p u).me.event }) b1
  · exact seq_frame b2 hm

/-- Scalar registers read the same after retirement. -/
theorem g_retire (c : Ctl) (p : Post) (u : State) (n : Nat) : (retire c p u).g n = u.g n := by
  have hp : (retire c p u).me.priv = u.me.priv := by rw [retire_me]
  unfold State.g Core.g Core.onPriv
  rw [(retire_coreOnly c p u).curSeq, hp]
  have hpg : (retire c p u).me.pg = u.me.pg := by rw [retire_me]
  have hg : ((retire c p u).me.seq u.curSeq).g = (u.me.seq u.curSeq).g := by
    rw [retire_seq, if_pos rfl]; cases p <;> rfl
  rw [hpg, hg]

/-- The scalar registers after a result, `u` reading them as `s` does. -/
theorem putsScalar_setOpnd (c : Ctl) (p : Post) (w : Bool) (rd v : Nat) {s u : State} (h : ∀ n, u.g n = s.g n) :
    s.putsScalar w rd v (retire c p (u.setOpnd w rd v)) := by
  intro n
  rw [g_retire]
  cases w
  · simp only [State.setOpnd, g_setG, Bool.false_eq_true, if_false, false_and, h]
  · simp only [State.setOpnd, State.setPair, if_true, g_setG, true_and, h]
    by_cases h0 : n = 0
    · simp [h0]
    by_cases h1 : n = rd
    · subst h1; simp only [h0, if_false, if_true, left_eq_add, Nat.one_ne_zero]
      apply BitVec.eq_of_toNat_eq; simp
    · by_cases h2 : n = rd + 1
      · subst h2; simp only [h0, h1, if_true, if_false]
        apply BitVec.eq_of_toNat_eq; simp [Nat.shiftRight_eq_div_pow]; omega
      · simp only [h0, h1, h2, if_false]

@[simp] theorem setOpnd_pair (s : State) (n : Nat) (v : DWord) : s.setOpnd true n v.toNat = s.setPair n v := by
  simp [State.setOpnd]

@[simp] theorem setOpnd_single (s : State) (n : Nat) (v : Word) : s.setOpnd false n v.toNat = s.setG n v := by
  simp [State.setOpnd]

/-- How an instruction completes: it can issue, its decode traps pass, its work succeeds. -/
theorem completes_of {i : Instr} {c : Ctl} {pre : Op Unit} {srcs : List Nat} {body : Op Post} {s u s' : State} {p : Post}
    {P : State → Prop} (he : exec i s = issue i c pre srcs body s) (h : Ready i c srcs s) (hp : pre s = .ok () u)
    (hb : body s = .ok p s') (hn : ∀ n, p ≠ .hold n) (hP : P (retire c p s')) : Completes i s P :=
  ⟨_, by rw [he]; exact issue_next h hp hb hn, hP⟩

/-- The same for an instruction without decode traps whose work is a change of the state. -/
theorem completes_simple {i : Instr} {c : Ctl} {srcs : List Nat} {s : State} {P : State → Prop} (f : State → State)
    (he : exec i s = issue i c noPre srcs (simple f) s) (h : Ready i c srcs s) (hP : P (retire c .next (f s))) :
    Completes i s P :=
  ⟨_, by rw [he]; exact issue_simple h, hP⟩

/-- What an instruction whose body sets one scalar result does. -/
theorem scalar_result {i : Instr} {c : Ctl} {srcs : List Nat} {s : State} (w : Bool) (rd : Nat) (v : State → Nat)
    (h : Ready i c srcs s) :
    ∃ t, issue i c noPre srcs (simple (fun s => s.setOpnd w rd (v s))) s = .next t ∧ s.scalarOnly c (dstAt w rd) t ∧
      s.putsScalar w rd (v s) t :=
  ⟨_, issue_simple h, ((does_refl s).setOpnd w rd (v s)).retire c .next, putsScalar_setOpnd c _ w rd (v s) (fun _ => rfl)⟩

end Sys2Proof.Machine
end

