-- ==== Sys2Proof/Laws/Arith.lean ====
section
/-! SUPPORT. The scalar operations on numbers are those of R305 on bit patterns. -/

namespace Sys2Proof.Machine

theorem sint_eq {n : Nat} (hn : 0 < n) (a : BitVec n) : sint n a.toNat = a.toInt := by
  unfold sint
  rw [BitVec.toInt_eq_toNat_cond]
  have hm : ((a.toNat : Int) % 2 ^ n) = a.toNat := by exact_mod_cast Nat.mod_eq_of_lt a.isLt
  rw [Nat.mod_eq_of_lt a.isLt, hm]
  have : 2 ^ n = 2 * 2 ^ (n - 1) := by conv_lhs => rw [show n = (n-1)+1 by omega, Nat.pow_succ, Nat.mul_comm]
  have hlt := a.isLt
  push_cast
  rw [show ((2:ℤ)^n) = 2 * 2^(n-1) by exact_mod_cast this]
  split <;> split <;> first | rfl | omega

theorem asInt_eq {n : Nat} (hn : 0 < n) (u : Bool) (a : BitVec n) :
    asInt u n a.toNat = if u then (a.toNat : Int) else a.toInt := by
  unfold asInt; split
  · rfl
  · exact sint_eq hn a

theorem uint_ofInt (n : Nat) (x : Int) : uint n x = (BitVec.ofInt n x).toNat := by
  unfold uint; rw [BitVec.toNat_ofInt]; rfl

/-- The result of a two-operand instruction as its meaning computes it (R305). -/
def opOf (i : Instr) (n a b : Nat) : Nat :=
  match i with
  | .add .. => opAdd n a b
  | .sub .. => opSub n a b
  | .and .. => Nat.land a b
  | .or .. => Nat.lor a b
  | .xor .. => Nat.xor a b
  | .shl .. => opShl n a b
  | .shr .. => opShr n a b
  | .sra .. => opSra n a b
  | .mul .. => opMul n a b
  | .mulh _ _ u .. => opMulh u n a b
  | .div _ _ u .. => opDiv u n a b
  | .rem _ _ u .. => opRem u n a b
  | .min _ _ u .. => opMin u n a b
  | .max _ _ u .. => opMax u n a b
  | _ => 0

theorem ext_toInt {n : Nat} (u : Bool) (a : BitVec n) :
   (if u then a.setWidth (2*n) else a.signExtend (2*n)) = BitVec.ofInt (2*n) (if u then (a.toNat:Int) else a.toInt) := by
  cases u
  · simp [BitVec.signExtend]
  · apply BitVec.eq_of_toNat_eq; simp

theorem op_eq {n : Nat} (hn : n = 32 ∨ n = 64) (i : Instr) (a b : BitVec n) (h : binFields i ≠ none) :
    opOf i n a.toNat b.toNat = (binWord i a b).toNat := by
  have hn0 : 0 < n := by omega
  cases i <;> simp [binFields] at h <;> simp only [opOf, binWord]
  case add => simp [opAdd]
  case sub => simp only [opSub, BitVec.toNat_sub]; congr 1; have := b.isLt; omega
  case and => exact (BitVec.toNat_and ..).symm
  case or => exact (BitVec.toNat_or ..).symm
  case xor => exact (BitVec.toNat_xor ..).symm
  case shl => simp [opShl, Nat.shiftLeft_eq]
  case shr => simp [opShr, Nat.shiftRight_eq_div_pow]
  case sra =>
    simp only [opSra, sint_eq hn0, uint_ofInt, BitVec.sshiftRight, Int.shiftRight_eq_div_pow]
    rw [Int.fdiv_eq_ediv_of_nonneg _ (by positivity)]; push_cast; rfl
  case mul => simp [opMul]
  case mulh u _ _ _ =>
    simp only [opMulh, asInt_eq hn0, uint_ofInt]
    have e : (if u = true then BitVec.setWidth (2 * n) a * BitVec.setWidth (2 * n) b
        else BitVec.signExtend (2 * n) a * BitVec.signExtend (2 * n) b) =
        BitVec.ofInt (2*n) ((if u then (a.toNat:Int) else a.toInt) * (if u then (b.toNat:Int) else b.toInt)) := by
      rw [BitVec.ofInt_mul, ← ext_toInt u a, ← ext_toInt u b]; cases u <;> simp
    rw [e]
    generalize ((if u then (a.toNat:Int) else a.toInt) * (if u then (b.toNat:Int) else b.toInt)) = z
    rw [Int.fdiv_eq_ediv_of_nonneg _ (by positivity)]
    simp only [BitVec.extractLsb'_toNat, BitVec.toNat_ofInt, Nat.shiftRight_eq_div_pow]
    have h2 : (2:Int)^(2*n) = 2^n * 2^n := by rw [two_mul, pow_add]
    have hp : (0:Int) < 2^n := by positivity
    zify
    rw [Int.toNat_of_nonneg (Int.emod_nonneg _ (by positivity)), Int.toNat_of_nonneg (Int.emod_nonneg _ (by positivity))]
    rw [h2]
    rw [← Int.emod_emod_of_dvd (z % (2^n*2^n) / 2^n) (dvd_refl _)]
    have : z / 2^n = z % (2^n*2^n) / 2^n + 2^n * (z / (2^n*2^n)) := by
      conv_lhs => rw [← Int.emod_add_mul_ediv z (2^n*2^n), mul_assoc, Int.add_mul_ediv_left _ _ (by positivity)]
    rw [this]; simp
  case div u _ _ _ => 
    simp only [opDiv, asInt_eq hn0, uint_ofInt]
    have hz : b.toNat = 0 ↔ b = 0 := ⟨fun h => BitVec.eq_of_toNat_eq (by simpa using h), fun h => by simp [h]⟩
    by_cases hb : b = 0
    · simp [hb, BitVec.toNat_allOnes]
    · rw [if_neg (by rw [hz]; exact hb), if_neg hb]
      cases u
      · rw [← uint_ofInt, uint_ofInt]; simp only [Bool.false_eq_true, if_false]
        congr 1; apply BitVec.eq_of_toInt_eq; rw [BitVec.toInt_sdiv, BitVec.toInt_ofInt]
      · simp only [if_true, BitVec.toNat_ofInt, BitVec.udiv_eq, BitVec.toNat_udiv]
        rw [Int.tdiv_eq_ediv_of_nonneg (by positivity)]
        have : a.toNat / b.toNat < 2^n := lt_of_le_of_lt (Nat.div_le_self _ _) a.isLt
        norm_cast; rw [Nat.mod_eq_of_lt this]
  case rem u _ _ _ => 
    simp only [opRem, asInt_eq hn0, uint_ofInt]
    have hz : b.toNat = 0 ↔ b = 0 := ⟨fun h => BitVec.eq_of_toNat_eq (by simpa using h), fun h => by simp [h]⟩
    by_cases hb : b = 0
    · simp [hb]
    · rw [if_neg (by rw [hz]; exact hb), if_neg hb]
      cases u
      · rw [← uint_ofInt, uint_ofInt]; simp only [Bool.false_eq_true, if_false]
        congr 1; apply BitVec.eq_of_toInt_eq; rw [← BitVec.toInt_srem, BitVec.ofInt_toInt]
      · simp only [if_true, BitVec.toNat_ofInt, BitVec.umod_eq, BitVec.toNat_umod]
        rw [Int.tmod_eq_emod_of_nonneg (by positivity)]
        have : a.toNat % b.toNat < 2^n := lt_of_le_of_lt (Nat.mod_le _ _) a.isLt
        norm_cast; rw [Nat.mod_eq_of_lt this]
  case min u _ _ _ =>
    simp only [opMin, asInt_eq hn0]
    cases u <;> simp [BitVec.slt, BitVec.ult] <;> split <;> rfl
  case max u _ _ _ =>
    simp only [opMax, asInt_eq hn0]
    cases u <;> simp [BitVec.slt, BitVec.ult] <;> split <;> rfl

end Sys2Proof.Machine
end

