-- ==== Sys2Proof/Laws/Run.lean ====
section
/-! SUPPORT. Running the steps of a meaning. -/

namespace Sys2Proof.Machine

variable {α β : Type}

@[simp] theorem run_pure (a : α) (s : State) : (pure a : Op α) s = .ok a s := rfl
@[simp] theorem run_get (s : State) : (get : Op State) s = .ok s s := rfl
@[simp] theorem run_set (t s : State) : (set t : Op Unit) s = .ok () t := rfl
@[simp] theorem run_modify (f : State → State) (s : State) : (modify f : Op Unit) s = .ok () (f s) := rfl
@[simp] theorem run_throwTrap (k v : Nat) (s : State) : (throwTrap k v : Op α) s = .error (.trap k v) s := rfl
@[simp] theorem run_throwWait (s : State) : (throwWait : Op α) s = .error (.wait false) s := rfl
@[simp] theorem run_draw (s : State) : draw s = .ok (Config.free s.draws) { s with draws := s.draws + 1 } := rfl

@[simp] theorem run_need (b : Bool) (k v : Nat) (s : State) :
    need b k v s = if b then .ok () s else .error (.trap k v) s := by
  unfold need; split <;> rfl

/-- A step that succeeds, and what comes after it. -/
theorem run_bind (m : Op α) (k : α → Op β) (s : State) :
    (m >>= k) s = match m s with | .ok a s' => k a s' | .error e s' => .error e s' := by
  show EStateM.bind m k s = _
  unfold EStateM.bind
  cases m s <;> rfl

theorem run_bind_ok {m : Op α} {k : α → Op β} {s s' : State} {a : α} (h : m s = .ok a s') : (m >>= k) s = k a s' := by
  rw [run_bind, h]

theorem run_bind_error {m : Op α} {k : α → Op β} {s s' : State} {e : Exc} (h : m s = .error e s') :
    (m >>= k) s = .error e s' := by
  rw [run_bind, h]

@[simp] theorem run_get_bind (k : State → Op β) (s : State) : (get >>= k) s = k s s := rfl
@[simp] theorem run_pure_bind (a : α) (k : α → Op β) (s : State) : ((pure a : Op α) >>= k) s = k a s := rfl
@[simp] theorem run_set_bind (t : State) (k : Unit → Op β) (s : State) : ((set t : Op Unit) >>= k) s = k () t := rfl
@[simp] theorem run_modify_bind (f : State → State) (k : Unit → Op β) (s : State) :
    ((modify f : Op Unit) >>= k) s = k () (f s) := rfl
@[simp] theorem run_need_bind (b : Bool) (c v : Nat) (k : Unit → Op β) (s : State) :
    (need b c v >>= k) s = if b then k () s else .error (.trap c v) s := by
  rw [run_bind, run_need]; cases b <;> rfl

@[simp] theorem run_forAll_nil (f : α → Op Unit) (s : State) : forAll [] f s = .ok () s := rfl
@[simp] theorem run_collect_nil (f : α → Op β) (s : State) : collect [] f s = .ok [] s := rfl

end Sys2Proof.Machine
end

