-- ==== Sys2Proof/Laws/Keep.lean ====
section
/-! SUPPORT. A property of the state that a meaning keeps, step by step of its monad. -/

namespace Sys2Proof.Machine

/-- `m` keeps `I`, whether it succeeds or stops. -/
def Keeps {α : Type} (I : State → Prop) (m : Op α) : Prop :=
  ∀ s, I s → (∀ a s', m s = .ok a s' → I s') ∧ (∀ e s', m s = .error e s' → I s')

variable {α β : Type} {I : State → Prop}

theorem keeps_pure (a : α) : Keeps I (pure a : Op α) := by
  intro s h
  exact ⟨fun _ _ e => by cases e; exact h, fun _ _ e => by cases e⟩

theorem keeps_throw (e : Exc) : Keeps I (throw e : Op α) := by
  intro s h
  exact ⟨fun _ _ e => (by cases e), fun _ _ e => by cases e; exact h⟩

theorem keeps_throwTrap (k v : Nat) : Keeps I (throwTrap k v : Op α) := keeps_throw _
theorem keeps_throwWait : Keeps I (throwWait : Op α) := keeps_throw _

theorem keeps_bind {m : Op α} {k : α → Op β} (hm : Keeps I m) (hk : ∀ a, Keeps I (k a)) : Keeps I (m >>= k) := by
  intro s h
  have hms := hm s h
  show (∀ a s', (EStateM.bind m k) s = .ok a s' → I s') ∧ (∀ e s', (EStateM.bind m k) s = .error e s' → I s')
  unfold EStateM.bind
  cases hr : m s with
  | ok a s1 =>
    have h1 := hms.1 a s1 hr
    exact ⟨fun b s' e => (hk a s1 h1).1 b s' e, fun x s' e => (hk a s1 h1).2 x s' e⟩
  | error x s1 =>
    refine ⟨fun b s' e => (by cases e), fun y s' e => ?_⟩
    cases e; exact hms.2 x s1 hr

theorem keeps_get : Keeps I (get : Op State) := by
  intro s h
  exact ⟨fun _ _ e => by cases e; exact h, fun _ _ e => by cases e⟩

/-- What is read has the property too. -/
theorem keeps_get_bind {k : State → Op β} (hk : ∀ s, I s → Keeps I (k s)) : Keeps I (get >>= k) := by
  intro s h
  exact hk s h s h

theorem keeps_modify {f : State → State} (hf : ∀ s, I s → I (f s)) : Keeps I (modify f : Op Unit) := by
  intro s h
  exact ⟨fun _ _ e => by cases e; exact hf s h, fun _ _ e => by cases e⟩

theorem keeps_set {t : State} (h : I t) : Keeps I (set t : Op Unit) := by
  intro s _
  exact ⟨fun _ _ e => by cases e; exact h, fun _ _ e => by cases e⟩

theorem keeps_need (b : Bool) (k v : Nat) : Keeps I (need b k v) := by
  unfold need; split
  · exact keeps_pure _
  · exact keeps_throwTrap k v

theorem keeps_forAll {l : List α} {f : α → Op Unit} (hf : ∀ a, Keeps I (f a)) : Keeps I (forAll l f) := by
  induction l with
  | nil => exact keeps_pure _
  | cons a t ih => exact keeps_bind (hf a) (fun _ => ih)

theorem keeps_collect {l : List α} {f : α → Op β} (hf : ∀ a, Keeps I (f a)) : Keeps I (collect l f) := by
  induction l with
  | nil => exact keeps_pure _
  | cons a t ih => exact keeps_bind (hf a) (fun _ => keeps_bind ih (fun _ => keeps_pure _))

end Sys2Proof.Machine
end

