-- ==== Sys2Proof/Laws/Xlate.lean ====
section
/-! SUPPORT. What a translation may change. -/

namespace Sys2Proof.Machine

theorem xlOnly_refl (s : State) : xlOnly s s := rfl

theorem xlOnly.trans {b s t : State} (h : xlOnly b s) (g : xlOnly s t) : xlOnly b t :=
  Eq.trans g (congrArg (fun z : State => { z with
    mem := t.mem, poison := t.poison, pubs := t.pubs, npub := t.npub, hostDirty := t.hostDirty, tlb := t.tlb, ats := t.ats,
    atsReqs := t.atsReqs, draws := t.draws }) h)

variable {b : State}

theorem logPubs_eq (g n : Nat) : ∀ s : State,
    s.logPubs g n = { s with pubs := (s.logPubs g n).pubs, npub := (s.logPubs g n).npub } := by
  induction n generalizing g with
  | zero => intro s; rfl
  | succ n ih => intro s; unfold State.logPubs; rw [ih]

theorem setPoison_eq (g n : Nat) (v : Bool) : ∀ s : State,
    s.setPoison g v n = { s with poison := (s.setPoison g v n).poison } := by
  induction n generalizing g with
  | zero => intro s; rfl
  | succ n ih => intro s; unfold State.setPoison; rw [ih]

theorem wr_eq (s : State) (a : Nat) (bs : List Byte) :
    s.wr a bs = { s with mem := (s.wr a bs).mem, hostDirty := (s.wr a bs).hostDirty } := rfl

/-- A publication changes memory, its poison, the publication events and what is still to be sent to the host. -/
theorem publish_eq (s : State) (a : Nat) (bs : List Byte) (p : Bool) :
    s.publish a bs p = { s with mem := (s.publish a bs p).mem, poison := (s.publish a bs p).poison,
                                pubs := (s.publish a bs p).pubs, npub := (s.publish a bs p).npub,
                                hostDirty := (s.publish a bs p).hostDirty } := by
  unfold State.publish
  dsimp only
  split
  · rfl
  · split <;> rw [setPoison_eq, wr_eq] <;> rw [logPubs_eq]

theorem xlOnly_publishN {s : State} (h : xlOnly b s) (a n v : Nat) : xlOnly b (s.publishN a n v) := by
  refine h.trans ?_
  unfold xlOnly State.publishN
  rw [publish_eq]

theorem keeps_hwRd (I : State → Prop) (a n : Nat) : Keeps I (hwRd a n) := by
  intro s h
  unfold hwRd
  split
  · exact ⟨fun _ _ e => by cases e; exact h, fun _ _ e => by cases e⟩
  · exact ⟨fun _ _ e => (by cases e), fun _ _ e => by cases e; exact h⟩

theorem xl_hwWr (a n v : Nat) : Keeps (xlOnly b) (hwWr a n v) := by
  intro s h
  unfold hwWr
  split
  · exact ⟨fun _ _ e => by cases e; exact xlOnly_publishN h a n v, fun _ _ e => by cases e⟩
  · exact ⟨fun _ _ e => (by cases e), fun _ _ e => by cases e; exact h⟩

theorem keeps_ctxEnt (I : State → Prop) (d ctx : Nat) : Keeps I (ctxEnt d ctx) := by
  unfold ctxEnt
  exact keeps_get_bind fun _ _ => keeps_bind (keeps_hwRd I _ _) fun _ => keeps_bind (keeps_hwRd I _ _) fun _ =>
    keeps_bind (keeps_hwRd I _ _) fun _ => keeps_bind (keeps_hwRd I _ _) fun _ => keeps_bind (keeps_hwRd I _ _) fun _ =>
    keeps_bind (keeps_hwRd I _ _) fun _ => keeps_bind (keeps_hwRd I _ _) fun _ => keeps_get_bind fun _ _ => keeps_pure _

theorem keeps_walk (I : State → Prop) (va : Nat) : ∀ n tbl, Keeps I (walk va n tbl) := by
  intro n
  induction n with
  | zero => intro tbl; exact keeps_pure _
  | succ n ih =>
    intro tbl
    unfold walk
    dsimp only
    repeat' (first
      | with_reducible exact keeps_pure _
      | with_reducible exact ih _
      | (with_reducible refine keeps_get_bind fun _ _ => ?_)
      | (with_reducible refine keeps_bind ?_ fun _ => ?_)
      | split)

theorem xl_markLeaf (at_ pte : Nat) (acc : Acc) : Keeps (xlOnly b) (markLeaf at_ pte acc) := by
  unfold markLeaf
  dsimp only
  repeat' (first
    | with_reducible exact keeps_pure _
    | with_reducible exact xl_hwWr _ _ _
    | (with_reducible refine keeps_bind ?_ fun _ => ?_)
    | split)

theorem keeps_draw {I : State → Prop} (h : ∀ s, I s → I { s with draws := s.draws + 1 }) : Keeps I draw := by
  intro s hs
  exact ⟨fun _ _ e => by cases e; exact h s hs, fun _ _ e => by cases e⟩

theorem xl_pick (n : Nat) : Keeps (xlOnly b) (pick n) := by
  unfold pick
  split
  · exact keeps_pure _
  · refine keeps_bind (keeps_draw fun s h => ?_) fun _ => keeps_pure _
    exact h.trans rfl

theorem xl_walkAndCache (agent ctx root : Nat) (priv : Bool) (acc : Acc) (va : Nat) :
    Keeps (xlOnly b) (walkAndCache agent ctx root priv acc va) := by
  unfold walkAndCache
  refine keeps_bind (keeps_walk _ _ _ _) fun w => ?_
  cases w with
  | notmap => exact keeps_pure _
  | poison => exact keeps_pure _
  | leaf at_ pte size =>
    dsimp only
    repeat' (first
      | with_reducible exact keeps_pure _
      | with_reducible exact xl_markLeaf _ _ _
      | (with_reducible refine keeps_modify fun s h => ?_); exact h.trans rfl
      | (with_reducible refine keeps_bind ?_ fun _ => ?_)
      | split)

theorem xl_useCached (e : TlbEnt) (priv : Bool) (acc : Acc) (va : Nat) :
    Keeps (xlOnly b) (useCached e priv acc va) := by
  unfold useCached
  dsimp only
  repeat' (first
    | with_reducible exact keeps_pure _
    | with_reducible exact xl_markLeaf _ _ _
    | with_reducible exact keeps_hwRd _ _ _
    | (with_reducible refine keeps_modify fun s h => ?_); exact h.trans rfl
    | (with_reducible refine keeps_bind ?_ fun _ => ?_)
    | split)

theorem xl_xlDevice (agent ctx : Nat) (c : CtxEnt) (priv : Bool) (acc : Acc) (va : Nat) :
    Keeps (xlOnly b) (xlDevice agent ctx c priv acc va) := by
  unfold xlDevice
  dsimp only
  repeat' (first
    | with_reducible exact keeps_pure _
    | with_reducible exact xl_walkAndCache _ _ _ _ _ _
    | with_reducible exact xl_useCached _ _ _ _
    | with_reducible exact xl_pick _
    | (with_reducible refine keeps_get_bind fun _ _ => ?_)
    | (with_reducible refine keeps_bind ?_ fun _ => ?_)
    | split)

theorem xl_askHost (die pasid page : Nat) (w p : Bool) : Keeps (xlOnly b) (askHost die pasid page w p) := by
  unfold askHost
  refine keeps_modify fun s h => ?_
  dsimp only
  split
  · exact h
  · exact h.trans rfl

theorem xl_xlHost (die : Nat) (c : CtxEnt) (acc : Acc) (va : Nat) : Keeps (xlOnly b) (xlHost die c acc va) := by
  unfold xlHost
  dsimp only
  repeat' (first
    | with_reducible exact keeps_pure _
    | with_reducible exact xl_askHost _ _ _ _ _
    | (with_reducible refine keeps_modify fun s h => ?_); exact h.trans rfl
    | (with_reducible refine keeps_get_bind fun _ _ => ?_)
    | (with_reducible refine keeps_bind ?_ fun _ => ?_)
    | split)

theorem xl_xlate (agent die ctx : Nat) (priv : Bool) (acc : Acc) (va : Nat) :
    Keeps (xlOnly b) (xlate agent die ctx priv acc va) := by
  unfold xlate
  repeat' (first
    | with_reducible exact keeps_pure _
    | with_reducible exact keeps_ctxEnt _ _ _
    | with_reducible exact xl_xlDevice _ _ _ _ _ _
    | with_reducible exact xl_xlHost _ _ _ _
    | (with_reducible refine keeps_get_bind fun _ _ => ?_)
    | (with_reducible refine keeps_bind ?_ fun _ => ?_)
    | split)

/-- What the translation of one address for the sequencer that runs may change. -/
theorem xl_seqXlate (acc : Acc) (va : Nat) : Keeps (xlOnly b) (seqXlate acc va) := by
  unfold seqXlate
  exact keeps_get_bind fun _ _ => xl_xlate _ _ _ _ _ _

theorem seqXlate_only {acc : Acc} {va : Nat} {s s' : State} {x : Xlat} (h : seqXlate acc va s = .ok x s') : xlOnly s s' :=
  (xl_seqXlate acc va s (xlOnly_refl s)).1 x s' h

end Sys2Proof.Machine
end

