-- ==== Sys2Proof/Laws/Load.lean ====
section
/-! SUPPORT. What a load of settled granules reads. -/

namespace Sys2Proof.Machine

theorem pubsOf_nil {g lb lb' : Nat} (h : lb ≤ lb') : ∀ (l : List Pub) (n : Nat), pubsOf g lb n l = [] →
    pubsOf g lb' n l = [] := by
  intro l
  induction l with
  | nil => intro n _; rfl
  | cons p t ih =>
    intro n e
    simp only [pubsOf] at e ⊢
    by_cases h1 : n ≤ lb'
    · rw [if_pos h1]
    · rw [if_neg h1]; rw [if_neg (by omega)] at e
      by_cases h2 : p.granule = g
      · rw [if_pos h2] at e; cases e
      · rw [if_neg h2] at e ⊢; exact ih _ e

/-- `s` with what core `c` has seen replaced. -/
def withSeen (c : Nat) (s : State) (m : Store Nat) : State := s.modCore c (fun k => { k with seen := m })

theorem pick_one : pick 1 = (pure 0 : Op Nat) := rfl

/-- A granule that has not been published since the last acquire has one value. -/
theorem granuleLoad_settled {c g : Nat} {s : State} (h : pubsOf g (s.core c).acq s.npub s.pubs = [])
    (h1 : s.heldBack c g = none) : ∃ m, granuleLoad c g s = .ok (BitVec.ofNat 64 (s.rd (8 * g) 8)) (withSeen c s m) := by
  have h2 := pubsOf_nil (Nat.le_max_left (s.core c).acq (Store.get 0 (s.core c).seen g)) _ _ h
  refine ⟨Store.set 0 (s.core c).seen g s.npub, ?_⟩
  unfold granuleLoad
  simp only [bind, EStateM.bind, get, getThe, MonadStateOf.get, EStateM.get, h1, h2, List.length_nil, Nat.zero_add, pick_one, pure,
    EStateM.pure, if_true, modify, modifyGet, MonadStateOf.modifyGet, EStateM.modifyGet]
  rfl

theorem withSeen_core (c n : Nat) (s : State) (m : Store Nat) :
    (withSeen c s m).core n = if n = c then { s.core c with seen := m } else s.core n := by
  unfold withSeen; simp

theorem withSeen_withSeen (c : Nat) (s : State) (m m' : Store Nat) (h : c = c) :
    ∃ t, withSeen c (withSeen c s m) m' = t ∧ (∀ n, t.core n = (withSeen c s m').core n) ∧
      t = { s with cores := t.cores } := by
  refine ⟨_, rfl, fun n => ?_, rfl⟩
  rw [withSeen_core, withSeen_core, withSeen_core, withSeen_core]
  split
  · subst_vars; simp
  · rfl

/-- The states that differ from `s` in what core `c` has seen. -/
def seenOnly (c : Nat) (s t : State) : Prop :=
  t = { s with cores := t.cores } ∧ (∀ n, n ≠ c → t.core n = s.core n) ∧
    t.core c = { s.core c with seen := (t.core c).seen }

theorem seenOnly_refl (c : Nat) (s : State) : seenOnly c s s := ⟨rfl, fun _ _ => rfl, rfl⟩

theorem seenOnly_step {c : Nat} {s t : State} (h : seenOnly c s t) (m : Store Nat) : seenOnly c s (withSeen c t m) := by
  obtain ⟨a, b, d⟩ := h
  refine ⟨?_, fun n hn => ?_, ?_⟩
  · exact congrArg (fun z : State => { z with cores := (withSeen c t m).cores }) a
  · rw [withSeen_core, if_neg hn, b n hn]
  · rw [withSeen_core, if_pos rfl]
    exact congrArg (fun z : Core => { z with seen := m }) d

theorem seenOnly.acq {c : Nat} {s t : State} (h : seenOnly c s t) : (t.core c).acq = (s.core c).acq := by rw [h.2.2]
theorem seenOnly.psb {c : Nat} {s t : State} (h : seenOnly c s t) : (t.core c).psb = (s.core c).psb := by rw [h.2.2]
theorem seenOnly.mem {c : Nat} {s t : State} (h : seenOnly c s t) : t.mem = s.mem := by rw [h.1]

theorem seenOnly.heldBack {c : Nat} {s t : State} (h : seenOnly c s t) (g : Nat) : t.heldBack c g = s.heldBack c g := by
  unfold State.heldBack State.openSteps State.die; rw [h.1]

theorem byte_of_mem {s t : State} (h : t.mem = s.mem) (a : Nat) : t.byte a = s.byte a := by unfold State.byte; rw [h]

theorem rd_of_mem {s t : State} (h : t.mem = s.mem) : ∀ n a, t.rd a n = s.rd a n := by
  intro n
  induction n with
  | zero => intro a; rfl
  | succ n ih => intro a; simp only [State.rd, byte_of_mem h, ih]

theorem collect_granules {c : Nat} {s : State} (f : Nat → Nat) : ∀ (l : List Nat) (t : State), seenOnly c s t →
    (∀ i ∈ l, pubsOf (f i) (s.core c).acq s.npub s.pubs = [] ∧ s.heldBack c (f i) = none) →
    ∃ u, seenOnly c s u ∧ collect l (fun i => granuleLoad c (f i)) t =
      .ok (l.map (fun i => BitVec.ofNat 64 (s.rd (8 * f i) 8))) u := by
  intro l
  induction l with
  | nil => intro t h _; exact ⟨t, h, rfl⟩
  | cons i l ih =>
    intro t h hp
    have hi : pubsOf (f i) (t.core c).acq t.npub t.pubs = [] := by
      rw [h.acq, h.1]; exact (hp i (List.mem_cons_self ..)).1
    have hb : t.heldBack c (f i) = none := by rw [h.heldBack]; exact (hp i (List.mem_cons_self ..)).2
    obtain ⟨m, hm⟩ := granuleLoad_settled hi hb
    obtain ⟨u, hu, hc⟩ := ih _ (seenOnly_step h m) (fun j hj => hp j (List.mem_cons_of_mem _ hj))
    refine ⟨u, hu, ?_⟩
    simp only [collect, bind, EStateM.bind, hm, hc, pure, EStateM.pure, List.map_cons, rd_of_mem h.mem]

/-- Byte j of the little-endian number. -/
theorem rd_byte (s : State) : ∀ n a j, j < n → s.rd a n / 256 ^ j % 256 = (s.byte (a + j)).toNat := by
  intro n
  induction n with
  | zero => intro a j h; omega
  | succ n ih =>
    intro a j h
    have hb := (s.byte a).isLt
    simp only [State.rd]
    cases j with
    | zero => simp; omega
    | succ j =>
      rw [Nat.pow_succ, Nat.mul_comm (256 ^ j), ← Nat.div_div_eq_div_mul]
      have : ((s.byte a).toNat + 256 * s.rd (a + 1) n) / 256 = s.rd (a + 1) n := by omega
      rw [this, ih (a + 1) j (by omega), Nat.add_assoc, Nat.add_comm 1 j]

theorem granule_byte (s : State) (x : Nat) :
    (BitVec.ofNat 64 (s.rd (8 * (x / 8)) 8)).extractLsb' (8 * (x % 8)) 8 = s.byte x := by
  have h := rd_byte s 8 (8 * (x / 8)) (x % 8) (Nat.mod_lt _ (by decide))
  apply BitVec.eq_of_toNat_eq
  simp only [BitVec.extractLsb'_toNat, BitVec.toNat_ofNat, Nat.shiftRight_eq_div_pow]
  rw [show 8 * (x / 8) + x % 8 = x by omega] at h
  rw [← h, show (256 : Nat) ^ (x % 8) = 2 ^ (8 * (x % 8)) by rw [Nat.pow_mul]]
  have hx : x % 8 < 8 := Nat.mod_lt _ (by decide)
  rw [Nat.mod_eq_of_lt (a := s.rd (8 * (x / 8)) 8)]
  have : ∀ n a, s.rd a n < 256 ^ n := by
    intro n
    induction n with
    | zero => intro a; simp [State.rd]
    | succ n ih =>
      intro a
      have := ih (a + 1); have hb := (s.byte a).isLt
      simp only [State.rd, Nat.pow_succ]; omega
  exact this 8 _

/-- A request for a line leaves its record, and nothing else. -/
theorem requestLine_only (s : State) (c pa : Nat) :
    s.requestLine c pa = { s with dies := (s.requestLine c pa).dies } ∧ s.linesOnly (s.requestLine c pa) := by
  unfold State.requestLine
  split
  · exact ⟨rfl, fun _ => rfl⟩
  · refine ⟨rfl, fun d => ?_⟩
    rw [die_modDie]
    split
    · subst_vars; rfl
    · rfl

/-- A line that a load reaches: its request, if it asks for it, and its place in the L1. -/
theorem loadLine_only (s : State) (c pa : Nat) :
    s.loadLine c pa = { s with cores := (s.loadLine c pa).cores, dies := (s.loadLine c pa).dies } ∧
    (∀ n, n ≠ c → (s.loadLine c pa).core n = s.core n) ∧ s.linesOnly (s.loadLine c pa) ∧
    (s.loadLine c pa).core c = { s.core c with l1 := ((s.loadLine c pa).core c).l1 } := by
  have key : ∀ r : State, r = { s with dies := r.dies } → s.linesOnly r →
      let t := r.modCore c (·.l1Fill (pa / 128))
      t = { s with cores := t.cores, dies := t.dies } ∧ (∀ n, n ≠ c → t.core n = s.core n) ∧ s.linesOnly t ∧
        t.core c = { s.core c with l1 := (t.core c).l1 } := by
    intro r h hl
    have hc : ∀ n, r.core n = s.core n := fun n => by unfold State.core; rw [h]
    refine ⟨congrArg (fun z : State => { z with cores := (r.modCore c (·.l1Fill (pa / 128))).cores }) h, fun n hn => ?_, hl, ?_⟩
    · rw [core_modCore, if_neg hn, hc]
    · rw [core_modCore, if_pos rfl, hc]; rfl
  unfold State.loadLine
  dsimp only
  split
  · exact key s rfl (fun _ => rfl)
  · exact key _ (requestLine_only s c pa).1 (requestLine_only s c pa).2

/-- What a core's load reads from settled granules: memory with the core's own buffered bytes over it. -/
theorem loadBytes_settled {s : State} {pa n : Nat} (h : s.settled pa n) :
    ∃ u, seenOnly s.cur s u ∧ loadBytes s.cur pa n s =
      .ok ((List.range n).map (fun j => s.sees (pa + j))) (u.loadLine s.cur pa) := by
  obtain ⟨u, hu, he⟩ := collect_granules (fun i => pa / 8 + i) (List.range ((pa % 8 + n + 7) / 8)) s (seenOnly_refl s.cur s)
    (fun i hi => h _ (by omega) (by have := List.mem_range.mp hi; omega))
  refine ⟨u, hu, ?_⟩
  obtain ⟨hw, -, -, hwc⟩ := loadLine_only u s.cur pa
  unfold loadBytes
  rw [run_bind_ok he, run_modify_bind, run_get_bind]
  refine congrArg (fun z => EStateM.Result.ok z _) (List.map_congr_left (fun i hi => ?_))
  have hi' := List.mem_range.mp hi
  have hpo : (u.loadLine s.cur pa).poison = s.poison := by rw [hw, hu.1]
  have hbuf : ((u.loadLine s.cur pa).core s.cur).buffered (pa + i) = s.me.buffered (pa + i) := by
    unfold Core.buffered; rw [hwc, hu.2.2]; rfl
  unfold State.sees Core.ownOver
  simp only [hbuf, hpo]
  cases s.me.buffered (pa + i) with
  | some p => rfl
  | none =>
    have hlen : (pa + i) / 8 - pa / 8 < (pa % 8 + n + 7) / 8 := by omega
    have hget : (List.map (fun i => BitVec.ofNat 64 (s.rd (8 * (pa / 8 + i)) 8)) (List.range ((pa % 8 + n + 7) / 8))).getD
        ((pa + i) / 8 - pa / 8) 0 = BitVec.ofNat 64 (s.rd (8 * ((pa + i) / 8)) 8) := by
      rw [List.getD_eq_getElem?_getD, List.getElem?_map, List.getElem?_range hlen]
      simp only [Option.map_some, Option.getD_some]
      congr 3; omega
    simp only [hget, granule_byte]

theorem effAddr_eq {n : Nat} (s : State) (bp : Nat) (off : BitVec n) : s.effAddr bp off = s.address bp off := by
  unfold State.effAddr State.address addrAdd sextNat uint
  rw [BitVec.toNat_add]
  congr 2

theorem uint_sint (k : Nat) (hk : 0 < k) (v : Nat) : uint 32 (sint k v) = ((BitVec.ofNat k v).signExtend 32).toNat := by
  unfold uint sint BitVec.signExtend
  rw [BitVec.toNat_ofInt]
  congr 2
  rw [BitVec.toInt_eq_toNat_cond, BitVec.toNat_ofNat]
  have : 2 ^ k = 2 * 2 ^ (k - 1) := by
    conv_lhs => rw [show k = (k - 1) + 1 by omega, Nat.pow_succ, Nat.mul_comm]
  split <;> split <;> first | omega | push_cast; rfl

/-- The result of a load as one write of a register or pair. -/
theorem putLoad_eq (w : State) (m : MemF) (sx : Bool) (v : Nat) :
    w.putLoad m sx v = w.setOpnd (m.sz == .b8) m.rd (extended m.sz sx v) := by
  unfold State.putLoad extended
  cases m.sz <;> simp [State.setOpnd]
  · cases sx <;> simp [uint_sint]
  · cases sx <;> simp [uint_sint]

/-- After a translation the core is as it was. -/
theorem xlOnly.me {s s1 : State} (h : xlOnly s s1) : s1.me = s.me := by
  have hcur : s1.cur = s.cur := by rw [h]
  have hcores : s1.cores = s.cores := by rw [h]
  unfold State.me State.core; rw [hcores, hcur]

theorem seenOnly.me {s u : State} (h : seenOnly s.cur s u) : u.me = { s.me with seen := u.me.seen } := by
  have hc : u.cur = s.cur := by rw [h.1]
  unfold State.me; rw [hc]; exact h.2.2

theorem modBlock_me (s : State) (f : Block → Block) :
    (s.modBlock s.cur f).me = { s.me with cur := s.me.cur.map f } := by
  unfold State.modBlock; exact me_modMe s _

theorem loadOnly_of {s w : State} (e : w = { s with cores := w.cores, dies := w.dies }) :
    w = { s with mem := w.mem, poison := w.poison, pubs := w.pubs, npub := w.npub, tlb := w.tlb, ats := w.ats,
                 atsReqs := w.atsReqs, draws := w.draws, cores := w.cores, dies := w.dies } := by
  generalize w.cores = y at e ⊢
  generalize w.dies = z at e ⊢
  subst e
  rfl

/-- A load from memory: what it reads, and what it leaves behind. -/
theorem loadVa_settled {s s1 : State} {a pa n : Nat} (hx : seqXlate .load a s = .ok (.ok pa) s1)
    (hs : s1.settled pa n) (hp : anyPoison ((List.range n).map (fun j => s1.sees (pa + j))) = false) :
    ∃ w, loadVa a n s = .ok (rbytesNat ((List.range n).map (fun j => s1.sees (pa + j)))) w ∧ s1.loadOnly w ∧
      w.mem = s1.mem ∧ s.does [] w w.me s.mySeq w := by
  have h1 := seqXlate_only hx
  have hcur : s1.cur = s.cur := by rw [h1]
  have hcs : s1.curSeq = s.curSeq := by rw [h1]
  obtain ⟨u, hu, hl⟩ := loadBytes_settled hs
  obtain ⟨hv, hvo, hvd, hvc⟩ := loadLine_only u s1.cur pa
  generalize u.loadLine s1.cur pa = v at *
  have hv1 : v = { s1 with cores := v.cores, dies := v.dies } :=
    hv.trans (congrArg (fun z : State => { z with cores := v.cores, dies := v.dies }) hu.1)
  have hvcur : v.cur = s1.cur := by rw [hv1]
  have hvq : v.curSeq = s1.curSeq := by rw [hv1]
  have hvm : v.me = { s1.me with seen := v.me.seen, l1 := v.me.l1 } := by
    have e : (v.core s1.cur) = { s1.core s1.cur with seen := (v.core s1.cur).seen, l1 := (v.core s1.cur).l1 } := by
      rw [hvc, hu.2.2]
    unfold State.me; rw [hvcur]; exact e
  have hvm' : v.me = { s.me with seen := v.me.seen, l1 := v.me.l1 } := by rw [h1.me] at hvm; exact hvm
  refine ⟨v.noteRead v.cur a n, ?_, ⟨?_, fun k hk => ?_, ?_, ?_⟩, ?_, ?_⟩
  · unfold loadVa
    rw [run_get_bind, run_bind_ok hx]
    dsimp only
    rw [← hcur, run_bind_ok hl, run_need_bind, hp]
    simp only [Bool.not_false, if_true, run_modify_bind, hvcur, run_pure]
  · exact loadOnly_of (congrArg (fun z : State => { z with cores := (v.noteRead v.cur a n).cores }) hv1)
  · unfold State.noteRead State.modBlock
    rw [core_modCore, if_neg (by rw [hvcur]; exact hk), hvo k hk, hu.2.1 k hk]
  · intro d
    have e := hvd d
    have e2 : u.die d = s1.die d := by unfold State.die; rw [hu.1]
    rw [e2] at e
    exact e
  · unfold State.noteRead; rw [modBlock_me, hvm]
  · show v.mem = _
    rw [hv1]
  · refine does_of (hvcur.trans hcur) (hvq.trans hcs) ?_
    unfold State.noteRead; rw [modBlock_me, hvm']

end Sys2Proof.Machine
end

