-- ==== Sys2Proof/Laws/Buffer.lean ====
section
/-! SUPPORT. What a store leaves in the phase store buffer. -/

namespace Sys2Proof.Machine

/-- The byte of a line at `x`, if it has one. -/
def PLine.at (x : Nat) (l : PLine) : Option PByte :=
  if l.pa == x / 128 * 128 then l.bytes.find? (fun b => b.off == x % 128) else none

theorem buffered_findSome (k : Core) (x : Nat) : k.buffered x = k.psb.findSome? (PLine.at x) := by
  unfold Core.buffered
  generalize k.psb = l
  induction l with
  | nil => rfl
  | cons e t ih =>
    simp only [List.find?_cons, List.findSome?_cons, PLine.at]
    by_cases h1 : (e.pa == x / 128 * 128) = true
    · rw [if_pos h1]
      simp only [h1, Bool.true_and]
      cases hf : e.bytes.find? (fun b => b.off == x % 128) with
      | none =>
        have : e.bytes.any (fun b => b.off == x % 128) = false := by
          rw [List.any_eq_false]; intro b hb; simpa using List.find?_eq_none.mp hf b hb
        simp only [this]; exact ih
      | some b =>
        have : e.bytes.any (fun b => b.off == x % 128) = true := by
          rw [List.any_eq_true]
          have := List.find?_some hf
          exact ⟨b, List.mem_of_find?_eq_some hf, this⟩
        simp only [this, hf]
    · rw [if_neg h1]
      simp only [h1, Bool.false_and]; exact ih

theorem findSome_nonempty (x : Nat) (l : List PLine) :
    (l.filter (fun l => !l.bytes.isEmpty)).findSome? (PLine.at x) = l.findSome? (PLine.at x) := by
  induction l with
  | nil => rfl
  | cons e t ih =>
    simp only [List.filter_cons, List.findSome?_cons]
    by_cases h : e.bytes.isEmpty = true
    · have : PLine.at x e = none := by
        unfold PLine.at; rw [List.isEmpty_iff.mp h]; simp
      simp only [h, this, ih, Bool.not_true, Bool.false_eq_true, if_false]
    · simp only [h, Bool.not_false, if_true, List.findSome?_cons, ih, Bool.not_eq_true] at *

/-- Reading the buffer after one byte has been put into it. -/
theorem buffered_bufferByte (k : Core) (ctx va pa x : Nat) (b : PByte) (h : b.off = pa % 128) :
    (k.bufferByte ctx va pa b).buffered x = if x = pa then some b else k.buffered x := by
  rw [buffered_findSome, buffered_findSome]
  unfold Core.bufferByte
  dsimp only
  rw [findSome_nonempty]
  -- the lines after any byte at the address has been dropped
  have hdrop : ∀ l : List PLine, (l.map (fun l => if l.pa == pa / 128 * 128 then
      { l with bytes := l.bytes.filter (fun y => y.off != b.off) } else l)).findSome? (PLine.at x) =
      if x = pa then none else l.findSome? (PLine.at x) := by
    intro l
    induction l with
    | nil => simp
    | cons e t ih =>
      simp only [List.map_cons, List.findSome?_cons, ih]
      have he : PLine.at x (if e.pa == pa / 128 * 128 then
          { e with bytes := e.bytes.filter (fun y => y.off != b.off) } else e) = if x = pa then none else PLine.at x e := by
        by_cases hx : x = pa
        · subst hx
          unfold PLine.at
          by_cases hp : (e.pa == x / 128 * 128) = true
          · simp only [hp, if_true, List.find?_filter, h]
            rw [List.find?_eq_none]; intro y _; simp
          · simp only [hp, if_true, if_false, Bool.false_eq_true]
        · rw [if_neg hx]
          unfold PLine.at
          by_cases hp : (e.pa == pa / 128 * 128) = true
          · simp only [hp, if_true, List.find?_filter]
            split
            · have hne : ¬ x % 128 = pa % 128 := by
                rename_i hq
                have h1 : e.pa = x / 128 * 128 := by simpa using hq
                have h2 : e.pa = pa / 128 * 128 := by simpa using hp
                omega
              congr 1; funext y
              by_cases hy : y.off = x % 128
              · rw [hy, h]; simp [hne]
              · simp [hy]
            · rfl
          · simp only [hp, if_false, Bool.false_eq_true]
      rw [he]
      by_cases hx : x = pa
      · simp [hx]
      · simp [hx]
  generalize hm : k.psb.map (fun l => if l.pa == pa / 128 * 128 then
      { l with bytes := l.bytes.filter (fun y => y.off != b.off) } else l) = lines
  have hl := hdrop k.psb
  rw [hm] at hl
  have hoff : ∀ e : PLine, e.pa = pa / 128 * 128 → PLine.at pa { e with bytes := b :: e.bytes } = some b := by
    intro e he; unfold PLine.at; simp [he, h]
  have hother : ∀ e : PLine, x ≠ pa → e.pa = pa / 128 * 128 → PLine.at x { e with bytes := b :: e.bytes } = PLine.at x e := by
    intro e hx he
    unfold PLine.at
    split
    · rename_i hq
      have h1 : e.pa = x / 128 * 128 := by simpa using hq
      have hne : ¬ b.off = x % 128 := by omega
      simp [hne]
    · rfl
  split
  · rename_i hany
    by_cases hx : x = pa
    · subst hx
      rw [if_pos rfl]
      rw [if_pos rfl] at hl
      clear hm hdrop
      induction lines with
      | nil => simp at hany
      | cons e t ih =>
        simp only [List.findSome?_cons] at hl
        have he0 : PLine.at x e = none := by
          cases he : PLine.at x e with
          | none => rfl
          | some _ => rw [he] at hl; cases hl
        rw [he0] at hl
        simp only [List.map_cons, List.findSome?_cons]
        by_cases hmine : (e.ctx == ctx && e.va == va / 128 * 128 && e.pa == x / 128 * 128) = true
        · rw [if_pos hmine]
          simp only [Bool.and_eq_true, beq_iff_eq] at hmine
          rw [hoff e hmine.2]
        · rw [if_neg hmine, he0]
          refine ih hl ?_
          simpa only [List.any_cons, hmine, Bool.false_or] using hany
    · rw [if_neg hx] at hl ⊢
      rw [← hl]
      clear hm hdrop hl hany
      induction lines with
      | nil => rfl
      | cons e t ih =>
        simp only [List.map_cons, List.findSome?_cons, ih]
        by_cases hmine : (e.ctx == ctx && e.va == va / 128 * 128 && e.pa == pa / 128 * 128) = true
        · rw [if_pos hmine]
          simp only [Bool.and_eq_true, beq_iff_eq] at hmine
          rw [hother e hx hmine.2]
        · rw [if_neg hmine]
  · rw [List.findSome?_append, hl]
    by_cases hx : x = pa
    · subst hx
      simp [PLine.at, h]
    · rw [if_neg hx, if_neg hx]
      have : PLine.at x (⟨ctx, va / 128 * 128, pa / 128 * 128, [b]⟩ : PLine) = none := by
        unfold PLine.at
        split
        · rename_i hq
          have h1 : pa / 128 * 128 = x / 128 * 128 := by simpa using hq
          have hne : ¬ b.off = x % 128 := by omega
          simp [hne]
        · rfl
      simp [this]

theorem bufferByte_eq (k : Core) (ctx va pa : Nat) (b : PByte) :
    k.bufferByte ctx va pa b = { k with psb := (k.bufferByte ctx va pa b).psb } := rfl

/-- The states that differ from `s` in the buffer of core `c`. -/
def psbOnly (c : Nat) (s t : State) : Prop :=
  t = { s with cores := t.cores } ∧ (∀ n, n ≠ c → t.core n = s.core n) ∧
    t.core c = { s.core c with psb := (t.core c).psb }

theorem psbOnly_refl (c : Nat) (s : State) : psbOnly c s s := ⟨rfl, fun _ _ => rfl, rfl⟩

theorem psbOnly_step {c : Nat} {s t : State} (h : psbOnly c s t) (ctx va pa : Nat) (b : PByte) :
    psbOnly c s (t.modCore c (fun k => k.bufferByte ctx va pa b)) := by
  obtain ⟨a1, a2, a3⟩ := h
  refine ⟨congrArg (fun z : State => { z with cores := (t.modCore c (fun k => k.bufferByte ctx va pa b)).cores }) a1,
    fun n hn => ?_, ?_⟩
  · rw [core_modCore, if_neg hn, a2 n hn]
  · rw [core_modCore, if_pos rfl]
    exact congrArg (fun z : Core => { z with psb := ((t.core c).bufferByte ctx va pa b).psb }) a3

theorem bufferAll_eq (q : SeqId) (ac ctx : Nat) (l : List Placed) : ∀ k : Core,
    k.bufferAll q ac ctx l = { k with psb := (k.bufferAll q ac ctx l).psb } := by
  induction l with
  | nil => intro k; rfl
  | cons e t ih => obtain ⟨va, pa, b⟩ := e; intro k; unfold Core.bufferAll; rw [ih, bufferByte_eq]

/-- Reading the buffer after bytes have been put into it: the last one put at an address. -/
theorem buffered_bufferAll (q : SeqId) (ac ctx x : Nat) (l : List Placed) : ∀ k : Core,
    (k.bufferAll q ac ctx l).buffered x = match l.reverse.find? (fun b => b.2.1 == x) with
      | some b => some ⟨x % 128, b.2.2.1, q, ac, b.2.2.2⟩
      | none => k.buffered x := by
  induction l with
  | nil => intro k; rfl
  | cons e t ih =>
    obtain ⟨va, pa, b⟩ := e
    intro k
    unfold Core.bufferAll
    rw [ih, List.reverse_cons, List.find?_append]
    cases t.reverse.find? (fun b => b.2.1 == x) with
    | some y => rfl
    | none =>
      simp only [Option.none_or, List.find?_cons, List.find?_nil]
      rw [buffered_bufferByte _ _ _ _ _ _ rfl]
      by_cases h : x = pa
      · subst h; simp
      · have : (pa == x) = false := by simpa using fun e => h e.symm
        simp [this, h]

/-- The byte that consecutive bytes from `pa` put at `x`. -/
theorem placeBytes_find (x : Nat) (bs : List RByte) : ∀ va pa,
    ((placeBytes va pa bs).reverse.find? (fun b => b.2.1 == x)).map (·.2.2) =
      if pa ≤ x ∧ x < pa + bs.length then some (bs.getD (x - pa) (0, false)) else none := by
  induction bs with
  | nil => intro va pa; rw [if_neg (by simp)]; rfl
  | cons b t ih =>
    intro va pa
    have h := ih (va + 1) (pa + 1)
    unfold placeBytes
    rw [List.reverse_cons, List.find?_append]
    by_cases hx : pa + 1 ≤ x ∧ x < pa + 1 + t.length
    · rw [if_pos hx] at h
      obtain ⟨y, hy, hv⟩ := Option.map_eq_some_iff.mp h
      rw [hy, if_pos ⟨by omega, by simp; omega⟩]
      obtain ⟨m, hm⟩ : ∃ m, x - pa = m + 1 := ⟨x - pa - 1, by omega⟩
      simp only [Option.some_or, Option.map_some, hv, hm, List.getD_cons_succ]
      congr 2; omega
    · rw [if_neg hx] at h
      rw [Option.map_eq_none_iff.mp h]
      simp only [Option.none_or, List.find?_cons, List.find?_nil]
      by_cases he : pa = x
      · subst he; simp
      · rw [if_neg (by simp; omega), beq_false_of_ne he]
        rfl

/-- A store of consecutive bytes: what the buffer holds after it. -/
theorem storeBytes_placed (s : State) (c : Nat) (q : SeqId) (ac ctx va pa : Nat) (bs : List RByte) :
    ∃ u, storeBytes c q ac ctx (placeBytes va pa bs) s = .ok () u ∧ psbOnly c s u ∧
      ∀ x, (u.core c).buffered x = if pa ≤ x ∧ x < pa + bs.length then
        some ⟨x % 128, (bs.getD (x - pa) (0, false)).1, q, ac, (bs.getD (x - pa) (0, false)).2⟩
        else (s.core c).buffered x := by
  refine ⟨_, rfl, ⟨rfl, fun n hn => ?_, ?_⟩, fun x => ?_⟩
  · rw [core_modCore, if_neg hn]
  · rw [core_modCore, if_pos rfl]; exact bufferAll_eq q ac ctx _ _
  · rw [core_modCore, if_pos rfl, buffered_bufferAll]
    have h := placeBytes_find x bs va pa
    by_cases hx : pa ≤ x ∧ x < pa + bs.length
    · rw [if_pos hx] at h ⊢
      obtain ⟨y, hy, hv⟩ := Option.map_eq_some_iff.mp h
      rw [hy, ← hv]
    · rw [if_neg hx] at h ⊢
      rw [Option.map_eq_none_iff.mp h]

end Sys2Proof.Machine
end

