-- ==== Sys2Proof/Laws/Encoding.lean ====
section
/-! SUPPORT. What the decoder reads from a word that the encoder has put together: the fields of every format. -/

namespace Sys2Proof

set_option linter.unusedTactic false
set_option linter.unreachableTactic false
set_option linter.unusedVariables false
set_option linter.unusedSectionVars false

theorem fld_low {x k r lo n : Nat} (h : lo + n ≤ k) : fld (x * 2 ^ k + r) lo n = fld r lo n := by
  obtain ⟨m, rfl⟩ := Nat.exists_eq_add_of_le h
  unfold fld
  have e : x * 2 ^ (lo + n + m) = 2 ^ lo * (2 ^ n * (x * 2 ^ m)) := by rw [Nat.pow_add, Nat.pow_add]; ring
  rw [e, Nat.mul_add_div (by positivity), Nat.mul_add_mod]

theorem fld_top {x k r n : Nat} (h : r < 2 ^ k) : fld (x * 2 ^ k + r) k n = x % 2 ^ n := by
  unfold fld
  rw [Nat.mul_comm, Nat.mul_add_div (by positivity), Nat.div_eq_of_lt h, Nat.add_zero]

theorem bit_eq_fld (w i : Nat) : bit w i = (fld w i 1 == 1) := by simp [bit, fld]

theorem b2n_lt (b : Bool) : b2n b < 2 := by cases b <;> decide
@[simp] theorem b2n_beq_one (b : Bool) : (b2n b == 1) = b := by cases b <;> rfl
@[simp] theorem b2n_true : b2n true = 1 := rfl
@[simp] theorem b2n_false : b2n false = 0 := rfl

theorem Ctl.bounds {c : Ctl} (h : c.ok = true) : c.wsel < 8 ∧ c.wcnt < 32 ∧ c.ssel < 8 ∧ c.scnt < 32 := by
  simp only [Ctl.ok, Bool.and_eq_true, Bool.or_eq_true, beq_iff_eq, decide_eq_true_eq] at h
  omega

theorem mkWord_op {c : Ctl} {op f : Nat} (ho : op < 256) (hf : f < 2 ^ 40) : fld (mkWord c op f) 40 8 = op := by
  have e : mkWord c op f =
      (c.wsel * 2 ^ 21 + c.wcnt * 2 ^ 16 + c.ssel * 2 ^ 13 + c.scnt * 2 ^ 8 + op) * 2 ^ 40 + f := by
    simp only [mkWord]; ring
  rw [e, fld_top hf]
  omega

theorem mkWord_body {c : Ctl} {op f : Nat} (hf : f < 2 ^ 40) : fld (mkWord c op f) 0 40 = f := by
  have e : mkWord c op f =
      (c.wsel * 2 ^ 21 + c.wcnt * 2 ^ 16 + c.ssel * 2 ^ 13 + c.scnt * 2 ^ 8 + op) * 2 ^ 40 + f := by
    simp only [mkWord]; ring
  rw [e, fld_low (by decide), fld, Nat.pow_zero, Nat.div_one, Nat.mod_eq_of_lt hf]

theorem mkWord_ctl {c : Ctl} {op f : Nat} (hc : c.ok = true) (ho : op < 256) (hf : f < 2 ^ 40) :
    decodeCtl (mkWord c op f) = c := by
  obtain ⟨h1, h2, h3, h4⟩ := Ctl.bounds hc
  have e : mkWord c op f / 2 ^ 48 = c.wsel * 2 ^ 13 + c.wcnt * 2 ^ 8 + c.ssel * 2 ^ 5 + c.scnt := by
    simp only [mkWord]; omega
  have g : ∀ lo n, fld (mkWord c op f) (48 + lo) n = fld (mkWord c op f / 2 ^ 48) lo n := by
    intro lo n; simp only [fld, Nat.pow_add, Nat.div_div_eq_div_mul]
  have g1 : fld (mkWord c op f) 61 3 = c.wsel := by rw [g 13 3, e]; simp only [fld]; omega
  have g2 : fld (mkWord c op f) 56 5 = c.wcnt := by rw [g 8 5, e]; simp only [fld]; omega
  have g3 : fld (mkWord c op f) 53 3 = c.ssel := by rw [g 5 3, e]; simp only [fld]; omega
  have g4 : fld (mkWord c op f) 48 5 = c.scnt := by rw [g 0 5, e]; simp only [fld]; omega
  rw [decodeCtl, g1, g2, g3, g4]

theorem mkWord_lt {c : Ctl} {op f : Nat} (hc : c.ok = true) (ho : op < 256) (hf : f < 2 ^ 40) :
    mkWord c op f < 2 ^ 64 := by
  obtain ⟨h1, h2, h3, h4⟩ := Ctl.bounds hc
  simp only [mkWord]; omega

/-- Decoding a word from its parts. -/
theorem decode_mkWord {c : Ctl} {op f : Nat} (hc : c.ok = true) (ho : op < 256) (hf : f < 2 ^ 40)
    (hk : (opClass op).isSome = true) {i : Instr} (hb : decodeBody c op f = some i) :
    decode (mkWord c op f) = .ok i := by
  rw [decode, mkWord_op ho hf, mkWord_body hf, mkWord_ctl hc ho hf, hb]
  cases h : opClass op with
  | none => simp [h] at hk
  | some _ => rfl

/-! Codes of the small enumerations. -/

theorem condOf_code (k : Cond) : condOf k.code = some k := by cases k <;> rfl
theorem rmOf_code (k : Rm) : rmOf k.code = some k := by cases k <;> rfl
theorem tyOf_code (k : Ty) : tyOf k.code = some k := by cases k <;> rfl
theorem mszOf_code (k : MSize) : mszOf k.code = k := by cases k <;> rfl
theorem redOf_code (k : RedOp) : redOf k.code = some k := by cases k <;> rfl
theorem Cond.code_lt (k : Cond) : k.code < 7 := by cases k <;> decide
theorem Rm.code_lt (k : Rm) : k.code < 6 := by cases k <;> decide
theorem Ty.code_lt (k : Ty) : k.code < 12 := by cases k <;> decide
theorem MSize.code_lt (k : MSize) : k.code < 4 := by cases k <;> decide
theorem RedOp.code_lt (k : RedOp) : k.code < 3 := by cases k <;> decide
theorem AmaxSet.code_lt (k : AmaxSet) : k.code < 3 := by cases k <;> decide

/-! Format R. -/

section R
variable {d a b r fn : Nat}
theorem fmtR_lt (hd : d < 64) (ha : a < 64) (hb : b < 64) (hr : r < 64) (hf : fn < 65536) :
    fmtR d a b r fn < 2 ^ 40 := by simp only [fmtR]; omega
theorem fmtR_rd (hd : d < 64) (ha : a < 64) (hb : b < 64) (hr : r < 64) (hf : fn < 65536) :
    fld (fmtR d a b r fn) 34 6 = d := by simp only [fld, fmtR]; omega
theorem fmtR_ra (ha : a < 64) (hb : b < 64) (hr : r < 64) (hf : fn < 65536) :
    fld (fmtR d a b r fn) 28 6 = a := by simp only [fld, fmtR]; omega
theorem fmtR_rb (hb : b < 64) (hr : r < 64) (hf : fn < 65536) :
    fld (fmtR d a b r fn) 22 6 = b := by simp only [fld, fmtR]; omega
theorem fmtR_rc (hr : r < 64) (hf : fn < 65536) : fld (fmtR d a b r fn) 16 6 = r := by simp only [fld, fmtR]; omega
theorem fmtR_fn {lo n : Nat} (h : lo + n ≤ 16) : fld (fmtR d a b r fn) lo n = fld fn lo n := by
  have : fmtR d a b r fn = (d * 2 ^ 18 + a * 2 ^ 12 + b * 2 ^ 6 + r) * 2 ^ 16 + fn := by simp only [fmtR]; ring
  rw [this, fld_low h]
end R

theorem fnW_lt (w u : Bool) : fnW w u < 65536 := by cases w <;> cases u <;> decide

/-! Format I. -/

section I
variable {d a m i : Nat}
theorem fmtI_lt (hd : d < 64) (ha : a < 64) (hm : m < 16) (hi : i < 2 ^ 24) : fmtI d a m i < 2 ^ 40 := by
  simp only [fmtI]; omega
theorem fmtI_rd (hd : d < 64) (ha : a < 64) (hm : m < 16) (hi : i < 2 ^ 24) : fld (fmtI d a m i) 34 6 = d := by
  simp only [fld, fmtI]; omega
theorem fmtI_rd4 (hd : d < 16) (ha : a < 64) (hm : m < 16) (hi : i < 2 ^ 24) : fld (fmtI d a m i) 34 4 = d := by
  simp only [fld, fmtI]; omega
theorem fmtI_top (hd : d < 16) (ha : a < 64) (hm : m < 16) (hi : i < 2 ^ 24) : fld (fmtI d a m i) 38 2 = 0 := by
  simp only [fld, fmtI]; omega
theorem fmtI_ra (ha : a < 64) (hm : m < 16) (hi : i < 2 ^ 24) : fld (fmtI d a m i) 28 6 = a := by
  simp only [fld, fmtI]; omega
theorem fmtI_md (hm : m < 16) (hi : i < 2 ^ 24) : fld (fmtI d a m i) 24 4 = m := by simp only [fld, fmtI]; omega
theorem fmtI_imm {lo n : Nat} (h : lo + n ≤ 24) : fld (fmtI d a m i) lo n = fld i lo n := by
  have : fmtI d a m i = (d * 2 ^ 10 + a * 2 ^ 4 + m) * 2 ^ 24 + i := by simp only [fmtI]; ring
  rw [this, fld_low h]
end I

/-! Format M. -/

section M
variable {d b s a o : Nat}
theorem fmtM_lt (hd : d < 64) (hb : b < 32) (hs : s < 4) (ha : a < 8) (ho : o < 2 ^ 24) : fmtM d b s a o < 2 ^ 40 := by
  simp only [fmtM]; omega
theorem fmtM_rd (hd : d < 64) (hb : b < 32) (hs : s < 4) (ha : a < 8) (ho : o < 2 ^ 24) :
    fld (fmtM d b s a o) 34 6 = d := by simp only [fld, fmtM]; omega
theorem fmtM_bp (hb : b < 32) (hs : s < 4) (ha : a < 8) (ho : o < 2 ^ 24) : fld (fmtM d b s a o) 29 5 = b := by
  simp only [fld, fmtM]; omega
theorem fmtM_sz (hs : s < 4) (ha : a < 8) (ho : o < 2 ^ 24) : fld (fmtM d b s a o) 27 2 = s := by
  simp only [fld, fmtM]; omega
theorem fmtM_ac (ha : a < 8) (ho : o < 2 ^ 24) : fld (fmtM d b s a o) 24 3 = a := by simp only [fld, fmtM]; omega
theorem fmtM_off {lo n : Nat} (h : lo + n ≤ 24) : fld (fmtM d b s a o) lo n = fld o lo n := by
  have : fmtM d b s a o = (d * 2 ^ 10 + b * 2 ^ 5 + s * 2 ^ 3 + a) * 2 ^ 24 + o := by simp only [fmtM]; ring
  rw [this, fld_low h]
end M

/-- The offset field of an atomic (R109). -/
theorem atomOff_lt {sc z o : Nat} (hs : sc < 16) (hz : z < 2) (ho : o < 2 ^ 19) :
    sc * 2 ^ 20 + z * 2 ^ 19 + o < 2 ^ 24 := by omega
theorem atomOff_sc {sc z o : Nat} (hs : sc < 16) (hz : z < 2) (ho : o < 2 ^ 19) :
    fld (sc * 2 ^ 20 + z * 2 ^ 19 + o) 20 4 = sc := by simp only [fld]; omega
theorem atomOff_sr {sc z o : Nat} (hz : z < 2) (ho : o < 2 ^ 19) :
    fld (sc * 2 ^ 20 + z * 2 ^ 19 + o) 19 1 = z := by simp only [fld]; omega
theorem atomOff_off {sc z o : Nat} (ho : o < 2 ^ 19) :
    fld (sc * 2 ^ 20 + z * 2 ^ 19 + o) 0 19 = o := by simp only [fld]; omega

/-! Format B. -/

section B
variable {c k o : Nat}
theorem fmtB_lt (hc : c < 64) (hk : k < 4) (ho : o < 2 ^ 32) : fmtB c k o < 2 ^ 40 := by simp only [fmtB]; omega
theorem fmtB_cr (hc : c < 64) (hk : k < 4) (ho : o < 2 ^ 32) : fld (fmtB c k o) 34 6 = c := by
  simp only [fld, fmtB]; omega
theorem fmtB_kind (hk : k < 4) (ho : o < 2 ^ 32) : fld (fmtB c k o) 32 2 = k := by simp only [fld, fmtB]; omega
theorem fmtB_off (ho : o < 2 ^ 32) : fld (fmtB c k o) 0 32 = o := by simp only [fld, fmtB]; omega
end B

/-! Format V. -/

section V
variable {vd va vb vc pr ty fn : Nat} {rd ra rb rc rp : Bool}
theorem fmtV_lt (h1 : vd < 32) (h2 : va < 32) (h3 : vb < 32) (h4 : vc < 32) (h5 : pr < 16) (h6 : ty < 16)
    (h7 : fn < 128) : fmtV vd va vb vc pr rd ra rb rc rp ty fn < 2 ^ 40 := by
  have g1 := b2n_lt rd; have g2 := b2n_lt ra; have g3 := b2n_lt rb; have g4 := b2n_lt rc; have g5 := b2n_lt rp
  simp only [fmtV]; omega
theorem fmtV_split : fmtV vd va vb vc pr rd ra rb rc rp ty fn =
    (vd * 2 ^ 19 + va * 2 ^ 14 + vb * 2 ^ 9 + vc * 2 ^ 4 + pr) * 2 ^ 16 +
      (b2n rd * 2 ^ 15 + b2n ra * 2 ^ 14 + b2n rb * 2 ^ 13 + b2n rc * 2 ^ 12 + b2n rp * 2 ^ 11 + ty * 2 ^ 7 + fn) := by
  simp only [fmtV]; ring
theorem fmtV_lowLt (h6 : ty < 16) (h7 : fn < 128) :
    b2n rd * 2 ^ 15 + b2n ra * 2 ^ 14 + b2n rb * 2 ^ 13 + b2n rc * 2 ^ 12 + b2n rp * 2 ^ 11 + ty * 2 ^ 7 + fn < 2 ^ 16 := by
  have g1 := b2n_lt rd; have g2 := b2n_lt ra; have g3 := b2n_lt rb; have g4 := b2n_lt rc; have g5 := b2n_lt rp
  omega
theorem fmtV_high {lo n : Nat} (h6 : ty < 16) (h7 : fn < 128) :
    fld (fmtV vd va vb vc pr rd ra rb rc rp ty fn) (16 + lo) n =
      fld (vd * 2 ^ 19 + va * 2 ^ 14 + vb * 2 ^ 9 + vc * 2 ^ 4 + pr) lo n := by
  have hl : b2n rd * 2 ^ 15 + b2n ra * 2 ^ 14 + b2n rb * 2 ^ 13 + b2n rc * 2 ^ 12 + b2n rp * 2 ^ 11 + ty * 2 ^ 7 + fn
      < 2 ^ 16 := fmtV_lowLt h6 h7
  rw [fmtV_split]
  simp only [fld, Nat.pow_add]
  rw [← Nat.div_div_eq_div_mul, Nat.mul_comm _ (2 ^ 16), Nat.mul_add_div (by positivity), Nat.div_eq_of_lt hl, Nat.add_zero]
theorem fmtV_low {lo n : Nat} (h : lo + n ≤ 16) : fld (fmtV vd va vb vc pr rd ra rb rc rp ty fn) lo n =
    fld (b2n rd * 2 ^ 15 + b2n ra * 2 ^ 14 + b2n rb * 2 ^ 13 + b2n rc * 2 ^ 12 + b2n rp * 2 ^ 11 + ty * 2 ^ 7 + fn) lo n := by
  rw [fmtV_split, fld_low h]
variable (h6 : ty < 16) (h7 : fn < 128)
include h6 h7
theorem fmtV_vd (h1 : vd < 32) (h2 : va < 32) (h3 : vb < 32) (h4 : vc < 32) (h5 : pr < 16) :
    fld (fmtV vd va vb vc pr rd ra rb rc rp ty fn) 35 5 = vd := by
  rw [show (35 : Nat) = 16 + 19 from rfl, fmtV_high h6 h7]; simp only [fld]; omega
theorem fmtV_vd4 (h1 : vd < 16) (h2 : va < 32) (h3 : vb < 32) (h4 : vc < 32) (h5 : pr < 16) :
    fld (fmtV vd va vb vc pr rd ra rb rc rp ty fn) 35 4 = vd := by
  rw [show (35 : Nat) = 16 + 19 from rfl, fmtV_high h6 h7]; simp only [fld]; omega
theorem fmtV_39 (h1 : vd < 16) (h2 : va < 32) (h3 : vb < 32) (h4 : vc < 32) (h5 : pr < 16) :
    fld (fmtV vd va vb vc pr rd ra rb rc rp ty fn) 39 1 = 0 := by
  rw [show (39 : Nat) = 16 + 23 from rfl, fmtV_high h6 h7]; simp only [fld]; omega
theorem fmtV_va (h2 : va < 32) (h3 : vb < 32) (h4 : vc < 32) (h5 : pr < 16) :
    fld (fmtV vd va vb vc pr rd ra rb rc rp ty fn) 30 5 = va := by
  rw [show (30 : Nat) = 16 + 14 from rfl, fmtV_high h6 h7]; simp only [fld]; omega
theorem fmtV_va4 (h2 : va < 16) (h3 : vb < 32) (h4 : vc < 32) (h5 : pr < 16) :
    fld (fmtV vd va vb vc pr rd ra rb rc rp ty fn) 30 4 = va := by
  rw [show (30 : Nat) = 16 + 14 from rfl, fmtV_high h6 h7]; simp only [fld]; omega
theorem fmtV_34 (h2 : va < 16) (h3 : vb < 32) (h4 : vc < 32) (h5 : pr < 16) :
    fld (fmtV vd va vb vc pr rd ra rb rc rp ty fn) 34 1 = 0 := by
  rw [show (34 : Nat) = 16 + 18 from rfl, fmtV_high h6 h7]; simp only [fld]; omega
theorem fmtV_vb (h3 : vb < 32) (h4 : vc < 32) (h5 : pr < 16) :
    fld (fmtV vd va vb vc pr rd ra rb rc rp ty fn) 25 5 = vb := by
  rw [show (25 : Nat) = 16 + 9 from rfl, fmtV_high h6 h7]; simp only [fld]; omega
theorem fmtV_vb4 (h3 : vb < 16) (h4 : vc < 32) (h5 : pr < 16) :
    fld (fmtV vd va vb vc pr rd ra rb rc rp ty fn) 25 4 = vb := by
  rw [show (25 : Nat) = 16 + 9 from rfl, fmtV_high h6 h7]; simp only [fld]; omega
theorem fmtV_29 (h3 : vb < 16) (h4 : vc < 32) (h5 : pr < 16) :
    fld (fmtV vd va vb vc pr rd ra rb rc rp ty fn) 29 1 = 0 := by
  rw [show (29 : Nat) = 16 + 13 from rfl, fmtV_high h6 h7]; simp only [fld]; omega
theorem fmtV_24 (h4 : vc < 16) (h5 : pr < 16) :
    fld (fmtV vd va vb vc pr rd ra rb rc rp ty fn) 24 1 = 0 := by
  rw [show (24 : Nat) = 16 + 8 from rfl, fmtV_high h6 h7]; simp only [fld]; omega
theorem fmtV_vc (h4 : vc < 32) (h5 : pr < 16) :
    fld (fmtV vd va vb vc pr rd ra rb rc rp ty fn) 20 5 = vc := by
  rw [show (20 : Nat) = 16 + 4 from rfl, fmtV_high h6 h7]; simp only [fld]; omega
theorem fmtV_vc4 (h4 : vc < 16) (h5 : pr < 16) :
    fld (fmtV vd va vb vc pr rd ra rb rc rp ty fn) 20 4 = vc := by
  rw [show (20 : Nat) = 16 + 4 from rfl, fmtV_high h6 h7]; simp only [fld]; omega
theorem fmtV_pr (h5 : pr < 16) : fld (fmtV vd va vb vc pr rd ra rb rc rp ty fn) 16 4 = pr := by
  rw [show (16 : Nat) = 16 + 0 from rfl, fmtV_high h6 h7]; simp only [fld]; omega
theorem fmtV_rd : fld (fmtV vd va vb vc pr rd ra rb rc rp ty fn) 15 1 = b2n rd := by
  have g1 := b2n_lt rd; have g2 := b2n_lt ra; have g3 := b2n_lt rb; have g4 := b2n_lt rc; have g5 := b2n_lt rp
  rw [fmtV_low (by decide)]; simp only [fld]; omega
theorem fmtV_ra : fld (fmtV vd va vb vc pr rd ra rb rc rp ty fn) 14 1 = b2n ra := by
  have g1 := b2n_lt rd; have g2 := b2n_lt ra; have g3 := b2n_lt rb; have g4 := b2n_lt rc; have g5 := b2n_lt rp
  rw [fmtV_low (by decide)]; simp only [fld]; omega
theorem fmtV_rb : fld (fmtV vd va vb vc pr rd ra rb rc rp ty fn) 13 1 = b2n rb := by
  have g1 := b2n_lt rd; have g2 := b2n_lt ra; have g3 := b2n_lt rb; have g4 := b2n_lt rc; have g5 := b2n_lt rp
  rw [fmtV_low (by decide)]; simp only [fld]; omega
theorem fmtV_rc : fld (fmtV vd va vb vc pr rd ra rb rc rp ty fn) 12 1 = b2n rc := by
  have g1 := b2n_lt rd; have g2 := b2n_lt ra; have g3 := b2n_lt rb; have g4 := b2n_lt rc; have g5 := b2n_lt rp
  rw [fmtV_low (by decide)]; simp only [fld]; omega
theorem fmtV_rp : fld (fmtV vd va vb vc pr rd ra rb rc rp ty fn) 11 1 = b2n rp := by
  have g1 := b2n_lt rd; have g2 := b2n_lt ra; have g3 := b2n_lt rb; have g4 := b2n_lt rc; have g5 := b2n_lt rp
  rw [fmtV_low (by decide)]; simp only [fld]; omega
theorem fmtV_ty : fld (fmtV vd va vb vc pr rd ra rb rc rp ty fn) 7 4 = ty := by
  have g1 := b2n_lt rd; have g2 := b2n_lt ra; have g3 := b2n_lt rb; have g4 := b2n_lt rc; have g5 := b2n_lt rp
  rw [fmtV_low (by decide)]; simp only [fld]; omega
theorem fmtV_12_3 (hc : rc = false) (hb : rb = false) (ha : ra = false) :
    fld (fmtV vd va vb vc pr rd ra rb rc rp ty fn) 12 3 = 0 := by
  have g1 := b2n_lt rd; have g5 := b2n_lt rp
  subst hc hb ha
  rw [fmtV_low (by decide)]; simp only [fld, b2n_false]; omega
theorem fmtV_12_2 (hc : rc = false) (hb : rb = false) :
    fld (fmtV vd va vb vc pr rd ra rb rc rp ty fn) 12 2 = 0 := by
  have g1 := b2n_lt rd; have g2 := b2n_lt ra; have g5 := b2n_lt rp
  subst hc hb
  rw [fmtV_low (by decide)]; simp only [fld, b2n_false]; omega
omit h6 h7
theorem fmtV_fn {lo n : Nat} (h : lo + n ≤ 7) : fld (fmtV vd va vb vc pr rd ra rb rc rp ty fn) lo n = fld fn lo n := by
  rw [fmtV_low (by omega)]
  have : b2n rd * 2 ^ 15 + b2n ra * 2 ^ 14 + b2n rb * 2 ^ 13 + b2n rc * 2 ^ 12 + b2n rp * 2 ^ 11 + ty * 2 ^ 7 + fn =
      (b2n rd * 2 ^ 8 + b2n ra * 2 ^ 7 + b2n rb * 2 ^ 6 + b2n rc * 2 ^ 5 + b2n rp * 2 ^ 4 + ty) * 2 ^ 7 + fn := by ring
  rw [this, fld_low h]
end V

/-! Format X. -/

section X
variable {sa sb pn t rm fmt fn : Nat} {tx zc sat fo : Bool}
theorem fmtX_lt (h1 : sa < 16) (h2 : sb < 16) (h3 : pn < 8) (h4 : t < 64) (h5 : rm < 8) (h6 : fmt < 32) (h7 : fn < 512) :
    fmtX sa sb pn t tx zc sat rm fo fmt fn < 2 ^ 40 := by
  have g1 := b2n_lt tx; have g2 := b2n_lt zc; have g3 := b2n_lt sat; have g4 := b2n_lt fo
  simp only [fmtX]; omega
theorem fmtX_split : fmtX sa sb pn t tx zc sat rm fo fmt fn =
    (sa * 2 ^ 13 + sb * 2 ^ 9 + pn * 2 ^ 6 + t) * 2 ^ 23 +
      (b2n tx * 2 ^ 22 + b2n zc * 2 ^ 21 + b2n sat * 2 ^ 20 + rm * 2 ^ 17 + b2n fo * 2 ^ 14 + fmt * 2 ^ 9 + fn) := by
  simp only [fmtX]; ring
theorem fmtX_low {lo n : Nat} (h : lo + n ≤ 23) : fld (fmtX sa sb pn t tx zc sat rm fo fmt fn) lo n =
    fld (b2n tx * 2 ^ 22 + b2n zc * 2 ^ 21 + b2n sat * 2 ^ 20 + rm * 2 ^ 17 + b2n fo * 2 ^ 14 + fmt * 2 ^ 9 + fn) lo n := by
  rw [fmtX_split, fld_low h]
theorem fmtX_fn {lo n : Nat} (h : lo + n ≤ 9) : fld (fmtX sa sb pn t tx zc sat rm fo fmt fn) lo n = fld fn lo n := by
  rw [fmtX_low (by omega)]
  have : b2n tx * 2 ^ 22 + b2n zc * 2 ^ 21 + b2n sat * 2 ^ 20 + rm * 2 ^ 17 + b2n fo * 2 ^ 14 + fmt * 2 ^ 9 + fn =
      (b2n tx * 2 ^ 13 + b2n zc * 2 ^ 12 + b2n sat * 2 ^ 11 + rm * 2 ^ 8 + b2n fo * 2 ^ 5 + fmt) * 2 ^ 9 + fn := by ring
  rw [this, fld_low h]
variable (h5 : rm < 8) (h6 : fmt < 32) (h7 : fn < 512)
include h5 h6 h7
theorem fmtX_high {lo n : Nat} : fld (fmtX sa sb pn t tx zc sat rm fo fmt fn) (23 + lo) n =
    fld (sa * 2 ^ 13 + sb * 2 ^ 9 + pn * 2 ^ 6 + t) lo n := by
  have hl : b2n tx * 2 ^ 22 + b2n zc * 2 ^ 21 + b2n sat * 2 ^ 20 + rm * 2 ^ 17 + b2n fo * 2 ^ 14 + fmt * 2 ^ 9 + fn
      < 2 ^ 23 := by
    have g1 := b2n_lt tx; have g2 := b2n_lt zc; have g3 := b2n_lt sat; have g4 := b2n_lt fo
    omega
  rw [fmtX_split]
  simp only [fld, Nat.pow_add]
  rw [← Nat.div_div_eq_div_mul, Nat.mul_comm _ (2 ^ 23), Nat.mul_add_div (by positivity), Nat.div_eq_of_lt hl, Nat.add_zero]
theorem fmtX_sa (h1 : sa < 16) (h2 : sb < 16) (h3 : pn < 8) (h4 : t < 64) :
    fld (fmtX sa sb pn t tx zc sat rm fo fmt fn) 36 4 = sa := by
  rw [show (36 : Nat) = 23 + 13 from rfl, fmtX_high h5 h6 h7]; simp only [fld]; omega
theorem fmtX_sb (h2 : sb < 16) (h3 : pn < 8) (h4 : t < 64) :
    fld (fmtX sa sb pn t tx zc sat rm fo fmt fn) 32 4 = sb := by
  rw [show (32 : Nat) = 23 + 9 from rfl, fmtX_high h5 h6 h7]; simp only [fld]; omega
theorem fmtX_pn (h3 : pn < 8) (h4 : t < 64) : fld (fmtX sa sb pn t tx zc sat rm fo fmt fn) 29 3 = pn := by
  rw [show (29 : Nat) = 23 + 6 from rfl, fmtX_high h5 h6 h7]; simp only [fld]; omega
theorem fmtX_t (h4 : t < 64) : fld (fmtX sa sb pn t tx zc sat rm fo fmt fn) 23 6 = t := by
  rw [show (23 : Nat) = 23 + 0 from rfl, fmtX_high h5 h6 h7]; simp only [fld]; omega
theorem fmtX_23_9 (h3 : pn = 0) (h4 : t = 0) : fld (fmtX sa sb pn t tx zc sat rm fo fmt fn) 23 9 = 0 := by
  subst h3 h4
  rw [show (23 : Nat) = 23 + 0 from rfl, fmtX_high h5 h6 h7]; simp only [fld]; omega
theorem fmtX_tx : fld (fmtX sa sb pn t tx zc sat rm fo fmt fn) 22 1 = b2n tx := by
  have g1 := b2n_lt tx; have g2 := b2n_lt zc; have g3 := b2n_lt sat; have g4 := b2n_lt fo
  rw [fmtX_low (by decide)]; simp only [fld]; omega
theorem fmtX_zc : fld (fmtX sa sb pn t tx zc sat rm fo fmt fn) 21 1 = b2n zc := by
  have g1 := b2n_lt tx; have g2 := b2n_lt zc; have g3 := b2n_lt sat; have g4 := b2n_lt fo
  rw [fmtX_low (by decide)]; simp only [fld]; omega
theorem fmtX_sat : fld (fmtX sa sb pn t tx zc sat rm fo fmt fn) 20 1 = b2n sat := by
  have g1 := b2n_lt tx; have g2 := b2n_lt zc; have g3 := b2n_lt sat; have g4 := b2n_lt fo
  rw [fmtX_low (by decide)]; simp only [fld]; omega
theorem fmtX_rm : fld (fmtX sa sb pn t tx zc sat rm fo fmt fn) 17 3 = rm := by
  have g1 := b2n_lt tx; have g2 := b2n_lt zc; have g3 := b2n_lt sat; have g4 := b2n_lt fo
  rw [fmtX_low (by decide)]; simp only [fld]; omega
theorem fmtX_15 : fld (fmtX sa sb pn t tx zc sat rm fo fmt fn) 15 2 = 0 := by
  have g1 := b2n_lt tx; have g2 := b2n_lt zc; have g3 := b2n_lt sat; have g4 := b2n_lt fo
  rw [fmtX_low (by decide)]; simp only [fld]; omega
theorem fmtX_fo : fld (fmtX sa sb pn t tx zc sat rm fo fmt fn) 14 1 = b2n fo := by
  have g1 := b2n_lt tx; have g2 := b2n_lt zc; have g3 := b2n_lt sat; have g4 := b2n_lt fo
  rw [fmtX_low (by decide)]; simp only [fld]; omega
theorem fmtX_fmt : fld (fmtX sa sb pn t tx zc sat rm fo fmt fn) 9 5 = fmt := by
  have g1 := b2n_lt tx; have g2 := b2n_lt zc; have g3 := b2n_lt sat; have g4 := b2n_lt fo
  rw [fmtX_low (by decide)]; simp only [fld]; omega
end X

/-! Format E. -/

section E
variable {g k s b d fn : Nat} {q l : Bool}
theorem fmtE_lt (h1 : g < 16) (h2 : k < 4) (h3 : s < 16) (h4 : b < 256) (h5 : d < 64) (h6 : fn < 16384) :
    fmtE g k q l s b d fn < 2 ^ 40 := by
  have g1 := b2n_lt q; have g2 := b2n_lt l
  simp only [fmtE]; omega
theorem fmtE_grp (h1 : g < 16) (h2 : k < 4) (h3 : s < 16) (h4 : b < 256) (h5 : d < 64) (h6 : fn < 16384) :
    fld (fmtE g k q l s b d fn) 36 4 = g := by
  have g1 := b2n_lt q; have g2 := b2n_lt l
  simp only [fld, fmtE]; omega
theorem fmtE_ctr (h2 : k < 4) (h3 : s < 16) (h4 : b < 256) (h5 : d < 64) (h6 : fn < 16384) :
    fld (fmtE g k q l s b d fn) 34 2 = k := by
  have g1 := b2n_lt q; have g2 := b2n_lt l
  simp only [fld, fmtE]; omega
theorem fmtE_acq (h3 : s < 16) (h4 : b < 256) (h5 : d < 64) (h6 : fn < 16384) :
    fld (fmtE g k q l s b d fn) 33 1 = b2n q := by
  have g1 := b2n_lt q; have g2 := b2n_lt l
  simp only [fld, fmtE]; omega
theorem fmtE_rel (h3 : s < 16) (h4 : b < 256) (h5 : d < 64) (h6 : fn < 16384) :
    fld (fmtE g k q l s b d fn) 32 1 = b2n l := by
  have g1 := b2n_lt q; have g2 := b2n_lt l
  simp only [fld, fmtE]; omega
theorem fmtE_sc (h3 : s < 16) (h4 : b < 256) (h5 : d < 64) (h6 : fn < 16384) :
    fld (fmtE g k q l s b d fn) 28 4 = s := by simp only [fld, fmtE]; omega
theorem fmtE_28_6 (h4 : b < 256) (h5 : d < 64) (h6 : fn < 16384) :
    fld (fmtE g k false false 0 b d fn) 28 6 = 0 := by simp only [fld, fmtE, b2n_false]; omega
theorem fmtE_20_16 (h5 : d < 64) (h6 : fn < 16384) : fld (fmtE g 0 false false 0 0 d fn) 20 16 = 0 := by
  simp only [fld, fmtE, b2n_false]; omega
theorem fmtE_buf (h4 : b < 256) (h5 : d < 64) (h6 : fn < 16384) : fld (fmtE g k q l s b d fn) 20 8 = b := by
  simp only [fld, fmtE]; omega
theorem fmtE_rd (h5 : d < 64) (h6 : fn < 16384) : fld (fmtE g k q l s b d fn) 14 6 = d := by
  simp only [fld, fmtE]; omega
theorem fmtE_fn {lo n : Nat} (h : lo + n ≤ 14) : fld (fmtE g k q l s b d fn) lo n = fld fn lo n := by
  have : fmtE g k q l s b d fn = (g * 2 ^ 22 + k * 2 ^ 20 + b2n q * 2 ^ 19 + b2n l * 2 ^ 18 + s * 2 ^ 14 + b * 2 ^ 6 + d) *
      2 ^ 14 + fn := by simp only [fmtE]; ring
  rw [this, fld_low h]
end E

end Sys2Proof
end

