-- ==== Sys2Proof/Laws/Memory.lean ====
section
/-! SUPPORT. Memory: reading after a write, and that every memory operation keeps the canonical form. -/

namespace Sys2Proof.Machine

theorem memWf_iff (s : State) : s.memWf = true ↔ (Memory.wf s.mem = true ∧ Store.wf false s.poison = true ∧
    Memory.wf s.hostMem = true ∧ Store.wf false s.hostDirty = true) := by
  unfold State.memWf; simp only [Bool.and_eq_true, and_assoc]

theorem reset_memWf : State.reset.memWf = true := by decide

/-- Only memory, its poison, host memory and what is still to be sent there decide. -/
theorem memWf_congr {s t : State} (hm : t.mem = s.mem) (hp : t.poison = s.poison) (hh : t.hostMem = s.hostMem)
    (hd : t.hostDirty = s.hostDirty) (h : s.memWf = true) : t.memWf = true := by
  unfold State.memWf; rw [hm, hp, hh, hd]; exact h

/-! Reading after a write. -/

theorem byte_wr (s : State) (a : Nat) (bs : List Byte) (x : Nat) :
    (s.wr a bs).byte x = if a ≤ x ∧ x < a + bs.length then bs.getD (x - a) 0 else s.byte x :=
  Store.get_setMany memDefault bs s.mem a x

theorem byte_logPubs (g n : Nat) (s : State) (x : Nat) : (s.logPubs g n).byte x = s.byte x := by
  unfold State.byte; rw [logPubs_eq]

theorem byte_setPoison (g n : Nat) (v : Bool) (s : State) (x : Nat) : (s.setPoison g v n).byte x = s.byte x := by
  unfold State.byte; rw [setPoison_eq]

/-- A direct write puts its bytes and no other. -/
theorem byte_publish (s : State) (a : Nat) (bs : List Byte) (p : Bool) (x : Nat) :
    (s.publish a bs p).byte x = if a ≤ x ∧ x < a + bs.length then bs.getD (x - a) 0 else s.byte x := by
  unfold State.publish
  dsimp only
  split
  · next h => rw [if_neg (by omega)]
  · split <;> rw [byte_setPoison, byte_wr] <;> split <;> simp [byte_logPubs]

theorem length_bytesOf (n : Nat) : ∀ v, (bytesOf v n).length = n := by
  induction n with
  | zero => intro v; rfl
  | succ n ih => intro v; simp [bytesOf, ih]

theorem byte_publishN (s : State) (a n v x : Nat) :
    (s.publishN a n v).byte x = if a ≤ x ∧ x < a + n then (bytesOf v n).getD (x - a) 0 else s.byte x := by
  unfold State.publishN
  rw [byte_publish, length_bytesOf]

/-! The canonical form. -/

theorem memWf_wr {s : State} (h : s.memWf = true) (a : Nat) (bs : List Byte) : (s.wr a bs).memWf = true := by
  rw [memWf_iff] at h ⊢
  refine ⟨Store.wf_setMany memDefault bs s.mem a h.1, h.2.1, h.2.2.1, ?_⟩
  unfold State.wr; dsimp only
  split
  · exact Store.wf_setMany false _ _ _ h.2.2.2
  · exact h.2.2.2

theorem memWf_logPubs {s : State} (h : s.memWf = true) (g n : Nat) : (s.logPubs g n).memWf = true :=
  memWf_congr (by rw [logPubs_eq]) (by rw [logPubs_eq]) (by rw [logPubs_eq]) (by rw [logPubs_eq]) h

theorem memWf_setPoison (v : Bool) (n : Nat) : ∀ {s : State} (g : Nat), s.memWf = true → (s.setPoison g v n).memWf = true := by
  induction n with
  | zero => intro s g h; exact h
  | succ n ih =>
    intro s g h
    refine ih (g + 1) ?_
    rw [memWf_iff] at h ⊢
    exact ⟨h.1, Store.wf_set false s.poison g v h.2.1, h.2.2⟩

theorem memWf_publish {s : State} (h : s.memWf = true) (a : Nat) (bs : List Byte) (p : Bool) :
    (s.publish a bs p).memWf = true := by
  unfold State.publish
  dsimp only
  split
  · exact h
  · split <;> exact memWf_setPoison _ _ _ (memWf_wr (memWf_logPubs h _ _) _ _)

theorem memWf_publishN {s : State} (h : s.memWf = true) (a n v : Nat) : (s.publishN a n v).memWf = true :=
  memWf_publish h a _ _

theorem memWf_foldl {α : Type} {f : State → α → State} (hf : ∀ s x, s.memWf = true → (f s x).memWf = true) (l : List α) :
    ∀ {s : State}, s.memWf = true → (l.foldl f s).memWf = true := by
  induction l with
  | nil => intro s h; exact h
  | cons x l ih => intro s h; exact ih (hf s x h)

theorem memWf_publishGranule {s : State} (h : s.memWf = true) (g : Nat) (bs : List (Nat × RByte)) :
    (s.publishGranule g bs).memWf = true := by
  have hw := memWf_foldl (f := fun s (b : Nat × RByte) => s.wr (8 * g + b.1) [b.2.1]) (fun s _ hs => memWf_wr hs _ _) bs
    (memWf_logPubs h g 1)
  unfold State.publishGranule
  dsimp only
  split
  · exact memWf_setPoison _ _ _ hw
  · split
    · exact memWf_setPoison _ _ _ hw
    · exact hw

theorem memWf_publishBytes {s : State} (h : s.memWf = true) (a : Nat) (bs : List RByte) :
    (s.publishBytes a bs).memWf = true := by
  unfold State.publishBytes
  refine memWf_foldl (fun s i hs => ?_) _ h
  dsimp only
  split
  · exact hs
  · exact memWf_publishGranule hs _ _

theorem memWf_publishLine {s : State} (h : s.memWf = true) (pa : Nat) (l : PLine) : (s.publishLine pa l).memWf = true := by
  unfold State.publishLine
  refine memWf_foldl (fun s i hs => ?_) _ h
  dsimp only
  split
  · exact hs
  · exact memWf_publishGranule hs _ _

/-- What a hardware agent reads and writes, and every translation, keep the form. -/
theorem keeps_memWf_hwWr (a n v : Nat) : Keeps (fun s => s.memWf = true) (hwWr a n v) := by
  intro s h
  unfold hwWr
  split
  · exact ⟨fun _ _ e => by cases e; exact memWf_publishN h a n v, fun _ _ e => by cases e⟩
  · exact ⟨fun _ _ e => (by cases e), fun _ _ e => by cases e; exact h⟩

end Sys2Proof.Machine
end

