-- ==== Sys2Proof/Laws/Event.lean ====
section
/-! SUPPORT. What an event, a write of a control register and a resumed wait can do; entering a pending trap. -/

namespace Sys2Proof.Machine

/-- An event does its work, faults with it, or leaves the state but for what the hardware did for itself. -/
theorem event_cases (body : Op Unit) (s : State) :
    (∃ t, body s = .ok () t ∧ event body s = .next t) ∨
    (∃ f t, body s = .error (.fault f) t ∧ event body s = .fault f) ∨
    (∃ e t, body s = .error e t ∧ (∀ f, e ≠ .fault f) ∧ event body s = .next (errState s t)) := by
  unfold event
  rcases h : body s with ⟨a, t⟩ | ⟨e, t⟩
  · exact .inl ⟨t, rfl, rfl⟩
  · cases e with
    | fault f => exact .inr (.inl ⟨f, t, rfl, rfl⟩)
    | trap k v => exact .inr (.inr ⟨_, t, rfl, fun _ => by simp, rfl⟩)
    | wait n => exact .inr (.inr ⟨_, t, rfl, fun _ => by simp, rfl⟩)

@[simp] theorem event_modify (f : State → State) (s : State) : event (modify f) s = .next (f s) := rfl

@[simp] theorem ctlEvent_eq (f : State → State) (s : State) :
    ctlEvent f s = .next (if s.bootFailed then s else f s) := rfl

/-- A resumed wait runs its instruction as its sequencer, or nothing happens. -/
theorem reissue_cases (c : Nat) (q : SeqId) (ok : Waiting → Bool) (run : Instr → State → Out) (s : State) :
    (reissue c q ok run s = .next s) ∨
    (∃ w, ((s.core c).seq q).wait = some w ∧ ok w = true ∧ s.mayIssue c q = true ∧ (s.core c).dueA = none ∧
      reissue c q ok run s = run w.i { s with cur := c, curSeq := q }) := by
  unfold reissue
  split
  · exact .inl rfl
  · next w h =>
    split
    · next g =>
      simp only [Bool.and_eq_true, Option.isNone_iff_eq_none] at g
      exact .inr ⟨w, h, g.1.1, g.1.2, g.2, rfl⟩
    · exact .inl rfl

/-- A change of one die. -/
theorem modDie_onlyDie (s : State) (d : Nat) (f : Die → Die) : s.onlyDie d (f (s.die d)) (s.modDie d f) := by
  refine ⟨rfl, fun n h => ?_, ?_⟩
  · simp [State.die, State.modDie, State.setDie, h]
  · simp [State.die, State.modDie, State.setDie]

/-- A change of one core. -/
theorem modCore_onlyThat (s : State) (c : Nat) (f : Core → Core) : s.onlyThat c (f (s.core c)) (s.modCore c f) := by
  refine ⟨rfl, fun n h => ?_, ?_⟩
  · simp [State.core, State.modCore, State.setCore, h]
  · simp [State.core, State.modCore, State.setCore]

/-- The pending trap is entered once no transfer and no late access is left, and not before. -/
theorem tryEnter_cases (c : Nat) (s : State) :
    (((s.core c).trapping = none ∨ (s.core c).quiet = false) ∧ tryEnter c s = .next s) ∨
    (∃ r, (s.core c).trapping = some r ∧ (s.core c).quiet = true ∧ tryEnter c s = event (enterTrap c r) s) := by
  unfold tryEnter
  split
  · next h => exact .inl ⟨.inl h, rfl⟩
  · next r h =>
    split
    · next g => exact .inr ⟨r, h, g, rfl⟩
    · next g => exact .inl ⟨.inr (Bool.not_eq_true _ ▸ g), rfl⟩

end Sys2Proof.Machine
end

