-- ==== Sys2Proof/Laws/PerInstr.lean ====
section
/-! SUPPORT. Per instruction: the operand field of the word that the encoder writes for it reads back as the instruction
(R77 to R117). Family RoundTrip. -/

namespace Sys2Proof

/-! What the decoder does on each OP: its row of R104 to R117. -/

set_option linter.unusedSimpArgs false
set_option linter.unusedTactic false
set_option linter.unreachableTactic false
set_option linter.unusedVariables false
set_option Elab.async false

namespace Laws.Row

theorem nop (c : Ctl) (f : Nat) : decodeBody c 0x0 f = accept (f == 0) (.nop c) := rfl
theorem add (c : Ctl) (f : Nat) : decodeBody c 0x1 f = accept (fld f 1 15 == 0 && fld f 16 6 == 0) (.add c (bit
    f 0) (fld f 34 6) (fld f 28 6) (fld f 22 6)) := rfl
theorem sub (c : Ctl) (f : Nat) : decodeBody c 0x2 f = accept (fld f 1 15 == 0 && fld f 16 6 == 0) (.sub c (bit
    f 0) (fld f 34 6) (fld f 28 6) (fld f 22 6)) := rfl
theorem and (c : Ctl) (f : Nat) : decodeBody c 0x3 f = accept (fld f 1 15 == 0 && fld f 16 6 == 0) (.and c (bit
    f 0) (fld f 34 6) (fld f 28 6) (fld f 22 6)) := rfl
theorem or (c : Ctl) (f : Nat) : decodeBody c 0x4 f = accept (fld f 1 15 == 0 && fld f 16 6 == 0) (.or c (bit f
    0) (fld f 34 6) (fld f 28 6) (fld f 22 6)) := rfl
theorem xor (c : Ctl) (f : Nat) : decodeBody c 0x5 f = accept (fld f 1 15 == 0 && fld f 16 6 == 0) (.xor c (bit
    f 0) (fld f 34 6) (fld f 28 6) (fld f 22 6)) := rfl
theorem shl (c : Ctl) (f : Nat) : decodeBody c 0x6 f = accept (fld f 1 15 == 0 && fld f 16 6 == 0) (.shl c (bit
    f 0) (fld f 34 6) (fld f 28 6) (fld f 22 6)) := rfl
theorem shr (c : Ctl) (f : Nat) : decodeBody c 0x7 f = accept (fld f 1 15 == 0 && fld f 16 6 == 0) (.shr c (bit
    f 0) (fld f 34 6) (fld f 28 6) (fld f 22 6)) := rfl
theorem sra (c : Ctl) (f : Nat) : decodeBody c 0x8 f = accept (fld f 1 15 == 0 && fld f 16 6 == 0) (.sra c (bit
    f 0) (fld f 34 6) (fld f 28 6) (fld f 22 6)) := rfl
theorem mul (c : Ctl) (f : Nat) : decodeBody c 0x9 f = accept (fld f 1 15 == 0 && fld f 16 6 == 0) (.mul c (bit
    f 0) (fld f 34 6) (fld f 28 6) (fld f 22 6)) := rfl
theorem mulh (c : Ctl) (f : Nat) : decodeBody c 0xA f = accept (fld f 1 1 == 0 && fld f 3 13 == 0 && fld f 16 6
    == 0) (.mulh c (bit f 0) (bit f 2) (fld f 34 6) (fld f 28 6) (fld f 22 6)) := rfl
theorem div (c : Ctl) (f : Nat) : decodeBody c 0xB f = accept (fld f 1 1 == 0 && fld f 3 13 == 0 && fld f 16 6
    == 0) (.div c (bit f 0) (bit f 2) (fld f 34 6) (fld f 28 6) (fld f 22 6)) := rfl
theorem rem (c : Ctl) (f : Nat) : decodeBody c 0xC f = accept (fld f 1 1 == 0 && fld f 3 13 == 0 && fld f 16 6
    == 0) (.rem c (bit f 0) (bit f 2) (fld f 34 6) (fld f 28 6) (fld f 22 6)) := rfl
theorem min (c : Ctl) (f : Nat) : decodeBody c 0xD f = accept (fld f 1 1 == 0 && fld f 3 13 == 0 && fld f 16 6
    == 0) (.min c (bit f 0) (bit f 2) (fld f 34 6) (fld f 28 6) (fld f 22 6)) := rfl
theorem max (c : Ctl) (f : Nat) : decodeBody c 0xE f = accept (fld f 1 1 == 0 && fld f 3 13 == 0 && fld f 16 6
    == 0) (.max c (bit f 0) (bit f 2) (fld f 34 6) (fld f 28 6) (fld f 22 6)) := rfl
theorem cmp (c : Ctl) (f : Nat) {k : Cond} (h0 : condOf (fld f 3 3) = some k) : decodeBody c 0xF f = accept (fld
    f 1 1 == 0 && fld f 6 10 == 0 && fld f 16 6 == 0) (.cmp c (bit f 0) (bit f 2) k (fld f 34 6) (fld f 28 6) (fld f
    22 6)) := by
  show decodeScalar c 0xF f = _
  unfold decodeScalar
  rw [h0]
  rfl
theorem sel (c : Ctl) (f : Nat) : decodeBody c 0x10 f = accept (fld f 1 15 == 0) (.sel c (bit f 0) (fld f 34 6)
    (fld f 28 6) (fld f 22 6) (fld f 16 6)) := rfl
theorem clz (c : Ctl) (f : Nat) : decodeBody c 0x13 f = accept (fld f 1 15 == 0 && fld f 16 6 == 0 && fld f 22 6
    == 0) (.clz c (bit f 0) (fld f 34 6) (fld f 28 6)) := rfl
theorem popc (c : Ctl) (f : Nat) : decodeBody c 0x14 f = accept (fld f 1 15 == 0 && fld f 16 6 == 0 && fld f 22
    6 == 0) (.popc c (bit f 0) (fld f 34 6) (fld f 28 6)) := rfl
theorem movi (c : Ctl) (f : Nat) (h0 : fld f 24 4 = 0) : decodeBody c 0x11 f = accept (fld f 28 6 == 0) (.movi c
    (fld f 34 6) (BitVec.ofNat 24 (fld f 0 24))) := by
  show decodeScalar c 0x11 f = _
  unfold decodeScalar
  rw [h0]
  rfl
theorem moviHi (c : Ctl) (f : Nat) (h0 : fld f 24 4 = 1) : decodeBody c 0x11 f = accept (fld f 28 6 == 0 && fld
    f 16 8 == 0) (.moviHi c (fld f 34 6) (BitVec.ofNat 16 (fld f 0 16))) := by
  show decodeScalar c 0x11 f = _
  unfold decodeScalar
  rw [h0]
  rfl
theorem addi (c : Ctl) (f : Nat) : decodeBody c 0x12 f = accept (fld f 24 4 == 0) (.addi c (fld f 34 6) (fld f
    28 6) (BitVec.ofNat 24 (fld f 0 24))) := rfl
theorem addp (c : Ctl) (f : Nat) : decodeBody c 0x15 f = accept (fld f 24 4 == 0) (.addp c (fld f 34 6) (fld f
    28 6) (BitVec.ofNat 24 (fld f 0 24))) := rfl
theorem br (c : Ctl) (f : Nat) {t : BTarget} (h0 : decodeTarget f = some t) : decodeBody c 0x20 f = accept true
    (.br c t) := by
  show decodeBranch c 0x20 f = _
  unfold decodeBranch
  rw [h0]
  rfl
theorem bz (c : Ctl) (f : Nat) : decodeBody c 0x21 f = accept (fld f 32 2 == 0) (.bz c (fld f 34 6)
    (BitVec.ofNat 32 (fld f 0 32))) := rfl
theorem bnz (c : Ctl) (f : Nat) : decodeBody c 0x22 f = accept (fld f 32 2 == 0) (.bnz c (fld f 34 6)
    (BitVec.ofNat 32 (fld f 0 32))) := rfl
theorem call (c : Ctl) (f : Nat) {t : BTarget} (h0 : decodeTarget f = some t) : decodeBody c 0x23 f = accept
    true (.call c t) := by
  show decodeBranch c 0x23 f = _
  unfold decodeBranch
  rw [h0]
  rfl
theorem ret (c : Ctl) (f : Nat) : decodeBody c 0x24 f = accept (f == 0) (.ret c) := rfl
theorem loop (c : Ctl) (f : Nat) : decodeBody c 0x25 f = accept (fld f 32 2 == 0 && fld f 34 6 == 0) (.loop c
    (BitVec.ofNat 32 (fld f 0 32))) := rfl
theorem looph (c : Ctl) (f : Nat) : decodeBody c 0x26 f = accept (fld f 0 16 == 0) (.looph c (fld f 34 6) (fld f
    28 6) (fld f 22 6) (fld f 16 6)) := rfl
theorem loopt (c : Ctl) (f : Nat) : decodeBody c 0x27 f = accept (fld f 32 2 == 0) (.loopt c (fld f 34 6)
    (BitVec.ofNat 32 (fld f 0 32))) := rfl
theorem ld (c : Ctl) (f : Nat) : decodeBody c 0x30 f = accept true (.ld c ⟨mszOf (fld f 27 2), fld f 34 6, fld f
    29 5, fld f 24 3, BitVec.ofNat 24 (fld f 0 24)⟩) := rfl
theorem ldZeroExtending (c : Ctl) (f : Nat) : decodeBody c 0x31 f = accept true (.ldZeroExtending c ⟨mszOf (fld
    f 27 2), fld f 34 6, fld f 29 5, fld f 24 3, BitVec.ofNat 24 (fld f 0 24)⟩) := rfl
theorem st (c : Ctl) (f : Nat) : decodeBody c 0x32 f = accept true (.st c ⟨mszOf (fld f 27 2), fld f 34 6, fld f
    29 5, fld f 24 3, BitVec.ofNat 24 (fld f 0 24)⟩) := rfl
theorem aadd (c : Ctl) (f : Nat) : decodeBody c 0x33 f = accept (2 ≤ fld f 27 2 && fld f 19 1 == 0) (.aadd c
    ⟨fld f 27 2 == 3, fld f 34 6, fld f 29 5, fld f 24 3, fld f 20 4, BitVec.ofNat 19 (fld f 0 19)⟩) := rfl
theorem amin (c : Ctl) (f : Nat) : decodeBody c 0x34 f = accept (2 ≤ fld f 27 2 && fld f 19 1 == 0) (.amin c
    ⟨fld f 27 2 == 3, fld f 34 6, fld f 29 5, fld f 24 3, fld f 20 4, BitVec.ofNat 19 (fld f 0 19)⟩) := rfl
theorem aminUnsigned (c : Ctl) (f : Nat) : decodeBody c 0x35 f = accept (2 ≤ fld f 27 2 && fld f 19 1 == 0)
    (.aminUnsigned c ⟨fld f 27 2 == 3, fld f 34 6, fld f 29 5, fld f 24 3, fld f 20 4, BitVec.ofNat 19 (fld f 0
    19)⟩) := rfl
theorem amax (c : Ctl) (f : Nat) : decodeBody c 0x36 f = accept (2 ≤ fld f 27 2 && fld f 19 1 == 0) (.amax c
    ⟨fld f 27 2 == 3, fld f 34 6, fld f 29 5, fld f 24 3, fld f 20 4, BitVec.ofNat 19 (fld f 0 19)⟩) := rfl
theorem amaxUnsigned (c : Ctl) (f : Nat) : decodeBody c 0x37 f = accept (2 ≤ fld f 27 2 && fld f 19 1 == 0)
    (.amaxUnsigned c ⟨fld f 27 2 == 3, fld f 34 6, fld f 29 5, fld f 24 3, fld f 20 4, BitVec.ofNat 19 (fld f 0
    19)⟩) := rfl
theorem aand (c : Ctl) (f : Nat) : decodeBody c 0x38 f = accept (2 ≤ fld f 27 2 && fld f 19 1 == 0) (.aand c
    ⟨fld f 27 2 == 3, fld f 34 6, fld f 29 5, fld f 24 3, fld f 20 4, BitVec.ofNat 19 (fld f 0 19)⟩) := rfl
theorem aor (c : Ctl) (f : Nat) : decodeBody c 0x39 f = accept (2 ≤ fld f 27 2 && fld f 19 1 == 0) (.aor c ⟨fld
    f 27 2 == 3, fld f 34 6, fld f 29 5, fld f 24 3, fld f 20 4, BitVec.ofNat 19 (fld f 0 19)⟩) := rfl
theorem axchg (c : Ctl) (f : Nat) : decodeBody c 0x3A f = accept (2 ≤ fld f 27 2 && fld f 19 1 == 0) (.axchg c
    ⟨fld f 27 2 == 3, fld f 34 6, fld f 29 5, fld f 24 3, fld f 20 4, BitVec.ofNat 19 (fld f 0 19)⟩) := rfl
theorem acas (c : Ctl) (f : Nat) : decodeBody c 0x3B f = accept (2 ≤ fld f 27 2 && fld f 19 1 == 0) (.acas c
    ⟨fld f 27 2 == 3, fld f 34 6, fld f 29 5, fld f 24 3, fld f 20 4, BitVec.ofNat 19 (fld f 0 19)⟩) := rfl
theorem afadd (c : Ctl) (f : Nat) : decodeBody c 0x3C f = accept (fld f 27 2 == 1 || fld f 27 2 == 2) (.afadd c
    (fld f 27 2 == 1) (bit f 19) ⟨fld f 27 2 == 3, fld f 34 6, fld f 29 5, fld f 24 3, fld f 20 4, BitVec.ofNat 19
    (fld f 0 19)⟩) := rfl
theorem vadd (c : Ctl) (f : Nat) {ty : Ty} {rm : Rm} (h0 : tyOf (fld f 7 4) = some ty) (h1 : rmOf (fld f 0 3) =
    some rm) : decodeBody c 0x40 f = accept ((fld f 20 5 == 0 && fld f 12 1 == 0) && fld f 4 3 == 0) (.vadd c rm
    (bit f 3) ⟨ty, ⟨fld f 35 5, bit f 15⟩, ⟨fld f 30 5, bit f 14⟩, ⟨fld f 25 5, bit f 13⟩, ⟨fld f 16 4, bit f 11⟩⟩)
    := by
  show decodeVec c 0x40 f = _
  unfold decodeVec
  rw [h0, h1]
  rfl
theorem vsub (c : Ctl) (f : Nat) {ty : Ty} {rm : Rm} (h0 : tyOf (fld f 7 4) = some ty) (h1 : rmOf (fld f 0 3) =
    some rm) : decodeBody c 0x41 f = accept ((fld f 20 5 == 0 && fld f 12 1 == 0) && fld f 4 3 == 0) (.vsub c rm
    (bit f 3) ⟨ty, ⟨fld f 35 5, bit f 15⟩, ⟨fld f 30 5, bit f 14⟩, ⟨fld f 25 5, bit f 13⟩, ⟨fld f 16 4, bit f 11⟩⟩)
    := by
  show decodeVec c 0x41 f = _
  unfold decodeVec
  rw [h0, h1]
  rfl
theorem vmul (c : Ctl) (f : Nat) {ty : Ty} {rm : Rm} (h0 : tyOf (fld f 7 4) = some ty) (h1 : rmOf (fld f 0 3) =
    some rm) : decodeBody c 0x42 f = accept ((fld f 20 5 == 0 && fld f 12 1 == 0) && fld f 4 3 == 0) (.vmul c rm
    (bit f 3) ⟨ty, ⟨fld f 35 5, bit f 15⟩, ⟨fld f 30 5, bit f 14⟩, ⟨fld f 25 5, bit f 13⟩, ⟨fld f 16 4, bit f 11⟩⟩)
    := by
  show decodeVec c 0x42 f = _
  unfold decodeVec
  rw [h0, h1]
  rfl
theorem vfma (c : Ctl) (f : Nat) {ty : Ty} {rm : Rm} (h0 : tyOf (fld f 7 4) = some ty) (h1 : rmOf (fld f 0 3) =
    some rm) : decodeBody c 0x43 f = accept ((!(bit f 3)) && fld f 4 3 == 0) (.vfma c rm ⟨ty, ⟨fld f 35 5, bit f
    15⟩, ⟨fld f 30 5, bit f 14⟩, ⟨fld f 25 5, bit f 13⟩, ⟨fld f 16 4, bit f 11⟩⟩ ⟨fld f 20 5, bit f 12⟩) := by
  show decodeVec c 0x43 f = _
  unfold decodeVec
  rw [h0, h1]
  rfl
theorem vmin (c : Ctl) (f : Nat) {ty : Ty} (h0 : tyOf (fld f 7 4) = some ty) : decodeBody c 0x44 f = accept
    ((fld f 20 5 == 0 && fld f 12 1 == 0) && fld f 0 7 == 0) (.vmin c ⟨ty, ⟨fld f 35 5, bit f 15⟩, ⟨fld f 30 5, bit
    f 14⟩, ⟨fld f 25 5, bit f 13⟩, ⟨fld f 16 4, bit f 11⟩⟩) := by
  show decodeVec c 0x44 f = _
  unfold decodeVec
  rw [h0]
  rfl
theorem vmax (c : Ctl) (f : Nat) {ty : Ty} (h0 : tyOf (fld f 7 4) = some ty) : decodeBody c 0x45 f = accept
    ((fld f 20 5 == 0 && fld f 12 1 == 0) && fld f 0 7 == 0) (.vmax c ⟨ty, ⟨fld f 35 5, bit f 15⟩, ⟨fld f 30 5, bit
    f 14⟩, ⟨fld f 25 5, bit f 13⟩, ⟨fld f 16 4, bit f 11⟩⟩) := by
  show decodeVec c 0x45 f = _
  unfold decodeVec
  rw [h0]
  rfl
theorem vabs (c : Ctl) (f : Nat) {ty : Ty} {rm : Rm} (h0 : tyOf (fld f 7 4) = some ty) (h1 : rmOf (fld f 0 3) =
    some rm) : decodeBody c 0x46 f = accept (((fld f 20 5 == 0 && fld f 12 1 == 0) && fld f 25 5 == 0 && fld f 13 1
    == 0) && fld f 4 3 == 0) (.vabs c rm (bit f 3) ⟨ty, ⟨fld f 35 5, bit f 15⟩, ⟨fld f 30 5, bit f 14⟩, ⟨fld f 16 4,
    bit f 11⟩⟩) := by
  show decodeVec c 0x46 f = _
  unfold decodeVec
  rw [h0, h1]
  rfl
theorem vneg (c : Ctl) (f : Nat) {ty : Ty} {rm : Rm} (h0 : tyOf (fld f 7 4) = some ty) (h1 : rmOf (fld f 0 3) =
    some rm) : decodeBody c 0x47 f = accept (((fld f 20 5 == 0 && fld f 12 1 == 0) && fld f 25 5 == 0 && fld f 13 1
    == 0) && fld f 4 3 == 0) (.vneg c rm (bit f 3) ⟨ty, ⟨fld f 35 5, bit f 15⟩, ⟨fld f 30 5, bit f 14⟩, ⟨fld f 16 4,
    bit f 11⟩⟩) := by
  show decodeVec c 0x47 f = _
  unfold decodeVec
  rw [h0, h1]
  rfl
theorem vand (c : Ctl) (f : Nat) {ty : Ty} (h0 : tyOf (fld f 7 4) = some ty) : decodeBody c 0x48 f = accept
    ((fld f 20 5 == 0 && fld f 12 1 == 0) && fld f 0 7 == 0) (.vand c ⟨ty, ⟨fld f 35 5, bit f 15⟩, ⟨fld f 30 5, bit
    f 14⟩, ⟨fld f 25 5, bit f 13⟩, ⟨fld f 16 4, bit f 11⟩⟩) := by
  show decodeVec c 0x48 f = _
  unfold decodeVec
  rw [h0]
  rfl
theorem vor (c : Ctl) (f : Nat) {ty : Ty} (h0 : tyOf (fld f 7 4) = some ty) : decodeBody c 0x49 f = accept ((fld
    f 20 5 == 0 && fld f 12 1 == 0) && fld f 0 7 == 0) (.vor c ⟨ty, ⟨fld f 35 5, bit f 15⟩, ⟨fld f 30 5, bit f 14⟩,
    ⟨fld f 25 5, bit f 13⟩, ⟨fld f 16 4, bit f 11⟩⟩) := by
  show decodeVec c 0x49 f = _
  unfold decodeVec
  rw [h0]
  rfl
theorem vxor (c : Ctl) (f : Nat) {ty : Ty} (h0 : tyOf (fld f 7 4) = some ty) : decodeBody c 0x4A f = accept
    ((fld f 20 5 == 0 && fld f 12 1 == 0) && fld f 0 7 == 0) (.vxor c ⟨ty, ⟨fld f 35 5, bit f 15⟩, ⟨fld f 30 5, bit
    f 14⟩, ⟨fld f 25 5, bit f 13⟩, ⟨fld f 16 4, bit f 11⟩⟩) := by
  show decodeVec c 0x4A f = _
  unfold decodeVec
  rw [h0]
  rfl
theorem vshl (c : Ctl) (f : Nat) {ty : Ty} (h0 : tyOf (fld f 7 4) = some ty) : decodeBody c 0x4B f = accept
    ((fld f 20 5 == 0 && fld f 12 1 == 0) && fld f 0 7 == 0) (.vshl c ⟨ty, ⟨fld f 35 5, bit f 15⟩, ⟨fld f 30 5, bit
    f 14⟩, ⟨fld f 25 5, bit f 13⟩, ⟨fld f 16 4, bit f 11⟩⟩) := by
  show decodeVec c 0x4B f = _
  unfold decodeVec
  rw [h0]
  rfl
theorem vshr (c : Ctl) (f : Nat) {ty : Ty} (h0 : tyOf (fld f 7 4) = some ty) : decodeBody c 0x4C f = accept
    ((fld f 20 5 == 0 && fld f 12 1 == 0) && fld f 0 7 == 0) (.vshr c ⟨ty, ⟨fld f 35 5, bit f 15⟩, ⟨fld f 30 5, bit
    f 14⟩, ⟨fld f 25 5, bit f 13⟩, ⟨fld f 16 4, bit f 11⟩⟩) := by
  show decodeVec c 0x4C f = _
  unfold decodeVec
  rw [h0]
  rfl
theorem vsra (c : Ctl) (f : Nat) {ty : Ty} (h0 : tyOf (fld f 7 4) = some ty) : decodeBody c 0x4D f = accept
    ((fld f 20 5 == 0 && fld f 12 1 == 0) && fld f 0 7 == 0) (.vsra c ⟨ty, ⟨fld f 35 5, bit f 15⟩, ⟨fld f 30 5, bit
    f 14⟩, ⟨fld f 25 5, bit f 13⟩, ⟨fld f 16 4, bit f 11⟩⟩) := by
  show decodeVec c 0x4D f = _
  unfold decodeVec
  rw [h0]
  rfl
theorem vcmp (c : Ctl) (f : Nat) {ty : Ty} {k : Cond} (h0 : tyOf (fld f 7 4) = some ty) (h1 : condOf (fld f 0 3)
    = some k) : decodeBody c 0x4E f = accept ((fld f 20 5 == 0 && fld f 12 1 == 0) && fld f 3 4 == 0 && fld f 39 1
    == 0) (.vcmp c k ⟨ty, ⟨fld f 35 4, bit f 15⟩, ⟨fld f 30 5, bit f 14⟩, ⟨fld f 25 5, bit f 13⟩, ⟨fld f 16 4, bit f
    11⟩⟩) := by
  show decodeVec c 0x4E f = _
  unfold decodeVec
  rw [h0, h1]
  rfl
theorem vsel (c : Ctl) (f : Nat) {ty : Ty} (h0 : tyOf (fld f 7 4) = some ty) : decodeBody c 0x4F f = accept
    ((fld f 20 5 == 0 && fld f 12 1 == 0) && fld f 0 7 == 0) (.vsel c ⟨ty, ⟨fld f 35 5, bit f 15⟩, ⟨fld f 30 5, bit
    f 14⟩, ⟨fld f 25 5, bit f 13⟩, ⟨fld f 16 4, bit f 11⟩⟩) := by
  show decodeVec c 0x4F f = _
  unfold decodeVec
  rw [h0]
  rfl
theorem vcvt (c : Ctl) (f : Nat) {ty : Ty} {rm : Rm} {dst : Ty} (h0 : tyOf (fld f 7 4) = some ty) (h1 : rmOf
    (fld f 0 3) = some rm) (h2 : tyOf (fld f 3 4) = some dst) : decodeBody c 0x50 f = accept ((fld f 20 5 == 0 &&
    fld f 12 1 == 0) && fld f 25 5 == 0 && fld f 13 1 == 0) (.vcvt c dst rm ⟨ty, ⟨fld f 35 5, bit f 15⟩, ⟨fld f 30
    5, bit f 14⟩, ⟨fld f 16 4, bit f 11⟩⟩) := by
  show decodeVec c 0x50 f = _
  unfold decodeVec
  rw [h0, h1, h2]
  rfl
theorem vmov (c : Ctl) (f : Nat) {ty : Ty} (h0 : tyOf (fld f 7 4) = some ty) : decodeBody c 0x51 f = accept
    (((fld f 20 5 == 0 && fld f 12 1 == 0) && fld f 25 5 == 0 && fld f 13 1 == 0) && fld f 0 7 == 0) (.vmov c ⟨ty,
    ⟨fld f 35 5, bit f 15⟩, ⟨fld f 30 5, bit f 14⟩, ⟨fld f 16 4, bit f 11⟩⟩) := by
  show decodeVec c 0x51 f = _
  unfold decodeVec
  rw [h0]
  rfl
theorem vmovi (c : Ctl) (f : Nat) {ty : Ty} (h0 : tyOf (fld f 7 4) = some ty) : decodeBody c 0x52 f = accept
    (fld f 0 7 == 0) (.vmovi c ty (fld f 35 5) (BitVec.ofNat 24 (fld f 11 24))) := by
  show decodeVec c 0x52 f = _
  unfold decodeVec
  rw [h0]
  rfl
theorem vget (c : Ctl) (f : Nat) {ty : Ty} (h0 : tyOf (fld f 7 4) = some ty) : decodeBody c 0x53 f = accept (fld
    f 16 7 == 0 && fld f 11 4 == 0 && fld f 0 7 == 0) (.vget c ty (fld f 34 6) ⟨fld f 29 5, bit f 15⟩ (fld f 23 6))
    := by
  show decodeVec c 0x53 f = _
  unfold decodeVec
  rw [h0]
  rfl
theorem vput (c : Ctl) (f : Nat) {ty : Ty} (h0 : tyOf (fld f 7 4) = some ty) : decodeBody c 0x54 f = accept (fld
    f 16 7 == 0 && fld f 11 4 == 0 && fld f 0 7 == 0) (.vput c ty (fld f 34 6) ⟨fld f 29 5, bit f 15⟩ (fld f 23 6))
    := by
  show decodeVec c 0x54 f = _
  unfold decodeVec
  rw [h0]
  rfl
theorem vexp (c : Ctl) (f : Nat) {ty : Ty} (h0 : tyOf (fld f 7 4) = some ty) (hk : fld f 0 7 = 0) : decodeBody c
    0x55 f = accept ((fld f 20 5 == 0 && fld f 12 1 == 0) && fld f 25 5 == 0 && fld f 13 1 == 0) (.vexp c ⟨ty, ⟨fld
    f 35 5, bit f 15⟩, ⟨fld f 30 5, bit f 14⟩, ⟨fld f 16 4, bit f 11⟩⟩) := by
  show decodeVec c 0x55 f = _
  unfold decodeVec
  rw [h0, hk]
  rfl
theorem vlog (c : Ctl) (f : Nat) {ty : Ty} (h0 : tyOf (fld f 7 4) = some ty) (hk : fld f 0 7 = 1) : decodeBody c
    0x55 f = accept ((fld f 20 5 == 0 && fld f 12 1 == 0) && fld f 25 5 == 0 && fld f 13 1 == 0) (.vlog c ⟨ty, ⟨fld
    f 35 5, bit f 15⟩, ⟨fld f 30 5, bit f 14⟩, ⟨fld f 16 4, bit f 11⟩⟩) := by
  show decodeVec c 0x55 f = _
  unfold decodeVec
  rw [h0, hk]
  rfl
theorem vrcp (c : Ctl) (f : Nat) {ty : Ty} (h0 : tyOf (fld f 7 4) = some ty) (hk : fld f 0 7 = 2) : decodeBody c
    0x55 f = accept ((fld f 20 5 == 0 && fld f 12 1 == 0) && fld f 25 5 == 0 && fld f 13 1 == 0) (.vrcp c ⟨ty, ⟨fld
    f 35 5, bit f 15⟩, ⟨fld f 30 5, bit f 14⟩, ⟨fld f 16 4, bit f 11⟩⟩) := by
  show decodeVec c 0x55 f = _
  unfold decodeVec
  rw [h0, hk]
  rfl
theorem vrsq (c : Ctl) (f : Nat) {ty : Ty} (h0 : tyOf (fld f 7 4) = some ty) (hk : fld f 0 7 = 3) : decodeBody c
    0x55 f = accept ((fld f 20 5 == 0 && fld f 12 1 == 0) && fld f 25 5 == 0 && fld f 13 1 == 0) (.vrsq c ⟨ty, ⟨fld
    f 35 5, bit f 15⟩, ⟨fld f 30 5, bit f 14⟩, ⟨fld f 16 4, bit f 11⟩⟩) := by
  show decodeVec c 0x55 f = _
  unfold decodeVec
  rw [h0, hk]
  rfl
theorem vtanh (c : Ctl) (f : Nat) {ty : Ty} (h0 : tyOf (fld f 7 4) = some ty) (hk : fld f 0 7 = 4) : decodeBody
    c 0x55 f = accept ((fld f 20 5 == 0 && fld f 12 1 == 0) && fld f 25 5 == 0 && fld f 13 1 == 0) (.vtanh c ⟨ty,
    ⟨fld f 35 5, bit f 15⟩, ⟨fld f 30 5, bit f 14⟩, ⟨fld f 16 4, bit f 11⟩⟩) := by
  show decodeVec c 0x55 f = _
  unfold decodeVec
  rw [h0, hk]
  rfl
theorem verf (c : Ctl) (f : Nat) {ty : Ty} (h0 : tyOf (fld f 7 4) = some ty) (hk : fld f 0 7 = 5) : decodeBody c
    0x55 f = accept ((fld f 20 5 == 0 && fld f 12 1 == 0) && fld f 25 5 == 0 && fld f 13 1 == 0) (.verf c ⟨ty, ⟨fld
    f 35 5, bit f 15⟩, ⟨fld f 30 5, bit f 14⟩, ⟨fld f 16 4, bit f 11⟩⟩) := by
  show decodeVec c 0x55 f = _
  unfold decodeVec
  rw [h0, hk]
  rfl
theorem vrrot (c : Ctl) (f : Nat) {ty : Ty} (h0 : tyOf (fld f 7 4) = some ty) (hk : fld f 0 2 = 0) : decodeBody
    c 0x56 f = accept ((fld f 20 4 == 0 && fld f 12 2 == 0 && fld f 4 3 == 0) && fld f 2 2 == 0) (.vrrot c (fld f 24
    6) ⟨ty, ⟨fld f 35 5, bit f 15⟩, ⟨fld f 30 5, bit f 14⟩, ⟨fld f 16 4, bit f 11⟩⟩) := by
  show decodeAxis c 0x56 f = _
  unfold decodeAxis
  rw [h0, hk]
  rfl
theorem vrbc (c : Ctl) (f : Nat) {ty : Ty} (h0 : tyOf (fld f 7 4) = some ty) (hk : fld f 0 2 = 1) : decodeBody c
    0x56 f = accept ((fld f 20 4 == 0 && fld f 12 2 == 0 && fld f 4 3 == 0) && fld f 2 2 == 0) (.vrbc c (fld f 24 6)
    ⟨ty, ⟨fld f 35 5, bit f 15⟩, ⟨fld f 30 5, bit f 14⟩, ⟨fld f 16 4, bit f 11⟩⟩) := by
  show decodeAxis c 0x56 f = _
  unfold decodeAxis
  rw [h0, hk]
  rfl
theorem vrred (c : Ctl) (f : Nat) {ty : Ty} {k : RedOp} (h0 : tyOf (fld f 7 4) = some ty) (h1 : redOf (fld f 2
    2) = some k) (hk : fld f 0 2 = 2) : decodeBody c 0x56 f = accept ((fld f 20 4 == 0 && fld f 12 2 == 0 && fld f 4
    3 == 0) && fld f 24 6 == 0) (.vrred c k ⟨ty, ⟨fld f 35 5, bit f 15⟩, ⟨fld f 30 5, bit f 14⟩, ⟨fld f 16 4, bit f
    11⟩⟩) := by
  show decodeAxis c 0x56 f = _
  unfold decodeAxis
  rw [h0, h1, hk]
  rfl
theorem vcrot (c : Ctl) (f : Nat) {ty : Ty} (h0 : tyOf (fld f 7 4) = some ty) (hk : fld f 0 2 = 0) : decodeBody
    c 0x57 f = accept ((fld f 20 4 == 0 && fld f 12 2 == 0 && fld f 4 3 == 0) && fld f 2 2 == 0) (.vcrot c (fld f 24
    6) ⟨ty, ⟨fld f 35 5, bit f 15⟩, ⟨fld f 30 5, bit f 14⟩, ⟨fld f 16 4, bit f 11⟩⟩) := by
  show decodeAxis c 0x57 f = _
  unfold decodeAxis
  rw [h0, hk]
  rfl
theorem vcbc (c : Ctl) (f : Nat) {ty : Ty} (h0 : tyOf (fld f 7 4) = some ty) (hk : fld f 0 2 = 1) : decodeBody c
    0x57 f = accept ((fld f 20 4 == 0 && fld f 12 2 == 0 && fld f 4 3 == 0) && fld f 2 2 == 0) (.vcbc c (fld f 24 6)
    ⟨ty, ⟨fld f 35 5, bit f 15⟩, ⟨fld f 30 5, bit f 14⟩, ⟨fld f 16 4, bit f 11⟩⟩) := by
  show decodeAxis c 0x57 f = _
  unfold decodeAxis
  rw [h0, hk]
  rfl
theorem vcred (c : Ctl) (f : Nat) {ty : Ty} {k : RedOp} (h0 : tyOf (fld f 7 4) = some ty) (h1 : redOf (fld f 2
    2) = some k) (hk : fld f 0 2 = 2) : decodeBody c 0x57 f = accept ((fld f 20 4 == 0 && fld f 12 2 == 0 && fld f 4
    3 == 0) && fld f 24 6 == 0) (.vcred c k ⟨ty, ⟨fld f 35 5, bit f 15⟩, ⟨fld f 30 5, bit f 14⟩, ⟨fld f 16 4, bit f
    11⟩⟩) := by
  show decodeAxis c 0x57 f = _
  unfold decodeAxis
  rw [h0, h1, hk]
  rfl
theorem vtrn16 (c : Ctl) (f : Nat) {ty : Ty} (h0 : tyOf (fld f 7 4) = some ty) : decodeBody c 0x58 f = accept
    (((fld f 20 5 == 0 && fld f 12 1 == 0) && fld f 25 5 == 0 && fld f 13 1 == 0) && fld f 0 7 == 0) (.vtrn16 c ⟨ty,
    ⟨fld f 35 5, bit f 15⟩, ⟨fld f 30 5, bit f 14⟩, ⟨fld f 16 4, bit f 11⟩⟩) := by
  show decodeVec c 0x58 f = _
  unfold decodeVec
  rw [h0]
  rfl
theorem vamax0 (c : Ctl) (f : Nat) {ty : Ty} (h0 : tyOf (fld f 7 4) = some ty) (hk : fld f 0 7 = 0) : decodeBody
    c 0x59 f = accept ((fld f 20 5 == 0 && fld f 12 1 == 0) && fld f 25 5 == 0 && fld f 13 1 == 0) (.vamax c .row
    ⟨ty, ⟨fld f 35 5, bit f 15⟩, ⟨fld f 30 5, bit f 14⟩, ⟨fld f 16 4, bit f 11⟩⟩) := by
  show decodeVec c 0x59 f = _
  unfold decodeVec
  rw [h0, hk]
  rfl
theorem vamax1 (c : Ctl) (f : Nat) {ty : Ty} (h0 : tyOf (fld f 7 4) = some ty) (hk : fld f 0 7 = 1) : decodeBody
    c 0x59 f = accept ((fld f 20 5 == 0 && fld f 12 1 == 0) && fld f 25 5 == 0 && fld f 13 1 == 0) (.vamax c .blk
    ⟨ty, ⟨fld f 35 5, bit f 15⟩, ⟨fld f 30 5, bit f 14⟩, ⟨fld f 16 4, bit f 11⟩⟩) := by
  show decodeVec c 0x59 f = _
  unfold decodeVec
  rw [h0, hk]
  rfl
theorem vamax2 (c : Ctl) (f : Nat) {ty : Ty} (h0 : tyOf (fld f 7 4) = some ty) (hk : fld f 0 7 = 2) : decodeBody
    c 0x59 f = accept ((fld f 20 5 == 0 && fld f 12 1 == 0) && fld f 25 5 == 0 && fld f 13 1 == 0) (.vamax c .all
    ⟨ty, ⟨fld f 35 5, bit f 15⟩, ⟨fld f 30 5, bit f 14⟩, ⟨fld f 16 4, bit f 11⟩⟩) := by
  show decodeVec c 0x59 f = _
  unfold decodeVec
  rw [h0, hk]
  rfl
theorem vqnt (c : Ctl) (f : Nat) {ty : Ty} {rm : Rm} (h0 : tyOf (fld f 7 4) = some ty) (h1 : rmOf (fld f 0 7) =
    some rm) : decodeBody c 0x5A f = accept (fld f 12 1 == 0) (.vqnt c (fld f 20 5) rm ⟨ty, ⟨fld f 35 5, bit f 15⟩,
    ⟨fld f 30 5, bit f 14⟩, ⟨fld f 25 5, bit f 13⟩, ⟨fld f 16 4, bit f 11⟩⟩) := by
  show decodeVec c 0x5A f = _
  unfold decodeVec
  rw [h0]
  show (match rmOf (fld f 0 7) with | some rm => _ | none => _) = _
  rw [h1]
theorem vdqnt (c : Ctl) (f : Nat) {ty : Ty} (h0 : tyOf (fld f 7 4) = some ty) : decodeBody c 0x5B f = accept
    (fld f 12 1 == 0 && fld f 0 7 == 0) (.vdqnt c (fld f 20 5) ⟨ty, ⟨fld f 35 5, bit f 15⟩, ⟨fld f 30 5, bit f 14⟩,
    ⟨fld f 25 5, bit f 13⟩, ⟨fld f 16 4, bit f 11⟩⟩) := by
  show decodeVec c 0x5B f = _
  unfold decodeVec
  rw [h0]
  rfl
theorem vld (c : Ctl) (f : Nat) {ty : Ty} (h0 : tyOf (fld f 7 4) = some ty) : decodeBody c 0x5C f = accept ((fld
    f 30 5 == 0 && fld f 24 1 == 0 && fld f 12 3 == 0 && fld f 3 4 == 0) && fld f 20 4 == 0) (.vld c ⟨ty, ⟨fld f 35
    5, bit f 15⟩, fld f 25 5, fld f 0 3, ⟨fld f 16 4, bit f 11⟩⟩) := by
  show decodeVMem c 0x5C f = _
  unfold decodeVMem
  rw [h0]
  rfl
theorem vst (c : Ctl) (f : Nat) {ty : Ty} (h0 : tyOf (fld f 7 4) = some ty) : decodeBody c 0x5D f = accept ((fld
    f 30 5 == 0 && fld f 24 1 == 0 && fld f 12 3 == 0 && fld f 3 4 == 0) && fld f 20 4 == 0) (.vst c ⟨ty, ⟨fld f 35
    5, bit f 15⟩, fld f 25 5, fld f 0 3, ⟨fld f 16 4, bit f 11⟩⟩) := by
  show decodeVMem c 0x5D f = _
  unfold decodeVMem
  rw [h0]
  rfl
theorem vldm (c : Ctl) (f : Nat) {ty : Ty} (h0 : tyOf (fld f 7 4) = some ty) : decodeBody c 0x5E f = accept (fld
    f 30 5 == 0 && fld f 24 1 == 0 && fld f 12 3 == 0 && fld f 3 4 == 0) (.vldm c (fld f 20 4) ⟨ty, ⟨fld f 35 5, bit
    f 15⟩, fld f 25 5, fld f 0 3, ⟨fld f 16 4, bit f 11⟩⟩) := by
  show decodeVMem c 0x5E f = _
  unfold decodeVMem
  rw [h0]
  rfl
theorem vstm (c : Ctl) (f : Nat) {ty : Ty} (h0 : tyOf (fld f 7 4) = some ty) : decodeBody c 0x5F f = accept
    ((fld f 30 5 == 0 && fld f 24 1 == 0 && fld f 12 3 == 0 && fld f 3 4 == 0) && fld f 20 4 == 0) (.vstm c ⟨ty,
    ⟨fld f 35 5, bit f 15⟩, fld f 25 5, fld f 0 3, ⟨fld f 16 4, bit f 11⟩⟩) := by
  show decodeVMem c 0x5F f = _
  unfold decodeVMem
  rw [h0]
  rfl
theorem voptw0 (c : Ctl) (f : Nat) {ty : Ty} (h0 : tyOf (fld f 7 4) = some ty) (hk : fld f 3 4 = 0) : decodeBody
    c 0x60 f = accept true (.voptw c false (fld f 0 3) ⟨ty, ⟨fld f 35 5, bit f 15⟩, ⟨fld f 30 5, bit f 14⟩, ⟨fld f
    25 5, bit f 13⟩, ⟨fld f 16 4, bit f 11⟩⟩ ⟨fld f 20 5, bit f 12⟩) := by
  show decodeVec c 0x60 f = _
  unfold decodeVec
  rw [h0, hk]
  rfl
theorem voptw1 (c : Ctl) (f : Nat) {ty : Ty} (h0 : tyOf (fld f 7 4) = some ty) (hk : fld f 3 4 = 5) : decodeBody
    c 0x60 f = accept true (.voptw c true (fld f 0 3) ⟨ty, ⟨fld f 35 5, bit f 15⟩, ⟨fld f 30 5, bit f 14⟩, ⟨fld f 25
    5, bit f 13⟩, ⟨fld f 16 4, bit f 11⟩⟩ ⟨fld f 20 5, bit f 12⟩) := by
  show decodeVec c 0x60 f = _
  unfold decodeVec
  rw [h0, hk]
  rfl
theorem pand (c : Ctl) (f : Nat) (hk : fld f 0 2 = 0) : decodeBody c 0x61 f = accept (fld f 39 1 == 0 && fld f
    34 1 == 0 && fld f 29 1 == 0 && fld f 20 5 == 0 && fld f 12 1 == 0 && fld f 7 4 == 0 && fld f 2 5 == 0) (.pand c
    ⟨fld f 35 4, bit f 15⟩ ⟨fld f 30 4, bit f 14⟩ ⟨fld f 25 4, bit f 13⟩ ⟨fld f 16 4, bit f 11⟩) := by
  show decodePred c f = _
  unfold decodePred
  rw [hk]
  rfl
theorem por (c : Ctl) (f : Nat) (hk : fld f 0 2 = 1) : decodeBody c 0x61 f = accept (fld f 39 1 == 0 && fld f 34
    1 == 0 && fld f 29 1 == 0 && fld f 20 5 == 0 && fld f 12 1 == 0 && fld f 7 4 == 0 && fld f 2 5 == 0) (.por c
    ⟨fld f 35 4, bit f 15⟩ ⟨fld f 30 4, bit f 14⟩ ⟨fld f 25 4, bit f 13⟩ ⟨fld f 16 4, bit f 11⟩) := by
  show decodePred c f = _
  unfold decodePred
  rw [hk]
  rfl
theorem pnot (c : Ctl) (f : Nat) (hk : fld f 0 2 = 2) : decodeBody c 0x61 f = accept ((fld f 39 1 == 0 && fld f
    34 1 == 0 && fld f 29 1 == 0 && fld f 20 5 == 0 && fld f 12 1 == 0 && fld f 7 4 == 0 && fld f 2 5 == 0) && (fld
    f 25 4 == 0 && fld f 13 1 == 0)) (.pnot c ⟨fld f 35 4, bit f 15⟩ ⟨fld f 30 4, bit f 14⟩ ⟨fld f 16 4, bit f 11⟩)
    := by
  show decodePred c f = _
  unfold decodePred
  rw [hk]
  rfl
theorem pset (c : Ctl) (f : Nat) (hk : fld f 0 2 = 3) : decodeBody c 0x61 f = accept ((fld f 39 1 == 0 && fld f
    34 1 == 0 && fld f 29 1 == 0 && fld f 20 5 == 0 && fld f 12 1 == 0 && fld f 7 4 == 0 && fld f 2 5 == 0) && (fld
    f 25 4 == 0 && fld f 13 1 == 0) && fld f 14 1 == 0) (.pset c ⟨fld f 35 4, bit f 15⟩ (fld f 30 4) ⟨fld f 16 4,
    bit f 11⟩) := by
  show decodePred c f = _
  unfold decodePred
  rw [hk]
  rfl
theorem mldb (c : Ctl) (f : Nat) : decodeBody c 0x70 f = accept (fld f 32 4 == 0 && fld f 23 6 == 0 && fld f 0
    22 == 0) (.mldb c (fld f 36 4) (fld f 29 3) (bit f 22)) := rfl
theorem mma (c : Ctl) (f : Nat) : decodeBody c 0x71 f = accept (fld f 32 4 == 0 && fld f 0 20 == 0) (.mma c (fld
    f 36 4) (fld f 29 3) (fld f 23 6) (bit f 22) (bit f 21) (bit f 20)) := rfl
theorem mscfg (c : Ctl) (f : Nat) : decodeBody c 0x72 f = accept (fld f 4 36 == 0) (.mscfg c (fld f 0 4)) := rfl
theorem msamp (c : Ctl) (f : Nat) : decodeBody c 0x73 f = accept (fld f 32 4 == 0 && fld f 6 15 == 0) (.msamp c
    (fld f 0 6) (fld f 36 4) (fld f 29 3) (fld f 23 6) (bit f 22) (bit f 21)) := rfl
theorem accz (c : Ctl) (f : Nat) : decodeBody c 0x74 f = accept (fld f 36 4 == 0 && fld f 32 4 == 0 && fld f 29
    3 == 0 && fld f 0 23 == 0) (.accz c (fld f 23 6)) := rfl
theorem accrd (c : Ctl) (f : Nat) {rm : Rm} (h0 : rmOf (fld f 17 3) = some rm) : decodeBody c 0x75 f = accept
    (fld f 36 4 == 0 && fld f 32 4 == 0 && fld f 29 3 == 0 && fld f 21 2 == 0 && (fld f 15 2 == 0 && (bit f 14 ||
    fld f 9 5 == 0)) && fld f 5 4 == 0) (.accrd c (fld f 23 6) rm (bit f 20) (if bit f 14 then some (fld f 9 5) else
    none) (fld f 0 5)) := by
  show decodeMatrix c 0x75 f = _
  unfold decodeMatrix
  rw [h0]
  rfl
theorem accwr (c : Ctl) (f : Nat) : decodeBody c 0x76 f = accept (fld f 36 4 == 0 && fld f 32 4 == 0 && fld f 29
    3 == 0 && fld f 17 6 == 0 && (fld f 15 2 == 0 && (bit f 14 || fld f 9 5 == 0)) && fld f 5 4 == 0) (.accwr c (fld
    f 23 6) (if bit f 14 then some (fld f 9 5) else none) (fld f 0 5)) := rfl
theorem accq (c : Ctl) (f : Nat) {rm : Rm} (h0 : rmOf (fld f 17 3) = some rm) : decodeBody c 0x77 f = accept
    (fld f 29 3 == 0 && fld f 20 3 == 0 && (fld f 15 2 == 0 && (bit f 14 || fld f 9 5 == 0)) && fld f 1 8 == 0)
    (.accq c (fld f 36 4) (fld f 32 4) (fld f 23 6) rm (if bit f 14 then some (fld f 9 5) else none) (bit f 0)) :=
    by
  show decodeMatrix c 0x77 f = _
  unfold decodeMatrix
  rw [h0]
  rfl
theorem accst (c : Ctl) (f : Nat) : decodeBody c 0x78 f = accept (fld f 32 4 == 0 && fld f 29 3 == 0 && fld f 0
    23 == 0) (.accst c (fld f 36 4) (fld f 23 6)) := rfl
theorem accld (c : Ctl) (f : Nat) : decodeBody c 0x79 f = accept (fld f 32 4 == 0 && fld f 29 3 == 0 && fld f 0
    23 == 0) (.accld c (fld f 36 4) (fld f 23 6)) := rfl
theorem strcfg (c : Ctl) (f : Nat) : decodeBody c 0x80 f = accept (fld f 38 2 == 0 && fld f 24 4 == 0) (.strcfg
    c (fld f 34 4) (fld f 28 6) (BitVec.ofNat 24 (fld f 0 24))) := rfl
theorem strset (c : Ctl) (f : Nat) : decodeBody c 0x81 f = accept (fld f 38 2 == 0 && fld f 0 24 == 0) (.strset
    c (fld f 34 4) (fld f 28 6) (fld f 24 4)) := rfl
theorem strld (c : Ctl) (f : Nat) : decodeBody c 0x82 f = accept (fld f 23 9 == 0 && fld f 0 22 == 0) (.strld c
    (fld f 36 4) (fld f 32 4) (bit f 22)) := rfl
theorem strst (c : Ctl) (f : Nat) : decodeBody c 0x83 f = accept (fld f 0 32 == 0) (.strst c (fld f 36 4) (fld f
    32 4)) := rfl
theorem stradv (c : Ctl) (f : Nat) : decodeBody c 0x84 f = accept (fld f 32 4 == 0 && fld f 29 3 == 0 && fld f 9
    20 == 0 && fld f 3 6 == 0) (.stradv c (fld f 36 4) (fld f 0 9)) := rfl
theorem tilereq (c : Ctl) (f : Nat) : decodeBody c 0x85 f = accept (fld f 28 6 == 0 && fld f 2 12 == 0)
    (.tilereq c (fld f 36 4) (fld f 34 2) (fld f 20 8) (fld f 14 6) (bit f 0) (bit f 1)) := rfl
theorem pgreq (c : Ctl) (f : Nat) : decodeBody c 0x86 f = accept (fld f 28 6 == 0 && fld f 1 13 == 0) (.pgreq c
    (fld f 36 4) (fld f 34 2) (fld f 20 8) (fld f 14 6) (bit f 0)) := rfl
theorem cpy (c : Ctl) (f : Nat) : decodeBody c 0x90 f = accept (fld f 0 14 == 0) (.cpy c ⟨fld f 36 4, fld f 34
    2, bit f 33, bit f 32, fld f 28 4, fld f 20 8, fld f 14 6⟩) := rfl
theorem cpyr (c : Ctl) (f : Nat) : decodeBody c 0x91 f = accept (fld f 0 14 == 0) (.cpyr c ⟨fld f 36 4, fld f 34
    2, bit f 33, bit f 32, fld f 28 4, fld f 20 8, fld f 14 6⟩) := rfl
theorem stash (c : Ctl) (f : Nat) : decodeBody c 0x92 f = accept (fld f 0 14 == 0) (.stash c ⟨fld f 36 4, fld f
    34 2, bit f 33, bit f 32, fld f 28 4, fld f 20 8, fld f 14 6⟩) := rfl
theorem stfetch (c : Ctl) (f : Nat) : decodeBody c 0x93 f = accept (fld f 0 14 == 0) (.stfetch c ⟨fld f 36 4,
    fld f 34 2, bit f 33, bit f 32, fld f 28 4, fld f 20 8, fld f 14 6⟩) := rfl
theorem stdrop (c : Ctl) (f : Nat) : decodeBody c 0x94 f = accept (fld f 0 14 == 0) (.stdrop c ⟨fld f 36 4, fld
    f 34 2, bit f 33, bit f 32, fld f 28 4, fld f 20 8, fld f 14 6⟩) := rfl
theorem chsend (c : Ctl) (f : Nat) : decodeBody c 0x95 f = accept (fld f 0 14 == 0) (.chsend c ⟨fld f 36 4, fld
    f 34 2, bit f 33, bit f 32, fld f 28 4, fld f 20 8, fld f 14 6⟩) := rfl
theorem chrecv (c : Ctl) (f : Nat) : decodeBody c 0x96 f = accept (fld f 0 14 == 0) (.chrecv c ⟨fld f 36 4, fld
    f 34 2, bit f 33, bit f 32, fld f 28 4, fld f 20 8, fld f 14 6⟩) := rfl
theorem chrel (c : Ctl) (f : Nat) : decodeBody c 0x97 f = accept (fld f 0 14 == 0) (.chrel c ⟨fld f 36 4, fld f
    34 2, bit f 33, bit f 32, fld f 28 4, fld f 20 8, fld f 14 6⟩) := rfl
theorem coll (c : Ctl) (f : Nat) : decodeBody c 0x98 f = accept (fld f 0 14 == 0) (.coll c ⟨fld f 36 4, fld f 34
    2, bit f 33, bit f 32, fld f 28 4, fld f 20 8, fld f 14 6⟩) := rfl
theorem prst (c : Ctl) (f : Nat) : decodeBody c 0x99 f = accept (fld f 0 14 == 0) (.prst c ⟨fld f 36 4, fld f 34
    2, bit f 33, bit f 32, fld f 28 4, fld f 20 8, fld f 14 6⟩) := rfl
theorem tqpush (c : Ctl) (f : Nat) : decodeBody c 0xA1 f = accept (fld f 22 6 == 0 && fld f 16 6 == 0 && fld f 0
    16 == 0) (.tqpush c (fld f 34 6) (fld f 28 6)) := rfl
theorem tarm (c : Ctl) (f : Nat) : decodeBody c 0xA2 f = accept (fld f 16 6 == 0 && fld f 0 16 == 0) (.tarm c
    (fld f 34 6) (fld f 28 6) (fld f 22 6)) := rfl
theorem tdone (c : Ctl) (f : Nat) : decodeBody c 0xA3 f = accept (fld f 34 6 == 0 && fld f 22 6 == 0 && fld f 16
    6 == 0 && fld f 0 16 == 0) (.tdone c (fld f 28 6)) := rfl
theorem ttrig (c : Ctl) (f : Nat) : decodeBody c 0xA4 f = accept (f == 0) (.ttrig c) := rfl
theorem mbpost (c : Ctl) (f : Nat) : decodeBody c 0xA5 f = accept (fld f 20 16 == 0 && fld f 0 14 == 0) (.mbpost
    c (fld f 36 4) (fld f 14 6)) := rfl
theorem pennLoad (c : Ctl) (f : Nat) (hk : fld f 0 16 = 0) : decodeBody c 0xA6 f = accept (fld f 16 6 == 0)
    (.pennLoad c (fld f 34 6) (fld f 28 6) (fld f 22 6)) := by
  show decodeTask c 0xA6 f = _
  unfold decodeTask
  rw [hk]
  rfl
theorem pennStart (c : Ctl) (f : Nat) (hk : fld f 0 16 = 1) : decodeBody c 0xA6 f = accept (fld f 22 6 == 0 &&
    fld f 16 6 == 0) (.pennStart c (fld f 34 6) (fld f 28 6)) := by
  show decodeTask c 0xA6 f = _
  unfold decodeTask
  rw [hk]
  rfl
theorem pennStop (c : Ctl) (f : Nat) (hk : fld f 0 16 = 2) : decodeBody c 0xA6 f = accept (fld f 22 6 == 0 &&
    fld f 16 6 == 0) (.pennStop c (fld f 34 6) (fld f 28 6)) := by
  show decodeTask c 0xA6 f = _
  unfold decodeTask
  rw [hk]
  rfl
theorem pennUnload (c : Ctl) (f : Nat) (hk : fld f 0 16 = 3) : decodeBody c 0xA6 f = accept (fld f 22 6 == 0 &&
    fld f 16 6 == 0) (.pennUnload c (fld f 34 6) (fld f 28 6)) := by
  show decodeTask c 0xA6 f = _
  unfold decodeTask
  rw [hk]
  rfl
theorem pennStat (c : Ctl) (f : Nat) (hk : fld f 0 16 = 4) : decodeBody c 0xA6 f = accept (fld f 22 6 == 0 &&
    fld f 16 6 == 0) (.pennStat c (fld f 34 6) (fld f 28 6)) := by
  show decodeTask c 0xA6 f = _
  unfold decodeTask
  rw [hk]
  rfl
theorem relaunch (c : Ctl) (f : Nat) : decodeBody c 0xA7 f = accept (fld f 22 6 == 0 && fld f 16 6 == 0 && fld f
    0 16 == 0) (.relaunch c (fld f 34 6) (fld f 28 6)) := rfl
theorem traceAdd (c : Ctl) (f : Nat) (hk : fld f 0 16 = 0) : decodeBody c 0xA8 f = accept (fld f 34 6 == 0)
    (.traceAdd c (fld f 28 6) (fld f 22 6) (fld f 16 6)) := by
  show decodeTask c 0xA8 f = _
  unfold decodeTask
  rw [hk]
  rfl
theorem tracePath (c : Ctl) (f : Nat) (hk : fld f 0 16 = 1) : decodeBody c 0xA8 f = accept (fld f 34 6 == 0 &&
    fld f 22 6 == 0 && fld f 16 6 == 0) (.tracePath c (fld f 28 6)) := by
  show decodeTask c 0xA8 f = _
  unfold decodeTask
  rw [hk]
  rfl
theorem vernew (c : Ctl) (f : Nat) : decodeBody c 0xA9 f = accept (fld f 22 6 == 0 && fld f 16 6 == 0 && fld f 0
    16 == 0) (.vernew c (fld f 34 6) (fld f 28 6)) := rfl
theorem verpin (c : Ctl) (f : Nat) : decodeBody c 0xAA f = accept (fld f 3 13 == 0) (.verpin c (fld f 34 6) (fld
    f 28 6) (fld f 22 6) (fld f 16 6) (fld f 0 3)) := rfl
theorem verdrop (c : Ctl) (f : Nat) : decodeBody c 0xAB f = accept (fld f 16 6 == 0 && fld f 0 16 == 0)
    (.verdrop c (fld f 34 6) (fld f 28 6) (fld f 22 6)) := rfl
theorem phase (c : Ctl) (f : Nat) : decodeBody c 0xB0 f = accept (fld f 16 24 == 0 && fld f 6 10 == 0) (.phase c
    (fld f 0 4) (bit f 4) (bit f 5)) := rfl
theorem fence (c : Ctl) (f : Nat) : decodeBody c 0xB1 f = accept (fld f 3 37 == 0) (.fence c (bit f 0) (bit f 1)
    (bit f 2)) := rfl
theorem icinv (c : Ctl) (f : Nat) : decodeBody c 0xB3 f = accept (f == 0) (.icinv c) := rfl
theorem sysr (c : Ctl) (f : Nat) : decodeBody c 0xC0 f = accept (fld f 28 6 == 0 && fld f 12 12 == 0) (.sysr c
    (fld f 34 6) (fld f 0 12) (fld f 24 4)) := rfl
theorem sysw (c : Ctl) (f : Nat) : decodeBody c 0xC1 f = if fld f 0 12 == 0x040 then accept (fld f 28 6 == 0 &&
    fld f 12 12 == 0) (.xlinv c (fld f 34 6) (fld f 24 4)) else accept (fld f 28 6 == 0 && fld f 12 12 == 0) (.sysw
    c (fld f 34 6) (fld f 0 12) (fld f 24 4)) := rfl
theorem xlinv (c : Ctl) (f : Nat) : decodeBody c 0xC1 f = if fld f 0 12 == 0x040 then accept (fld f 28 6 == 0 &&
    fld f 12 12 == 0) (.xlinv c (fld f 34 6) (fld f 24 4)) else accept (fld f 28 6 == 0 && fld f 12 12 == 0) (.sysw
    c (fld f 34 6) (fld f 0 12) (fld f 24 4)) := rfl
theorem trap (c : Ctl) (f : Nat) : decodeBody c 0xC2 f = accept (fld f 16 24 == 0) (.trap c (BitVec.ofNat 16
    (fld f 0 16))) := rfl
theorem eret (c : Ctl) (f : Nat) : decodeBody c 0xC3 f = accept (f == 0) (.eret c) := rfl
theorem sleep (c : Ctl) (f : Nat) : decodeBody c 0xC4 f = accept (fld f 34 6 == 0 && fld f 0 28 == 0) (.sleep c
    (fld f 28 6)) := rfl
theorem tqpopSome (c : Ctl) (f : Nat) (hk : bit f 0 = true) : decodeBody c 0xA0 f = accept (fld f 22 6 == 0 &&
    fld f 16 6 == 0 && fld f 1 15 == 0) (.tqpop c (fld f 34 6) (some (fld f 28 6))) := by
  show decodeTask c 0xA0 f = _
  unfold decodeTask
  rw [hk]
  rfl
theorem tqpopNone (c : Ctl) (f : Nat) (hk : bit f 0 = false) : decodeBody c 0xA0 f = accept (fld f 28 6 == 0 &&
    fld f 22 6 == 0 && fld f 16 6 == 0 && fld f 1 15 == 0) (.tqpop c (fld f 34 6) none) := by
  show decodeTask c 0xA0 f = _
  unfold decodeTask
  rw [hk]
  rfl
theorem barSome (c : Ctl) (f : Nat) (hk : bit f 6 = true) : decodeBody c 0xB2 f = accept (fld f 16 6 == 0 && fld
    f 7 9 == 0) (.bar c (fld f 0 4) (bit f 4) (bit f 5) (fld f 34 6) (fld f 28 6) (some (fld f 22 6))) := by
  show decodeSystem c 0xB2 f = _
  unfold decodeSystem
  rw [hk]
  rfl
theorem barNone (c : Ctl) (f : Nat) (hk : bit f 6 = false) : decodeBody c 0xB2 f = accept ((fld f 16 6 == 0 &&
    fld f 7 9 == 0) && fld f 22 6 == 0) (.bar c (fld f 0 4) (bit f 4) (bit f 5) (fld f 34 6) (fld f 28 6) none) :=
    by
  show decodeSystem c 0xB2 f = _
  unfold decodeSystem
  rw [hk]
  rfl

end Laws.Row

/-! The axis family (R366). -/

section
variable {f : VF2} {amt k : Nat}

theorem axis_eq : encV2 f 0 0 k + amt * 2 ^ 24 =
    f.vd.n * 2 ^ 35 + f.va.n * 2 ^ 30 + amt * 2 ^ 24 + f.pr.n * 2 ^ 16 + b2n f.vd.rot * 2 ^ 15 + b2n f.va.rot * 2 ^ 14 +
      b2n f.pr.rot * 2 ^ 11 + f.ty.code * 2 ^ 7 + k := by
  simp only [encV2, fmtV, b2n_false]; omega
theorem axis_eq0 : encV2 f 0 0 k =
    f.vd.n * 2 ^ 35 + f.va.n * 2 ^ 30 + f.pr.n * 2 ^ 16 + b2n f.vd.rot * 2 ^ 15 + b2n f.va.rot * 2 ^ 14 +
      b2n f.pr.rot * 2 ^ 11 + f.ty.code * 2 ^ 7 + k := by
  simp only [encV2, fmtV, b2n_false]; omega
theorem axis_lt (hd : f.vd.n < 32) (ha : f.va.n < 32) (hp : f.pr.n < 16) (hs : amt < 64) (hk : k < 8) : encV2 f 0 0 k + amt * 2 ^ 24 < 2 ^ 40 := by
  have g1 := b2n_lt f.vd.rot; have g2 := b2n_lt f.va.rot; have g3 := b2n_lt f.pr.rot; have g4 := Ty.code_lt f.ty
  rw [axis_eq]; omega
theorem axis_lt0 (hd : f.vd.n < 32) (ha : f.va.n < 32) (hp : f.pr.n < 16) (hk : k < 16) : encV2 f 0 0 k < 2 ^ 40 := by
  have g1 := b2n_lt f.vd.rot; have g2 := b2n_lt f.va.rot; have g3 := b2n_lt f.pr.rot; have g4 := Ty.code_lt f.ty
  rw [axis_eq0]; omega
theorem axis_ty (hd : f.vd.n < 32) (ha : f.va.n < 32) (hp : f.pr.n < 16) (hs : amt < 64) (hk : k < 8) : fld (encV2 f 0 0 k + amt * 2 ^ 24) 7 4 = f.ty.code := by
  have g1 := b2n_lt f.vd.rot; have g2 := b2n_lt f.va.rot; have g3 := b2n_lt f.pr.rot; have g4 := Ty.code_lt f.ty
  rw [axis_eq]; simp only [fld]; omega
theorem axis_ty0 (hd : f.vd.n < 32) (ha : f.va.n < 32) (hp : f.pr.n < 16) (hk : k < 16) : fld (encV2 f 0 0 k) 7 4 = f.ty.code := by
  have g1 := b2n_lt f.vd.rot; have g2 := b2n_lt f.va.rot; have g3 := b2n_lt f.pr.rot; have g4 := Ty.code_lt f.ty
  rw [axis_eq0]; simp only [fld]; omega
theorem axis_vd (hd : f.vd.n < 32) (ha : f.va.n < 32) (hp : f.pr.n < 16) (hs : amt < 64) (hk : k < 8) : fld (encV2 f 0 0 k + amt * 2 ^ 24) 35 5 = f.vd.n := by
  have g1 := b2n_lt f.vd.rot; have g2 := b2n_lt f.va.rot; have g3 := b2n_lt f.pr.rot; have g4 := Ty.code_lt f.ty
  rw [axis_eq]; simp only [fld]; omega
theorem axis_vd0 (hd : f.vd.n < 32) (ha : f.va.n < 32) (hp : f.pr.n < 16) (hk : k < 16) : fld (encV2 f 0 0 k) 35 5 = f.vd.n := by
  have g1 := b2n_lt f.vd.rot; have g2 := b2n_lt f.va.rot; have g3 := b2n_lt f.pr.rot; have g4 := Ty.code_lt f.ty
  rw [axis_eq0]; simp only [fld]; omega
theorem axis_rd (hd : f.vd.n < 32) (ha : f.va.n < 32) (hp : f.pr.n < 16) (hs : amt < 64) (hk : k < 8) : fld (encV2 f 0 0 k + amt * 2 ^ 24) 15 1 = b2n f.vd.rot := by
  have g1 := b2n_lt f.vd.rot; have g2 := b2n_lt f.va.rot; have g3 := b2n_lt f.pr.rot; have g4 := Ty.code_lt f.ty
  rw [axis_eq]; simp only [fld]; omega
theorem axis_rd0 (hd : f.vd.n < 32) (ha : f.va.n < 32) (hp : f.pr.n < 16) (hk : k < 16) : fld (encV2 f 0 0 k) 15 1 = b2n f.vd.rot := by
  have g1 := b2n_lt f.vd.rot; have g2 := b2n_lt f.va.rot; have g3 := b2n_lt f.pr.rot; have g4 := Ty.code_lt f.ty
  rw [axis_eq0]; simp only [fld]; omega
theorem axis_va (hd : f.vd.n < 32) (ha : f.va.n < 32) (hp : f.pr.n < 16) (hs : amt < 64) (hk : k < 8) : fld (encV2 f 0 0 k + amt * 2 ^ 24) 30 5 = f.va.n := by
  have g1 := b2n_lt f.vd.rot; have g2 := b2n_lt f.va.rot; have g3 := b2n_lt f.pr.rot; have g4 := Ty.code_lt f.ty
  rw [axis_eq]; simp only [fld]; omega
theorem axis_va0 (hd : f.vd.n < 32) (ha : f.va.n < 32) (hp : f.pr.n < 16) (hk : k < 16) : fld (encV2 f 0 0 k) 30 5 = f.va.n := by
  have g1 := b2n_lt f.vd.rot; have g2 := b2n_lt f.va.rot; have g3 := b2n_lt f.pr.rot; have g4 := Ty.code_lt f.ty
  rw [axis_eq0]; simp only [fld]; omega
theorem axis_ra (hd : f.vd.n < 32) (ha : f.va.n < 32) (hp : f.pr.n < 16) (hs : amt < 64) (hk : k < 8) : fld (encV2 f 0 0 k + amt * 2 ^ 24) 14 1 = b2n f.va.rot := by
  have g1 := b2n_lt f.vd.rot; have g2 := b2n_lt f.va.rot; have g3 := b2n_lt f.pr.rot; have g4 := Ty.code_lt f.ty
  rw [axis_eq]; simp only [fld]; omega
theorem axis_ra0 (hd : f.vd.n < 32) (ha : f.va.n < 32) (hp : f.pr.n < 16) (hk : k < 16) : fld (encV2 f 0 0 k) 14 1 = b2n f.va.rot := by
  have g1 := b2n_lt f.vd.rot; have g2 := b2n_lt f.va.rot; have g3 := b2n_lt f.pr.rot; have g4 := Ty.code_lt f.ty
  rw [axis_eq0]; simp only [fld]; omega
theorem axis_pr (hd : f.vd.n < 32) (ha : f.va.n < 32) (hp : f.pr.n < 16) (hs : amt < 64) (hk : k < 8) : fld (encV2 f 0 0 k + amt * 2 ^ 24) 16 4 = f.pr.n := by
  have g1 := b2n_lt f.vd.rot; have g2 := b2n_lt f.va.rot; have g3 := b2n_lt f.pr.rot; have g4 := Ty.code_lt f.ty
  rw [axis_eq]; simp only [fld]; omega
theorem axis_pr0 (hd : f.vd.n < 32) (ha : f.va.n < 32) (hp : f.pr.n < 16) (hk : k < 16) : fld (encV2 f 0 0 k) 16 4 = f.pr.n := by
  have g1 := b2n_lt f.vd.rot; have g2 := b2n_lt f.va.rot; have g3 := b2n_lt f.pr.rot; have g4 := Ty.code_lt f.ty
  rw [axis_eq0]; simp only [fld]; omega
theorem axis_rp (hd : f.vd.n < 32) (ha : f.va.n < 32) (hp : f.pr.n < 16) (hs : amt < 64) (hk : k < 8) : fld (encV2 f 0 0 k + amt * 2 ^ 24) 11 1 = b2n f.pr.rot := by
  have g1 := b2n_lt f.vd.rot; have g2 := b2n_lt f.va.rot; have g3 := b2n_lt f.pr.rot; have g4 := Ty.code_lt f.ty
  rw [axis_eq]; simp only [fld]; omega
theorem axis_rp0 (hd : f.vd.n < 32) (ha : f.va.n < 32) (hp : f.pr.n < 16) (hk : k < 16) : fld (encV2 f 0 0 k) 11 1 = b2n f.pr.rot := by
  have g1 := b2n_lt f.vd.rot; have g2 := b2n_lt f.va.rot; have g3 := b2n_lt f.pr.rot; have g4 := Ty.code_lt f.ty
  rw [axis_eq0]; simp only [fld]; omega
theorem axis_s (hd : f.vd.n < 32) (ha : f.va.n < 32) (hp : f.pr.n < 16) (hs : amt < 64) (hk : k < 8) : fld (encV2 f 0 0 k + amt * 2 ^ 24) 24 6 = amt := by
  have g1 := b2n_lt f.vd.rot; have g2 := b2n_lt f.va.rot; have g3 := b2n_lt f.pr.rot; have g4 := Ty.code_lt f.ty
  rw [axis_eq]; simp only [fld]; omega
theorem axis_s0 (hd : f.vd.n < 32) (ha : f.va.n < 32) (hp : f.pr.n < 16) (hk : k < 16) : fld (encV2 f 0 0 k) 24 6 = 0 := by
  have g1 := b2n_lt f.vd.rot; have g2 := b2n_lt f.va.rot; have g3 := b2n_lt f.pr.rot; have g4 := Ty.code_lt f.ty
  rw [axis_eq0]; simp only [fld]; omega
theorem axis_20 (hd : f.vd.n < 32) (ha : f.va.n < 32) (hp : f.pr.n < 16) (hs : amt < 64) (hk : k < 8) : fld (encV2 f 0 0 k + amt * 2 ^ 24) 20 4 = 0 := by
  have g1 := b2n_lt f.vd.rot; have g2 := b2n_lt f.va.rot; have g3 := b2n_lt f.pr.rot; have g4 := Ty.code_lt f.ty
  rw [axis_eq]; simp only [fld]; omega
theorem axis_200 (hd : f.vd.n < 32) (ha : f.va.n < 32) (hp : f.pr.n < 16) (hk : k < 16) : fld (encV2 f 0 0 k) 20 4 = 0 := by
  have g1 := b2n_lt f.vd.rot; have g2 := b2n_lt f.va.rot; have g3 := b2n_lt f.pr.rot; have g4 := Ty.code_lt f.ty
  rw [axis_eq0]; simp only [fld]; omega
theorem axis_12 (hd : f.vd.n < 32) (ha : f.va.n < 32) (hp : f.pr.n < 16) (hs : amt < 64) (hk : k < 8) : fld (encV2 f 0 0 k + amt * 2 ^ 24) 12 2 = 0 := by
  have g1 := b2n_lt f.vd.rot; have g2 := b2n_lt f.va.rot; have g3 := b2n_lt f.pr.rot; have g4 := Ty.code_lt f.ty
  rw [axis_eq]; simp only [fld]; omega
theorem axis_120 (hd : f.vd.n < 32) (ha : f.va.n < 32) (hp : f.pr.n < 16) (hk : k < 16) : fld (encV2 f 0 0 k) 12 2 = 0 := by
  have g1 := b2n_lt f.vd.rot; have g2 := b2n_lt f.va.rot; have g3 := b2n_lt f.pr.rot; have g4 := Ty.code_lt f.ty
  rw [axis_eq0]; simp only [fld]; omega
theorem axis_4 (hd : f.vd.n < 32) (ha : f.va.n < 32) (hp : f.pr.n < 16) (hs : amt < 64) (hk : k < 8) : fld (encV2 f 0 0 k + amt * 2 ^ 24) 4 3 = 0 := by
  have g1 := b2n_lt f.vd.rot; have g2 := b2n_lt f.va.rot; have g3 := b2n_lt f.pr.rot; have g4 := Ty.code_lt f.ty
  rw [axis_eq]; simp only [fld]; omega
theorem axis_40 (hd : f.vd.n < 32) (ha : f.va.n < 32) (hp : f.pr.n < 16) (hk : k < 16) : fld (encV2 f 0 0 k) 4 3 = 0 := by
  have g1 := b2n_lt f.vd.rot; have g2 := b2n_lt f.va.rot; have g3 := b2n_lt f.pr.rot; have g4 := Ty.code_lt f.ty
  rw [axis_eq0]; simp only [fld]; omega
theorem axis_fn0 {lo n : Nat} (h : lo + n ≤ 4) : fld (encV2 f 0 0 k) lo n = fld k lo n := by
  rw [encV2, fmtV_fn (by omega)]
theorem axis_fn (hd : f.vd.n < 32) (ha : f.va.n < 32) (hp : f.pr.n < 16) (hs : amt < 64) (hk : k < 8) {lo n : Nat}
    (h : lo + n ≤ 4) : fld (encV2 f 0 0 k + amt * 2 ^ 24) lo n = fld k lo n := by
  have : encV2 f 0 0 k + amt * 2 ^ 24 = (f.vd.n * 2 ^ 28 + f.va.n * 2 ^ 23 + amt * 2 ^ 17 + f.pr.n * 2 ^ 9 +
      b2n f.vd.rot * 2 ^ 8 + b2n f.va.rot * 2 ^ 7 + b2n f.pr.rot * 2 ^ 4 + f.ty.code) * 2 ^ 7 + k := by rw [axis_eq]; ring
  rw [this, fld_low (by omega)]
end

/-! Targets of format B, special-register numbers. -/

theorem encT_lt {t : BTarget} (h : t.ok = true) : encT t < 2 ^ 40 := by
  cases t with
  | rel off => exact fmtB_lt (by decide) (by decide) off.isLt
  | ind cr off =>
    simp only [BTarget.ok, pairOk, Bool.and_eq_true, decide_eq_true_eq] at h
    exact fmtB_lt h.1 (by decide) off.isLt

theorem decodeTarget_enc {t : BTarget} (h : t.ok = true) : decodeTarget (encT t) = some t := by
  cases t with
  | rel off =>
    show decodeTarget (fmtB 0 0 off.toNat) = _
    unfold decodeTarget
    simp only [fmtB_kind (k := 0) (by decide) off.isLt, fmtB_cr (c := 0) (k := 0) (by decide) (by decide) off.isLt, fmtB_off off.isLt]
    simp
  | ind cr off =>
    simp only [BTarget.ok, pairOk, Bool.and_eq_true, decide_eq_true_eq] at h
    show decodeTarget (fmtB cr 1 off.toNat) = _
    unfold decodeTarget
    simp only [fmtB_kind (k := 1) (by decide) off.isLt, fmtB_cr (k := 1) h.1 (by decide) off.isLt, fmtB_off off.isLt]
    simp

theorem sysOk_num {num rd md : Nat} (h : sysOk num rd md = true) : num < 0x300 := by
  by_contra hn
  have : sysWidth num = none := by
    unfold sysWidth
    repeat rw [if_neg (by simp only [beq_iff_eq, Bool.and_eq_true, Bool.or_eq_true, decide_eq_true_eq]; omega)]
  simp [sysOk, this] at h

theorem sysOk_bounds {num rd md : Nat} (h : sysOk num rd md = true) : rd < 64 ∧ md < 4 := by
  unfold sysOk at h
  split at h
  · simp only [opndOk, Bool.and_eq_true, decide_eq_true_eq] at h; exact ⟨h.1.1, h.2⟩
  · exact absurd h Bool.false_ne_true

namespace Laws.RoundTrip

/-- The word of a well-formed instruction is put together from its wait and signal bytes, an assigned OP and an operand
field of 40 bits, which the decoder reads as the instruction. -/
def Statement (i : Instr) : Prop :=
  i.wellFormed = true → i.isEvent = false →
    ∃ c op f, encode i = mkWord c op f ∧ c.ok = true ∧ op < 256 ∧ f < 2 ^ 40 ∧ (opClass op).isSome = true ∧
      decodeBody c op f = some i

theorem nop (c : Ctl) : Statement (.nop c) := by
  intro h _
  have h' := h
  simp only [Instr.wellFormed, opndOk, gOk, pairOk, vOk, pOk, VF.ok, VF2.ok, VMemF.ok, MemF.ok, AtomF.ok, EngF.ok, Bool.and_eq_true,
    decide_eq_true_eq] at h'
  have hc : c.ok = true := by first | exact h' | exact h'.1 | exact h'.1.1 | exact h'.1.1.1 | exact h'.1.1.1.1 | exact h'.1.1.1.1.1 | exact h'.1.1.1.1.1.1 | exact h'.1.1.1.1.1.1.1 | exact h'.1.1.1.1.1.1.1.1
  refine ⟨c, 0x0, 0, rfl, hc, by decide, by decide,
    rfl, ?_⟩
  rw [Row.nop c _]
  simp [accept, h]
theorem add (c : Ctl) (w : Bool) (rd ra rb : Nat) : Statement (.add c w rd ra rb) := by
  intro h _
  have h' := h
  simp only [Instr.wellFormed, opndOk, gOk, pairOk, vOk, pOk, VF.ok, VF2.ok, VMemF.ok, MemF.ok, AtomF.ok, EngF.ok, Bool.and_eq_true,
    decide_eq_true_eq] at h'
  have hf := fnW_lt w false
  have hc : c.ok = true := by first | exact h' | exact h'.1 | exact h'.1.1 | exact h'.1.1.1 | exact h'.1.1.1.1 | exact h'.1.1.1.1.1 | exact h'.1.1.1.1.1.1 | exact h'.1.1.1.1.1.1.1 | exact h'.1.1.1.1.1.1.1.1
  refine ⟨c, 0x1, fmtR rd ra rb 0 (fnW w false), rfl, hc, by decide, fmtR_lt (by omega) (by omega) (by omega) (by omega) (by omega),
    rfl, ?_⟩
  rw [Row.add c _]
  simp (disch := first | rfl | omega) only [bit_eq_fld, fmtR_rd, fmtR_ra, fmtR_rb, fmtR_rc, fmtR_fn]
  cases w <;> simp [accept, h, fld, fnW, b2n]
theorem sub (c : Ctl) (w : Bool) (rd ra rb : Nat) : Statement (.sub c w rd ra rb) := by
  intro h _
  have h' := h
  simp only [Instr.wellFormed, opndOk, gOk, pairOk, vOk, pOk, VF.ok, VF2.ok, VMemF.ok, MemF.ok, AtomF.ok, EngF.ok, Bool.and_eq_true,
    decide_eq_true_eq] at h'
  have hf := fnW_lt w false
  have hc : c.ok = true := by first | exact h' | exact h'.1 | exact h'.1.1 | exact h'.1.1.1 | exact h'.1.1.1.1 | exact h'.1.1.1.1.1 | exact h'.1.1.1.1.1.1 | exact h'.1.1.1.1.1.1.1 | exact h'.1.1.1.1.1.1.1.1
  refine ⟨c, 0x2, fmtR rd ra rb 0 (fnW w false), rfl, hc, by decide, fmtR_lt (by omega) (by omega) (by omega) (by omega) (by omega),
    rfl, ?_⟩
  rw [Row.sub c _]
  simp (disch := first | rfl | omega) only [bit_eq_fld, fmtR_rd, fmtR_ra, fmtR_rb, fmtR_rc, fmtR_fn]
  cases w <;> simp [accept, h, fld, fnW, b2n]
theorem and (c : Ctl) (w : Bool) (rd ra rb : Nat) : Statement (.and c w rd ra rb) := by
  intro h _
  have h' := h
  simp only [Instr.wellFormed, opndOk, gOk, pairOk, vOk, pOk, VF.ok, VF2.ok, VMemF.ok, MemF.ok, AtomF.ok, EngF.ok, Bool.and_eq_true,
    decide_eq_true_eq] at h'
  have hf := fnW_lt w false
  have hc : c.ok = true := by first | exact h' | exact h'.1 | exact h'.1.1 | exact h'.1.1.1 | exact h'.1.1.1.1 | exact h'.1.1.1.1.1 | exact h'.1.1.1.1.1.1 | exact h'.1.1.1.1.1.1.1 | exact h'.1.1.1.1.1.1.1.1
  refine ⟨c, 0x3, fmtR rd ra rb 0 (fnW w false), rfl, hc, by decide, fmtR_lt (by omega) (by omega) (by omega) (by omega) (by omega),
    rfl, ?_⟩
  rw [Row.and c _]
  simp (disch := first | rfl | omega) only [bit_eq_fld, fmtR_rd, fmtR_ra, fmtR_rb, fmtR_rc, fmtR_fn]
  cases w <;> simp [accept, h, fld, fnW, b2n]
theorem or (c : Ctl) (w : Bool) (rd ra rb : Nat) : Statement (.or c w rd ra rb) := by
  intro h _
  have h' := h
  simp only [Instr.wellFormed, opndOk, gOk, pairOk, vOk, pOk, VF.ok, VF2.ok, VMemF.ok, MemF.ok, AtomF.ok, EngF.ok, Bool.and_eq_true,
    decide_eq_true_eq] at h'
  have hf := fnW_lt w false
  have hc : c.ok = true := by first | exact h' | exact h'.1 | exact h'.1.1 | exact h'.1.1.1 | exact h'.1.1.1.1 | exact h'.1.1.1.1.1 | exact h'.1.1.1.1.1.1 | exact h'.1.1.1.1.1.1.1 | exact h'.1.1.1.1.1.1.1.1
  refine ⟨c, 0x4, fmtR rd ra rb 0 (fnW w false), rfl, hc, by decide, fmtR_lt (by omega) (by omega) (by omega) (by omega) (by omega),
    rfl, ?_⟩
  rw [Row.or c _]
  simp (disch := first | rfl | omega) only [bit_eq_fld, fmtR_rd, fmtR_ra, fmtR_rb, fmtR_rc, fmtR_fn]
  cases w <;> simp [accept, h, fld, fnW, b2n]
theorem xor (c : Ctl) (w : Bool) (rd ra rb : Nat) : Statement (.xor c w rd ra rb) := by
  intro h _
  have h' := h
  simp only [Instr.wellFormed, opndOk, gOk, pairOk, vOk, pOk, VF.ok, VF2.ok, VMemF.ok, MemF.ok, AtomF.ok, EngF.ok, Bool.and_eq_true,
    decide_eq_true_eq] at h'
  have hf := fnW_lt w false
  have hc : c.ok = true := by first | exact h' | exact h'.1 | exact h'.1.1 | exact h'.1.1.1 | exact h'.1.1.1.1 | exact h'.1.1.1.1.1 | exact h'.1.1.1.1.1.1 | exact h'.1.1.1.1.1.1.1 | exact h'.1.1.1.1.1.1.1.1
  refine ⟨c, 0x5, fmtR rd ra rb 0 (fnW w false), rfl, hc, by decide, fmtR_lt (by omega) (by omega) (by omega) (by omega) (by omega),
    rfl, ?_⟩
  rw [Row.xor c _]
  simp (disch := first | rfl | omega) only [bit_eq_fld, fmtR_rd, fmtR_ra, fmtR_rb, fmtR_rc, fmtR_fn]
  cases w <;> simp [accept, h, fld, fnW, b2n]
theorem shl (c : Ctl) (w : Bool) (rd ra rb : Nat) : Statement (.shl c w rd ra rb) := by
  intro h _
  have h' := h
  simp only [Instr.wellFormed, opndOk, gOk, pairOk, vOk, pOk, VF.ok, VF2.ok, VMemF.ok, MemF.ok, AtomF.ok, EngF.ok, Bool.and_eq_true,
    decide_eq_true_eq] at h'
  have hf := fnW_lt w false
  have hc : c.ok = true := by first | exact h' | exact h'.1 | exact h'.1.1 | exact h'.1.1.1 | exact h'.1.1.1.1 | exact h'.1.1.1.1.1 | exact h'.1.1.1.1.1.1 | exact h'.1.1.1.1.1.1.1 | exact h'.1.1.1.1.1.1.1.1
  refine ⟨c, 0x6, fmtR rd ra rb 0 (fnW w false), rfl, hc, by decide, fmtR_lt (by omega) (by omega) (by omega) (by omega) (by omega),
    rfl, ?_⟩
  rw [Row.shl c _]
  simp (disch := first | rfl | omega) only [bit_eq_fld, fmtR_rd, fmtR_ra, fmtR_rb, fmtR_rc, fmtR_fn]
  cases w <;> simp [accept, h, fld, fnW, b2n]
theorem shr (c : Ctl) (w : Bool) (rd ra rb : Nat) : Statement (.shr c w rd ra rb) := by
  intro h _
  have h' := h
  simp only [Instr.wellFormed, opndOk, gOk, pairOk, vOk, pOk, VF.ok, VF2.ok, VMemF.ok, MemF.ok, AtomF.ok, EngF.ok, Bool.and_eq_true,
    decide_eq_true_eq] at h'
  have hf := fnW_lt w false
  have hc : c.ok = true := by first | exact h' | exact h'.1 | exact h'.1.1 | exact h'.1.1.1 | exact h'.1.1.1.1 | exact h'.1.1.1.1.1 | exact h'.1.1.1.1.1.1 | exact h'.1.1.1.1.1.1.1 | exact h'.1.1.1.1.1.1.1.1
  refine ⟨c, 0x7, fmtR rd ra rb 0 (fnW w false), rfl, hc, by decide, fmtR_lt (by omega) (by omega) (by omega) (by omega) (by omega),
    rfl, ?_⟩
  rw [Row.shr c _]
  simp (disch := first | rfl | omega) only [bit_eq_fld, fmtR_rd, fmtR_ra, fmtR_rb, fmtR_rc, fmtR_fn]
  cases w <;> simp [accept, h, fld, fnW, b2n]
theorem sra (c : Ctl) (w : Bool) (rd ra rb : Nat) : Statement (.sra c w rd ra rb) := by
  intro h _
  have h' := h
  simp only [Instr.wellFormed, opndOk, gOk, pairOk, vOk, pOk, VF.ok, VF2.ok, VMemF.ok, MemF.ok, AtomF.ok, EngF.ok, Bool.and_eq_true,
    decide_eq_true_eq] at h'
  have hf := fnW_lt w false
  have hc : c.ok = true := by first | exact h' | exact h'.1 | exact h'.1.1 | exact h'.1.1.1 | exact h'.1.1.1.1 | exact h'.1.1.1.1.1 | exact h'.1.1.1.1.1.1 | exact h'.1.1.1.1.1.1.1 | exact h'.1.1.1.1.1.1.1.1
  refine ⟨c, 0x8, fmtR rd ra rb 0 (fnW w false), rfl, hc, by decide, fmtR_lt (by omega) (by omega) (by omega) (by omega) (by omega),
    rfl, ?_⟩
  rw [Row.sra c _]
  simp (disch := first | rfl | omega) only [bit_eq_fld, fmtR_rd, fmtR_ra, fmtR_rb, fmtR_rc, fmtR_fn]
  cases w <;> simp [accept, h, fld, fnW, b2n]
theorem mul (c : Ctl) (w : Bool) (rd ra rb : Nat) : Statement (.mul c w rd ra rb) := by
  intro h _
  have h' := h
  simp only [Instr.wellFormed, opndOk, gOk, pairOk, vOk, pOk, VF.ok, VF2.ok, VMemF.ok, MemF.ok, AtomF.ok, EngF.ok, Bool.and_eq_true,
    decide_eq_true_eq] at h'
  have hf := fnW_lt w false
  have hc : c.ok = true := by first | exact h' | exact h'.1 | exact h'.1.1 | exact h'.1.1.1 | exact h'.1.1.1.1 | exact h'.1.1.1.1.1 | exact h'.1.1.1.1.1.1 | exact h'.1.1.1.1.1.1.1 | exact h'.1.1.1.1.1.1.1.1
  refine ⟨c, 0x9, fmtR rd ra rb 0 (fnW w false), rfl, hc, by decide, fmtR_lt (by omega) (by omega) (by omega) (by omega) (by omega),
    rfl, ?_⟩
  rw [Row.mul c _]
  simp (disch := first | rfl | omega) only [bit_eq_fld, fmtR_rd, fmtR_ra, fmtR_rb, fmtR_rc, fmtR_fn]
  cases w <;> simp [accept, h, fld, fnW, b2n]
theorem mulh (c : Ctl) (w u : Bool) (rd ra rb : Nat) : Statement (.mulh c w u rd ra rb) := by
  intro h _
  have h' := h
  simp only [Instr.wellFormed, opndOk, gOk, pairOk, vOk, pOk, VF.ok, VF2.ok, VMemF.ok, MemF.ok, AtomF.ok, EngF.ok, Bool.and_eq_true,
    decide_eq_true_eq] at h'
  have hf := fnW_lt w u
  have hc : c.ok = true := by first | exact h' | exact h'.1 | exact h'.1.1 | exact h'.1.1.1 | exact h'.1.1.1.1 | exact h'.1.1.1.1.1 | exact h'.1.1.1.1.1.1 | exact h'.1.1.1.1.1.1.1 | exact h'.1.1.1.1.1.1.1.1
  refine ⟨c, 0xA, fmtR rd ra rb 0 (fnW w u), rfl, hc, by decide, fmtR_lt (by omega) (by omega) (by omega) (by omega) (by omega),
    rfl, ?_⟩
  rw [Row.mulh c _]
  simp (disch := first | rfl | omega) only [bit_eq_fld, fmtR_rd, fmtR_ra, fmtR_rb, fmtR_rc, fmtR_fn]
  cases w <;> cases u <;> simp [accept, h, fld, fnW, b2n]
theorem div (c : Ctl) (w u : Bool) (rd ra rb : Nat) : Statement (.div c w u rd ra rb) := by
  intro h _
  have h' := h
  simp only [Instr.wellFormed, opndOk, gOk, pairOk, vOk, pOk, VF.ok, VF2.ok, VMemF.ok, MemF.ok, AtomF.ok, EngF.ok, Bool.and_eq_true,
    decide_eq_true_eq] at h'
  have hf := fnW_lt w u
  have hc : c.ok = true := by first | exact h' | exact h'.1 | exact h'.1.1 | exact h'.1.1.1 | exact h'.1.1.1.1 | exact h'.1.1.1.1.1 | exact h'.1.1.1.1.1.1 | exact h'.1.1.1.1.1.1.1 | exact h'.1.1.1.1.1.1.1.1
  refine ⟨c, 0xB, fmtR rd ra rb 0 (fnW w u), rfl, hc, by decide, fmtR_lt (by omega) (by omega) (by omega) (by omega) (by omega),
    rfl, ?_⟩
  rw [Row.div c _]
  simp (disch := first | rfl | omega) only [bit_eq_fld, fmtR_rd, fmtR_ra, fmtR_rb, fmtR_rc, fmtR_fn]
  cases w <;> cases u <;> simp [accept, h, fld, fnW, b2n]
theorem rem (c : Ctl) (w u : Bool) (rd ra rb : Nat) : Statement (.rem c w u rd ra rb) := by
  intro h _
  have h' := h
  simp only [Instr.wellFormed, opndOk, gOk, pairOk, vOk, pOk, VF.ok, VF2.ok, VMemF.ok, MemF.ok, AtomF.ok, EngF.ok, Bool.and_eq_true,
    decide_eq_true_eq] at h'
  have hf := fnW_lt w u
  have hc : c.ok = true := by first | exact h' | exact h'.1 | exact h'.1.1 | exact h'.1.1.1 | exact h'.1.1.1.1 | exact h'.1.1.1.1.1 | exact h'.1.1.1.1.1.1 | exact h'.1.1.1.1.1.1.1 | exact h'.1.1.1.1.1.1.1.1
  refine ⟨c, 0xC, fmtR rd ra rb 0 (fnW w u), rfl, hc, by decide, fmtR_lt (by omega) (by omega) (by omega) (by omega) (by omega),
    rfl, ?_⟩
  rw [Row.rem c _]
  simp (disch := first | rfl | omega) only [bit_eq_fld, fmtR_rd, fmtR_ra, fmtR_rb, fmtR_rc, fmtR_fn]
  cases w <;> cases u <;> simp [accept, h, fld, fnW, b2n]
theorem min (c : Ctl) (w u : Bool) (rd ra rb : Nat) : Statement (.min c w u rd ra rb) := by
  intro h _
  have h' := h
  simp only [Instr.wellFormed, opndOk, gOk, pairOk, vOk, pOk, VF.ok, VF2.ok, VMemF.ok, MemF.ok, AtomF.ok, EngF.ok, Bool.and_eq_true,
    decide_eq_true_eq] at h'
  have hf := fnW_lt w u
  have hc : c.ok = true := by first | exact h' | exact h'.1 | exact h'.1.1 | exact h'.1.1.1 | exact h'.1.1.1.1 | exact h'.1.1.1.1.1 | exact h'.1.1.1.1.1.1 | exact h'.1.1.1.1.1.1.1 | exact h'.1.1.1.1.1.1.1.1
  refine ⟨c, 0xD, fmtR rd ra rb 0 (fnW w u), rfl, hc, by decide, fmtR_lt (by omega) (by omega) (by omega) (by omega) (by omega),
    rfl, ?_⟩
  rw [Row.min c _]
  simp (disch := first | rfl | omega) only [bit_eq_fld, fmtR_rd, fmtR_ra, fmtR_rb, fmtR_rc, fmtR_fn]
  cases w <;> cases u <;> simp [accept, h, fld, fnW, b2n]
theorem max (c : Ctl) (w u : Bool) (rd ra rb : Nat) : Statement (.max c w u rd ra rb) := by
  intro h _
  have h' := h
  simp only [Instr.wellFormed, opndOk, gOk, pairOk, vOk, pOk, VF.ok, VF2.ok, VMemF.ok, MemF.ok, AtomF.ok, EngF.ok, Bool.and_eq_true,
    decide_eq_true_eq] at h'
  have hf := fnW_lt w u
  have hc : c.ok = true := by first | exact h' | exact h'.1 | exact h'.1.1 | exact h'.1.1.1 | exact h'.1.1.1.1 | exact h'.1.1.1.1.1 | exact h'.1.1.1.1.1.1 | exact h'.1.1.1.1.1.1.1 | exact h'.1.1.1.1.1.1.1.1
  refine ⟨c, 0xE, fmtR rd ra rb 0 (fnW w u), rfl, hc, by decide, fmtR_lt (by omega) (by omega) (by omega) (by omega) (by omega),
    rfl, ?_⟩
  rw [Row.max c _]
  simp (disch := first | rfl | omega) only [bit_eq_fld, fmtR_rd, fmtR_ra, fmtR_rb, fmtR_rc, fmtR_fn]
  cases w <;> cases u <;> simp [accept, h, fld, fnW, b2n]
theorem cmp (c : Ctl) (w u : Bool) (cond : Cond) (rd ra rb : Nat) : Statement (.cmp c w u cond rd ra rb) := by
  intro h _
  have h' := h
  simp only [Instr.wellFormed, opndOk, gOk, pairOk, vOk, pOk, VF.ok, VF2.ok, VMemF.ok, MemF.ok, AtomF.ok, EngF.ok, Bool.and_eq_true,
    decide_eq_true_eq] at h'
  have hf : fnW w u + 8 * cond.code < 65536 := by have := Cond.code_lt cond; cases w <;> cases u <;> simp only [fnW, b2n] <;> simp <;> omega
  have hc : c.ok = true := by first | exact h' | exact h'.1 | exact h'.1.1 | exact h'.1.1.1 | exact h'.1.1.1.1 | exact h'.1.1.1.1.1 | exact h'.1.1.1.1.1.1 | exact h'.1.1.1.1.1.1.1 | exact h'.1.1.1.1.1.1.1.1
  refine ⟨c, 0xF, fmtR rd ra rb 0 (fnW w u + 8 * cond.code), rfl, hc, by decide, fmtR_lt (by omega) (by omega) (by omega) (by omega) (by omega),
    rfl, ?_⟩
  rw [Row.cmp c _ (k := cond) (by rw [fmtR_fn (by decide)]; cases w <;> cases u <;> cases cond <;> rfl)]
  simp (disch := first | rfl | omega) only [bit_eq_fld, fmtR_rd, fmtR_ra, fmtR_rb, fmtR_rc, fmtR_fn]
  cases w <;> cases u <;> cases cond <;> simp [accept, h, fld, fnW, b2n, Cond.code, condOf]
theorem sel (c : Ctl) (w : Bool) (rd ra rb rc : Nat) : Statement (.sel c w rd ra rb rc) := by
  intro h _
  have h' := h
  simp only [Instr.wellFormed, opndOk, gOk, pairOk, vOk, pOk, VF.ok, VF2.ok, VMemF.ok, MemF.ok, AtomF.ok, EngF.ok, Bool.and_eq_true,
    decide_eq_true_eq] at h'
  have hf := fnW_lt w false
  have hc : c.ok = true := by first | exact h' | exact h'.1 | exact h'.1.1 | exact h'.1.1.1 | exact h'.1.1.1.1 | exact h'.1.1.1.1.1 | exact h'.1.1.1.1.1.1 | exact h'.1.1.1.1.1.1.1 | exact h'.1.1.1.1.1.1.1.1
  refine ⟨c, 0x10, fmtR rd ra rb rc (fnW w false), rfl, hc, by decide, fmtR_lt (by omega) (by omega) (by omega) (by omega) (by omega),
    rfl, ?_⟩
  rw [Row.sel c _]
  simp (disch := first | rfl | omega) only [bit_eq_fld, fmtR_rd, fmtR_ra, fmtR_rb, fmtR_rc, fmtR_fn]
  cases w <;> simp [accept, h, fld, fnW, b2n]
theorem clz (c : Ctl) (w : Bool) (rd ra : Nat) : Statement (.clz c w rd ra) := by
  intro h _
  have h' := h
  simp only [Instr.wellFormed, opndOk, gOk, pairOk, vOk, pOk, VF.ok, VF2.ok, VMemF.ok, MemF.ok, AtomF.ok, EngF.ok, Bool.and_eq_true,
    decide_eq_true_eq] at h'
  have hf := fnW_lt w false
  have hc : c.ok = true := by first | exact h' | exact h'.1 | exact h'.1.1 | exact h'.1.1.1 | exact h'.1.1.1.1 | exact h'.1.1.1.1.1 | exact h'.1.1.1.1.1.1 | exact h'.1.1.1.1.1.1.1 | exact h'.1.1.1.1.1.1.1.1
  refine ⟨c, 0x13, fmtR rd ra 0 0 (fnW w false), rfl, hc, by decide, fmtR_lt (by omega) (by omega) (by omega) (by omega) (by omega),
    rfl, ?_⟩
  rw [Row.clz c _]
  simp (disch := first | rfl | omega) only [bit_eq_fld, fmtR_rd, fmtR_ra, fmtR_rb, fmtR_rc, fmtR_fn]
  cases w <;> simp [accept, h, fld, fnW, b2n]
theorem popc (c : Ctl) (w : Bool) (rd ra : Nat) : Statement (.popc c w rd ra) := by
  intro h _
  have h' := h
  simp only [Instr.wellFormed, opndOk, gOk, pairOk, vOk, pOk, VF.ok, VF2.ok, VMemF.ok, MemF.ok, AtomF.ok, EngF.ok, Bool.and_eq_true,
    decide_eq_true_eq] at h'
  have hf := fnW_lt w false
  have hc : c.ok = true := by first | exact h' | exact h'.1 | exact h'.1.1 | exact h'.1.1.1 | exact h'.1.1.1.1 | exact h'.1.1.1.1.1 | exact h'.1.1.1.1.1.1 | exact h'.1.1.1.1.1.1.1 | exact h'.1.1.1.1.1.1.1.1
  refine ⟨c, 0x14, fmtR rd ra 0 0 (fnW w false), rfl, hc, by decide, fmtR_lt (by omega) (by omega) (by omega) (by omega) (by omega),
    rfl, ?_⟩
  rw [Row.popc c _]
  simp (disch := first | rfl | omega) only [bit_eq_fld, fmtR_rd, fmtR_ra, fmtR_rb, fmtR_rc, fmtR_fn]
  cases w <;> simp [accept, h, fld, fnW, b2n]
theorem movi (c : Ctl) (rd : Nat) (imm : BitVec 24) : Statement (.movi c rd imm) := by
  intro h _
  have h' := h
  simp only [Instr.wellFormed, opndOk, gOk, pairOk, vOk, pOk, VF.ok, VF2.ok, VMemF.ok, MemF.ok, AtomF.ok, EngF.ok, Bool.and_eq_true,
    decide_eq_true_eq] at h'
  have hi := imm.isLt
  have hc : c.ok = true := by first | exact h' | exact h'.1 | exact h'.1.1 | exact h'.1.1.1 | exact h'.1.1.1.1 | exact h'.1.1.1.1.1 | exact h'.1.1.1.1.1.1 | exact h'.1.1.1.1.1.1.1 | exact h'.1.1.1.1.1.1.1.1
  refine ⟨c, 0x11, fmtI rd 0 0 imm.toNat, rfl, hc, by decide, fmtI_lt (by omega) (by omega) (by omega) (by omega),
    rfl, ?_⟩
  rw [Row.movi c _ (fmtI_md (by omega) (by omega))]
  simp (disch := first | rfl | omega) only [fmtI_rd, fmtI_rd4, fmtI_top, fmtI_ra, fmtI_md, fmtI_imm]
  have e1 : fld imm.toNat 0 24 = imm.toNat := by simp only [fld]; omega
  simp [accept, h, e1]
theorem moviHi (c : Ctl) (rd : Nat) (imm : BitVec 16) : Statement (.moviHi c rd imm) := by
  intro h _
  have h' := h
  simp only [Instr.wellFormed, opndOk, gOk, pairOk, vOk, pOk, VF.ok, VF2.ok, VMemF.ok, MemF.ok, AtomF.ok, EngF.ok, Bool.and_eq_true,
    decide_eq_true_eq] at h'
  have hi := imm.isLt
  have hc : c.ok = true := by first | exact h' | exact h'.1 | exact h'.1.1 | exact h'.1.1.1 | exact h'.1.1.1.1 | exact h'.1.1.1.1.1 | exact h'.1.1.1.1.1.1 | exact h'.1.1.1.1.1.1.1 | exact h'.1.1.1.1.1.1.1.1
  refine ⟨c, 0x11, fmtI rd 0 1 imm.toNat, rfl, hc, by decide, fmtI_lt (by omega) (by omega) (by omega) (by omega),
    rfl, ?_⟩
  rw [Row.moviHi c _ (fmtI_md (by omega) (by omega))]
  simp (disch := first | rfl | omega) only [fmtI_rd, fmtI_rd4, fmtI_top, fmtI_ra, fmtI_md, fmtI_imm]
  have e1 : fld imm.toNat 0 16 = imm.toNat := by simp only [fld]; omega
  have e2 : fld imm.toNat 16 8 = 0 := by simp only [fld]; omega
  simp [accept, h, e1, e2]
theorem addi (c : Ctl) (rd ra : Nat) (imm : BitVec 24) : Statement (.addi c rd ra imm) := by
  intro h _
  have h' := h
  simp only [Instr.wellFormed, opndOk, gOk, pairOk, vOk, pOk, VF.ok, VF2.ok, VMemF.ok, MemF.ok, AtomF.ok, EngF.ok, Bool.and_eq_true,
    decide_eq_true_eq] at h'
  have hi := imm.isLt
  have hc : c.ok = true := by first | exact h' | exact h'.1 | exact h'.1.1 | exact h'.1.1.1 | exact h'.1.1.1.1 | exact h'.1.1.1.1.1 | exact h'.1.1.1.1.1.1 | exact h'.1.1.1.1.1.1.1 | exact h'.1.1.1.1.1.1.1.1
  refine ⟨c, 0x12, fmtI rd ra 0 imm.toNat, rfl, hc, by decide, fmtI_lt (by omega) (by omega) (by omega) (by omega),
    rfl, ?_⟩
  rw [Row.addi c _]
  simp (disch := first | rfl | omega) only [fmtI_rd, fmtI_rd4, fmtI_top, fmtI_ra, fmtI_md, fmtI_imm]
  have e1 : fld imm.toNat 0 24 = imm.toNat := by simp only [fld]; omega
  simp [accept, h, e1]
theorem addp (c : Ctl) (rd ra : Nat) (imm : BitVec 24) : Statement (.addp c rd ra imm) := by
  intro h _
  have h' := h
  simp only [Instr.wellFormed, opndOk, gOk, pairOk, vOk, pOk, VF.ok, VF2.ok, VMemF.ok, MemF.ok, AtomF.ok, EngF.ok, Bool.and_eq_true,
    decide_eq_true_eq] at h'
  have hi := imm.isLt
  have hc : c.ok = true := by first | exact h' | exact h'.1 | exact h'.1.1 | exact h'.1.1.1 | exact h'.1.1.1.1 | exact h'.1.1.1.1.1 | exact h'.1.1.1.1.1.1 | exact h'.1.1.1.1.1.1.1 | exact h'.1.1.1.1.1.1.1.1
  refine ⟨c, 0x15, fmtI rd ra 0 imm.toNat, rfl, hc, by decide, fmtI_lt (by omega) (by omega) (by omega) (by omega),
    rfl, ?_⟩
  rw [Row.addp c _]
  simp (disch := first | rfl | omega) only [fmtI_rd, fmtI_rd4, fmtI_top, fmtI_ra, fmtI_md, fmtI_imm]
  have e1 : fld imm.toNat 0 24 = imm.toNat := by simp only [fld]; omega
  simp [accept, h, e1]
theorem br (c : Ctl) (t : BTarget) : Statement (.br c t) := by
  intro h _
  have h' := h
  simp only [Instr.wellFormed, opndOk, gOk, pairOk, vOk, pOk, VF.ok, VF2.ok, VMemF.ok, MemF.ok, AtomF.ok, EngF.ok, Bool.and_eq_true,
    decide_eq_true_eq] at h'
  have ht : t.ok = true := h'.2
  have hc : c.ok = true := by first | exact h' | exact h'.1 | exact h'.1.1 | exact h'.1.1.1 | exact h'.1.1.1.1 | exact h'.1.1.1.1.1 | exact h'.1.1.1.1.1.1 | exact h'.1.1.1.1.1.1.1 | exact h'.1.1.1.1.1.1.1.1
  refine ⟨c, 0x20, encT t, rfl, hc, by decide, encT_lt ht,
    rfl, ?_⟩
  rw [Row.br c _ (decodeTarget_enc ht)]
  simp [accept, h]
theorem bz (c : Ctl) (cr : Nat) (off : BitVec 32) : Statement (.bz c cr off) := by
  intro h _
  have h' := h
  simp only [Instr.wellFormed, opndOk, gOk, pairOk, vOk, pOk, VF.ok, VF2.ok, VMemF.ok, MemF.ok, AtomF.ok, EngF.ok, Bool.and_eq_true,
    decide_eq_true_eq] at h'
  have hi := off.isLt
  have hc : c.ok = true := by first | exact h' | exact h'.1 | exact h'.1.1 | exact h'.1.1.1 | exact h'.1.1.1.1 | exact h'.1.1.1.1.1 | exact h'.1.1.1.1.1.1 | exact h'.1.1.1.1.1.1.1 | exact h'.1.1.1.1.1.1.1.1
  refine ⟨c, 0x21, fmtB cr 0 off.toNat, rfl, hc, by decide, fmtB_lt (by omega) (by omega) (by omega),
    rfl, ?_⟩
  rw [Row.bz c _]
  simp (disch := first | rfl | omega) only [fmtB_cr, fmtB_kind, fmtB_off]
  simp [accept, h]
theorem bnz (c : Ctl) (cr : Nat) (off : BitVec 32) : Statement (.bnz c cr off) := by
  intro h _
  have h' := h
  simp only [Instr.wellFormed, opndOk, gOk, pairOk, vOk, pOk, VF.ok, VF2.ok, VMemF.ok, MemF.ok, AtomF.ok, EngF.ok, Bool.and_eq_true,
    decide_eq_true_eq] at h'
  have hi := off.isLt
  have hc : c.ok = true := by first | exact h' | exact h'.1 | exact h'.1.1 | exact h'.1.1.1 | exact h'.1.1.1.1 | exact h'.1.1.1.1.1 | exact h'.1.1.1.1.1.1 | exact h'.1.1.1.1.1.1.1 | exact h'.1.1.1.1.1.1.1.1
  refine ⟨c, 0x22, fmtB cr 0 off.toNat, rfl, hc, by decide, fmtB_lt (by omega) (by omega) (by omega),
    rfl, ?_⟩
  rw [Row.bnz c _]
  simp (disch := first | rfl | omega) only [fmtB_cr, fmtB_kind, fmtB_off]
  simp [accept, h]
theorem call (c : Ctl) (t : BTarget) : Statement (.call c t) := by
  intro h _
  have h' := h
  simp only [Instr.wellFormed, opndOk, gOk, pairOk, vOk, pOk, VF.ok, VF2.ok, VMemF.ok, MemF.ok, AtomF.ok, EngF.ok, Bool.and_eq_true,
    decide_eq_true_eq] at h'
  have ht : t.ok = true := h'.2
  have hc : c.ok = true := by first | exact h' | exact h'.1 | exact h'.1.1 | exact h'.1.1.1 | exact h'.1.1.1.1 | exact h'.1.1.1.1.1 | exact h'.1.1.1.1.1.1 | exact h'.1.1.1.1.1.1.1 | exact h'.1.1.1.1.1.1.1.1
  refine ⟨c, 0x23, encT t, rfl, hc, by decide, encT_lt ht,
    rfl, ?_⟩
  rw [Row.call c _ (decodeTarget_enc ht)]
  simp [accept, h]
theorem ret (c : Ctl) : Statement (.ret c) := by
  intro h _
  have h' := h
  simp only [Instr.wellFormed, opndOk, gOk, pairOk, vOk, pOk, VF.ok, VF2.ok, VMemF.ok, MemF.ok, AtomF.ok, EngF.ok, Bool.and_eq_true,
    decide_eq_true_eq] at h'
  have hc : c.ok = true := by first | exact h' | exact h'.1 | exact h'.1.1 | exact h'.1.1.1 | exact h'.1.1.1.1 | exact h'.1.1.1.1.1 | exact h'.1.1.1.1.1.1 | exact h'.1.1.1.1.1.1.1 | exact h'.1.1.1.1.1.1.1.1
  refine ⟨c, 0x24, 0, rfl, hc, by decide, by decide,
    rfl, ?_⟩
  rw [Row.ret c _]
  simp [accept, h]
theorem loop (c : Ctl) (off : BitVec 32) : Statement (.loop c off) := by
  intro h _
  have h' := h
  simp only [Instr.wellFormed, opndOk, gOk, pairOk, vOk, pOk, VF.ok, VF2.ok, VMemF.ok, MemF.ok, AtomF.ok, EngF.ok, Bool.and_eq_true,
    decide_eq_true_eq] at h'
  have hi := off.isLt
  have hc : c.ok = true := by first | exact h' | exact h'.1 | exact h'.1.1 | exact h'.1.1.1 | exact h'.1.1.1.1 | exact h'.1.1.1.1.1 | exact h'.1.1.1.1.1.1 | exact h'.1.1.1.1.1.1.1 | exact h'.1.1.1.1.1.1.1.1
  refine ⟨c, 0x25, fmtB 0 0 off.toNat, rfl, hc, by decide, fmtB_lt (by omega) (by omega) (by omega),
    rfl, ?_⟩
  rw [Row.loop c _]
  simp (disch := first | rfl | omega) only [fmtB_cr, fmtB_kind, fmtB_off]
  simp [accept, h]
theorem looph (c : Ctl) (rd ra rb rc : Nat) : Statement (.looph c rd ra rb rc) := by
  intro h _
  have h' := h
  simp only [Instr.wellFormed, opndOk, gOk, pairOk, vOk, pOk, VF.ok, VF2.ok, VMemF.ok, MemF.ok, AtomF.ok, EngF.ok, Bool.and_eq_true,
    decide_eq_true_eq] at h'
  have hc : c.ok = true := by first | exact h' | exact h'.1 | exact h'.1.1 | exact h'.1.1.1 | exact h'.1.1.1.1 | exact h'.1.1.1.1.1 | exact h'.1.1.1.1.1.1 | exact h'.1.1.1.1.1.1.1 | exact h'.1.1.1.1.1.1.1.1
  refine ⟨c, 0x26, fmtR rd ra rb rc 0, rfl, hc, by decide, fmtR_lt (by omega) (by omega) (by omega) (by omega) (by omega),
    rfl, ?_⟩
  rw [Row.looph c _]
  simp (disch := first | rfl | omega) only [bit_eq_fld, fmtR_rd, fmtR_ra, fmtR_rb, fmtR_rc, fmtR_fn]
  simp [accept, h, fld]
theorem loopt (c : Ctl) (k : Nat) (off : BitVec 32) : Statement (.loopt c k off) := by
  intro h _
  have h' := h
  simp only [Instr.wellFormed, opndOk, gOk, pairOk, vOk, pOk, VF.ok, VF2.ok, VMemF.ok, MemF.ok, AtomF.ok, EngF.ok, Bool.and_eq_true,
    decide_eq_true_eq] at h'
  have hi := off.isLt
  have hc : c.ok = true := by first | exact h' | exact h'.1 | exact h'.1.1 | exact h'.1.1.1 | exact h'.1.1.1.1 | exact h'.1.1.1.1.1 | exact h'.1.1.1.1.1.1 | exact h'.1.1.1.1.1.1.1 | exact h'.1.1.1.1.1.1.1.1
  refine ⟨c, 0x27, fmtB k 0 off.toNat, rfl, hc, by decide, fmtB_lt (by omega) (by omega) (by omega),
    rfl, ?_⟩
  rw [Row.loopt c _]
  simp (disch := first | rfl | omega) only [fmtB_cr, fmtB_kind, fmtB_off]
  simp [accept, h]
theorem ld (c : Ctl) (m : MemF) : Statement (.ld c m) := by
  intro h _
  have h' := h
  simp only [Instr.wellFormed, opndOk, gOk, pairOk, vOk, pOk, VF.ok, VF2.ok, VMemF.ok, MemF.ok, AtomF.ok, EngF.ok, Bool.and_eq_true,
    decide_eq_true_eq] at h'
  have hi := m.off.isLt
  have hs := MSize.code_lt m.sz
  have hc : c.ok = true := by first | exact h' | exact h'.1 | exact h'.1.1 | exact h'.1.1.1 | exact h'.1.1.1.1 | exact h'.1.1.1.1.1 | exact h'.1.1.1.1.1.1 | exact h'.1.1.1.1.1.1.1 | exact h'.1.1.1.1.1.1.1.1
  refine ⟨c, 0x30, encM m, rfl, hc, by decide, fmtM_lt (by omega) (by omega) (by omega) (by omega) (by omega),
    rfl, ?_⟩
  rw [Row.ld c _]
  simp (disch := first | rfl | omega) only [bit_eq_fld, encM, encA, fmtM_rd, fmtM_bp, fmtM_sz, fmtM_ac, fmtM_off, mszOf_code, atomOff_sc, atomOff_sr,
    atomOff_off]
  have e1 : fld m.off.toNat 0 24 = m.off.toNat := by simp only [fld]; omega
  simp [accept, h, e1]
theorem ldZeroExtending (c : Ctl) (m : MemF) : Statement (.ldZeroExtending c m) := by
  intro h _
  have h' := h
  simp only [Instr.wellFormed, opndOk, gOk, pairOk, vOk, pOk, VF.ok, VF2.ok, VMemF.ok, MemF.ok, AtomF.ok, EngF.ok, Bool.and_eq_true,
    decide_eq_true_eq] at h'
  have hi := m.off.isLt
  have hs := MSize.code_lt m.sz
  have hc : c.ok = true := by first | exact h' | exact h'.1 | exact h'.1.1 | exact h'.1.1.1 | exact h'.1.1.1.1 | exact h'.1.1.1.1.1 | exact h'.1.1.1.1.1.1 | exact h'.1.1.1.1.1.1.1 | exact h'.1.1.1.1.1.1.1.1
  refine ⟨c, 0x31, encM m, rfl, hc, by decide, fmtM_lt (by omega) (by omega) (by omega) (by omega) (by omega),
    rfl, ?_⟩
  rw [Row.ldZeroExtending c _]
  simp (disch := first | rfl | omega) only [bit_eq_fld, encM, encA, fmtM_rd, fmtM_bp, fmtM_sz, fmtM_ac, fmtM_off, mszOf_code, atomOff_sc, atomOff_sr,
    atomOff_off]
  have e1 : fld m.off.toNat 0 24 = m.off.toNat := by simp only [fld]; omega
  simp [accept, h, e1]
theorem st (c : Ctl) (m : MemF) : Statement (.st c m) := by
  intro h _
  have h' := h
  simp only [Instr.wellFormed, opndOk, gOk, pairOk, vOk, pOk, VF.ok, VF2.ok, VMemF.ok, MemF.ok, AtomF.ok, EngF.ok, Bool.and_eq_true,
    decide_eq_true_eq] at h'
  have hi := m.off.isLt
  have hs := MSize.code_lt m.sz
  have hc : c.ok = true := by first | exact h' | exact h'.1 | exact h'.1.1 | exact h'.1.1.1 | exact h'.1.1.1.1 | exact h'.1.1.1.1.1 | exact h'.1.1.1.1.1.1 | exact h'.1.1.1.1.1.1.1 | exact h'.1.1.1.1.1.1.1.1
  refine ⟨c, 0x32, encM m, rfl, hc, by decide, fmtM_lt (by omega) (by omega) (by omega) (by omega) (by omega),
    rfl, ?_⟩
  rw [Row.st c _]
  simp (disch := first | rfl | omega) only [bit_eq_fld, encM, encA, fmtM_rd, fmtM_bp, fmtM_sz, fmtM_ac, fmtM_off, mszOf_code, atomOff_sc, atomOff_sr,
    atomOff_off]
  have e1 : fld m.off.toNat 0 24 = m.off.toNat := by simp only [fld]; omega
  simp [accept, h, e1]
theorem aadd (c : Ctl) (a : AtomF) : Statement (.aadd c a) := by
  intro h _
  have h' := h
  simp only [Instr.wellFormed, opndOk, gOk, pairOk, vOk, pOk, VF.ok, VF2.ok, VMemF.ok, MemF.ok, AtomF.ok, EngF.ok, Bool.and_eq_true,
    decide_eq_true_eq] at h'
  have hi := a.off.isLt
  have hz : (0 : Nat) < 2 := by decide
  have hs : aSz a < 4 := by unfold aSz; split <;> decide
  have ho : a.scope * 2 ^ 20 + 0 * 2 ^ 19 + a.off.toNat < 2 ^ 24 := atomOff_lt (by omega) hz (by omega)
  have hc : c.ok = true := by first | exact h' | exact h'.1 | exact h'.1.1 | exact h'.1.1.1 | exact h'.1.1.1.1 | exact h'.1.1.1.1.1 | exact h'.1.1.1.1.1.1 | exact h'.1.1.1.1.1.1.1 | exact h'.1.1.1.1.1.1.1.1
  refine ⟨c, 0x33, encA a (aSz a) 0, rfl, hc, by decide, fmtM_lt (by omega) (by omega) (by omega) (by omega) (by omega),
    rfl, ?_⟩
  rw [Row.aadd c _]
  simp (disch := first | rfl | omega) only [bit_eq_fld, encM, encA, fmtM_rd, fmtM_bp, fmtM_sz, fmtM_ac, fmtM_off, mszOf_code, atomOff_sc, atomOff_sr,
    atomOff_off]
  rcases a with ⟨w, rd, bp, ac, sc, off⟩
  cases w <;> simp [accept, h, aSz]
theorem amin (c : Ctl) (a : AtomF) : Statement (.amin c a) := by
  intro h _
  have h' := h
  simp only [Instr.wellFormed, opndOk, gOk, pairOk, vOk, pOk, VF.ok, VF2.ok, VMemF.ok, MemF.ok, AtomF.ok, EngF.ok, Bool.and_eq_true,
    decide_eq_true_eq] at h'
  have hi := a.off.isLt
  have hz : (0 : Nat) < 2 := by decide
  have hs : aSz a < 4 := by unfold aSz; split <;> decide
  have ho : a.scope * 2 ^ 20 + 0 * 2 ^ 19 + a.off.toNat < 2 ^ 24 := atomOff_lt (by omega) hz (by omega)
  have hc : c.ok = true := by first | exact h' | exact h'.1 | exact h'.1.1 | exact h'.1.1.1 | exact h'.1.1.1.1 | exact h'.1.1.1.1.1 | exact h'.1.1.1.1.1.1 | exact h'.1.1.1.1.1.1.1 | exact h'.1.1.1.1.1.1.1.1
  refine ⟨c, 0x34, encA a (aSz a) 0, rfl, hc, by decide, fmtM_lt (by omega) (by omega) (by omega) (by omega) (by omega),
    rfl, ?_⟩
  rw [Row.amin c _]
  simp (disch := first | rfl | omega) only [bit_eq_fld, encM, encA, fmtM_rd, fmtM_bp, fmtM_sz, fmtM_ac, fmtM_off, mszOf_code, atomOff_sc, atomOff_sr,
    atomOff_off]
  rcases a with ⟨w, rd, bp, ac, sc, off⟩
  cases w <;> simp [accept, h, aSz]
theorem aminUnsigned (c : Ctl) (a : AtomF) : Statement (.aminUnsigned c a) := by
  intro h _
  have h' := h
  simp only [Instr.wellFormed, opndOk, gOk, pairOk, vOk, pOk, VF.ok, VF2.ok, VMemF.ok, MemF.ok, AtomF.ok, EngF.ok, Bool.and_eq_true,
    decide_eq_true_eq] at h'
  have hi := a.off.isLt
  have hz : (0 : Nat) < 2 := by decide
  have hs : aSz a < 4 := by unfold aSz; split <;> decide
  have ho : a.scope * 2 ^ 20 + 0 * 2 ^ 19 + a.off.toNat < 2 ^ 24 := atomOff_lt (by omega) hz (by omega)
  have hc : c.ok = true := by first | exact h' | exact h'.1 | exact h'.1.1 | exact h'.1.1.1 | exact h'.1.1.1.1 | exact h'.1.1.1.1.1 | exact h'.1.1.1.1.1.1 | exact h'.1.1.1.1.1.1.1 | exact h'.1.1.1.1.1.1.1.1
  refine ⟨c, 0x35, encA a (aSz a) 0, rfl, hc, by decide, fmtM_lt (by omega) (by omega) (by omega) (by omega) (by omega),
    rfl, ?_⟩
  rw [Row.aminUnsigned c _]
  simp (disch := first | rfl | omega) only [bit_eq_fld, encM, encA, fmtM_rd, fmtM_bp, fmtM_sz, fmtM_ac, fmtM_off, mszOf_code, atomOff_sc, atomOff_sr,
    atomOff_off]
  rcases a with ⟨w, rd, bp, ac, sc, off⟩
  cases w <;> simp [accept, h, aSz]
theorem amax (c : Ctl) (a : AtomF) : Statement (.amax c a) := by
  intro h _
  have h' := h
  simp only [Instr.wellFormed, opndOk, gOk, pairOk, vOk, pOk, VF.ok, VF2.ok, VMemF.ok, MemF.ok, AtomF.ok, EngF.ok, Bool.and_eq_true,
    decide_eq_true_eq] at h'
  have hi := a.off.isLt
  have hz : (0 : Nat) < 2 := by decide
  have hs : aSz a < 4 := by unfold aSz; split <;> decide
  have ho : a.scope * 2 ^ 20 + 0 * 2 ^ 19 + a.off.toNat < 2 ^ 24 := atomOff_lt (by omega) hz (by omega)
  have hc : c.ok = true := by first | exact h' | exact h'.1 | exact h'.1.1 | exact h'.1.1.1 | exact h'.1.1.1.1 | exact h'.1.1.1.1.1 | exact h'.1.1.1.1.1.1 | exact h'.1.1.1.1.1.1.1 | exact h'.1.1.1.1.1.1.1.1
  refine ⟨c, 0x36, encA a (aSz a) 0, rfl, hc, by decide, fmtM_lt (by omega) (by omega) (by omega) (by omega) (by omega),
    rfl, ?_⟩
  rw [Row.amax c _]
  simp (disch := first | rfl | omega) only [bit_eq_fld, encM, encA, fmtM_rd, fmtM_bp, fmtM_sz, fmtM_ac, fmtM_off, mszOf_code, atomOff_sc, atomOff_sr,
    atomOff_off]
  rcases a with ⟨w, rd, bp, ac, sc, off⟩
  cases w <;> simp [accept, h, aSz]
theorem amaxUnsigned (c : Ctl) (a : AtomF) : Statement (.amaxUnsigned c a) := by
  intro h _
  have h' := h
  simp only [Instr.wellFormed, opndOk, gOk, pairOk, vOk, pOk, VF.ok, VF2.ok, VMemF.ok, MemF.ok, AtomF.ok, EngF.ok, Bool.and_eq_true,
    decide_eq_true_eq] at h'
  have hi := a.off.isLt
  have hz : (0 : Nat) < 2 := by decide
  have hs : aSz a < 4 := by unfold aSz; split <;> decide
  have ho : a.scope * 2 ^ 20 + 0 * 2 ^ 19 + a.off.toNat < 2 ^ 24 := atomOff_lt (by omega) hz (by omega)
  have hc : c.ok = true := by first | exact h' | exact h'.1 | exact h'.1.1 | exact h'.1.1.1 | exact h'.1.1.1.1 | exact h'.1.1.1.1.1 | exact h'.1.1.1.1.1.1 | exact h'.1.1.1.1.1.1.1 | exact h'.1.1.1.1.1.1.1.1
  refine ⟨c, 0x37, encA a (aSz a) 0, rfl, hc, by decide, fmtM_lt (by omega) (by omega) (by omega) (by omega) (by omega),
    rfl, ?_⟩
  rw [Row.amaxUnsigned c _]
  simp (disch := first | rfl | omega) only [bit_eq_fld, encM, encA, fmtM_rd, fmtM_bp, fmtM_sz, fmtM_ac, fmtM_off, mszOf_code, atomOff_sc, atomOff_sr,
    atomOff_off]
  rcases a with ⟨w, rd, bp, ac, sc, off⟩
  cases w <;> simp [accept, h, aSz]
theorem aand (c : Ctl) (a : AtomF) : Statement (.aand c a) := by
  intro h _
  have h' := h
  simp only [Instr.wellFormed, opndOk, gOk, pairOk, vOk, pOk, VF.ok, VF2.ok, VMemF.ok, MemF.ok, AtomF.ok, EngF.ok, Bool.and_eq_true,
    decide_eq_true_eq] at h'
  have hi := a.off.isLt
  have hz : (0 : Nat) < 2 := by decide
  have hs : aSz a < 4 := by unfold aSz; split <;> decide
  have ho : a.scope * 2 ^ 20 + 0 * 2 ^ 19 + a.off.toNat < 2 ^ 24 := atomOff_lt (by omega) hz (by omega)
  have hc : c.ok = true := by first | exact h' | exact h'.1 | exact h'.1.1 | exact h'.1.1.1 | exact h'.1.1.1.1 | exact h'.1.1.1.1.1 | exact h'.1.1.1.1.1.1 | exact h'.1.1.1.1.1.1.1 | exact h'.1.1.1.1.1.1.1.1
  refine ⟨c, 0x38, encA a (aSz a) 0, rfl, hc, by decide, fmtM_lt (by omega) (by omega) (by omega) (by omega) (by omega),
    rfl, ?_⟩
  rw [Row.aand c _]
  simp (disch := first | rfl | omega) only [bit_eq_fld, encM, encA, fmtM_rd, fmtM_bp, fmtM_sz, fmtM_ac, fmtM_off, mszOf_code, atomOff_sc, atomOff_sr,
    atomOff_off]
  rcases a with ⟨w, rd, bp, ac, sc, off⟩
  cases w <;> simp [accept, h, aSz]
theorem aor (c : Ctl) (a : AtomF) : Statement (.aor c a) := by
  intro h _
  have h' := h
  simp only [Instr.wellFormed, opndOk, gOk, pairOk, vOk, pOk, VF.ok, VF2.ok, VMemF.ok, MemF.ok, AtomF.ok, EngF.ok, Bool.and_eq_true,
    decide_eq_true_eq] at h'
  have hi := a.off.isLt
  have hz : (0 : Nat) < 2 := by decide
  have hs : aSz a < 4 := by unfold aSz; split <;> decide
  have ho : a.scope * 2 ^ 20 + 0 * 2 ^ 19 + a.off.toNat < 2 ^ 24 := atomOff_lt (by omega) hz (by omega)
  have hc : c.ok = true := by first | exact h' | exact h'.1 | exact h'.1.1 | exact h'.1.1.1 | exact h'.1.1.1.1 | exact h'.1.1.1.1.1 | exact h'.1.1.1.1.1.1 | exact h'.1.1.1.1.1.1.1 | exact h'.1.1.1.1.1.1.1.1
  refine ⟨c, 0x39, encA a (aSz a) 0, rfl, hc, by decide, fmtM_lt (by omega) (by omega) (by omega) (by omega) (by omega),
    rfl, ?_⟩
  rw [Row.aor c _]
  simp (disch := first | rfl | omega) only [bit_eq_fld, encM, encA, fmtM_rd, fmtM_bp, fmtM_sz, fmtM_ac, fmtM_off, mszOf_code, atomOff_sc, atomOff_sr,
    atomOff_off]
  rcases a with ⟨w, rd, bp, ac, sc, off⟩
  cases w <;> simp [accept, h, aSz]
theorem axchg (c : Ctl) (a : AtomF) : Statement (.axchg c a) := by
  intro h _
  have h' := h
  simp only [Instr.wellFormed, opndOk, gOk, pairOk, vOk, pOk, VF.ok, VF2.ok, VMemF.ok, MemF.ok, AtomF.ok, EngF.ok, Bool.and_eq_true,
    decide_eq_true_eq] at h'
  have hi := a.off.isLt
  have hz : (0 : Nat) < 2 := by decide
  have hs : aSz a < 4 := by unfold aSz; split <;> decide
  have ho : a.scope * 2 ^ 20 + 0 * 2 ^ 19 + a.off.toNat < 2 ^ 24 := atomOff_lt (by omega) hz (by omega)
  have hc : c.ok = true := by first | exact h' | exact h'.1 | exact h'.1.1 | exact h'.1.1.1 | exact h'.1.1.1.1 | exact h'.1.1.1.1.1 | exact h'.1.1.1.1.1.1 | exact h'.1.1.1.1.1.1.1 | exact h'.1.1.1.1.1.1.1.1
  refine ⟨c, 0x3A, encA a (aSz a) 0, rfl, hc, by decide, fmtM_lt (by omega) (by omega) (by omega) (by omega) (by omega),
    rfl, ?_⟩
  rw [Row.axchg c _]
  simp (disch := first | rfl | omega) only [bit_eq_fld, encM, encA, fmtM_rd, fmtM_bp, fmtM_sz, fmtM_ac, fmtM_off, mszOf_code, atomOff_sc, atomOff_sr,
    atomOff_off]
  rcases a with ⟨w, rd, bp, ac, sc, off⟩
  cases w <;> simp [accept, h, aSz]
theorem acas (c : Ctl) (a : AtomF) : Statement (.acas c a) := by
  intro h _
  have h' := h
  simp only [Instr.wellFormed, opndOk, gOk, pairOk, vOk, pOk, VF.ok, VF2.ok, VMemF.ok, MemF.ok, AtomF.ok, EngF.ok, Bool.and_eq_true,
    decide_eq_true_eq] at h'
  have hi := a.off.isLt
  have hz : (0 : Nat) < 2 := by decide
  have hs : aSz a < 4 := by unfold aSz; split <;> decide
  have ho : a.scope * 2 ^ 20 + 0 * 2 ^ 19 + a.off.toNat < 2 ^ 24 := atomOff_lt (by omega) hz (by omega)
  have hc : c.ok = true := by first | exact h' | exact h'.1 | exact h'.1.1 | exact h'.1.1.1 | exact h'.1.1.1.1 | exact h'.1.1.1.1.1 | exact h'.1.1.1.1.1.1 | exact h'.1.1.1.1.1.1.1 | exact h'.1.1.1.1.1.1.1.1
  refine ⟨c, 0x3B, encA a (aSz a) 0, rfl, hc, by decide, fmtM_lt (by omega) (by omega) (by omega) (by omega) (by omega),
    rfl, ?_⟩
  rw [Row.acas c _]
  simp (disch := first | rfl | omega) only [bit_eq_fld, encM, encA, fmtM_rd, fmtM_bp, fmtM_sz, fmtM_ac, fmtM_off, mszOf_code, atomOff_sc, atomOff_sr,
    atomOff_off]
  rcases a with ⟨w, rd, bp, ac, sc, off⟩
  cases w <;> simp [accept, h, aSz]
theorem afadd (c : Ctl) (bf16 sr : Bool) (a : AtomF) : Statement (.afadd c bf16 sr a) := by
  intro h _
  have h' := h
  simp only [Instr.wellFormed, opndOk, gOk, pairOk, vOk, pOk, VF.ok, VF2.ok, VMemF.ok, MemF.ok, AtomF.ok, EngF.ok, Bool.and_eq_true,
    decide_eq_true_eq] at h'
  have hi := a.off.isLt
  have hz := b2n_lt sr
  have hs : (if bf16 = true then 1 else 2) < 4 := by split <;> decide
  have ho : a.scope * 2 ^ 20 + (b2n sr) * 2 ^ 19 + a.off.toNat < 2 ^ 24 := atomOff_lt (by omega) hz (by omega)
  have hc : c.ok = true := by first | exact h' | exact h'.1 | exact h'.1.1 | exact h'.1.1.1 | exact h'.1.1.1.1 | exact h'.1.1.1.1.1 | exact h'.1.1.1.1.1.1 | exact h'.1.1.1.1.1.1.1 | exact h'.1.1.1.1.1.1.1.1
  refine ⟨c, 0x3C, encA a (if bf16 then 1 else 2) (b2n sr), rfl, hc, by decide, fmtM_lt (by omega) (by omega) (by omega) (by omega) (by omega),
    rfl, ?_⟩
  rw [Row.afadd c _]
  simp (disch := first | rfl | omega) only [bit_eq_fld, encM, encA, fmtM_rd, fmtM_bp, fmtM_sz, fmtM_ac, fmtM_off, mszOf_code, atomOff_sc, atomOff_sr,
    atomOff_off]
  rcases a with ⟨w, rd, bp, ac, sc, off⟩
  have hw : w = false := by have := h'.1.2; simpa using this
  subst hw
  cases bf16 <;> simp [accept, h]
theorem vadd (c : Ctl) (rm : Rm) (sat : Bool) (f : VF) : Statement (.vadd c rm sat f) := by
  intro h _
  have h' := h
  simp only [Instr.wellFormed, opndOk, gOk, pairOk, vOk, pOk, VF.ok, VF2.ok, VMemF.ok, MemF.ok, AtomF.ok, EngF.ok, Bool.and_eq_true,
    decide_eq_true_eq] at h'
  have htc := Ty.code_lt f.ty
  have hf : rm.code + 8 * b2n sat < 128 := by have := Rm.code_lt rm; have := b2n_lt sat; omega
  have hc : c.ok = true := by first | exact h' | exact h'.1 | exact h'.1.1 | exact h'.1.1.1 | exact h'.1.1.1.1 | exact h'.1.1.1.1.1 | exact h'.1.1.1.1.1.1 | exact h'.1.1.1.1.1.1.1 | exact h'.1.1.1.1.1.1.1.1
  refine ⟨c, 0x40, encV3 f 0 false (rm.code + 8 * b2n sat), rfl, hc, by decide, fmtV_lt (by omega) (by omega) (by omega) (by omega) (by omega) (by omega) (by omega),
    rfl, ?_⟩
  rw [Row.vadd c _ (ty := f.ty) (rm := rm) (by simp (disch := first | rfl | omega) only [encV3, encV2, encVM, fmtV_ty, tyOf_code]) (by simp only [encV3, encV2, fmtV_fn (by decide : 0 + 3 ≤ 7)]; cases rm <;> cases sat <;> rfl)]
  simp (disch := first | rfl | omega) only [bit_eq_fld, encV3, encV2, encVM, encP, fmtV_vd, fmtV_vd4, fmtV_39, fmtV_va, fmtV_va4, fmtV_34, fmtV_vb,
    fmtV_vb4, fmtV_29, fmtV_24, fmtV_vc, fmtV_vc4, fmtV_pr, fmtV_rd, fmtV_ra, fmtV_rb, fmtV_rc, fmtV_rp, fmtV_ty,
    fmtV_12_3, fmtV_12_2, fmtV_fn]
  cases rm <;> cases sat <;> simp [accept, h, fld, Rm.code, rmOf]
theorem vsub (c : Ctl) (rm : Rm) (sat : Bool) (f : VF) : Statement (.vsub c rm sat f) := by
  intro h _
  have h' := h
  simp only [Instr.wellFormed, opndOk, gOk, pairOk, vOk, pOk, VF.ok, VF2.ok, VMemF.ok, MemF.ok, AtomF.ok, EngF.ok, Bool.and_eq_true,
    decide_eq_true_eq] at h'
  have htc := Ty.code_lt f.ty
  have hf : rm.code + 8 * b2n sat < 128 := by have := Rm.code_lt rm; have := b2n_lt sat; omega
  have hc : c.ok = true := by first | exact h' | exact h'.1 | exact h'.1.1 | exact h'.1.1.1 | exact h'.1.1.1.1 | exact h'.1.1.1.1.1 | exact h'.1.1.1.1.1.1 | exact h'.1.1.1.1.1.1.1 | exact h'.1.1.1.1.1.1.1.1
  refine ⟨c, 0x41, encV3 f 0 false (rm.code + 8 * b2n sat), rfl, hc, by decide, fmtV_lt (by omega) (by omega) (by omega) (by omega) (by omega) (by omega) (by omega),
    rfl, ?_⟩
  rw [Row.vsub c _ (ty := f.ty) (rm := rm) (by simp (disch := first | rfl | omega) only [encV3, encV2, encVM, fmtV_ty, tyOf_code]) (by simp only [encV3, encV2, fmtV_fn (by decide : 0 + 3 ≤ 7)]; cases rm <;> cases sat <;> rfl)]
  simp (disch := first | rfl | omega) only [bit_eq_fld, encV3, encV2, encVM, encP, fmtV_vd, fmtV_vd4, fmtV_39, fmtV_va, fmtV_va4, fmtV_34, fmtV_vb,
    fmtV_vb4, fmtV_29, fmtV_24, fmtV_vc, fmtV_vc4, fmtV_pr, fmtV_rd, fmtV_ra, fmtV_rb, fmtV_rc, fmtV_rp, fmtV_ty,
    fmtV_12_3, fmtV_12_2, fmtV_fn]
  cases rm <;> cases sat <;> simp [accept, h, fld, Rm.code, rmOf]
theorem vmul (c : Ctl) (rm : Rm) (sat : Bool) (f : VF) : Statement (.vmul c rm sat f) := by
  intro h _
  have h' := h
  simp only [Instr.wellFormed, opndOk, gOk, pairOk, vOk, pOk, VF.ok, VF2.ok, VMemF.ok, MemF.ok, AtomF.ok, EngF.ok, Bool.and_eq_true,
    decide_eq_true_eq] at h'
  have htc := Ty.code_lt f.ty
  have hf : rm.code + 8 * b2n sat < 128 := by have := Rm.code_lt rm; have := b2n_lt sat; omega
  have hc : c.ok = true := by first | exact h' | exact h'.1 | exact h'.1.1 | exact h'.1.1.1 | exact h'.1.1.1.1 | exact h'.1.1.1.1.1 | exact h'.1.1.1.1.1.1 | exact h'.1.1.1.1.1.1.1 | exact h'.1.1.1.1.1.1.1.1
  refine ⟨c, 0x42, encV3 f 0 false (rm.code + 8 * b2n sat), rfl, hc, by decide, fmtV_lt (by omega) (by omega) (by omega) (by omega) (by omega) (by omega) (by omega),
    rfl, ?_⟩
  rw [Row.vmul c _ (ty := f.ty) (rm := rm) (by simp (disch := first | rfl | omega) only [encV3, encV2, encVM, fmtV_ty, tyOf_code]) (by simp only [encV3, encV2, fmtV_fn (by decide : 0 + 3 ≤ 7)]; cases rm <;> cases sat <;> rfl)]
  simp (disch := first | rfl | omega) only [bit_eq_fld, encV3, encV2, encVM, encP, fmtV_vd, fmtV_vd4, fmtV_39, fmtV_va, fmtV_va4, fmtV_34, fmtV_vb,
    fmtV_vb4, fmtV_29, fmtV_24, fmtV_vc, fmtV_vc4, fmtV_pr, fmtV_rd, fmtV_ra, fmtV_rb, fmtV_rc, fmtV_rp, fmtV_ty,
    fmtV_12_3, fmtV_12_2, fmtV_fn]
  cases rm <;> cases sat <;> simp [accept, h, fld, Rm.code, rmOf]
theorem vfma (c : Ctl) (rm : Rm) (f : VF) (vc : RReg) : Statement (.vfma c rm f vc) := by
  intro h _
  have h' := h
  simp only [Instr.wellFormed, opndOk, gOk, pairOk, vOk, pOk, VF.ok, VF2.ok, VMemF.ok, MemF.ok, AtomF.ok, EngF.ok, Bool.and_eq_true,
    decide_eq_true_eq] at h'
  have htc := Ty.code_lt f.ty
  have hf : rm.code < 128 := by have := Rm.code_lt rm; omega
  have hc : c.ok = true := by first | exact h' | exact h'.1 | exact h'.1.1 | exact h'.1.1.1 | exact h'.1.1.1.1 | exact h'.1.1.1.1.1 | exact h'.1.1.1.1.1.1 | exact h'.1.1.1.1.1.1.1 | exact h'.1.1.1.1.1.1.1.1
  refine ⟨c, 0x43, encV3 f vc.n vc.rot rm.code, rfl, hc, by decide, fmtV_lt (by omega) (by omega) (by omega) (by omega) (by omega) (by omega) (by omega),
    rfl, ?_⟩
  rw [Row.vfma c _ (ty := f.ty) (rm := rm) (by simp (disch := first | rfl | omega) only [encV3, encV2, encVM, fmtV_ty, tyOf_code]) (by simp only [encV3, encV2, fmtV_fn (by decide : 0 + 3 ≤ 7)]; cases rm <;> rfl)]
  simp (disch := first | rfl | omega) only [bit_eq_fld, encV3, encV2, encVM, encP, fmtV_vd, fmtV_vd4, fmtV_39, fmtV_va, fmtV_va4, fmtV_34, fmtV_vb,
    fmtV_vb4, fmtV_29, fmtV_24, fmtV_vc, fmtV_vc4, fmtV_pr, fmtV_rd, fmtV_ra, fmtV_rb, fmtV_rc, fmtV_rp, fmtV_ty,
    fmtV_12_3, fmtV_12_2, fmtV_fn]
  cases rm <;> simp [accept, h, fld, Rm.code, rmOf]
theorem vmin (c : Ctl) (f : VF) : Statement (.vmin c f) := by
  intro h _
  have h' := h
  simp only [Instr.wellFormed, opndOk, gOk, pairOk, vOk, pOk, VF.ok, VF2.ok, VMemF.ok, MemF.ok, AtomF.ok, EngF.ok, Bool.and_eq_true,
    decide_eq_true_eq] at h'
  have htc := Ty.code_lt f.ty
  have hc : c.ok = true := by first | exact h' | exact h'.1 | exact h'.1.1 | exact h'.1.1.1 | exact h'.1.1.1.1 | exact h'.1.1.1.1.1 | exact h'.1.1.1.1.1.1 | exact h'.1.1.1.1.1.1.1 | exact h'.1.1.1.1.1.1.1.1
  refine ⟨c, 0x44, encV3 f 0 false 0, rfl, hc, by decide, fmtV_lt (by omega) (by omega) (by omega) (by omega) (by omega) (by omega) (by omega),
    rfl, ?_⟩
  rw [Row.vmin c _ (ty := f.ty) (by simp (disch := first | rfl | omega) only [encV3, encV2, encVM, fmtV_ty, tyOf_code])]
  simp (disch := first | rfl | omega) only [bit_eq_fld, encV3, encV2, encVM, encP, fmtV_vd, fmtV_vd4, fmtV_39, fmtV_va, fmtV_va4, fmtV_34, fmtV_vb,
    fmtV_vb4, fmtV_29, fmtV_24, fmtV_vc, fmtV_vc4, fmtV_pr, fmtV_rd, fmtV_ra, fmtV_rb, fmtV_rc, fmtV_rp, fmtV_ty,
    fmtV_12_3, fmtV_12_2, fmtV_fn]
  simp [accept, h, fld]
theorem vmax (c : Ctl) (f : VF) : Statement (.vmax c f) := by
  intro h _
  have h' := h
  simp only [Instr.wellFormed, opndOk, gOk, pairOk, vOk, pOk, VF.ok, VF2.ok, VMemF.ok, MemF.ok, AtomF.ok, EngF.ok, Bool.and_eq_true,
    decide_eq_true_eq] at h'
  have htc := Ty.code_lt f.ty
  have hc : c.ok = true := by first | exact h' | exact h'.1 | exact h'.1.1 | exact h'.1.1.1 | exact h'.1.1.1.1 | exact h'.1.1.1.1.1 | exact h'.1.1.1.1.1.1 | exact h'.1.1.1.1.1.1.1 | exact h'.1.1.1.1.1.1.1.1
  refine ⟨c, 0x45, encV3 f 0 false 0, rfl, hc, by decide, fmtV_lt (by omega) (by omega) (by omega) (by omega) (by omega) (by omega) (by omega),
    rfl, ?_⟩
  rw [Row.vmax c _ (ty := f.ty) (by simp (disch := first | rfl | omega) only [encV3, encV2, encVM, fmtV_ty, tyOf_code])]
  simp (disch := first | rfl | omega) only [bit_eq_fld, encV3, encV2, encVM, encP, fmtV_vd, fmtV_vd4, fmtV_39, fmtV_va, fmtV_va4, fmtV_34, fmtV_vb,
    fmtV_vb4, fmtV_29, fmtV_24, fmtV_vc, fmtV_vc4, fmtV_pr, fmtV_rd, fmtV_ra, fmtV_rb, fmtV_rc, fmtV_rp, fmtV_ty,
    fmtV_12_3, fmtV_12_2, fmtV_fn]
  simp [accept, h, fld]
theorem vabs (c : Ctl) (rm : Rm) (sat : Bool) (f : VF2) : Statement (.vabs c rm sat f) := by
  intro h _
  have h' := h
  simp only [Instr.wellFormed, opndOk, gOk, pairOk, vOk, pOk, VF.ok, VF2.ok, VMemF.ok, MemF.ok, AtomF.ok, EngF.ok, Bool.and_eq_true,
    decide_eq_true_eq] at h'
  have htc := Ty.code_lt f.ty
  have hf : rm.code + 8 * b2n sat < 128 := by have := Rm.code_lt rm; have := b2n_lt sat; omega
  have hc : c.ok = true := by first | exact h' | exact h'.1 | exact h'.1.1 | exact h'.1.1.1 | exact h'.1.1.1.1 | exact h'.1.1.1.1.1 | exact h'.1.1.1.1.1.1 | exact h'.1.1.1.1.1.1.1 | exact h'.1.1.1.1.1.1.1.1
  refine ⟨c, 0x46, encV2 f 0 0 (rm.code + 8 * b2n sat), rfl, hc, by decide, fmtV_lt (by omega) (by omega) (by omega) (by omega) (by omega) (by omega) (by omega),
    rfl, ?_⟩
  rw [Row.vabs c _ (ty := f.ty) (rm := rm) (by simp (disch := first | rfl | omega) only [encV3, encV2, encVM, fmtV_ty, tyOf_code]) (by simp only [encV3, encV2, fmtV_fn (by decide : 0 + 3 ≤ 7)]; cases rm <;> cases sat <;> rfl)]
  simp (disch := first | rfl | omega) only [bit_eq_fld, encV3, encV2, encVM, encP, fmtV_vd, fmtV_vd4, fmtV_39, fmtV_va, fmtV_va4, fmtV_34, fmtV_vb,
    fmtV_vb4, fmtV_29, fmtV_24, fmtV_vc, fmtV_vc4, fmtV_pr, fmtV_rd, fmtV_ra, fmtV_rb, fmtV_rc, fmtV_rp, fmtV_ty,
    fmtV_12_3, fmtV_12_2, fmtV_fn]
  cases rm <;> cases sat <;> simp [accept, h, fld, Rm.code, rmOf]
theorem vneg (c : Ctl) (rm : Rm) (sat : Bool) (f : VF2) : Statement (.vneg c rm sat f) := by
  intro h _
  have h' := h
  simp only [Instr.wellFormed, opndOk, gOk, pairOk, vOk, pOk, VF.ok, VF2.ok, VMemF.ok, MemF.ok, AtomF.ok, EngF.ok, Bool.and_eq_true,
    decide_eq_true_eq] at h'
  have htc := Ty.code_lt f.ty
  have hf : rm.code + 8 * b2n sat < 128 := by have := Rm.code_lt rm; have := b2n_lt sat; omega
  have hc : c.ok = true := by first | exact h' | exact h'.1 | exact h'.1.1 | exact h'.1.1.1 | exact h'.1.1.1.1 | exact h'.1.1.1.1.1 | exact h'.1.1.1.1.1.1 | exact h'.1.1.1.1.1.1.1 | exact h'.1.1.1.1.1.1.1.1
  refine ⟨c, 0x47, encV2 f 0 0 (rm.code + 8 * b2n sat), rfl, hc, by decide, fmtV_lt (by omega) (by omega) (by omega) (by omega) (by omega) (by omega) (by omega),
    rfl, ?_⟩
  rw [Row.vneg c _ (ty := f.ty) (rm := rm) (by simp (disch := first | rfl | omega) only [encV3, encV2, encVM, fmtV_ty, tyOf_code]) (by simp only [encV3, encV2, fmtV_fn (by decide : 0 + 3 ≤ 7)]; cases rm <;> cases sat <;> rfl)]
  simp (disch := first | rfl | omega) only [bit_eq_fld, encV3, encV2, encVM, encP, fmtV_vd, fmtV_vd4, fmtV_39, fmtV_va, fmtV_va4, fmtV_34, fmtV_vb,
    fmtV_vb4, fmtV_29, fmtV_24, fmtV_vc, fmtV_vc4, fmtV_pr, fmtV_rd, fmtV_ra, fmtV_rb, fmtV_rc, fmtV_rp, fmtV_ty,
    fmtV_12_3, fmtV_12_2, fmtV_fn]
  cases rm <;> cases sat <;> simp [accept, h, fld, Rm.code, rmOf]
theorem vand (c : Ctl) (f : VF) : Statement (.vand c f) := by
  intro h _
  have h' := h
  simp only [Instr.wellFormed, opndOk, gOk, pairOk, vOk, pOk, VF.ok, VF2.ok, VMemF.ok, MemF.ok, AtomF.ok, EngF.ok, Bool.and_eq_true,
    decide_eq_true_eq] at h'
  have htc := Ty.code_lt f.ty
  have hc : c.ok = true := by first | exact h' | exact h'.1 | exact h'.1.1 | exact h'.1.1.1 | exact h'.1.1.1.1 | exact h'.1.1.1.1.1 | exact h'.1.1.1.1.1.1 | exact h'.1.1.1.1.1.1.1 | exact h'.1.1.1.1.1.1.1.1
  refine ⟨c, 0x48, encV3 f 0 false 0, rfl, hc, by decide, fmtV_lt (by omega) (by omega) (by omega) (by omega) (by omega) (by omega) (by omega),
    rfl, ?_⟩
  rw [Row.vand c _ (ty := f.ty) (by simp (disch := first | rfl | omega) only [encV3, encV2, encVM, fmtV_ty, tyOf_code])]
  simp (disch := first | rfl | omega) only [bit_eq_fld, encV3, encV2, encVM, encP, fmtV_vd, fmtV_vd4, fmtV_39, fmtV_va, fmtV_va4, fmtV_34, fmtV_vb,
    fmtV_vb4, fmtV_29, fmtV_24, fmtV_vc, fmtV_vc4, fmtV_pr, fmtV_rd, fmtV_ra, fmtV_rb, fmtV_rc, fmtV_rp, fmtV_ty,
    fmtV_12_3, fmtV_12_2, fmtV_fn]
  simp [accept, h, fld]
theorem vor (c : Ctl) (f : VF) : Statement (.vor c f) := by
  intro h _
  have h' := h
  simp only [Instr.wellFormed, opndOk, gOk, pairOk, vOk, pOk, VF.ok, VF2.ok, VMemF.ok, MemF.ok, AtomF.ok, EngF.ok, Bool.and_eq_true,
    decide_eq_true_eq] at h'
  have htc := Ty.code_lt f.ty
  have hc : c.ok = true := by first | exact h' | exact h'.1 | exact h'.1.1 | exact h'.1.1.1 | exact h'.1.1.1.1 | exact h'.1.1.1.1.1 | exact h'.1.1.1.1.1.1 | exact h'.1.1.1.1.1.1.1 | exact h'.1.1.1.1.1.1.1.1
  refine ⟨c, 0x49, encV3 f 0 false 0, rfl, hc, by decide, fmtV_lt (by omega) (by omega) (by omega) (by omega) (by omega) (by omega) (by omega),
    rfl, ?_⟩
  rw [Row.vor c _ (ty := f.ty) (by simp (disch := first | rfl | omega) only [encV3, encV2, encVM, fmtV_ty, tyOf_code])]
  simp (disch := first | rfl | omega) only [bit_eq_fld, encV3, encV2, encVM, encP, fmtV_vd, fmtV_vd4, fmtV_39, fmtV_va, fmtV_va4, fmtV_34, fmtV_vb,
    fmtV_vb4, fmtV_29, fmtV_24, fmtV_vc, fmtV_vc4, fmtV_pr, fmtV_rd, fmtV_ra, fmtV_rb, fmtV_rc, fmtV_rp, fmtV_ty,
    fmtV_12_3, fmtV_12_2, fmtV_fn]
  simp [accept, h, fld]
theorem vxor (c : Ctl) (f : VF) : Statement (.vxor c f) := by
  intro h _
  have h' := h
  simp only [Instr.wellFormed, opndOk, gOk, pairOk, vOk, pOk, VF.ok, VF2.ok, VMemF.ok, MemF.ok, AtomF.ok, EngF.ok, Bool.and_eq_true,
    decide_eq_true_eq] at h'
  have htc := Ty.code_lt f.ty
  have hc : c.ok = true := by first | exact h' | exact h'.1 | exact h'.1.1 | exact h'.1.1.1 | exact h'.1.1.1.1 | exact h'.1.1.1.1.1 | exact h'.1.1.1.1.1.1 | exact h'.1.1.1.1.1.1.1 | exact h'.1.1.1.1.1.1.1.1
  refine ⟨c, 0x4A, encV3 f 0 false 0, rfl, hc, by decide, fmtV_lt (by omega) (by omega) (by omega) (by omega) (by omega) (by omega) (by omega),
    rfl, ?_⟩
  rw [Row.vxor c _ (ty := f.ty) (by simp (disch := first | rfl | omega) only [encV3, encV2, encVM, fmtV_ty, tyOf_code])]
  simp (disch := first | rfl | omega) only [bit_eq_fld, encV3, encV2, encVM, encP, fmtV_vd, fmtV_vd4, fmtV_39, fmtV_va, fmtV_va4, fmtV_34, fmtV_vb,
    fmtV_vb4, fmtV_29, fmtV_24, fmtV_vc, fmtV_vc4, fmtV_pr, fmtV_rd, fmtV_ra, fmtV_rb, fmtV_rc, fmtV_rp, fmtV_ty,
    fmtV_12_3, fmtV_12_2, fmtV_fn]
  simp [accept, h, fld]
theorem vshl (c : Ctl) (f : VF) : Statement (.vshl c f) := by
  intro h _
  have h' := h
  simp only [Instr.wellFormed, opndOk, gOk, pairOk, vOk, pOk, VF.ok, VF2.ok, VMemF.ok, MemF.ok, AtomF.ok, EngF.ok, Bool.and_eq_true,
    decide_eq_true_eq] at h'
  have htc := Ty.code_lt f.ty
  have hc : c.ok = true := by first | exact h' | exact h'.1 | exact h'.1.1 | exact h'.1.1.1 | exact h'.1.1.1.1 | exact h'.1.1.1.1.1 | exact h'.1.1.1.1.1.1 | exact h'.1.1.1.1.1.1.1 | exact h'.1.1.1.1.1.1.1.1
  refine ⟨c, 0x4B, encV3 f 0 false 0, rfl, hc, by decide, fmtV_lt (by omega) (by omega) (by omega) (by omega) (by omega) (by omega) (by omega),
    rfl, ?_⟩
  rw [Row.vshl c _ (ty := f.ty) (by simp (disch := first | rfl | omega) only [encV3, encV2, encVM, fmtV_ty, tyOf_code])]
  simp (disch := first | rfl | omega) only [bit_eq_fld, encV3, encV2, encVM, encP, fmtV_vd, fmtV_vd4, fmtV_39, fmtV_va, fmtV_va4, fmtV_34, fmtV_vb,
    fmtV_vb4, fmtV_29, fmtV_24, fmtV_vc, fmtV_vc4, fmtV_pr, fmtV_rd, fmtV_ra, fmtV_rb, fmtV_rc, fmtV_rp, fmtV_ty,
    fmtV_12_3, fmtV_12_2, fmtV_fn]
  simp [accept, h, fld]
theorem vshr (c : Ctl) (f : VF) : Statement (.vshr c f) := by
  intro h _
  have h' := h
  simp only [Instr.wellFormed, opndOk, gOk, pairOk, vOk, pOk, VF.ok, VF2.ok, VMemF.ok, MemF.ok, AtomF.ok, EngF.ok, Bool.and_eq_true,
    decide_eq_true_eq] at h'
  have htc := Ty.code_lt f.ty
  have hc : c.ok = true := by first | exact h' | exact h'.1 | exact h'.1.1 | exact h'.1.1.1 | exact h'.1.1.1.1 | exact h'.1.1.1.1.1 | exact h'.1.1.1.1.1.1 | exact h'.1.1.1.1.1.1.1 | exact h'.1.1.1.1.1.1.1.1
  refine ⟨c, 0x4C, encV3 f 0 false 0, rfl, hc, by decide, fmtV_lt (by omega) (by omega) (by omega) (by omega) (by omega) (by omega) (by omega),
    rfl, ?_⟩
  rw [Row.vshr c _ (ty := f.ty) (by simp (disch := first | rfl | omega) only [encV3, encV2, encVM, fmtV_ty, tyOf_code])]
  simp (disch := first | rfl | omega) only [bit_eq_fld, encV3, encV2, encVM, encP, fmtV_vd, fmtV_vd4, fmtV_39, fmtV_va, fmtV_va4, fmtV_34, fmtV_vb,
    fmtV_vb4, fmtV_29, fmtV_24, fmtV_vc, fmtV_vc4, fmtV_pr, fmtV_rd, fmtV_ra, fmtV_rb, fmtV_rc, fmtV_rp, fmtV_ty,
    fmtV_12_3, fmtV_12_2, fmtV_fn]
  simp [accept, h, fld]
theorem vsra (c : Ctl) (f : VF) : Statement (.vsra c f) := by
  intro h _
  have h' := h
  simp only [Instr.wellFormed, opndOk, gOk, pairOk, vOk, pOk, VF.ok, VF2.ok, VMemF.ok, MemF.ok, AtomF.ok, EngF.ok, Bool.and_eq_true,
    decide_eq_true_eq] at h'
  have htc := Ty.code_lt f.ty
  have hc : c.ok = true := by first | exact h' | exact h'.1 | exact h'.1.1 | exact h'.1.1.1 | exact h'.1.1.1.1 | exact h'.1.1.1.1.1 | exact h'.1.1.1.1.1.1 | exact h'.1.1.1.1.1.1.1 | exact h'.1.1.1.1.1.1.1.1
  refine ⟨c, 0x4D, encV3 f 0 false 0, rfl, hc, by decide, fmtV_lt (by omega) (by omega) (by omega) (by omega) (by omega) (by omega) (by omega),
    rfl, ?_⟩
  rw [Row.vsra c _ (ty := f.ty) (by simp (disch := first | rfl | omega) only [encV3, encV2, encVM, fmtV_ty, tyOf_code])]
  simp (disch := first | rfl | omega) only [bit_eq_fld, encV3, encV2, encVM, encP, fmtV_vd, fmtV_vd4, fmtV_39, fmtV_va, fmtV_va4, fmtV_34, fmtV_vb,
    fmtV_vb4, fmtV_29, fmtV_24, fmtV_vc, fmtV_vc4, fmtV_pr, fmtV_rd, fmtV_ra, fmtV_rb, fmtV_rc, fmtV_rp, fmtV_ty,
    fmtV_12_3, fmtV_12_2, fmtV_fn]
  simp [accept, h, fld]
theorem vcmp (c : Ctl) (cond : Cond) (f : VF) : Statement (.vcmp c cond f) := by
  intro h _
  have h' := h
  simp only [Instr.wellFormed, opndOk, gOk, pairOk, vOk, pOk, VF.ok, VF2.ok, VMemF.ok, MemF.ok, AtomF.ok, EngF.ok, Bool.and_eq_true,
    decide_eq_true_eq] at h'
  have htc := Ty.code_lt f.ty
  have hf : cond.code < 128 := by have := Cond.code_lt cond; omega
  have hc : c.ok = true := by first | exact h' | exact h'.1 | exact h'.1.1 | exact h'.1.1.1 | exact h'.1.1.1.1 | exact h'.1.1.1.1.1 | exact h'.1.1.1.1.1.1 | exact h'.1.1.1.1.1.1.1 | exact h'.1.1.1.1.1.1.1.1
  refine ⟨c, 0x4E, encV3 f 0 false cond.code, rfl, hc, by decide, fmtV_lt (by omega) (by omega) (by omega) (by omega) (by omega) (by omega) (by omega),
    rfl, ?_⟩
  rw [Row.vcmp c _ (ty := f.ty) (k := cond) (by simp (disch := first | rfl | omega) only [encV3, encV2, encVM, fmtV_ty, tyOf_code]) (by simp only [encV3, encV2, fmtV_fn (by decide : 0 + 3 ≤ 7)]; cases cond <;> rfl)]
  simp (disch := first | rfl | omega) only [bit_eq_fld, encV3, encV2, encVM, encP, fmtV_vd, fmtV_vd4, fmtV_39, fmtV_va, fmtV_va4, fmtV_34, fmtV_vb,
    fmtV_vb4, fmtV_29, fmtV_24, fmtV_vc, fmtV_vc4, fmtV_pr, fmtV_rd, fmtV_ra, fmtV_rb, fmtV_rc, fmtV_rp, fmtV_ty,
    fmtV_12_3, fmtV_12_2, fmtV_fn]
  cases cond <;> simp [accept, h, fld, Cond.code, condOf]
theorem vsel (c : Ctl) (f : VF) : Statement (.vsel c f) := by
  intro h _
  have h' := h
  simp only [Instr.wellFormed, opndOk, gOk, pairOk, vOk, pOk, VF.ok, VF2.ok, VMemF.ok, MemF.ok, AtomF.ok, EngF.ok, Bool.and_eq_true,
    decide_eq_true_eq] at h'
  have htc := Ty.code_lt f.ty
  have hc : c.ok = true := by first | exact h' | exact h'.1 | exact h'.1.1 | exact h'.1.1.1 | exact h'.1.1.1.1 | exact h'.1.1.1.1.1 | exact h'.1.1.1.1.1.1 | exact h'.1.1.1.1.1.1.1 | exact h'.1.1.1.1.1.1.1.1
  refine ⟨c, 0x4F, encV3 f 0 false 0, rfl, hc, by decide, fmtV_lt (by omega) (by omega) (by omega) (by omega) (by omega) (by omega) (by omega),
    rfl, ?_⟩
  rw [Row.vsel c _ (ty := f.ty) (by simp (disch := first | rfl | omega) only [encV3, encV2, encVM, fmtV_ty, tyOf_code])]
  simp (disch := first | rfl | omega) only [bit_eq_fld, encV3, encV2, encVM, encP, fmtV_vd, fmtV_vd4, fmtV_39, fmtV_va, fmtV_va4, fmtV_34, fmtV_vb,
    fmtV_vb4, fmtV_29, fmtV_24, fmtV_vc, fmtV_vc4, fmtV_pr, fmtV_rd, fmtV_ra, fmtV_rb, fmtV_rc, fmtV_rp, fmtV_ty,
    fmtV_12_3, fmtV_12_2, fmtV_fn]
  simp [accept, h, fld]
theorem vcvt (c : Ctl) (dst : Ty) (rm : Rm) (f : VF2) : Statement (.vcvt c dst rm f) := by
  intro h _
  have h' := h
  simp only [Instr.wellFormed, opndOk, gOk, pairOk, vOk, pOk, VF.ok, VF2.ok, VMemF.ok, MemF.ok, AtomF.ok, EngF.ok, Bool.and_eq_true,
    decide_eq_true_eq] at h'
  have htc := Ty.code_lt f.ty
  have hf : rm.code + 8 * dst.code < 128 := by have := Rm.code_lt rm; have := Ty.code_lt dst; omega
  have hc : c.ok = true := by first | exact h' | exact h'.1 | exact h'.1.1 | exact h'.1.1.1 | exact h'.1.1.1.1 | exact h'.1.1.1.1.1 | exact h'.1.1.1.1.1.1 | exact h'.1.1.1.1.1.1.1 | exact h'.1.1.1.1.1.1.1.1
  refine ⟨c, 0x50, encV2 f 0 0 (rm.code + 8 * dst.code), rfl, hc, by decide, fmtV_lt (by omega) (by omega) (by omega) (by omega) (by omega) (by omega) (by omega),
    rfl, ?_⟩
  rw [Row.vcvt c _ (ty := f.ty) (rm := rm) (dst := dst) (by simp (disch := first | rfl | omega) only [encV3, encV2, encVM, fmtV_ty, tyOf_code]) (by simp only [encV2, fmtV_fn (by decide : 0 + 3 ≤ 7), fmtV_fn (by decide : 3 + 4 ≤ 7)]; cases rm <;> cases dst <;> rfl) (by simp only [encV2, fmtV_fn (by decide : 0 + 3 ≤ 7), fmtV_fn (by decide : 3 + 4 ≤ 7)]; cases rm <;> cases dst <;> rfl)]
  simp (disch := first | rfl | omega) only [bit_eq_fld, encV3, encV2, encVM, encP, fmtV_vd, fmtV_vd4, fmtV_39, fmtV_va, fmtV_va4, fmtV_34, fmtV_vb,
    fmtV_vb4, fmtV_29, fmtV_24, fmtV_vc, fmtV_vc4, fmtV_pr, fmtV_rd, fmtV_ra, fmtV_rb, fmtV_rc, fmtV_rp, fmtV_ty,
    fmtV_12_3, fmtV_12_2, fmtV_fn]
  cases rm <;> cases dst <;> simp [accept, h, fld, Rm.code, rmOf, Ty.code, tyOf]
theorem vmov (c : Ctl) (f : VF2) : Statement (.vmov c f) := by
  intro h _
  have h' := h
  simp only [Instr.wellFormed, opndOk, gOk, pairOk, vOk, pOk, VF.ok, VF2.ok, VMemF.ok, MemF.ok, AtomF.ok, EngF.ok, Bool.and_eq_true,
    decide_eq_true_eq] at h'
  have htc := Ty.code_lt f.ty
  have hc : c.ok = true := by first | exact h' | exact h'.1 | exact h'.1.1 | exact h'.1.1.1 | exact h'.1.1.1.1 | exact h'.1.1.1.1.1 | exact h'.1.1.1.1.1.1 | exact h'.1.1.1.1.1.1.1 | exact h'.1.1.1.1.1.1.1.1
  refine ⟨c, 0x51, encV2 f 0 0 0, rfl, hc, by decide, fmtV_lt (by omega) (by omega) (by omega) (by omega) (by omega) (by omega) (by omega),
    rfl, ?_⟩
  rw [Row.vmov c _ (ty := f.ty) (by simp (disch := first | rfl | omega) only [encV3, encV2, encVM, fmtV_ty, tyOf_code])]
  simp (disch := first | rfl | omega) only [bit_eq_fld, encV3, encV2, encVM, encP, fmtV_vd, fmtV_vd4, fmtV_39, fmtV_va, fmtV_va4, fmtV_34, fmtV_vb,
    fmtV_vb4, fmtV_29, fmtV_24, fmtV_vc, fmtV_vc4, fmtV_pr, fmtV_rd, fmtV_ra, fmtV_rb, fmtV_rc, fmtV_rp, fmtV_ty,
    fmtV_12_3, fmtV_12_2, fmtV_fn]
  simp [accept, h, fld]
theorem vmovi (c : Ctl) (ty : Ty) (vd : Nat) (imm : BitVec 24) : Statement (.vmovi c ty vd imm) := by
  intro h _
  have h' := h
  simp only [Instr.wellFormed, opndOk, gOk, pairOk, vOk, pOk, VF.ok, VF2.ok, VMemF.ok, MemF.ok, AtomF.ok, EngF.ok, Bool.and_eq_true,
    decide_eq_true_eq] at h'
  have hi := imm.isLt
  have htc := Ty.code_lt ty
  have e1 : fld (vd * 2 ^ 35 + imm.toNat * 2 ^ 11 + ty.code * 2 ^ 7) 7 4 = ty.code := by simp only [fld]; omega
  have e2 : fld (vd * 2 ^ 35 + imm.toNat * 2 ^ 11 + ty.code * 2 ^ 7) 0 7 = 0 := by simp only [fld]; omega
  have e3 : fld (vd * 2 ^ 35 + imm.toNat * 2 ^ 11 + ty.code * 2 ^ 7) 35 5 = vd := by simp only [fld]; omega
  have e4 : fld (vd * 2 ^ 35 + imm.toNat * 2 ^ 11 + ty.code * 2 ^ 7) 11 24 = imm.toNat := by simp only [fld]; omega
  have hc : c.ok = true := by first | exact h' | exact h'.1 | exact h'.1.1 | exact h'.1.1.1 | exact h'.1.1.1.1 | exact h'.1.1.1.1.1 | exact h'.1.1.1.1.1.1 | exact h'.1.1.1.1.1.1.1 | exact h'.1.1.1.1.1.1.1.1
  refine ⟨c, 0x52, vd * 2 ^ 35 + imm.toNat * 2 ^ 11 + ty.code * 2 ^ 7, rfl, hc, by decide, (by omega),
    rfl, ?_⟩
  rw [Row.vmovi c _ (ty := ty) (by rw [e1, tyOf_code])]
  simp (disch := first | rfl | omega) only [bit_eq_fld, e1, e2, e3, e4, tyOf_code]
  simp [accept, h]
theorem vget (c : Ctl) (ty : Ty) (g : Nat) (v : RReg) (p : Nat) : Statement (.vget c ty g v p) := by
  intro h _
  have h' := h
  simp only [Instr.wellFormed, opndOk, gOk, pairOk, vOk, pOk, VF.ok, VF2.ok, VMemF.ok, MemF.ok, AtomF.ok, EngF.ok, Bool.and_eq_true,
    decide_eq_true_eq] at h'
  have htc := Ty.code_lt ty
  have g1 := b2n_lt v.rot
  have e0 : fld (g * 2 ^ 34 + v.n * 2 ^ 29 + p * 2 ^ 23 + b2n v.rot * 2 ^ 15 + ty.code * 2 ^ 7) 16 7 = 0 := by simp only [fld]; omega
  have e1 : fld (g * 2 ^ 34 + v.n * 2 ^ 29 + p * 2 ^ 23 + b2n v.rot * 2 ^ 15 + ty.code * 2 ^ 7) 11 4 = 0 := by simp only [fld]; omega
  have e2 : fld (g * 2 ^ 34 + v.n * 2 ^ 29 + p * 2 ^ 23 + b2n v.rot * 2 ^ 15 + ty.code * 2 ^ 7) 0 7 = 0 := by simp only [fld]; omega
  have e3 : fld (g * 2 ^ 34 + v.n * 2 ^ 29 + p * 2 ^ 23 + b2n v.rot * 2 ^ 15 + ty.code * 2 ^ 7) 34 6 = g := by simp only [fld]; omega
  have e4 : fld (g * 2 ^ 34 + v.n * 2 ^ 29 + p * 2 ^ 23 + b2n v.rot * 2 ^ 15 + ty.code * 2 ^ 7) 29 5 = v.n := by simp only [fld]; omega
  have e5 : fld (g * 2 ^ 34 + v.n * 2 ^ 29 + p * 2 ^ 23 + b2n v.rot * 2 ^ 15 + ty.code * 2 ^ 7) 15 1 = b2n v.rot := by simp only [fld]; omega
  have e6 : fld (g * 2 ^ 34 + v.n * 2 ^ 29 + p * 2 ^ 23 + b2n v.rot * 2 ^ 15 + ty.code * 2 ^ 7) 23 6 = p := by simp only [fld]; omega
  have e7 : fld (g * 2 ^ 34 + v.n * 2 ^ 29 + p * 2 ^ 23 + b2n v.rot * 2 ^ 15 + ty.code * 2 ^ 7) 7 4 = ty.code := by simp only [fld]; omega
  have hc : c.ok = true := by first | exact h' | exact h'.1 | exact h'.1.1 | exact h'.1.1.1 | exact h'.1.1.1.1 | exact h'.1.1.1.1.1 | exact h'.1.1.1.1.1.1 | exact h'.1.1.1.1.1.1.1 | exact h'.1.1.1.1.1.1.1.1
  refine ⟨c, 0x53, g * 2 ^ 34 + v.n * 2 ^ 29 + p * 2 ^ 23 + b2n v.rot * 2 ^ 15 + ty.code * 2 ^ 7, rfl, hc, by decide, (by omega),
    rfl, ?_⟩
  rw [Row.vget c _ (ty := ty) (by rw [e7, tyOf_code])]
  simp (disch := first | rfl | omega) only [bit_eq_fld, e0, e1, e2, e3, e4, e5, e6, e7, tyOf_code]
  simp [accept, h]
theorem vput (c : Ctl) (ty : Ty) (g : Nat) (v : RReg) (p : Nat) : Statement (.vput c ty g v p) := by
  intro h _
  have h' := h
  simp only [Instr.wellFormed, opndOk, gOk, pairOk, vOk, pOk, VF.ok, VF2.ok, VMemF.ok, MemF.ok, AtomF.ok, EngF.ok, Bool.and_eq_true,
    decide_eq_true_eq] at h'
  have htc := Ty.code_lt ty
  have g1 := b2n_lt v.rot
  have e0 : fld (g * 2 ^ 34 + v.n * 2 ^ 29 + p * 2 ^ 23 + b2n v.rot * 2 ^ 15 + ty.code * 2 ^ 7) 16 7 = 0 := by simp only [fld]; omega
  have e1 : fld (g * 2 ^ 34 + v.n * 2 ^ 29 + p * 2 ^ 23 + b2n v.rot * 2 ^ 15 + ty.code * 2 ^ 7) 11 4 = 0 := by simp only [fld]; omega
  have e2 : fld (g * 2 ^ 34 + v.n * 2 ^ 29 + p * 2 ^ 23 + b2n v.rot * 2 ^ 15 + ty.code * 2 ^ 7) 0 7 = 0 := by simp only [fld]; omega
  have e3 : fld (g * 2 ^ 34 + v.n * 2 ^ 29 + p * 2 ^ 23 + b2n v.rot * 2 ^ 15 + ty.code * 2 ^ 7) 34 6 = g := by simp only [fld]; omega
  have e4 : fld (g * 2 ^ 34 + v.n * 2 ^ 29 + p * 2 ^ 23 + b2n v.rot * 2 ^ 15 + ty.code * 2 ^ 7) 29 5 = v.n := by simp only [fld]; omega
  have e5 : fld (g * 2 ^ 34 + v.n * 2 ^ 29 + p * 2 ^ 23 + b2n v.rot * 2 ^ 15 + ty.code * 2 ^ 7) 15 1 = b2n v.rot := by simp only [fld]; omega
  have e6 : fld (g * 2 ^ 34 + v.n * 2 ^ 29 + p * 2 ^ 23 + b2n v.rot * 2 ^ 15 + ty.code * 2 ^ 7) 23 6 = p := by simp only [fld]; omega
  have e7 : fld (g * 2 ^ 34 + v.n * 2 ^ 29 + p * 2 ^ 23 + b2n v.rot * 2 ^ 15 + ty.code * 2 ^ 7) 7 4 = ty.code := by simp only [fld]; omega
  have hc : c.ok = true := by first | exact h' | exact h'.1 | exact h'.1.1 | exact h'.1.1.1 | exact h'.1.1.1.1 | exact h'.1.1.1.1.1 | exact h'.1.1.1.1.1.1 | exact h'.1.1.1.1.1.1.1 | exact h'.1.1.1.1.1.1.1.1
  refine ⟨c, 0x54, g * 2 ^ 34 + v.n * 2 ^ 29 + p * 2 ^ 23 + b2n v.rot * 2 ^ 15 + ty.code * 2 ^ 7, rfl, hc, by decide, (by omega),
    rfl, ?_⟩
  rw [Row.vput c _ (ty := ty) (by rw [e7, tyOf_code])]
  simp (disch := first | rfl | omega) only [bit_eq_fld, e0, e1, e2, e3, e4, e5, e6, e7, tyOf_code]
  simp [accept, h]
theorem vexp (c : Ctl) (f : VF2) : Statement (.vexp c f) := by
  intro h _
  have h' := h
  simp only [Instr.wellFormed, opndOk, gOk, pairOk, vOk, pOk, VF.ok, VF2.ok, VMemF.ok, MemF.ok, AtomF.ok, EngF.ok, Bool.and_eq_true,
    decide_eq_true_eq] at h'
  have htc := Ty.code_lt f.ty
  have hc : c.ok = true := by first | exact h' | exact h'.1 | exact h'.1.1 | exact h'.1.1.1 | exact h'.1.1.1.1 | exact h'.1.1.1.1.1 | exact h'.1.1.1.1.1.1 | exact h'.1.1.1.1.1.1.1 | exact h'.1.1.1.1.1.1.1.1
  refine ⟨c, 0x55, encV2 f 0 0 0, rfl, hc, by decide, fmtV_lt (by omega) (by omega) (by omega) (by omega) (by omega) (by omega) (by omega),
    rfl, ?_⟩
  rw [Row.vexp c _ (ty := f.ty) (by simp (disch := first | rfl | omega) only [encV3, encV2, encVM, fmtV_ty, tyOf_code]) (by rw [encV2, fmtV_fn (by decide)]; rfl)]
  simp (disch := first | rfl | omega) only [bit_eq_fld, encV3, encV2, encVM, encP, fmtV_vd, fmtV_vd4, fmtV_39, fmtV_va, fmtV_va4, fmtV_34, fmtV_vb,
    fmtV_vb4, fmtV_29, fmtV_24, fmtV_vc, fmtV_vc4, fmtV_pr, fmtV_rd, fmtV_ra, fmtV_rb, fmtV_rc, fmtV_rp, fmtV_ty,
    fmtV_12_3, fmtV_12_2, fmtV_fn]
  simp [accept, h]
theorem vlog (c : Ctl) (f : VF2) : Statement (.vlog c f) := by
  intro h _
  have h' := h
  simp only [Instr.wellFormed, opndOk, gOk, pairOk, vOk, pOk, VF.ok, VF2.ok, VMemF.ok, MemF.ok, AtomF.ok, EngF.ok, Bool.and_eq_true,
    decide_eq_true_eq] at h'
  have htc := Ty.code_lt f.ty
  have hc : c.ok = true := by first | exact h' | exact h'.1 | exact h'.1.1 | exact h'.1.1.1 | exact h'.1.1.1.1 | exact h'.1.1.1.1.1 | exact h'.1.1.1.1.1.1 | exact h'.1.1.1.1.1.1.1 | exact h'.1.1.1.1.1.1.1.1
  refine ⟨c, 0x55, encV2 f 0 0 1, rfl, hc, by decide, fmtV_lt (by omega) (by omega) (by omega) (by omega) (by omega) (by omega) (by omega),
    rfl, ?_⟩
  rw [Row.vlog c _ (ty := f.ty) (by simp (disch := first | rfl | omega) only [encV3, encV2, encVM, fmtV_ty, tyOf_code]) (by rw [encV2, fmtV_fn (by decide)]; rfl)]
  simp (disch := first | rfl | omega) only [bit_eq_fld, encV3, encV2, encVM, encP, fmtV_vd, fmtV_vd4, fmtV_39, fmtV_va, fmtV_va4, fmtV_34, fmtV_vb,
    fmtV_vb4, fmtV_29, fmtV_24, fmtV_vc, fmtV_vc4, fmtV_pr, fmtV_rd, fmtV_ra, fmtV_rb, fmtV_rc, fmtV_rp, fmtV_ty,
    fmtV_12_3, fmtV_12_2, fmtV_fn]
  simp [accept, h]
theorem vrcp (c : Ctl) (f : VF2) : Statement (.vrcp c f) := by
  intro h _
  have h' := h
  simp only [Instr.wellFormed, opndOk, gOk, pairOk, vOk, pOk, VF.ok, VF2.ok, VMemF.ok, MemF.ok, AtomF.ok, EngF.ok, Bool.and_eq_true,
    decide_eq_true_eq] at h'
  have htc := Ty.code_lt f.ty
  have hc : c.ok = true := by first | exact h' | exact h'.1 | exact h'.1.1 | exact h'.1.1.1 | exact h'.1.1.1.1 | exact h'.1.1.1.1.1 | exact h'.1.1.1.1.1.1 | exact h'.1.1.1.1.1.1.1 | exact h'.1.1.1.1.1.1.1.1
  refine ⟨c, 0x55, encV2 f 0 0 2, rfl, hc, by decide, fmtV_lt (by omega) (by omega) (by omega) (by omega) (by omega) (by omega) (by omega),
    rfl, ?_⟩
  rw [Row.vrcp c _ (ty := f.ty) (by simp (disch := first | rfl | omega) only [encV3, encV2, encVM, fmtV_ty, tyOf_code]) (by rw [encV2, fmtV_fn (by decide)]; rfl)]
  simp (disch := first | rfl | omega) only [bit_eq_fld, encV3, encV2, encVM, encP, fmtV_vd, fmtV_vd4, fmtV_39, fmtV_va, fmtV_va4, fmtV_34, fmtV_vb,
    fmtV_vb4, fmtV_29, fmtV_24, fmtV_vc, fmtV_vc4, fmtV_pr, fmtV_rd, fmtV_ra, fmtV_rb, fmtV_rc, fmtV_rp, fmtV_ty,
    fmtV_12_3, fmtV_12_2, fmtV_fn]
  simp [accept, h]
theorem vrsq (c : Ctl) (f : VF2) : Statement (.vrsq c f) := by
  intro h _
  have h' := h
  simp only [Instr.wellFormed, opndOk, gOk, pairOk, vOk, pOk, VF.ok, VF2.ok, VMemF.ok, MemF.ok, AtomF.ok, EngF.ok, Bool.and_eq_true,
    decide_eq_true_eq] at h'
  have htc := Ty.code_lt f.ty
  have hc : c.ok = true := by first | exact h' | exact h'.1 | exact h'.1.1 | exact h'.1.1.1 | exact h'.1.1.1.1 | exact h'.1.1.1.1.1 | exact h'.1.1.1.1.1.1 | exact h'.1.1.1.1.1.1.1 | exact h'.1.1.1.1.1.1.1.1
  refine ⟨c, 0x55, encV2 f 0 0 3, rfl, hc, by decide, fmtV_lt (by omega) (by omega) (by omega) (by omega) (by omega) (by omega) (by omega),
    rfl, ?_⟩
  rw [Row.vrsq c _ (ty := f.ty) (by simp (disch := first | rfl | omega) only [encV3, encV2, encVM, fmtV_ty, tyOf_code]) (by rw [encV2, fmtV_fn (by decide)]; rfl)]
  simp (disch := first | rfl | omega) only [bit_eq_fld, encV3, encV2, encVM, encP, fmtV_vd, fmtV_vd4, fmtV_39, fmtV_va, fmtV_va4, fmtV_34, fmtV_vb,
    fmtV_vb4, fmtV_29, fmtV_24, fmtV_vc, fmtV_vc4, fmtV_pr, fmtV_rd, fmtV_ra, fmtV_rb, fmtV_rc, fmtV_rp, fmtV_ty,
    fmtV_12_3, fmtV_12_2, fmtV_fn]
  simp [accept, h]
theorem vtanh (c : Ctl) (f : VF2) : Statement (.vtanh c f) := by
  intro h _
  have h' := h
  simp only [Instr.wellFormed, opndOk, gOk, pairOk, vOk, pOk, VF.ok, VF2.ok, VMemF.ok, MemF.ok, AtomF.ok, EngF.ok, Bool.and_eq_true,
    decide_eq_true_eq] at h'
  have htc := Ty.code_lt f.ty
  have hc : c.ok = true := by first | exact h' | exact h'.1 | exact h'.1.1 | exact h'.1.1.1 | exact h'.1.1.1.1 | exact h'.1.1.1.1.1 | exact h'.1.1.1.1.1.1 | exact h'.1.1.1.1.1.1.1 | exact h'.1.1.1.1.1.1.1.1
  refine ⟨c, 0x55, encV2 f 0 0 4, rfl, hc, by decide, fmtV_lt (by omega) (by omega) (by omega) (by omega) (by omega) (by omega) (by omega),
    rfl, ?_⟩
  rw [Row.vtanh c _ (ty := f.ty) (by simp (disch := first | rfl | omega) only [encV3, encV2, encVM, fmtV_ty, tyOf_code]) (by rw [encV2, fmtV_fn (by decide)]; rfl)]
  simp (disch := first | rfl | omega) only [bit_eq_fld, encV3, encV2, encVM, encP, fmtV_vd, fmtV_vd4, fmtV_39, fmtV_va, fmtV_va4, fmtV_34, fmtV_vb,
    fmtV_vb4, fmtV_29, fmtV_24, fmtV_vc, fmtV_vc4, fmtV_pr, fmtV_rd, fmtV_ra, fmtV_rb, fmtV_rc, fmtV_rp, fmtV_ty,
    fmtV_12_3, fmtV_12_2, fmtV_fn]
  simp [accept, h]
theorem verf (c : Ctl) (f : VF2) : Statement (.verf c f) := by
  intro h _
  have h' := h
  simp only [Instr.wellFormed, opndOk, gOk, pairOk, vOk, pOk, VF.ok, VF2.ok, VMemF.ok, MemF.ok, AtomF.ok, EngF.ok, Bool.and_eq_true,
    decide_eq_true_eq] at h'
  have htc := Ty.code_lt f.ty
  have hc : c.ok = true := by first | exact h' | exact h'.1 | exact h'.1.1 | exact h'.1.1.1 | exact h'.1.1.1.1 | exact h'.1.1.1.1.1 | exact h'.1.1.1.1.1.1 | exact h'.1.1.1.1.1.1.1 | exact h'.1.1.1.1.1.1.1.1
  refine ⟨c, 0x55, encV2 f 0 0 5, rfl, hc, by decide, fmtV_lt (by omega) (by omega) (by omega) (by omega) (by omega) (by omega) (by omega),
    rfl, ?_⟩
  rw [Row.verf c _ (ty := f.ty) (by simp (disch := first | rfl | omega) only [encV3, encV2, encVM, fmtV_ty, tyOf_code]) (by rw [encV2, fmtV_fn (by decide)]; rfl)]
  simp (disch := first | rfl | omega) only [bit_eq_fld, encV3, encV2, encVM, encP, fmtV_vd, fmtV_vd4, fmtV_39, fmtV_va, fmtV_va4, fmtV_34, fmtV_vb,
    fmtV_vb4, fmtV_29, fmtV_24, fmtV_vc, fmtV_vc4, fmtV_pr, fmtV_rd, fmtV_ra, fmtV_rb, fmtV_rc, fmtV_rp, fmtV_ty,
    fmtV_12_3, fmtV_12_2, fmtV_fn]
  simp [accept, h]
theorem vrrot (c : Ctl) (amt : Nat) (f : VF2) : Statement (.vrrot c amt f) := by
  intro h _
  have h' := h
  simp only [Instr.wellFormed, opndOk, gOk, pairOk, vOk, pOk, VF.ok, VF2.ok, VMemF.ok, MemF.ok, AtomF.ok, EngF.ok, Bool.and_eq_true,
    decide_eq_true_eq] at h'
  have hd : f.vd.n < 32 := by omega
  have ha : f.va.n < 32 := by omega
  have hp : f.pr.n < 16 := by omega
  have hs : amt < 64 := by omega
  have hc : c.ok = true := by first | exact h' | exact h'.1 | exact h'.1.1 | exact h'.1.1.1 | exact h'.1.1.1.1 | exact h'.1.1.1.1.1 | exact h'.1.1.1.1.1.1 | exact h'.1.1.1.1.1.1.1 | exact h'.1.1.1.1.1.1.1.1
  refine ⟨c, 0x56, encV2 f 0 0 0 + amt * 2 ^ 24, rfl, hc, by decide, axis_lt hd ha hp hs (by decide),
    rfl, ?_⟩
  rw [Row.vrrot c _ (ty := f.ty) (by rw [axis_ty hd ha hp hs (by decide : 0 < 8), tyOf_code]) (by rw [axis_fn hd ha hp hs (by decide) (by decide)]; rfl)]
  simp (disch := first | rfl | omega) only [bit_eq_fld, axis_ty hd ha hp hs (by decide : 0 < 8), axis_vd hd ha hp hs (by decide : 0 < 8), axis_rd hd ha hp
    hs (by decide : 0 < 8), axis_va hd ha hp hs (by decide : 0 < 8), axis_ra hd ha hp hs (by decide : 0 < 8),
    axis_pr hd ha hp hs (by decide : 0 < 8), axis_rp hd ha hp hs (by decide : 0 < 8), axis_s hd ha hp hs (by decide
    : 0 < 8), axis_20 hd ha hp hs (by decide : 0 < 8), axis_12 hd ha hp hs (by decide : 0 < 8), axis_4 hd ha hp hs
    (by decide : 0 < 8), axis_fn hd ha hp hs (by decide : 0 < 8) (by decide : 2 + 2 ≤ 4), tyOf_code]
  simp [accept, h, fld]
theorem vrbc (c : Ctl) (amt : Nat) (f : VF2) : Statement (.vrbc c amt f) := by
  intro h _
  have h' := h
  simp only [Instr.wellFormed, opndOk, gOk, pairOk, vOk, pOk, VF.ok, VF2.ok, VMemF.ok, MemF.ok, AtomF.ok, EngF.ok, Bool.and_eq_true,
    decide_eq_true_eq] at h'
  have hd : f.vd.n < 32 := by omega
  have ha : f.va.n < 32 := by omega
  have hp : f.pr.n < 16 := by omega
  have hs : amt < 64 := by omega
  have hc : c.ok = true := by first | exact h' | exact h'.1 | exact h'.1.1 | exact h'.1.1.1 | exact h'.1.1.1.1 | exact h'.1.1.1.1.1 | exact h'.1.1.1.1.1.1 | exact h'.1.1.1.1.1.1.1 | exact h'.1.1.1.1.1.1.1.1
  refine ⟨c, 0x56, encV2 f 0 0 1 + amt * 2 ^ 24, rfl, hc, by decide, axis_lt hd ha hp hs (by decide),
    rfl, ?_⟩
  rw [Row.vrbc c _ (ty := f.ty) (by rw [axis_ty hd ha hp hs (by decide : 1 < 8), tyOf_code]) (by rw [axis_fn hd ha hp hs (by decide) (by decide)]; rfl)]
  simp (disch := first | rfl | omega) only [bit_eq_fld, axis_ty hd ha hp hs (by decide : 1 < 8), axis_vd hd ha hp hs (by decide : 1 < 8), axis_rd hd ha hp
    hs (by decide : 1 < 8), axis_va hd ha hp hs (by decide : 1 < 8), axis_ra hd ha hp hs (by decide : 1 < 8),
    axis_pr hd ha hp hs (by decide : 1 < 8), axis_rp hd ha hp hs (by decide : 1 < 8), axis_s hd ha hp hs (by decide
    : 1 < 8), axis_20 hd ha hp hs (by decide : 1 < 8), axis_12 hd ha hp hs (by decide : 1 < 8), axis_4 hd ha hp hs
    (by decide : 1 < 8), axis_fn hd ha hp hs (by decide : 1 < 8) (by decide : 2 + 2 ≤ 4), tyOf_code]
  simp [accept, h, fld]
theorem vrred (c : Ctl) (op : RedOp) (f : VF2) : Statement (.vrred c op f) := by
  intro h _
  have h' := h
  simp only [Instr.wellFormed, opndOk, gOk, pairOk, vOk, pOk, VF.ok, VF2.ok, VMemF.ok, MemF.ok, AtomF.ok, EngF.ok, Bool.and_eq_true,
    decide_eq_true_eq] at h'
  have hd : f.vd.n < 32 := by omega
  have ha : f.va.n < 32 := by omega
  have hp : f.pr.n < 16 := by omega
  have hk : 2 + 4 * op.code < 16 := by have := RedOp.code_lt op; omega
  have hc : c.ok = true := by first | exact h' | exact h'.1 | exact h'.1.1 | exact h'.1.1.1 | exact h'.1.1.1.1 | exact h'.1.1.1.1.1 | exact h'.1.1.1.1.1.1 | exact h'.1.1.1.1.1.1.1 | exact h'.1.1.1.1.1.1.1.1
  refine ⟨c, 0x56, encV2 f 0 0 (2 + 4 * op.code), rfl, hc, by decide, axis_lt0 hd ha hp hk,
    rfl, ?_⟩
  rw [Row.vrred c _ (ty := f.ty) (k := op) (by rw [axis_ty0 hd ha hp hk, tyOf_code]) (by rw [axis_fn0 (by decide)]; cases op <;> rfl) (by rw [axis_fn0 (by decide)]; cases op <;> rfl)]
  simp (disch := first | rfl | omega) only [bit_eq_fld, axis_ty0 hd ha hp hk, axis_vd0 hd ha hp hk, axis_rd0 hd ha hp hk, axis_va0 hd ha hp hk, axis_ra0 hd
    ha hp hk, axis_pr0 hd ha hp hk, axis_rp0 hd ha hp hk, axis_s0 hd ha hp hk, axis_200 hd ha hp hk, axis_120 hd ha
    hp hk, axis_40 hd ha hp hk, axis_fn0 (f := f) (k := 2 + 4 * op.code) (by decide : 2 + 2 ≤ 4), tyOf_code]
  cases op <;> simp [accept, h, fld, RedOp.code, redOf]
theorem vcrot (c : Ctl) (amt : Nat) (f : VF2) : Statement (.vcrot c amt f) := by
  intro h _
  have h' := h
  simp only [Instr.wellFormed, opndOk, gOk, pairOk, vOk, pOk, VF.ok, VF2.ok, VMemF.ok, MemF.ok, AtomF.ok, EngF.ok, Bool.and_eq_true,
    decide_eq_true_eq] at h'
  have hd : f.vd.n < 32 := by omega
  have ha : f.va.n < 32 := by omega
  have hp : f.pr.n < 16 := by omega
  have hs : amt < 64 := by have := h'.2; split at this <;> omega
  have hc : c.ok = true := by first | exact h' | exact h'.1 | exact h'.1.1 | exact h'.1.1.1 | exact h'.1.1.1.1 | exact h'.1.1.1.1.1 | exact h'.1.1.1.1.1.1 | exact h'.1.1.1.1.1.1.1 | exact h'.1.1.1.1.1.1.1.1
  refine ⟨c, 0x57, encV2 f 0 0 0 + amt * 2 ^ 24, rfl, hc, by decide, axis_lt hd ha hp hs (by decide),
    rfl, ?_⟩
  rw [Row.vcrot c _ (ty := f.ty) (by rw [axis_ty hd ha hp hs (by decide : 0 < 8), tyOf_code]) (by rw [axis_fn hd ha hp hs (by decide) (by decide)]; rfl)]
  simp (disch := first | rfl | omega) only [bit_eq_fld, axis_ty hd ha hp hs (by decide : 0 < 8), axis_vd hd ha hp hs (by decide : 0 < 8), axis_rd hd ha hp
    hs (by decide : 0 < 8), axis_va hd ha hp hs (by decide : 0 < 8), axis_ra hd ha hp hs (by decide : 0 < 8),
    axis_pr hd ha hp hs (by decide : 0 < 8), axis_rp hd ha hp hs (by decide : 0 < 8), axis_s hd ha hp hs (by decide
    : 0 < 8), axis_20 hd ha hp hs (by decide : 0 < 8), axis_12 hd ha hp hs (by decide : 0 < 8), axis_4 hd ha hp hs
    (by decide : 0 < 8), axis_fn hd ha hp hs (by decide : 0 < 8) (by decide : 2 + 2 ≤ 4), tyOf_code]
  simp [accept, h, fld]
theorem vcbc (c : Ctl) (amt : Nat) (f : VF2) : Statement (.vcbc c amt f) := by
  intro h _
  have h' := h
  simp only [Instr.wellFormed, opndOk, gOk, pairOk, vOk, pOk, VF.ok, VF2.ok, VMemF.ok, MemF.ok, AtomF.ok, EngF.ok, Bool.and_eq_true,
    decide_eq_true_eq] at h'
  have hd : f.vd.n < 32 := by omega
  have ha : f.va.n < 32 := by omega
  have hp : f.pr.n < 16 := by omega
  have hs : amt < 64 := by have := h'.2; split at this <;> omega
  have hc : c.ok = true := by first | exact h' | exact h'.1 | exact h'.1.1 | exact h'.1.1.1 | exact h'.1.1.1.1 | exact h'.1.1.1.1.1 | exact h'.1.1.1.1.1.1 | exact h'.1.1.1.1.1.1.1 | exact h'.1.1.1.1.1.1.1.1
  refine ⟨c, 0x57, encV2 f 0 0 1 + amt * 2 ^ 24, rfl, hc, by decide, axis_lt hd ha hp hs (by decide),
    rfl, ?_⟩
  rw [Row.vcbc c _ (ty := f.ty) (by rw [axis_ty hd ha hp hs (by decide : 1 < 8), tyOf_code]) (by rw [axis_fn hd ha hp hs (by decide) (by decide)]; rfl)]
  simp (disch := first | rfl | omega) only [bit_eq_fld, axis_ty hd ha hp hs (by decide : 1 < 8), axis_vd hd ha hp hs (by decide : 1 < 8), axis_rd hd ha hp
    hs (by decide : 1 < 8), axis_va hd ha hp hs (by decide : 1 < 8), axis_ra hd ha hp hs (by decide : 1 < 8),
    axis_pr hd ha hp hs (by decide : 1 < 8), axis_rp hd ha hp hs (by decide : 1 < 8), axis_s hd ha hp hs (by decide
    : 1 < 8), axis_20 hd ha hp hs (by decide : 1 < 8), axis_12 hd ha hp hs (by decide : 1 < 8), axis_4 hd ha hp hs
    (by decide : 1 < 8), axis_fn hd ha hp hs (by decide : 1 < 8) (by decide : 2 + 2 ≤ 4), tyOf_code]
  simp [accept, h, fld]
theorem vcred (c : Ctl) (op : RedOp) (f : VF2) : Statement (.vcred c op f) := by
  intro h _
  have h' := h
  simp only [Instr.wellFormed, opndOk, gOk, pairOk, vOk, pOk, VF.ok, VF2.ok, VMemF.ok, MemF.ok, AtomF.ok, EngF.ok, Bool.and_eq_true,
    decide_eq_true_eq] at h'
  have hd : f.vd.n < 32 := by omega
  have ha : f.va.n < 32 := by omega
  have hp : f.pr.n < 16 := by omega
  have hk : 2 + 4 * op.code < 16 := by have := RedOp.code_lt op; omega
  have hc : c.ok = true := by first | exact h' | exact h'.1 | exact h'.1.1 | exact h'.1.1.1 | exact h'.1.1.1.1 | exact h'.1.1.1.1.1 | exact h'.1.1.1.1.1.1 | exact h'.1.1.1.1.1.1.1 | exact h'.1.1.1.1.1.1.1.1
  refine ⟨c, 0x57, encV2 f 0 0 (2 + 4 * op.code), rfl, hc, by decide, axis_lt0 hd ha hp hk,
    rfl, ?_⟩
  rw [Row.vcred c _ (ty := f.ty) (k := op) (by rw [axis_ty0 hd ha hp hk, tyOf_code]) (by rw [axis_fn0 (by decide)]; cases op <;> rfl) (by rw [axis_fn0 (by decide)]; cases op <;> rfl)]
  simp (disch := first | rfl | omega) only [bit_eq_fld, axis_ty0 hd ha hp hk, axis_vd0 hd ha hp hk, axis_rd0 hd ha hp hk, axis_va0 hd ha hp hk, axis_ra0 hd
    ha hp hk, axis_pr0 hd ha hp hk, axis_rp0 hd ha hp hk, axis_s0 hd ha hp hk, axis_200 hd ha hp hk, axis_120 hd ha
    hp hk, axis_40 hd ha hp hk, axis_fn0 (f := f) (k := 2 + 4 * op.code) (by decide : 2 + 2 ≤ 4), tyOf_code]
  cases op <;> simp [accept, h, fld, RedOp.code, redOf]
theorem vtrn16 (c : Ctl) (f : VF2) : Statement (.vtrn16 c f) := by
  intro h _
  have h' := h
  simp only [Instr.wellFormed, opndOk, gOk, pairOk, vOk, pOk, VF.ok, VF2.ok, VMemF.ok, MemF.ok, AtomF.ok, EngF.ok, Bool.and_eq_true,
    decide_eq_true_eq] at h'
  have htc := Ty.code_lt f.ty
  have hc : c.ok = true := by first | exact h' | exact h'.1 | exact h'.1.1 | exact h'.1.1.1 | exact h'.1.1.1.1 | exact h'.1.1.1.1.1 | exact h'.1.1.1.1.1.1 | exact h'.1.1.1.1.1.1.1 | exact h'.1.1.1.1.1.1.1.1
  refine ⟨c, 0x58, encV2 f 0 0 0, rfl, hc, by decide, fmtV_lt (by omega) (by omega) (by omega) (by omega) (by omega) (by omega) (by omega),
    rfl, ?_⟩
  rw [Row.vtrn16 c _ (ty := f.ty) (by simp (disch := first | rfl | omega) only [encV3, encV2, encVM, fmtV_ty, tyOf_code])]
  simp (disch := first | rfl | omega) only [bit_eq_fld, encV3, encV2, encVM, encP, fmtV_vd, fmtV_vd4, fmtV_39, fmtV_va, fmtV_va4, fmtV_34, fmtV_vb,
    fmtV_vb4, fmtV_29, fmtV_24, fmtV_vc, fmtV_vc4, fmtV_pr, fmtV_rd, fmtV_ra, fmtV_rb, fmtV_rc, fmtV_rp, fmtV_ty,
    fmtV_12_3, fmtV_12_2, fmtV_fn]
  simp [accept, h, fld]
theorem vamax (c : Ctl) (m : AmaxSet) (f : VF2) : Statement (.vamax c m f) := by
  intro h _
  have h' := h
  simp only [Instr.wellFormed, opndOk, gOk, pairOk, vOk, pOk, VF.ok, VF2.ok, VMemF.ok, MemF.ok, AtomF.ok, EngF.ok, Bool.and_eq_true,
    decide_eq_true_eq] at h'
  have htc := Ty.code_lt f.ty
  have hf : m.code < 128 := by have := AmaxSet.code_lt m; omega
  have hc : c.ok = true := by first | exact h' | exact h'.1 | exact h'.1.1 | exact h'.1.1.1 | exact h'.1.1.1.1 | exact h'.1.1.1.1.1 | exact h'.1.1.1.1.1.1 | exact h'.1.1.1.1.1.1.1 | exact h'.1.1.1.1.1.1.1.1
  refine ⟨c, 0x59, encV2 f 0 0 m.code, rfl, hc, by decide, fmtV_lt (by omega) (by omega) (by omega) (by omega) (by omega) (by omega) (by omega),
    rfl, ?_⟩
  cases m
  · rw [Row.vamax0 c _ (ty := f.ty) (by simp (disch := first | rfl | omega) only [encV2, fmtV_ty, tyOf_code]) (by rw [encV2, fmtV_fn (by decide)]; rfl)]
    simp (disch := first | rfl | omega) only [bit_eq_fld, encV3, encV2, encVM, encP, fmtV_vd, fmtV_vd4, fmtV_39, fmtV_va, fmtV_va4, fmtV_34, fmtV_vb, fmtV_vb4, fmtV_29,
      fmtV_24, fmtV_vc, fmtV_vc4, fmtV_pr, fmtV_rd, fmtV_ra, fmtV_rb, fmtV_rc, fmtV_rp, fmtV_ty, fmtV_12_3, fmtV_12_2, fmtV_fn]
    simp [accept, h]
  · rw [Row.vamax1 c _ (ty := f.ty) (by simp (disch := first | rfl | omega) only [encV2, fmtV_ty, tyOf_code]) (by rw [encV2, fmtV_fn (by decide)]; rfl)]
    simp (disch := first | rfl | omega) only [bit_eq_fld, encV3, encV2, encVM, encP, fmtV_vd, fmtV_vd4, fmtV_39, fmtV_va, fmtV_va4, fmtV_34, fmtV_vb, fmtV_vb4, fmtV_29,
      fmtV_24, fmtV_vc, fmtV_vc4, fmtV_pr, fmtV_rd, fmtV_ra, fmtV_rb, fmtV_rc, fmtV_rp, fmtV_ty, fmtV_12_3, fmtV_12_2, fmtV_fn]
    simp [accept, h]
  · rw [Row.vamax2 c _ (ty := f.ty) (by simp (disch := first | rfl | omega) only [encV2, fmtV_ty, tyOf_code]) (by rw [encV2, fmtV_fn (by decide)]; rfl)]
    simp (disch := first | rfl | omega) only [bit_eq_fld, encV3, encV2, encVM, encP, fmtV_vd, fmtV_vd4, fmtV_39, fmtV_va, fmtV_va4, fmtV_34, fmtV_vb, fmtV_vb4, fmtV_29,
      fmtV_24, fmtV_vc, fmtV_vc4, fmtV_pr, fmtV_rd, fmtV_ra, fmtV_rb, fmtV_rc, fmtV_rp, fmtV_ty, fmtV_12_3, fmtV_12_2, fmtV_fn]
    simp [accept, h]
theorem vqnt (c : Ctl) (fmt : Nat) (rm : Rm) (f : VF) : Statement (.vqnt c fmt rm f) := by
  intro h _
  have h' := h
  simp only [Instr.wellFormed, opndOk, gOk, pairOk, vOk, pOk, VF.ok, VF2.ok, VMemF.ok, MemF.ok, AtomF.ok, EngF.ok, Bool.and_eq_true,
    decide_eq_true_eq] at h'
  have htc := Ty.code_lt f.ty
  have hf : rm.code < 128 := by have := Rm.code_lt rm; omega
  have hc : c.ok = true := by first | exact h' | exact h'.1 | exact h'.1.1 | exact h'.1.1.1 | exact h'.1.1.1.1 | exact h'.1.1.1.1.1 | exact h'.1.1.1.1.1.1 | exact h'.1.1.1.1.1.1.1 | exact h'.1.1.1.1.1.1.1.1
  refine ⟨c, 0x5A, encV3 f fmt false rm.code, rfl, hc, by decide, fmtV_lt (by omega) (by omega) (by omega) (by omega) (by omega) (by omega) (by omega),
    rfl, ?_⟩
  rw [Row.vqnt c _ (ty := f.ty) (rm := rm) (by simp (disch := first | rfl | omega) only [encV3, encV2, encVM, fmtV_ty, tyOf_code]) (by simp only [encV3, encV2, fmtV_fn (by decide : 0 + 7 ≤ 7)]; cases rm <;> rfl)]
  simp (disch := first | rfl | omega) only [bit_eq_fld, encV3, encV2, encVM, encP, fmtV_vd, fmtV_vd4, fmtV_39, fmtV_va, fmtV_va4, fmtV_34, fmtV_vb,
    fmtV_vb4, fmtV_29, fmtV_24, fmtV_vc, fmtV_vc4, fmtV_pr, fmtV_rd, fmtV_ra, fmtV_rb, fmtV_rc, fmtV_rp, fmtV_ty,
    fmtV_12_3, fmtV_12_2, fmtV_fn]
  cases rm <;> simp [accept, h, fld, Rm.code, rmOf]
theorem vdqnt (c : Ctl) (fmt : Nat) (f : VF) : Statement (.vdqnt c fmt f) := by
  intro h _
  have h' := h
  simp only [Instr.wellFormed, opndOk, gOk, pairOk, vOk, pOk, VF.ok, VF2.ok, VMemF.ok, MemF.ok, AtomF.ok, EngF.ok, Bool.and_eq_true,
    decide_eq_true_eq] at h'
  have htc := Ty.code_lt f.ty
  have hc : c.ok = true := by first | exact h' | exact h'.1 | exact h'.1.1 | exact h'.1.1.1 | exact h'.1.1.1.1 | exact h'.1.1.1.1.1 | exact h'.1.1.1.1.1.1 | exact h'.1.1.1.1.1.1.1 | exact h'.1.1.1.1.1.1.1.1
  refine ⟨c, 0x5B, encV3 f fmt false 0, rfl, hc, by decide, fmtV_lt (by omega) (by omega) (by omega) (by omega) (by omega) (by omega) (by omega),
    rfl, ?_⟩
  rw [Row.vdqnt c _ (ty := f.ty) (by simp (disch := first | rfl | omega) only [encV3, encV2, encVM, fmtV_ty, tyOf_code])]
  simp (disch := first | rfl | omega) only [bit_eq_fld, encV3, encV2, encVM, encP, fmtV_vd, fmtV_vd4, fmtV_39, fmtV_va, fmtV_va4, fmtV_34, fmtV_vb,
    fmtV_vb4, fmtV_29, fmtV_24, fmtV_vc, fmtV_vc4, fmtV_pr, fmtV_rd, fmtV_ra, fmtV_rb, fmtV_rc, fmtV_rp, fmtV_ty,
    fmtV_12_3, fmtV_12_2, fmtV_fn]
  simp [accept, h, fld]
theorem vld (c : Ctl) (f : VMemF) : Statement (.vld c f) := by
  intro h _
  have h' := h
  simp only [Instr.wellFormed, opndOk, gOk, pairOk, vOk, pOk, VF.ok, VF2.ok, VMemF.ok, MemF.ok, AtomF.ok, EngF.ok, Bool.and_eq_true,
    decide_eq_true_eq] at h'
  have htc := Ty.code_lt f.ty
  have hc : c.ok = true := by first | exact h' | exact h'.1 | exact h'.1.1 | exact h'.1.1.1 | exact h'.1.1.1.1 | exact h'.1.1.1.1.1 | exact h'.1.1.1.1.1.1 | exact h'.1.1.1.1.1.1.1 | exact h'.1.1.1.1.1.1.1.1
  refine ⟨c, 0x5C, encVM f 0, rfl, hc, by decide, fmtV_lt (by omega) (by omega) (by omega) (by omega) (by omega) (by omega) (by omega),
    rfl, ?_⟩
  rw [Row.vld c _ (ty := f.ty) (by simp (disch := first | rfl | omega) only [encV3, encV2, encVM, fmtV_ty, tyOf_code])]
  simp (disch := first | rfl | omega) only [bit_eq_fld, encV3, encV2, encVM, encP, fmtV_vd, fmtV_vd4, fmtV_39, fmtV_va, fmtV_va4, fmtV_34, fmtV_vb,
    fmtV_vb4, fmtV_29, fmtV_24, fmtV_vc, fmtV_vc4, fmtV_pr, fmtV_rd, fmtV_ra, fmtV_rb, fmtV_rc, fmtV_rp, fmtV_ty,
    fmtV_12_3, fmtV_12_2, fmtV_fn]
  have e1 : fld f.ac 0 3 = f.ac := by simp only [fld]; omega
  have e2 : fld f.ac 3 4 = 0 := by simp only [fld]; omega
  simp [accept, h, e1, e2]
theorem vst (c : Ctl) (f : VMemF) : Statement (.vst c f) := by
  intro h _
  have h' := h
  simp only [Instr.wellFormed, opndOk, gOk, pairOk, vOk, pOk, VF.ok, VF2.ok, VMemF.ok, MemF.ok, AtomF.ok, EngF.ok, Bool.and_eq_true,
    decide_eq_true_eq] at h'
  have htc := Ty.code_lt f.ty
  have hc : c.ok = true := by first | exact h' | exact h'.1 | exact h'.1.1 | exact h'.1.1.1 | exact h'.1.1.1.1 | exact h'.1.1.1.1.1 | exact h'.1.1.1.1.1.1 | exact h'.1.1.1.1.1.1.1 | exact h'.1.1.1.1.1.1.1.1
  refine ⟨c, 0x5D, encVM f 0, rfl, hc, by decide, fmtV_lt (by omega) (by omega) (by omega) (by omega) (by omega) (by omega) (by omega),
    rfl, ?_⟩
  rw [Row.vst c _ (ty := f.ty) (by simp (disch := first | rfl | omega) only [encV3, encV2, encVM, fmtV_ty, tyOf_code])]
  simp (disch := first | rfl | omega) only [bit_eq_fld, encV3, encV2, encVM, encP, fmtV_vd, fmtV_vd4, fmtV_39, fmtV_va, fmtV_va4, fmtV_34, fmtV_vb,
    fmtV_vb4, fmtV_29, fmtV_24, fmtV_vc, fmtV_vc4, fmtV_pr, fmtV_rd, fmtV_ra, fmtV_rb, fmtV_rc, fmtV_rp, fmtV_ty,
    fmtV_12_3, fmtV_12_2, fmtV_fn]
  have e1 : fld f.ac 0 3 = f.ac := by simp only [fld]; omega
  have e2 : fld f.ac 3 4 = 0 := by simp only [fld]; omega
  simp [accept, h, e1, e2]
theorem vldm (c : Ctl) (pq : Nat) (f : VMemF) : Statement (.vldm c pq f) := by
  intro h _
  have h' := h
  simp only [Instr.wellFormed, opndOk, gOk, pairOk, vOk, pOk, VF.ok, VF2.ok, VMemF.ok, MemF.ok, AtomF.ok, EngF.ok, Bool.and_eq_true,
    decide_eq_true_eq] at h'
  have htc := Ty.code_lt f.ty
  have hc : c.ok = true := by first | exact h' | exact h'.1 | exact h'.1.1 | exact h'.1.1.1 | exact h'.1.1.1.1 | exact h'.1.1.1.1.1 | exact h'.1.1.1.1.1.1 | exact h'.1.1.1.1.1.1.1 | exact h'.1.1.1.1.1.1.1.1
  refine ⟨c, 0x5E, encVM f pq, rfl, hc, by decide, fmtV_lt (by omega) (by omega) (by omega) (by omega) (by omega) (by omega) (by omega),
    rfl, ?_⟩
  rw [Row.vldm c _ (ty := f.ty) (by simp (disch := first | rfl | omega) only [encV3, encV2, encVM, fmtV_ty, tyOf_code])]
  simp (disch := first | rfl | omega) only [bit_eq_fld, encV3, encV2, encVM, encP, fmtV_vd, fmtV_vd4, fmtV_39, fmtV_va, fmtV_va4, fmtV_34, fmtV_vb,
    fmtV_vb4, fmtV_29, fmtV_24, fmtV_vc, fmtV_vc4, fmtV_pr, fmtV_rd, fmtV_ra, fmtV_rb, fmtV_rc, fmtV_rp, fmtV_ty,
    fmtV_12_3, fmtV_12_2, fmtV_fn]
  have e1 : fld f.ac 0 3 = f.ac := by simp only [fld]; omega
  have e2 : fld f.ac 3 4 = 0 := by simp only [fld]; omega
  simp [accept, h, e1, e2]
theorem vstm (c : Ctl) (f : VMemF) : Statement (.vstm c f) := by
  intro h _
  have h' := h
  simp only [Instr.wellFormed, opndOk, gOk, pairOk, vOk, pOk, VF.ok, VF2.ok, VMemF.ok, MemF.ok, AtomF.ok, EngF.ok, Bool.and_eq_true,
    decide_eq_true_eq] at h'
  have htc := Ty.code_lt f.ty
  have hc : c.ok = true := by first | exact h' | exact h'.1 | exact h'.1.1 | exact h'.1.1.1 | exact h'.1.1.1.1 | exact h'.1.1.1.1.1 | exact h'.1.1.1.1.1.1 | exact h'.1.1.1.1.1.1.1 | exact h'.1.1.1.1.1.1.1.1
  refine ⟨c, 0x5F, encVM f 0, rfl, hc, by decide, fmtV_lt (by omega) (by omega) (by omega) (by omega) (by omega) (by omega) (by omega),
    rfl, ?_⟩
  rw [Row.vstm c _ (ty := f.ty) (by simp (disch := first | rfl | omega) only [encV3, encV2, encVM, fmtV_ty, tyOf_code])]
  simp (disch := first | rfl | omega) only [bit_eq_fld, encV3, encV2, encVM, encP, fmtV_vd, fmtV_vd4, fmtV_39, fmtV_va, fmtV_va4, fmtV_34, fmtV_vb,
    fmtV_vb4, fmtV_29, fmtV_24, fmtV_vc, fmtV_vc4, fmtV_pr, fmtV_rd, fmtV_ra, fmtV_rb, fmtV_rc, fmtV_rp, fmtV_ty,
    fmtV_12_3, fmtV_12_2, fmtV_fn]
  have e1 : fld f.ac 0 3 = f.ac := by simp only [fld]; omega
  have e2 : fld f.ac 3 4 = 0 := by simp only [fld]; omega
  simp [accept, h, e1, e2]
theorem voptw (c : Ctl) (sr : Bool) (grp : Nat) (f : VF) (vc : RReg) : Statement (.voptw c sr grp f vc) := by
  intro h _
  have h' := h
  simp only [Instr.wellFormed, opndOk, gOk, pairOk, vOk, pOk, VF.ok, VF2.ok, VMemF.ok, MemF.ok, AtomF.ok, EngF.ok, Bool.and_eq_true,
    decide_eq_true_eq] at h'
  have htc := Ty.code_lt f.ty
  have hf : grp + 40 * b2n sr < 128 := by have := b2n_lt sr; omega
  have hc : c.ok = true := by first | exact h' | exact h'.1 | exact h'.1.1 | exact h'.1.1.1 | exact h'.1.1.1.1 | exact h'.1.1.1.1.1 | exact h'.1.1.1.1.1.1 | exact h'.1.1.1.1.1.1.1 | exact h'.1.1.1.1.1.1.1.1
  refine ⟨c, 0x60, encV3 f vc.n vc.rot (grp + 40 * b2n sr), rfl, hc, by decide, fmtV_lt (by omega) (by omega) (by omega) (by omega) (by omega) (by omega) (by omega),
    rfl, ?_⟩
  have e1 : ∀ z : Bool, fld (grp + 40 * b2n z) 0 3 = grp := by intro z; cases z <;> simp only [b2n_true, b2n_false, fld] <;> omega
  have e2 : ∀ z : Bool, fld (grp + 40 * b2n z) 3 4 = 5 * b2n z := by intro z; cases z <;> simp only [b2n_true, b2n_false, fld] <;> omega
  cases sr
  · rw [Row.voptw0 c _ (ty := f.ty) (by simp (disch := first | rfl | omega) only [encV3, fmtV_ty, tyOf_code]) (by rw [encV3, fmtV_fn (by decide), e2]; rfl)]
    simp (disch := first | rfl | omega) only [bit_eq_fld, encV3, encV2, encVM, encP, fmtV_vd, fmtV_vd4, fmtV_39, fmtV_va, fmtV_va4, fmtV_34, fmtV_vb, fmtV_vb4, fmtV_29,
      fmtV_24, fmtV_vc, fmtV_vc4, fmtV_pr, fmtV_rd, fmtV_ra, fmtV_rb, fmtV_rc, fmtV_rp, fmtV_ty, fmtV_12_3, fmtV_12_2, fmtV_fn, e1]
    simp [accept, h]
  · rw [Row.voptw1 c _ (ty := f.ty) (by simp (disch := first | rfl | omega) only [encV3, fmtV_ty, tyOf_code]) (by rw [encV3, fmtV_fn (by decide), e2]; rfl)]
    simp (disch := first | rfl | omega) only [bit_eq_fld, encV3, encV2, encVM, encP, fmtV_vd, fmtV_vd4, fmtV_39, fmtV_va, fmtV_va4, fmtV_34, fmtV_vb, fmtV_vb4, fmtV_29,
      fmtV_24, fmtV_vc, fmtV_vc4, fmtV_pr, fmtV_rd, fmtV_ra, fmtV_rb, fmtV_rc, fmtV_rp, fmtV_ty, fmtV_12_3, fmtV_12_2, fmtV_fn, e1]
    simp [accept, h]
theorem pand (c : Ctl) (pd pa pb pr : RReg) : Statement (.pand c pd pa pb pr) := by
  intro h _
  have h' := h
  simp only [Instr.wellFormed, opndOk, gOk, pairOk, vOk, pOk, VF.ok, VF2.ok, VMemF.ok, MemF.ok, AtomF.ok, EngF.ok, Bool.and_eq_true,
    decide_eq_true_eq] at h'
  have hc : c.ok = true := by first | exact h' | exact h'.1 | exact h'.1.1 | exact h'.1.1.1 | exact h'.1.1.1.1 | exact h'.1.1.1.1.1 | exact h'.1.1.1.1.1.1 | exact h'.1.1.1.1.1.1.1 | exact h'.1.1.1.1.1.1.1.1
  refine ⟨c, 0x61, fmtV pd.n pa.n pb.n 0 pr.n pd.rot pa.rot pb.rot false pr.rot 0 0, rfl, hc, by decide, fmtV_lt (by omega) (by omega) (by omega) (by omega) (by omega) (by omega) (by omega),
    rfl, ?_⟩
  rw [Row.pand c _ (by rw [fmtV_fn (by decide)]; rfl)]
  simp (disch := first | rfl | omega) only [bit_eq_fld, encV3, encV2, encVM, encP, fmtV_vd, fmtV_vd4, fmtV_39, fmtV_va, fmtV_va4, fmtV_34, fmtV_vb,
    fmtV_vb4, fmtV_29, fmtV_24, fmtV_vc, fmtV_vc4, fmtV_pr, fmtV_rd, fmtV_ra, fmtV_rb, fmtV_rc, fmtV_rp, fmtV_ty,
    fmtV_12_3, fmtV_12_2, fmtV_fn]
  simp [accept, h, fld]
theorem por (c : Ctl) (pd pa pb pr : RReg) : Statement (.por c pd pa pb pr) := by
  intro h _
  have h' := h
  simp only [Instr.wellFormed, opndOk, gOk, pairOk, vOk, pOk, VF.ok, VF2.ok, VMemF.ok, MemF.ok, AtomF.ok, EngF.ok, Bool.and_eq_true,
    decide_eq_true_eq] at h'
  have hc : c.ok = true := by first | exact h' | exact h'.1 | exact h'.1.1 | exact h'.1.1.1 | exact h'.1.1.1.1 | exact h'.1.1.1.1.1 | exact h'.1.1.1.1.1.1 | exact h'.1.1.1.1.1.1.1 | exact h'.1.1.1.1.1.1.1.1
  refine ⟨c, 0x61, fmtV pd.n pa.n pb.n 0 pr.n pd.rot pa.rot pb.rot false pr.rot 0 1, rfl, hc, by decide, fmtV_lt (by omega) (by omega) (by omega) (by omega) (by omega) (by omega) (by omega),
    rfl, ?_⟩
  rw [Row.por c _ (by rw [fmtV_fn (by decide)]; rfl)]
  simp (disch := first | rfl | omega) only [bit_eq_fld, encV3, encV2, encVM, encP, fmtV_vd, fmtV_vd4, fmtV_39, fmtV_va, fmtV_va4, fmtV_34, fmtV_vb,
    fmtV_vb4, fmtV_29, fmtV_24, fmtV_vc, fmtV_vc4, fmtV_pr, fmtV_rd, fmtV_ra, fmtV_rb, fmtV_rc, fmtV_rp, fmtV_ty,
    fmtV_12_3, fmtV_12_2, fmtV_fn]
  simp [accept, h, fld]
theorem pnot (c : Ctl) (pd pa pr : RReg) : Statement (.pnot c pd pa pr) := by
  intro h _
  have h' := h
  simp only [Instr.wellFormed, opndOk, gOk, pairOk, vOk, pOk, VF.ok, VF2.ok, VMemF.ok, MemF.ok, AtomF.ok, EngF.ok, Bool.and_eq_true,
    decide_eq_true_eq] at h'
  have hc : c.ok = true := by first | exact h' | exact h'.1 | exact h'.1.1 | exact h'.1.1.1 | exact h'.1.1.1.1 | exact h'.1.1.1.1.1 | exact h'.1.1.1.1.1.1 | exact h'.1.1.1.1.1.1.1 | exact h'.1.1.1.1.1.1.1.1
  refine ⟨c, 0x61, fmtV pd.n pa.n 0 0 pr.n pd.rot pa.rot false false pr.rot 0 2, rfl, hc, by decide, fmtV_lt (by omega) (by omega) (by omega) (by omega) (by omega) (by omega) (by omega),
    rfl, ?_⟩
  rw [Row.pnot c _ (by rw [fmtV_fn (by decide)]; rfl)]
  simp (disch := first | rfl | omega) only [bit_eq_fld, encV3, encV2, encVM, encP, fmtV_vd, fmtV_vd4, fmtV_39, fmtV_va, fmtV_va4, fmtV_34, fmtV_vb,
    fmtV_vb4, fmtV_29, fmtV_24, fmtV_vc, fmtV_vc4, fmtV_pr, fmtV_rd, fmtV_ra, fmtV_rb, fmtV_rc, fmtV_rp, fmtV_ty,
    fmtV_12_3, fmtV_12_2, fmtV_fn]
  simp [accept, h, fld]
theorem pset (c : Ctl) (pd : RReg) (n : Nat) (pr : RReg) : Statement (.pset c pd n pr) := by
  intro h _
  have h' := h
  simp only [Instr.wellFormed, opndOk, gOk, pairOk, vOk, pOk, VF.ok, VF2.ok, VMemF.ok, MemF.ok, AtomF.ok, EngF.ok, Bool.and_eq_true,
    decide_eq_true_eq] at h'
  have hc : c.ok = true := by first | exact h' | exact h'.1 | exact h'.1.1 | exact h'.1.1.1 | exact h'.1.1.1.1 | exact h'.1.1.1.1.1 | exact h'.1.1.1.1.1.1 | exact h'.1.1.1.1.1.1.1 | exact h'.1.1.1.1.1.1.1.1
  refine ⟨c, 0x61, fmtV pd.n n 0 0 pr.n pd.rot false false false pr.rot 0 3, rfl, hc, by decide, fmtV_lt (by omega) (by omega) (by omega) (by omega) (by omega) (by omega) (by omega),
    rfl, ?_⟩
  rw [Row.pset c _ (by rw [fmtV_fn (by decide)]; rfl)]
  simp (disch := first | rfl | omega) only [bit_eq_fld, encV3, encV2, encVM, encP, fmtV_vd, fmtV_vd4, fmtV_39, fmtV_va, fmtV_va4, fmtV_34, fmtV_vb,
    fmtV_vb4, fmtV_29, fmtV_24, fmtV_vc, fmtV_vc4, fmtV_pr, fmtV_rd, fmtV_ra, fmtV_rb, fmtV_rc, fmtV_rp, fmtV_ty,
    fmtV_12_3, fmtV_12_2, fmtV_fn]
  simp [accept, h, fld]
theorem mldb (c : Ctl) (sa pn : Nat) (tx : Bool) : Statement (.mldb c sa pn tx) := by
  intro h _
  have h' := h
  simp only [Instr.wellFormed, opndOk, gOk, pairOk, vOk, pOk, VF.ok, VF2.ok, VMemF.ok, MemF.ok, AtomF.ok, EngF.ok, Bool.and_eq_true,
    decide_eq_true_eq] at h'
  have hc : c.ok = true := by first | exact h' | exact h'.1 | exact h'.1.1 | exact h'.1.1.1 | exact h'.1.1.1.1 | exact h'.1.1.1.1.1 | exact h'.1.1.1.1.1.1 | exact h'.1.1.1.1.1.1.1 | exact h'.1.1.1.1.1.1.1.1
  refine ⟨c, 0x70, fmtX sa 0 pn 0 tx false false 0 false 0 0, rfl, hc, by decide, fmtX_lt (by omega) (by omega) (by omega) (by omega) (by omega) (by omega) (by omega),
    rfl, ?_⟩
  rw [Row.mldb c _]
  simp (disch := first | rfl | omega) only [bit_eq_fld, fmtX_sa, fmtX_sb, fmtX_pn, fmtX_t, fmtX_rm, fmtX_15, fmtX_fmt, fmtX_tx, fmtX_zc, fmtX_sat, fmtX_fo,
    fmtX_fn, fmtX_23_9, (by rw [fmtX_low (by decide)]; cases tx <;> rfl : fld (fmtX sa 0 pn 0 tx false false 0 false 0 0) 0 22 = 0)]
  simp [accept, h, fld]
theorem mma (c : Ctl) (sa pn tile : Nat) (tx zc sat : Bool) : Statement (.mma c sa pn tile tx zc sat) := by
  intro h _
  have h' := h
  simp only [Instr.wellFormed, opndOk, gOk, pairOk, vOk, pOk, VF.ok, VF2.ok, VMemF.ok, MemF.ok, AtomF.ok, EngF.ok, Bool.and_eq_true,
    decide_eq_true_eq] at h'
  have hc : c.ok = true := by first | exact h' | exact h'.1 | exact h'.1.1 | exact h'.1.1.1 | exact h'.1.1.1.1 | exact h'.1.1.1.1.1 | exact h'.1.1.1.1.1.1 | exact h'.1.1.1.1.1.1.1 | exact h'.1.1.1.1.1.1.1.1
  refine ⟨c, 0x71, fmtX sa 0 pn tile tx zc sat 0 false 0 0, rfl, hc, by decide, fmtX_lt (by omega) (by omega) (by omega) (by omega) (by omega) (by omega) (by omega),
    rfl, ?_⟩
  rw [Row.mma c _]
  simp (disch := first | rfl | omega) only [bit_eq_fld, fmtX_sa, fmtX_sb, fmtX_pn, fmtX_t, fmtX_rm, fmtX_15, fmtX_fmt, fmtX_tx, fmtX_zc, fmtX_sat, fmtX_fo,
    fmtX_fn, fmtX_23_9, (by rw [fmtX_low (by decide)]; cases tx <;> cases zc <;> cases sat <;> rfl : fld (fmtX sa 0 pn tile tx zc sat 0 false 0 0) 0 20 = 0)]
  simp [accept, h, fld]
theorem mscfg (c : Ctl) (n : Nat) : Statement (.mscfg c n) := by
  intro h _
  have h' := h
  simp only [Instr.wellFormed, opndOk, gOk, pairOk, vOk, pOk, VF.ok, VF2.ok, VMemF.ok, MemF.ok, AtomF.ok, EngF.ok, Bool.and_eq_true,
    decide_eq_true_eq] at h'
  have hc : c.ok = true := by first | exact h' | exact h'.1 | exact h'.1.1 | exact h'.1.1.1 | exact h'.1.1.1.1 | exact h'.1.1.1.1.1 | exact h'.1.1.1.1.1.1 | exact h'.1.1.1.1.1.1.1 | exact h'.1.1.1.1.1.1.1.1
  refine ⟨c, 0x72, n, rfl, hc, by decide, (by omega : n < 2 ^ 40),
    rfl, ?_⟩
  rw [Row.mscfg c _]
  have e1 : fld n 0 4 = n := by simp only [fld]; omega
  have e2 : fld n 4 36 = 0 := by simp only [fld]; omega
  simp [accept, h, e1, e2]
theorem msamp (c : Ctl) (rd sa pn tile : Nat) (tx zc : Bool) : Statement (.msamp c rd sa pn tile tx zc) := by
  intro h _
  have h' := h
  simp only [Instr.wellFormed, opndOk, gOk, pairOk, vOk, pOk, VF.ok, VF2.ok, VMemF.ok, MemF.ok, AtomF.ok, EngF.ok, Bool.and_eq_true,
    decide_eq_true_eq] at h'
  have e0 : fld (fmtX sa 0 pn tile tx zc false 0 false 0 rd) 6 15 = 0 := by
    have g1 := b2n_lt tx; have g2 := b2n_lt zc
    rw [fmtX_low (by decide)]; simp only [fld, b2n_false]; omega
  have hc : c.ok = true := by first | exact h' | exact h'.1 | exact h'.1.1 | exact h'.1.1.1 | exact h'.1.1.1.1 | exact h'.1.1.1.1.1 | exact h'.1.1.1.1.1.1 | exact h'.1.1.1.1.1.1.1 | exact h'.1.1.1.1.1.1.1.1
  refine ⟨c, 0x73, fmtX sa 0 pn tile tx zc false 0 false 0 rd, rfl, hc, by decide, fmtX_lt (by omega) (by omega) (by omega) (by omega) (by omega) (by omega) (by omega),
    rfl, ?_⟩
  rw [Row.msamp c _]
  simp (disch := first | rfl | omega) only [bit_eq_fld, fmtX_sa, fmtX_sb, fmtX_pn, fmtX_t, fmtX_rm, fmtX_15, fmtX_fmt, fmtX_tx, fmtX_zc, fmtX_sat, fmtX_fo,
    fmtX_fn, fmtX_23_9, e0]
  have e1 : fld rd 0 6 = rd := by simp only [fld]; omega
  simp [accept, h, e1]
theorem accz (c : Ctl) (tile : Nat) : Statement (.accz c tile) := by
  intro h _
  have h' := h
  simp only [Instr.wellFormed, opndOk, gOk, pairOk, vOk, pOk, VF.ok, VF2.ok, VMemF.ok, MemF.ok, AtomF.ok, EngF.ok, Bool.and_eq_true,
    decide_eq_true_eq] at h'
  have hc : c.ok = true := by first | exact h' | exact h'.1 | exact h'.1.1 | exact h'.1.1.1 | exact h'.1.1.1.1 | exact h'.1.1.1.1.1 | exact h'.1.1.1.1.1.1 | exact h'.1.1.1.1.1.1.1 | exact h'.1.1.1.1.1.1.1.1
  refine ⟨c, 0x74, fmtX 0 0 0 tile false false false 0 false 0 0, rfl, hc, by decide, fmtX_lt (by omega) (by omega) (by omega) (by omega) (by omega) (by omega) (by omega),
    rfl, ?_⟩
  rw [Row.accz c _]
  simp (disch := first | rfl | omega) only [bit_eq_fld, fmtX_sa, fmtX_sb, fmtX_pn, fmtX_t, fmtX_rm, fmtX_15, fmtX_fmt, fmtX_tx, fmtX_zc, fmtX_sat, fmtX_fo,
    fmtX_fn, fmtX_23_9, (by rw [fmtX_low (by decide)]; rfl : fld (fmtX 0 0 0 tile false false false 0 false 0 0) 0 23 = 0)]
  simp [accept, h, fld]
theorem accrd (c : Ctl) (tile : Nat) (rm : Rm) (sat : Bool) (fmt : Option Nat) (vd : Nat) : Statement (.accrd c tile rm sat fmt vd) := by
  intro h _
  have h' := h
  simp only [Instr.wellFormed, opndOk, gOk, pairOk, vOk, pOk, VF.ok, VF2.ok, VMemF.ok, MemF.ok, AtomF.ok, EngF.ok, Bool.and_eq_true,
    decide_eq_true_eq] at h'
  have hfm : encFmt fmt < 32 := by cases fmt with
    | none => exact (by decide : 0 < 32)
    | some x => have := h'.2; simp only [decide_eq_true_eq] at this; exact this
  have hrm := Rm.code_lt rm
  have e0 : fld (fmtX 0 0 0 tile false false sat rm.code fmt.isSome (encFmt fmt) vd) 21 2 = 0 := by
    have g1 := b2n_lt sat; have g2 := b2n_lt fmt.isSome
    rw [fmtX_low (by decide)]; simp only [fld, b2n_false]; omega
  have hc : c.ok = true := by first | exact h' | exact h'.1 | exact h'.1.1 | exact h'.1.1.1 | exact h'.1.1.1.1 | exact h'.1.1.1.1.1 | exact h'.1.1.1.1.1.1 | exact h'.1.1.1.1.1.1.1 | exact h'.1.1.1.1.1.1.1.1
  refine ⟨c, 0x75, fmtX 0 0 0 tile false false sat rm.code fmt.isSome (encFmt fmt) vd, rfl, hc, by decide, fmtX_lt (by omega) (by omega) (by omega) (by omega) (by omega) (by omega) (by omega),
    rfl, ?_⟩
  rw [Row.accrd c _ (rm := rm) (by simp (disch := first | rfl | omega) only [fmtX_rm, rmOf_code])]
  simp (disch := first | rfl | omega) only [bit_eq_fld, fmtX_sa, fmtX_sb, fmtX_pn, fmtX_t, fmtX_rm, fmtX_15, fmtX_fmt, fmtX_tx, fmtX_zc, fmtX_sat, fmtX_fo,
    fmtX_fn, fmtX_23_9, e0]
  have e1 : fld vd 0 5 = vd := by simp only [fld]; omega
  have e2 : fld vd 5 4 = 0 := by simp only [fld]; omega
  cases fmt <;> simp [accept, h, e1, e2, encFmt]
theorem accwr (c : Ctl) (tile : Nat) (fmt : Option Nat) (vs : Nat) : Statement (.accwr c tile fmt vs) := by
  intro h _
  have h' := h
  simp only [Instr.wellFormed, opndOk, gOk, pairOk, vOk, pOk, VF.ok, VF2.ok, VMemF.ok, MemF.ok, AtomF.ok, EngF.ok, Bool.and_eq_true,
    decide_eq_true_eq] at h'
  have hfm : encFmt fmt < 32 := by cases fmt with
    | none => exact (by decide : 0 < 32)
    | some x => have := h'.2; simp only [decide_eq_true_eq] at this; exact this
  have e0 : fld (fmtX 0 0 0 tile false false false 0 fmt.isSome (encFmt fmt) vs) 17 6 = 0 := by
    have g2 := b2n_lt fmt.isSome
    rw [fmtX_low (by decide)]; simp only [fld, b2n_false]; omega
  have hc : c.ok = true := by first | exact h' | exact h'.1 | exact h'.1.1 | exact h'.1.1.1 | exact h'.1.1.1.1 | exact h'.1.1.1.1.1 | exact h'.1.1.1.1.1.1 | exact h'.1.1.1.1.1.1.1 | exact h'.1.1.1.1.1.1.1.1
  refine ⟨c, 0x76, fmtX 0 0 0 tile false false false 0 fmt.isSome (encFmt fmt) vs, rfl, hc, by decide, fmtX_lt (by omega) (by omega) (by omega) (by omega) (by omega) (by omega) (by omega),
    rfl, ?_⟩
  rw [Row.accwr c _]
  simp (disch := first | rfl | omega) only [bit_eq_fld, fmtX_sa, fmtX_sb, fmtX_pn, fmtX_t, fmtX_rm, fmtX_15, fmtX_fmt, fmtX_tx, fmtX_zc, fmtX_sat, fmtX_fo,
    fmtX_fn, fmtX_23_9, e0]
  have e1 : fld vs 0 5 = vs := by simp only [fld]; omega
  have e2 : fld vs 5 4 = 0 := by simp only [fld]; omega
  cases fmt <;> simp [accept, h, e1, e2, encFmt]
theorem accq (c : Ctl) (sa sb tile : Nat) (rm : Rm) (fmt : Option Nat) (blk : Bool) : Statement (.accq c sa sb tile rm fmt blk) := by
  intro h _
  have h' := h
  simp only [Instr.wellFormed, opndOk, gOk, pairOk, vOk, pOk, VF.ok, VF2.ok, VMemF.ok, MemF.ok, AtomF.ok, EngF.ok, Bool.and_eq_true,
    decide_eq_true_eq] at h'
  have hfm : encFmt fmt < 32 := by cases fmt with
    | none => exact (by decide : 0 < 32)
    | some x => have := h'.2; simp only [decide_eq_true_eq] at this; exact this
  have hrm := Rm.code_lt rm
  have hb := b2n_lt blk
  have e0 : fld (fmtX sa sb 0 tile false false false rm.code fmt.isSome (encFmt fmt) (b2n blk)) 20 3 = 0 := by
    have g1 := b2n_lt blk; have g2 := b2n_lt fmt.isSome
    rw [fmtX_low (by decide)]; simp only [fld, b2n_false]; omega
  have hc : c.ok = true := by first | exact h' | exact h'.1 | exact h'.1.1 | exact h'.1.1.1 | exact h'.1.1.1.1 | exact h'.1.1.1.1.1 | exact h'.1.1.1.1.1.1 | exact h'.1.1.1.1.1.1.1 | exact h'.1.1.1.1.1.1.1.1
  refine ⟨c, 0x77, fmtX sa sb 0 tile false false false rm.code fmt.isSome (encFmt fmt) (b2n blk), rfl, hc, by decide, fmtX_lt (by omega) (by omega) (by omega) (by omega) (by omega) (by omega) (by omega),
    rfl, ?_⟩
  rw [Row.accq c _ (rm := rm) (by simp (disch := first | rfl | omega) only [fmtX_rm, rmOf_code])]
  simp (disch := first | rfl | omega) only [bit_eq_fld, fmtX_sa, fmtX_sb, fmtX_pn, fmtX_t, fmtX_rm, fmtX_15, fmtX_fmt, fmtX_tx, fmtX_zc, fmtX_sat, fmtX_fo,
    fmtX_fn, fmtX_23_9, e0]
  have e1 : fld (b2n blk) 0 1 = b2n blk := by cases blk <;> rfl
  have e2 : fld (b2n blk) 1 8 = 0 := by cases blk <;> rfl
  cases fmt <;> simp [accept, h, e1, e2, encFmt]
theorem accst (c : Ctl) (sa tile : Nat) : Statement (.accst c sa tile) := by
  intro h _
  have h' := h
  simp only [Instr.wellFormed, opndOk, gOk, pairOk, vOk, pOk, VF.ok, VF2.ok, VMemF.ok, MemF.ok, AtomF.ok, EngF.ok, Bool.and_eq_true,
    decide_eq_true_eq] at h'
  have hc : c.ok = true := by first | exact h' | exact h'.1 | exact h'.1.1 | exact h'.1.1.1 | exact h'.1.1.1.1 | exact h'.1.1.1.1.1 | exact h'.1.1.1.1.1.1 | exact h'.1.1.1.1.1.1.1 | exact h'.1.1.1.1.1.1.1.1
  refine ⟨c, 0x78, fmtX sa 0 0 tile false false false 0 false 0 0, rfl, hc, by decide, fmtX_lt (by omega) (by omega) (by omega) (by omega) (by omega) (by omega) (by omega),
    rfl, ?_⟩
  rw [Row.accst c _]
  simp (disch := first | rfl | omega) only [bit_eq_fld, fmtX_sa, fmtX_sb, fmtX_pn, fmtX_t, fmtX_rm, fmtX_15, fmtX_fmt, fmtX_tx, fmtX_zc, fmtX_sat, fmtX_fo,
    fmtX_fn, fmtX_23_9, (by rw [fmtX_low (by decide)]; rfl : fld (fmtX sa 0 0 tile false false false 0 false 0 0) 0 23 = 0)]
  simp [accept, h, fld]
theorem accld (c : Ctl) (sa tile : Nat) : Statement (.accld c sa tile) := by
  intro h _
  have h' := h
  simp only [Instr.wellFormed, opndOk, gOk, pairOk, vOk, pOk, VF.ok, VF2.ok, VMemF.ok, MemF.ok, AtomF.ok, EngF.ok, Bool.and_eq_true,
    decide_eq_true_eq] at h'
  have hc : c.ok = true := by first | exact h' | exact h'.1 | exact h'.1.1 | exact h'.1.1.1 | exact h'.1.1.1.1 | exact h'.1.1.1.1.1 | exact h'.1.1.1.1.1.1 | exact h'.1.1.1.1.1.1.1 | exact h'.1.1.1.1.1.1.1.1
  refine ⟨c, 0x79, fmtX sa 0 0 tile false false false 0 false 0 0, rfl, hc, by decide, fmtX_lt (by omega) (by omega) (by omega) (by omega) (by omega) (by omega) (by omega),
    rfl, ?_⟩
  rw [Row.accld c _]
  simp (disch := first | rfl | omega) only [bit_eq_fld, fmtX_sa, fmtX_sb, fmtX_pn, fmtX_t, fmtX_rm, fmtX_15, fmtX_fmt, fmtX_tx, fmtX_zc, fmtX_sat, fmtX_fo,
    fmtX_fn, fmtX_23_9, (by rw [fmtX_low (by decide)]; rfl : fld (fmtX sa 0 0 tile false false false 0 false 0 0) 0 23 = 0)]
  simp [accept, h, fld]
theorem strcfg (c : Ctl) (n ra : Nat) (imm : BitVec 24) : Statement (.strcfg c n ra imm) := by
  intro h _
  have h' := h
  simp only [Instr.wellFormed, opndOk, gOk, pairOk, vOk, pOk, VF.ok, VF2.ok, VMemF.ok, MemF.ok, AtomF.ok, EngF.ok, Bool.and_eq_true,
    decide_eq_true_eq] at h'
  have hi := imm.isLt
  have hc : c.ok = true := by first | exact h' | exact h'.1 | exact h'.1.1 | exact h'.1.1.1 | exact h'.1.1.1.1 | exact h'.1.1.1.1.1 | exact h'.1.1.1.1.1.1 | exact h'.1.1.1.1.1.1.1 | exact h'.1.1.1.1.1.1.1.1
  refine ⟨c, 0x80, fmtI n ra 0 imm.toNat, rfl, hc, by decide, fmtI_lt (by omega) (by omega) (by omega) (by omega),
    rfl, ?_⟩
  rw [Row.strcfg c _]
  simp (disch := first | rfl | omega) only [fmtI_rd, fmtI_rd4, fmtI_top, fmtI_ra, fmtI_md, fmtI_imm]
  have e1 : fld imm.toNat 0 24 = imm.toNat := by simp only [fld]; omega
  simp [accept, h, e1]
theorem strset (c : Ctl) (n ra w : Nat) : Statement (.strset c n ra w) := by
  intro h _
  have h' := h
  simp only [Instr.wellFormed, opndOk, gOk, pairOk, vOk, pOk, VF.ok, VF2.ok, VMemF.ok, MemF.ok, AtomF.ok, EngF.ok, Bool.and_eq_true,
    decide_eq_true_eq] at h'
  have hc : c.ok = true := by first | exact h' | exact h'.1 | exact h'.1.1 | exact h'.1.1.1 | exact h'.1.1.1.1 | exact h'.1.1.1.1.1 | exact h'.1.1.1.1.1.1 | exact h'.1.1.1.1.1.1.1 | exact h'.1.1.1.1.1.1.1.1
  refine ⟨c, 0x81, fmtI n ra w 0, rfl, hc, by decide, fmtI_lt (by omega) (by omega) (by omega) (by omega),
    rfl, ?_⟩
  rw [Row.strset c _]
  simp (disch := first | rfl | omega) only [fmtI_rd, fmtI_rd4, fmtI_top, fmtI_ra, fmtI_md, fmtI_imm]
  simp [accept, h, fld]
theorem strld (c : Ctl) (sa sb : Nat) (tx : Bool) : Statement (.strld c sa sb tx) := by
  intro h _
  have h' := h
  simp only [Instr.wellFormed, opndOk, gOk, pairOk, vOk, pOk, VF.ok, VF2.ok, VMemF.ok, MemF.ok, AtomF.ok, EngF.ok, Bool.and_eq_true,
    decide_eq_true_eq] at h'
  have hc : c.ok = true := by first | exact h' | exact h'.1 | exact h'.1.1 | exact h'.1.1.1 | exact h'.1.1.1.1 | exact h'.1.1.1.1.1 | exact h'.1.1.1.1.1.1 | exact h'.1.1.1.1.1.1.1 | exact h'.1.1.1.1.1.1.1.1
  refine ⟨c, 0x82, fmtX sa sb 0 0 tx false false 0 false 0 0, rfl, hc, by decide, fmtX_lt (by omega) (by omega) (by omega) (by omega) (by omega) (by omega) (by omega),
    rfl, ?_⟩
  rw [Row.strld c _]
  simp (disch := first | rfl | omega) only [bit_eq_fld, fmtX_sa, fmtX_sb, fmtX_pn, fmtX_t, fmtX_rm, fmtX_15, fmtX_fmt, fmtX_tx, fmtX_zc, fmtX_sat, fmtX_fo,
    fmtX_fn, fmtX_23_9, (by rw [fmtX_low (by decide)]; cases tx <;> rfl : fld (fmtX sa sb 0 0 tx false false 0 false 0 0) 0 22 = 0)]
  simp [accept, h, fld]
theorem strst (c : Ctl) (sa sb : Nat) : Statement (.strst c sa sb) := by
  intro h _
  have h' := h
  simp only [Instr.wellFormed, opndOk, gOk, pairOk, vOk, pOk, VF.ok, VF2.ok, VMemF.ok, MemF.ok, AtomF.ok, EngF.ok, Bool.and_eq_true,
    decide_eq_true_eq] at h'
  have e0 : fld (fmtX sa sb 0 0 false false false 0 false 0 0) 0 32 = 0 := by simp only [fld, fmtX, b2n_false]; omega
  have hc : c.ok = true := by first | exact h' | exact h'.1 | exact h'.1.1 | exact h'.1.1.1 | exact h'.1.1.1.1 | exact h'.1.1.1.1.1 | exact h'.1.1.1.1.1.1 | exact h'.1.1.1.1.1.1.1 | exact h'.1.1.1.1.1.1.1.1
  refine ⟨c, 0x83, fmtX sa sb 0 0 false false false 0 false 0 0, rfl, hc, by decide, fmtX_lt (by omega) (by omega) (by omega) (by omega) (by omega) (by omega) (by omega),
    rfl, ?_⟩
  rw [Row.strst c _]
  simp (disch := first | rfl | omega) only [bit_eq_fld, fmtX_sa, fmtX_sb, fmtX_pn, fmtX_t, fmtX_rm, fmtX_15, fmtX_fmt, fmtX_tx, fmtX_zc, fmtX_sat, fmtX_fo,
    fmtX_fn, fmtX_23_9, e0]
  simp [accept, h, fld]
theorem stradv (c : Ctl) (sa k : Nat) : Statement (.stradv c sa k) := by
  intro h _
  have h' := h
  simp only [Instr.wellFormed, opndOk, gOk, pairOk, vOk, pOk, VF.ok, VF2.ok, VMemF.ok, MemF.ok, AtomF.ok, EngF.ok, Bool.and_eq_true,
    decide_eq_true_eq] at h'
  have e0 : fld (fmtX sa 0 0 0 false false false 0 false 0 k) 9 20 = 0 := by simp only [fld, fmtX, b2n_false]; omega
  have hc : c.ok = true := by first | exact h' | exact h'.1 | exact h'.1.1 | exact h'.1.1.1 | exact h'.1.1.1.1 | exact h'.1.1.1.1.1 | exact h'.1.1.1.1.1.1 | exact h'.1.1.1.1.1.1.1 | exact h'.1.1.1.1.1.1.1.1
  refine ⟨c, 0x84, fmtX sa 0 0 0 false false false 0 false 0 k, rfl, hc, by decide, fmtX_lt (by omega) (by omega) (by omega) (by omega) (by omega) (by omega) (by omega),
    rfl, ?_⟩
  rw [Row.stradv c _]
  simp (disch := first | rfl | omega) only [bit_eq_fld, fmtX_sa, fmtX_sb, fmtX_pn, fmtX_t, fmtX_rm, fmtX_15, fmtX_fmt, fmtX_tx, fmtX_zc, fmtX_sat, fmtX_fo,
    fmtX_fn, fmtX_23_9, e0]
  have e1 : fld k 3 6 = 0 := by simp only [fld]; omega
  have e2 : fld k 0 9 = k := by simp only [fld]; omega
  simp [accept, h, e1, e2]
theorem tilereq (c : Ctl) (grp ctr buf rd : Nat) (w hb : Bool) : Statement (.tilereq c grp ctr buf rd w hb) := by
  intro h _
  have h' := h
  simp only [Instr.wellFormed, opndOk, gOk, pairOk, vOk, pOk, VF.ok, VF2.ok, VMemF.ok, MemF.ok, AtomF.ok, EngF.ok, Bool.and_eq_true,
    decide_eq_true_eq] at h'
  have hf : b2n w + 2 * b2n hb < 16384 := by have := b2n_lt w; have := b2n_lt hb; omega
  have hc : c.ok = true := by first | exact h' | exact h'.1 | exact h'.1.1 | exact h'.1.1.1 | exact h'.1.1.1.1 | exact h'.1.1.1.1.1 | exact h'.1.1.1.1.1.1 | exact h'.1.1.1.1.1.1.1 | exact h'.1.1.1.1.1.1.1.1
  refine ⟨c, 0x85, fmtE grp ctr false false 0 buf rd (b2n w + 2 * b2n hb), rfl, hc, by decide, fmtE_lt (by omega) (by omega) (by omega) (by omega) (by omega) (by omega),
    rfl, ?_⟩
  rw [Row.tilereq c _]
  simp (disch := first | rfl | omega) only [bit_eq_fld, encE, fmtE_grp, fmtE_ctr, fmtE_acq, fmtE_rel, fmtE_sc, fmtE_28_6, fmtE_20_16, fmtE_buf, fmtE_rd,
    fmtE_fn]
  cases w <;> cases hb <;> simp [accept, h, fld]
theorem pgreq (c : Ctl) (grp ctr buf rd : Nat) (w : Bool) : Statement (.pgreq c grp ctr buf rd w) := by
  intro h _
  have h' := h
  simp only [Instr.wellFormed, opndOk, gOk, pairOk, vOk, pOk, VF.ok, VF2.ok, VMemF.ok, MemF.ok, AtomF.ok, EngF.ok, Bool.and_eq_true,
    decide_eq_true_eq] at h'
  have hf : b2n w < 16384 := by have := b2n_lt w; omega
  have hc : c.ok = true := by first | exact h' | exact h'.1 | exact h'.1.1 | exact h'.1.1.1 | exact h'.1.1.1.1 | exact h'.1.1.1.1.1 | exact h'.1.1.1.1.1.1 | exact h'.1.1.1.1.1.1.1 | exact h'.1.1.1.1.1.1.1.1
  refine ⟨c, 0x86, fmtE grp ctr false false 0 buf rd (b2n w), rfl, hc, by decide, fmtE_lt (by omega) (by omega) (by omega) (by omega) (by omega) (by omega),
    rfl, ?_⟩
  rw [Row.pgreq c _]
  simp (disch := first | rfl | omega) only [bit_eq_fld, encE, fmtE_grp, fmtE_ctr, fmtE_acq, fmtE_rel, fmtE_sc, fmtE_28_6, fmtE_20_16, fmtE_buf, fmtE_rd,
    fmtE_fn]
  cases w <;> simp [accept, h, fld]
theorem cpy (c : Ctl) (e : EngF) : Statement (.cpy c e) := by
  intro h _
  have h' := h
  simp only [Instr.wellFormed, opndOk, gOk, pairOk, vOk, pOk, VF.ok, VF2.ok, VMemF.ok, MemF.ok, AtomF.ok, EngF.ok, Bool.and_eq_true,
    decide_eq_true_eq] at h'
  have hc : c.ok = true := by first | exact h' | exact h'.1 | exact h'.1.1 | exact h'.1.1.1 | exact h'.1.1.1.1 | exact h'.1.1.1.1.1 | exact h'.1.1.1.1.1.1 | exact h'.1.1.1.1.1.1.1 | exact h'.1.1.1.1.1.1.1.1
  refine ⟨c, 0x90, encE e, rfl, hc, by decide, fmtE_lt (by omega) (by omega) (by omega) (by omega) (by omega) (by omega),
    rfl, ?_⟩
  rw [Row.cpy c _]
  simp (disch := first | rfl | omega) only [bit_eq_fld, encE, fmtE_grp, fmtE_ctr, fmtE_acq, fmtE_rel, fmtE_sc, fmtE_28_6, fmtE_20_16, fmtE_buf, fmtE_rd,
    fmtE_fn]
  simp [accept, h, fld]
theorem cpyr (c : Ctl) (e : EngF) : Statement (.cpyr c e) := by
  intro h _
  have h' := h
  simp only [Instr.wellFormed, opndOk, gOk, pairOk, vOk, pOk, VF.ok, VF2.ok, VMemF.ok, MemF.ok, AtomF.ok, EngF.ok, Bool.and_eq_true,
    decide_eq_true_eq] at h'
  have hc : c.ok = true := by first | exact h' | exact h'.1 | exact h'.1.1 | exact h'.1.1.1 | exact h'.1.1.1.1 | exact h'.1.1.1.1.1 | exact h'.1.1.1.1.1.1 | exact h'.1.1.1.1.1.1.1 | exact h'.1.1.1.1.1.1.1.1
  refine ⟨c, 0x91, encE e, rfl, hc, by decide, fmtE_lt (by omega) (by omega) (by omega) (by omega) (by omega) (by omega),
    rfl, ?_⟩
  rw [Row.cpyr c _]
  simp (disch := first | rfl | omega) only [bit_eq_fld, encE, fmtE_grp, fmtE_ctr, fmtE_acq, fmtE_rel, fmtE_sc, fmtE_28_6, fmtE_20_16, fmtE_buf, fmtE_rd,
    fmtE_fn]
  simp [accept, h, fld]
theorem stash (c : Ctl) (e : EngF) : Statement (.stash c e) := by
  intro h _
  have h' := h
  simp only [Instr.wellFormed, opndOk, gOk, pairOk, vOk, pOk, VF.ok, VF2.ok, VMemF.ok, MemF.ok, AtomF.ok, EngF.ok, Bool.and_eq_true,
    decide_eq_true_eq] at h'
  have hc : c.ok = true := by first | exact h' | exact h'.1 | exact h'.1.1 | exact h'.1.1.1 | exact h'.1.1.1.1 | exact h'.1.1.1.1.1 | exact h'.1.1.1.1.1.1 | exact h'.1.1.1.1.1.1.1 | exact h'.1.1.1.1.1.1.1.1
  refine ⟨c, 0x92, encE e, rfl, hc, by decide, fmtE_lt (by omega) (by omega) (by omega) (by omega) (by omega) (by omega),
    rfl, ?_⟩
  rw [Row.stash c _]
  simp (disch := first | rfl | omega) only [bit_eq_fld, encE, fmtE_grp, fmtE_ctr, fmtE_acq, fmtE_rel, fmtE_sc, fmtE_28_6, fmtE_20_16, fmtE_buf, fmtE_rd,
    fmtE_fn]
  simp [accept, h, fld]
theorem stfetch (c : Ctl) (e : EngF) : Statement (.stfetch c e) := by
  intro h _
  have h' := h
  simp only [Instr.wellFormed, opndOk, gOk, pairOk, vOk, pOk, VF.ok, VF2.ok, VMemF.ok, MemF.ok, AtomF.ok, EngF.ok, Bool.and_eq_true,
    decide_eq_true_eq] at h'
  have hc : c.ok = true := by first | exact h' | exact h'.1 | exact h'.1.1 | exact h'.1.1.1 | exact h'.1.1.1.1 | exact h'.1.1.1.1.1 | exact h'.1.1.1.1.1.1 | exact h'.1.1.1.1.1.1.1 | exact h'.1.1.1.1.1.1.1.1
  refine ⟨c, 0x93, encE e, rfl, hc, by decide, fmtE_lt (by omega) (by omega) (by omega) (by omega) (by omega) (by omega),
    rfl, ?_⟩
  rw [Row.stfetch c _]
  simp (disch := first | rfl | omega) only [bit_eq_fld, encE, fmtE_grp, fmtE_ctr, fmtE_acq, fmtE_rel, fmtE_sc, fmtE_28_6, fmtE_20_16, fmtE_buf, fmtE_rd,
    fmtE_fn]
  simp [accept, h, fld]
theorem stdrop (c : Ctl) (e : EngF) : Statement (.stdrop c e) := by
  intro h _
  have h' := h
  simp only [Instr.wellFormed, opndOk, gOk, pairOk, vOk, pOk, VF.ok, VF2.ok, VMemF.ok, MemF.ok, AtomF.ok, EngF.ok, Bool.and_eq_true,
    decide_eq_true_eq] at h'
  have hc : c.ok = true := by first | exact h' | exact h'.1 | exact h'.1.1 | exact h'.1.1.1 | exact h'.1.1.1.1 | exact h'.1.1.1.1.1 | exact h'.1.1.1.1.1.1 | exact h'.1.1.1.1.1.1.1 | exact h'.1.1.1.1.1.1.1.1
  refine ⟨c, 0x94, encE e, rfl, hc, by decide, fmtE_lt (by omega) (by omega) (by omega) (by omega) (by omega) (by omega),
    rfl, ?_⟩
  rw [Row.stdrop c _]
  simp (disch := first | rfl | omega) only [bit_eq_fld, encE, fmtE_grp, fmtE_ctr, fmtE_acq, fmtE_rel, fmtE_sc, fmtE_28_6, fmtE_20_16, fmtE_buf, fmtE_rd,
    fmtE_fn]
  simp [accept, h, fld]
theorem chsend (c : Ctl) (e : EngF) : Statement (.chsend c e) := by
  intro h _
  have h' := h
  simp only [Instr.wellFormed, opndOk, gOk, pairOk, vOk, pOk, VF.ok, VF2.ok, VMemF.ok, MemF.ok, AtomF.ok, EngF.ok, Bool.and_eq_true,
    decide_eq_true_eq] at h'
  have hc : c.ok = true := by first | exact h' | exact h'.1 | exact h'.1.1 | exact h'.1.1.1 | exact h'.1.1.1.1 | exact h'.1.1.1.1.1 | exact h'.1.1.1.1.1.1 | exact h'.1.1.1.1.1.1.1 | exact h'.1.1.1.1.1.1.1.1
  refine ⟨c, 0x95, encE e, rfl, hc, by decide, fmtE_lt (by omega) (by omega) (by omega) (by omega) (by omega) (by omega),
    rfl, ?_⟩
  rw [Row.chsend c _]
  simp (disch := first | rfl | omega) only [bit_eq_fld, encE, fmtE_grp, fmtE_ctr, fmtE_acq, fmtE_rel, fmtE_sc, fmtE_28_6, fmtE_20_16, fmtE_buf, fmtE_rd,
    fmtE_fn]
  simp [accept, h, fld]
theorem chrecv (c : Ctl) (e : EngF) : Statement (.chrecv c e) := by
  intro h _
  have h' := h
  simp only [Instr.wellFormed, opndOk, gOk, pairOk, vOk, pOk, VF.ok, VF2.ok, VMemF.ok, MemF.ok, AtomF.ok, EngF.ok, Bool.and_eq_true,
    decide_eq_true_eq] at h'
  have hc : c.ok = true := by first | exact h' | exact h'.1 | exact h'.1.1 | exact h'.1.1.1 | exact h'.1.1.1.1 | exact h'.1.1.1.1.1 | exact h'.1.1.1.1.1.1 | exact h'.1.1.1.1.1.1.1 | exact h'.1.1.1.1.1.1.1.1
  refine ⟨c, 0x96, encE e, rfl, hc, by decide, fmtE_lt (by omega) (by omega) (by omega) (by omega) (by omega) (by omega),
    rfl, ?_⟩
  rw [Row.chrecv c _]
  simp (disch := first | rfl | omega) only [bit_eq_fld, encE, fmtE_grp, fmtE_ctr, fmtE_acq, fmtE_rel, fmtE_sc, fmtE_28_6, fmtE_20_16, fmtE_buf, fmtE_rd,
    fmtE_fn]
  simp [accept, h, fld]
theorem chrel (c : Ctl) (e : EngF) : Statement (.chrel c e) := by
  intro h _
  have h' := h
  simp only [Instr.wellFormed, opndOk, gOk, pairOk, vOk, pOk, VF.ok, VF2.ok, VMemF.ok, MemF.ok, AtomF.ok, EngF.ok, Bool.and_eq_true,
    decide_eq_true_eq] at h'
  have hc : c.ok = true := by first | exact h' | exact h'.1 | exact h'.1.1 | exact h'.1.1.1 | exact h'.1.1.1.1 | exact h'.1.1.1.1.1 | exact h'.1.1.1.1.1.1 | exact h'.1.1.1.1.1.1.1 | exact h'.1.1.1.1.1.1.1.1
  refine ⟨c, 0x97, encE e, rfl, hc, by decide, fmtE_lt (by omega) (by omega) (by omega) (by omega) (by omega) (by omega),
    rfl, ?_⟩
  rw [Row.chrel c _]
  simp (disch := first | rfl | omega) only [bit_eq_fld, encE, fmtE_grp, fmtE_ctr, fmtE_acq, fmtE_rel, fmtE_sc, fmtE_28_6, fmtE_20_16, fmtE_buf, fmtE_rd,
    fmtE_fn]
  simp [accept, h, fld]
theorem coll (c : Ctl) (e : EngF) : Statement (.coll c e) := by
  intro h _
  have h' := h
  simp only [Instr.wellFormed, opndOk, gOk, pairOk, vOk, pOk, VF.ok, VF2.ok, VMemF.ok, MemF.ok, AtomF.ok, EngF.ok, Bool.and_eq_true,
    decide_eq_true_eq] at h'
  have hc : c.ok = true := by first | exact h' | exact h'.1 | exact h'.1.1 | exact h'.1.1.1 | exact h'.1.1.1.1 | exact h'.1.1.1.1.1 | exact h'.1.1.1.1.1.1 | exact h'.1.1.1.1.1.1.1 | exact h'.1.1.1.1.1.1.1.1
  refine ⟨c, 0x98, encE e, rfl, hc, by decide, fmtE_lt (by omega) (by omega) (by omega) (by omega) (by omega) (by omega),
    rfl, ?_⟩
  rw [Row.coll c _]
  simp (disch := first | rfl | omega) only [bit_eq_fld, encE, fmtE_grp, fmtE_ctr, fmtE_acq, fmtE_rel, fmtE_sc, fmtE_28_6, fmtE_20_16, fmtE_buf, fmtE_rd,
    fmtE_fn]
  simp [accept, h, fld]
theorem prst (c : Ctl) (e : EngF) : Statement (.prst c e) := by
  intro h _
  have h' := h
  simp only [Instr.wellFormed, opndOk, gOk, pairOk, vOk, pOk, VF.ok, VF2.ok, VMemF.ok, MemF.ok, AtomF.ok, EngF.ok, Bool.and_eq_true,
    decide_eq_true_eq] at h'
  have hc : c.ok = true := by first | exact h' | exact h'.1 | exact h'.1.1 | exact h'.1.1.1 | exact h'.1.1.1.1 | exact h'.1.1.1.1.1 | exact h'.1.1.1.1.1.1 | exact h'.1.1.1.1.1.1.1 | exact h'.1.1.1.1.1.1.1.1
  refine ⟨c, 0x99, encE e, rfl, hc, by decide, fmtE_lt (by omega) (by omega) (by omega) (by omega) (by omega) (by omega),
    rfl, ?_⟩
  rw [Row.prst c _]
  simp (disch := first | rfl | omega) only [bit_eq_fld, encE, fmtE_grp, fmtE_ctr, fmtE_acq, fmtE_rel, fmtE_sc, fmtE_28_6, fmtE_20_16, fmtE_buf, fmtE_rd,
    fmtE_fn]
  simp [accept, h, fld]
theorem tqpop (c : Ctl) (rd : Nat) (timeout : Option Nat) : Statement (.tqpop c rd timeout) := by
  intro h _
  have h' := h
  simp only [Instr.wellFormed, opndOk, gOk, pairOk, vOk, pOk, VF.ok, VF2.ok, VMemF.ok, MemF.ok, AtomF.ok, EngF.ok, Bool.and_eq_true,
    decide_eq_true_eq] at h'
  obtain ⟨⟨hc, hd⟩, ht⟩ := h'
  cases timeout with
  | none =>
    refine ⟨c, 0xA0, fmtR rd 0 0 0 0, rfl, hc, by decide, fmtR_lt hd (by decide) (by decide) (by decide) (by decide), rfl, ?_⟩
    rw [Row.tqpopNone c _ (by rw [bit_eq_fld, fmtR_fn (by decide)]; rfl), fmtR_rd hd (by decide) (by decide) (by decide) (by decide),
      fmtR_ra (by decide) (by decide) (by decide) (by decide), fmtR_rb (by decide) (by decide) (by decide),
      fmtR_rc (by decide) (by decide), fmtR_fn (by decide)]
    simp [accept, h, fld]
  | some ra =>
    simp only [decide_eq_true_eq] at ht
    refine ⟨c, 0xA0, fmtR rd ra 0 0 1, rfl, hc, by decide, fmtR_lt hd ht (by decide) (by decide) (by decide), rfl, ?_⟩
    rw [Row.tqpopSome c _ (by rw [bit_eq_fld, fmtR_fn (by decide)]; rfl), fmtR_rd hd ht (by decide) (by decide) (by decide),
      fmtR_ra ht (by decide) (by decide) (by decide), fmtR_rb (by decide) (by decide) (by decide),
      fmtR_rc (by decide) (by decide), fmtR_fn (by decide)]
    simp [accept, h, fld]
theorem tqpush (c : Ctl) (rd ra : Nat) : Statement (.tqpush c rd ra) := by
  intro h _
  have h' := h
  simp only [Instr.wellFormed, opndOk, gOk, pairOk, vOk, pOk, VF.ok, VF2.ok, VMemF.ok, MemF.ok, AtomF.ok, EngF.ok, Bool.and_eq_true,
    decide_eq_true_eq] at h'
  have hc : c.ok = true := by first | exact h' | exact h'.1 | exact h'.1.1 | exact h'.1.1.1 | exact h'.1.1.1.1 | exact h'.1.1.1.1.1 | exact h'.1.1.1.1.1.1 | exact h'.1.1.1.1.1.1.1 | exact h'.1.1.1.1.1.1.1.1
  refine ⟨c, 0xA1, fmtR rd ra 0 0 0, rfl, hc, by decide, fmtR_lt (by omega) (by omega) (by omega) (by omega) (by omega),
    rfl, ?_⟩
  rw [Row.tqpush c _]
  simp (disch := first | rfl | omega) only [bit_eq_fld, fmtR_rd, fmtR_ra, fmtR_rb, fmtR_rc, fmtR_fn]
  simp [accept, h, fld]
theorem tarm (c : Ctl) (rd ra rb : Nat) : Statement (.tarm c rd ra rb) := by
  intro h _
  have h' := h
  simp only [Instr.wellFormed, opndOk, gOk, pairOk, vOk, pOk, VF.ok, VF2.ok, VMemF.ok, MemF.ok, AtomF.ok, EngF.ok, Bool.and_eq_true,
    decide_eq_true_eq] at h'
  have hc : c.ok = true := by first | exact h' | exact h'.1 | exact h'.1.1 | exact h'.1.1.1 | exact h'.1.1.1.1 | exact h'.1.1.1.1.1 | exact h'.1.1.1.1.1.1 | exact h'.1.1.1.1.1.1.1 | exact h'.1.1.1.1.1.1.1.1
  refine ⟨c, 0xA2, fmtR rd ra rb 0 0, rfl, hc, by decide, fmtR_lt (by omega) (by omega) (by omega) (by omega) (by omega),
    rfl, ?_⟩
  rw [Row.tarm c _]
  simp (disch := first | rfl | omega) only [bit_eq_fld, fmtR_rd, fmtR_ra, fmtR_rb, fmtR_rc, fmtR_fn]
  simp [accept, h, fld]
theorem tdone (c : Ctl) (ra : Nat) : Statement (.tdone c ra) := by
  intro h _
  have h' := h
  simp only [Instr.wellFormed, opndOk, gOk, pairOk, vOk, pOk, VF.ok, VF2.ok, VMemF.ok, MemF.ok, AtomF.ok, EngF.ok, Bool.and_eq_true,
    decide_eq_true_eq] at h'
  have hc : c.ok = true := by first | exact h' | exact h'.1 | exact h'.1.1 | exact h'.1.1.1 | exact h'.1.1.1.1 | exact h'.1.1.1.1.1 | exact h'.1.1.1.1.1.1 | exact h'.1.1.1.1.1.1.1 | exact h'.1.1.1.1.1.1.1.1
  refine ⟨c, 0xA3, fmtR 0 ra 0 0 0, rfl, hc, by decide, fmtR_lt (by omega) (by omega) (by omega) (by omega) (by omega),
    rfl, ?_⟩
  rw [Row.tdone c _]
  simp (disch := first | rfl | omega) only [bit_eq_fld, fmtR_rd, fmtR_ra, fmtR_rb, fmtR_rc, fmtR_fn]
  simp [accept, h, fld]
theorem ttrig (c : Ctl) : Statement (.ttrig c) := by
  intro h _
  have h' := h
  simp only [Instr.wellFormed, opndOk, gOk, pairOk, vOk, pOk, VF.ok, VF2.ok, VMemF.ok, MemF.ok, AtomF.ok, EngF.ok, Bool.and_eq_true,
    decide_eq_true_eq] at h'
  have hc : c.ok = true := by first | exact h' | exact h'.1 | exact h'.1.1 | exact h'.1.1.1 | exact h'.1.1.1.1 | exact h'.1.1.1.1.1 | exact h'.1.1.1.1.1.1 | exact h'.1.1.1.1.1.1.1 | exact h'.1.1.1.1.1.1.1.1
  refine ⟨c, 0xA4, 0, rfl, hc, by decide, by decide,
    rfl, ?_⟩
  rw [Row.ttrig c _]
  simp [accept, h]
theorem mbpost (c : Ctl) (grp rd : Nat) : Statement (.mbpost c grp rd) := by
  intro h _
  have h' := h
  simp only [Instr.wellFormed, opndOk, gOk, pairOk, vOk, pOk, VF.ok, VF2.ok, VMemF.ok, MemF.ok, AtomF.ok, EngF.ok, Bool.and_eq_true,
    decide_eq_true_eq] at h'
  have hc : c.ok = true := by first | exact h' | exact h'.1 | exact h'.1.1 | exact h'.1.1.1 | exact h'.1.1.1.1 | exact h'.1.1.1.1.1 | exact h'.1.1.1.1.1.1 | exact h'.1.1.1.1.1.1.1 | exact h'.1.1.1.1.1.1.1.1
  refine ⟨c, 0xA5, fmtE grp 0 false false 0 0 rd 0, rfl, hc, by decide, fmtE_lt (by omega) (by omega) (by omega) (by omega) (by omega) (by omega),
    rfl, ?_⟩
  rw [Row.mbpost c _]
  simp (disch := first | rfl | omega) only [bit_eq_fld, encE, fmtE_grp, fmtE_ctr, fmtE_acq, fmtE_rel, fmtE_sc, fmtE_28_6, fmtE_20_16, fmtE_buf, fmtE_rd,
    fmtE_fn]
  simp [accept, h, fld]
theorem pennLoad (c : Ctl) (rd ra rb : Nat) : Statement (.pennLoad c rd ra rb) := by
  intro h _
  have h' := h
  simp only [Instr.wellFormed, opndOk, gOk, pairOk, vOk, pOk, VF.ok, VF2.ok, VMemF.ok, MemF.ok, AtomF.ok, EngF.ok, Bool.and_eq_true,
    decide_eq_true_eq] at h'
  have hc : c.ok = true := by first | exact h' | exact h'.1 | exact h'.1.1 | exact h'.1.1.1 | exact h'.1.1.1.1 | exact h'.1.1.1.1.1 | exact h'.1.1.1.1.1.1 | exact h'.1.1.1.1.1.1.1 | exact h'.1.1.1.1.1.1.1.1
  refine ⟨c, 0xA6, fmtR rd ra rb 0 0, rfl, hc, by decide, fmtR_lt (by omega) (by omega) (by omega) (by omega) (by omega),
    rfl, ?_⟩
  rw [Row.pennLoad c _ (by rw [fmtR_fn (by decide)]; rfl)]
  simp (disch := first | rfl | omega) only [bit_eq_fld, fmtR_rd, fmtR_ra, fmtR_rb, fmtR_rc, fmtR_fn]
  simp [accept, h, fld]
theorem pennStart (c : Ctl) (rd ra : Nat) : Statement (.pennStart c rd ra) := by
  intro h _
  have h' := h
  simp only [Instr.wellFormed, opndOk, gOk, pairOk, vOk, pOk, VF.ok, VF2.ok, VMemF.ok, MemF.ok, AtomF.ok, EngF.ok, Bool.and_eq_true,
    decide_eq_true_eq] at h'
  have hc : c.ok = true := by first | exact h' | exact h'.1 | exact h'.1.1 | exact h'.1.1.1 | exact h'.1.1.1.1 | exact h'.1.1.1.1.1 | exact h'.1.1.1.1.1.1 | exact h'.1.1.1.1.1.1.1 | exact h'.1.1.1.1.1.1.1.1
  refine ⟨c, 0xA6, fmtR rd ra 0 0 1, rfl, hc, by decide, fmtR_lt (by omega) (by omega) (by omega) (by omega) (by omega),
    rfl, ?_⟩
  rw [Row.pennStart c _ (by rw [fmtR_fn (by decide)]; rfl)]
  simp (disch := first | rfl | omega) only [bit_eq_fld, fmtR_rd, fmtR_ra, fmtR_rb, fmtR_rc, fmtR_fn]
  simp [accept, h, fld]
theorem pennStop (c : Ctl) (rd ra : Nat) : Statement (.pennStop c rd ra) := by
  intro h _
  have h' := h
  simp only [Instr.wellFormed, opndOk, gOk, pairOk, vOk, pOk, VF.ok, VF2.ok, VMemF.ok, MemF.ok, AtomF.ok, EngF.ok, Bool.and_eq_true,
    decide_eq_true_eq] at h'
  have hc : c.ok = true := by first | exact h' | exact h'.1 | exact h'.1.1 | exact h'.1.1.1 | exact h'.1.1.1.1 | exact h'.1.1.1.1.1 | exact h'.1.1.1.1.1.1 | exact h'.1.1.1.1.1.1.1 | exact h'.1.1.1.1.1.1.1.1
  refine ⟨c, 0xA6, fmtR rd ra 0 0 2, rfl, hc, by decide, fmtR_lt (by omega) (by omega) (by omega) (by omega) (by omega),
    rfl, ?_⟩
  rw [Row.pennStop c _ (by rw [fmtR_fn (by decide)]; rfl)]
  simp (disch := first | rfl | omega) only [bit_eq_fld, fmtR_rd, fmtR_ra, fmtR_rb, fmtR_rc, fmtR_fn]
  simp [accept, h, fld]
theorem pennUnload (c : Ctl) (rd ra : Nat) : Statement (.pennUnload c rd ra) := by
  intro h _
  have h' := h
  simp only [Instr.wellFormed, opndOk, gOk, pairOk, vOk, pOk, VF.ok, VF2.ok, VMemF.ok, MemF.ok, AtomF.ok, EngF.ok, Bool.and_eq_true,
    decide_eq_true_eq] at h'
  have hc : c.ok = true := by first | exact h' | exact h'.1 | exact h'.1.1 | exact h'.1.1.1 | exact h'.1.1.1.1 | exact h'.1.1.1.1.1 | exact h'.1.1.1.1.1.1 | exact h'.1.1.1.1.1.1.1 | exact h'.1.1.1.1.1.1.1.1
  refine ⟨c, 0xA6, fmtR rd ra 0 0 3, rfl, hc, by decide, fmtR_lt (by omega) (by omega) (by omega) (by omega) (by omega),
    rfl, ?_⟩
  rw [Row.pennUnload c _ (by rw [fmtR_fn (by decide)]; rfl)]
  simp (disch := first | rfl | omega) only [bit_eq_fld, fmtR_rd, fmtR_ra, fmtR_rb, fmtR_rc, fmtR_fn]
  simp [accept, h, fld]
theorem pennStat (c : Ctl) (rd ra : Nat) : Statement (.pennStat c rd ra) := by
  intro h _
  have h' := h
  simp only [Instr.wellFormed, opndOk, gOk, pairOk, vOk, pOk, VF.ok, VF2.ok, VMemF.ok, MemF.ok, AtomF.ok, EngF.ok, Bool.and_eq_true,
    decide_eq_true_eq] at h'
  have hc : c.ok = true := by first | exact h' | exact h'.1 | exact h'.1.1 | exact h'.1.1.1 | exact h'.1.1.1.1 | exact h'.1.1.1.1.1 | exact h'.1.1.1.1.1.1 | exact h'.1.1.1.1.1.1.1 | exact h'.1.1.1.1.1.1.1.1
  refine ⟨c, 0xA6, fmtR rd ra 0 0 4, rfl, hc, by decide, fmtR_lt (by omega) (by omega) (by omega) (by omega) (by omega),
    rfl, ?_⟩
  rw [Row.pennStat c _ (by rw [fmtR_fn (by decide)]; rfl)]
  simp (disch := first | rfl | omega) only [bit_eq_fld, fmtR_rd, fmtR_ra, fmtR_rb, fmtR_rc, fmtR_fn]
  simp [accept, h, fld]
theorem relaunch (c : Ctl) (rd ra : Nat) : Statement (.relaunch c rd ra) := by
  intro h _
  have h' := h
  simp only [Instr.wellFormed, opndOk, gOk, pairOk, vOk, pOk, VF.ok, VF2.ok, VMemF.ok, MemF.ok, AtomF.ok, EngF.ok, Bool.and_eq_true,
    decide_eq_true_eq] at h'
  have hc : c.ok = true := by first | exact h' | exact h'.1 | exact h'.1.1 | exact h'.1.1.1 | exact h'.1.1.1.1 | exact h'.1.1.1.1.1 | exact h'.1.1.1.1.1.1 | exact h'.1.1.1.1.1.1.1 | exact h'.1.1.1.1.1.1.1.1
  refine ⟨c, 0xA7, fmtR rd ra 0 0 0, rfl, hc, by decide, fmtR_lt (by omega) (by omega) (by omega) (by omega) (by omega),
    rfl, ?_⟩
  rw [Row.relaunch c _]
  simp (disch := first | rfl | omega) only [bit_eq_fld, fmtR_rd, fmtR_ra, fmtR_rb, fmtR_rc, fmtR_fn]
  simp [accept, h, fld]
theorem traceAdd (c : Ctl) (ra rb rc : Nat) : Statement (.traceAdd c ra rb rc) := by
  intro h _
  have h' := h
  simp only [Instr.wellFormed, opndOk, gOk, pairOk, vOk, pOk, VF.ok, VF2.ok, VMemF.ok, MemF.ok, AtomF.ok, EngF.ok, Bool.and_eq_true,
    decide_eq_true_eq] at h'
  have hc : c.ok = true := by first | exact h' | exact h'.1 | exact h'.1.1 | exact h'.1.1.1 | exact h'.1.1.1.1 | exact h'.1.1.1.1.1 | exact h'.1.1.1.1.1.1 | exact h'.1.1.1.1.1.1.1 | exact h'.1.1.1.1.1.1.1.1
  refine ⟨c, 0xA8, fmtR 0 ra rb rc 0, rfl, hc, by decide, fmtR_lt (by omega) (by omega) (by omega) (by omega) (by omega),
    rfl, ?_⟩
  rw [Row.traceAdd c _ (by rw [fmtR_fn (by decide)]; rfl)]
  simp (disch := first | rfl | omega) only [bit_eq_fld, fmtR_rd, fmtR_ra, fmtR_rb, fmtR_rc, fmtR_fn]
  simp [accept, h, fld]
theorem tracePath (c : Ctl) (ra : Nat) : Statement (.tracePath c ra) := by
  intro h _
  have h' := h
  simp only [Instr.wellFormed, opndOk, gOk, pairOk, vOk, pOk, VF.ok, VF2.ok, VMemF.ok, MemF.ok, AtomF.ok, EngF.ok, Bool.and_eq_true,
    decide_eq_true_eq] at h'
  have hc : c.ok = true := by first | exact h' | exact h'.1 | exact h'.1.1 | exact h'.1.1.1 | exact h'.1.1.1.1 | exact h'.1.1.1.1.1 | exact h'.1.1.1.1.1.1 | exact h'.1.1.1.1.1.1.1 | exact h'.1.1.1.1.1.1.1.1
  refine ⟨c, 0xA8, fmtR 0 ra 0 0 1, rfl, hc, by decide, fmtR_lt (by omega) (by omega) (by omega) (by omega) (by omega),
    rfl, ?_⟩
  rw [Row.tracePath c _ (by rw [fmtR_fn (by decide)]; rfl)]
  simp (disch := first | rfl | omega) only [bit_eq_fld, fmtR_rd, fmtR_ra, fmtR_rb, fmtR_rc, fmtR_fn]
  simp [accept, h, fld]
theorem vernew (c : Ctl) (rd ra : Nat) : Statement (.vernew c rd ra) := by
  intro h _
  have h' := h
  simp only [Instr.wellFormed, opndOk, gOk, pairOk, vOk, pOk, VF.ok, VF2.ok, VMemF.ok, MemF.ok, AtomF.ok, EngF.ok, Bool.and_eq_true,
    decide_eq_true_eq] at h'
  have hc : c.ok = true := by first | exact h' | exact h'.1 | exact h'.1.1 | exact h'.1.1.1 | exact h'.1.1.1.1 | exact h'.1.1.1.1.1 | exact h'.1.1.1.1.1.1 | exact h'.1.1.1.1.1.1.1 | exact h'.1.1.1.1.1.1.1.1
  refine ⟨c, 0xA9, fmtR rd ra 0 0 0, rfl, hc, by decide, fmtR_lt (by omega) (by omega) (by omega) (by omega) (by omega),
    rfl, ?_⟩
  rw [Row.vernew c _]
  simp (disch := first | rfl | omega) only [bit_eq_fld, fmtR_rd, fmtR_ra, fmtR_rb, fmtR_rc, fmtR_fn]
  simp [accept, h, fld]
theorem verpin (c : Ctl) (rd ra rb rc slot : Nat) : Statement (.verpin c rd ra rb rc slot) := by
  intro h _
  have h' := h
  simp only [Instr.wellFormed, opndOk, gOk, pairOk, vOk, pOk, VF.ok, VF2.ok, VMemF.ok, MemF.ok, AtomF.ok, EngF.ok, Bool.and_eq_true,
    decide_eq_true_eq] at h'
  have hc : c.ok = true := by first | exact h' | exact h'.1 | exact h'.1.1 | exact h'.1.1.1 | exact h'.1.1.1.1 | exact h'.1.1.1.1.1 | exact h'.1.1.1.1.1.1 | exact h'.1.1.1.1.1.1.1 | exact h'.1.1.1.1.1.1.1.1
  refine ⟨c, 0xAA, fmtR rd ra rb rc slot, rfl, hc, by decide, fmtR_lt (by omega) (by omega) (by omega) (by omega) (by omega),
    rfl, ?_⟩
  rw [Row.verpin c _]
  simp (disch := first | rfl | omega) only [bit_eq_fld, fmtR_rd, fmtR_ra, fmtR_rb, fmtR_rc, fmtR_fn]
  have e1 : fld slot 3 13 = 0 := by simp only [fld]; omega
  have e2 : fld slot 0 3 = slot := by simp only [fld]; omega
  simp [accept, h, e1, e2]
theorem verdrop (c : Ctl) (rd ra rb : Nat) : Statement (.verdrop c rd ra rb) := by
  intro h _
  have h' := h
  simp only [Instr.wellFormed, opndOk, gOk, pairOk, vOk, pOk, VF.ok, VF2.ok, VMemF.ok, MemF.ok, AtomF.ok, EngF.ok, Bool.and_eq_true,
    decide_eq_true_eq] at h'
  have hc : c.ok = true := by first | exact h' | exact h'.1 | exact h'.1.1 | exact h'.1.1.1 | exact h'.1.1.1.1 | exact h'.1.1.1.1.1 | exact h'.1.1.1.1.1.1 | exact h'.1.1.1.1.1.1.1 | exact h'.1.1.1.1.1.1.1.1
  refine ⟨c, 0xAB, fmtR rd ra rb 0 0, rfl, hc, by decide, fmtR_lt (by omega) (by omega) (by omega) (by omega) (by omega),
    rfl, ?_⟩
  rw [Row.verdrop c _]
  simp (disch := first | rfl | omega) only [bit_eq_fld, fmtR_rd, fmtR_ra, fmtR_rb, fmtR_rc, fmtR_fn]
  simp [accept, h, fld]
theorem phase (c : Ctl) (scope : Nat) (acq rel : Bool) : Statement (.phase c scope acq rel) := by
  intro h _
  have h' := h
  simp only [Instr.wellFormed, opndOk, gOk, pairOk, vOk, pOk, VF.ok, VF2.ok, VMemF.ok, MemF.ok, AtomF.ok, EngF.ok, Bool.and_eq_true,
    decide_eq_true_eq] at h'
  have g1 := b2n_lt acq; have g2 := b2n_lt rel
  have hc : c.ok = true := by first | exact h' | exact h'.1 | exact h'.1.1 | exact h'.1.1.1 | exact h'.1.1.1.1 | exact h'.1.1.1.1.1 | exact h'.1.1.1.1.1.1 | exact h'.1.1.1.1.1.1.1 | exact h'.1.1.1.1.1.1.1.1
  refine ⟨c, 0xB0, scope + 16 * b2n acq + 32 * b2n rel, rfl, hc, by decide, (by omega),
    rfl, ?_⟩
  rw [Row.phase c _]
  simp (disch := first | rfl | omega) only [bit_eq_fld]
  have e1 : fld (scope + 16 * b2n acq + 32 * b2n rel) 16 24 = 0 := by simp only [fld]; omega
  have e2 : fld (scope + 16 * b2n acq + 32 * b2n rel) 6 10 = 0 := by simp only [fld]; omega
  have e3 : fld (scope + 16 * b2n acq + 32 * b2n rel) 0 4 = scope := by simp only [fld]; omega
  have e4 : fld (scope + 16 * b2n acq + 32 * b2n rel) 4 1 = b2n acq := by simp only [fld]; omega
  have e5 : fld (scope + 16 * b2n acq + 32 * b2n rel) 5 1 = b2n rel := by simp only [fld]; omega
  simp [accept, h, e1, e2, e3, e4, e5]
theorem fence (c : Ctl) (ld st eng : Bool) : Statement (.fence c ld st eng) := by
  intro h _
  have h' := h
  simp only [Instr.wellFormed, opndOk, gOk, pairOk, vOk, pOk, VF.ok, VF2.ok, VMemF.ok, MemF.ok, AtomF.ok, EngF.ok, Bool.and_eq_true,
    decide_eq_true_eq] at h'
  have g1 := b2n_lt ld; have g2 := b2n_lt st; have g3 := b2n_lt eng
  have hc : c.ok = true := by first | exact h' | exact h'.1 | exact h'.1.1 | exact h'.1.1.1 | exact h'.1.1.1.1 | exact h'.1.1.1.1.1 | exact h'.1.1.1.1.1.1 | exact h'.1.1.1.1.1.1.1 | exact h'.1.1.1.1.1.1.1.1
  refine ⟨c, 0xB1, b2n ld + 2 * b2n st + 4 * b2n eng, rfl, hc, by decide, (by omega),
    rfl, ?_⟩
  rw [Row.fence c _]
  simp (disch := first | rfl | omega) only [bit_eq_fld]
  cases ld <;> cases st <;> cases eng <;> simp [accept, h, fld]
theorem bar (c : Ctl) (scope : Nat) (acq rel : Bool) (rd ra : Nat) (timeout : Option Nat) :
    Statement (.bar c scope acq rel rd ra timeout) := by
  intro h _
  have h' := h
  simp only [Instr.wellFormed, opndOk, gOk, pairOk, vOk, pOk, VF.ok, VF2.ok, VMemF.ok, MemF.ok, AtomF.ok, EngF.ok, Bool.and_eq_true,
    decide_eq_true_eq] at h'
  obtain ⟨⟨⟨⟨⟨hc, hs⟩, -⟩, hd⟩, ha⟩, ht⟩ := h'
  have g1 := b2n_lt acq
  have g2 := b2n_lt rel
  have key : ∀ z : Nat, z < 2 → fld (scope + 16 * b2n acq + 32 * b2n rel + 64 * z) 7 9 = 0 ∧
      fld (scope + 16 * b2n acq + 32 * b2n rel + 64 * z) 6 1 = z ∧
      fld (scope + 16 * b2n acq + 32 * b2n rel + 64 * z) 5 1 = b2n rel ∧
      fld (scope + 16 * b2n acq + 32 * b2n rel + 64 * z) 4 1 = b2n acq ∧
      fld (scope + 16 * b2n acq + 32 * b2n rel + 64 * z) 0 4 = scope := by
    intro z hz
    refine ⟨?_, ?_, ?_, ?_, ?_⟩ <;> (simp only [fld]; omega)
  cases timeout with
  | none =>
    obtain ⟨e1, e2, e3, e4, e5⟩ := key 0 (by decide)
    simp only [Nat.mul_zero, Nat.add_zero] at e1 e2 e3 e4 e5
    refine ⟨c, 0xB2, fmtR rd ra 0 0 (scope + 16 * b2n acq + 32 * b2n rel), rfl, hc, by decide,
      fmtR_lt hd ha (by decide) (by decide) (by omega), rfl, ?_⟩
    rw [Row.barNone c _ (by rw [bit_eq_fld, fmtR_fn (by decide), e2]; rfl)]
    simp only [bit_eq_fld, fmtR_fn (d := rd) (a := ra) (b := 0) (r := 0) (fn := scope + 16 * b2n acq + 32 * b2n rel) (by decide : 6 + 1 ≤ 16),
      fmtR_fn (d := rd) (a := ra) (b := 0) (r := 0) (fn := scope + 16 * b2n acq + 32 * b2n rel) (by decide : 7 + 9 ≤ 16),
      fmtR_fn (d := rd) (a := ra) (b := 0) (r := 0) (fn := scope + 16 * b2n acq + 32 * b2n rel) (by decide : 5 + 1 ≤ 16),
      fmtR_fn (d := rd) (a := ra) (b := 0) (r := 0) (fn := scope + 16 * b2n acq + 32 * b2n rel) (by decide : 4 + 1 ≤ 16),
      fmtR_fn (d := rd) (a := ra) (b := 0) (r := 0) (fn := scope + 16 * b2n acq + 32 * b2n rel) (by decide : 0 + 4 ≤ 16),
      fmtR_rd (d := rd) (a := ra) (b := 0) (r := 0) (fn := scope + 16 * b2n acq + 32 * b2n rel) hd ha (by decide) (by decide) (by omega),
      fmtR_ra (d := rd) (a := ra) (b := 0) (r := 0) (fn := scope + 16 * b2n acq + 32 * b2n rel) ha (by decide) (by decide) (by omega),
      fmtR_rb (d := rd) (a := ra) (b := 0) (r := 0) (fn := scope + 16 * b2n acq + 32 * b2n rel) (by decide) (by decide) (by omega),
      fmtR_rc (d := rd) (a := ra) (b := 0) (r := 0) (fn := scope + 16 * b2n acq + 32 * b2n rel) (by decide) (by omega), e1, e2, e3, e4, e5]
    simp [accept, h]
  | some rb =>
    simp only [decide_eq_true_eq] at ht
    obtain ⟨e1, e2, e3, e4, e5⟩ := key 1 (by decide)
    simp only [Nat.mul_one] at e1 e2 e3 e4 e5
    refine ⟨c, 0xB2, fmtR rd ra rb 0 (scope + 16 * b2n acq + 32 * b2n rel + 64), rfl, hc, by decide,
      fmtR_lt hd ha ht (by decide) (by omega), rfl, ?_⟩
    rw [Row.barSome c _ (by rw [bit_eq_fld, fmtR_fn (by decide), e2]; rfl)]
    simp only [bit_eq_fld, fmtR_fn (d := rd) (a := ra) (b := rb) (r := 0) (fn := scope + 16 * b2n acq + 32 * b2n rel + 64) (by decide : 6 + 1 ≤ 16),
      fmtR_fn (d := rd) (a := ra) (b := rb) (r := 0) (fn := scope + 16 * b2n acq + 32 * b2n rel + 64) (by decide : 7 + 9 ≤ 16),
      fmtR_fn (d := rd) (a := ra) (b := rb) (r := 0) (fn := scope + 16 * b2n acq + 32 * b2n rel + 64) (by decide : 5 + 1 ≤ 16),
      fmtR_fn (d := rd) (a := ra) (b := rb) (r := 0) (fn := scope + 16 * b2n acq + 32 * b2n rel + 64) (by decide : 4 + 1 ≤ 16),
      fmtR_fn (d := rd) (a := ra) (b := rb) (r := 0) (fn := scope + 16 * b2n acq + 32 * b2n rel + 64) (by decide : 0 + 4 ≤ 16),
      fmtR_rd (d := rd) (a := ra) (b := rb) (r := 0) (fn := scope + 16 * b2n acq + 32 * b2n rel + 64) hd ha ht (by decide) (by omega),
      fmtR_ra (d := rd) (a := ra) (b := rb) (r := 0) (fn := scope + 16 * b2n acq + 32 * b2n rel + 64) ha ht (by decide) (by omega),
      fmtR_rb (d := rd) (a := ra) (b := rb) (r := 0) (fn := scope + 16 * b2n acq + 32 * b2n rel + 64) ht (by decide) (by omega),
      fmtR_rc (d := rd) (a := ra) (b := rb) (r := 0) (fn := scope + 16 * b2n acq + 32 * b2n rel + 64) (by decide) (by omega), e1, e2, e3, e4, e5]
    simp [accept, h]
theorem icinv (c : Ctl) : Statement (.icinv c) := by
  intro h _
  have h' := h
  simp only [Instr.wellFormed, opndOk, gOk, pairOk, vOk, pOk, VF.ok, VF2.ok, VMemF.ok, MemF.ok, AtomF.ok, EngF.ok, Bool.and_eq_true,
    decide_eq_true_eq] at h'
  have hc : c.ok = true := by first | exact h' | exact h'.1 | exact h'.1.1 | exact h'.1.1.1 | exact h'.1.1.1.1 | exact h'.1.1.1.1.1 | exact h'.1.1.1.1.1.1 | exact h'.1.1.1.1.1.1.1 | exact h'.1.1.1.1.1.1.1.1
  refine ⟨c, 0xB3, 0, rfl, hc, by decide, by decide,
    rfl, ?_⟩
  rw [Row.icinv c _]
  simp [accept, h]
theorem sysr (c : Ctl) (rd num md : Nat) : Statement (.sysr c rd num md) := by
  intro h _
  have h' := h
  simp only [Instr.wellFormed, opndOk, gOk, pairOk, vOk, pOk, VF.ok, VF2.ok, VMemF.ok, MemF.ok, AtomF.ok, EngF.ok, Bool.and_eq_true,
    decide_eq_true_eq] at h'
  obtain ⟨hrd, hmd⟩ := sysOk_bounds (num := num) (by first | exact h'.2 | exact h'.1.2)
  have hn : num < 0x300 := sysOk_num (by first | exact h'.2 | exact h'.1.2)
  have hc : c.ok = true := by first | exact h' | exact h'.1 | exact h'.1.1 | exact h'.1.1.1 | exact h'.1.1.1.1 | exact h'.1.1.1.1.1 | exact h'.1.1.1.1.1.1 | exact h'.1.1.1.1.1.1.1 | exact h'.1.1.1.1.1.1.1.1
  refine ⟨c, 0xC0, fmtI rd 0 md num, rfl, hc, by decide, fmtI_lt (by omega) (by omega) (by omega) (by omega),
    rfl, ?_⟩
  rw [Row.sysr c _]
  simp (disch := first | rfl | omega) only [fmtI_rd, fmtI_rd4, fmtI_top, fmtI_ra, fmtI_md, fmtI_imm]
  have e1 : fld num 0 12 = num := by simp only [fld]; omega
  have e2 : fld num 12 12 = 0 := by simp only [fld]; omega
  simp [accept, h, e1, e2]
theorem sysw (c : Ctl) (rs num md : Nat) : Statement (.sysw c rs num md) := by
  intro h _
  have h' := h
  simp only [Instr.wellFormed, opndOk, gOk, pairOk, vOk, pOk, VF.ok, VF2.ok, VMemF.ok, MemF.ok, AtomF.ok, EngF.ok, Bool.and_eq_true,
    decide_eq_true_eq] at h'
  obtain ⟨hrd, hmd⟩ := sysOk_bounds (num := num) (by first | exact h'.2 | exact h'.1.2)
  have hn : num < 0x300 := sysOk_num (by first | exact h'.2 | exact h'.1.2)
  have hc : c.ok = true := by first | exact h' | exact h'.1 | exact h'.1.1 | exact h'.1.1.1 | exact h'.1.1.1.1 | exact h'.1.1.1.1.1 | exact h'.1.1.1.1.1.1 | exact h'.1.1.1.1.1.1.1 | exact h'.1.1.1.1.1.1.1.1
  refine ⟨c, 0xC1, fmtI rs 0 md num, rfl, hc, by decide, fmtI_lt (by omega) (by omega) (by omega) (by omega),
    rfl, ?_⟩
  rw [Row.sysw c _]
  simp (disch := first | rfl | omega) only [fmtI_rd, fmtI_rd4, fmtI_top, fmtI_ra, fmtI_md, fmtI_imm]
  have e1 : fld num 0 12 = num := by simp only [fld]; omega
  have e2 : fld num 12 12 = 0 := by simp only [fld]; omega
  have e3 : (num == 0x040) = false := by simpa using h'.2
  simp [accept, h, e1, e2, e3]
theorem xlinv (c : Ctl) (rs md : Nat) : Statement (.xlinv c rs md) := by
  intro h _
  have h' := h
  simp only [Instr.wellFormed, opndOk, gOk, pairOk, vOk, pOk, VF.ok, VF2.ok, VMemF.ok, MemF.ok, AtomF.ok, EngF.ok, Bool.and_eq_true,
    decide_eq_true_eq] at h'
  have hc : c.ok = true := by first | exact h' | exact h'.1 | exact h'.1.1 | exact h'.1.1.1 | exact h'.1.1.1.1 | exact h'.1.1.1.1.1 | exact h'.1.1.1.1.1.1 | exact h'.1.1.1.1.1.1.1 | exact h'.1.1.1.1.1.1.1.1
  refine ⟨c, 0xC1, fmtI rs 0 md 0x040, rfl, hc, by decide, fmtI_lt (by omega) (by omega) (by omega) (by omega),
    rfl, ?_⟩
  rw [Row.xlinv c _]
  simp (disch := first | rfl | omega) only [fmtI_rd, fmtI_rd4, fmtI_top, fmtI_ra, fmtI_md, fmtI_imm]
  simp [accept, h, fld]
theorem trap (c : Ctl) (code : BitVec 16) : Statement (.trap c code) := by
  intro h _
  have h' := h
  simp only [Instr.wellFormed, opndOk, gOk, pairOk, vOk, pOk, VF.ok, VF2.ok, VMemF.ok, MemF.ok, AtomF.ok, EngF.ok, Bool.and_eq_true,
    decide_eq_true_eq] at h'
  have hi := code.isLt
  have hc : c.ok = true := by first | exact h' | exact h'.1 | exact h'.1.1 | exact h'.1.1.1 | exact h'.1.1.1.1 | exact h'.1.1.1.1.1 | exact h'.1.1.1.1.1.1 | exact h'.1.1.1.1.1.1.1 | exact h'.1.1.1.1.1.1.1.1
  refine ⟨c, 0xC2, code.toNat, rfl, hc, by decide, (by omega),
    rfl, ?_⟩
  rw [Row.trap c _]
  have e1 : fld code.toNat 0 16 = code.toNat := by simp only [fld]; omega
  have e2 : fld code.toNat 16 24 = 0 := by simp only [fld]; omega
  simp [accept, h, e1, e2]
theorem eret (c : Ctl) : Statement (.eret c) := by
  intro h _
  have h' := h
  simp only [Instr.wellFormed, opndOk, gOk, pairOk, vOk, pOk, VF.ok, VF2.ok, VMemF.ok, MemF.ok, AtomF.ok, EngF.ok, Bool.and_eq_true,
    decide_eq_true_eq] at h'
  have hc : c.ok = true := by first | exact h' | exact h'.1 | exact h'.1.1 | exact h'.1.1.1 | exact h'.1.1.1.1 | exact h'.1.1.1.1.1 | exact h'.1.1.1.1.1.1 | exact h'.1.1.1.1.1.1.1 | exact h'.1.1.1.1.1.1.1.1
  refine ⟨c, 0xC3, 0, rfl, hc, by decide, by decide,
    rfl, ?_⟩
  rw [Row.eret c _]
  simp [accept, h]
theorem sleep (c : Ctl) (ra : Nat) : Statement (.sleep c ra) := by
  intro h _
  have h' := h
  simp only [Instr.wellFormed, opndOk, gOk, pairOk, vOk, pOk, VF.ok, VF2.ok, VMemF.ok, MemF.ok, AtomF.ok, EngF.ok, Bool.and_eq_true,
    decide_eq_true_eq] at h'
  have hc : c.ok = true := by first | exact h' | exact h'.1 | exact h'.1.1 | exact h'.1.1.1 | exact h'.1.1.1.1 | exact h'.1.1.1.1.1 | exact h'.1.1.1.1.1.1 | exact h'.1.1.1.1.1.1.1 | exact h'.1.1.1.1.1.1.1.1
  refine ⟨c, 0xC4, fmtR 0 ra 0 0 0, rfl, hc, by decide, fmtR_lt (by omega) (by omega) (by omega) (by omega) (by omega),
    rfl, ?_⟩
  rw [Row.sleep c _]
  simp (disch := first | rfl | omega) only [bit_eq_fld, fmtR_rd, fmtR_ra, fmtR_rb, fmtR_rc, fmtR_fn]
  have e1 : fld (fmtR 0 ra 0 0 0) 34 6 = 0 := by simp only [fld, fmtR]; omega
  have e2 : fld (fmtR 0 ra 0 0 0) 0 28 = 0 := by simp only [fld, fmtR]; omega
  have e3 : fld (fmtR 0 ra 0 0 0) 28 6 = ra := by simp only [fld, fmtR]; omega
  simp [accept, h, e1, e2, e3]
theorem boot (fail : Nat) (svn : BitVec 16) (ports : BitVec 8) : Statement (.boot fail svn ports) :=
  fun _ h => absurd h Bool.noConfusion
theorem sectorStart (die sector : Nat) : Statement (.sectorStart die sector) :=
  fun _ h => absurd h Bool.noConfusion
theorem registerWrite (die off : Nat) (v : DWord) : Statement (.registerWrite die off v) :=
  fun _ h => absurd h Bool.noConfusion
theorem registerWindowWrite (core off : Nat) (v : DWord) : Statement (.registerWindowWrite core off v) :=
  fun _ h => absurd h Bool.noConfusion
theorem corectlReset (core : Nat) : Statement (.corectlReset core) :=
  fun _ h => absurd h Bool.noConfusion
theorem corectlStart (core : Nat) : Statement (.corectlStart core) :=
  fun _ h => absurd h Bool.noConfusion
theorem preemptionRequestDie (die : Nat) : Statement (.preemptionRequestDie die) :=
  fun _ h => absurd h Bool.noConfusion
theorem preemptionRequestPackage : Statement (.preemptionRequestPackage) :=
  fun _ h => absurd h Bool.noConfusion
theorem framecfgWrite (die : Nat) (v : DWord) : Statement (.framecfgWrite die v) :=
  fun _ h => absurd h Bool.noConfusion
theorem l2seedWrite (die : Nat) (v : DWord) : Statement (.l2seedWrite die v) :=
  fun _ h => absurd h Bool.noConfusion
theorem calownWrite (die chan slot : Nat) (v : Byte) : Statement (.calownWrite die chan slot v) :=
  fun _ h => absurd h Bool.noConfusion
theorem groupEntryWrite (die g word : Nat) (v : DWord) : Statement (.groupEntryWrite die g word v) :=
  fun _ h => absurd h Bool.noConfusion
theorem chcfgWrite (chan word : Nat) (v : DWord) : Statement (.chcfgWrite chan word v) :=
  fun _ h => absurd h Bool.noConfusion
theorem mbtailWrite (die : Nat) (v : DWord) : Statement (.mbtailWrite die v) :=
  fun _ h => absurd h Bool.noConfusion
theorem attreq (die : Nat) (va : DWord) : Statement (.attreq die va) :=
  fun _ h => absurd h Bool.noConfusion
theorem attestationReport (die : Nat) : Statement (.attestationReport die) :=
  fun _ h => absurd h Bool.noConfusion
theorem frameAgingTick (die : Nat) : Statement (.frameAgingTick die) :=
  fun _ h => absurd h Bool.noConfusion
theorem taskInsertion (ctx h : Nat) : Statement (.taskInsertion ctx h) :=
  fun _ h => absurd h Bool.noConfusion
theorem blockStart (core : Nat) : Statement (.blockStart core) :=
  fun _ h => absurd h Bool.noConfusion
theorem trapEntry (core : Nat) : Statement (.trapEntry core) :=
  fun _ h => absurd h Bool.noConfusion
theorem watchdogTimeout (core : Nat) : Statement (.watchdogTimeout core) :=
  fun _ h => absurd h Bool.noConfusion
theorem barTimeout (core : Nat) (q : SeqId) : Statement (.barTimeout core q) :=
  fun _ h => absurd h Bool.noConfusion
theorem tqpopTimeout (core : Nat) : Statement (.tqpopTimeout core) :=
  fun _ h => absurd h Bool.noConfusion
theorem sleepWakeup (core : Nat) : Statement (.sleepWakeup core) :=
  fun _ h => absurd h Bool.noConfusion
theorem stageEvaluation (die slot : Nat) : Statement (.stageEvaluation die slot) :=
  fun _ h => absurd h Bool.noConfusion
theorem arrivalRecordAppend (chan : Nat) : Statement (.arrivalRecordAppend chan) :=
  fun _ h => absurd h Bool.noConfusion
theorem verfull (die slot : Nat) : Statement (.verfull die slot) :=
  fun _ h => absurd h Bool.noConfusion
theorem mailboxPost (die : Nat) : Statement (.mailboxPost die) :=
  fun _ h => absurd h Bool.noConfusion
theorem engineCommandCompletion (id : Nat) : Statement (.engineCommandCompletion id) :=
  fun _ h => absurd h Bool.noConfusion
theorem streamTransferRetirement (id : Nat) : Statement (.streamTransferRetirement id) :=
  fun _ h => absurd h Bool.noConfusion
theorem stashRetry (id : Nat) : Statement (.stashRetry id) :=
  fun _ h => absurd h Bool.noConfusion
theorem stashTimeout (id : Nat) : Statement (.stashTimeout id) :=
  fun _ h => absurd h Bool.noConfusion
theorem fetchTimeout (id : Nat) : Statement (.fetchTimeout id) :=
  fun _ h => absurd h Bool.noConfusion
theorem dataFlit (port seqNo chan off : Nat) (crcOk last : Bool) (hdr : MsgHdr) (payload : List (Byte × Bool)) :
    Statement (.dataFlit port seqNo chan off crcOk last hdr payload) :=
  fun _ h => absurd h Bool.noConfusion
theorem windowGrant (chan window rlog : Nat) (stgv : Bool) : Statement (.windowGrant chan window rlog stgv) :=
  fun _ h => absurd h Bool.noConfusion
theorem acknowledgementOfPublication (chan : Nat) (status : AckOf) : Statement (.acknowledgementOfPublication chan status) :=
  fun _ h => absurd h Bool.noConfusion
theorem collectiveFlit (way : FlitWay) (cid off : Nat) (round1 : Bool) (payload : List (Byte × Bool)) :
    Statement (.collectiveFlit way cid off round1 payload) :=
  fun _ h => absurd h Bool.noConfusion
theorem negativeAcknowledgement (port seqNo : Nat) : Statement (.negativeAcknowledgement port seqNo) :=
  fun _ h => absurd h Bool.noConfusion
theorem portDown (port : Nat) : Statement (.portDown port) :=
  fun _ h => absurd h Bool.noConfusion
theorem pushReduceCombine (die g : Nat) : Statement (.pushReduceCombine die g) :=
  fun _ h => absurd h Bool.noConfusion
theorem prstTimeout (die g : Nat) : Statement (.prstTimeout die g) :=
  fun _ h => absurd h Bool.noConfusion
theorem calendarSlotStart (die chan : Nat) (cached : Option Nat) : Statement (.calendarSlotStart die chan cached) :=
  fun _ h => absurd h Bool.noConfusion
theorem refreshWindow (die : Nat) : Statement (.refreshWindow die) :=
  fun _ h => absurd h Bool.noConfusion
theorem lineMigration (die line : Nat) : Statement (.lineMigration die line) :=
  fun _ h => absurd h Bool.noConfusion
theorem tileMove (die ctx tensor ver tile : Nat) (toLp : Bool) : Statement (.tileMove die ctx tensor ver tile toLp) :=
  fun _ h => absurd h Bool.noConfusion
theorem oldFrameRelease (die : Nat) : Statement (.oldFrameRelease die) :=
  fun _ h => absurd h Bool.noConfusion
theorem invalidationAcknowledgement (core : Nat) : Statement (.invalidationAcknowledgement core) :=
  fun _ h => absurd h Bool.noConfusion
theorem atsInvalidationRequest (die pasid : Nat) (start len : Nat) : Statement (.atsInvalidationRequest die pasid start len) :=
  fun _ h => absurd h Bool.noConfusion
theorem atsTranslationResponse (die pasid page hpa : Nat) (grantR grantW error later : Bool) : Statement (.atsTranslationResponse die pasid page hpa grantR grantW error later) :=
  fun _ h => absurd h Bool.noConfusion
theorem hostBar2Access (place : HostPlace) (wr : Option (List Byte)) : Statement (.hostBar2Access place wr) :=
  fun _ h => absurd h Bool.noConfusion
theorem collectionRoundPoll (die q : Nat) : Statement (.collectionRoundPoll die q) :=
  fun _ h => absurd h Bool.noConfusion
theorem launch (q : Nat) : Statement (.launch q) :=
  fun _ h => absurd h Bool.noConfusion
theorem stage (q : Nat) : Statement (.stage q) :=
  fun _ h => absurd h Bool.noConfusion
theorem operatorFence (q : Nat) : Statement (.operatorFence q) :=
  fun _ h => absurd h Bool.noConfusion
theorem write (q : Nat) : Statement (.write q) :=
  fun _ h => absurd h Bool.noConfusion
theorem operatorCompletion (q : Nat) : Statement (.operatorCompletion q) :=
  fun _ h => absurd h Bool.noConfusion
theorem correctableError (die : Nat) : Statement (.correctableError die) :=
  fun _ h => absurd h Bool.noConfusion
theorem uncorrectableError (die : Nat) (place : ErrPlace) : Statement (.uncorrectableError die place) :=
  fun _ h => absurd h Bool.noConfusion
theorem healthRefresh (die : Nat) (sage : List (BitVec 16)) (hbm : List DWord) (eol : BitVec 32) : Statement (.healthRefresh die sage hbm eol) :=
  fun _ h => absurd h Bool.noConfusion
theorem queueDescriptorWrite (q word : Nat) (v : DWord) : Statement (.queueDescriptorWrite q word v) :=
  fun _ h => absurd h Bool.noConfusion

end Laws.RoundTrip

end Sys2Proof
end

