-- ==== Sys2Proof/Tests/Slice0.lean ====
section
/-! SUPPORT. Tests. Ill-formed terms are refused; words laid out from the manual's encodings and examples decode to what
they stand for; every statement with hypotheses has a witness; one step of most instructions on a small state. -/

namespace Sys2Proof.Tests

open Machine

-- One proof after another: each of them needs little, all of them at once need a thread each.
set_option Elab.async false

/-- No wait and no signal. -/
def z : Ctl := ⟨0, 0, 0, 0⟩

def refusesAll (l : List Instr) : Bool := l.all fun i => !i.wellFormed
def reads (l : List (Nat × Instr)) : Bool := l.all fun p => decide (decode p.1 = .ok p.2)
def undef (l : List Nat) : Bool := l.all fun w => decide (decode w = .undefField)

/-! Ill-formed terms (R78 to R117). -/

theorem test_wf_ctl : refusesAll [.nop ⟨0, 1, 0, 0⟩, .nop ⟨1, 0, 0, 0⟩, .nop ⟨3, 32, 0, 0⟩, .nop ⟨4, 32, 0, 0⟩,
    .nop ⟨8, 0, 0, 0⟩, .nop ⟨0, 0, 0, 1⟩, .nop ⟨0, 0, 1, 0⟩, .nop ⟨0, 0, 3, 32⟩, .nop ⟨0, 0, 4, 1⟩] = true := by
  decide +kernel

theorem test_wf_scalar : refusesAll [.add z false 64 1 2, .add z true 3 4 6, .sub z true 2 5 6, .and z true 2 4 7,
    .or z false 1 64 2, .xor z false 1 2 64, .shl z true 1 2 4, .shr z true 2 3 4, .sra z true 2 4 5, .mul z true 1 2 4,
    .mulh z true true 1 2 4, .div z true false 2 3 4, .rem z true true 2 4 5, .min z false false 64 0 0,
    .max z false true 0 64 0, .cmp z false false .un 1 2 3, .cmp z true false .eq 1 3 4, .cmp z false false .eq 64 3 4,
    .sel z true 2 4 6 64, .sel z true 2 4 5 1, .clz z true 2 3, .popc z true 3 2, .movi z 64 0, .moviHi z 64 0,
    .addi z 64 0 0, .addi z 0 64 0, .addp z 3 4 0, .addp z 4 3 0] = true := by decide +kernel

theorem test_wf_branch : refusesAll [.br z (.ind 3 0), .br z (.ind 64 0), .bz z 64 0, .bnz z 64 0, .call z (.ind 1 0),
    .looph z 3 4 5 6, .looph z 2 64 5 6, .looph z 2 4 64 6, .looph z 2 4 5 64, .loopt z 6 0] = true := by decide +kernel

theorem test_wf_memory : refusesAll [.ld z ⟨.b8, 3, 2, 0, 0⟩, .ld z ⟨.b4, 64, 2, 0, 0⟩, .ld z ⟨.b4, 3, 32, 0, 0⟩,
    .ld z ⟨.b4, 3, 2, 8, 0⟩, .ldZeroExtending z ⟨.b4, 3, 2, 0, 0⟩, .ldZeroExtending z ⟨.b8, 4, 2, 0, 0⟩,
    .st z ⟨.b8, 5, 2, 0, 0⟩, .aadd z ⟨true, 3, 2, 0, 0, 0⟩, .amin z ⟨false, 3, 2, 0, 16, 0⟩,
    .acas z ⟨false, 3, 2, 0, 0, 0⟩, .acas z ⟨true, 60, 2, 0, 0, 0⟩, .afadd z true true ⟨true, 4, 2, 0, 0, 0⟩,
    .afadd z false true ⟨false, 4, 2, 0, 0, 0⟩] = true := by decide +kernel

/-- A field record over V1, V2, V3 and P0. -/
def vf (t : Ty) : VF := ⟨t, ⟨1, false⟩, ⟨2, false⟩, ⟨3, false⟩, ⟨0, false⟩⟩
def vf2 (t : Ty) : VF2 := ⟨t, ⟨2, false⟩, ⟨1, false⟩, ⟨0, false⟩⟩
def vm (t : Ty) : VMemF := ⟨t, ⟨1, false⟩, 2, 0, ⟨0, false⟩⟩

theorem test_wf_vector : refusesAll [.vadd z .rne false (vf .b32), .vadd z .rtz false (vf .i32),
    .vadd z .rne true (vf .f32), .vsub z .sr false (vf .i64), .vmul z .rne true (vf .bf16), .vfma z .rne (vf .i32) ⟨4, false⟩,
    .vfma z .rne (vf .f32) ⟨15, true⟩, .vmin z (vf .b32), .vmax z (vf .b32), .vabs z .rne false (vf2 .n32),
    .vneg z .rne true (vf2 .f16), .vand z (vf .f32), .vor z (vf .bf16), .vxor z (vf .f16), .vshl z (vf .b32),
    .vshr z (vf .f32), .vsra z (vf .b32), .vcmp z .un (vf .i32), .vcmp z .eq (vf .b32), .vcmp z .eq { vf .i32 with vd := ⟨16, false⟩ },
    .vsel z { vf .i32 with va := ⟨32, false⟩ }, .vsel z { vf .i32 with pr := ⟨7, true⟩ }, .vcvt z .b32 .rne (vf2 .i32),
    .vcvt z .f32 .rne (vf2 .b32), .vmov z { vf2 .i32 with vd := ⟨15, true⟩ }, .vmovi z .i16 1 0, .vmovi z .i32 32 0,
    .vget z .i64 5 ⟨1, false⟩ 2, .vput z .i32 64 ⟨1, false⟩ 2, .vexp z (vf2 .i32), .vlog z (vf2 .n8), .vrcp z (vf2 .b32),
    .vrsq z (vf2 .i16), .vtanh z (vf2 .i32), .verf z (vf2 .i32), .vrrot z 16 (vf2 .i32), .vrbc z 16 (vf2 .i32),
    .vcrot z 64 (vf2 .i32), .vcbc z 32 (vf2 .i64), .vrred z .add (vf2 .b32), .vcred z .min (vf2 .b32), .vtrn16 z (vf2 .i16),
    .vamax z .row (vf2 .i32), .vqnt z 32 .rne (vf .f32), .vqnt z 5 .rne (vf .i32), .vdqnt z 5 (vf .n16), .vdqnt z 32 (vf .f32),
    .vld z { vm .f32 with b := 32 }, .vst z { vm .f32 with ac := 8 }, .vldm z 16 (vm .f32), .vldm z 1 { vm .f32 with b := 31 },
    .vstm z { vm .f32 with b := 31 }, .voptw z false 8 (vf .f32) ⟨4, false⟩, .voptw z false 1 (vf .f16) ⟨4, false⟩,
    .voptw z false 1 { vf .f32 with vb := ⟨1, false⟩ } ⟨4, false⟩, .pand z ⟨16, false⟩ ⟨1, false⟩ ⟨2, false⟩ ⟨0, false⟩,
    .por z ⟨1, true⟩ ⟨1, false⟩ ⟨2, false⟩ ⟨0, false⟩, .pnot z ⟨1, false⟩ ⟨16, false⟩ ⟨0, false⟩,
    .pset z ⟨1, false⟩ 16 ⟨0, false⟩] = true := by decide +kernel

theorem test_wf_matrix_stream : refusesAll [.mldb z 16 0 false, .mldb z 0 8 false, .mma z 0 0 64 false false false,
    .mscfg z 0, .mscfg z 16, .msamp z 64 0 0 0 false false, .accz z 64, .accrd z 0 .rtz false none 2,
    .accrd z 0 .rne true none 2, .accrd z 0 .rne false (some 32) 2, .accwr z 0 none 32, .accwr z 0 (some 32) 1,
    .accq z 16 0 0 .rne none false, .accst z 0 64, .accld z 16 0, .strcfg z 16 4 0, .strcfg z 0 5 0, .strset z 0 4 11,
    .strld z 16 0 false, .strst z 0 16, .stradv z 0 6, .tilereq z 16 0 0 0 false false, .pgreq z 0 4 0 0 false] = true := by
  decide +kernel

theorem test_wf_engine_task : refusesAll [.cpy z ⟨16, 0, false, false, 0, 0, 0⟩, .cpyr z ⟨0, 4, false, false, 0, 0, 0⟩,
    .stash z ⟨0, 0, false, false, 1, 0, 0⟩, .stfetch z ⟨0, 0, true, false, 16, 0, 0⟩, .stdrop z ⟨0, 0, false, false, 0, 256, 0⟩,
    .chsend z ⟨0, 0, false, false, 0, 0, 64⟩, .chrecv z ⟨0, 0, false, false, 2, 0, 0⟩, .chrel z ⟨0, 0, false, false, 3, 0, 0⟩,
    .coll z ⟨17, 0, false, false, 0, 0, 0⟩, .prst z ⟨0, 5, false, false, 0, 0, 0⟩, .tqpop z 64 none, .tqpop z 0 (some 64),
    .tqpush z 64 0, .tarm z 0 64 0, .tdone z 64, .mbpost z 16 0, .pennLoad z 0 0 3, .pennStart z 64 0, .pennStop z 0 64,
    .pennUnload z 64 0, .pennStat z 0 64, .relaunch z 0 64, .traceAdd z 64 0 0, .tracePath z 64, .vernew z 64 0,
    .verpin z 0 0 0 0 8, .verdrop z 0 0 64] = true := by decide +kernel

theorem test_wf_sync_system : refusesAll [.phase z 4 false false, .phase z 16 true false, .fence z false false false,
    .bar z 4 false false 0 0 none, .bar z 4 true true 0 0 (some 64), .sysr z 0 5 0, .sysr z 3 0x031 0, .sysr z 0 0 4,
    .sysw z 3 0x033 4, .sysw z 2 0x040 0, .sysw z 5 0x013 0, .xlinv z 3 0, .xlinv z 2 4, .ret ⟨0, 2, 0, 0⟩, .sleep z 64] = true := by
  decide +kernel

theorem test_wf_events : refusesAll [.boot 7 0 0, .sectorStart 2 0, .sectorStart 0 4, .registerWrite 2 0 0,
    .registerWindowWrite 288 0 0, .corectlReset 288, .corectlStart 288, .preemptionRequestDie 2, .framecfgWrite 2 0,
    .l2seedWrite 2 0, .calownWrite 0 288 0 0, .groupEntryWrite 0 64 0 0, .chcfgWrite 64 0 0, .chcfgWrite 0 4 0, .mbtailWrite 2 0,
    .attreq 2 0, .attestationReport 2, .frameAgingTick 2, .taskInsertion 65536 0, .taskInsertion 0 16777216, .blockStart 288,
    .trapEntry 288, .watchdogTimeout 288, .barTimeout 288 .C, .tqpopTimeout 288, .sleepWakeup 288, .stageEvaluation 0 8,
    .arrivalRecordAppend 64, .verfull 2 0, .mailboxPost 2, .dataFlit 8 0 0 0 true true ⟨0, 0, 0, 0⟩ [],
    .windowGrant 64 0 0 false, .acknowledgementOfPublication 0 ⟨1, 0⟩, .collectiveFlit ⟨0, 0⟩ 65536 0 false [],
    .negativeAcknowledgement 8 0, .portDown 8, .pushReduceCombine 0 64, .prstTimeout 2 0, .calendarSlotStart 0 288 none,
    .refreshWindow 2, .lineMigration 2 0, .tileMove 0 0 0 8 0 false, .oldFrameRelease 2, .invalidationAcknowledgement 288,
    .atsInvalidationRequest 0 1048576 0 0, .atsTranslationResponse 2 0 0 0 true true false false, .hostBar2Access ⟨0, 4, 8⟩ none,
    .hostBar2Access ⟨2, 68719476735, 2⟩ none, .hostBar2Access ⟨4, 8, 8⟩ (some []), .hostBar2Access ⟨1, 0, 8⟩ none,
    .collectionRoundPoll 0 65536, .launch 131072, .stage 131072, .operatorFence 131072, .write 131072,
    .operatorCompletion 131072, .correctableError 2, .uncorrectableError 0 (.localStore 144 0), .healthRefresh 2 [] [] 0,
    .queueDescriptorWrite 0 4 0] = true := by decide +kernel

/-! Words of the manual's examples and of its encoding tables (R81 to R117). -/

theorem test_decode_scalar : reads [
    (0xA023000000000000, .nop ⟨5, 0, 1, 3⟩),
    (0x0000010C41400000, .add z false 3 4 5),
    (0x00000B1062000005, .div z true true 4 6 8),
    (0x00000F0831000010, .cmp z false false .lt 2 3 4),
    (0x0000100831050000, .sel z false 2 3 4 5),
    (0x0000121C70FFFFFF, .addi z 7 7 0xffffff#24),
    (0x0000151040000100, .addp z 4 4 0x100#24),
    (0x0000111401001234, .moviHi z 5 0x1234#16),
    (0x00000224B3400000, .sub z false 9 11 13),
    (0x00000328C3800001, .and z true 10 12 14),
    (0x00000424B3400000, .or z false 9 11 13),
    (0x00000528C3800001, .xor z true 10 12 14),
    (0x00000624B3400000, .shl z false 9 11 13),
    (0x00000728C3800001, .shr z true 10 12 14),
    (0x00000824B3400000, .sra z false 9 11 13),
    (0x00000928C3800001, .mul z true 10 12 14),
    (0x00000A28C3800005, .mulh z true true 10 12 14),
    (0x00000C28C3800005, .rem z true true 10 12 14),
    (0x00000D28C3800005, .min z true true 10 12 14),
    (0x00000E28C3800005, .max z true true 10 12 14),
    (0x00000F1C8280002D, .cmp z true true .ge 7 8 10),
    (0x0000100841850001, .sel z true 2 4 6 5),
    (0x00001324B0000000, .clz z false 9 11),
    (0x00001428C0000001, .popc z true 10 12),
    (0x0000112400ABCDEF, .movi z 9 0xabcdef#24)] = true := by decide +kernel

theorem test_decode_vector : reads [
    (0x000040AC0A09C800, .vadd z .rne false ⟨.i32, ⟨21, true⟩, ⟨16, true⟩, ⟨5, false⟩, ⟨9, true⟩⟩),
    (0x000052080001C000, .vmovi z .i32 1 0x38#24),
    (0x0000400886000400, .vadd z .rne false ⟨.f32, ⟨1, false⟩, ⟨2, false⟩, ⟨3, false⟩, ⟨0, false⟩⟩),
    (0x0000400886000008, .vadd z .rne true ⟨.i32, ⟨1, false⟩, ⟨2, false⟩, ⟨3, false⟩, ⟨0, false⟩⟩),
    (0x0000410886000481, .vsub z .rtz false ⟨.f16, ⟨1, false⟩, ⟨2, false⟩, ⟨3, false⟩, ⟨0, false⟩⟩),
    (0x000043214C720505, .vfma z .sr ⟨.bf16, ⟨4, false⟩, ⟨5, false⟩, ⟨6, false⟩, ⟨2, false⟩⟩ ⟨7, false⟩),
    (0x0000593A00000401, .vamax z .blk ⟨.f32, ⟨7, false⟩, ⟨8, false⟩, ⟨0, false⟩⟩),
    (0x0000480886000580, .vand z ⟨.b32, ⟨1, false⟩, ⟨2, false⟩, ⟨3, false⟩, ⟨0, false⟩⟩),
    (0x0000561040000402, .vrred z .add ⟨.f32, ⟨2, false⟩, ⟨1, false⟩, ⟨0, false⟩⟩),
    (0x0000571905000000, .vcrot z 5 ⟨.i32, ⟨3, false⟩, ⟨4, false⟩, ⟨0, false⟩⟩),
    (0x000057298000040A, .vcred z .max ⟨.f32, ⟨5, false⟩, ⟨6, false⟩, ⟨0, false⟩⟩),
    (0x00004E1844000402, .vcmp z .lt ⟨.f32, ⟨3, false⟩, ⟨1, false⟩, ⟨2, false⟩, ⟨0, false⟩⟩),
    (0x0000501040000455, .vcvt z .bf16 .sr ⟨.f32, ⟨2, false⟩, ⟨1, false⟩, ⟨0, false⟩⟩),
    (0x00005A4A96500400, .vqnt z 5 .rne ⟨.f32, ⟨9, false⟩, ⟨10, false⟩, ⟨11, false⟩, ⟨0, false⟩⟩),
    (0x00005B6256500400, .vdqnt z 5 ⟨.f32, ⟨12, false⟩, ⟨9, false⟩, ⟨11, false⟩, ⟨0, false⟩⟩),
    (0x0000551040000400, .vexp z ⟨.f32, ⟨2, false⟩, ⟨1, false⟩, ⟨0, false⟩⟩),
    (0x0000551040000402, .vrcp z ⟨.f32, ⟨2, false⟩, ⟨1, false⟩, ⟨0, false⟩⟩),
    (0x0000531463000400, .vget z .f32 5 ⟨3, false⟩ 6),
    (0x0000541463000000, .vput z .i32 5 ⟨3, false⟩ 6),
    (0x00005C0804000400, .vld z ⟨.f32, ⟨1, false⟩, 2, 0, ⟨0, false⟩⟩),
    (0x00005D0804000400, .vst z ⟨.f32, ⟨1, false⟩, 2, 0, ⟨0, false⟩⟩),
    (0x00005E1806920501, .vldm z 9 ⟨.bf16, ⟨3, false⟩, 3, 1, ⟨2, false⟩⟩),
    (0x00005F0804000402, .vstm z ⟨.f32, ⟨1, false⟩, 2, 2, ⟨0, false⟩⟩),
    (0x0000511040000580, .vmov z ⟨.b32, ⟨2, false⟩, ⟨1, false⟩, ⟨0, false⟩⟩),
    (0x000060088640052B, .voptw z true 3 ⟨.bf16, ⟨1, false⟩, ⟨2, false⟩, ⟨3, false⟩, ⟨0, false⟩⟩ ⟨4, false⟩),
    (0x00004F0886040400, .vsel z ⟨.f32, ⟨1, false⟩, ⟨2, false⟩, ⟨3, false⟩, ⟨4, false⟩⟩),
    (0x00004B0886000000, .vshl z ⟨.i32, ⟨1, false⟩, ⟨2, false⟩, ⟨3, false⟩, ⟨0, false⟩⟩),
    (0x0000581040000400, .vtrn16 z ⟨.f32, ⟨2, false⟩, ⟨1, false⟩, ⟨0, false⟩⟩),
    (0x0000530C20000580, .vget z .b32 3 ⟨1, false⟩ 0),
    (0x0000420886000505, .vmul z .sr false ⟨.bf16, ⟨1, false⟩, ⟨2, false⟩, ⟨3, false⟩, ⟨0, false⟩⟩),
    (0x0000448C86098900, .vmin z ⟨.i64, ⟨17, true⟩, ⟨18, false⟩, ⟨3, false⟩, ⟨9, true⟩⟩),
    (0x0000458C86098B80, .vmax z ⟨.n8, ⟨17, true⟩, ⟨18, false⟩, ⟨3, false⟩, ⟨9, true⟩⟩),
    (0x0000498C86098980, .vor z ⟨.n64, ⟨17, true⟩, ⟨18, false⟩, ⟨3, false⟩, ⟨9, true⟩⟩),
    (0x00004A8C86098D80, .vxor z ⟨.b32, ⟨17, true⟩, ⟨18, false⟩, ⟨3, false⟩, ⟨9, true⟩⟩),
    (0x00004C8C86098A80, .vshr z ⟨.n16, ⟨17, true⟩, ⟨18, false⟩, ⟨3, false⟩, ⟨9, true⟩⟩),
    (0x00004D8C86098A00, .vsra z ⟨.i16, ⟨17, true⟩, ⟨18, false⟩, ⟨3, false⟩, ⟨9, true⟩⟩),
    (0x0000462140060008, .vabs z .rne true ⟨.i32, ⟨4, false⟩, ⟨5, false⟩, ⟨6, false⟩⟩),
    (0x0000472140060484, .vneg z .rna false ⟨.f16, ⟨4, false⟩, ⟨5, false⟩, ⟨6, false⟩⟩),
    (0x0000551040000401, .vlog z ⟨.f32, ⟨2, false⟩, ⟨1, false⟩, ⟨0, false⟩⟩),
    (0x0000551040000403, .vrsq z ⟨.f32, ⟨2, false⟩, ⟨1, false⟩, ⟨0, false⟩⟩),
    (0x0000551040000404, .vtanh z ⟨.f32, ⟨2, false⟩, ⟨1, false⟩, ⟨0, false⟩⟩),
    (0x0000551040000405, .verf z ⟨.f32, ⟨2, false⟩, ⟨1, false⟩, ⟨0, false⟩⟩),
    (0x000056104F030580, .vrrot z 15 ⟨.b32, ⟨2, false⟩, ⟨1, false⟩, ⟨3, false⟩⟩),
    (0x0000561049030301, .vrbc z 9 ⟨.i8, ⟨2, false⟩, ⟨1, false⟩, ⟨3, false⟩⟩),
    (0x000057107F030081, .vcbc z 63 ⟨.n32, ⟨2, false⟩, ⟨1, false⟩, ⟨3, false⟩⟩)] = true := by decide +kernel

theorem test_decode_branch : reads [
    (0x00002500FFFFFFFC, .loop z 0xfffffffc#32),
    (0x0000201100000000, .br z (.ind 4 0x0#32)),
    (0x0000210C00000005, .bz z 3 0x5#32),
    (0x0000240000000000, .ret z),
    (0x0000230000000040, .call z (.rel 0x40#32)),
    (0x0000260841460000, .looph z 2 4 5 6),
    (0x00002708FFFFFFFA, .loopt z 2 0xfffffffa#32),
    (0x0000210C00000002, .bz z 3 0x2#32),
    (0x000022FCFFFFFFFE, .bnz z 63 0xfffffffe#32)] = true := by decide +kernel

theorem test_decode_matrix : reads [
    (0x0000760000004A01, .accwr z 0 (some 5) 1),
    (0x0000704000000000, .mldb z 4 0 false),
    (0x0000715000000000, .mma z 5 0 0 false false false),
    (0x0000750000000002, .accrd z 0 .rne false none 2),
    (0x0000793001000000, .accld z 3 2),
    (0x0000776702004A01, .accq z 6 7 4 .rne (some 5) true),
    (0x0000783001000000, .accst z 3 2),
    (0x0000740002800000, .accz z 5),
    (0x0000704060400000, .mldb z 4 3 true),
    (0x0000715041A00000, .mma z 5 2 3 false true false),
    (0x0000715000900000, .mma z 5 0 1 false false true),
    (0x0000720000000002, .mscfg z 2),
    (0x0000735001200009, .msamp z 9 5 0 2 false true)] = true := by decide +kernel

theorem test_decode_stream : reads [
    (0x000086240000C001, .pgreq z 2 1 0 3 true),
    (0x0000843000000002, .stradv z 3 2),
    (0x0000800840000040, .strcfg z 2 4 0x40#24),
    (0x0000821200000000, .strld z 1 2 false),
    (0x0000810863000000, .strset z 2 6 3),
    (0x0000831200000000, .strst z 1 2),
    (0x000085240000C003, .tilereq z 2 1 0 3 true true),
    (0x0021821400000000, .strld ⟨0, 0, 1, 1⟩ 1 4 false),
    (0x6161833400000000, .strst ⟨3, 1, 3, 1⟩ 3 4),
    (0x4161838900000000, .strst ⟨2, 1, 3, 1⟩ 8 9)] = true := by decide +kernel

theorem test_decode_sync : reads [
    (0x0000B00000000034, .phase z 4 true true),
    (0x0000B00000000025, .phase z 5 false true),
    (0x0000B10000000003, .fence z true true false),
    (0x0000B30000000000, .icinv z),
    (0x0000B21C32400073, .bar z 3 true true 7 3 (some 9)),
    (0x0000B21C30000033, .bar z 3 true true 7 3 none)] = true := by decide +kernel

theorem test_decode_engine : reads [
    (0x0000902540300000, .cpy z ⟨2, 1, false, true, 4, 3, 0⟩),
    (0x0000993000014000, .prst z ⟨3, 0, false, false, 0, 0, 5⟩),
    (0x0000964670000000, .chrecv z ⟨4, 1, true, false, 7, 0, 0⟩),
    (0x0000973000000000, .chrel z ⟨3, 0, false, false, 0, 0, 0⟩),
    (0x0000952970008000, .chsend z ⟨2, 2, false, true, 7, 0, 2⟩),
    (0x0000985D90018000, .coll z ⟨5, 3, false, true, 9, 0, 6⟩),
    (0x0000912540300000, .cpyr z ⟨2, 1, false, true, 4, 3, 0⟩),
    (0x0000924800020000, .stash z ⟨4, 2, false, false, 0, 0, 8⟩),
    (0x0000945000000000, .stdrop z ⟨5, 0, false, false, 0, 0, 0⟩),
    (0x0000935400000000, .stfetch z ⟨5, 1, false, false, 0, 0, 0⟩),
    (0x0000992400030000, .prst z ⟨2, 1, false, false, 0, 0, 12⟩),
    (0xA000926800000000, .stash ⟨5, 0, 0, 0⟩ ⟨6, 2, false, false, 0, 0, 0⟩),
    (0x0000955C00000000, .chsend z ⟨5, 3, false, false, 0, 0, 0⟩)] = true := by decide +kernel

theorem test_decode_task : reads [
    (0x0000A80020C40000, .traceAdd z 2 3 4),
    (0x0000A80070000001, .tracePath z 7),
    (0x0000A71460000000, .relaunch z 5 6),
    (0x0000A53000024000, .mbpost z 3 9),
    (0x0000A60831000000, .pennLoad z 2 3 4),
    (0x0000A60830000001, .pennStart z 2 3),
    (0x0000A20831000000, .tarm z 2 3 4),
    (0x0000A30040000000, .tdone z 4),
    (0x0000A00800000000, .tqpop z 2 none),
    (0x0000A00830000001, .tqpop z 2 (some 3)),
    (0x0000A10830000000, .tqpush z 2 3),
    (0x0000A40000000000, .ttrig z),
    (0x0000AB0831000000, .verdrop z 2 3 4),
    (0x0000A90830000000, .vernew z 2 3),
    (0x0000AA0831050001, .verpin z 2 3 4 5 1),
    (0xC061A90830000000, .vernew ⟨6, 0, 3, 1⟩ 2 3),
    (0x0000A54000008000, .mbpost z 4 2),
    (0x6100A30000000000, .tdone ⟨3, 1, 0, 0⟩ 0),
    (0x0000A60830000002, .pennStop z 2 3),
    (0x0000A60830000003, .pennUnload z 2 3),
    (0x0000A60830000004, .pennStat z 2 3)] = true := by decide +kernel

theorem test_decode_system : reads [
    (0x0000C30000000000, .eret z),
    (0x0000C2000000002A, .trap z 0x2a#16),
    (0x0000C40040000000, .sleep z 4),
    (0x0000C01400000000, .sysr z 5 0 0),
    (0x0000C01000000031, .sysr z 4 49 0),
    (0x0000C02003000018, .sysr z 8 24 3),
    (0x0000C10C00000019, .sysw z 3 25 0),
    (0x0000C11801000011, .sysw z 6 17 1),
    (0x2100C01800000021, .sysr ⟨1, 1, 0, 0⟩ 6 33 0),
    (0x0000C11801000040, .xlinv z 6 1)] = true := by decide +kernel

theorem test_decode_memory : reads [
    (0x0000330C50400008, .aadd z ⟨false, 3, 2, 0, 4, 0x8#19⟩),
    (0x00003C1CA85FFFFE, .afadd z true true ⟨false, 7, 5, 0, 5, 0x7fffe#19⟩),
    (0x000030185AFFFFF0, .ld z ⟨.b8, 6, 2, 2, 0xfffff0#24⟩),
    (0x0000312428000006, .ldZeroExtending z ⟨.b2, 9, 1, 0, 0x6#24⟩),
    (0x0000320C50000010, .st z ⟨.b4, 3, 2, 0, 0x10#24⟩),
    (0x0000321899FFFFF8, .st z ⟨.b8, 6, 4, 1, 0xfffff8#24⟩),
    (0x0000322420000003, .st z ⟨.b1, 9, 1, 0, 0x3#24⟩),
    (0x0000341BFDB40000, .amin z ⟨true, 6, 31, 5, 11, 0x40000#19⟩),
    (0x0000351BFDB40000, .aminUnsigned z ⟨true, 6, 31, 5, 11, 0x40000#19⟩),
    (0x0000361BFDB40000, .amax z ⟨true, 6, 31, 5, 11, 0x40000#19⟩),
    (0x0000371BFDB40000, .amaxUnsigned z ⟨true, 6, 31, 5, 11, 0x40000#19⟩),
    (0x0000381BFDB40000, .aand z ⟨true, 6, 31, 5, 11, 0x40000#19⟩),
    (0x0000391BFDB40000, .aor z ⟨true, 6, 31, 5, 11, 0x40000#19⟩),
    (0x00003A1BFDB40000, .axchg z ⟨true, 6, 31, 5, 11, 0x40000#19⟩),
    (0x00003B1BFDB40000, .acas z ⟨true, 6, 31, 5, 11, 0x40000#19⟩)] = true := by decide +kernel

theorem test_decode_predicate : reads [
    (0x000061190A020000, .pand z ⟨3, false⟩ ⟨4, false⟩ ⟨5, false⟩ ⟨2, false⟩),
    (0x0000612140000002, .pnot z ⟨4, false⟩ ⟨5, false⟩ ⟨0, false⟩),
    (0x0000611980000003, .pset z ⟨3, false⟩ 6 ⟨0, false⟩),
    (0x000061190A020001, .por z ⟨3, false⟩ ⟨4, false⟩ ⟨5, false⟩ ⟨2, false⟩)] = true := by decide +kernel

/-- A reserved opcode, the all-ones word, an assigned opcode with a reserved field: the two kinds of UNDEF (R103, R105). -/
theorem test_decode_reserved : decode 0x0000160000000000 = .undefOp ∧ decode 0xFFFFFFFFFFFFFFFF = .undefOp ∧
    decode 0x0000660000000000 = .undefOp ∧ decode 0x0000680000000000 = .undefOp ∧ decode 0x0000D00000000000 = .undefOp := by
  decide +kernel

/-- A set Res0 bit, a width of 10b, an odd register of a pair, VCMP with FN 111b, FO with no format instruction. -/
theorem test_decode_undef : undef [0x0000000000000001, 0x0000010C41400002, 0x0000010C41400001, 0x00004E1844000407,
    0x0000704000004000, 0x0000B00000000004, 0x0000902540300001, 0x0100000000000000 + 0x010C41400000, 0x0000C10000000040 + 0x400000000] = true := by
  decide +kernel

/-! States for the tests: core 5 in user mode, or privileged, one sequencer running, with some registers. -/

def on (q : SeqId) (g : Regs) : Core := ({} : Core).setSeq q { parked := false, pc := 0x1000, g := g }
def st (q : SeqId) (k : Core) : State := { cores := [(5, k)], cur := 5, curSeq := q }

/-- The C-seq of a trap handler. -/
def onP (g : Regs) : Core := { on .C [] with pg := g, priv := true, nest := 1 }

/-- Context 0 valid on die 0, and the page of VA 0x8000_0000_0000_1000 at physical 0x1000 in the core's cache. -/
def mapped (s : State) : State :=
  { s with mem := Store.insert 0x0A 0x20 s.mem,
           tlb := [⟨5, 0, 0x8000000000001000, 4096, 0x1000, true, true, true, true, true, 0x8000000000001, 0⟩] }

/-- G4:G5 = 0x8000_0000_0000_1000. -/
def base : Regs := [(4, 0x1000), (5, 0x80000000)]

/-- Whether `i` runs from `s`, and to a state of which `p` holds. -/
def runs (i : Instr) (s : State) (p : State → Bool) : Bool :=
  match exec i s with
  | .next t => p t
  | _ => false

/-- Whether `i` runs and writes `v` to Gn, and the sequencer goes on to the next word. -/
def puts (i : Instr) (s : State) (n : Nat) (v : Word) : Bool := runs i s fun t => t.g n == v && t.mySeq.pc == 0x1008

/-- Whether `i` traps with a cause and an EVA (R272). -/
def traps (i : Instr) (s : State) (cause : Nat) (eva : DWord) : Bool :=
  runs i s fun t => t.me.cause.toNat == cause + 64 * s.curSeq.code && t.me.eva == eva && t.me.nest == 1 && t.me.priv

/-- Whether a run ends in a value and a state. -/
def ends {α : Type} [DecidableEq α] (r : EStateM.Result Exc State α) (a : α) (s : State) : Bool :=
  match r with
  | .ok b t => decide (b = a ∧ t = s)
  | .error _ _ => false

theorem okAt {α : Type} [DecidableEq α] {r : EStateM.Result Exc State α} {a : α} {s : State} (h : ends r a s = true) :
    r = .ok a s := by
  cases r <;> simp_all [ends]

/-- Whether a run ends in a value. -/
def yields {α : Type} [DecidableEq α] (r : EStateM.Result Exc State α) (a : α) : Bool :=
  match r with
  | .ok b _ => decide (b = a)
  | .error _ _ => false

theorem okEx {α : Type} [DecidableEq α] {r : EStateM.Result Exc State α} {a : α} (h : yields r a = true) :
    ∃ s, r = .ok a s := by
  cases r <;> simp_all [yields]

def valOf {α : Type} (d : α) : EStateM.Result Exc State α → α
  | .ok a _ => a
  | .error _ _ => d

def readyB (i : Instr) (c : Ctl) (srcs : List Nat) (s : State) : Bool :=
  accepts s.curSeq (encode i) && waitMet c s && !rdBlocked i srcs s && (poisonedSrc srcs s).isNone && sigRoom c s

theorem rdy {i : Instr} {c : Ctl} {srcs : List Nat} {s : State} (h : readyB i c srcs s = true) : Ready i c srcs s := by
  simpa [readyB, Ready, and_assoc] using h

/-! The scalar family (R303 to R307): 32-bit wrap and sign, a source that is also the destination, the register G0. -/

/-- G6 = 7, G7 = 0xFFFF_FFFF, G8:G9 = 0xFFFF_FFFF_FFFF_FFFE, G10:G11 = 3. -/
def sc : State := st .C (on .C [(6, 7), (7, 0xFFFFFFFF), (8, 0xFFFFFFFE), (9, 0xFFFFFFFF), (10, 3)])

theorem test_add_wraps : puts (.add z false 3 7 6) sc 3 6 = true := by decide +kernel
theorem test_add_pair : puts (.add z true 8 8 10) sc 8 1 && puts (.add z true 8 8 10) sc 9 0 = true := by decide +kernel
theorem test_sub : puts (.sub z true 2 10 8) sc 2 5 = true := by decide +kernel
theorem test_and_or_xor : puts (.and z false 3 7 6) sc 3 7 && puts (.or z false 3 6 10) sc 3 7 &&
    puts (.xor z false 3 7 6) sc 3 0xFFFFFFF8 = true := by decide +kernel
theorem test_shl_modulo_width : puts (.shl z false 3 6 7) sc 3 0x80000000 = true := by decide +kernel
theorem test_shr : puts (.shr z false 3 7 10) sc 3 0x1FFFFFFF = true := by decide +kernel
theorem test_sra_keeps_sign : puts (.sra z true 2 8 10) sc 3 0xFFFFFFFF = true := by decide +kernel
theorem test_mul : puts (.mul z false 3 7 7) sc 3 1 = true := by decide +kernel
theorem test_mulh : puts (.mulh z false true 3 7 7) sc 3 0xFFFFFFFE && puts (.mulh z false false 3 7 7) sc 3 0 = true := by
  decide +kernel
theorem test_div_signed : puts (.div z true false 2 8 10) sc 2 0 = true := by decide +kernel
theorem test_div_by_zero : puts (.div z false true 3 6 0) sc 3 0xFFFFFFFF = true := by decide +kernel
theorem test_rem : puts (.rem z true false 2 8 10) sc 2 0xFFFFFFFE && puts (.rem z false true 3 6 0) sc 3 7 = true := by decide +kernel
theorem test_min_max : puts (.min z false false 3 6 7) sc 3 0xFFFFFFFF && puts (.min z false true 3 6 7) sc 3 7 &&
    puts (.max z false false 3 6 7) sc 3 7 && puts (.max z false true 3 6 7) sc 3 0xFFFFFFFF = true := by decide +kernel
theorem test_cmp : puts (.cmp z false false .lt 3 7 6) sc 3 1 && puts (.cmp z false true .lt 3 7 6) sc 3 0 &&
    puts (.cmp z true false .ge 3 10 8) sc 3 1 = true := by decide +kernel
theorem test_sel : puts (.sel z false 3 6 7 0) sc 3 0xFFFFFFFF && puts (.sel z false 3 6 7 10) sc 3 7 = true := by decide +kernel
theorem test_clz_popc : puts (.clz z false 3 6) sc 3 29 && puts (.clz z true 2 0) sc 2 64 && puts (.popc z true 2 8) sc 2 63 = true := by
  decide +kernel
theorem test_movi : puts (.movi z 3 0x800000) sc 3 0xFF800000 && puts (.moviHi z 6 0x1234) sc 6 0x12340007 = true := by decide +kernel
theorem test_addi_addp : puts (.addi z 7 7 (-1)) sc 7 0xFFFFFFFE && puts (.addp z 8 8 2) sc 9 0 = true := by decide +kernel
theorem test_g0_discards : puts (.add z false 0 6 7) sc 0 0 = true := by decide +kernel

theorem test_witness_scalar_two_operand :
    (binFields (.add z true 8 8 10) = some (z, true, 8, 8, 10) ∧ Ready (.add z true 8 8 10) z (srcRegs true [8, 10]) sc) ∧
    (binFields (.div z false true 0 6 63) = some (z, false, 0, 6, 63) ∧
      Ready (.div z false true 0 6 63) z (srcRegs false [6, 63]) sc) ∧
    (binFields (.max z true false 62 62 0) = some (z, true, 62, 62, 0) ∧
      Ready (.max z true false 62 62 0) z (srcRegs true [62, 0]) sc) :=
  ⟨⟨rfl, rdy (by decide +kernel)⟩, ⟨rfl, rdy (by decide +kernel)⟩, rfl, rdy (by decide +kernel)⟩

theorem test_witness_scalar_compare_select_count :
    Ready (.cmp z true false .ge 63 8 10) z (srcRegs true [8, 10]) sc ∧
    Ready (.sel z true 2 8 10 63) z (srcRegs true [8, 10] ++ [63]) sc ∧
    Ready (.clz z true 62 0) z (srcRegs true [0]) sc ∧ Ready (.popc z false 0 63) z (srcRegs false [63]) sc := by
  unfold Ready; decide +kernel

theorem test_witness_scalar_immediate : Ready (.nop z) z [] sc ∧ Ready (.movi z 0 0x800000) z [] sc ∧
    Ready (.moviHi z 63 0xFFFF) z [63] sc ∧ Ready (.addi z 63 7 0x7FFFFF) z [7] sc ∧
    Ready (.addp z 62 8 0x800000) z [8, 9] sc := by
  unfold Ready; decide +kernel

/-! Branches and loops (R97, R98, R308 to R313, R323 to R325). -/

/-- G4:G5 = 0x8000_0000_0000_1000, G6:G7 = 0x1004, G62:G63 = 0x40. -/
def br1 (d : Nat) : State :=
  st .X (({} : Core).setSeq .X {
    parked := false, pc := 0x1000, depth := d, lc := 1, ec := 2,
    g := [(4, 0x1000), (5, 0x80000000), (6, 0x1004), (62, 0x40)] })

theorem test_br : runs (.br z (.ind 4 0xFFFFFFFF)) (br1 0) (fun t => t.mySeq.pc == 0x8000000000000FF8) &&
    traps (.br z (.ind 6 0)) (br1 0) cALIGN 0x1004 = true := by decide +kernel
theorem test_bz_bnz : runs (.bz z 0 5) (br1 0) (fun t => t.mySeq.pc == 0x1028) &&
    runs (.bnz z 0 5) (br1 0) (fun t => t.mySeq.pc == 0x1008) = true := by decide +kernel
theorem test_call_links : runs (.call z (.ind 62 0)) (br1 255) (fun t => t.mySeq.pc == 0x40 && t.g 62 == 0x1008 &&
    t.mySeq.depth == 255) = true := by decide +kernel
theorem test_ret : runs (.ret z) (br1 1) (fun t => t.mySeq.pc == 0x40 && t.mySeq.depth == 0) &&
    runs (.ret z) (br1 0) (fun t => t.mySeq.parked) = true := by decide +kernel
theorem test_loop : runs (.loop z (-4)) (br1 0) (fun t => t.mySeq.pc == 0xFE0 && t.mySeq.lc == 0 && t.mySeq.iter == 1) = true := by
  decide +kernel

theorem test_witness_branch_always : Ready (.br z (.rel 5)) z (targetSrcs (.rel 5)) (br1 0) ∧
    ((br1 0).target (.rel 5)).toNat % 8 = 0 ∧ Ready (.br z (.ind 4 0xFFFFFFFF)) z (targetSrcs (.ind 4 0xFFFFFFFF)) (br1 0) ∧
    ((br1 0).target (.ind 4 0xFFFFFFFF)).toNat % 8 = 0 ∧
    Ready (.br z (.ind 6 0)) z (targetSrcs (.ind 6 0)) (br1 0) ∧ ((br1 0).target (.ind 6 0)).toNat % 8 ≠ 0 := by
  unfold Ready; decide +kernel

theorem test_witness_branch_on_zero : Ready (.bz z 0 5) z [0] (br1 0) ∧ Ready (.bz z 4 5) z [4] (br1 0) ∧
    Ready (.bnz z 0 5) z [0] (br1 0) ∧ Ready (.bnz z 63 0x80000000) z [63] (br1 0) := by
  unfold Ready; decide +kernel

theorem test_witness_call_links : (Ready (.call z (.ind 62 0)) z (targetSrcs (.ind 62 0)) (br1 255) ∧
    ((br1 255).target (.ind 62 0)).toNat % 8 = 0) ∧ (Ready (.call z (.ind 6 0)) z (targetSrcs (.ind 6 0)) (br1 0) ∧
    ((br1 0).target (.ind 6 0)).toNat % 8 ≠ 0) := by
  unfold Ready; decide +kernel

theorem test_witness_return_or_park :
    (0 < (br1 1).mySeq.depth ∧ Ready (.ret z) z [62, 63] (br1 1) ∧ ((br1 1).pair 62).toNat % 8 = 0) ∧
    ((st .C (on .C [(62, 4)])).curSeq = .C ∧ Ready (.ret z) z [62, 63] (st .C (on .C [(62, 4)])) ∧
      ((st .C (on .C [(62, 4)])).pair 62).toNat % 8 ≠ 0) ∧
    ((br1 0).mySeq.depth = 0 ∧ (br1 0).curSeq ≠ .C ∧ Ready (.ret z) z [] (br1 0)) := by
  unfold Ready; decide +kernel

def lp (lc ec : Word) : State := st .X (({} : Core).setSeq .X { parked := false, pc := 0x1000, lc := lc, ec := ec })

theorem test_witness_loop_pipelines :
    (Ready (.loop z (-4)) z [] (lp 1 0) ∧ (lp 1 0).mySeq.lc ≠ 0) ∧
    (Ready (.loop z (-4)) z [] (lp 0 2) ∧ (lp 0 2).mySeq.lc = 0 ∧ 1 < (lp 0 2).mySeq.ec) ∧
    (Ready (.loop z 0) z [] (lp 0 1) ∧ (lp 0 1).mySeq.lc = 0 ∧ (lp 0 1).mySeq.ec ≤ 1) := by
  unfold Ready; decide +kernel

def ring (v : DWord) (p : Word) (q : SeqId) : State :=
  st q (on q [(2, v.setWidth 32), (3, (v.toNat / 2 ^ 32 : Nat)), (4, p), (5, 9), (6, 4)])

theorem test_looph : runs (.looph z 2 4 5 6) (ring 0x8000000000000000 0x2 .L) (fun t => t.me.nest == 1 && t.me.cause.toNat == 0x19) &&
    runs (.looph z 2 4 5 6) (ring 0x10 0x2 .X) (fun t => t.mySeq.ringv == 0x10 && t.mySeq.ringp == 2 && t.mySeq.lc == 9 &&
      t.mySeq.ec == 4 && t.me.pget 9 == allPos && t.me.pget 8 == 0) = true := by decide +kernel

theorem test_witness_loop_header :
    (Ready (.looph z 2 4 5 6) z [2, 3, 4, 5, 6] (ring 0x10 0x2 .X) ∧ ringOk 16 ((ring 0x10 0x2 .X).pair 2).toNat = true ∧
      ringOk 8 ((ring 0x10 0x2 .X).g 4).toNat = true) ∧
    (Ready (.looph z 2 4 5 6) z [2, 3, 4, 5, 6] (ring 0x2000000000000000 0x2 .L) ∧
      ringOk 16 ((ring 0x2000000000000000 0x2 .L).pair 2).toNat = false) ∧
    (Ready (.looph z 2 4 5 6) z [2, 3, 4, 5, 6] (ring 0x10 0x20000000 .C) ∧ ringOk 16 ((ring 0x10 0x20000000 .C).pair 2).toNat = true ∧
      ringOk 8 ((ring 0x10 0x20000000 .C).g 4).toNat = false) :=
  ⟨⟨rdy (by decide +kernel), by decide +kernel, by decide +kernel⟩, ⟨rdy (by decide +kernel), by decide +kernel⟩,
    rdy (by decide +kernel), by decide +kernel, by decide +kernel⟩

/-- A task of context 0 whose kernel has two levels, the second temporal with bounds 0 to 3. -/
def info : TaskInfo := {
  ctx := 0, h := 3, key := 0, scope := 4, tag := 9, phase := 1, verset := 0, stage := 0, stagev := false, die := 0, cset := 0,
  origin := [0, 0], extent := [2, 3], kinds := [0, 1], nlev := 2, entries := [0, 0x2000, 0, 0], traced := true, succ := 0,
  nsucc := 0, param := 0, paramlen := 0, tracebuf := 0 }
def blk : Block := {
  info := info, blk := 1, stamp := 0, pf := false, trig := false, relaunched := false, ranges := [], untr := false, satr := false,
  fltd := false, after := 0 }
def inBlk (q : SeqId) (g : Regs) : Core := { on q g with cur := some blk }

theorem test_loopt : runs (.loopt z 1 (-2)) (st .X (inBlk .X [])) (fun t => t.mySeq.pc == 0xFF0 && Store.get 0 t.mySeq.li 1 == 1) = true := by
  decide +kernel

theorem test_witness_loop_temporal : Ready (.loopt z 1 (-2)) z [] (st .X (inBlk .X [])) ∧
    (∃ b, (st .X (inBlk .X [])).me.cur = some b ∧ 1 < b.info.nlev ∧ b.info.kinds.getD 1 0 = 1 ∧
      (Store.get 0 (st .X (inBlk .X [])).mySeq.li 1).toNat + 1 < b.info.origin.getD 1 0 + b.info.extent.getD 1 0) ∧
    Ready (.loopt z 5 0) z [] (st .L (on .L [])) ∧ (st .L (on .L [])).me.cur = none :=
  ⟨rdy (by decide +kernel), ⟨blk, rfl, by decide⟩, rdy (by decide +kernel), rfl⟩

/-! Memory (R82, R178 to R181, R320 to R322, R340 to R342). -/

/-- The mapped page, its first granule 0x1122_3344_5566_77F8, seen from the L-seq with some more registers. -/
def mem1 (g : Regs) : State :=
  let s := mapped (st .L (on .L (g ++ base)))
  { s with mem := s.mem ++ [(0x1000, 0xF8), (0x1001, 0x77), (0x1002, 0x66), (0x1003, 0x55), (0x1004, 0x44), (0x1005, 0x33),
                            (0x1006, 0x22), (0x1007, 0x11)] }

theorem test_ld : puts (.ld z ⟨.b8, 6, 2, 0, 0⟩) (mem1 []) 6 0x556677F8 && puts (.ld z ⟨.b8, 6, 2, 0, 0⟩) (mem1 []) 7 0x11223344 &&
    puts (.ld z ⟨.b1, 6, 2, 0, 0⟩) (mem1 []) 6 0xFFFFFFF8 = true := by decide +kernel
theorem test_ld_zero_extending : puts (.ldZeroExtending z ⟨.b1, 6, 2, 0, 0⟩) (mem1 []) 6 0xF8 = true := by decide +kernel
theorem test_ld_traps : traps (.ld z ⟨.b4, 6, 2, 0, 2⟩) (mem1 []) cALIGN 0x8000000000001002 &&
    traps (.ld z ⟨.b4, 6, 2, 0, 4096⟩) (mem1 []) cNOTMAP 0x8000000000002000 = true := by decide +kernel
theorem test_st_buffers : runs (.st z ⟨.b2, 6, 2, 1, 6⟩) (mem1 [(6, 0xABCD)]) (fun t => t.byte 0x1006 == 0x22 &&
    (t.me.buffered 0x1006).map (·.val) == some 0xCD && (t.me.buffered 0x1007).map (·.val) == some 0xAB &&
    t.me.buffered 0x1005 == none) = true := by decide +kernel
theorem test_aadd : runs (.aadd z ⟨true, 6, 2, 0, 4, 0⟩) (mem1 [(6, 8)]) (fun t => t.rd 0x1000 8 == 0x1122334455667800 &&
    t.pair 6 == 0x11223344556677F8) = true := by decide +kernel
theorem test_amin_amax : runs (.amin z ⟨false, 6, 2, 0, 4, 4⟩) (mem1 [(6, 0xFFFFFFFF)]) (fun t => t.rd 0x1004 4 == 0xFFFFFFFF) &&
    runs (.aminUnsigned z ⟨false, 6, 2, 0, 4, 4⟩) (mem1 [(6, 0xFFFFFFFF)]) (fun t => t.rd 0x1004 4 == 0x11223344) &&
    runs (.amax z ⟨false, 6, 2, 0, 4, 4⟩) (mem1 [(6, 0xFFFFFFFF)]) (fun t => t.rd 0x1004 4 == 0x11223344) &&
    runs (.amaxUnsigned z ⟨false, 6, 2, 0, 4, 4⟩) (mem1 [(6, 0xFFFFFFFF)]) (fun t => t.rd 0x1004 4 == 0xFFFFFFFF) = true := by
  decide +kernel
theorem test_aand_aor_axchg : runs (.aand z ⟨false, 6, 2, 0, 4, 4⟩) (mem1 [(6, 0xFF)]) (fun t => t.rd 0x1004 4 == 0x44) &&
    runs (.aor z ⟨false, 6, 2, 0, 4, 4⟩) (mem1 [(6, 0xFF)]) (fun t => t.rd 0x1004 4 == 0x112233FF) &&
    runs (.axchg z ⟨false, 6, 2, 0, 4, 4⟩) (mem1 [(6, 5)]) (fun t => t.rd 0x1004 4 == 5 && t.g 6 == 0x11223344) = true := by
  decide +kernel
theorem test_acas : runs (.acas z ⟨false, 6, 2, 0, 4, 4⟩) (mem1 [(6, 5), (7, 0x11223344)]) (fun t => t.rd 0x1004 4 == 5) &&
    runs (.acas z ⟨false, 6, 2, 0, 4, 4⟩) (mem1 [(6, 5), (7, 5)]) (fun t => t.rd 0x1004 4 == 0x11223344 && t.g 6 == 0x11223344) = true := by
  decide +kernel
/-- 1.5 + 2.5 in F32 over an element of 0 that is first written (R179): 0 + 1.5 is 1.5. -/
theorem test_afadd : runs (.afadd z false false ⟨false, 6, 2, 0, 4, 16⟩) (mem1 [(6, 0x3FC00000)]) (fun t =>
    t.rd 0x1010 4 == 0x3FC00000 && t.g 6 == 0) = true := by decide +kernel

theorem mem1_settled (g : Regs) (pa n : Nat) : (mem1 g).settled pa n := fun _ _ _ => ⟨rfl, rfl⟩

/-- The next accesses are put off. -/
def later (s : State) : State := { s with relax := true }

/-- Two accesses of classes 7 and 3 wait to be performed. -/
def pendingLate (w1 w2 : LateWork) (s : State) : State :=
  s.modMySeq fun x => { x with late := [⟨1, 7, w1⟩, ⟨2, 3, w2⟩] }

theorem test_witness_load_value :
    (Ready (.ld z ⟨.b8, 62, 2, 7, 4088⟩) z (baseRegs 2) (mem1 []) ∧ (mem1 []).address 2 (4088 : BitVec 24) % 8 = 0 ∧
      seqXlate .load ((mem1 []).address 2 (4088 : BitVec 24)) (mem1 []) = .ok (.ok 0x1FF8) (mem1 []) ∧
      (mem1 []).prompt 7 ∧ (mem1 []).settled 0x1FF8 8 ∧
      anyPoison ((List.range 8).map fun j => (mem1 []).sees (0x1FF8 + j)) = false) ∧
    (Ready (.ldZeroExtending z ⟨.b1, 0, 2, 0, 4095⟩) z (baseRegs 2) (later (mem1 [])) ∧
      (later (mem1 [])).address 2 (4095 : BitVec 24) % 1 = 0 ∧
      seqXlate .load ((later (mem1 [])).address 2 (4095 : BitVec 24)) (later (mem1 [])) = .ok (.ok 0x1FFF) (later (mem1 [])) ∧
      (later (mem1 [])).prompt 0 ∧ (mem1 []).settled 0x1FFF 1 ∧
      anyPoison ((List.range 1).map fun j => (mem1 []).sees (0x1FFF + j)) = false) ∧
    (Ready (.ld z ⟨.b4, 6, 2, 1, 0⟩) z (baseRegs 2) (later (mem1 [])) ∧ (later (mem1 [])).defers 1 = true ∧
      seqXlate .load ((later (mem1 [])).address 2 (0 : BitVec 24)) (later (mem1 [])) = .ok (.ok 0x1000) (later (mem1 [])) ∧
      (later (mem1 [])).poisoned 0x1000 4 = false) ∧
    let s := pendingLate (.load ⟨.b1, 8, 2, 7, 0⟩ true 0x8000000000001000 0x1000 1)
      (.load ⟨.b8, 6, 2, 3, 0⟩ true 0x8000000000001000 0x1000 8) (mem1 [])
    Ready (.ld z ⟨.b4, 62, 2, 7, 0⟩) z (baseRegs 2) s ∧ s.defers 7 = false ∧ s.mySeq.behindLate 7 = true ∧
      s.lateTurn 1 3 (.load ⟨.b8, 6, 2, 3, 0⟩ true 0x8000000000001000 0x1000 8) ∧
      s.settled 0x1000 8 ∧ anyPoison ((List.range 8).map fun j => s.sees (0x1000 + j)) = false :=
  ⟨⟨rdy (by decide +kernel), by decide +kernel, okAt (by decide +kernel), by decide +kernel, mem1_settled _ _ _, by decide +kernel⟩,
    ⟨rdy (by decide +kernel), by decide +kernel, okAt (by decide +kernel), by decide +kernel, mem1_settled _ _ _, by decide +kernel⟩,
    ⟨rdy (by decide +kernel), by decide +kernel, okAt (by decide +kernel), by decide +kernel⟩,
    rdy (by decide +kernel), by decide +kernel, by decide +kernel, by decide +kernel, fun _ _ _ => ⟨rfl, rfl⟩, by decide +kernel⟩

/-- A handler's C-seq with G4:G5 = 0x8000_FF00_0900_0050, in the control space of die 0. -/
def ctl1 : State := st .C (onP [(4, 0x09000050), (5, 0x8000FF00)])

theorem test_witness_load_control_space : Ready (.ld z ⟨.b8, 6, 2, 0, 0⟩) z (baseRegs 2) ctl1 ∧
    ctl1.address 2 (0 : BitVec 24) % 8 = 0 ∧
    seqXlate .load (ctl1.address 2 (0 : BitVec 24)) ctl1 = .ok (.ctl 0 0x9000050) ctl1 ∧ (ctl1.ctlRead 0 (0x9000050 / 8 * 8)).2 = false :=
  ⟨rdy (by decide +kernel), by decide +kernel, okAt (by decide +kernel), by decide +kernel⟩

/-- 2,304 lines elsewhere: a full buffer. -/
def lines1 : List PLine := (List.range 2304).map fun i => ⟨0, 0, 0x100000 + 128 * i, [⟨0, 0, .L, 0, false⟩]⟩

/-- The core with a full buffer. -/
def full1 : State := { mem1 [] with cores := [(5, { on .L base with psb := lines1 })] }

theorem eraseDups_nodup (l : List Nat) (h : l.Nodup) : l.eraseDups = l := by
  induction l with
  | nil => rfl
  | cons a t ih =>
    rw [List.eraseDups_cons]
    rw [List.nodup_cons] at h
    rw [List.filter_eq_self.2 (by intro b hb; simp; rintro rfl; exact h.1 hb), ih h.2]

theorem full1_over (k : Core) (h : k.psb = lines1) : psbCapacity < k.psbLines.length + k.newLines [0x1000] := by
  have hl : k.psbLines = (List.range 2304).map fun i => 0x100000 + 128 * i := by
    rw [Core.psbLines, h, lines1, List.map_map]
    exact eraseDups_nodup _ (List.Nodup.map (fun a b hab => by simp at hab; omega) List.nodup_range)
  have hn : k.newLines [0x1000] = 1 := by
    have : (4096 : Nat) ∉ (List.range 2304).map fun i => 0x100000 + 128 * i := by
      simp only [List.mem_map, not_exists, not_and]; intro x _; omega
    rw [Core.newLines, hl]
    have : ((List.map (fun a => a / 128 * 128) [0x1000]).eraseDups) = [4096] := by decide
    rw [this, List.filter_cons_of_pos (by simpa using fun x _ => by omega)]; rfl
  rw [hn, hl, List.length_map, List.length_range]; decide

theorem full1_psb : full1.me.psb = lines1 := by
  simp [full1, State.me, State.core, Store.get, mem1, mapped, st]

theorem full1_late : full1.me.latePas = [] := by decide +kernel

/-- Two stores wait to be performed, the one of class 7, the other of class 3. -/
def late1 : State := pendingLate (.store 0 [(0x8000000000001000, 0x1000, 5, false)])
  (.store 0 [(0x8000000000001001, 0x1001, 6, true)]) (mem1 [])

theorem test_witness_store_buffers :
    (Ready (.st z ⟨.b8, 6, 2, 0, 4088⟩) z (baseRegs 2 ++ srcRegs true [6]) (mem1 []) ∧
      (mem1 []).address 2 (4088 : BitVec 24) % 8 = 0 ∧
      seqXlate .store ((mem1 []).address 2 (4088 : BitVec 24)) (mem1 []) = .ok (.ok 0x1FF8) (mem1 []) ∧
      (mem1 []).me.psbLines.length + (mem1 []).me.newLines (0x1FF8 :: (mem1 []).me.latePas) ≤ psbCapacity ∧
      (mem1 []).prompt 0 ∧ (later (mem1 [])).defers 7 = true) ∧
    (Ready (.st z ⟨.b4, 6, 2, 0, 0⟩) z (baseRegs 2 ++ srcRegs false [6]) full1 ∧ full1.address 2 (0 : BitVec 24) % 4 = 0 ∧
      seqXlate .store 0x8000000000001000 full1 = .ok (.ok 0x1000) full1 ∧ full1.mySeq.behindLate 0 = false ∧
      ¬ full1.me.psbLines.length + full1.me.newLines (0x1000 :: full1.me.latePas) ≤ psbCapacity) ∧
    (Ready (.st z ⟨.b4, 6, 2, 7, 0⟩) z (baseRegs 2 ++ srcRegs false [6]) late1 ∧ late1.defers 7 = false ∧
      late1.mySeq.behindLate 7 = true ∧ late1.lateTurn 1 3 (.store 0 [(0x8000000000001001, 0x1001, 6, true)])) ∧
    (∀ z4, z4 = MSize.b8 ∨ z4 = .b1 → Ready (.st z ⟨z4, 6, 2, 0, 0⟩) z (baseRegs 2 ++ srcRegs (z4 == .b8) [6]) ctl1) ∧
    seqXlate .store (ctl1.address 2 (0 : BitVec 24)) ctl1 = .ok (.ctl 0 0x9000050) ctl1 ∧ ctl1.mySeq.behindLate 0 = false :=
  ⟨⟨rdy (by decide +kernel), by decide +kernel, okAt (by decide +kernel), by decide +kernel, by decide +kernel, by decide +kernel⟩,
    ⟨rdy (by decide +kernel), by decide +kernel, okAt (by decide +kernel), by decide +kernel,
      full1_late ▸ Nat.not_le.2 (full1_over _ full1_psb)⟩,
    ⟨rdy (by decide +kernel), by decide +kernel, by decide +kernel, by decide +kernel⟩,
    by rintro _ (rfl | rfl) <;> exact rdy (by decide +kernel), okAt (by decide +kernel), by decide +kernel⟩

/-- Two atomics wait to be performed, the one of class 7, the other of class 3. -/
def late2 (i : Instr) (pa x : Nat) : State := pendingLate (.atomic (.aadd z ⟨false, 8, 2, 7, 4, 0⟩) 0x8000000000001000 0x1000 1 0)
  (.atomic i (0x8000000000000000 + pa) pa x 0) (mem1 [])

theorem test_witness_atomic_results :
    (atomFields (.acas z ⟨true, 6, 2, 0, 11, 4088⟩) = some (z, ⟨true, 6, 2, 0, 11, 4088⟩, true) ∧
      Ready (.acas z ⟨true, 6, 2, 0, 11, 4088⟩) z (baseRegs 2 ++ srcRegs true [6, 8]) (mem1 []) ∧
      (mem1 []).address 2 (4088 : BitVec 19) % 8 = 0 ∧
      seqXlate .atomic ((mem1 []).address 2 (4088 : BitVec 19)) (mem1 []) = .ok (.ok 0x1FF8) (mem1 []) ∧
      (0x1FF8 < hostBase ∨ 11 < 10 ∨ pcieAtomic (.acas z ⟨true, 6, 2, 0, 11, 4088⟩) = true) ∧ (mem1 []).poisoned 0x1FF8 8 = false ∧
      (mem1 []).prompt 0) ∧
    (atomFields (.amin z ⟨false, 0, 2, 7, 0, 4⟩) = some (z, ⟨false, 0, 2, 7, 0, 4⟩, false) ∧
      Ready (.amin z ⟨false, 0, 2, 7, 0, 4⟩) z (baseRegs 2 ++ srcRegs false [0]) (later (mem1 [])) ∧
      (later (mem1 [])).address 2 (4 : BitVec 19) % 4 = 0 ∧
      seqXlate .atomic ((later (mem1 [])).address 2 (4 : BitVec 19)) (later (mem1 [])) = .ok (.ok 0x1004) (later (mem1 [])) ∧
      (later (mem1 [])).poisoned 0x1004 4 = false ∧ (later (mem1 [])).defers 7 = true) ∧
    let i := Instr.amin z ⟨false, 6, 2, 3, 0, 4⟩
    ((late2 i 0x1004 5).lateTurn 1 3 (.atomic i 0x8000000000001004 0x1004 5 0) ∧ (late2 i 0x1004 5).poisoned 0x1004 4 = false ∧
      5 < 256 ^ 4 ∧ 0 < 256 ^ 4 ∧ (late2 i 0x1004 5).mySeq.behindLate 7 = true ∧ (late2 i 0x1004 5).defers 7 = false) :=
  ⟨⟨rfl, rdy (by decide +kernel), by decide +kernel, okAt (by decide +kernel), .inl (by decide), by decide +kernel, by decide +kernel⟩,
    ⟨rfl, rdy (by decide +kernel), by decide +kernel, okAt (by decide +kernel), by decide +kernel, by decide +kernel⟩,
    by decide +kernel⟩

theorem test_witness_atomic_float_add :
    (Ready (.afadd z true true ⟨false, 6, 2, 0, 11, 4⟩) z (baseRegs 2 ++ [6]) (mem1 []) ∧ (mem1 []).address 2 (4 : BitVec 19) % 2 = 0 ∧
      seqXlate .atomic ((mem1 []).address 2 (4 : BitVec 19)) (mem1 []) = .ok (.ok 0x1004) (mem1 []) ∧ 0x1004 < hostBase ∧
      (mem1 []).poisoned 0x1004 2 = false ∧ (mem1 []).prompt 0) ∧
    (Ready (.afadd z false false ⟨false, 6, 2, 7, 0, 4⟩) z (baseRegs 2 ++ [6]) (later (mem1 [])) ∧
      seqXlate .atomic ((later (mem1 [])).address 2 (4 : BitVec 19)) (later (mem1 [])) = .ok (.ok 0x1004) (later (mem1 [])) ∧
      (later (mem1 [])).defers 7 = true) ∧
    let i := Instr.afadd z true true ⟨false, 6, 2, 3, 0, 4⟩
    ((late2 i 0x1004 5).lateTurn 1 3 (.atomic i 0x8000000000001004 0x1004 5 0) ∧ (late2 i 0x1004 5).poisoned 0x1004 2 = false) :=
  ⟨⟨rdy (by decide +kernel), by decide +kernel, okAt (by decide +kernel), by decide, by decide +kernel, by decide +kernel⟩,
    ⟨rdy (by decide +kernel), okAt (by decide +kernel), by decide +kernel⟩, by decide +kernel⟩

/-- For each way in which an access fails to reach memory, a state: a misaligned address; no page; a page without the right, in the core's
cache; a walk that meets a poisoned entry; a page that is not resident and one that migrates; a host page not answered yet; an
atomic to control space. -/
def acc1 (off : BitVec 24) : Instr := .ld z ⟨.b4, 6, 2, 0, off⟩
def noRight : State := { mem1 [] with tlb := [⟨5, 0, 0x8000000000001000, 4096, 0x1000, false, false, true, true, true, 0x8000000000001, 0⟩] }
def hostAt : State := st .L (on .L [(4, 0x1000)])
/-- Context 0 valid with the host enabled; no answer yet. -/
def hostAsk : State := { hostAt with mem := [(0x0A, 0x30)] }
/-- Context 0 valid, its root table at 0x20000 poisoned. -/
def walkPoison : State := { st .L (on .L base) with mem := [(2, 0x02), (0x0A, 0x20)], poison := [(0x4000, true)] }
/-- Tables at 0x20000, 0x21000, 0x22000 and 0x23000, whose leaf for the page is `leaf`. -/
def walkTo (leaf : Byte) : State := { st .L (on .L base) with
  mem := [(2, 0x02), (0x0A, 0x20), (0x20000, 0x01), (0x20002, 0x21), (0x21000, 0x01), (0x21002, 0x22), (0x22000, 0x01),
    (0x22002, 0x23), (0x23008, leaf), (0x2300A, 0x24)] }

/-- Ready, aligned, and its translation gives `x`. -/
def fails (i : Instr) (srcs : List Nat) (acc : Acc) (a n : Nat) (x : Xlat) (s : State) : Prop :=
  memAccess i s = some (srcs, acc, a, n) ∧ decodeTrap i s = none ∧ Ready i (ctlOf i) srcs s ∧ a % n = 0 ∧
    ∃ s1, seqXlate acc a s = .ok x s1

theorem fails_of {i : Instr} {srcs : List Nat} {acc : Acc} {a n : Nat} {x : Xlat} {s : State}
    (h : decide (memAccess i s = some (srcs, acc, a, n)) && decide (decodeTrap i s = none) && readyB i (ctlOf i) srcs s &&
      decide (a % n = 0) && yields (seqXlate acc a s) x = true) : fails i srcs acc a n x s := by
  simp only [Bool.and_eq_true, decide_eq_true_eq] at h
  obtain ⟨⟨⟨⟨h1, h2⟩, h3⟩, h4⟩, h5⟩ := h
  exact ⟨h1, h2, rdy h3, h4, okEx h5⟩

theorem test_witness_memory_access_traps :
    (memAccess (.ld z ⟨.b4, 6, 2, 0, 2⟩) (mem1 []) = some (baseRegs 2, .load, 0x8000000000001002, 4) ∧
      decodeTrap (.ld z ⟨.b4, 6, 2, 0, 2⟩) (mem1 []) = none ∧ Ready (.ld z ⟨.b4, 6, 2, 0, 2⟩) z (baseRegs 2) (mem1 []) ∧
      0x8000000000001002 % 4 ≠ 0) ∧
    fails (.ld z ⟨.b4, 6, 2, 0, 4096⟩) (baseRegs 2) .load 0x8000000000002000 4 .notmap (mem1 []) ∧
    fails (acc1 0) (baseRegs 2) .load 0x8000000000001000 4 .perm noRight ∧
    fails (.st z ⟨.b4, 6, 2, 0, 0⟩) (baseRegs 2 ++ [6]) .store 0x8000000000001000 4 .nonres (walkTo 0x2F) ∧
    fails (acc1 0) (baseRegs 2) .load 0x8000000000001000 4 .nonres (walkTo 0x2F) ∧
    fails (acc1 0) (baseRegs 2) .load 0x8000000000001000 4 .poison walkPoison ∧
    fails (.st z ⟨.b4, 6, 2, 0, 0⟩) (baseRegs 2 ++ [6]) .store 0x8000000000001000 4 .mig (walkTo 0xEF) ∧
    fails (acc1 0) (baseRegs 2) .load 0x1000 4 .pend hostAsk ∧
    fails (.aadd z ⟨true, 6, 2, 0, 4, 0⟩) (baseRegs 2 ++ [6, 7]) .atomic 0x8000FF0009000050 8 (.ctl 0 0x9000050) ctl1 :=
  ⟨⟨by decide +kernel, by decide +kernel, rdy (by decide +kernel), by decide +kernel⟩, fails_of (by decide +kernel),
    fails_of (by decide +kernel), fails_of (by decide +kernel), fails_of (by decide +kernel), fails_of (by decide +kernel),
    fails_of (by decide +kernel), fails_of (by decide +kernel), fails_of (by decide +kernel)⟩

/-! Vectors and predicates (R89, R355 to R385). -/

/-- The X-seq with V2 = 0x8000_0000, 2, 0, … and V3 = 0xFFFF_FFFF, 3, 0, …; V4 = 1.5, −2.0 and V5 = 2.5, 3.0 in F32; P2 holds bit 0,
P3 bits 0 and 1; G6 = 1, G8 = 5. -/
def vx : Core := { on .X ([(6, 1), (8, 5)]) with
  v := [(2, [0x80000000, 2]), (3, [0xFFFFFFFF, 3]), (4, [0x3FC00000, 0xC0000000]), (5, [0x40200000, 0x40400000])],
  p := [(2, 1), (3, 3)] }
def vs : State := st .X vx
/-- Element p of V1 after `i`. -/
def lane (i : Instr) (p : Nat) (v : Word) : Bool := runs i vs fun t => (t.me.vget 1).getD p 7 == v
def v3 (t : Ty) (a b : Nat) : VF := ⟨t, ⟨1, false⟩, ⟨a, false⟩, ⟨b, false⟩, ⟨0, false⟩⟩
def v2 (t : Ty) (a : Nat) : VF2 := ⟨t, ⟨1, false⟩, ⟨a, false⟩, ⟨0, false⟩⟩

theorem test_vadd : lane (.vadd z .rne false (v3 .i32 2 3)) 0 0x7FFFFFFF && lane (.vadd z .rne false (v3 .f32 4 5)) 0 0x40800000 = true := by
  decide +kernel
theorem test_vadd_saturates : lane (.vadd z .rne true (v3 .i32 2 3)) 0 0x80000000 = true := by decide +kernel
theorem test_vsub_vmul : lane (.vsub z .rne false (v3 .f32 4 5)) 0 0xBF800000 && lane (.vmul z .rne false (v3 .f32 4 5)) 1 0xC0C00000 = true := by
  decide +kernel
theorem test_vfma : lane (.vfma z .rne (v3 .f32 4 5) ⟨4, false⟩) 0 0x40A80000 = true := by decide +kernel
theorem test_vmin_vmax : lane (.vmin z (v3 .f32 4 5)) 1 0xC0000000 && lane (.vmax z (v3 .n32 2 3)) 0 0xFFFFFFFF = true := by decide +kernel
theorem test_vabs_vneg : lane (.vabs z .rne false (v2 .f32 4)) 1 0x40000000 && lane (.vneg z .rne true (v2 .i32 2)) 0 0x7FFFFFFF = true := by
  decide +kernel
theorem test_vand_vor_vxor : lane (.vand z (v3 .b32 2 3)) 1 2 && lane (.vor z (v3 .b32 4 5)) 0 0x7FE00000 &&
    lane (.vxor z (v3 .b32 2 3)) 1 1 = true := by decide +kernel
theorem test_vshifts : lane (.vshl z (v3 .i32 2 3)) 1 16 && lane (.vshr z (v3 .i32 2 3)) 0 1 &&
    lane (.vsra z (v3 .i32 2 3)) 0 0xFFFFFFFF = true := by decide +kernel
theorem test_vcmp : runs (.vcmp z .lt (v3 .i32 2 3)) vs (fun t => t.me.pget 1 == 3) = true := by decide +kernel
theorem test_vsel : lane (.vsel z { v3 .i32 2 3 with pr := ⟨2, false⟩ }) 0 0x80000000 &&
    lane (.vsel z { v3 .i32 2 3 with pr := ⟨2, false⟩ }) 1 3 = true := by decide +kernel
theorem test_vcvt : lane (.vcvt z .i32 .rne (v2 .f32 4)) 0 2 && lane (.vcvt z .bf16 .rtz (v2 .f32 4)) 1 0xC000 = true := by decide +kernel
theorem test_vmov_governed : lane (.vmov z { v2 .i32 2 with pr := ⟨2, false⟩ }) 1 0 && lane (.vmov z (v2 .i8 3)) 0 0xFFFFFFFF = true := by
  decide +kernel
theorem test_vmovi : lane (.vmovi z .f32 1 0x3FC000) 1023 0x3FC00000 && lane (.vmovi z .i32 1 (-1)) 0 0xFFFFFFFF = true := by decide +kernel
theorem test_vget_vput : runs (.vget z .i32 3 ⟨2, false⟩ 6) vs (fun t => t.g 3 == 2) &&
    runs (.vput z .i32 8 ⟨1, false⟩ 6) vs (fun t => (t.me.vget 1).getD 1 0 == 5) = true := by decide +kernel
/-- Exact results (R375): 2^0, 1 ÷ 2, tanh 0 and erf 0. -/
theorem test_transcendental : lane (.vexp z (v2 .f32 6)) 0 0x3F800000 && lane (.vrcp z (v2 .f32 4)) 1 0xBF000000 &&
    lane (.vtanh z (v2 .f32 6)) 0 0 && lane (.verf z (v2 .f32 6)) 0 0 = true := by decide +kernel
theorem test_rotations : lane (.vrrot z 1 (v2 .i32 2)) 960 0x80000000 && lane (.vcrot z 1 (v2 .i32 2)) 63 0x80000000 = true := by
  decide +kernel
theorem test_broadcasts : lane (.vrbc z 0 (v2 .i32 2)) 193 2 && lane (.vcbc z 1 (v2 .i32 2)) 5 2 = true := by decide +kernel
theorem test_reductions : lane (.vrred z .add (v2 .i32 2)) 961 2 && lane (.vcred z .max (v2 .i32 2)) 9 2 = true := by decide +kernel
theorem test_vtrn16 : lane (.vtrn16 z (v2 .i32 2)) 64 2 = true := by decide +kernel
theorem test_vamax : lane (.vamax z .row (v2 .f32 4)) 3 0x40000000 && lane (.vamax z .blk (v2 .f32 4)) 32 0 = true := by decide +kernel
/-- 1.5 ÷ 2.5 = 0.6, which rounds to 0.625, 0x32 in E4M3; the pattern 0x38 is 1.0. -/
theorem test_vqnt : lane (.vqnt z 5 .rne (v3 .f32 4 5)) 0 0x32 = true := by decide +kernel
theorem test_predicates : runs (.pand z ⟨1, false⟩ ⟨2, false⟩ ⟨3, false⟩ ⟨0, false⟩) vs (fun t => t.me.pget 1 == 1) &&
    runs (.por z ⟨1, false⟩ ⟨2, false⟩ ⟨3, false⟩ ⟨0, false⟩) vs (fun t => t.me.pget 1 == 3) &&
    runs (.pnot z ⟨3, false⟩ ⟨2, false⟩ ⟨3, false⟩) vs (fun t => t.me.pget 3 == 2) = true := by decide +kernel

theorem test_witness_vector_lanewise :
    ((∃ r, vecRow (.vadd z .sr false (v3 .bf16 4 5)) = some r ∧ r.c = z) ∧ Ready (.vadd z .sr false (v3 .bf16 4 5)) z [] vs) ∧
    ((∃ r, vecRow (.vmul z .rne true (v3 .i64 2 3)) = some r ∧ r.c = z) ∧ Ready (.vmul z .rne true (v3 .i64 2 3)) z [] vs) ∧
    ((∃ r, vecRow (.vrsq z ⟨.f16, ⟨31, true⟩, ⟨16, true⟩, ⟨15, true⟩⟩) = some r ∧ r.c = z) ∧
      Ready (.vrsq z ⟨.f16, ⟨31, true⟩, ⟨16, true⟩, ⟨15, true⟩⟩) z [] vs) :=
  ⟨⟨⟨_, rfl, rfl⟩, rdy (by decide +kernel)⟩, ⟨⟨_, rfl, rfl⟩, rdy (by decide +kernel)⟩, ⟨_, rfl, rfl⟩, rdy (by decide +kernel)⟩

theorem test_witness_vector_convert : Ready (.vcvt z .i64 .sr (v2 .f32 4)) z [] vs ∧
    (Ready (.vqnt z 23 .sr (v3 .f32 4 5)) z [] vs ∧ 23 < 24) ∧ (Ready (.vdqnt z 23 (v3 .bf16 4 5)) z [] vs ∧ 23 < 24) ∧
    (24 ≤ 24 ∧ accepts vs.curSeq (encode (.vqnt z 24 .rne (v3 .f32 4 5))) = true ∧
      accepts vs.curSeq (encode (.vdqnt z 24 (v3 .f32 4 5))) = true) :=
  ⟨rdy (by decide +kernel), ⟨rdy (by decide +kernel), by decide⟩, ⟨rdy (by decide +kernel), by decide⟩, by decide +kernel⟩

theorem test_witness_vector_compare_select : Ready (.vcmp z .un (v3 .f16 4 5)) z [] vs ∧
    Ready (.vsel z { v3 .i64 2 3 with pr := ⟨2, false⟩ }) z [] vs ∧ Ready (.vmovi z .b32 31 0x800000) z [] vs :=
  ⟨rdy (by decide +kernel), rdy (by decide +kernel), rdy (by decide +kernel)⟩

def vsHurt : State := st .X { vx with vPoison := [(2, 2)] }

theorem test_witness_vector_element_moves :
    (Ready (.vget z .i64 62 ⟨2, false⟩ 8) z [8] vs ∧
      vs.me.elemPoison true (vs.mySeq.vreg ⟨2, false⟩) (laneOf true ((vs.g 8).toNat % 1024)) = false) ∧
    (Ready (.vget z .i32 3 ⟨2, false⟩ 6) z [6] vsHurt ∧
      vsHurt.me.elemPoison false (vsHurt.mySeq.vreg ⟨2, false⟩) (laneOf false ((vsHurt.g 6).toNat % 1024)) = true) ∧
    Ready (.vput z .n64 8 ⟨1, false⟩ 6) z (srcRegs true [8] ++ [6]) vs :=
  ⟨⟨rdy (by decide +kernel), by decide +kernel⟩, ⟨rdy (by decide +kernel), by decide +kernel⟩, rdy (by decide +kernel)⟩

theorem test_witness_vector_axis_moves :
    ((∃ f g, moveRow (.vcbc z 31 (v2 .i64 2)) = some (z, f, g)) ∧ (Instr.vcbc z 31 (v2 .i64 2)).wellFormed = true ∧
      Ready (.vcbc z 31 (v2 .i64 2)) z [] vs) ∧
    ((∃ f g, moveRow (.vrrot z 15 (v2 .i8 2)) = some (z, f, g)) ∧ (Instr.vrrot z 15 (v2 .i8 2)).wellFormed = true ∧
      Ready (.vrrot z 15 (v2 .i8 2)) z [] vs) ∧
    ((∃ f g, moveRow (.vtrn16 z (v2 .f32 2)) = some (z, f, g)) ∧ (Instr.vtrn16 z (v2 .f32 2)).wellFormed = true ∧
      Ready (.vtrn16 z (v2 .f32 2)) z [] vs) :=
  ⟨⟨⟨_, _, rfl⟩, by decide +kernel, rdy (by decide +kernel)⟩, ⟨⟨_, _, rfl⟩, by decide +kernel, rdy (by decide +kernel)⟩,
    ⟨_, _, rfl⟩, by decide +kernel, rdy (by decide +kernel)⟩

theorem test_witness_vector_reductions : Ready (.vrred z .add (v2 .i64 2)) z [] vs ∧ Ready (.vcred z .min (v2 .f16 4)) z [] vs ∧
    (Ready (.vamax z .all (v2 .bf16 4)) z [] vs ∧ (v2 .bf16 4).ty.isFloat = true) :=
  ⟨rdy (by decide +kernel), rdy (by decide +kernel), rdy (by decide +kernel), rfl⟩

theorem test_witness_vector_optimiser :
    Ready (.voptw z true 7 ⟨.bf16, ⟨1, false⟩, ⟨2, false⟩, ⟨3, false⟩, ⟨0, false⟩⟩ ⟨4, false⟩) z ((List.range 8).map (8 * 7 + ·)) vs :=
  rdy (by decide +kernel)

theorem test_witness_predicate_results : Ready (.pand z ⟨15, true⟩ ⟨2, false⟩ ⟨3, false⟩ ⟨0, false⟩) z [] vs ∧
    Ready (.por z ⟨0, false⟩ ⟨2, false⟩ ⟨3, false⟩ ⟨2, false⟩) z [] vs ∧ Ready (.pnot z ⟨1, false⟩ ⟨2, false⟩ ⟨3, false⟩) z [] vs ∧
    (Ready (.pset z ⟨1, false⟩ 15 ⟨0, false⟩) z [] vs ∧ (vs.me.stream 15).own ≠ vs.curSeq) ∧
    (Ready (.pset z ⟨1, false⟩ 0 ⟨0, false⟩) z [] (st .X { vx with streams := [(0, [0, 4])] }) ∧
      ((st .X { vx with streams := [(0, [0, 4])] }).me.stream 0).own = .X) :=
  ⟨rdy (by decide +kernel), rdy (by decide +kernel), rdy (by decide +kernel), ⟨rdy (by decide +kernel), by decide +kernel⟩,
    rdy (by decide +kernel), by decide +kernel⟩

/-- The same with the mapped page at G4:G5, row pitch G6 = 0x100, and P3 governing. -/
def vmS : State := mapped (st .X { vx with x := { vx.x with g := [(4, 0x1000), (5, 0x80000000), (6, 0x100)] } })
def vg (t : Ty) : VMemF := ⟨t, ⟨1, false⟩, 2, 0, ⟨3, false⟩⟩

theorem test_vld_vst : runs (.vld z (vg .f32)) { vmS with mem := vmS.mem ++ [(0x1004, 0x80)] } (fun t => (t.me.vget 1).getD 1 0 == 0x80) &&
    runs (.vst z { vg .i32 with vd := ⟨3, false⟩ }) vmS (fun t => (t.me.buffered 0x1004).map (·.val) == some 3 && t.me.buffered 0x1008 == none) = true := by
  decide +kernel

/-- The translations of a vector access and whether all stand in the buffer's room. -/
def vxl (acc : Acc) (m : Bool) (f : VMemF) (s : State) : EStateM.Result Exc State (List (VElem × Xlat)) :=
  vecXlate acc m (vecElems f.ty (s.pair (2 * f.b)).toNat (s.rowPitch f.ty f.b m) (s.me.pget (s.mySeq.preg f.pr))) s

theorem okOf {α : Type} {r : EStateM.Result Exc State α} (h : (match r with | .ok .. => true | .error .. => false) = true) :
    ∃ a s, r = .ok a s := by
  cases r with
  | ok a s => exact ⟨a, s, rfl⟩
  | error => simp at h

theorem test_witness_vector_loads : (Ready (.vld z (vg .i64)) z (baseRegs 2 ++ []) vmS ∧ ∃ l s1, vxl .load false (vg .i64) vmS = .ok l s1) ∧
    (Ready (.vldm z 15 (vg .bf16)) z (baseRegs 2 ++ [6]) vmS ∧ ∃ l s1, vxl .load true (vg .bf16) vmS = .ok l s1) :=
  ⟨⟨rdy (by decide +kernel), okOf (by decide +kernel)⟩, rdy (by decide +kernel), okOf (by decide +kernel)⟩

theorem test_witness_vector_stores :
    (Ready (.vst z (vg .i64)) z (baseRegs 2 ++ []) vmS ∧ ∃ l s1, vxl .store false (vg .i64) vmS = .ok l s1) ∧
    (Ready (.vstm z (vg .i8)) z (baseRegs 2 ++ [6]) vmS ∧ ∃ l s1, vxl .store false (vg .i8) vmS = .ok l s1) ∧
    vmS.me.psbLines.length + vmS.me.newLines ((okElems (valOf [] (vxl .store false (vg .i64) vmS))).map (·.2)) ≤ psbCapacity :=
  ⟨⟨rdy (by decide +kernel), okOf (by decide +kernel)⟩, ⟨rdy (by decide +kernel), okOf (by decide +kernel)⟩, by decide +kernel⟩

/-! Decoding, stepping, issuing, trapping (R22 to R24, R77 to R79, R103, R269 to R277). -/

theorem test_witness_encode_decode_agree :
    (Instr.isEvent (.acas ⟨7, 0, 3, 31⟩ ⟨true, 58, 31, 7, 15, 0x40000⟩) = false ∧
      Instr.wellFormed (.acas ⟨7, 0, 3, 31⟩ ⟨true, 58, 31, 7, 15, 0x40000⟩) = true) ∧
    (0x00004E1844000402 < 2 ^ 64 ∧ decode 0x00004E1844000402 = .ok (.vcmp z .lt ⟨.f32, ⟨3, false⟩, ⟨1, false⟩, ⟨2, false⟩, ⟨0, false⟩⟩)) := by
  decide +kernel

/-- What one step from reset with a word placed gives. -/
def steps (w : Nat) (p : State → Bool) : Bool :=
  match step (State.reset.withFetchWord 64 w) with
  | .next t => p t
  | _ => false

/-- MOVI G3, 0x38; BR four words on; a reserved opcode. -/
theorem test_step : steps 0x0000110C00000038 (fun t => t.g 3 == 0x38 && t.mySeq.pc == 0x8000000000001008) &&
    steps 0x0000200000000004 (fun t => t.mySeq.pc == 0x8000000000001020) &&
    steps 0x0000160000000000 (fun t => t.me.cause.toNat == 0xC1 && t.me.eva == 0x160000000000 && t.me.nest == 1) = true := by
  decide +kernel

/-- The placed state with its turn taken, and what the fetch gives. -/
def placed (w : Nat) : State := State.reset.withFetchWord 64 w
def placed1 (w : Nat) : State := { placed w with turns := [], cur := 0, curSeq := .C, rank := 4 }

def beginsB (s : State) (a : Act) (u : State) : Bool :=
  let (t, v) := s.nextTurn
  decide (t.act = a) && (v.evalBefore t).isNone && (decide (v.turnDt t ≤ 1) || !v.anyDue) && (v.pass (v.turnDt t)).overdue.isNone &&
    decide (u = (v.pass (v.turnDt t)).startTurn t)

def runNow (w : Nat) (k : Decoded) : Bool :=
  beginsB (placed w) (.issue 0 .C) { placed1 w with cur := (placed w).cur, curSeq := (placed w).curSeq } && (placed1 w).turnKind 0 .C == .run &&
    (placed1 w).mySeq.wait.isNone && (placed1 w).mySeq.pc.toNat % 8 == 0 && ends (seqXlate .fetch (placed1 w).mySeq.pc.toNat (placed1 w)) (.ok 0x1000) (placed1 w) &&
    !(placed1 w).poisoned 0x1000 8 && (pubsOf (0x1000 / 8) ((placed1 w).fetchBound 0x1000) (placed1 w).npub (placed1 w).pubs).isEmpty &&
    decide (decode ((placed1 w).rd 0x1000 8) = k)

def waiting : State := { (placed 0).modCore 0 (fun k => k.modSeq .C fun x => { x with wait := some ⟨.nop z, 0, false, false, 0⟩ }) with cur := 0, curSeq := .C }
def skewed : State := { (placed 0).modCore 0 (fun k => k.modSeq .C fun x => { x with pc := 0x1004 }) with cur := 0, curSeq := .C }

/-- The one turn to come does `a`. -/
def turnOf (dt : Nat) (a : Act) : State := { turns := [⟨dt, a, true⟩] }

/-- A stage of die 0 that is to be evaluated, and a reduction of die 1 whose time has been over since clock 10. -/
def dueStage : State := { turnOf 2 (.event (.frameAgingTick 0)) with
  dies := [(0, { stages := [(3, { state := 2, due := true })] })] }
/-- All stages up to it have been evaluated in this clock. -/
def stageDone : State := { dueStage with evaluated := 4 }
def overdueGroup : State := { turnOf 1 (.event (.frameAgingTick 0)) with clock := 10, dies := [(1, { groups := [(5, { state := 1, count := 2, timeout := 1, since := 0 })] })] }

theorem test_witness_step_runs_instruction :
    runNow 0x0000110C00000038 (.ok (.movi z 3 0x38)) = true ∧ runNow 0x0000160000000000 .undefOp = true ∧
    runNow 0x0000010C41400002 .undefField = true ∧
    (waiting.turnKind 0 .C = .run ∧ waiting.mySeq.wait = some ⟨.nop z, 0, false, false, 0⟩) ∧
    (skewed.turnKind 0 .C = .run ∧ skewed.mySeq.wait = none ∧ skewed.mySeq.pc.toNat % 8 ≠ 0) ∧
    beginsB (turnOf 1 (.event (.frameAgingTick 0))) (.event (.frameAgingTick 0)) { clock := 1, relax := true } = true ∧
    Instr.isEvent (.frameAgingTick 0) = true ∧ Instr.wellFormed (.frameAgingTick 0) = true ∧
    beginsB (turnOf 0 (.perform 3 .L 0)) (.perform 3 .L 0) { relax := true } = true ∧
    beginsB (turnOf 0 (.publish 4)) (.publish 4) { relax := true } = true ∧
    beginsB (turnOf 0 (.hostWrite 1 8 2 true)) (.hostWrite 1 8 2 true) { relax := true } = true ∧
    (dueStage.nextTurn.2.evalBefore dueStage.nextTurn.1 = some (.stageEvaluation 0 3)) ∧
    (stageDone.nextTurn.2.evalBefore stageDone.nextTurn.1 = none ∧ stageDone.nextTurn.2.turnDt stageDone.nextTurn.1 = 2 ∧
      stageDone.nextTurn.2.anyDue = true) ∧
    (overdueGroup.nextTurn.2.evalBefore overdueGroup.nextTurn.1 = none ∧ overdueGroup.nextTurn.2.turnDt overdueGroup.nextTurn.1 = 1 ∧
      (overdueGroup.nextTurn.2.pass 1).overdue = none ∧
      ({ overdueGroup with clock := 1749 }.nextTurn.2.pass 1).overdue = some (1, 5)) := by
  decide +kernel

theorem test_witness_step_keeps_memory_canonical : (placed 0x0000110C00000038).memWf = true ∧
    ∃ t, step (placed 0x0000110C00000038) = .next t := by
  refine ⟨by decide +kernel, ?_⟩
  have h : steps 0x0000110C00000038 (fun _ => true) = true := by decide +kernel
  unfold steps at h
  change (match step (placed 0x0000110C00000038) with | .next t => true | _ => false) = true at h
  revert h
  cases step (placed 0x0000110C00000038) with
  | next t => exact fun _ => ⟨t, rfl⟩
  | fault => exact fun h => by simp at h
  | refused => exact fun h => by simp at h

theorem test_witness_issue_checks :
    (Instr.isEvent (.vmov z (v2 .i32 2)) = false ∧ accepts sc.curSeq (encode (.vmov z (v2 .i32 2))) = false) ∧
    (accepts sc.curSeq (encode (.eret z)) = true ∧ decodeTrap (.eret z) sc = some (cPRIV, encode (.eret z))) ∧
    (accepts sc.curSeq (encode (.aadd z ⟨false, 3, 2, 0, 15, 0⟩)) = true ∧
      decodeTrap (.aadd z ⟨false, 3, 2, 0, 15, 0⟩) sc = some (cSCOPE, 15)) ∧
    (accepts sc.curSeq (encode (.nop ⟨1, 1, 0, 0⟩)) = true ∧ decodeTrap (.nop ⟨1, 1, 0, 0⟩) sc = none ∧
      waitQueue sc.curSeq ⟨1, 1, 0, 0⟩ = some 2 ∧ sc.me.tok 2 < 1) := by
  decide +kernel

/-- A MOVI-fed engine result still to come for G3; a poisoned G6; 63 tokens on the queue from C to L. -/
def pendRd : State := { sc with cmds := [{
  id := 0, kind := .coll, op := 0x98, core := 5, seq := .C, ctr := 0, g0 := 0, g1 := 0, g2 := 0, g3 := 0, ctx := 0, priv := false, acq := false,
  rel := false, scope := 0, buf := 0, rd := 3, block := none, since := 0 }] }
def hurtG : State := st .C { sc.me with c := { sc.me.c with gPoison := 64 } }
def fullTok : State := st .C { sc.me with tokq := [(9, 63)] }
def twoTok : State := st .C { sc.me with tokq := [(2, 2), (9, 60)] }

theorem test_tokens : runs (.nop ⟨1, 2, 1, 3⟩) twoTok (fun t => t.me.tok 2 == 0 && t.me.tok 9 == 63) &&
    traps (.nop ⟨0, 0, 1, 1⟩) fullTok cTOKOV 0x21 && traps (.add z false 3 6 7) hurtG cECC 0xFFFF0000000000C6 = true := by
  decide +kernel

theorem test_witness_tokens_and_overflow :
    ((∃ w rd ra rb, binFields (.add z false 3 6 7) = some (z, w, rd, ra, rb) ∧ [6, 7] = srcRegs w [ra, rb]) ∧
      z.ok = true ∧ accepts pendRd.curSeq (encode (.add z false 3 6 7)) = true ∧ waitMet z pendRd = true ∧
      rdBlocked (.add z false 3 6 7) [6, 7] pendRd = true) ∧
    (accepts hurtG.curSeq (encode (.add z false 3 6 7)) = true ∧ waitMet z hurtG = true ∧
      rdBlocked (.add z false 3 6 7) [6, 7] hurtG = false ∧ poisonedSrc [6, 7] hurtG = some 6) ∧
    ((⟨0, 0, 1, 1⟩ : Ctl).ok = true ∧ accepts fullTok.curSeq (encode (.nop ⟨0, 0, 1, 1⟩)) = true ∧ waitMet ⟨0, 0, 1, 1⟩ fullTok = true ∧
      rdBlocked (.nop ⟨0, 0, 1, 1⟩) [] fullTok = false ∧ poisonedSrc [] fullTok = none ∧ fullTok.me.xfersOf .C = [] ∧
      fullTok.mySeq.sigq = [] ∧ signalQueue .C ⟨0, 0, 1, 1⟩ = some 9 ∧ 63 < fullTok.me.tok 9 + 1) ∧
    ((⟨1, 2, 1, 3⟩ : Ctl).ok = true ∧ waitMet ⟨1, 2, 1, 3⟩ twoTok = true ∧ rdBlocked (.nop ⟨1, 2, 1, 3⟩) [] twoTok = false ∧
      twoTok.me.xfersOf .C = [] ∧ twoTok.mySeq.sigq = [] ∧ twoTok.me.tok 9 + 3 ≤ 63) :=
  ⟨⟨⟨_, _, _, _, rfl, rfl⟩, by decide +kernel⟩, by decide +kernel, by decide +kernel, by decide +kernel⟩

def xfer1 : Xfer := { id := 0, seq := .L, load := true, san := 0, sa := [], sb := [], tx := false, ctx := 0, priv := false, parts := [] }
def tr1 (c : Nat) (k : Core) : State := { cores := [(c, k)], dies := [(0, { trapvec := 0x4000 })], cur := c, curSeq := .C }

theorem tr1_plain (c : Nat) (k : Core) (h : k.l.wait = none ∧ k.x.wait = none ∧ k.s.wait = none ∧ k.c.wait = none) :
    (tr1 c k).plainWaits c := by
  intro q w hw
  have : (tr1 c k).core c = k := by simp [tr1, State.core, Store.get]
  rw [this] at hw
  cases q <;> simp [Core.seq, h] at hw

theorem test_trap_entry :
    runs (.trap z 42) (tr1 5 (on .C [])) (fun t => t.mySeq.pc == 0x4000 && t.me.epc == 0x1008 && t.me.eva == 42 && t.me.cause == 0xD4 &&
      t.me.c.rpc == 0x1000 && t.me.c.held && !t.me.l.held && t.me.priv) &&
    runs (.trap z 42) (tr1 5 (onP [])) (fun t => t.me.halted && (t.die 0).mail.length == 1) &&
    runs (.trap z 42) (tr1 0 (onP [])) (fun t => t.mySeq.pc == 0x4100 && t.me.nest == 2) = true := by decide +kernel

theorem test_witness_trap_entry :
    ((tr1 5 { on .C [] with xfers := [xfer1] }).plainWaits 5 ∧ ((tr1 5 { on .C [] with xfers := [xfer1] }).core 5).xfers ≠ []) ∧
    ((tr1 5 (on .C [])).plainWaits 5 ∧ ((tr1 5 (on .C [])).core 5).xfers = [] ∧ ((tr1 5 (on .C [])).core 5).nest = 0 ∧ cBREAK ≠ cPREEMPT) ∧
    ((tr1 0 (onP [])).plainWaits 0 ∧ ((tr1 0 (onP [])).core 0).xfers = [] ∧ ((tr1 0 (onP [])).core 0).nest = 1 ∧ isPostmaster 0 = true) ∧
    ((tr1 287 (onP [])).plainWaits 287 ∧ ((tr1 287 (onP [])).core 287).nest = 1 ∧ isPostmaster 287 = false) ∧
    ((tr1 0 { onP [] with nest := 2 }).plainWaits 0 ∧ 2 ≤ ((tr1 0 { onP [] with nest := 2 }).core 0).nest) :=
  ⟨⟨tr1_plain _ _ (by decide +kernel), by decide +kernel⟩, ⟨tr1_plain _ _ (by decide +kernel), by decide +kernel⟩,
    ⟨tr1_plain _ _ (by decide +kernel), by decide +kernel⟩, ⟨tr1_plain _ _ (by decide +kernel), by decide +kernel⟩,
    tr1_plain _ _ (by decide +kernel), by decide +kernel⟩

theorem test_eret : runs (.eret z) (tr1 5 { onP [] with epc := 0x2000, cause := 0xD4 }) (fun t => t.mySeq.pc == 0x2000 && t.me.nest == 0 && !t.me.priv) = true := by
  decide +kernel

theorem test_witness_return_from_trap :
    (Ready (.eret z) z [] (tr1 5 { onP [] with nest := 0 }) ∧ (tr1 5 { onP [] with nest := 0 }).me.onPriv .C = true ∧
      (tr1 5 { onP [] with nest := 0 }).me.nest = 0) ∧
    (Ready (.eret z) z [] (tr1 0 { onP [] with nest := 2 }) ∧ (tr1 0 { onP [] with nest := 2 }).me.onPriv .C = true) ∧
    (Ready (.eret z) z [] (tr1 5 (onP [])) ∧ (tr1 5 (onP [])).me.onPriv .C = true ∧ (tr1 5 (onP [])).me.nest = 1) :=
  ⟨⟨rdy (by decide +kernel), by decide +kernel⟩, ⟨rdy (by decide +kernel), by decide +kernel⟩, rdy (by decide +kernel), by decide +kernel⟩

/-- R276, R97: a set Res0 bit of TRAP, an odd pair of LOOPH. -/
theorem test_undef_trap_looph : decode 0x0000C20000010000 = .undefField ∧ decode 0x0000260C00000000 = .undefField := by
  decide +kernel

theorem test_witness_trap_instruction : Ready (.trap ⟨0, 0, 3, 31⟩ 0xFFFF) ⟨0, 0, 3, 31⟩ [] sc ∧ (⟨0, 0, 3, 31⟩ : Ctl).ok = true :=
  ⟨rdy (by decide +kernel), by decide⟩

/-! The Product Array, the accumulators and the streams (R90 to R92, R138 to R165). -/

/-- S1: the X-seq's, KIND 00b, of a format, at local address 0x1000, with a pitch of 256 bytes, SMODE and SBL in `more`. -/
def strm (fmt more : Nat) : Stream := [0x1000, BitVec.ofNat 64 (4 + 16 * fmt + more), BitVec.ofNat 64 (256 * 2 ^ 32)]
/-- A panel of a format, all its patterns 0. -/
def pan (fmt owner : Nat) : Panel := { img := [(0, 1), (1, BitVec.ofNat 8 fmt)], owner := owner }
def mx (fmt more : Nat) (ps : Store Panel) : State := st .X { on .X [(8, 64), (9, 0x3F800000), (10, 7)] with streams := [(1, strm fmt more)], panels := ps }

def readableB (x : Stream) (tr : Bool) (ni nk rows n : Nat) : Bool :=
  let b := fmtBits x.fmt
  x.kind == 0 && x.fmt < 24 && (!tr || 8 ≤ b) && (tr || x.localBit b 0 0 % 8 == 0) &&
    ((List.range ni).all fun i => (List.range nk).all fun k => x.cellBit b tr i k + b ≤ 8 * lsSize) &&
    ((List.range rows).all fun r => (List.range n).all fun j => x.scaleLoc + x.sstr * r + j < lsSize)

theorem readable_of {x : Stream} {tr : Bool} {ni nk rows n : Nat} (h : readableB x tr ni nk rows n = true) :
    x.readable tr ni nk rows n := by
  simp only [readableB, Bool.and_eq_true, Bool.or_eq_true, Bool.not_eq_true', decide_eq_true_eq, beq_iff_eq, List.all_eq_true,
    List.mem_range] at h
  obtain ⟨⟨⟨⟨⟨h1, h2⟩, h3⟩, h4⟩, h5⟩, h6⟩ := h
  refine ⟨h1, h2, fun ht => ?_, fun ht => ?_, fun i k hi hk => h5 i hi k hk, fun _ r j hr hj => h6 r hr j (lt_of_le_of_lt ?_ hj)⟩
  · rcases h3 with h3 | h3
    · rw [ht] at h3; exact absurd h3 (by decide)
    · exact h3
  · rcases h4 with h4 | h4
    · rw [ht] at h4; exact absurd h4 (by decide)
    · exact h4
  · have : 0 < x.sbl := Nat.mul_pos (by decide) (Nat.pos_of_ne_zero (by positivity))
    exact Nat.le_mul_of_pos_right _ this

theorem test_witness_panel_load :
    (Ready (.mldb z 2 0 false) z [] (mx 5 0 []) ∧ ((mx 5 0 []).me.stream 2).own ≠ (mx 5 0 []).curSeq) ∧
    (Ready (.mldb z 1 7 false) z [] (mx 5 0 [(7, pan 5 9)]) ∧ ((mx 5 0 [(7, pan 5 9)]).me.stream 1).own = .X ∧
      ((mx 5 0 [(7, pan 5 9)]).me.panel 7).owner ≠ 0) ∧
    (Ready (.mldb z 1 0 true) z [] (mx 5 0x8000 []) ∧ ((mx 5 0x8000 []).me.panel 0).owner = (mx 5 0x8000 []).me.ctx.toNat ∧
      ((mx 5 0x8000 []).me.stream 1).readable true (1536 / fmtBits 5) 64 64 (1536 / fmtBits 5)) :=
  ⟨⟨rdy (by decide +kernel), by decide +kernel⟩, ⟨rdy (by decide +kernel), by decide +kernel⟩, rdy (by decide +kernel),
    by decide +kernel, readable_of (by decide +kernel)⟩

def mxOwn : State := st .X { on .X [] with streams := [(1, strm 17 0)], panels := [(0, pan 17 0)], accOwner := [(3, 1)] }

theorem test_witness_matrix_product :
    (Ready (.mma z 2 0 0 false false false) z [] (mx 5 0 []) ∧ ((mx 5 0 []).me.stream 2).own ≠ .X) ∧
    (Ready (.mma z 1 7 0 false false false) z [] (mx 5 0 [(7, pan 5 9)]) ∧ ((mx 5 0 [(7, pan 5 9)]).me.panel 7).owner ≠ 0) ∧
    (Ready (.mma z 1 0 3 false false false) z [] mxOwn ∧ mxOwn.me.tileOwner 3 ≠ 0 ∧ (mxOwn.me.panel 0).owner = 0) ∧
    (Ready (.mma z 1 0 3 false false false) z [] (mx 5 0 []) ∧ ((mx 5 0 []).me.panel 0).fmt = none) ∧
    (((mx 5 0 [(0, pan 17 0)]).me.panel 0).fmt.isSome = true ∧ fmtIsInt ((mx 5 0 [(0, pan 17 0)]).me.stream 1).fmt ≠
      fmtIsInt ((mx 5 0 [(0, pan 17 0)]).me.panel 0).code) ∧
    (Ready (.mma z 1 0 63 false true true) z [] (mx 17 0 [(0, pan 17 0)]) ∧ fmtIsInt ((mx 17 0 [(0, pan 17 0)]).me.stream 1).fmt = true ∧
      fmtIsInt ((mx 17 0 [(0, pan 17 0)]).me.panel 0).code = true ∧ ((mx 17 0 [(0, pan 17 0)]).me.stream 1).smode = 0 ∧
      ((mx 17 0 [(0, pan 17 0)]).me.panel 0).smode = 0 ∧
      ((mx 17 0 [(0, pan 17 0)]).me.stream 1).readable false 16 (1536 / fmtBits 17) 16 (1536 / fmtBits 17)) ∧
    (Ready (.mma z 1 0 63 true false false) z [] (mx 5 0 [(0, pan 5 0)]) ∧ fmtIsInt ((mx 5 0 [(0, pan 5 0)]).me.panel 0).code = false ∧
      ((mx 5 0 [(0, pan 5 0)]).me.stream 1).readable true 16 (1536 / fmtBits 5) 16 (1536 / fmtBits 5)) :=
  ⟨⟨rdy (by decide +kernel), by decide +kernel⟩, ⟨rdy (by decide +kernel), by decide +kernel⟩, ⟨rdy (by decide +kernel), by decide +kernel⟩,
    ⟨rdy (by decide +kernel), by decide +kernel⟩, by decide +kernel,
    ⟨rdy (by decide +kernel), by decide +kernel, by decide +kernel, by decide +kernel, by decide +kernel, readable_of (by decide +kernel)⟩,
    rdy (by decide +kernel), by decide +kernel, readable_of (by decide +kernel)⟩

/-- The sampler with a budget, of a context. -/
def ms (budget owner : Nat) (b t : Word) : State :=
  st .X { on .X [(8, b), (9, t)] with streams := [(1, strm 5 0)], panels := [(0, pan 5 0)], sampler := { budget := budget, owner := owner } }

theorem test_mscfg : traps (.mscfg z 2) (ms 0 0 4097 0) cSAMPLE 4097 && traps (.mscfg z 2) (ms 0 0 1 0x80000001) cSAMPLE 0x80000001 &&
    runs (.mscfg z 2) (ms 0 0 4096 0x3F800000) (fun t => t.me.sampler.budget == 4096 && t.me.sampler.threshold == 0x3F800000) = true := by
  decide +kernel

/-- Context 0's stream S1 and panel PN0 hold zeros, so every norm is 0 and Z is 0: the last clause of the statement. -/
theorem test_witness_sampled_product :
    (Ready (.mscfg z 2) z [8, 9, 10, 11] (ms 0 3 1 0) ∧ ¬ (ms 0 3 1 0).me.sampler.owner = (ms 0 3 1 0).me.ctx.toNat) ∧
    (Ready (.mscfg z 2) z [8, 9, 10, 11] (ms 0 0 0 0) ∧ ((ms 0 0 0 0).g 8).toNat = 0) ∧
    (((ms 0 0 4097 0).g 8).toNat = 4097 ∧ 4096 < 4097) ∧
    ((fmtF32.decode ((ms 0 0 1 0x7FC00000).g 9).toNat).isNan = true ∧ (fmtF32.decode ((ms 0 0 1 0xBF800000).g 9).toNat).lt (.zero false) = true) ∧
    ((fmtF32.decode ((ms 0 0 1 0x7F800000).g 9).toNat).isNan = false ∧ (fmtF32.decode ((ms 0 0 1 0x7F800000).g 9).toNat).lt (.zero false) = false) ∧
    (Ready (.msamp z 9 1 0 2 false true) z [] (ms 1 0 0 0) ∧ ((ms 1 0 0 0).me.stream 1).own = (ms 1 0 0 0).curSeq ∧
      (ms 1 0 0 0).me.sampler.owner = 0 ∧ (ms 1 0 0 0).me.tileOwner 2 = 0 ∧
      (∀ p, p ≤ 0 → ((ms 1 0 0 0).me.panel p).owner = 0 ∧ ((ms 1 0 0 0).me.panel p).fmt.isSome = true ∧ ((ms 1 0 0 0).me.panel p).code = 5) ∧
      ((ms 1 0 0 0).me.stream 1).readable false 16 192 16 192) :=
  ⟨⟨rdy (by decide +kernel), by decide +kernel⟩, ⟨rdy (by decide +kernel), by decide +kernel⟩, by decide +kernel, by decide +kernel,
    by decide +kernel, rdy (by decide +kernel), by decide +kernel, by decide +kernel, by decide +kernel,
      fun p hp => by obtain rfl : p = 0 := by omega
                     decide +kernel,
      readable_of (by decide +kernel)⟩

def ac : State := st .X { on .X [] with
  acc := [(0, [0x3F800000, 0xC0000000])], accOwner := [(3, 1)], v := [(1, [0x38])],
  streams := [(1, strm 5 0), (2, strm 5 0x8000), (3, [0x2000, 4, BitVec.ofNat 64 (256 * 2 ^ 32)])] }

theorem test_accz_accrd_accwr : runs (.accz z 0) ac (fun t => (t.me.tile 0).getD 0 7 == 0) &&
    runs (.accrd z 0 .rne false none 2) ac (fun t => (t.me.vget 2).getD 1 0 == 0xC0000000) &&
    runs (.accrd z 0 .rne false (some 5) 2) ac (fun t => (t.me.vget 2).getD 0 0 == 0x38) &&
    runs (.accwr z 4 (some 5) 1) ac (fun t => (t.me.tile 4).getD 0 7 == 0x3F800000) = true := by decide +kernel

theorem test_witness_accumulator_moves :
    (Ready (.accz z 3) z [] ac ∧ ac.me.tileOwner 3 ≠ ac.me.ctx.toNat) ∧ (Ready (.accz z 63) z [] ac ∧ ac.me.tileOwner 63 = ac.me.ctx.toNat) ∧
    (Ready (.accrd z 3 .sr true (some 23) 31) z [] ac ∧ 23 < 24) ∧ Ready (.accrd z 0 .rne false none 0) z [] ac ∧
    (Ready (.accwr z 0 (some 23) 31) z [] ac ∧ Ready (.accwr z 3 none 1) z [] ac) ∧
    (Ready (.accld z 1 0) z [] ac ∧ Ready (.accst z 1 0) z [] ac ∧ (ac.me.stream 1).own = ac.curSeq ∧ (ac.me.stream 1).kind = 0 ∧
      256 ≤ (ac.me.stream 1).pitch ∧ ∀ p, p < 1024 → (ac.me.stream 1).localBit 32 (p / 64) (p % 64) + 32 ≤ 8 * lsSize) :=
  ⟨⟨rdy (by decide +kernel), by decide +kernel⟩, ⟨rdy (by decide +kernel), by decide +kernel⟩, ⟨rdy (by decide +kernel), by decide⟩,
    rdy (by decide +kernel), ⟨rdy (by decide +kernel), rdy (by decide +kernel)⟩, rdy (by decide +kernel), rdy (by decide +kernel),
    by decide +kernel, by decide +kernel, by decide +kernel, by decide +kernel⟩

theorem test_witness_accumulator_quantise :
    (Ready (.accq z 1 0 0 .sr none false) z [] ac ∧ (ac.me.stream 1).own = .X ∧ (ac.me.stream 1).smode = 0 ∧ ac.me.tileOwner 0 = ac.me.ctx.toNat ∧
      (ac.me.stream 1).kind = 0 ∧ (ac.me.stream 1).tr = false ∧ (ac.me.stream 1).localBit 8 0 0 % 8 = 0 ∧
      ((List.range 1024).map fun p => (((ac.me.stream 1).cellBit 8 false (p / 64) (p % 64)), 8)).all (fun e => e.1 + e.2 ≤ 8 * lsSize) = true) ∧
    (Ready (.accq z 2 3 0 .rne (some 5) true) z [] ac ∧ (ac.me.stream 2).smode = 1 ∧ (ac.me.stream 3).own = .X ∧ (ac.me.stream 3).kind = 0 ∧
      ((List.range 32).map fun h => ((ac.me.stream 3).localBit 8 (h / 2) (h % 2), 8)).all (fun e => e.1 + e.2 ≤ 8 * lsSize) = true) :=
  ⟨⟨rdy (by decide +kernel), by decide +kernel⟩, rdy (by decide +kernel), by decide +kernel⟩

/-! Streams. -/

/-- The L-seq at the mapped page with S2, KIND 00b, and S3, KIND 01b at the page, both its own. -/
def stL (g : Regs) : State :=
  let k := on .L (base ++ g)
  mapped (st .L { k with streams := [(2, [0x1000, 16 * 5, BitVec.ofNat 64 (64 * 2 ^ 32)]), (4, [0x8000000000001000, 1 + 16 * 5, BitVec.ofNat 64 (64 * 2 ^ 32)]), (5, [0, 4])] })

theorem test_strset_stradv : traps (.strset z 2 6 1) (stL [(6, 3)]) cUNDEF 0x0000810860000000 = false ∧
    runs (.strset z 2 6 3) (stL [(6, 9), (7, 8)]) (fun t => (t.me.stream 2).coord 0 == 9 && (t.me.stream 2).coord 1 == 8) = true ∧
    runs (.strset z 2 6 1) (stL [(6, 0x180)]) (fun t => t.me.cause.toNat == cFMT) = true ∧
    runs (.stradv z 2 0) (st .L { on .L [] with streams := [(2, [0, 0, 0, 5, 0, 0xFFFF])] }) (fun t => (t.me.stream 2).coord 0 == 4) = true := by
  decide +kernel

theorem test_witness_stream_registers :
    (Ready (.strcfg z 15 4 1) z [4, 5] (stL []) ∧ (((stL []).pair 4) + (1 : BitVec 24).signExtend 64).toNat % 8 ≠ 0) ∧
    (Ready (.strcfg z 15 4 0) z [4, 5] (stL []) ∧ (((stL []).pair 4) + (0 : BitVec 24).signExtend 64).toNat % 8 = 0 ∧
      ∃ ws s1, collect (List.range 11) (fun j => loadVa ((0x8000000000001000 + 8 * j) % 2 ^ 64) 8) (stL []) = .ok ws s1) ∧
    (Ready (.strset z 2 6 1) z [6, 7] (stL [(6, 3)]) ∧ Stream.undef (((stL [(6, 3)]).me.stream 2).set 1 ((stL [(6, 3)]).pair 6)) = true) ∧
    (Stream.undef (((stL [(6, 0x180)]).me.stream 2).set 1 ((stL [(6, 0x180)]).pair 6)) = false ∧
      Stream.badFmt (((stL [(6, 0x180)]).me.stream 2).set 1 ((stL [(6, 0x180)]).pair 6)) = true) ∧
    (Ready (.strset z 15 6 10) z [6, 7] (stL []) ∧ Stream.undef (((stL []).me.stream 15).set 10 ((stL []).pair 6)) = false ∧
      Stream.badFmt (((stL []).me.stream 15).set 10 ((stL []).pair 6)) = false) ∧
    (Ready (.stradv z 5 5) z [] (stL []) ∧ ((stL []).me.stream 5).own ≠ .L) ∧ (Ready (.stradv z 2 5) z [] (stL []) ∧ ((stL []).me.stream 2).own = .L) :=
  ⟨⟨rdy (by decide +kernel), by decide +kernel⟩, ⟨rdy (by decide +kernel), by decide +kernel, okOf (by decide +kernel)⟩,
    ⟨rdy (by decide +kernel), by decide +kernel⟩, by decide +kernel, ⟨rdy (by decide +kernel), by decide +kernel⟩,
    ⟨rdy (by decide +kernel), by decide +kernel⟩, rdy (by decide +kernel), by decide +kernel⟩

/-- The transfer that STRLD S4, S2 would issue. -/
def xf (s : State) : Xfer := { id := s.nextId, seq := s.curSeq, load := true, san := 4, sa := s.me.stream 4, sb := s.me.stream 2, tx := false,
                               ctx := s.me.ctx.toNat, priv := s.me.onPriv s.curSeq, parts := [] }
def busy8 : State := st .L { on .L [] with xfers := (List.range 8).map fun i => { xfer1 with id := i } }

theorem test_strld_issues : runs (.strld z 4 2 false) (stL []) (fun t => t.me.xfers.length == 1 && t.mySeq.pc == 0x1008) = true := by
  decide +kernel

theorem test_witness_stream_transfers_issue :
    (Ready (.strld z 4 2 false) z [] busy8 ∧ ¬ (busy8.me.xfersOf .L).length < 8) ∧
    (Ready (.strld z 5 2 true) z [] (stL []) ∧ ((stL []).me.xfersOf .L).length < 8 ∧ (stL []).checkerCount 5 < 128 ∧ ((stL []).me.stream 5).own ≠ .L) ∧
    (Ready (.strld z 4 5 true) z [] (stL []) ∧ ((stL []).me.stream 4).own = .L ∧ ((stL []).me.stream 5).own ≠ .L) ∧
    (Ready (.strld z 4 2 false) z [] (stL []) ∧ ((stL []).me.stream 2).own = .L ∧ ∃ m s1, (xf (stL [])).check 2 5 (stL []) = .ok m s1 ∧
      (match m with | .pages _ => True | .tiles .. => False)) :=
  ⟨⟨rdy (by decide +kernel), by decide +kernel⟩, ⟨rdy (by decide +kernel), by decide +kernel⟩, ⟨rdy (by decide +kernel), by decide +kernel⟩,
    rdy (by decide +kernel), by decide +kernel, by
      have h : (match (xf (stL [])).check 2 5 (stL []) with | .ok (.pages _) _ => true | _ => false) = true := by decide +kernel
      revert h
      cases (xf (stL [])).check 2 5 (stL []) with
      | error => intro h; simp at h
      | ok m s1 => cases m with
        | pages p => exact fun _ => ⟨_, _, rfl, trivial⟩
        | tiles => intro h; simp at h⟩

/-! Engine commands (R114, R238). -/

/-- The C-seq with operands in G8 to G11. -/
def eng (g : Regs) : State := mapped (st .C (on .C g))
def E (rd : Nat) : EngF := ⟨2, 1, false, true, 4, 3, rd⟩

theorem test_cpy_issues : runs (.cpy z (E 6)) (eng [(6, 9), (8, 0x1000), (9, 0x80000000)]) (fun t => t.g 6 == 0 && t.cmds.length == 1 &&
    t.ecnt 5 .C 1 == 1 && t.mySeq.pc == 0x1008) = true := by decide +kernel
theorem test_stash_counts : runs (.stash z (E 6)) (eng [(8, 3), (9, 5), (10, 9)]) (fun t => t.g 6 == 5) = true := by decide +kernel

theorem test_witness_engine_commands_issue :
    ((∃ v, engRow (.cpy z (E 6)) = some (z, .cpy, 0x90, E 6, v)) ∧ decodeTrap (.cpy z (E 6)) (eng []) = none ∧
      Ready (.cpy z (E 6)) z [8, 9, 10, 11] (eng []) ∧ (eng []).checkerCount 5 < 128 ∧ (eng []).ecnt 5 .C 1 < 4095) ∧
    ((∃ v, engRow (.coll z (E 0)) = some (z, .coll, 0x98, E 0, v)) ∧ Ready (.coll z (E 0)) z [8, 9, 10, 11] (eng [])) ∧
    ((∃ v, engRow (.pgreq z 2 3 0 63 true) = some (z, .pgreq true, 0x86, ⟨2, 3, false, false, 0, 0, 63⟩, v)) ∧
      Ready (.pgreq z 2 3 0 63 true) z [8, 9, 10, 11] (stL [])) ∧
    (Ready (.tilereq z 2 0 255 63 true true) z [8, 9, 10, 11] (stL []) ∧ Ready (.prst z (E 1)) z [8, 9, 10, 11] (eng []) ∧
      Ready (.chsend z (E 1)) z [8, 9, 10, 11] (eng []) ∧ Ready (.chrecv z (E 1)) z [8, 9, 10, 11] (eng []) ∧
      Ready (.chrel z (E 1)) z [8, 9, 10, 11] (eng []) ∧ Ready (.stfetch z (E 1)) z [8, 9, 10, 11] (eng []) ∧
      Ready (.stdrop z (E 1)) z [8, 9, 10, 11] (eng []) ∧ Ready (.cpyr z (E 1)) z [8, 9, 10, 11] (eng []) ∧
      Ready (.stash z (E 1)) z [8, 9, 10, 11] (eng [])) :=
  ⟨⟨⟨_, rfl⟩, by decide +kernel, rdy (by decide +kernel), by decide +kernel⟩, ⟨⟨_, rfl⟩, rdy (by decide +kernel)⟩,
    ⟨⟨_, rfl⟩, rdy (by decide +kernel)⟩, rdy (by decide +kernel), rdy (by decide +kernel), rdy (by decide +kernel), rdy (by decide +kernel),
    rdy (by decide +kernel), rdy (by decide +kernel), rdy (by decide +kernel), rdy (by decide +kernel), rdy (by decide +kernel)⟩

/-! The norms of a sampled product, index by index. -/

/-- The norm of index `i`, reading no more than its own elements. -/
def normAt (k : Core) (x : Stream) (tr : Bool) (kk i : Nat) : Val :=
  normOf (sumSquares ((List.range 16).map fun r => (fmtDecode x.fmt (k.lsBits (x.cellBit (fmtBits x.fmt) tr r i) (fmtBits x.fmt)).1).1))
    (sumSquares ((List.range 64).map fun j => (fmtDecode (k.panel (i / kk)).code (fieldOf (imgBig (k.panel (i / kk)).img)
      (8 * patBase + (64 * (i % kk) + j) * fmtBits (k.panel (i / kk)).code) (fmtBits (k.panel (i / kk)).code))).1))

theorem rowA_at (k : Core) (x : Stream) (tr : Bool) (n r i : Nat) (hs : x.smode = 0) (hi : i < n) :
    ((k.rowA x tr n r).1.vals).getD i (.zero false) =
      (fmtDecode x.fmt (k.lsBits (x.cellBit (fmtBits x.fmt) tr r i) (fmtBits x.fmt)).1).1 := by
  simp only [Core.rowA, lineUp, List.map_map]
  rw [List.getD_eq_getElem?_getD, List.getElem?_map, List.getElem?_range hi]
  cases tr <;> simp [hs, scaledVal, opCoord, Stream.cellBit]

theorem line_at (p : Panel) (n i : Nat) (hs : p.smode = 0) (hi : i < fmtK p.code) :
    ((p.line n).1.vals).getD i (.zero false) =
      (fmtDecode p.code (fieldOf (imgBig p.img) (8 * patBase + (64 * i + n) * fmtBits p.code) (fmtBits p.code))).1 := by
  simp only [Panel.line, Panel.column, lineColumn, lineUp, List.map_map]
  rw [List.getD_eq_getElem?_getD, List.getElem?_map, List.getElem?_zipIdx, List.getElem?_map, List.getElem?_range hi]
  simp [hs, scaledVal]

theorem norm_at (k : Core) (x : Stream) (tr : Bool) (kk n i : Nat) (hs : x.smode = 0) (hi : i < n)
    (hp : (k.panel (i / kk)).smode = 0) (hk : i % kk < fmtK (k.panel (i / kk)).code) :
    k.sampleNorm x tr kk n i = normAt k x tr kk i := by
  rw [Core.sampleNorm, Panel.norm, normAt]
  congr 1 <;> congr 1
  · exact List.map_congr_left fun r _ => rowA_at k x tr n r i hs hi
  · exact List.map_congr_left fun j _ => line_at _ j _ hp hk

/-- F32 operands: K is 48. Local bytes and panel bytes as given. -/
def m32 (a b : Store Byte) : State :=
  st .X { on .X [] with store := a, streams := [(1, strm 0 0)], panels := [(0, { img := (0, 1) :: b })], sampler := { budget := 1 } }
def x32 (a b : Store Byte) : Stream := (m32 a b).me.stream 1

theorem m32_norm (a b : Store Byte) (h : imgByte ((0, 1) :: b) 2 = 0 ∧ imgByte ((0, 1) :: b) 1 = 0) (i : Nat) (hi : i < 48) :
    (m32 a b).me.sampleNorm (x32 a b) false 48 48 i = normAt (m32 a b).me (x32 a b) false 48 i := by
  have hp : (m32 a b).me.panel (i / 48) = { img := (0, 1) :: b } := by
    rw [Nat.div_eq_of_lt hi]; simp [Core.panel, State.me, State.core, m32, st, Store.get]
  refine norm_at _ _ _ _ _ _ (by simp [x32, m32, st, State.me, State.core, Store.get, Core.stream, padTo, Stream.smode, Stream.f, strm, fieldOf]) hi ?_ ?_
  · rw [hp]; exact h.1
  · rw [hp, Nat.mod_eq_of_lt hi, Panel.code, h.2]; exact hi

/-- A NaN at A[0][0]; zeros; 2^63 at A[0][k] and B[k][0] for k from 0 to 3, whose norms, 2^126 each, sum to 2^128. -/
def nan32 : State := m32 [(0x1002, 0xC0), (0x1003, 0x7F)] []
def big32 : Store Byte := [(0x1003, 0x5F), (0x1007, 0x5F), (0x100B, 0x5F), (0x100F, 0x5F)]
def bigP : Store Byte := [(19, 0x5F), (275, 0x5F), (531, 0x5F), (787, 0x5F)]

def sumAt (a b : Store Byte) : Val :=
  (rne32 (((List.range 48).map (normAt (m32 a b).me (x32 a b) false 48)).foldl (fun (p : Val × Flags) v => p.1.add false v) (.zero false, 0))).1

theorem m32_z (a b : Store Byte) (h : imgByte ((0, 1) :: b) 2 = 0 ∧ imgByte ((0, 1) :: b) 1 = 0) :
    (m32 a b).me.sampleZ (x32 a b) false 48 48 = sumAt a b := by
  rw [Core.sampleZ, sumAt, List.map_congr_left fun i hi => m32_norm a b h i (List.mem_range.1 hi)]

theorem m32_ready (a b : Store Byte) (ha : readableB (x32 a b) false 16 48 16 48 = true)
    (hr : readyB (.msamp z 9 1 0 2 false true) z [] (m32 a b) = true) (hb : imgByte ((0, 1) :: b) 1 = 0) :
    Ready (.msamp z 9 1 0 2 false true) z [] (m32 a b) ∧ (x32 a b).readable false 16 48 16 48 ∧
      ∀ p, p ≤ 0 → ((m32 a b).me.panel p).owner = 0 ∧ ((m32 a b).me.panel p).fmt.isSome = true ∧ ((m32 a b).me.panel p).code = 0 := by
  refine ⟨rdy hr, readable_of ha, fun p hp => ?_⟩
  obtain rfl : p = 0 := by omega
  have : (m32 a b).me.panel 0 = { img := (0, 1) :: b } := by simp [Core.panel, State.me, State.core, m32, st, Store.get]
  rw [this]
  exact ⟨rfl, by simp [Panel.fmt, imgByte, Store.get, bit], hb⟩

theorem test_witness_sampled_product_norms :
    (Ready (.msamp z 9 1 0 2 false true) z [] nan32 ∧
      (nan32.me.sampleNorm (x32 [(0x1002, 0xC0), (0x1003, 0x7F)] []) false 48 48 0).isFin = false) ∧
    (Ready (.msamp z 9 1 0 2 false true) z [] (m32 big32 bigP) ∧
      (∀ j, j < 48 → ((m32 big32 bigP).me.sampleNorm (x32 big32 bigP) false 48 48 j).isFin = true) ∧
      ((m32 big32 bigP).me.sampleZ (x32 big32 bigP) false 48 48).isFin = false) ∧
    (Ready (.msamp z 9 1 0 2 false true) z [] (m32 [] []) ∧
      (∀ j, j < 48 → ((m32 [] []).me.sampleNorm (x32 [] []) false 48 48 j).isFin = true) ∧
      ((m32 [] []).me.sampleZ (x32 [] []) false 48 48).isZero = true) := by
  refine ⟨⟨(m32_ready _ _ (by decide +kernel) (by decide +kernel) (by decide +kernel)).1, ?_⟩,
    ⟨(m32_ready _ _ (by decide +kernel) (by decide +kernel) (by decide +kernel)).1, fun j hj => ?_, ?_⟩,
    (m32_ready _ _ (by decide +kernel) (by decide +kernel) (by decide +kernel)).1, fun j hj => ?_, ?_⟩
  · rw [nan32, m32_norm _ _ (by decide +kernel) _ (by decide)]; decide +kernel
  · rw [m32_norm _ _ (by decide +kernel) _ hj]; revert j; decide +kernel
  · rw [m32_z _ _ (by decide +kernel)]; decide +kernel
  · rw [m32_norm _ _ (by decide +kernel) _ hj]; revert j; decide +kernel
  · rw [m32_z _ _ (by decide +kernel)]; decide +kernel

/-! Tasks, stages, versions and traces (R26 to R76, R260 to R266). -/

/-- Whether a run ends in a value and a state of which `p` holds. -/
def okWith {α : Type} (r : EStateM.Result Exc State α) (p : α → State → Bool) : Bool :=
  match r with
  | .ok a t => p a t
  | .error _ _ => false

/-- Memory with 64-bit words put into it. -/
def words (s : State) : List (Nat × Nat) → State
  | [] => s
  | (a, v) :: r => words (s.wr a (bytesOf v 8)) r

/-- A page that an agent has cached for context 0, with every permission. -/
def page (agent va pa : Nat) : TlbEnt := ⟨agent, 0, va, 4096, pa, true, true, true, true, true, va / 4096, 0⟩

/-- Context 0: 128 TCBs from VA 0x8000_0000_0000_2000, of which two pages are mapped, and a page of descriptors at
VA 0x8000_0000_0000_3000; TCB 1 is running, TCB 2 misaligned, TCB 3 idle and well formed, TCB 4 ended. -/
def pool (q : SeqId) (k : Core) (more : List (Nat × Nat)) : State :=
  let s := { st q k with
    tlb := [page 581 0x8000000000002000 0x2000, page 581 0x8000000000003000 0x3000, page 582 0x8000000000003000 0x3000,
            { page 581 0x8000000000004000 0x4000 with w := false }] }
  words s ([(8, 0x200000), (0x10, 0x8000000000002000), (0x18, 128), (0x2088, 0x2000000000000), (0x2100, 8),
    (0x2180, 0x8000000000003000), (0x2200, 0x8000000000003000), (0x2208, 0x4000000000000)] ++ more)

/-- The task of TCB 3, its one block on die 0. -/
def info3 : TaskInfo := { info with
  origin := [], extent := [], kinds := [], nlev := 0, entries := [0, 0, 0, 0], traced := true, cset := 0x20, tracebuf := 0x8000000000003800 }
def blk3 : Block := { blk with info := info3, blk := 0 }
def task3 : Task := {
  info := info3, state := 1, blkleft := 1, trigleft := 1, nextblk := 0, pf := false, err := false, trigd := false, held := false,
  status := 0, waiting := [], frames := [⟨0, 0, 0, [0]⟩], relaunch := none }
def offered (q : SeqId) (k : Core) : State :=
  { pool q k [] with dies := [(0, { sectors := 0xF })], tasks := [task3], clock := 64 }

def onlyC (g : Regs) : Core := { on .C g with l := { parked := true } }

theorem test_tqpop : runs (.tqpop z 6 none) (offered .C (onlyC [])) (fun t => t.me.cur.isSome && t.me.tcbh == 3 && t.g 59 == 3) = true := by
  decide +kernel
theorem test_tqpush : runs (.tqpush z 6 7) (pool .C (on .C [(7, 3)]) []) (fun t => t.g 6 == 0 && t.tasks.length == 1 &&
      (t.task 0 3).map (·.state) == some 1) &&
    runs (.tqpush z 6 7) (pool .C (on .C [(7, 1)]) []) (fun t => t.g 6 == 1 && t.tasks.length == 0) = true := by decide +kernel

theorem test_witness_task_queue :
    (Ready (.tqpop z 6 none) z [] (st .C (inBlk .C [])) ∧ (st .C (inBlk .C [])).me.cur ≠ none) ∧
    (Ready (.tqpop z 6 none) z [] (st .C { on .C [] with x := { parked := false } }) ∧
      (st .C { on .C [] with x := { parked := false } }).me.x.parked = false) ∧
    (Ready (.tqpop z 6 (some 4)) z [4] (st .C (on .C [])) ∧ okWith (popBlock 5 (st .C (on .C []))) (fun a s1 =>
      a.isNone && s1.popExpired (some 4) s1.issuedAt && !s1.popSoon 5) = true) ∧
    (Ready (.tqpop z 6 (some 4)) z [4] (st .C (on .C [(4, 1)])) ∧ okWith (popBlock 5 (st .C (on .C [(4, 1)]))) (fun a s1 =>
      a.isNone && !s1.popExpired (some 4) s1.issuedAt) = true) ∧
    (Ready (.tqpop z 6 none) z [] (offered .C (on .C [])) ∧ okWith (popBlock 5 (offered .C (on .C []))) (fun a s1 =>
      match a with
      | some (tk, _) => tk.info.scope < 12 && tk.relaunch.isNone && okWith (stampNow 0 tk.info.ctx s1) fun _ _ => true
      | none => false) = true) :=
  ⟨⟨rdy (by decide +kernel), by decide +kernel⟩, ⟨rdy (by decide +kernel), by decide +kernel⟩, ⟨rdy (by decide +kernel), by decide +kernel⟩,
    ⟨rdy (by decide +kernel), by decide +kernel⟩, rdy (by decide +kernel), by decide +kernel⟩

theorem test_witness_task_push :
    (Ready (.tqpush z 6 7) z [7] (pool .C (on .C [(7, 128)]) []) ∧
      okWith (prepTask 0 0 128 true none (pool .C (on .C [(7, 128)]) [])) (fun a _ => a == .fail 4) = true) ∧
    (Ready (.tqpush z 6 7) z [7] (pool .C (on .C [(7, 3)]) []) ∧
      okWith (prepTask 0 0 3 true none (pool .C (on .C [(7, 3)]) [])) (fun a s1 =>
        match a with
        | .ok tk w => blockCount tk.kinds tk.extent == 1 && (List.range 2).all (fun d => decide (s1.frameCount d < 65536)) &&
            okWith (startTask 0 tk w [0] none s1) fun _ _ => true
        | .fail _ => false) = true) :=
  ⟨⟨rdy (by decide +kernel), by decide +kernel⟩, rdy (by decide +kernel), by decide +kernel⟩

/-- 65,536 tasks in the frame of die 0: no room. -/
theorem frameCount_replicate (n : Nat) : (({ tasks := List.replicate n task3 } : State)).frameCount 0 = n := by
  have h : task3.frames.any (fun f => f.die == 0) = true := by decide
  simp [State.frameCount, h]

theorem test_witness_frame_full : (({ tasks := List.replicate 65536 task3 } : State)).frameCount 0 = 65536 := frameCount_replicate _

def tarmOf (h n : Word) (more : List (Nat × Nat)) : State := pool .C (on .C [(7, h), (8, n)]) more

theorem test_tarm : runs (.tarm z 6 7 8) (tarmOf 3 2 []) (fun t => t.g 6 == 0 && t.rd 0x218C 2 == 2) &&
    runs (.tarm z 6 7 8) (tarmOf 4 0 []) (fun t => t.g 6 == 1 && t.tasks.length == 1) = true := by decide +kernel

theorem test_witness_task_arm :
    (Ready (.tarm z 6 7 8) z [7, 8] (tarmOf 128 0 []) ∧ okWith (ctxEnt 0 0 (tarmOf 128 0 [])) (fun e _ => e.tcbSize == 128) = true) ∧
    Ready (.tarm z 6 7 8) z [7, 8] (tarmOf 3 65536 []) ∧
    (Ready (.tarm z 6 7 8) z [7, 8] (tarmOf 127 0 []) ∧ okWith (readTcb 0 0 127 (tarmOf 127 0 [])) (fun w _ => w == .unreadable) = true) ∧
    (Ready (.tarm z 6 7 8) z [7, 8] (tarmOf 1 0 []) ∧ okWith (readTcb 0 0 1 (tarmOf 1 0 [])) (fun w _ =>
      match w with
      | .ok w => fieldOf (w.getD 1 0) 48 4 == 2
      | _ => false) = true) ∧
    (Ready (.tarm z 6 7 8) z [7, 8] (tarmOf 64 0 []) ∧ okWith (readTcb 0 0 64 (tarmOf 64 0 [])) (fun w s1 =>
      w != .unreadable && okWith (armTcb 0 0 64 0 s1) fun b _ => !b) = true) ∧
    (Ready (.tarm z 6 7 8) z [7, 8] (tarmOf 4 65535 []) ∧ okWith (readTcb 0 0 4 (tarmOf 4 65535 [])) (fun _ s1 =>
      okWith (armTcb 0 0 4 65535 s1) fun b _ => b) = true) ∧
    (Ready (.tarm z 6 7 8) z [7, 8] (tarmOf 3 0 []) ∧ okWith (readTcb 0 0 3 (tarmOf 3 0 [])) (fun _ s1 =>
      okWith (armTcb 0 0 3 0 s1) fun b s2 => b && okWith (insertTask 0 0 3 s2) fun code _ => code == 0) = true) ∧
    (Ready (.tarm z 6 7 8) z [7, 8] (tarmOf 2 0 []) ∧ okWith (readTcb 0 0 2 (tarmOf 2 0 [])) (fun _ s1 =>
      okWith (armTcb 0 0 2 0 s1) fun b s2 => b && okWith (insertTask 0 0 2 s2) fun code _ => code == 3) = true) :=
  ⟨⟨rdy (by decide +kernel), by decide +kernel⟩, rdy (by decide +kernel), ⟨rdy (by decide +kernel), by decide +kernel⟩,
    ⟨rdy (by decide +kernel), by decide +kernel⟩, ⟨rdy (by decide +kernel), by decide +kernel⟩,
    ⟨rdy (by decide +kernel), by decide +kernel⟩, ⟨rdy (by decide +kernel), by decide +kernel⟩, rdy (by decide +kernel), by decide +kernel⟩

/-- The core in the block of task 3. -/
def inTask (k : Core) : State := { offered .C { k with cur := some blk3 } with tasks := [{ task3 with state := 3, frames := [] }] }

theorem test_tdone : runs (.tdone z 6) (inTask (on .C [(6, 0)])) (fun t => t.me.cur.isNone && t.tasks.isEmpty &&
    t.rd 0x218E 1 == 0x44 && t.mySeq.pc == 0x1008) = true := by decide +kernel

theorem test_witness_task_done :
    (Ready (.tdone z 6) z [6] (st .C (on .C [(6, 0xFFFF)])) ∧ (st .C (on .C [(6, 0xFFFF)])).me.onPriv .C = false) ∧
    (Ready (.tdone z 6) z [6] (st .C (on .C [(6, 0)])) ∧ (st .C (on .C [(6, 0)])).me.cur = none) ∧
    (Ready (.tdone z 6) z [6] (inTask { on .C [] with xfers := [xfer1] }) ∧ (inTask { on .C [] with xfers := [xfer1] }).drained = false ∧
      (inTask { on .C [] with xfers := [xfer1] }).me.deferred = 0) ∧
    (Ready (.tdone z 6) z [6] (inTask (on .C [(6, 2)])) ∧ (inTask (on .C [(6, 2)])).drained = true ∧ (inTask (on .C [(6, 2)])).me.nest = 0 ∧
      (inTask (on .C [(6, 2)])).me.psbLines.length ≤ psbCapacity ∧
      okWith (settle 5 4 allSeqs (inTask (on .C [(6, 2)]))) (fun _ s => okWith (releaseAlone 5 4 s) fun _ s1 =>
        okWith (writeTrace 5 blk3 2 s1) fun _ s2 => okWith (retireBlock 5 blk3 2 s2) fun _ _ => true) = true) ∧
    (Ready (.tdone z 6) z [6] (inTask (onP [(6, 0xFFFF)])) ∧ (inTask (onP [(6, 0xFFFF)])).drained = true ∧
      okWith (rerun blk3 (inTask (onP [(6, 0xFFFF)]))) (fun a _ =>
        match a with
        | .goto _ => true
        | _ => false) = true) :=
  ⟨⟨rdy (by decide +kernel), by decide +kernel⟩, ⟨rdy (by decide +kernel), by decide +kernel⟩,
    ⟨rdy (by decide +kernel), by decide +kernel, by decide +kernel⟩,
    ⟨rdy (by decide +kernel), by decide +kernel, by decide +kernel, by decide +kernel, by decide +kernel⟩,
    rdy (by decide +kernel), by decide +kernel, by decide +kernel⟩

theorem test_witness_task_trigger :
    (Ready (.ttrig z) z [] (st .C (on .C [])) ∧ (st .C (on .C [])).me.cur = none) ∧
    (Ready (.ttrig z) z [] (st .C { on .C [] with cur := some { blk3 with trig := true } })) ∧
    (Ready (.ttrig z) z [] (inTask (on .C [])) ∧ okWith (releaseBlock blk3 (inTask (on .C []))) (fun _ s1 =>
      okWith (countTrig 0 0 3 (s1.modBlock 5 fun b => { b with trig := true })) fun _ s2 => s2.me.cur.map (·.trig) == some true) = true) :=
  ⟨⟨rdy (by decide +kernel), by decide +kernel⟩, rdy (by decide +kernel), rdy (by decide +kernel), by decide +kernel⟩

/-- Slot 2 of die 0, of context 0 in state `st`, its queues of one record each at VA 0x8000_0000_0000_3400, with
tag 5 in slot 1. -/
def slot2 (state ctx : Nat) (tags : Store (Option TagSlot)) : StageSlot := {
  state, ctx, tags, ptab := [6], desc := [0, 0, 0, 0, 1, 0x8000000000003400, 0x8000000000003400, 0, 0, 0, 0, 1, 7] }
def staged (g : Regs) (x : StageSlot) (more : List (Nat × Nat)) : State :=
  { pool .C { on .C g with cur := some blk3 } more with dies := [(0, { stages := [(2, x)] })] }

theorem test_penn : runs (.pennStart z 6 7) (staged [(7, 2)] (slot2 1 0 []) []) (fun t => t.g 6 == 0 && (t.stage 0 2).state == 2) &&
    runs (.pennStop z 6 7) (staged [(7, 2)] (slot2 2 0 []) []) (fun t => t.g 6 == 0 && (t.stage 0 2).state == 3) &&
    runs (.pennUnload z 6 7) (staged [(7, 2)] (slot2 3 0 []) []) (fun t => t.g 6 == 0 && (t.stage 0 2).state == 0) &&
    runs (.pennStat z 6 7) (staged [(7, 8)] (slot2 3 0 []) []) (fun t => t.g 6 == 0xFFFFFFFF) = true := by decide +kernel

theorem test_witness_stages :
    (Ready (.pennStat z 6 7) z [7] (staged [(7, 8)] (slot2 1 0 []) [])) ∧ Ready (.pennStat z 6 7) z [7] (staged [(7, 2)] (slot2 1 0 []) []) ∧
    (Ready (.pennLoad z 6 7 8) z [7, 8, 9] (staged [(7, 8)] (slot2 1 0 []) [])) ∧
    (Ready (.pennStop z 6 7) z [7] (staged [(7, 2)] (slot2 1 9 []) []) ∧ ((staged [(7, 2)] (slot2 1 9 []) []).stage 0 2).ctx ≠ 0) ∧
    (Ready (.pennLoad z 6 7 8) z [7, 8, 9] (staged [(7, 2)] (slot2 1 0 []) [])) ∧
    (Ready (.pennLoad z 6 7 8) z [7, 8, 9] (staged [(7, 1)] {} []) ∧ ((staged [(7, 1)] {} []).stage 0 1).state = 0 ∧
      okWith (pennLoad 0 0 1 0 (staged [(7, 1)] {} [])) (fun v _ => v == 4) = true) ∧
    (∀ n, n ∈ [1, 2, 3, 4] → Ready (.pennStart z 6 7) z [7] (staged [(7, 2)] (slot2 n 0 []) []) ∧
      Ready (.pennStop z 6 7) z [7] (staged [(7, 2)] (slot2 n 0 []) []) ∧ Ready (.pennUnload z 6 7) z [7] (staged [(7, 2)] (slot2 n 0 []) [])) ∧
    (((staged [] (slot2 3 0 []) []).stage 0 2).tags = [] ∧ ((staged [] (slot2 3 0 [(1, some { tag := 5 })]) []).stage 0 2).tags ≠ []) :=
  ⟨rdy (by decide +kernel), rdy (by decide +kernel), rdy (by decide +kernel), ⟨rdy (by decide +kernel), by decide +kernel⟩,
    rdy (by decide +kernel), ⟨rdy (by decide +kernel), by decide +kernel, by decide +kernel⟩,
    fun n hn => by
      have k (i : Instr) (h : [1, 2, 3, 4].all (fun n => readyB i z [7] (staged [(7, 2)] (slot2 n 0 []) [])) = true) :
        Ready i z [7] (staged [(7, 2)] (slot2 n 0 []) []) := rdy (List.all_eq_true.1 h n hn)
      exact ⟨k _ (by decide +kernel), k _ (by decide +kernel), k _ (by decide +kernel)⟩,
    by decide +kernel⟩

/-- MBPOST's operands: tag 5 of phase `ph` to slot 2. -/
def mb (ph : Nat) : Regs := [(8, BitVec.ofNat 32 (5 + ph * 2 ^ 16 + 2 * 2 ^ 18))]

theorem test_mbpost : runs (.mbpost z 2 6) (staged (mb 2) (slot2 1 0 []) []) (fun t => t.g 6 == 0 && t.rd 0x3400 8 == 0x01020005) &&
    runs (.mbpost z 2 6) (staged (mb 1) (slot2 1 0 []) []) (fun t => t.g 6 == 3) = true := by decide +kernel

theorem test_witness_mailbox_posts :
    (Ready (.mbpost z 2 6) z [8, 9, 10] (staged [(8, 0x200000)] (slot2 1 0 []) [])) ∧
    (Ready (.mbpost z 2 6) z [8, 9, 10] (st .C (on .C (mb 2)))) ∧ (Ready (.mbpost z 2 6) z [8, 9, 10] (staged (mb 2) (slot2 1 9 []) [])) ∧
    Ready (.mbpost z 2 6) z [8, 9, 10] (staged (mb 1) (slot2 1 0 []) []) ∧ Ready (.mbpost z 2 6) z [8, 9, 10] (staged (mb 3) (slot2 1 0 []) []) ∧
    (Ready (.mbpost z 2 6) z [8, 9, 10] (staged (mb 2) (slot2 1 0 []) []) ∧
      okWith (releaseBlock blk3 (staged (mb 2) (slot2 1 0 []) [])) (fun _ s1 => okWith (appendRec 0 2 0x1020005 0 s1) fun x _ => x == .done) = true) :=
  ⟨rdy (by decide +kernel), rdy (by decide +kernel), rdy (by decide +kernel), rdy (by decide +kernel), rdy (by decide +kernel),
    rdy (by decide +kernel), by decide +kernel⟩

/-- Tensor 7 of context 0: one tile of 32 KiB in E4M3, its descriptor at 0x4380, with the tile tables of versions 0 and
1 at 0x5000 and 0x5100. -/
def tens (word2 : Nat) : List (Nat × Nat) :=
  [(0x20, 0x4000), (0x28, 8), (0x4380, 0x100000001), (0x4388, 0x100000001), (0x4390, word2), (0x43C0, 0x5000), (0x43C8, 0x5100)]
def plainT : Nat := 2 ^ 63 + 15 + 5 * 2 ^ 16
def versT (mask : Nat) : Nat := plainT + 2 ^ 24 + mask * 2 ^ 28
def vers (w2 : Nat) (g : Regs) (more : List (Nat × Nat)) : State := staged g (slot2 1 0 [(1, some { tag := 5, vset := 0 })]) (tens w2 ++ more)

theorem test_vernew : runs (.vernew z 6 7) (vers (versT 1) [(7, 7)] []) (fun t => t.g 6 == 1 && fieldOf (t.rd 0x4390 8) 25 3 == 1 &&
    fieldOf (t.rd 0x4390 8) 28 8 == 3) = true := by decide +kernel

def tdIs (t : Nat) (s : State) (p : TDesc → State → Bool) : Bool :=
  okWith (tdesc 0 s.me.ctx.toNat t s) fun x s1 =>
    match x with
    | .ok d => decide (s1 = s) && p d s
    | _ => false

theorem test_witness_version_new :
    (Ready (.vernew z 6 7) z [7] (vers plainT [(7, 8)] []) ∧ okWith (tdesc 0 0 8 (vers plainT [(7, 8)] [])) (fun x _ => x == .bad) = true) ∧
    (Ready (.vernew z 6 7) z [7] (st .C { on .C [(7, 7)] with ctx := 1 }) ∧
      okWith (tdesc 0 1 7 (st .C { on .C [(7, 7)] with ctx := 1 })) (fun x _ => x == .notmap) = true) ∧
    (Ready (.vernew z 6 7) z [7] (vers plainT [(7, 7)] []) ∧ tdIs 7 (vers plainT [(7, 7)] []) (fun d s =>
      okWith (verNewCheck d s) fun v _ => v == .fail 0xFFFFFFFE) = true) ∧
    (Ready (.vernew z 6 7) z [7] (vers (versT 255) [(7, 7)] []) ∧ tdIs 7 (vers (versT 255) [(7, 7)] []) (fun d s =>
      okWith (verNewCheck d s) fun v _ => v == .fail 0xFFFFFFFF) = true) ∧
    (Ready (.vernew z 6 7) z [7] (vers (versT 1) [(7, 7)] []) ∧ tdIs 7 (vers (versT 1) [(7, 7)] []) (fun d s =>
      okWith (verNewCheck d s) fun v s2 => v == .make 1 && okWith (verNewMake 0 0 7 d 1 s2) fun _ _ => true) = true) :=
  ⟨⟨rdy (by decide +kernel), by decide +kernel⟩, ⟨rdy (by decide +kernel), by decide +kernel⟩, ⟨rdy (by decide +kernel), by decide +kernel⟩,
    ⟨rdy (by decide +kernel), by decide +kernel⟩, rdy (by decide +kernel), by decide +kernel⟩

theorem test_verpin_verdrop : runs (.verpin z 6 7 8 9 2) (vers (versT 3) [(7, 5), (9, 1)] []) (fun t => t.g 6 == 0 &&
      ((t.stage 0 2).slotOf 5).map (·.2.vset) == some 1) &&
    runs (.verdrop z 6 7 8) (vers (versT 3) [(7, 7), (8, 1)] []) (fun t => t.g 6 == 1 && fieldOf (t.rd 0x4390 8) 28 8 == 1) = true := by
  decide +kernel

theorem test_witness_version_pin :
    Ready (.verpin z 6 7 8 9 3) z [7, 8, 9] (vers (versT 3) [(7, 5)] []) ∧ Ready (.verpin z 6 7 8 9 2) z [7, 8, 9] (vers (versT 3) [(7, 4)] []) ∧
    (let s := vers (versT 3) [(7, 5), (8, 1)] [];
      Ready (.verpin z 6 7 8 9 2) z [7, 8, 9] s ∧ (s.stage 0 2).slotOf 5 = some (1, { tag := 5 }) ∧ (s.stage 0 2).weights[1]? = none) ∧
    (let s := vers (versT 3) [(7, 5), (9, 8)] [];
      Ready (.verpin z 6 7 8 9 2) z [7, 8, 9] s ∧ (s.stage 0 2).weights[0]? = some 7 ∧ tdIs 7 s (fun d _ => !d.hasVersion 2) = true) ∧
    (let s := vers (versT 3) [(7, 5), (9, 1)] [];
      let u := s.modStage 0 2 fun y => { y with tags := Store.set none y.tags 1 (some { tag := 5, vset := 1 }) };
      Ready (.verpin z 6 7 8 9 2) z [7, 8, 9] s ∧ tdIs 7 s (fun d _ => d.hasVersion 1) = true ∧
        okWith (mirrorSet 0 2 1 1 u) (fun _ s2 => okWith (freeIfDue 0 0 7 0 s2) fun _ _ => true) = true) :=
  ⟨rdy (by decide +kernel), rdy (by decide +kernel), ⟨rdy (by decide +kernel), by decide +kernel, by decide +kernel⟩,
    ⟨rdy (by decide +kernel), by decide +kernel, by decide +kernel⟩, rdy (by decide +kernel), by decide +kernel, by decide +kernel⟩

theorem test_witness_version_drop :
    (Ready (.verdrop z 6 7 8) z [7, 8] (vers plainT [(7, 7)] []) ∧ tdIs 7 (vers plainT [(7, 7)] []) (fun d _ => !d.vers) = true) ∧
    (Ready (.verdrop z 6 7 8) z [7, 8] (vers (versT 3) [(7, 7), (8, 8)] []) ∧ tdIs 7 (vers (versT 3) [(7, 7), (8, 8)] []) (fun d _ => d.vers) = true) ∧
    (Ready (.verdrop z 6 7 8) z [7, 8] (vers (versT 3) [(7, 7)] []) ∧ tdIs 7 (vers (versT 3) [(7, 7)] []) (fun d _ => d.cur == 0 && d.hasVersion 0) = true) ∧
    (let s := { vers (versT 3) [(7, 7), (8, 1)] [] with drops := [⟨0, 7, 1⟩] };
      Ready (.verdrop z 6 7 8) z [7, 8] s ∧ tdIs 7 s (fun d _ => d.hasVersion 1) = true) ∧
    (let s := vers (versT 3) [(7, 7), (8, 1)] [];
      Ready (.verdrop z 6 7 8) z [7, 8] s ∧ tdIs 7 s (fun d _ => d.hasVersion 1) = true ∧
        okWith (freeIfDue 0 0 7 1 { s with drops := ⟨0, 7, 1⟩ :: s.drops }) (fun b _ => b) = true) :=
  ⟨⟨rdy (by decide +kernel), by decide +kernel⟩, ⟨rdy (by decide +kernel), by decide +kernel⟩, ⟨rdy (by decide +kernel), by decide +kernel⟩,
    ⟨rdy (by decide +kernel), by decide +kernel⟩, rdy (by decide +kernel), by decide +kernel, by decide +kernel⟩

theorem test_trace : runs (.traceAdd z 6 7 8) (st .C (inBlk .C [(6, 9), (7, 1), (8, 3)])) (fun t =>
      (t.me.cur.map (·.ranges)) == some [⟨9, 1, 3⟩]) &&
    runs (.tracePath z 6) (st .C (inBlk .C [(6, 0)])) (fun t => t.mySeq.crc != 0xFFFFFFFF) = true := by decide +kernel

theorem test_witness_traces :
    Ready (.traceAdd z 6 7 8) z [6, 7, 8] (st .C (on .C [])) ∧ Ready (.traceAdd z 6 7 8) z [6, 7, 8] (st .C (inBlk .C [(6, 9), (7, 1), (8, 3)])) ∧
    Ready (.traceAdd z 6 7 8) z [6, 7, 8] (st .C (inBlk .C [(6, 9), (7, 4), (8, 3)])) ∧
    (Ready (.traceAdd z 6 7 8) z [6, 7, 8] (st .C { on .C [] with cur := some { blk with info := { info with traced := false } } })) ∧
    Ready (.tracePath z 6) z [6] (st .C (inBlk .C [])) ∧
    (∀ h, h ∈ [1, 3, 4, 127, 128] → Ready (.relaunch z 6 7) z [7] (pool .C (on .C [(7, h)]) [])) ∧
    (okWith (readTcb 0 0 128 (pool .C (on .C []) [])) (fun w _ => w == .beyond) = true) ∧
    (okWith (relaunchOp 0 0 4 (pool .C (on .C []) [])) (fun v _ => v == 0x02000000) = true) :=
  ⟨rdy (by decide +kernel), rdy (by decide +kernel), rdy (by decide +kernel), rdy (by decide +kernel), rdy (by decide +kernel),
    fun h hh => by
      have k : ([1, 3, 4, 127, 128] : List Word).all (fun h => readyB (.relaunch z 6 7) z [7] (pool .C (on .C [(7, h)]) [])) = true := by
        decide +kernel
      exact rdy (List.all_eq_true.1 k h hh),
    by decide +kernel, by decide +kernel⟩

/-! Orders, system instructions, seeds (R173, R181, R214 to R237, R353). -/

theorem psbLines_range (n : Nat) (k : Core) (h : k.psb = (List.range n).map fun i => ⟨0, 0, 128 * i, [⟨0, 0, .L, 0, false⟩]⟩) :
    k.psbLines.length = n := by
  have : k.psbLines = (List.range n).map (128 * ·) := by
    rw [Core.psbLines, h, List.map_map]
    exact eraseDups_nodup _ (List.Nodup.map (fun a b hab => by simp at hab; omega) List.nodup_range)
  rw [this, List.length_map, List.length_range]

/-- The core with one line more than the buffer holds. -/
def tooMany : State := st .S { on .S [] with psb := (List.range 2305).map fun i => ⟨0, 0, 128 * i, [⟨0, 0, .L, 0, false⟩]⟩ }

/-- The core with one buffered byte, 0x5A, at physical address 0x1003. -/
def oneLine (q : SeqId) (g : Regs) : State :=
  mapped (st q { on q g with psb := [⟨0, 0x8000000000001000, 0x1000, [⟨3, 0x5A, .L, 0, false⟩]⟩] })

theorem test_phase_releases : runs (.phase z 4 true true) (oneLine .C []) (fun t => t.byte 0x1003 == 0x5A && t.me.psb == [] &&
    t.me.acq == t.npub) = true := by decide +kernel

theorem test_witness_phase_orders :
    (Ready (.phase z 4 true true) z [] tooMany ∧ psbCapacity < tooMany.me.psbLines.length) ∧
    (Ready (.phase z 0 false false) z [] (st .X { on .X [] with deferred := 5 }) ∧ (st .X { on .X [] with deferred := 5 }).me.deferred ≠ 0) ∧
    (Ready (.phase z 0 false false) z [] (st .L { on .L [] with xfers := [xfer1] }) ∧
      (st .L { on .L [] with xfers := [xfer1] }).me.xfersOf .L ≠ []) ∧
    (Ready (.phase z 11 true false) z [] (oneLine .C []) ∧ (oneLine .C []).me.xfersOf .C = [] ∧ (oneLine .C []).cmds = []) ∧
    (Ready (.phase z 11 false true) z [] (oneLine .C []) ∧ ((oneLine .C []).me.psbLines.length ≤ psbCapacity) ∧
      ((oneLine .C []).me.psb.map (·.pa)).Nodup ∧
      okWith (collect (oneLine .C []).me.psb (fun l => do return (l, ← lineTarget 5 l)) (oneLine .C [])) (fun l _ =>
        decide (l = (oneLine .C []).me.psb.map fun l => (l, l.pa))) = true) :=
  ⟨⟨rdy (by decide +kernel), by rw [psbLines_range 2305 tooMany.me (by simp [tooMany, State.me, State.core, Store.get, st])]; decide⟩, ⟨rdy (by decide +kernel), by decide +kernel⟩,
    ⟨rdy (by decide +kernel), by decide +kernel⟩, ⟨rdy (by decide +kernel), by decide +kernel, by decide +kernel⟩,
    rdy (by decide +kernel), by decide +kernel, by decide +kernel, by decide +kernel⟩

/-- Group 1 of cores 5 and 6, `n` of them arrived. -/
def grp (arrived : List Nat) : Group := { valid := true, count := 2, part := 0x60, barCores := arrived }
def barAt (w : Option Waiting) (arrived : List Nat) : State :=
  { st .C { on .C [(7, 1)] with c := { parked := false, pc := 0x1000, g := [(7, 1)], wait := w } } with
      dies := [(0, { groups := [(1, grp arrived)] })] }
def bar1 (t : Option Nat) : Instr := .bar z 4 false true 6 7 t

theorem test_bar : runs (bar1 none) (barAt none [6]) (fun t => t.g 6 == 0x00020001 && ((t.die 0).group 1).barCores == []) &&
    runs (bar1 (some 8)) (barAt none []) (fun t => t.g 6 == 0x00010002) &&
    runs (bar1 none) (barAt none []) (fun t => t.mySeq.pc == 0x1000 && ((t.die 0).group 1).barCores == [5]) = true := by decide +kernel

theorem test_witness_fence_barrier :
    (Ready (.fence z true false false) z [] (st .L { on .L [] with xfers := [xfer1] }) ∧ xfer1.load = true) ∧
    (Ready (.fence z true true true) z [] (st .L (on .L [])) ∧ (st .L (on .L [])).me.xfersOf .L = []) ∧
    (Ready (bar1 none) z [7] (st .C (on .C [(7, 1)])) ∧ okWith (releaseAlone 5 4 (st .C (on .C [(7, 1)]))) (fun _ _ => true) = true ∧
      ((st .C (on .C [(7, 1)])).die 0 |>.group 1).isValid = false) ∧
    (Ready (bar1 none) z [7] (barAt none []) ∧ ((barAt none []).die 0 |>.group 1).isValid = true ∧
      bit ((barAt none []).die 0 |>.group 1).part 5 = true ∧ okWith (barRelease 5 4 (barAt none [])) (fun _ _ => true) = true) ∧
    (Ready (bar1 (some 8)) z [7, 8] (barAt none []) ∧ 0 + 1750 * ((barAt none []).g 8).toNat ≤ (barAt none []).clock) ∧
    (Ready (bar1 none) z [7] (barAt none [6]) ∧ ((barAt none [6]).die 0 |>.group 1).count ≤ ([6] ++ [5]).length) ∧
    (Ready (bar1 none) z [7] (barAt (some ⟨bar1 none, 0, true, false, 0⟩) [5])) ∧
    (Ready (bar1 (some 8)) z [7, 8] (barAt (some ⟨bar1 (some 8), 0, true, false, 0⟩) [5])) ∧
    (Ready (bar1 none) z [7] (barAt (some ⟨bar1 none, 0, true, false, 0⟩) [5, 6])) ∧ Ready (.icinv z) z [] (st .X (on .X [])) :=
  ⟨⟨rdy (by decide +kernel), rfl⟩, ⟨rdy (by decide +kernel), by decide +kernel⟩, ⟨rdy (by decide +kernel), by decide +kernel, by decide +kernel⟩,
    ⟨rdy (by decide +kernel), by decide +kernel, by decide +kernel, by decide +kernel⟩, ⟨rdy (by decide +kernel), by decide +kernel⟩,
    ⟨rdy (by decide +kernel), by decide +kernel⟩, rdy (by decide +kernel), rdy (by decide +kernel), rdy (by decide +kernel), rdy (by decide +kernel)⟩

/-- LC is register 0x011 (R93). -/
theorem test_sysw_sysr : runs (.sysw z 8 0x011 0) (st .L (on .L [(8, 0x123)])) (fun t => t.mySeq.lc == 0x123 && t.mySeq.pc == 0x1008) &&
    runs (.sysr z 8 0x011 1) (st .C { on .C [] with x := { parked := true, lc := 7 } }) (fun t => t.g 8 == 7) = true := by decide +kernel

theorem test_witness_special_registers :
    (Ready (.sysr z 6 0x013 0) z [] (st .L (on .L [])) ∧ decodeTrap (.sysr z 6 0x013 0) (st .L (on .L [])) = none) ∧
    (Ready (.sysr z 6 0x201 3) z [] (st .C (onP [])) ∧ decodeTrap (.sysr z 6 0x201 3) (st .C (onP [])) = none) ∧
    (Ready (.sysw z 8 0x013 1) z [8, 9] (st .C { on .C [] with x := { parked := false } }) ∧
      decodeTrap (.sysw z 8 0x013 1) (st .C { on .C [] with x := { parked := false } }) = none ∧
      (st .C { on .C [] with x := { parked := false } }).me.partFree .X = false) ∧
    (Ready (.sysw z 8 0x013 0) z [8, 9] (st .L (on .L [(9, 0x80000000)])) ∧ ringOk 16 ((st .L (on .L [(9, 0x80000000)])).pair 8).toNat = false) ∧
    (Ready (.sysw z 8 0x013 1) z [8, 9] (st .C (on .C [])) ∧ (st .C (on .C [])).me.partFree .X = true ∧ ringOk 16 ((st .C (on .C [])).pair 8).toNat = true) :=
  ⟨⟨rdy (by decide +kernel), by decide +kernel⟩, ⟨rdy (by decide +kernel), by decide +kernel⟩,
    ⟨rdy (by decide +kernel), by decide +kernel, by decide +kernel⟩, ⟨rdy (by decide +kernel), by decide +kernel⟩,
    rdy (by decide +kernel), by decide +kernel, by decide +kernel⟩

theorem test_witness_buffer_once : (oneLine .L []).me.psbOk ∧ (3 : Nat) = 0x1003 % 128 ∧
    (mem1 [(6, 5)]).me.psbOk ∧ runs (.st z ⟨.b8, 6, 2, 0, 4088⟩) (mem1 [(6, 5)]) (fun t => t.me.psb.length == 1) = true :=
  ⟨by unfold Core.psbOk; decide +kernel, rfl, by unfold Core.psbOk; decide +kernel, by decide +kernel⟩

/-- An invalidation descriptor at 0x6000: context 0's page at VA 0x8000_0000_0000_1000. -/
def invAt (a : Word) (w : Option Waiting) : State :=
  words { mapped (st .C { onP [] with c := { parked := false, pc := 0x1000, wait := w }, pg := [(8, a)] }) with clock := 1 }
    [(0x6000, 0x8000000000001000), (0x6008, 4096)]

theorem test_xlinv : runs (.xlinv z 8 0) (invAt 0x6000 none) (fun t => t.tlb == [] && t.mySeq.pc == 0x1000 && t.me.inval.isSome) &&
    runs (.xlinv z 8 0) (invAt 0x7000 none) (fun t => t.rd 0x7018 8 == 2 && t.mySeq.pc == 0x1008) = true := by decide +kernel

theorem test_witness_invalidate_sleep :
    (Ready (.xlinv z 8 0) z [8, 9] (invAt 0x6010 none) ∧ decodeTrap (.xlinv z 8 0) (invAt 0x6010 none) = none ∧ ((invAt 0x6010 none).pair 8).toNat % 32 ≠ 0) ∧
    (let s := { invAt 0 none with cores := [(5, { onP [] with pg := [(9, 0x80)] })] };
      Ready (.xlinv z 8 0) z [8, 9] s ∧ (s.pair 8).toNat = 2 ^ 39 ∧ paOk (2 ^ 39) = false) ∧
    (let s := { invAt 0x6000 none with poison := [(0xC01, true)] };
      Ready (.xlinv z 8 0) z [8, 9] s ∧ s.poisoned 0x6000 32 = true) ∧
    (Ready (.xlinv z 8 0) z [8, 9] (invAt 0x7000 none) ∧ (invAt 0x7000 none).poisoned 0x7000 32 = false ∧ (invAt 0x7000 none).invDesc 0x7000 = none) ∧
    (Ready (.xlinv z 8 0) z [8, 9] (invAt 0x6000 none) ∧ ((invAt 0x6000 none).invDesc 0x6000).isSome = true ∧
      okWith (ctxEnt 0 0 (invAt 0x6000 none)) (fun _ t => decide (t = invAt 0x6000 none)) = true) ∧
    (Ready (.xlinv z 8 0) z [8, 9] (invAt 0x6000 (some ⟨.xlinv z 8 0, 0, true, false, 0⟩)) ∧
      (invAt 0x6000 (some ⟨.xlinv z 8 0, 0, true, false, 0⟩)).me.inval = none) ∧
    (Ready (.sleep z 7) z [7] (st .C { on .C [] with event := true })) ∧
    (Ready (.sleep z 7) z [7] (st .C (on .C [(7, 1)])) ∧ (st .C (on .C [(7, 1)])).me.event = false ∧
      ¬ (st .C (on .C [(7, 1)])).issuedAt + 1750 * 1 ≤ (st .C (on .C [(7, 1)])).clock) :=
  ⟨⟨rdy (by decide +kernel), by decide +kernel, by decide +kernel⟩, ⟨rdy (by decide +kernel), by decide +kernel, by decide +kernel⟩,
    ⟨rdy (by decide +kernel), by decide +kernel⟩, ⟨rdy (by decide +kernel), by decide +kernel, by decide +kernel⟩,
    ⟨rdy (by decide +kernel), by decide +kernel, by decide +kernel⟩, ⟨rdy (by decide +kernel), by decide +kernel⟩, rdy (by decide +kernel),
    rdy (by decide +kernel), by decide +kernel, by decide +kernel⟩

theorem test_witness_slice_seeds : homeDie 0 = 0 ∧ (State.reset.die 0).sliceGens = [] ∧ State.reset.bootFailed = false := by decide +kernel
/-- Slice 0 seeded with 1: one step of xorshift32 is 0x0004_2021 (R128). -/
theorem test_l2seed : runs (.l2seedWrite 0 1) State.reset (fun t => (t.stepSlice 0).1 == 0x42021) = true := by decide +kernel

/-! Events: control registers and cores. -/

def failed : State := { dies := [(0, { bootErr := 3 })] }
def runL : State := { cores := [(5, on .L [])] }

theorem test_register_write : runs (.registerWrite 1 0x9000300 0x1_FFFF_FFFF_FFC0) State.reset (fun t =>
      t.ctlRead 1 0x9000300 == (0x1FFFFFFFFC0, false) && t.ctlRead 0 0x9000300 == (0, false)) &&
    runs (.calownWrite 0 3 1 7) State.reset (fun t => (t.die 0).calPend == [(3, 1, 7, 0)]) &&
    runs (.calownWrite 0 3 16 7) State.reset (fun t => (t.die 0).calPend == []) = true := by decide +kernel

theorem test_witness_control_writes :
    State.reset.bootFailed = false ∧ (0x9000200, 32) ∈ plainRegs ∧ (0x9000AD0, 32) ∈ plainRegs ∧ (0x9000204 % 8 ≠ 0 ∨ 0x10000000 ≤ 0x9000204) ∧
    (runL.bootFailed = false ∧ 31 < 32 ∧ (runL.core 5).partFree .L = false ∧ (runL.core 5).partFree .X = true) ∧
    (let s : State := { dies := [(0, { agesh := 15 })], tasks := [task3] };
      s.bootFailed = false ∧ (s.die 0).agesh = 15 ∧ ∀ x, x ∈ s.tasks → ∀ f, f ∈ x.frames → f.age < 2 ^ 32) ∧
    (143 < 144 ∧ 15 < 16 ∧ ¬ ((15 : Nat) = 0 ∨ (15 : Nat) = 8 ∨ 0x90 ≤ (0x8F : Byte).toNat ∧ (0x8F : Byte).toNat ≤ 0xFE)) ∧
    ((1 : DWord).getLsbD 0 = true ∧ (State.reset.chan 63).w0.getLsbD 0 = false) ∧ (State.reset.die 1).mail = [] ∧
    (failed.bootFailed = true ∧ (0x90009F8 < 0x9000A00)) := by decide +kernel

def halt (xs : List Xfer) : State := { cores := [(5, { halted := true, xfers := xs })] }

theorem test_corectl : runs (.corectlStart 0) { cores := [(0, { c := { rpc := 0x40 } })] } (fun t => !(t.core 0).c.parked &&
      (t.core 0).c.pc == 0x40) &&
    runs (.corectlReset 5) (halt []) (fun t => !(t.core 5).halted && (t.core 5).l.parked) = true := by decide +kernel

def waitC (w : Waiting) (k : Core) : Core := { k with c := { k.c with wait := some w } }
/-- Core 5's C-seq in TQPOP since clock 0, with task 3 to be had. -/
def popping (i : Instr) : State := { offered .C (waitC ⟨i, 0, false, false, 0⟩ (on .C [(4, 0)])) with cur := 7, curSeq := .L }
def sleeping : State :=
  { cores := [(5, waitC ⟨.sleep z 7, 0, false, false, 0⟩ (on .C [(7, 1)]))], clock := 1750 }
def timing (clock : Nat) : State :=
  { barAt (some ⟨bar1 (some 8), 0, true, false, 0⟩) [5] with clock := clock, cores := [(5, { on .C [] with
    c := { parked := false, pc := 0x1000, g := [(7, 1), (8, 1)], wait := some ⟨bar1 (some 8), 0, true, false, 0⟩ } })] }

theorem test_witness_core_events_1 :
    (((({} : State).core 5).halted = false) ∧ ((halt [xfer1]).core 5).halted = true ∧ ((halt [xfer1]).core 5).xfers ≠ [] ∧
      ((halt []).core 5).cur = none ∧ ((halt []).ecnt 5 .L 0 = 0)) ∧
    ((State.reset.core 0).cur = none ∧ 0 % 144 = 0 ∧ (State.reset.core 0).c.parked = true ∧ State.reset.sectorReady 5 = false) ∧
    ((runL.core 5).l.wait = none ∧ runL.mayIssue 5 .L = true) ∧
    (let s := popping (.tqpop z 6 none); let u := { s with cur := 5, curSeq := .C };
      s.mayIssue 5 .C = true ∧ (s.core 5).dueA = none ∧ readyB (.tqpop z 6 none) z [] u = true ∧ u.me.cur = none ∧
        okWith (popBlock 5 u) (fun a s1 => a.isSome && okWith (stampNow 0 0 s1) fun _ _ => true) = true) ∧
    (let s := { popping (.tqpop z 6 (some 4)) with dies := [] }; let u := { s with cur := 5, curSeq := .C };
      s.mayIssue 5 .C = true ∧ readyB (.tqpop z 6 (some 4)) z [4] u = true ∧ 0 + 1750 * (u.g 4).toNat ≤ s.clock ∧
        okWith (popBlock 5 u) (fun a s1 => a.isNone && !s1.popSoon 5) = true) ∧
    (let u := { sleeping with cur := 5, curSeq := .C };
      sleeping.mayIssue 5 .C = true ∧ (sleeping.core 5).dueA = none ∧ u.g 7 ≠ 0 ∧ 0 + 1750 * (u.g 7).toNat ≤ sleeping.clock ∧
        readyB (.sleep z 7) z [7] u = true) := by decide +kernel

theorem test_witness_core_events_2 :
    (readyB (bar1 (some 8)) z [7, 8] (timing 1749) = true ∧ (timing 1749).mayIssue 5 .C = true ∧ (timing 1749).clock < 0 + 1750 * ((timing 1749).g 8).toNat) ∧
    (readyB (bar1 (some 8)) z [7, 8] (timing 1750) = true ∧ 0 + 1750 * ((timing 1750).g 8).toNat ≤ (timing 1750).clock ∧
      (((timing 1750).die 0).group 1).barCores.length < (((timing 1750).die 0).group 1).count) ∧
    (let s : State := { cores := [(5, { on .L [] with trapping := some ⟨.L, cALIGN, 1, 0x1008⟩ })] };
      (s.core 5).xfers = [] ∧ (s.core 5).nest = 0 ∧ (s.core 5).cur = none ∧ cALIGN ≠ cPREEMPT ∧ cALIGN ≠ cECC ∧ (s.core 5).l.wait = none) ∧
    (let s : State := { cores := [(5, waitC ⟨bar1 none, 0, false, true, 0⟩ { on .C [] with wdog := 1 })], clock := 1750 };
      (s.core 5).wdog ≠ 0 ∧ (s.core 5).halted = false ∧ (s.core 5).pend = [] ∧ (s.core 5).c.parked = false ∧
      (s.core 5).l.parked = true ∧ (s.core 5).x.parked = true ∧ (s.core 5).s.parked = true ∧ 0 + 1750 * (s.core 5).wdog.toNat ≤ s.clock) ∧
    (let s : State := { tasks := [{ task3 with frames := [], waiting := [⟨0, 0, 0, [0]⟩] }] };
      s.tasks.filter (·.is 0 3) = s.tasks ∧ s.frameCount 0 < 65536) ∧
    (let s := invAt 0x6000 none;
      ((s.modMe fun k => { k with inval := s.invDesc 0x6000 }).core 5).inval.isSome = true ∧ s.me.psb = []) ∧
    (let s : State := { atsReqs := [⟨0, 9, 5, true, false⟩], ats := [⟨0, 9, 5, 77, true, false, false, true⟩, ⟨0, 9, 6, 78, true, false, false, true⟩] };
      s.cores = [] ∧ (∃ q, q ∈ s.atsReqs ∧ q.die = 0 ∧ q.pasid = 9 ∧ q.page = 5 ∧ q.write = true) ∧ 4096 * 5 < 0x5000 + 4096 ∧ 0x5000 < 4096 * 6) := by
  decide +kernel

theorem test_ats : runs (.atsInvalidationRequest 0 9 0x5000 4096) { ats := [⟨0, 9, 5, 77, true, false, false, true⟩,
    ⟨0, 9, 6, 78, true, false, false, true⟩] } (fun t => t.ats == [⟨0, 9, 6, 78, true, false, false, true⟩] &&
      t.pcie == [.invalidationCompletion 0 9 0x5000 4096]) = true := by decide +kernel

/-! Events: the scheduler and the engines. -/

/-- Command 4 of core 5's C-seq, in the block of a stage task of slot 2. -/
def com (kind : CmdKind) (g : List Word) (phase : Nat) : Cmd := {
  id := 4, kind, op := 0x90, core := 5, seq := .C, ctr := 1, g0 := g.getD 0 0, g1 := g.getD 1 0, g2 := g.getD 2 0, g3 := g.getD 3 0,
  ctx := 0, priv := false, acq := false, rel := false, scope := 4, buf := 0, rd := 6,
  block := some { blk with info := { info with stagev := true, stage := 2 } }, since := 0, phase }
def isCom (s : State) (kind : CmdKind) (phase : Nat) : Bool :=
  (s.cmd 4).any fun k => k.kind == kind && k.phase == phase && decide (k.core < 288)
def engine (kind : CmdKind) (g : List Word) (phase : Nat) (more : List (Nat × Nat)) : State :=
  words { st .C (on .C []) with
    cmds := [com kind g phase], tlb := [page 293 0x8000000000003000 0x3000],
    chans := [(1, { w0 := BitVec.ofNat 64 (1 + 12 * 2 ^ 24), delivered := 64 })] } ([(8, 0x200000)] ++ more)

/-- A copy of 32 bytes from local 0x100 to local 0x200, issued, and admitted to the range checker. -/
def copyW : List Nat := [0x100, 0, 0x200, 0, 32, 0, 0, 0]
def issuedCopy (kind : CmdKind) : State :=
  let s := engine kind [0x3000, 0x80000000] 0 [(0x3000, 0x100), (0x3010, 0x200), (0x3020, 32)]
  { s with cores := [(5, { on .C [] with store := [(0x100, 0xAA), (0x11F, 0xBB)] })] }
def admittedCopy (kind : CmdKind) (code : Nat) : State :=
  { issuedCopy kind with cmds := [{ com kind [0x3000, 0x80000000] 0 with
    admitted := true, code, words := copyW, feet := (copyDescOf copyW).foot }] }

theorem test_copy : runs (.engineCommandCompletion 4) (issuedCopy .cpy) (fun t =>
      t.cmds.map (fun k => (k.admitted, k.words, k.feet)) == [(true, copyW, [⟨16, 17, false⟩, ⟨32, 33, true⟩])]) &&
    runs (.engineCommandCompletion 4) (admittedCopy .cpy 0) (fun t => (t.core 5).lsByte 0x200 == (0xAA, false) &&
      (t.core 5).lsByte 0x21F == (0xBB, false) && t.cmds == []) = true := by decide +kernel

/-- A copy admitted before command 4 is not yet there. -/
def behind : State := { issuedCopy .cpy with cmds := [{ com .cpy [] 0 with id := 3 }] }

theorem test_witness_copy_apart : apart ((copyDescOf copyW).srca, (copyDescOf copyW).size)
    ((copyDescOf copyW).dsta, (copyDescOf copyW).size) := by
  show _ ∨ _
  decide

theorem test_witness_engines_1 :
    (State.reset.cmd 4 = none) ∧
    (isCom (engine .chrel [64] 0 []) .chrel 0 = true ∧ (chrelBad (com .chrel [64] 0) ((engine .chrel [64] 0 []).chan 0)).isSome = true) ∧
    (isCom (engine .chrel [1, 64] 0 []) .chrel 0 = true ∧ chrelBad (com .chrel [1, 64] 0) ((engine .chrel [1, 64] 0 []).chan 1) = none) ∧
    (isCom (issuedCopy .cpyr) .cpyr 0 = true ∧ (issuedCopy .cpyr).oldAdmitted 5 4 = true ∧
      okWith ((com .cpyr [0x3000, 0x80000000] 0).readDesc ((issuedCopy .cpyr).acquired (com .cpyr [0x3000, 0x80000000] 0)))
        (fun w _ => match w with | .ok w => w == copyW | .error _ => false) = true ∧
      behind.oldAdmitted 5 4 = false) ∧
    (let s := admittedCopy .cpyr 0; let d := copyDescOf copyW;
      s.rangeFree 5 4 d.foot = true ∧ d.bad true = none ∧ d.bad false = none ∧ d.sk = 0 ∧ d.dk = 0 ∧ d.cal = false ∧
        okWith (putStatus16 (agentCopy 5) (com .cpyr [0x3000, 0x80000000] 0) 0x8000000000003028 0 s) (fun st _ => st == 0) = true) ∧
    (isCom (admittedCopy .cpy 9) .cpy 0 = true ∧ (admittedCopy .cpy 9).rangeFree 5 4 (copyDescOf copyW).foot = true) := by decide +kernel

/-- STRLD of tensor 8's first 16 rows of 16 elements, to rows of 16 bytes from local address 0x1000; the tensor is one
tile of 16 rows of 2,048 elements, at physical address 0x8000. -/
def ldx : Xfer := {
  id := 4, seq := .L, load := true, san := 4, sa := [8, 2 + 16 * 5, BitVec.ofNat 64 (16 * 2 ^ 32)],
  sb := [0x1000, 16 * 5, BitVec.ofNat 64 (16 * 2 ^ 32)], tx := false, ctx := 0, priv := false, parts := [],
  spots := (List.range 16).flatMap fun i => (List.range 16).map fun j => .at_ 0 [0x8000 + 2048 * i + j] }
def loading : State :=
  words (st .L { on .L [] with xfers := [ldx] }) [(8, 0x200000), (0x20, 0x4000), (0x28, 9), (0x4400, 0x1000000010),
    (0x4408, 0x100000001), (0x4410, 2 ^ 63 + 4 + 11 * 2 ^ 4 + 5 * 2 ^ 16), (0x4440, 0x5000), (0x5000, 8 + 2 ^ 36),
    (0x8000, 0x8877665544332211)]

theorem ldx_local (i j : Nat) : ldx.localBit i j = 8 * (4096 + (0 + i) * 16) + (0 + j) * 8 := by
  have h1 : ldx.tr = false := by decide
  have h2 : ldx.width = 8 := by decide
  have h3 : ldx.sb.base % 2097152 = 4096 ∧ ldx.sb.coord 0 = 0 ∧ ldx.sb.coord 1 = 0 ∧ ldx.sb.pitch = 16 := by decide
  simp [Xfer.localBit, opCoord, h1, h2, Stream.localBit, h3.1, h3.2.1, h3.2.2.1, h3.2.2.2]

theorem test_load_tensor : runs (.streamTransferRetirement 4) loading (fun t => (t.core 5).lsByte 0x1001 == (0x22, false) &&
    (t.core 5).xfers == []) = true := by decide +kernel

theorem test_witness_transfer :
    (State.reset.xfer 4 = none) ∧ (loading.xfer 4 = some (5, ldx) ∧ ldx.parts = [] ∧ ldx.sa.kind = 2) ∧
    (loading.rangeFree 5 4 ldx.foot = true ∧ ∀ z, z ∈ ldx.spots → z = .absent ∨ ∃ off pas, z = .at_ off pas) ∧
    (∀ p p', p ∈ ldx.cells → p' ∈ ldx.cells → p ≠ p' → apart (ldx.localBit p.1 p.2, ldx.width) (ldx.localBit p'.1 p'.2, ldx.width)) :=
  ⟨by decide +kernel, by decide +kernel, ⟨by decide +kernel, fun z hz => by
      simp only [ldx, List.mem_flatMap, List.mem_map, List.mem_range] at hz
      obtain ⟨i, -, j, -, rfl⟩ := hz
      exact .inr ⟨_, _, rfl⟩⟩, fun p p' hp hp' hne => by
    have h (p : Nat × Nat) (hp : p ∈ ldx.cells) : p.1 < 16 ∧ p.2 < 16 := by
      have hr : ldx.rows = 16 ∧ ldx.cols = 16 := by decide
      simp only [Xfer.cells, hr.1, hr.2, List.mem_flatMap, List.mem_map, List.mem_range] at hp
      obtain ⟨i, hi, j, hj, rfl⟩ := hp
      exact ⟨hi, hj⟩
    have hw : ldx.width = 8 := by decide
    have := h p hp
    have := h p' hp'
    have hne : p.1 ≠ p'.1 ∨ p.2 ≠ p'.2 := by
      by_contra hc; exact hne (Prod.ext (by omega) (by omega))
    simp only [apart, ldx_local, hw]
    omega⟩

/-- A stalled STASH of tensor 7's tile 0, and a directory entry for it when `dir` is set. -/
def stalled (kind : CmdKind) (dir : List DirEnt) (clock : Nat) : State :=
  words { st .C (on .C []) with
    cmds := [com kind [7, 0, 0] 1], clock := clock, dies := [(0, { dir := dir })] } ([(8, 0x200000)] ++ tens plainT ++ [(0x5000, 8 + 2 ^ 36)])
def ent : DirEnt := ⟨0, 0, 7, 0, 0, 9, 0, 0⟩

theorem test_witness_engines_2 :
    (isCom (stalled .stash [] 0) .stash 1 = true ∧ okWith (stashState (com .stash [7, 0, 0] 1) (stalled .stash [] 0)) (fun a _ => a.isNone) = true) ∧
    (isCom (stalled .stash [ent] 0) .stash 1 = true ∧ okWith (stashState (com .stash [7, 0, 0] 1) (stalled .stash [ent] 0)) (fun a s1 =>
      match a with
      | some (p, e, d) => okWith (stashOn (com .stash [7, 0, 0] 1) p e d s1) fun _ _ => true
      | none => false) = true) ∧
    ((stalled .stash [ent] 1749999).stoOver (com .stash [7, 0, 0] 1) = false ∧ (stalled .stash [ent] 1750000).stoOver (com .stash [7, 0, 0] 1) = true ∧
      okWith (cutStash (com .stash [7, 0, 0] 1) ent 0x0C (stalled .stash [ent] 1750000)) (fun _ _ => true) = true) ∧
    ((stalled .stash [] 1750000).stoOver (com .stash [7, 0, 0] 1) = true) ∧
    (isCom (stalled .stfetch [] 1750000) .stfetch 1 = true ∧ (stalled .stfetch [] 1750000).stoOver (com .stfetch [7, 0, 0] 1) = true ∧
      (stalled .stfetch [] 1750000).joiners (com .stfetch [7, 0, 0] 1) = []) := by decide +kernel

/-- Group 1, one of its two contributions in, or both. -/
def push (cs : List Contrib) (timeout clock : Nat) : State :=
  { dies := [(0, { groups := [(1, { grp [] with state := 1, contribs := cs, timeout })] })], clock }

theorem test_push : runs (.pushReduceCombine 0 1) (push [⟨5, 4, [0x3F800000]⟩, ⟨6, 5, [0x40000000]⟩] 0 0) (fun t =>
    (((t.die 0).group 1).contribs.length == 0) && ((t.die 0).group 1).state == 0) = true := by decide +kernel

theorem test_witness_engines_3 :
    (let x := ((push [⟨5, 4, [1]⟩, ⟨6, 5, [2]⟩] 0 0).die 0).group 1;
      x.state = 1 ∧ x.contribs.length = x.count ∧ x.count ≠ 0 ∧ x.combined.isSome = true) ∧
    (let s := push [⟨5, 4, [1]⟩] 2 3500; let x := (s.die 0).group 1;
      x.state = 1 ∧ x.contribs.length ≠ x.count ∧ x.timeout ≠ 0 ∧ x.since + 1750 * x.timeout ≤ s.clock ∧ x.combined.isSome = true) := by
  decide +kernel

/-- Channel 9 of stage slot 2 of die 0, with a record for it. -/
def record (x : StageSlot) (pages : List TlbEnt) : State :=
  { staged [] x [] with tlb := pages, chans := [(9, { w0 := BitVec.ofNat 64 (2 ^ 19 + 2 * 2 ^ 20), recs := [(0x20005, 0x100000000000)] })] }

theorem test_arrival : runs (.arrivalRecordAppend 9) (record (slot2 2 0 []) [page 582 0x8000000000003000 0x3000]) (fun t =>
    t.rd 0x3400 8 == 0x20005 && (t.chan 9).recs == [] && (t.stage 0 2).qb.recs.length == 1) = true := by decide +kernel

theorem test_witness_engines_4 :
    (let s := record (slot2 2 0 []) [];
      (s.chan 9).recs ≠ [] ∧ (s.chan 9).stgdie = 0 ∧ (s.chan 9).stg = 2 ∧ (s.stage 0 2).state ≠ 0 ∧ (s.chan 9).recFail = false ∧
        ((s.stage 0 2).q 2).recs.length < (s.stage 0 2).qCap 2 ∧
        okWith (agWriteBytes (agPenn 0) 0 0 0x8000000000003400 (wordBytes [0x20005, 0x100000000000]) s) (fun ok _ => !ok) = true) ∧
    (let s := record (slot2 2 0 []) [page 582 0x8000000000003000 0x3000];
      okWith (agWriteBytes (agPenn 0) 0 0 0x8000000000003400 (wordBytes [0x20005, 0x100000000000]) s) (fun ok s1 => ok && (s1.chan 9).w3 == 0) = true) ∧
    (let s := record { slot2 2 0 [] with qb := { recs := [⟨0x20001, 0, 0, false⟩] } } [];
      (s.stage 0 2).qCap 2 ≤ ((s.stage 0 2).q 2).recs.length) := by decide +kernel

/-- The stage with a forward arrival of tag 5 to release from TCB 3, its instances at TCB 56, at a state. -/
def going (state : Nat) (recs : List QRec) (rule : Nat) (pages : List TlbEnt) : State :=
  let x : StageSlot := {
    state, due := true, ptab := [5 + 256 * rule], repleft := 1, qf := { recs },
    desc := [0, 3, 56 * 2 ^ 32, 0, 1, 0x8000000000003400, 0x8000000000003400, 0, 0, 0x8000000000003A00, 0, 0, 0, 0, 0, 0, 0, 0, 0, 0, 0, 0x8000000000003900] }
  let s := staged [] x []
  { s with tlb := s.tlb ++ pages }
def going1 (pages : List TlbEnt) : State := going 2 [⟨0x10005, 0, 0, false⟩] 2 pages

theorem test_evaluation : runs (.stageEvaluation 0 2) (going 2 [⟨0x10005, 0, 0, false⟩] 0 [page 582 0x8000000000002000 0x2000]) (fun t =>
    t.tasks.length == 1 && ((t.stage 0 2).slotOf 5).isSome && (t.stage 0 2).qf.recs == []) = true := by decide +kernel

theorem test_witness_engines_5 :
    (let s := going 3 [] 0 [];
      (s.stage 0 2).state ≠ 0 ∧ (s.stage 0 2).due = true ∧ (s.die 0).mail = [] ∧ (s.stage 0 2).complete 2 = [] ∧ (s.stage 0 2).complete 3 = []) ∧
    (let s := going1 []; let x := s.stage 0 2;
      x.state = 2 ∧ x.isNew = false ∧ x.complete 2 = [] ∧ x.complete 3 = [] ∧ penRule x.cur = 2 ∧
        x.choose (s.holds 0 2) (penPh x.cur) (penRule x.cur) = none ∧ penSub x.cur = false) ∧
    (let s := going 2 [⟨0x10005, 0, 0, false⟩] 0 []; let x := s.stage 0 2;
      x.choose (s.holds 0 2) (penPh x.cur) (penRule x.cur) = some 5 ∧
        okWith (releaseTag 0 2 1 5 (s.modStage 0 2 fun x => { x with due := false })) (fun b _ => !b) = true) ∧
    (let s := going 2 [⟨0x10005, 0, 0, false⟩] 0 [page 582 0x8000000000002000 0x2000];
      okWith (releaseTag 0 2 1 5 (s.modStage 0 2 fun x => { x with due := false })) (fun b u2 => b &&
        okWith (evaluate 0 2 2 (u2.modStage 0 2 fun x => x.advance)) fun _ _ => true) = true) ∧
    (let s := { staged [] { slot2 2 0 [] with holdv := true } (tens (versT 3)) with clock := 1750000 }; let x := s.stage 0 2;
      x.holdv = true ∧ x.verfull = false ∧ x.holdvSince + 1750 * x.holdTo ≤ s.clock ∧ x.weights = [7] ∧
        okWith (tdesc 0 0 7 s) (fun _ _ => true) = true) ∧
    (let x : Die := { mblog := 4, mbbase := 0x7000, mail := [⟨1, 2, 3, 4⟩] };
      4 ≤ x.mblog.toNat ∧ x.mblog.toNat ≤ 12 ∧ (x.mbhead - x.mbtail).toNat < 2 ^ x.mblog.toNat ∧ paOk x.mbbase.toNat = true ∧ x.mail ≠ []) := by
  decide +kernel

theorem test_mailbox : runs (.mailboxPost 0) { dies := [(0, { mblog := 4, mbbase := 0x7000, mail := [⟨1, 2, 3, 4⟩] })] } (fun t =>
    t.rd 0x7008 8 == 2 && (t.die 0).mbhead == 1 && (t.die 0).mail == []) = true := by decide +kernel

/-! Events: the links and the memory. -/

/-- Port 2 trained, channel 9 on it enabled with a ring of 4 KiB at VA 0x8000_0000_0000_3000, of context 0. -/
def linked (p : Port) (rx : Nat) : State :=
  words { ({} : State) with
    ports := [(2, p)], tlb := [page 579 0x8000000000003000 0x3000],
    chans := [(9, { w0 := BitVec.ofNat 64 (1 + 2 * 2 + 2 ^ 19 + 2 * 2 ^ 20 + 12 * 2 ^ 24), w1 := 0x8000000000003000, rxBytes := rx })] } [(8, 0x200000)]
def bytes8 : List RByte := [1, 2, 3, 4, 5, 6, 7, 8].map fun b => (b, false)
def flit (seqNo : Nat) (ok last : Bool) : Instr := .dataFlit 2 seqNo 9 0 ok last ⟨5, 1, 7, 8⟩ bytes8

theorem test_flit : runs (flit 0 true true) (linked { trained := true } 0) (fun t => t.rd 0x3000 8 == 0x0807060504030201 &&
      (t.chan 9).delivered == 8 && (t.chan 9).recs == [(BitVec.ofNat 64 (5 + 2 ^ 16 + 9 * 2 ^ 18 + 7 * 2 ^ 32), BitVec.ofNat 64 (8 * 2 ^ 32))]) &&
    runs (flit 1 true true) (linked { trained := true } 0) (fun t => (t.port 2).nacks == 1 && (t.chan 9).delivered == 0) = true := by
  decide +kernel

/-- Two commands on the link: a CHSEND on channel 9 that has been sent, or a COLL that has sent to it. -/
def sent (kind : CmdKind) : State :=
  { linked { trained := true, replays := 16 } 0 with cmds := [{ com kind [0, 16, 9 * 2 ^ 18] 1 with walk := { sent := [9] } }] }

theorem test_ack : runs (.acknowledgementOfPublication 9 ⟨0, 0⟩) (sent .chsend) (fun t => t.cmds == [] && (t.core 5).event) = true := by decide +kernel

theorem test_witness_links :
    ((linked {} 0).port 2).trained = false ∧
    (let s := linked { trained := true, rx := 65536 } 0; let c := s.chan 9;
      (s.port 2).trained = true ∧ 0 = (s.port 2).rx % 65536 ∧ c.enabled = true ∧ c.rxFail = false ∧ c.rxBytes + 8 = 8 ∧ c.stgv = true ∧
        okWith (ringWrite 9 (c.delivered + 0) c bytes8 s) (fun v _ => v == 0) = true) ∧
    ((linked { trained := true } 0).chan 8).enabled = false ∧
    ((State.reset.unacked 9).isNone = true ∧ ((sent .chsend).unacked 9).isSome = true ∧ ((sent .coll).unacked 9).isSome = true) ∧
    (((State.reset.walker 0 3).isNone = true) ∧ (State.reset.die 0).held + 65536 ≤ 65536 ∧ 65536 < (State.reset.die 0).held + 65537) ∧
    (16 ≤ ((sent .chsend).port 2).replays ∧ ((sent .chsend).port 2).trained = true ∧
      ((sent .chsend).cmds.filter ((sent .chsend).usesPort · 2)).length = 1 ∧ (sent .chsend).cmds.all (fun k => decide (k.core < 288)) = true) := by
  decide +kernel

/-- A COLL whose walker has started under identifier 3 (R252). -/
def walking : State :=
  { st .C (on .C []) with cmds := [{ com .coll [] 1 with walk := { words := [3 * 2 ^ 16], started := true } }] }
theorem test_witness_walker : (walking.walker 0 3).isSome = true ∧
    (walking.walker 0 3).any (fun k => k.walk.ready ⟨3, true, 0, [], none, none⟩ && okWith (applyMsg k.id ⟨3, true, 0, [], none, none⟩ walking) fun _ _ => true) = true := by
  decide +kernel

def calAt (clock done : Nat) (pend : List (Nat × Nat × Byte × Nat)) (xs : List Xfer) : State :=
  { clock, dies := [(0, { calSlots := Store.set 0 [] 3 done, calPend := pend, chans := [(3, { rows := [(0, some (1, true))] })] })],
    cores := [(92, { xfers := xs })] }

theorem test_calendar : runs (.calendarSlotStart 0 3 none) (calAt 257 5 [(3, 2, 7, 0), (3, 4, 9, 1), (4, 2, 8, 0)] []) (fun t =>
    (t.die 0).owner 3 2 == 7 && (t.die 0).calPend == [(3, 4, 9, 1), (4, 2, 8, 0)] && ((t.die 0).chan 3).rows == []) = true := by decide +kernel

/-- Core 92 owns slot 2 of channel 3; its transfer has a part there that came at clock `since`. -/
def calPart (since : Nat) : State := calAt 18 2 [] [{ xfer1 with parts := [⟨0x300, since⟩] }]

/-- A part is served in a slot of its core when it had come by clock 1 of the slot (R183). -/
theorem test_calendar_part :
    runs (.calendarSlotStart 0 3 none) (calPart 17) (fun t => (t.core 92).xfers.all fun x => x.parts.isEmpty) &&
    runs (.calendarSlotStart 0 3 none) (calPart 18) (fun t => (t.core 92).xfers.all fun x => x.parts == [⟨0x300, 18⟩]) = true := by
  decide +kernel

theorem test_witness_calendar :
    ((calAt 256 5 [] []).clock - (calAt 256 5 [] []).start) % 8 = 0 ∧
    (let s := calAt 257 5 [(3, 2, 7, 0)] [];
      Store.get 0 (s.die 0).calSlots 3 ≤ (s.clock - s.start) / 8 ∧ (s.clock - s.start) % 8 ≠ 0 ∧
      (s.die 0).calPend.filter (fun y => y.1 == 3 && decide (y.2.2.2 < 257 / 8 / 32)) = [(3, 2, 7, 0)] ∧ isMaint 3 2 = false ∧
      isMaint 3 (257 / 8 % 32) = true ∧ ((s.die 0).chan 3).drfm = []) ∧
    (let s := calPart 17; isMaint 3 (18 / 8 % 32) = false ∧ (s.die 0).owner 3 2 = 92 ∧ chanOf 0x300 = 3 ∧
      (s.partOf 92 0 3 (16 + 1)).isSome = true ∧ ((calPart 18).partOf 92 0 3 (16 + 1)).isNone = true) ∧
    (let s : State := { calAt 18 2 [] [] with dies := [(0, { calSlots := [(3, 2)], calown := [(98, 0x90)] })] };
      144 ≤ (s.die 0).owner 3 2 ∧ ((s.die 0).chan 3).drfm = []) ∧
    (let x : Channel := { held := true, drfm := [((Config.bankRow 0x300).1 % 32, 7)] };
      chanOf 0x300 = 3 ∧ homeDie 0x300 = 0 ∧ ({} : Channel).holdsBack 0x300 = false ∧ x.holdsBack 0x300 = true) :=
  ⟨by decide +kernel, by decide +kernel, by decide +kernel, by decide +kernel,
   by decide +kernel, by decide +kernel, rfl, by simp [Channel.holdsBack, Store.get]⟩

theorem test_witness_windows_lines :
    (let s : State := { clock := 56000000, dies := [(0, { chans := [(3, { trackers := [(0, {})] })] })] };
      (s.die 0).windows < s.clock / 56000000 ∧ ((s.die 0).chans.map (·.1)).Nodup) ∧
    (let s : State := { dies := [(0, { lines := [(200, { quad := 7, count := 3 })] })] }; let r : LineRec := Store.get {} (s.die 0).lines 200;
      3 ≤ r.count ∧ r.holder.getD (200 % 144) ≠ 24 * (r.quad / 6) + 2 * (r.quad % 6) ∧ (s.die 0).lines.length < 4096) := by decide +kernel

/-- Tensor 7, its TTE as given, with a free frame 9 of its size in the LP pool when `n` is 1. -/
def moving (tte n : Nat) : State :=
  words { ({} : State) with
    dies := [(0, { pools := [(6, { base := 0x7000, count := n, cap := 8 })] })] } ([(8, 0x200000)] ++ tens plainT ++ [(0x5000, tte), (0x7000, 9)])
def tteIs (s : State) (p : TDesc → Tte → State → Bool) : Bool :=
  okWith (tdesc 0 0 7 s) fun r s1 => match r with
    | .ok td => decide (0 < td.nt) && !td.vers && okWith (readTte td 0 0 s1) fun t s2 => p td t s2
    | _ => false

/-- A pinned tile stays, and the firmware is told (R189). -/
theorem test_tile_move : runs (.tileMove 0 0 7 0 0 true) (moving (8 + 2 ^ 35 + 2 ^ 36) 1) (fun t => t.rd 0x5000 8 == 8 + 2 ^ 35 + 2 ^ 36 &&
    (t.die 0).mail.length == 1 && (t.die 0).oldFrames.isEmpty) = true := by decide +kernel

theorem moveTte_ok (t : Tte) (f tier st : Nat) (h : (paOk t.addr && paOk (t.addr + 8 - 1)) = true) (u : State) :
    ∃ v, moveTte t f tier st u = .ok () v := ⟨_, if_pos h⟩

theorem test_witness_tile_move :
    tteIs (moving (8 + 2 ^ 29 + 2 ^ 36) 1) (fun _ t _ => !t.bad && t.accessible && t.tier == 1) &&
    tteIs (moving (8 + 2 ^ 35 + 2 ^ 36) 1) (fun _ t _ => !t.bad && t.accessible && t.state == 0 && t.tier == 0 && t.pin) &&
    tteIs (moving (8 + 2 ^ 36) 0) (fun _ t s2 => !t.pin && !t.shx && t.refcnt == 1 && (s2.popFrame 0 6).1.isNone) &&
    tteIs (moving (8 + 2 ^ 36) 1) (fun td t s2 => t.state == 0 && !t.shx && t.refcnt == 1 && (s2.popFrame 0 6).1 == some 9 &&
      td.tlog == 0 && paOk t.addr && paOk (t.addr + 8 - 1)) = true := by decide +kernel

theorem test_witness_old_frames :
    (let x : Die := { oldFrames := [⟨6, 9⟩], pools := [(6, { cap := 0 })] }; (x.pool 6).cap ≤ (x.pool 6).count) ∧
    (let x : Die := { oldFrames := [⟨6, 9⟩], pools := [(6, { cap := 8, base := 0x7000 })] }; (x.pool 6).count < (x.pool 6).cap) := by decide +kernel

/-! Events: the host. -/

/-- The ROM loader in step `k`, of an image that fails at step `f`. -/
def booting (k : BitVec 4) (f : Nat) : State :=
  let x : Die := { bootStep := k, loader := some (f, 9), bootPorts := 3 }
  { dies := [(0, x), (1, x)] }

theorem test_boot : runs (.boot 0 9 3) { hostMem := [(2 ^ 64 + 5, 7)] } (fun t => (t.die 1).bootStep == 1 &&
      t.byte (2 ^ 64 + 5) == 7) &&
    runs (.boot 4 9 3) (booting 4 4) (fun t => (t.die 1).bootErr == 4 && t.bootFailed && (t.die 0).svn == 0) &&
    runs (.boot 0 9 3) (booting 4 0) (fun t => (t.die 1).bootStep == 5 && !t.bootFailed && (t.die 0).svn == 9) &&
    runs (.boot 0 9 3) (booting 5 0) (fun t => (t.die 1).bootStep == 6) = true := by
  decide +kernel

/-- Booted as far as step `k`, with sectors of each die up. -/
def sectored (k : BitVec 4) (up0 up1 : BitVec 4) (clock : Nat) : State :=
  { dies := [(0, { bootStep := k, sectors := up0, bootPorts := 3 }), (1, { bootStep := k, sectors := up1 })], clock }

theorem test_last_sector : runs (.sectorStart 1 3) (sectored 6 15 7 3500) (fun t => !(t.die 0).ready && (t.port 1).trained &&
      !(t.port 2).trained && (t.die 1).bootStep == 7) &&
    runs (.sectorStart 1 3) (sectored 7 15 15 3500) (fun t => (t.die 0).ready && (t.die 1).bootStep == 8) = true := by
  decide +kernel

theorem test_witness_boot :
    (State.reset.die 0).loader = none ∧
    (((booting 4 4).die 0).loader = some (4, 9) ∧ ((booting 4 4).die 0).bootPorts = 3 ∧ 4 = ((booting 4 4).die 0).bootStep.toNat) ∧
    (((booting 5 0).die 0).loader = some (0, 9) ∧ 0 ≠ ((booting 5 0).die 0).bootStep.toNat) ∧
    ((sectored 6 0 0 0).sectorsUp = 0 ∧ (sectored 6 0 0 0).bootFailed = false ∧ ((sectored 6 0 0 0).die 0).bootStep = 6) ∧
    ((sectored 6 15 7 3500).sectorsUp = 7 ∧ 7 = 4 * 1 + 3 ∧
      ((sectored 6 15 7 3500).die 0).bootAt + 3500 ≤ (sectored 6 15 7 3500).clock ∧
      ((sectored 6 15 7 3500).die 0).loader = none) ∧
    ((sectored 7 15 15 0).bootFailed = false ∧ ((sectored 7 15 15 0).die 0).bootStep = 7) ∧
    (State.reset.die 0).attreq = none ∧ (({ dies := [(0, { attreq := some 64 })] } : State).die 0).attreq = some 64 := by decide +kernel

/-- Die 0's front end in the page at VA 0x8000_0000_0000_3000 and the queue table at 0x6000; HWBASE is 0x3000. -/
def fronted (words2 : List (Nat × Nat)) (clock : Nat) : State :=
  words { ({} : State) with
    clock := clock, dies := [(0, { qtbase := 0x6000, hwbase := 0x3000, run := true, bootErr := 0 })],
    tlb := [page 583 0x8000000000002000 0x2000, page 583 0x8000000000003000 0x3000, page 581 0x8000000000002000 0x2000,
            page 581 0x8000000000003000 0x3000] }
    ([(8, 0x200000), (0x10, 0x8000000000002000), (0x18, 64), (0x2180, 0x8000000000003000)] ++ words2)

theorem test_bar2 : runs (.hostBar2Access ⟨2, 0x100, 2⟩ (some [0x34, 0x12])) (fronted [] 0) (fun t => t.rd 0x3100 8 == 0x1234 && t.pcie == []) &&
    runs (.hostBar2Access ⟨2, 0x1000, 3⟩ none) (fronted [] 0) (fun t => t.pcie == [.completerAbort]) = true := by decide +kernel

theorem test_witness_bar2 :
    failed.bootFailed = true ∧ (fronted [] 0).bootFailed = false ∧
    okWith (agBytes (agHost 0) 0 0 0x8000000000003100 8 (fronted [] 0)) (fun l _ => l.isSome) = true ∧
    okWith (agBytes (agHost 0) 0 0 0x8000000000004000 8 (fronted [] 0)) (fun l _ => l.isNone) = true ∧
    okWith (agWrite (agHost 0) 0 0 0x8000000000003100 8 7 (fronted [] 0)) (fun ok _ => ok) = true ∧
    addrAdd (2 ^ 63 + ((fronted [] 0).die 0).hwbase.toNat) 0x100 = 0x8000000000003100 := by decide +kernel

theorem agWriteBytes_fails {agent die ctx va n : Nat} {bs : List RByte} {s : State} (hn : bs.length = n) (ht : twoHalves va n = false)
    (h : okWith (collect (pageParts va n) (fun p => do return (← xlAgent agent die ctx .store p.1, p)) s)
      (fun ps _ => ps.any fun p => p.1.isNone) = true) : ∃ s1, agWriteBytes agent die ctx va bs s = .ok false s1 := by
  subst hn
  unfold agWriteBytes
  rw [if_neg (by simp [ht])]
  revert h
  simp only [okWith, bind, EStateM.bind]
  cases collect (pageParts va bs.length) (fun p => do return (← xlAgent agent die ctx .store p.1, p)) s with
  | error => intro h; simp at h
  | ok ps s1 => intro h; exact ⟨s1, by simp only [h, if_pos]; rfl⟩

/-- A report of 30,048 bytes to VA 0x8000_0000_0000_2000, of which the last pages are not mapped. -/
theorem test_witness_report (bs : List RByte) (h : bs.length = 30048) :
    ∃ s1, agWriteBytes (agHost 0) 0 0 0x8000000000002000 bs (fronted [] 0) = .ok false s1 := agWriteBytes_fails h (by decide +kernel) (by decide +kernel)

/-- Queue 0, enabled with a ring of 16 at VA 0x8000_0000_0000_3200, and its first record. -/
def queue (wi log : Nat) (rec0 : List (Nat × Nat)) (clock : Nat) : State :=
  fronted ([(0x6000, 0x8000000000003200), (0x6008, wi), (0x6018, 1 + 2 * log)] ++ rec0) clock

theorem test_poll : runs (.collectionRoundPoll 0 0) (queue 1 4 [(0x3200, 4), (0x3210, 0x8000000000003100), (0x3218, 0x77)] 448) (fun t =>
      t.rd 0x6010 4 == 1 && t.ops.length == 1 && !(t.ops.any (·.begun))) &&
    runs (.collectionRoundPoll 0 0) (queue 0 4 [] 448) (fun t => (t.qpoll 0).interval == 896 && (t.qpoll 0).last == 448) = true := by decide +kernel

theorem test_witness_queues :
    (∀ b, 0x6000 ≤ b → b < 0x6000 + 32 → paOk b = true) ∧
    ((queue 0 4 [] 447).qpoll 0).last + ((queue 0 4 [] 447).qpoll 0).interval = 448 ∧
    ((fronted [] 448).rd 0x6018 8).testBit 0 = false ∧
    ((queue 0 3 [] 448).rd 0x6018 8 / 2 % 16 < 4 ∧ ((queue 17 4 [] 448).rd 0x6018 8).testBit 0 = true ∧ 2 ^ 4 < (17 + 2 ^ 32 - 0) % 2 ^ 32) ∧
    ((queue 0 4 [] 448).rd 0x6008 4 = (queue 0 4 [] 448).rd 0x6010 4) ∧
    (let s := queue 16 4 [(0x3200, 4)] 448; let p := s.qpoll 0; let u := s.setQpoll 0 { p with interval := 448, last := s.clock };
      (s.die 0).run = true ∧ s.rd 0x6008 4 ≠ s.rd 0x6010 4 ∧ p.chain = none ∧ s.ops = [] ∧
      okWith (agBytes (agHost 0) 0 0 0x8000000000003200 64 u) (fun l s1 => match l with
        | some l => !anyPoison l && !(rbytesNat (l.take 8)).testBit 8 && s1.queueAt 0 == 0x6000 && s1.qpoll 0 == { p with interval := 448, last := s.clock }
        | none => false) = true) :=
  ⟨fun b h1 h2 => by simp only [paOk]; simp; omega, by decide +kernel, by decide +kernel, by decide +kernel, by decide +kernel, by decide +kernel⟩

/-- An operator of queue 0 that is next to run: a word 0, a word 2 and a word 3. -/
def oper (w0 w2 w3 : Nat) (begun : Bool) (more : List (Nat × Nat)) : State :=
  { fronted more 0 with ops := [{ id := 1, prev := none, q := 0, die := 0, ctx := 0, words := [w0, 0, w2, w3, 0, 0, 0, 0], begun,
                                  status := 0, upto := 0, ended := [] }] }

theorem test_launch : runs (.launch 0) (oper 1 (3 + 2 ^ 24) 0 false []) (fun t => t.tasks.length == 1 && t.rd 0x30 4 == 1 &&
      t.ops.all (fun o => o.begun && o.upto == 1 && o.status == 0)) &&
    runs (.write 0) (oper 4 0x8000000000003100 0x99 false []) (fun t => t.rd 0x3100 8 == 0x99 && t.pcie == [.zeroRead]) = true := by decide +kernel

def opIs (s : State) (opc : Nat) (p : OpRun → Bool) : Bool :=
  match s.nextOp 0 opc with
  | some o => p o
  | none => false

theorem test_witness_operators :
    (State.reset.nextOp 0 1).isNone = true ∧
    (let s := oper 1 3 0 false []; opIs s 1 (fun o => o.count == 0 && okWith (ctxEnt 0 0 s) fun _ _ => true) = true) ∧
    (let s := oper 1 (3 + 2 ^ 24) 0 false [(8, 0)]; opIs s 1 (fun o => o.count == 1 && okWith (ctxEnt 0 0 s) fun c _ => !c.valid) = true) ∧
    (let s := oper 1 (63 + 2 * 2 ^ 24) 0 false []; opIs s 1 (fun o => okWith (ctxEnt 0 0 s) fun c _ => c.tcbSize == 64 && o.first + o.count == 65) = true) ∧
    (let s := oper 1 (3 + 2 ^ 24) 0 false [(0x2198, 0x8000000000003940), (0x3940, 1)];
      opIs s 1 (fun _ => okWith (findPostmaster 0 0 [3] s) fun h _ => h == some 3) = true) ∧
    (let s := oper 1 (3 + 2 ^ 24) 0 false [];
      opIs s 1 (fun _ => okWith (findPostmaster 0 0 [3] s) fun h s2 => h.isNone && okWith (newStamp 0 0 s2) fun _ s3 =>
        okWith (insertReady 0 0 [3] 0 s3) fun r _ => r == (0, 1)) = true) ∧
    (let s := oper 2 (8 + 2 * 16 + 2) 0 false [];
      opIs s 2 (fun o => okWith (pennOp (o.words.getD 2 0 / 8 % 2) 0 (o.words.getD 2 0 / 16 % 8) (o.words.getD 2 0 % 8) 0 s) fun _ _ => true) = true) ∧
    (let s := oper 4 0x8000000000003100 7 false []; opIs s 4 (fun o => okWith (agWrite (agHost 0) 0 0 (o.words.getD 2 0) 8 7 s) fun ok _ => ok) = true) ∧
    ((oper 3 0 0 false []).ops.any (fun o => o.opc == 3 && !o.begun) = true) ∧ ((oper 3 0 0 true []).ops.any (fun o => o.begun && o.upto == 0) = true) := by
  decide +kernel

theorem test_errors : runs (.correctableError 0) { dies := [(0, { cecnt := 0xFFFFFFFF })] } (fun t => (t.die 0).cecnt == 0xFFFFFFFF) &&
    runs (.uncorrectableError 0 (.memory 2)) State.reset (fun t => t.poisoned 16 8 && (t.die 0).uecnt == 1) &&
    runs (.uncorrectableError 0 (.localStore 5 2)) State.reset (fun t => (t.core 5).lsByte 16 == (0, true)) &&
    runs (.healthRefresh 0 [1, 2] [3] 9) State.reset (fun t => Store.get 0 (t.die 0).sage 1 == 2 && (t.die 0).eolh == 9) = true := by decide +kernel

theorem test_witness_errors : paOk (8 * 2) = true ∧ 3 < 4 := by decide +kernel

/-! More clauses of the events' statements. -/

/-- Channel 9, on port 2, of core 5, with a ring of 4 KiB at VA 0x8000_0000_0000_3000. -/
def sending (kind : CmdKind) (g : List Word) (grant : Option Grant) (up : Bool) : State :=
  { engine kind g 0 [] with
    ports := [(2, { trained := up })], tlb := [page (agChan 0) 0x8000000000003000 0x3000],
    chans := [(9, { w0 := BitVec.ofNat 64 (1 + 2 * 2 + 5 * 2 ^ 10 + 12 * 2 ^ 24), w1 := 0x8000000000003000, grant })] }
def sendG (a n : Nat) : List Word := [BitVec.ofNat 32 a, BitVec.ofNat 32 n, BitVec.ofNat 32 (9 * 2 ^ 18 + 2 ^ 16 + 7), 8]
def recvG (a off n : Nat) : List Word := [9, BitVec.ofNat 32 off, BitVec.ofNat 32 n, BitVec.ofNat 32 a]

theorem test_chsend : runs (.engineCommandCompletion 4) (sending .chsend (sendG 0x100 240) (some ⟨4096, 12, false, 0⟩) true) (fun t =>
      (t.port 2).wire.map (fun f => (f.seqNo, f.off, f.payload.length)) == [(0, 0, 224), (1, 224, 16)] &&
      (t.chan 9).grant == some ⟨4096, 12, false, 240⟩) &&
    runs (.engineCommandCompletion 4) (sending .chrecv (recvG 0x100 4080 32) none true) (fun t => t.cmds == []) = true := by decide +kernel

theorem test_witness_channel_commands :
    (let s := sending .chsend (sendG 0x100 240) none false; let c := s.chan 9;
      isCom s .chsend 0 = true ∧ c.enabled = true ∧ c.srccore = 5 ∧ (s.port c.port).trained = false) ∧
    (let s := sending .chsend (sendG 0x100 240) none true; let c := s.chan 9;
      (s.port c.port).trained = true ∧ 240 % 16 = 0 ∧ 16 ≤ 240 ∧ c.grant = none) ∧
    (2 ^ 12 < 4112 ∧ 4112 % 16 = 0 ∧ (sending .chsend (sendG 0x100 4112) (some ⟨4096, 12, false, 0⟩) true).cmd 4 ≠ none) ∧
    (let s := sending .chsend (sendG 0x100 240) (some ⟨4096, 12, false, 3856⟩) true;
      3856 + 240 = 4096 ∧ s.rangeFree 5 4 (footOf 0x100 240 false) = true ∧ ¬ (3872 + 240 ≤ 4096)) ∧
    (let s := sending .chrecv (recvG 0x100 4080 32) none true; let k := com .chrecv (recvG 0x100 4080 32) 0;
      isCom s .chrecv 0 = true ∧ s.rangeFree 5 4 k.foot = true ∧ 32 % 16 = 0 ∧ 4080 % 16 = 0 ∧ 0x100 + 32 ≤ lsSize ∧
      okWith (flushFor k (lineInVa 0 0x8000000000003000 4096) (s.acquired k)) (fun _ s1 =>
        okWith (recvRun k 9 (s.chan 9) (List.range 2) s1) fun r _ => r == (0, 2)) = true) ∧
    (isCom (sending .chrecv [64] none true) .chrecv 0 = true ∧ 64 ≤ (64 : Word).toNat) := by decide +kernel

/-- Core 5's contribution to group 1 of its die. -/
def prst1 (g : Nat) (phase : Nat) (x : Group) : State :=
  { engine .prst [0x100, 2, BitVec.ofNat 32 g, 0x200] phase [] with dies := [(0, { groups := [(1, x)] })] }

theorem test_prst : runs (.engineCommandCompletion 4) (prst1 1 0 (grp [])) (fun t =>
    ((t.die 0).group 1).contribs == [⟨5, 4, [0, 0]⟩] && ((t.die 0).group 1).state == 1) = true := by decide +kernel

theorem test_witness_push_reduce :
    (isCom (prst1 64 0 {}) .prst 0 = true ∧ 64 ≤ (64 : Word).toNat) ∧
    (let s := prst1 1 0 (grp []); let x := (s.die 0).group 1;
      isCom s .prst 0 = true ∧ x.expired s.clock = false ∧ x.isValid = true ∧ x.part.testBit 5 = true ∧ x.state ≠ 2 ∧ x.contribs = [] ∧
      s.rangeFree 5 4 (footOf 0x100 8 false) = true) ∧
    (let s := prst1 1 0 {}; ((s.die 0).group 1).isValid = false) ∧
    (let s := prst1 1 0 { grp [] with contribs := [⟨6, 3, [1]⟩], state := 1 };
      ((s.die 0).group 1).contribs.any (fun y => y.core == 5) = false ∧ ((s.die 0).group 1).contribs.any (fun y => y.els.length != 2) = true) ∧
    (let s := { prst1 1 0 { grp [] with contribs := [⟨6, 3, [1, 1]⟩], state := 1, timeout := 2 } with clock := 3501 };
      ((s.die 0).group 1).expired s.clock = true ∧ (((s.prstExpire 0 1).die 0).group 1).state = 2) ∧
    isCom (prst1 1 1 (grp [])) .prst 1 = true ∧
    (let k : Cmd := { com .prst [0x100, 2, 1, 0x200] 2 with walk := { words := [7, 8] } };
      k.walk.words.length = k.g1.toNat ∧ State.rangeFree { engine .prst [] 2 [] with cmds := [k] } 5 4 (footOf 0x200 8 true) = true) := by
  decide +kernel

/-- A STASH, STFETCH or STDROP of tensor 7 in a stage whose policy is `pol`, with a directory of `cap` places. -/
def stashing (kind : CmdKind) (tte pol cap n : Nat) (dir : List DirEnt) (k : Cmd) : State :=
  words { st .C (on .C []) with
    cmds := [{ k with kind }],
    dies := [(0, { dir := dir, sdbase := 0x6000, sdcap := BitVec.ofNat 24 cap,
                   pools := [(0, { base := 0x7000, count := n, cap := 8 }), (6, { base := 0x7100, count := n, cap := 8 })],
                   stages := [(2, { slot2 2 0 [] with desc := [0, 0, 0, 0, 1, 0, 0, 0, 0, 0, pol] })] })] }
    ([(8, 0x200000)] ++ tens plainT ++ [(0x5000, tte), (0x7000, 10), (0x7100, 9)])
def stashCom : Cmd := { com .stash [7, 0, 0, 5] 0 with block := some { blk with info := { info with stagev := true, stage := 2 } } }

/-- ACT 0 leaves the tile; ACT 2 begins a move to the LP frame 9. -/
theorem test_stash : runs (.engineCommandCompletion 4) (stashing .stash (8 + 2 ^ 36) 0 4 1 [] stashCom) (fun t =>
      t.cmds == [] && (t.die 0).dir == [⟨0, 0, 7, 0, 0, 5, 2, 0⟩] && t.rd 0x6000 8 == 7) &&
    runs (.engineCommandCompletion 4) (stashing .stash (8 + 2 ^ 36) 2 4 1 [] stashCom) (fun t =>
      t.cmds.map (·.phase) == [2] && t.moves.map (fun m => (m.old, m.new)) == [(8, 9)] && t.rd 0x5000 8 == 8 + 2 ^ 31 + 2 ^ 36) &&
    runs (.engineCommandCompletion 4) (stashing .stash (8 + 2 ^ 36) 2 4 0 [] stashCom) (fun t => t.cmds == [] && t.moves == []) = true := by
  decide +kernel

def comIs (s : State) (p : Cmd → Bool) : Bool := (s.cmd 4).any fun k => s.stashTurn k && p k
def tdOf (s : State) (p : TDesc → State → Bool) : Bool := tdIs 7 s fun d u => decide (0 < d.nt) && !d.vers && p d u

theorem test_witness_stash_start :
    comIs (stashing .stash 0 0 4 1 [] { stashCom with block := none }) (fun k => k.stageNo.isNone) &&
    (let s := stashing .stash (8 + 2 ^ 36) 0 4 1 [] { stashCom with g2 := 9 };
      comIs s (fun k => k.stageNo == some (0, 2)) && tdOf s fun d _ => decide (d.nt ≤ 9)) &&
    (let s := stashing .stash (8 + 2 ^ 36) 0 0 1 [] stashCom; comIs s (fun _ => true) && tdOf s fun _ s1 => (s1.die 0).sdcap == 0) &&
    (let s := stashing .stash (8 + 2 ^ 36) 0 4 1 [] stashCom;
      comIs s (fun k => k.phase == 0) && tdOf s fun _ s1 => (s1.die 0).freePlace == some 0) &&
    (let s := stashing .stash 0 0 4 1 [] { stashCom with g0 := 0x7FFFFFFF }; okWith (tdesc 0 0 0x7FFFFFFF s) fun r _ => r == .bad) &&
    !(stashing .stash 0 0 4 1 [] stashCom).stashTurn { stashCom with id := 5 } &&
    comIs (stashing .stdrop 0 0 4 1 [] { stashCom with g0 := 5 }) (fun k => k.kind == .stdrop && k.stageNo == some (0, 2)) &&
    comIs (stashing .stfetch 0 0 4 1 [] { stashCom with g0 := 5, block := none }) (fun k => k.stageNo.isNone) = true := by decide +kernel

def dent : DirEnt := ⟨0, 0, 7, 0, 0, 5, 2, 0⟩
/-- A move of tensor 7's tile 0 from frame 8 of pool `op` to frame 9 of pool `np`, for command 4. -/
def move1 (op np restarts : Nat) : Move := ⟨0, 0, 7, 0, 0, 8, op, 9, np, 0, restarts, some 4⟩
/-- That move, with `n` publications at point 1 to its old frame, and a TTE in flight. -/
def inMove (kind : CmdKind) (m : Move) (hit : Bool) (tier : Nat) : State :=
  let s := stashing kind (8 + tier * 2 ^ 29 + 2 ^ 31 + 2 ^ 36) 2 4 1 [dent] { stashCom with phase := 2, g0 := if kind = .stash then 7 else 5 }
  { s with moves := [m], npub := if hit then 1 else 0, pubs := if hit then [⟨8 * 512, 0⟩] else [] }
/-- What the copy of its move comes to. -/
def copied (s : State) (m : Move) (p : Copied → State → Bool) : Bool :=
  okWith (tdesc 0 0 7 s) fun r s1 => match r with
    | .ok d => okWith (endCopy m d s1) p
    | _ => false

theorem test_witness_stash_moves :
    (let s := inMove .stash (move1 0 6 0) false 0;
      comIs s (fun k => okWith (stashState k s) fun r s1 => r.isSome && (s1.moves.find? fun m => m.cmd == some 4) == some (move1 0 6 0)) &&
      copied s (move1 0 6 0) fun r _ => match r with | .whole t => t.frame == 8 && t.state == 1 | _ => false) &&
    copied (inMove .stash (move1 0 6 0) true 0) (move1 0 6 0) (fun r u => r == .again && u.moves.map (·.restarts) == [1]) &&
    copied (inMove .stash (move1 0 6 3) true 0) (move1 0 6 3) (fun r u => r == .gone && u.moves == [] && (u.die 0).oldFrames == []) &&
    copied { inMove .stash (move1 0 6 0) false 0 with moves := [] } { move1 0 6 0 with old := 7 } (fun r _ => r == .gone) = true := by decide +kernel

theorem swapFrame_ok (m : Move) (d : TDesc) (t : Tte) (tier st : Nat) (h : (paOk t.addr && paOk (t.addr + 8 - 1)) = true) (s : State) :
    ∃ u, swapFrame m d t tier st s = .ok () u := by
  have ⟨v, hv⟩ := moveTte_ok t m.new tier st h (s.copyFrame (m.old * 4096) (m.new * 4096) d.tileBytes)
  simp [swapFrame, bind, EStateM.bind, modify, modifyGet, MonadStateOf.modifyGet, EStateM.modifyGet, hv]

/-- A spilled tile comes back to a frame of the HB tier: the move begins, and its copy ends (R248). -/
theorem test_witness_fetch :
    (let s := stashing .stfetch (8 + 2 ^ 29 + 2 ^ 32 + 2 ^ 36) 2 4 1 [dent] { stashCom with g0 := 5 };
      tdOf s (fun d s1 => okWith (fetchTile 4 0 0 7 d 0 s1) fun r u => r == .goesOn && u.moves.length == 1) &&
      comIs s (fun k => okWith (fetchEntries 4 0 (s.entries 0 2 5) k.prog 0 s) fun r _ => r == (0, 0, .goesOn))) &&
    (let s := stashing .stfetch (8 + 2 ^ 29 + 2 ^ 32 + 2 ^ 36) 2 4 0 [dent] { stashCom with g0 := 5 };
      tdOf s (fun d s1 => okWith (fetchTile 4 0 0 7 d 0 s1) fun r _ => r == .noFrame) &&
      runs (.engineCommandCompletion 4) s fun t => t.cmds.map (·.phase) == [1]) &&
    runs (.engineCommandCompletion 4) (stashing .stfetch (8 + 2 ^ 36) 2 4 1 [dent] { stashCom with g0 := 5 }) (fun t => t.cmds == []) &&
    copied (inMove .stfetch (move1 6 0 0) false 1) (move1 6 0 0) (fun r _ => match r with
      | .whole t => paOk t.addr && paOk (t.addr + 8 - 1)
      | _ => false) = true := by decide +kernel

/-- A compressed and a spilled tile, dropped (R248). -/
theorem test_witness_drop :
    runs (.engineCommandCompletion 4) (stashing .stdrop (8 + 2 ^ 29 + 2 ^ 32 + 2 ^ 36) 2 4 1 [dent] { stashCom with g0 := 5 })
      (fun t => t.cmds == [] && (t.die 0).dir == [] && fieldOf (t.rd 0x5000 8) 29 4 == 15 && ((t.die 0).pool 6).count == 2) &&
    runs (.engineCommandCompletion 4) { stashing .stdrop (8 + 2 * 2 ^ 29 + 2 ^ 36) 2 4 1 [dent] { stashCom with g0 := 5 } with
        dies := [(0, { dir := [dent], sdbase := 0x6000, sdcap := 4, cabase := 0x8000, arena := [⟨0, 1, [], false⟩],
                       stages := [(2, { slot2 2 0 [] with desc := [] })] })] }
      (fun t => t.cmds == [] && (t.die 0).arena == []) = true := by decide +kernel

/-- What ACT, FB and a tile's state make of a tile. -/
theorem test_witness_stash_tiles :
    (let s (tte n : Nat) := stashing .stash tte (2 + 4 * 3) 4 n [dent] { stashCom with phase := 1 };
      let tile (u : State) (p : StashRes → Bool) : Bool := tdOf u fun d s1 => okWith (stashTile { stashCom with phase := 1 } d 0 (2 + 4 * 3) 0 s1) fun r _ => p r;
      tile (s (8 + 2 ^ 36) 1) (· == .moves false) && tile (s (8 + 2 ^ 36) 0) (· == .handled 0) && tile (s (8 + 2 ^ 35 + 2 ^ 36) 1) (· == .handled 0) &&
      tile { s (8 + 2 ^ 36) 1 with poison := [(0xA00, true)] } (· == .fails 9) &&
      tile (s (2 ^ 27 + 2 ^ 36) 1) (· == .fails 4)) = true := by decide +kernel

theorem test_witness_arena : firstFit 8 2 0 [⟨1, 2, [], false⟩, ⟨5, 1, [], false⟩] = some 3 ∧ firstFit 8 3 0 [⟨1, 2, [], false⟩, ⟨5, 1, [], false⟩] = none := by
  decide

/-- A COLL of command 4, its record at VA 0x8000_0000_0000_3000 and physical address 0x3000. -/
def coll (k : Cmd) (ws : List (Nat × Nat)) (more : State → State) : State :=
  more (words { st .C (on .C []) with
    cmds := [k], tlb := [page (agentWalker 0 0) 0x8000000000003000 0x3000] } ([(8, 0x200000)] ++ ws))
def collCom : Cmd := com .coll [0x3000, 0x80000000] 0
/-- The record's words: mode, group of 2, this peer 0, identifier 3; SRC, DST and peers in the same page; TLEN 16; one level. -/
def recW (mode tlen bound pb : Nat) : List Nat :=
  [mode + 3 * 2 ^ 16 + 2 * 2 ^ 32, 0x8000000000003100, 0x8000000000003200, 0x8000000000003300, 0x8000000000003400, 0x8000000000003500,
   tlen + 2 ^ 32, 2 * 2 ^ 32, 0, 0, 0, 0, 0, 0, 0, 0, bound + pb * 2 ^ 48, 0, 0, 0, 0, 0, 0, 0]
def recM (ws : List Nat) : List (Nat × Nat) := ws.zipIdx.map fun p => (0x3000 + 8 * p.2, p.1)
def collIs (s : State) (p : List Nat → Bool) : Bool :=
  match s.cmd 4 with
  | none => false
  | some k => okWith (walkRead k k.va0 192 s) fun r _ => match r with
    | .ok l => !anyPoison l && p ((List.range 24).map fun j => rbytesNat ((l.drop (8 * j)).take 8))
    | .error _ => false
/-- The record's words are `ws`, and `.bad` says `e` of them. -/
def recBad (ws : List Nat) (e : Option Nat) : Bool :=
  collIs (coll collCom (recM ws) id) fun l => l == ws && ({ words := l } : Walk).bad == e

theorem test_coll_starts : runs (.engineCommandCompletion 4) (coll collCom (recM (recW 0 16 1 1)) id) (fun t =>
      t.cmds.map (fun k => (k.walk.started, k.walk.total)) == [(true, 1)]) &&
    runs (.engineCommandCompletion 4) (coll collCom (recM (recW 0 8 1 1)) id) (fun t => t.cmds == [] && t.rd 0x3044 2 == 1) = true := by
  decide +kernel

theorem test_witness_coll_start :
    (isCom (coll { collCom with g0 := 0x3008 } [] id) .coll 0 = true ∧ ({ collCom with g0 := 0x3008 } : Cmd).va0 % 64 ≠ 0) ∧
    okWith (walkRead collCom collCom.va0 192 { coll collCom [] id with tlb := [] }) (fun r _ => match r with | .error _ => true | _ => false) = true ∧
    okWith (walkRead collCom collCom.va0 192 { coll collCom [] id with poison := [(0x600, true)] })
      (fun r _ => match r with | .ok l => anyPoison l | _ => false) = true ∧
    recBad (recW 3 16 1 1) (some 9) = true ∧ recBad (recW 0 16 0 1) (some 9) = true ∧ recBad (recW 0 8 1 1) (some 1) = true ∧
    recBad ((recW 0 16 1 1).set 1 0x8000000000003108) (some 2) = true ∧ recBad (recW 0 16 1 1) none = true ∧
    recBad ((recW 2 16 1 1).set 8 256) none = true ∧
    okWith (loadValues { collCom with walk := { words := (recW 2 16 1 1) } } (coll collCom [] id)) (fun r _ => match r with
      | .ok vs => vs.isEmpty
      | .error _ => false) = true := by
  decide +kernel

/-- A COLL that has started, with state `w` of its walk. -/
def collOn (mode : Nat) (w : Walk → Walk) (more : State → State) : State :=
  coll { collCom with walk := w { words := recW mode 16 1 1, started := true, peers := [(1, 9)] } } [] more
/-- Peer 1 is reached over channel 9, on a port that is up or not. -/
def peerUp (up : Bool) (s : State) : State :=
  { s with ports := [(2, { trained := up })],
           chans := [(9, { w0 := BitVec.ofNat 64 (1 + 2 * 2 + 5 * 2 ^ 10 + 12 * 2 ^ 24), w1 := 0x8000000000003000 })] }
def walkIs (s : State) (p : Cmd → Bool) : Bool := (s.cmd 4).any fun k => k.walk.started && p k

theorem test_coll_emits : runs (.engineCommandCompletion 4) (collOn 0 id (peerUp true)) (fun t =>
      t.cmds.map (fun k => (k.walk.iter, k.walk.sent)) == [(1, [9])] && (t.port 2).wire.map (fun f => (f.typ, f.payload.length)) == [(4, 16)]) = true := by
  decide +kernel

theorem test_witness_coll_runs :
    (walkIs (collOn 0 id (peerUp true)) fun k => (State.heldFor (collOn 0 id (peerUp true)) k).isNone && k.walk.peer 0 == 1 && k.walk.gatesOpen 0) &&
    (let s := collOn 0 id (peerUp true)
     walkIs s fun k => okWith (walkRead k 0x8000000000003100 16 s) fun r u => match r with
      | .ok l => okWith (sendTo k 1 false 0 l u) fun e _ => match e with | .ok _ => true | .error _ => false
      | .error _ => false) &&
    (let s := collOn 0 id (peerUp false)
     walkIs s fun k => okWith (sendTo k 1 false 0 [] s) fun e _ => match e with | .ok _ => false | .error c => c == 0x0B) &&
    (let s := collOn 0 id id
     walkIs s fun k => okWith (sendTo k 1 false 0 [] s) fun e _ => match e with | .ok _ => false | .error c => c == 0x0A) &&
    (let s := collOn 0 id id
     walkIs s fun k => okWith (sendTo k 0 false 0 [] s) fun e _ => match e with | .ok _ => true | .error _ => false) &&
    (let s := collOn 0 (fun w => { w with peers := [] }) id
     walkIs s fun k => okWith (peerEntry k 1 s) fun e _ => match e with | .ok v => v == 0 | .error _ => false) &&
    (let s := collOn 0 (fun w => { w with peers := [(1, 2 ^ 31 + 2 ^ 8)] }) id
     walkIs s fun k => okWith (sendTo k 1 false 0 [] s) fun e t => (match e with | .ok _ => true | .error _ => false) && (t.die 1).hold.length == 1) &&
    (let w := fun (w : Walk) => { w with iter := 1 }
     walkIs (collOn 0 w id) fun k => k.walk.total ≤ k.walk.iter && k.walk.acked != k.walk.total) &&
    (let w := fun (w : Walk) => { w with iter := 1, acked := 1, applied := 1 }
     walkIs (collOn 0 w id) (fun k => k.walk.applied == k.walk.incnt && okWith (finalStep k (collOn 0 w id)) fun _ _ => true) &&
     runs (.engineCommandCompletion 4) (collOn 0 w id) fun t => t.cmds == []) &&
    (walkIs (collOn 2 id id) fun k => k.walk.told < k.walk.grp && k.walk.told == k.walk.me) &&
    (let w := fun (w : Walk) => { w with told := 1 }
     walkIs (collOn 2 w (peerUp true)) fun k => k.walk.told != k.walk.me &&
      okWith (sendTo k 1 true 0 k.walk.localExps (collOn 2 w (peerUp true))) fun e _ => match e with | .ok _ => true | .error _ => false) &&
    (let w := fun (w : Walk) => { w with told := 2 }
     walkIs (collOn 2 w id) fun k => k.walk.grp ≤ k.walk.told && !k.walk.encoded && k.walk.round1 + 1 != k.walk.grp) &&
    (let w := fun (w : Walk) => { w with told := 2, round1 := 1 }
     runs (.engineCommandCompletion 4) (collOn 2 w id) fun t => t.cmds.map (·.walk.encoded) == [true]) = true := by decide +kernel

/-- A message of identifier 3 at the walker: of round 1, and of round 2 in each mode. -/
theorem test_witness_coll_messages :
    (let s := { collOn 2 id id with dies := [(0, { hold := [⟨3, true, 0, [], none, none⟩] })] }
     walkIs s (fun k => (s.heldFor k).isSome) && runs (.engineCommandCompletion 4) s fun t => (t.die 0).hold == [] && t.cmds.map (·.walk.round1) == [1]) &&
    (let m : CollMsg := ⟨3, false, 0, [(1, false), (2, false), (3, false), (4, false), (5, false), (6, false), (7, false), (8, false)], none, none⟩
     let gets (s : State) : Bool := walkIs s fun k => okWith (walkRead k (addrAdd (k.walk.w 2) 0) 8 s) fun r u => match r with
       | .ok old => old.length == 8 && okWith (combineMsg k m old u) fun _ _ => true
       | .error _ => false
     okWith (acceptMsg 0 m (collOn 0 id id)) (fun _ t => t.rd 0x3200 8 == 0x0807060504030201 && t.cmds.map (·.walk.applied) == [1]) &&
     okWith (acceptMsg 0 m (collOn 2 id id)) (fun _ t => (t.die 0).hold.length == 1) &&
     gets (collOn 1 id id) && gets (collOn 2 (fun w => { w with encoded := true }) id) &&
     okWith (acceptMsg 0 m (collOn 2 (fun w => { w with encoded := true }) id)) (fun _ t => t.rd 0x3400 8 == 0x0807060504030201)) = true := by
  decide +kernel

/-- The rules of choice, by arrival, by tag and in order (R62). -/
theorem test_witness_choose :
    (let x : StageSlot := { slot2 2 0 [] with ptab := [5], qf := { recs := [⟨0x10007, 0, 1, false⟩, ⟨0x10005, 0, 2, false⟩] }, nextF := 5 }
     (x.choose false 1 0, x.choose false 1 1, x.choose false 1 2) == (some 7, some 5, some 5)) = true := by decide +kernel

/-- The stage at a new entry that makes versions of weight 7, whose descriptor's word 2 is `w2`. -/
def newEntry (w2 : Nat) : State := staged [] { slot2 2 0 [] with ptab := [1 + 2 ^ 12], isNew := true } (tens w2)

theorem test_witness_enter :
    ((newEntry (versT 1)).stage 0 2).isNew = true ∧ ((newEntry (versT 1)).stage 0 2).cur.testBit 12 = true ∧
    okWith (vernewAll 0 ((newEntry (versT 1)).stage 0 2) (newEntry (versT 1))) (fun r _ => match r with | .made => true | _ => false) = true ∧
    okWith (vernewAll 0 ((newEntry (versT 0xFF)).stage 0 2) (newEntry (versT 0xFF))) (fun r _ => match r with | .hold => true | _ => false) = true ∧
    okWith (vernewAll 0 ((newEntry plainT).stage 0 2) (newEntry plainT)) (fun r _ => match r with | .fault t => t == 7 | _ => false) = true ∧
    (let x : StageSlot := { slot2 2 0 [] with ptab := [1, 5], repleft := 1 }
     ¬ (1 < x.repleft) ∧ x.advance.entry = 0 ∧ x.advance.isNew = true) := by decide +kernel

theorem test_witness_release :
    (let s := going 2 [⟨0x10005, 0, 0, false⟩] 0 []
     okWith (ctxEnt 0 0 s) fun c s1 => okWith (agWords (agPenn 0) 0 0 (tcbVa c 3) 16 s1) fun r _ => r.isNone) &&
    (let s := going 2 [⟨0x10005, 0, 0, false⟩] 0 [page 582 0x8000000000002000 0x2000]
     okWith (ctxEnt 0 0 s) fun c s1 => okWith (agWords (agPenn 0) 0 0 (tcbVa c 3) 16 s1) fun r s2 => r.isSome &&
      okWith (agCanWrite (agPenn 0) 0 0 (tcbVa c 56) 128 s2) fun a s3 => a &&
      okWith (agCanWrite (agPenn 0) 0 0 0x8000000000003900 128 s3) fun _ _ => true) = true := by decide +kernel

/-- STRST of a row of a page of elements: KIND 01b, 16 rows of 16 bytes from VA 0x8000_0000_0000_1000 at physical address 0x8000. -/
def stx : Xfer := { ldx with
  load := false, sa := [0x80000000, 1 + 16 * 5, BitVec.ofNat 64 (16 * 2 ^ 32)],
  side := .pages [], spots := (List.range 256).map fun j => .at_ 0 [0x8000 + j] }
def storing : State := { loading with cores := [(5, { on .L [] with xfers := [stx], store := [(0x1000, 0xAA)] })] }

theorem test_store_pages : runs (.streamTransferRetirement 4) storing (fun t => t.byte 0x8000 == 0xAA && t.byte 0x8001 == 0 &&
    (t.core 5).xfers == []) = true := by decide +kernel

theorem test_witness_store_transfer :
    storing.xfer 4 = some (5, stx) ∧ stx.parts = [] ∧ stx.load = false ∧ storing.rangeFree 5 4 stx.foot = true ∧
    stx.spots.length = stx.cells.length ∧ okWith (stx.target 5 storing) (fun r s1 => r == (.pages [], stx.spots) && s1 == storing) = true ∧
    stx.spots.all (fun z => match z with | .at_ _ _ => true | _ => false) = true := by decide +kernel

theorem stx_bit (j k : Nat) (hj : j < 256) (hk : k < 8) : (stx.spots.getD j .zero).bitAt k = some (0x8000 + j, k) := by
  have h : stx.spots.getD j .zero = .at_ 0 [0x8000 + j] := by simp [stx, List.getD, hj]
  have h8 : k / 8 = 0 := by omega
  rw [h]
  simp [Spot.bitAt, h8, Nat.mod_eq_of_lt hk]

theorem test_witness_store_bits (j j' k k' : Nat) (hj : j < 256) (hj' : j' < 256) (hk : k < 8) (hk' : k' < 8)
    (h : (stx.spots.getD j .zero).bitAt k = (stx.spots.getD j' .zero).bitAt k') : j = j' ∧ k = k' := by
  rw [stx_bit j k hj hk, stx_bit j' k' hj' hk'] at h
  simp at h
  omega

/-- An invalidation that waits for a transfer, or a late access, of core 5 that was translated under what it removed (R215). -/
def goneD : InvDesc := { addr := 0x6000, start := 0x8000000000001000, len := 4096, ctx := 0, all := false, kind := 0, upto := 9,
                         gone := [(none, 0x8000, 4096)] }
def draining (id : Nat) : State :=
  { cores := [(5, { on .L [] with inval := some goneD, xfers := [{ stx with id }] })], posted := [] }

theorem test_witness_drain :
    ((draining 4).core 5).inval = some goneD ∧ (draining 4).undrained goneD = true ∧ (draining 9).undrained goneD = false ∧
    runs (.invalidationAcknowledgement 5) (draining 9) (fun t => t.rd 0x6018 1 == 1 && (t.core 5).inval.isNone) = true ∧
    (let a : AtsInv := ⟨0, 9, 0x5000, 4096, 9, [(none, 0x8000, 4096)]⟩
     let s : State := { draining 4 with atsInv := [a] }
     s.atsInv = [a] ∧ s.undrained a.desc = true ∧ ({ draining 9 with atsInv := [a] } : State).undrained a.desc = false) ∧
    (halt []).core 5 = { halted := true } ∧ (∀ j, j < 4 → (halt []).ecnt 5 .X j = 0) := by decide +kernel

/-- A flit of another package's COLL for identifier 3, of 2 bytes, on channel 9 (R253); a replay of port 2 (R251). -/
theorem test_flits : runs (.collectiveFlit ⟨9, 0⟩ 3 0 false [(1, false), (2, false)]) (linked { trained := true } 0) (fun t =>
      (t.die 0).hold.map (·.via) == [some 9] && (t.port 2).rx == 1) &&
    runs (.collectiveFlit ⟨9, 0⟩ 3 0 true []) { walking with chans := (linked {} 0).chans } (fun t => t.cmds.map (·.walk.round1) == [1]) &&
    runs (.negativeAcknowledgement 2 6) (linked { trained := true, replayNo := 6, replays := 15 } 0) (fun t => (t.port 2).replays == 16) &&
    runs (.negativeAcknowledgement 2 7) (linked { trained := true, replayNo := 6, replays := 15 } 0) (fun t => (t.port 2).replays == 1) &&
    runs (.windowGrant 9 64 12 false) (linked { trained := true } 0) (fun t => (t.chan 9).grant == some ⟨64, 12, false, 0⟩) &&
    runs (.acknowledgementOfPublication 9 ⟨4, 1⟩) (sent .chsend) (fun t => t.cmds == [] && ((t.core 5).pend.length == 1)) = true := by
  decide +kernel

/-- Two accesses of the host to common bytes, the first queued by a migration; the second waits for it. -/
def hostAcc1 : HostAcc := ⟨0x100, 2, some [0x34, 0x12], 0x8000000000003100, 0⟩
def hostAcc2 : HostAcc := ⟨0x101, 1, none, 0x8000000000003101, 0⟩

theorem test_witness_host_queue :
    okWith (underMigration 0 0x8000000000003100 2 (fronted [] 0)) (fun m _ => !m) = true ∧
    (∃ x, x ∈ ({ fronted [] 0 with hostQ := [hostAcc1, hostAcc2] } : State).hostQ.takeWhile (· != hostAcc2) ∧ x.va < hostAcc2.va + hostAcc2.n ∧ hostAcc2.va < x.va + x.n) ∧
    runs (.hostBar2Access ⟨2, 0x101, 1⟩ none) { fronted [] 0 with hostQ := [hostAcc1] } (fun t => t.hostQ == [hostAcc1, hostAcc2] && t.pcie == []) = true ∧
    runs (.hostBar2Access ⟨2, 0x100, 2⟩ (some [0x34, 0x12])) { fronted [] 0 with hostQ := [hostAcc1, hostAcc2] } (fun t => t.hostQ == [hostAcc2] &&
      t.rd 0x3100 2 == 0x1234) = true ∧
    runs (.hostBar2Access ⟨0, 0x9000A00, 8⟩ none) (fronted [] 0) (fun t => t.pcie.length == 1) = true ∧
    (fronted [] 0).served 0x9000A00 = true ∧ (failed.served 0x10 = false) ∧
    runs (.hostBar2Access ⟨4, 8, 8⟩ none) (queue 1 4 [] 0) (fun t => t.pcie == [.readData (bytesOf 1 8)]) = true := by decide +kernel

/-- The tables of context 0, their last entry `pte` for VA 0x8000_0000_0000_3000. -/
def tabled (pte : Nat) : State :=
  fronted [(0, 0x20000), (0x20000, 1 + 0x21 * 2 ^ 16), (0x21000, 1 + 0x22 * 2 ^ 16), (0x22000, 1 + 0x23 * 2 ^ 16), (0x23018, pte)] 0

theorem test_host_migration :
    runs (.hostBar2Access ⟨2, 0x100, 2⟩ (some [0x34, 0x12])) (tabled (0xFF + 3 * 2 ^ 16)) (fun t => t.hostQ == [hostAcc1] && t.pcie == []) &&
    runs (.hostBar2Access ⟨2, 0x100, 2⟩ (some [0x34, 0x12])) (tabled (0x7F + 3 * 2 ^ 16)) (fun t => t.hostQ == [] && t.rd 0x3100 2 == 0x1234) &&
    runs (.hostBar2Access ⟨2, 0x100, 2⟩ (some [0x34, 0x12])) { tabled (0x7F + 3 * 2 ^ 16) with moves := [{ move1 0 6 0 with old := 3 }] }
      (fun t => t.hostQ == [hostAcc1]) = true := by decide +kernel

end Sys2Proof.Tests
end

namespace Sys2Proof.Machine

/-! Boot (R19, R292). -/

/-- Dropping entries by their keys: a key that stays reads as before, any other as the default. -/
theorem Store.get_filter_key {β : Type} (d : β) (p : Nat → Bool) (m : Store β) (j : Nat) :
    Store.get d (m.filter fun e => p e.1) j = if p j then Store.get d m j else d := by
  induction m with
  | nil => simp [Store.get]
  | cons e t ih =>
    obtain ⟨a, v⟩ := e
    by_cases ha : a = j
    · subst ha
      cases h : p a <;> simp [Store.get, h, ih]
    · cases h : p a <;> simp [Store.get, h, ih, ha]

theorem die_bothDies (s : State) (f : Die → Die) (d : Nat) :
    (s.bothDies f).die d = if d < 2 then f (s.die d) else s.die d := by
  match d with
  | 0 => simp [State.bothDies]
  | 1 => simp [State.bothDies]
  | n + 2 => simp [State.bothDies]

theorem core_bothDies (s : State) (f : Die → Die) (n : Nat) : (s.bothDies f).core n = s.core n := rfl

theorem port_bothDies (s : State) (f : Die → Die) (p : Nat) : (s.bothDies f).port p = s.port p := rfl

theorem bothDies_eq (s : State) (f : Die → Die) : s.bothDies f = { s with dies := (s.bothDies f).dies } := rfl

theorem startFirmware_eq (s : State) (d : Nat) : s.startFirmware d = { s with cores := (s.startFirmware d).cores } := rfl

theorem die_startFirmware (s : State) (d n : Nat) : (s.startFirmware d).die n = s.die n := die_modCore ..

/-- Core `k`, once firmware of die `d` begins on it, in privileged mode. -/
def Core.atFirmware (k : Core) (d : Nat) : Core :=
  { k with priv := true, c := { k.c with parked := false, pc := Config.firmwareEntry d } }

theorem core_startFirmware (s : State) (d n : Nat) :
    (s.startFirmware d).core n = if n = 144 * d then (s.core (144 * d)).atFirmware d else s.core n := core_modCore ..

theorem exec_boot (fail : Nat) (svn : BitVec 16) (ports : Byte) (s : State) :
    exec (.boot fail svn ports) s = .next (
      if (s.die 0).loader = some (fail, svn) ∧ (s.die 0).bootPorts = ports then s.nextLoad fail svn
      else s.beginBoot fail svn ports) := rfl

/-- A die at the first step of boot. -/
def Die.atFirstStep (x : Die) (at_ fail : Nat) (svn : BitVec 16) (ports : Byte) : Die :=
  { x with bootStep := 1, bootPorts := ports, bootAt := at_, loader := some (fail, svn) }

/-- A die whose step of boot has failed. -/
def Die.stepFailed (x : Die) : Die :=
  { x with bootErr := BitVec.ofNat 8 x.bootStep.toNat, loader := none, sectors := 0 }

/-- A die whose step `k` of boot has passed. -/
def Die.stepPassed (x : Die) (k fail : Nat) (svn : BitVec 16) : Die := { x with
  bootStep := BitVec.ofNat 4 (k + 1), svn := if k = 4 then svn else x.svn,
  loader := if k = 5 ∧ fail ≠ 6 then none else x.loader }

/-- `stepPassed` with the condition as the model tests it. -/
theorem stepPassed_eq (x : Die) (k fail : Nat) (svn : BitVec 16) : x.stepPassed k fail svn = { x with
    bootStep := BitVec.ofNat 4 (k + 1), svn := if k = 4 then svn else x.svn,
    loader := if k = 5 && fail != 6 then none else x.loader } := by
  have hg : (k = 5 && fail != 6) = true ↔ k = 5 ∧ fail ≠ 6 := by simp
  by_cases h : k = 5 ∧ fail ≠ 6
  · rw [Die.stepPassed, if_pos h, if_pos (hg.2 h)]
  · rw [Die.stepPassed, if_neg h, if_neg (mt hg.1 h)]

/-- The package as a fundamental reset leaves it. -/
def State.powerOn (s : State) : State := { State.reset with
  mem := s.hostMem, hostMem := s.hostMem, clock := s.clock, start := s.clock, draws := s.draws, turns := s.turns,
  nturn := s.nturn, nextId := s.nextId }

theorem beginBoot_eq (s : State) (fail : Nat) (svn : BitVec 16) (ports : Byte) :
    s.beginBoot fail svn ports = (s.powerOn.bothDies (·.atFirstStep s.clock fail svn ports)).startFirmware 0 := rfl

theorem die_beginBoot (s : State) (fail : Nat) (svn : BitVec 16) (ports : Byte) (d : Nat) :
    (s.beginBoot fail svn ports).die d =
      if d < 2 then (State.reset.die d).atFirstStep s.clock fail svn ports else State.reset.die d := by
  have hp : s.powerOn.die d = State.reset.die d := rfl
  rw [beginBoot_eq, die_startFirmware, die_bothDies, hp]

theorem beginBoot_keeps (s : State) (fail : Nat) (svn : BitVec 16) (ports : Byte) :
    s.beginBoot fail svn ports = { State.reset with
      mem := s.hostMem, hostMem := s.hostMem, clock := s.clock, start := s.clock, draws := s.draws, turns := s.turns,
      nturn := s.nturn, nextId := s.nextId, dies := (s.beginBoot fail svn ports).dies,
      cores := (s.beginBoot fail svn ports).cores } := by
  rw [beginBoot_eq, startFirmware_eq, bothDies_eq]
  rfl

theorem core_beginBoot (s : State) (fail : Nat) (svn : BitVec 16) (ports : Byte) (n : Nat) :
    (s.beginBoot fail svn ports).core n = if n = 0 then (State.reset.core 0).atFirmware 0 else State.reset.core n :=
  core_startFirmware (s.powerOn.bothDies (·.atFirstStep s.clock fail svn ports)) 0 n

theorem failBoot_eq (s : State) : s.failBoot = { s with dies := s.failBoot.dies, cores := s.failBoot.cores } := by
  unfold State.failBoot
  rw [bothDies_eq]

theorem die_failBoot (s : State) (d : Nat) : s.failBoot.die d = if d < 2 then (s.die d).stepFailed else s.die d :=
  die_bothDies s Die.stepFailed d

/-- A failed step leaves the Postmaster cores alone and resets every other. -/
theorem core_failBoot (s : State) (n : Nat) :
    s.failBoot.core n = if n % 144 = 0 then s.core n else State.reset.core n := by
  refine (Store.get_filter_key {} isPostmaster s.cores n).trans ?_
  simp only [isPostmaster, beq_iff_eq]
  rfl

/-- A step passes: both dies take the next one, and step 5 starts die 1's firmware. -/
def State.passLoad (s : State) (fail : Nat) (svn : BitVec 16) : State :=
  let k := (s.die 0).bootStep.toNat
  let u := s.bothDies (·.stepPassed k fail svn)
  if k = 5 then u.startFirmware 1 else u

theorem nextLoad_fail {fail : Nat} (svn : BitVec 16) {s : State} (h : fail = (s.die 0).bootStep.toNat) :
    s.nextLoad fail svn = s.failBoot := if_pos h

theorem nextLoad_pass {fail : Nat} (svn : BitVec 16) {s : State} (h : fail ≠ (s.die 0).bootStep.toNat) :
    s.nextLoad fail svn = s.passLoad fail svn := by
  unfold State.passLoad
  simp only [stepPassed_eq]
  exact if_neg h

section
variable (s : State) (fail : Nat) (svn : BitVec 16)

theorem passLoad_eq : s.passLoad fail svn =
    { s with dies := (s.passLoad fail svn).dies, cores := (s.passLoad fail svn).cores } := by
  unfold State.passLoad
  dsimp only
  split
  · rw [startFirmware_eq, bothDies_eq]
  · exact bothDies_eq ..

theorem die_passLoad (d : Nat) : (s.passLoad fail svn).die d =
    if d < 2 then (s.die d).stepPassed (s.die 0).bootStep.toNat fail svn else s.die d := by
  rw [← die_bothDies s (·.stepPassed (s.die 0).bootStep.toNat fail svn), State.passLoad]
  split
  · exact die_startFirmware ..
  · rfl

theorem core_passLoad (n : Nat) : (s.passLoad fail svn).core n =
    if (s.die 0).bootStep.toNat = 5 ∧ n = 144 then (s.core 144).atFirmware 1 else s.core n := by
  rw [State.passLoad]
  by_cases h5 : (s.die 0).bootStep.toNat = 5
  · simp only [h5, if_true, true_and, core_startFirmware, core_bothDies]
  · rw [if_neg h5, if_neg (h5 ·.1), core_bothDies]

end

section
variable {s : State} {fail : Nat} {svn : BitVec 16} {ports : Byte}

theorem exec_boot_begin (h : ¬ ((s.die 0).loader = some (fail, svn) ∧ (s.die 0).bootPorts = ports)) :
    exec (.boot fail svn ports) s = .next (s.beginBoot fail svn ports) := by
  rw [exec_boot, if_neg h]

variable (h : (s.die 0).loader = some (fail, svn) ∧ (s.die 0).bootPorts = ports)
include h

theorem exec_boot_fail (hk : fail = (s.die 0).bootStep.toNat) : exec (.boot fail svn ports) s = .next s.failBoot := by
  rw [exec_boot, if_pos h, nextLoad_fail svn hk]

theorem exec_boot_pass (hk : fail ≠ (s.die 0).bootStep.toNat) :
    exec (.boot fail svn ports) s = .next (s.passLoad fail svn) := by
  rw [exec_boot, if_pos h, nextLoad_pass svn hk]

end

/-! The sectors and the ports (R19). -/

theorem trainPorts_eq (s : State) : s.trainPorts = { s with ports := s.trainPorts.ports } := by
  have key : ∀ (l : List Nat) (u : State), u = { s with ports := u.ports } →
      let t := l.foldl (fun (t : State) i => t.setPort i { t.port i with trained := (s.die 0).bootPorts.getLsbD i }) u
      t = { s with ports := t.ports } := by
    intro l
    induction l with
    | nil => exact fun u h => h
    | cons i l ih => exact fun u h => ih _ (by rw [h]; rfl)
  exact key _ s rfl

/-- After the last sector, the ports that can be trained are. -/
theorem port_trainPorts (s : State) (p : Nat) : s.trainPorts.port p =
    if p < 8 then { s.port p with trained := (s.die 0).bootPorts.getLsbD p } else s.port p := by
  have key : ∀ n, ((List.range n).foldl (fun (t : State) i =>
      t.setPort i { t.port i with trained := (s.die 0).bootPorts.getLsbD i }) s).port p =
      if p < n then { s.port p with trained := (s.die 0).bootPorts.getLsbD p } else s.port p := by
    intro n
    induction n with
    | zero => simp
    | succ n ih =>
      rw [List.range_succ, List.foldl_append, List.foldl_cons, List.foldl_nil, port_setPort]
      by_cases h : p = n
      · subst h; simp [ih]
      · rw [if_neg h, ih]; simp only [show p < n + 1 ↔ p < n by omega]
  exact key 8

/-- A sector has come up. -/
def State.sectorUp (s : State) (die sector : Nat) : State :=
  (s.modDie die fun d => { d with sectors := d.sectors ||| BitVec.ofNat 4 (2 ^ sector) }).modDie 0
    fun d => { d with bootAt := s.clock }

theorem die_sectorUp (s : State) (die sector m : Nat) : (s.sectorUp die sector).die m = { s.die m with
    sectors := if m = die then (s.die m).sectors ||| BitVec.ofNat 4 (2 ^ sector) else (s.die m).sectors,
    bootAt := if m = 0 then s.clock else (s.die m).bootAt } := by
  rcases eq_or_ne m 0 with rfl | h0
  · rcases eq_or_ne 0 die with rfl | hd
    · simp [State.sectorUp]
    · simp [State.sectorUp, hd]
  · rcases eq_or_ne m die with rfl | hd
    · simp [State.sectorUp, h0]
    · simp [State.sectorUp, h0, hd]

theorem sectorUp_eq (s : State) (die sector : Nat) :
    s.sectorUp die sector = { s with dies := (s.sectorUp die sector).dies } := rfl

theorem port_sectorUp (s : State) (die sector p : Nat) : (s.sectorUp die sector).port p = s.port p := rfl

/-- The last sector stands, and the ports have been trained: what is left is READY. -/
def State.lastDone (s : State) (d sec : Nat) : Prop := (s.die 0).bootStep = 7 ∧ d = 1 ∧ sec = 3

/-- The turn of sector `sec` of die `d` to start has come. -/
def State.sectorDue (s : State) (d sec : Nat) : Prop :=
  (s.die 0).bootStep = 6 ∧ s.sectorsUp = 4 * d + sec ∧ (s.sectorsUp = 0 ∨ (s.die 0).bootAt + 3500 ≤ s.clock) ∧
    (s.sectorsUp = 7 → (s.die 0).loader = none)

/-- A sector has started; after the last, the ports train. -/
def State.nextSector (s : State) (d sec : Nat) : State :=
  if s.sectorsUp != 7 then s.sectorUp d sec
  else (s.sectorUp d sec).trainPorts.bothDies fun x => { x with bootStep := 7 }

theorem exec_sectorStart (d sec : Nat) (s : State) : exec (.sectorStart d sec) s = .next (
    if s.bootFailed then s
    else if (s.die 0).bootStep = 7 && d == 1 && sec == 3 then s.bothDies fun x => { x with bootStep := 8, ready := true }
    else if (s.die 0).bootStep != 6 || s.sectorsUp != 4 * d + sec ||
        (s.sectorsUp != 0 && s.clock < (s.die 0).bootAt + 3500) || (s.sectorsUp == 7 && (s.die 0).loader.isSome) then s
    else s.nextSector d sec) := rfl

section
variable {d sec : Nat} {s : State}

theorem lastDone_iff : ((s.die 0).bootStep = 7 && d == 1 && sec == 3) = true ↔ s.lastDone d sec := by
  simp only [State.lastDone, Bool.and_eq_true, decide_eq_true_eq, beq_iff_eq, and_assoc]

theorem sectorDue_iff : ((s.die 0).bootStep != 6 || s.sectorsUp != 4 * d + sec ||
        (s.sectorsUp != 0 && s.clock < (s.die 0).bootAt + 3500) || (s.sectorsUp == 7 && (s.die 0).loader.isSome)) = true ↔
    ¬ s.sectorDue d sec := by
  simp only [State.sectorDue, Bool.or_eq_true, bne_iff_ne, Bool.and_eq_true, decide_eq_true_eq, beq_iff_eq,
    Option.isSome_iff_ne_none]
  rw [← Nat.not_le]
  tauto

theorem exec_sectorStart_waits (h : s.bootFailed = true ∨ ¬ s.lastDone d sec ∧ ¬ s.sectorDue d sec) :
    exec (.sectorStart d sec) s = .next s := by
  rw [exec_sectorStart]
  rcases h with hf | ⟨hl, hd⟩
  · rw [if_pos hf]
  · rw [if_neg (mt lastDone_iff.1 hl), if_pos (sectorDue_iff.2 hd), ite_self]

variable (hf : s.bootFailed = false)
include hf

theorem exec_sectorStart_last (hl : s.lastDone d sec) :
    exec (.sectorStart d sec) s = .next (s.bothDies fun x => { x with bootStep := 8, ready := true }) := by
  rw [exec_sectorStart, if_neg (by rw [hf]; decide), if_pos (lastDone_iff.2 hl)]

theorem exec_sectorStart_due (hd : s.sectorDue d sec) : exec (.sectorStart d sec) s = .next (s.nextSector d sec) := by
  have hl : ¬ s.lastDone d sec := fun hl => absurd (hl.1.symm.trans hd.1) (by decide)
  rw [exec_sectorStart, if_neg (by rw [hf]; decide), if_neg (mt lastDone_iff.1 hl), if_neg (mt sectorDue_iff.1 (not_not.2 hd))]

end

section
variable (s : State) (d sec : Nat)

theorem nextSector_eq : s.nextSector d sec =
    { s with dies := (s.nextSector d sec).dies, ports := (s.nextSector d sec).ports } := by
  unfold State.nextSector
  split
  · exact sectorUp_eq s d sec
  · rw [bothDies_eq, trainPorts_eq, sectorUp_eq]

theorem die_nextSector (m : Nat) : (s.nextSector d sec).die m = { s.die m with
    sectors := if m = d then (s.die m).sectors ||| BitVec.ofNat 4 (2 ^ sec) else (s.die m).sectors,
    bootAt := if m = 0 then s.clock else (s.die m).bootAt,
    bootStep := if s.sectorsUp = 7 ∧ m < 2 then 7 else (s.die m).bootStep } := by
  unfold State.nextSector
  by_cases h7 : s.sectorsUp = 7
  · have ht : (s.sectorUp d sec).trainPorts.die m = (s.sectorUp d sec).die m := by rw [trainPorts_eq]; rfl
    rw [if_neg (by simp [h7]), die_bothDies, ht, die_sectorUp]
    by_cases hm : m < 2
    · rw [if_pos hm, if_pos (show s.sectorsUp = 7 ∧ m < 2 from ⟨h7, hm⟩)]
    · rw [if_neg hm, if_neg (show ¬ (s.sectorsUp = 7 ∧ m < 2) from (hm ·.2))]
  · rw [if_pos (bne_iff_ne.2 h7), die_sectorUp, if_neg (show ¬ (s.sectorsUp = 7 ∧ m < 2) from (h7 ·.1))]

theorem port_nextSector (p : Nat) : (s.nextSector d sec).port p =
    if s.sectorsUp = 7 ∧ p < 8 then { s.port p with trained := (s.die 0).bootPorts.getLsbD p } else s.port p := by
  unfold State.nextSector
  by_cases h7 : s.sectorsUp = 7
  · have hb : ((s.sectorUp d sec).die 0).bootPorts = (s.die 0).bootPorts := by rw [die_sectorUp]
    rw [if_neg (by simp [h7]), port_bothDies, port_trainPorts, port_sectorUp, hb]
    simp only [h7, true_and]
  · rw [if_pos (bne_iff_ne.2 h7), if_neg (show ¬ (s.sectorsUp = 7 ∧ p < 8) from (h7 ·.1)), port_sectorUp]

end

/-! What hardware reads and writes within a descriptor. -/

theorem hwRd_ok {a n : Nat} (h : paOk a = true) (h' : paOk (a + n - 1) = true) (s : State) :
    hwRd a n s = .ok (s.rd a n) s := by
  simp only [hwRd, h, h', Bool.and_self, if_true]

theorem hwWr_ok {a n : Nat} (h : paOk a = true) (h' : paOk (a + n - 1) = true) (v : Nat) (s : State) :
    hwWr a n v s = .ok () (s.publishN a n v) := by
  simp only [hwWr, h, h', Bool.and_self, if_true]

/-- The little-endian number of bytes that are those of `v`. -/
theorem rd_eq_mod {t : State} : ∀ (n a v : Nat), (∀ j, j < n → t.byte (a + j) = (bytesOf v n).getD j 0) →
    t.rd a n = v % 256 ^ n := by
  intro n
  induction n with
  | zero => intro a v _; simp [State.rd, Nat.mod_one]
  | succ n ih =>
    intro a v h
    have h0 := h 0 (Nat.succ_pos n)
    have ht := ih (a + 1) (v / 256) fun j hj => by
      have := h (j + 1) (Nat.succ_lt_succ hj)
      rwa [← Nat.add_assoc, Nat.add_right_comm] at this
    simp only [Nat.add_zero, bytesOf, List.getD_cons_zero] at h0
    rw [State.rd, ht, h0, Nat.pow_succ', Nat.mod_mul, BitVec.toNat_ofNat]

theorem rd_lt (s : State) : ∀ n a, s.rd a n < 256 ^ n := by
  intro n
  induction n with
  | zero => exact fun _ => Nat.one_pos
  | succ n ih =>
    intro a
    have hr := ih (a + 1)
    have hb := (s.byte a).isLt
    rw [State.rd, Nat.pow_succ]
    omega

/-- A publication of a number puts it in place, modulo its width, and changes no other byte. -/
theorem putsAt_publishN (s : State) (a n v : Nat) : s.putsAt a n (v % 256 ^ n) (s.publishN a n v) := by
  refine ⟨publish_eq s a (bytesOf v n) false, rd_eq_mod n a v fun j hj => ?_, fun x hx => ?_⟩
  · rw [byte_publishN, if_pos (by omega), Nat.add_sub_cancel_left]
  · rw [byte_publishN, if_neg (by omega)]

/-- A publication in device memory leaves nothing to be sent to the host. -/
theorem hostDirty_publishN (s : State) {a : Nat} (n v : Nat) (h : a < hostBase) :
    (s.publishN a n v).hostDirty = s.hostDirty := by
  have hw (u : State) (bs : List Byte) : (u.wr a bs).hostDirty = u.hostDirty := if_neg (by omega)
  unfold State.publishN State.publish
  dsimp only
  split
  · rfl
  · split <;> rw [setPoison_eq, hw, logPubs_eq]

@[simp] theorem publishN_qpolls (s : State) (a n v : Nat) : (s.publishN a n v).qpolls = s.qpolls := by
  rw [State.publishN, publish_eq]
@[simp] theorem publishN_clock (s : State) (a n v : Nat) : (s.publishN a n v).clock = s.clock := by
  rw [State.publishN, publish_eq]
@[simp] theorem publishN_ops (s : State) (a n v : Nat) : (s.publishN a n v).ops = s.ops := by
  rw [State.publishN, publish_eq]

theorem bit_eq_testBit (w i : Nat) : bit w i = w.testBit i := Nat.testBit_eq_decide_div_mod_eq.symm

/-! The queues' descriptors and polling state (R286). -/

@[simp] theorem qpoll_setQpoll (s : State) (q j : Nat) (p : QPoll) :
    (s.setQpoll q p).qpoll j = if j = q then p else s.qpoll j := by
  simp [State.qpoll, State.setQpoll]

theorem rd_setQpoll (s : State) (q : Nat) (p : QPoll) (a n : Nat) : (s.setQpoll q p).rd a n = s.rd a n :=
  rd_of_mem (s := s) (t := s.setQpoll q p) rfl n a

@[simp] theorem qpoll_publishN (s : State) (a n v q : Nat) : (s.publishN a n v).qpoll q = s.qpoll q := by
  rw [State.qpoll, publishN_qpolls, State.qpoll]

theorem queueAt_lt (s : State) (q : Nat) : s.queueAt q + 32 < hostBase := by
  have h := (s.die (q / 65536)).qtbase.isLt
  have hq : q % 65536 < 65536 := Nat.mod_lt _ (by decide)
  unfold State.queueAt hostBase
  omega

/-- Every byte of the descriptor of queue `q` exists. -/
def State.queueOk (s : State) (q : Nat) : Prop := ∀ b, s.queueAt q ≤ b → b < s.queueAt q + 32 → paOk b = true

section
variable {s : State} {q : Nat} (h : s.queueOk q)
include h

theorem hwRd_queue {o n : Nat} (ho : o + n ≤ 32) (hn : 0 < n) (t : State) :
    hwRd (s.queueAt q + o) n t = .ok (t.rd (s.queueAt q + o) n) t :=
  hwRd_ok (h _ (by omega) (by omega)) (h _ (by omega) (by omega)) t

theorem hwWr_queue {o n : Nat} (ho : o + n ≤ 32) (hn : 0 < n) (v : Nat) (t : State) :
    hwWr (s.queueAt q + o) n v t = .ok () (t.publishN (s.queueAt q + o) n v) :=
  hwWr_ok (h _ (by omega) (by omega)) (h _ (by omega) (by omega)) v t

end

/-- `t` is `s` but for memory, its poison and publications, and the polling state. -/
def State.descOnly (s t : State) : Prop :=
  t = { s with mem := t.mem, poison := t.poison, pubs := t.pubs, npub := t.npub, qpolls := t.qpolls }

theorem State.descOnly.setQpoll {s t : State} (h : s.descOnly t) (q : Nat) (p : QPoll) : s.descOnly (t.setQpoll q p) :=
  congrArg (fun u : State => ({ u with qpolls := (t.setQpoll q p).qpolls } : State)) h

/-- A word written into a descriptor. -/
theorem publishN_queue (s : State) (q : Nat) {o : Nat} (ho : o < 32) (n v : Nat) :
    let t := s.publishN (s.queueAt q + o) n v
    s.descOnly t ∧ t.rd (s.queueAt q + o) n = v % 256 ^ n ∧
    ∀ b, b < s.queueAt q + o ∨ s.queueAt q + o + n ≤ b → t.byte b = s.byte b := by
  obtain ⟨he, hv, hb⟩ := putsAt_publishN s (s.queueAt q + o) n v
  refine ⟨?_, hv, hb⟩
  rw [hostDirty_publishN s n v (by have := queueAt_lt s q; omega)] at he
  rw [State.descOnly, publishN_qpolls]
  exact he

/-! What the host writes into a queue's descriptor (R284). -/

theorem event_ok {body : Op Unit} {s t : State} {u : Unit} (h : body s = .ok u t) :
    event body s = .next t := by
  rw [event, h]

section
variable {s : State} {q : Nat} (hf : s.bootFailed = false) (h : s.queueOk q) (v : DWord)

theorem exec_queueDescriptorWrite_readOnly (s : State) (q : Nat) (v : DWord) :
    exec (.queueDescriptorWrite q 2 v) s = .next s := by
  refine event_ok (u := ()) ?_
  simp only [run_get_bind]
  split <;> rfl

include hf h

theorem exec_queueDescriptorWrite_base :
    exec (.queueDescriptorWrite q 0 v) s = .next (s.publishN (s.queueAt q + 0) 8 v.toNat) := by
  refine event_ok (u := ()) ?_
  simp only [run_get_bind, hf, Bool.false_eq_true, if_false]
  exact hwWr_queue h (o := 0) (n := 8) (by decide) (by decide) v.toNat s

theorem exec_queueDescriptorWrite_wridx :
    exec (.queueDescriptorWrite q 1 v) s = .next (
      let t := s.publishN (s.queueAt q + 8) 8 (v.toNat % 2 ^ 32)
      t.setQpoll q { s.qpoll q with wrote := (s.qpoll q).wrote ++ [(v.toNat % 2 ^ 32, t.npub)] }) := by
  have hw := hwWr_queue h (o := 8) (n := 8) (by decide) (by decide) (v.toNat % 2 ^ 32) s
  have hv : fieldOf v.toNat 0 32 = v.toNat % 2 ^ 32 := by simp [fieldOf]
  refine event_ok (u := ()) ?_
  simp only [run_get_bind, hf, Bool.false_eq_true, if_false, hv]
  exact run_bind_ok hw

theorem exec_queueDescriptorWrite_control :
    exec (.queueDescriptorWrite q 3 v) s = .next (
      let t := s.publishN (s.queueAt q + 0x18) 8 (v.toNat % 2 ^ 42)
      if v.getLsbD 0 = true ∧ (s.rd (s.queueAt q + 0x18) 8).testBit 0 = false
      then t.setQpoll q { s.qpoll q with interval := 448, last := s.clock } else t) := by
  have hr := hwRd_queue h (o := 0x18) (n := 8) (by decide) (by decide) s
  have hw := hwWr_queue h (o := 0x18) (n := 8) (by decide) (by decide) (v.toNat % 2 ^ 42) s
  have hv : fieldOf v.toNat 0 42 = v.toNat % 2 ^ 42 := by simp [fieldOf]
  refine event_ok (u := ()) ?_
  simp only [run_get_bind, hf, Bool.false_eq_true, if_false, hv]
  rw [run_bind_ok hr, run_bind_ok hw]
  simp only [bit_eq_testBit, Bool.and_eq_true, Bool.not_eq_true', BitVec.getLsbD]
  split
  · rw [run_modify, qpoll_publishN, publishN_clock]
  · rfl
end

/-- In `t` word `o` of the descriptor of queue `q` is `w`, and no other byte has changed. -/
def State.putsWord (s : State) (q o w : Nat) (t : State) : Prop :=
  t.rd (s.queueAt q + o) 8 = w ∧ ∀ b, b < s.queueAt q + o ∨ s.queueAt q + o + 8 ≤ b → t.byte b = s.byte b

section
variable {s : State} {q : Nat} (hf : s.bootFailed = false) (h : s.queueOk q) (v : DWord)
include hf h

/-- The base of the ring is the host's to write. -/
theorem queueDescriptorWrite_base : Completes (.queueDescriptorWrite q 0 v) s fun t =>
    s.descOnly t ∧ s.putsWord q 0 v.toNat t ∧ t.qpolls = s.qpolls := by
  obtain ⟨ho, hv, hb⟩ := publishN_queue s q (o := 0) (by decide) 8 v.toNat
  exact ⟨_, exec_queueDescriptorWrite_base hf h v, ho, ⟨hv.trans (Nat.mod_eq_of_lt v.isLt), hb⟩, publishN_qpolls ..⟩

/-- WRIDX is kept to its 32 bits, and its write marks the point from which the records are the host's. -/
theorem queueDescriptorWrite_wridx : Completes (.queueDescriptorWrite q 1 v) s fun t =>
    s.descOnly t ∧ s.putsWord q 8 (v.toNat % 2 ^ 32) t ∧ (∀ j, j ≠ q → t.qpoll j = s.qpoll j) ∧
    t.qpoll q = { s.qpoll q with wrote := (s.qpoll q).wrote ++ [(v.toNat % 2 ^ 32, t.npub)] } := by
  obtain ⟨ho, hv, hb⟩ := publishN_queue s q (o := 8) (by decide) 8 (v.toNat % 2 ^ 32)
  refine ⟨_, exec_queueDescriptorWrite_wridx hf h v, ho.setQpoll q _, ⟨hv.trans (Nat.mod_eq_of_lt (by omega)), hb⟩,
    fun j hj => ?_, ?_⟩
  · rw [qpoll_setQpoll, if_neg hj, qpoll_publishN]
  · rw [qpoll_setQpoll, if_pos rfl]; rfl

/-- The control word keeps its 42 bits; enabling the queue sets its interval to 256 ns. -/
theorem queueDescriptorWrite_control : Completes (.queueDescriptorWrite q 3 v) s fun t =>
    s.putsWord q 0x18 (v.toNat % 2 ^ 42) t ∧ s.descOnly t ∧
    (v.getLsbD 0 = true → (s.rd (s.queueAt q + 0x18) 8).testBit 0 = false →
      t.qpoll q = { s.qpoll q with interval := 448, last := s.clock }) ∧
    (v.getLsbD 0 = false ∨ (s.rd (s.queueAt q + 0x18) 8).testBit 0 = true → t.qpolls = s.qpolls) := by
  obtain ⟨ho, hv, hb⟩ := publishN_queue s q (o := 0x18) (by decide) 8 (v.toNat % 2 ^ 42)
  replace hv := hv.trans (Nat.mod_eq_of_lt (by omega))
  refine ⟨_, exec_queueDescriptorWrite_control hf h v, ?_⟩
  by_cases hc : v.getLsbD 0 = true ∧ (s.rd (s.queueAt q + 0x18) 8).testBit 0 = false
  · simp only [if_pos hc]
    refine ⟨⟨hv, hb⟩, ho.setQpoll q _, fun _ _ => ?_, fun hn => ?_⟩
    · rw [qpoll_setQpoll, if_pos rfl]
    · rw [hc.1, hc.2] at hn
      simp at hn
  · simp only [if_neg hc]
    exact ⟨⟨hv, hb⟩, ho, fun h1 h2 => absurd ⟨h1, h2⟩ hc, fun _ => publishN_qpolls ..⟩

end

/-! The Collection Round (R286). -/

/-- A key that a store in rising order lists reads as listed. -/
theorem Store.get_of_mem {β : Type} (d : β) {m : Store β} (h : m.rising = true) {k : Nat} {v : β} (hk : (k, v) ∈ m) :
    Store.get d m k = v := by
  induction m with
  | nil => cases hk
  | cons e t ih =>
    obtain ⟨a, w⟩ := e
    obtain ⟨hlt, ht⟩ := (Store.rising_cons_iff a w t).1 h
    rcases List.mem_cons.1 hk with he | hk
    · cases he; exact if_pos rfl
    · exact (if_neg (hlt _ hk).ne).trans (ih ht hk)

/-- A key that does not read as the default is listed. -/
theorem Store.mem_of_get_ne {β : Type} {d : β} {m : Store β} {k : Nat} (h : Store.get d m k ≠ d) :
    (k, Store.get d m k) ∈ m := by
  induction m with
  | nil => exact absurd rfl h
  | cons e t ih =>
    obtain ⟨a, w⟩ := e
    rw [Store.get] at h ⊢
    split at h
    · next ha => subst ha; simp
    · next ha => rw [if_neg ha]; exact List.mem_cons_of_mem _ (ih h)

theorem Store.pairwise_of_rising {β : Type} {m : Store β} (h : m.rising = true) : m.Pairwise fun x y => x.1 < y.1 := by
  induction m with
  | nil => exact .nil
  | cons e t ih =>
    obtain ⟨hlt, ht⟩ := (Store.rising_cons_iff e.1 e.2 t).1 h
    exact .cons hlt (ih ht)

/-- What an ascending list gives first of the elements that satisfy `p`. -/
theorem find?_of_ascending {l : List Nat} (h : l.Pairwise (· < ·)) (p : Nat → Bool) (x : Nat) :
    l.find? p = some x ↔ x ∈ l ∧ p x = true ∧ ∀ y ∈ l, y < x → p y = false := by
  induction l with
  | nil => simp
  | cons a l ih =>
    obtain ⟨ha, hl⟩ := List.pairwise_cons.1 h
    rw [List.find?_cons]
    cases hp : p a with
    | true =>
      simp only [Option.some.injEq]
      constructor
      · rintro rfl
        refine ⟨List.mem_cons_self, hp, fun y hy hlt => ?_⟩
        rcases List.mem_cons.1 hy with rfl | hy
        · omega
        · have := ha y hy; omega
      · rintro ⟨hx, -, hall⟩
        rcases List.mem_cons.1 hx with rfl | hx
        · rfl
        · simp [hall a List.mem_cons_self (ha x hx)] at hp
    | false =>
      dsimp only
      rw [ih hl]
      constructor
      · rintro ⟨hx, hpx, hall⟩
        refine ⟨List.mem_cons_of_mem _ hx, hpx, fun y hy hlt => ?_⟩
        rcases List.mem_cons.1 hy with rfl | hy
        · exact hp
        · exact hall y hy hlt
      · rintro ⟨hx, hpx, hall⟩
        have hne : x ≠ a := by rintro rfl; simp [hp] at hpx
        exact ⟨(List.mem_cons.1 hx).resolve_left hne, hpx, fun y hy => hall y (List.mem_cons_of_mem _ hy)⟩

/-- Queue `j` of die `d` is enabled: EN of its descriptor is set. -/
def State.queueOn (s : State) (d j : Nat) : Prop :=
  j < 65536 ∧ (s.byte ((s.die d).qtbase.toNat + 32 * j + 24)).getLsbD 0 = true

theorem mem_enabledQueues {s : State} (h : s.memWf = true) (d q : Nat) :
    q ∈ s.enabledQueues d ↔ ∃ j, q = 65536 * d + j ∧ s.queueOn d j := by
  have hr := Store.rising_of_wf ((memWf_iff s).1 h).1
  simp only [State.enabledQueues, List.mem_filterMap, Option.ite_none_right_eq_some, Bool.and_eq_true, decide_eq_true_eq,
    beq_iff_eq, Option.some.injEq]
  constructor
  · rintro ⟨⟨a, b⟩, hm, ⟨⟨⟨hlo, hhi⟩, hoff⟩, hen⟩, rfl⟩
    refine ⟨_, rfl, by dsimp only at *; omega, ?_⟩
    dsimp only at *
    rw [State.byte, show (s.die d).qtbase.toNat + 32 * ((a - (s.die d).qtbase.toNat) / 32) + 24 = a by omega,
      Store.get_of_mem _ hr hm]
    exact hen
  · rintro ⟨j, rfl, hj, hen⟩
    refine ⟨(_, s.byte ((s.die d).qtbase.toNat + 32 * j + 24)), Store.mem_of_get_ne fun h0 => ?_, ⟨⟨⟨?_, ?_⟩, ?_⟩, hen⟩, ?_⟩
    · rw [State.byte, h0] at hen; simp [memDefault] at hen
    all_goals dsimp only; omega

theorem enabledQueues_ascending {s : State} (h : s.memWf = true) (d : Nat) : (s.enabledQueues d).Pairwise (· < ·) := by
  have hp := Store.pairwise_of_rising (Store.rising_of_wf ((memWf_iff s).1 h).1)
  refine List.pairwise_filterMap.2 (hp.imp fun {x y} hlt p hx q hy => ?_)
  simp only [Option.ite_none_right_eq_some, Bool.and_eq_true, decide_eq_true_eq, beq_iff_eq, Option.some.injEq] at hx hy
  omega

/-- The queue that the round visits next: the first due one from `round` on, or else the first due one. -/
theorem nextQueue_eq_some_iff {s : State} (h : s.memWf = true) (d q : Nat) :
    let due (j : Nat) : Prop := s.queueOn d j ∧
      (s.qpoll (65536 * d + j)).last + (s.qpoll (65536 * d + j)).interval ≤ s.clock
    s.nextQueue d = some q ↔ ∃ j, q = 65536 * d + j ∧ due j ∧
      ((s.die d).round ≤ j ∧ (∀ k, (s.die d).round ≤ k → k < j → ¬ due k) ∨
        (∀ k, (s.die d).round ≤ k → ¬ due k) ∧ ∀ k, k < j → ¬ due k) := by
  intro due
  have hasc : ∀ p : Nat → Bool, ((s.enabledQueues d).filter p).Pairwise (· < ·) :=
    fun p => (enabledQueues_ascending h d).filter p
  have hmem : ∀ x, x ∈ (s.enabledQueues d).filter (fun q => (s.qpoll q).last + (s.qpoll q).interval ≤ s.clock) ↔
      ∃ j, x = 65536 * d + j ∧ due j := by
    intro x
    simp only [List.mem_filter, mem_enabledQueues h, decide_eq_true_eq]
    constructor
    · rintro ⟨⟨j, rfl, hj⟩, ht⟩; exact ⟨j, rfl, hj, ht⟩
    · rintro ⟨j, rfl, hj, ht⟩; exact ⟨⟨j, rfl, hj⟩, ht⟩
  have hmod : ∀ j, due j → (65536 * d + j) % 65536 = j := fun j hj => by have := hj.1.1; omega
  unfold State.nextQueue
  dsimp only
  have hhead : ∀ l : List Nat, l.head? = l.find? fun _ => true := fun l => by cases l <;> rfl
  simp only [hhead, Option.or_eq_some_iff, List.find?_eq_none, find?_of_ascending (hasc _), hmem, decide_eq_true_eq,
    decide_eq_false_iff_not, true_and, Bool.true_eq_false, imp_false]
  constructor
  · rintro (⟨⟨j, rfl, hj⟩, hr, hall⟩ | ⟨hnone, ⟨j, rfl, hj⟩, hall⟩)
    · rw [hmod j hj] at hr
      exact ⟨j, rfl, hj, .inl ⟨hr, fun k hk hlt hd =>
        hall _ ⟨k, rfl, hd⟩ (by omega) (by rwa [hmod k hd])⟩⟩
    · exact ⟨j, rfl, hj, .inr ⟨fun k hk hd => hnone _ ⟨k, rfl, hd⟩ (by rwa [hmod k hd]),
        fun k hlt hd => hall _ ⟨k, rfl, hd⟩ (by omega)⟩⟩
  · rintro ⟨j, rfl, hj, ⟨hr, hall⟩ | ⟨hnone, hall⟩⟩
    · refine .inl ⟨⟨j, rfl, hj⟩, by rwa [hmod j hj], ?_⟩
      rintro _ ⟨k, rfl, hd⟩ hlt hk
      exact hall k (hmod k hd ▸ hk) (by omega) hd
    · refine .inr ⟨?_, ⟨j, rfl, hj⟩, ?_⟩
      · rintro _ ⟨k, rfl, hd⟩ hk
        exact hnone k (hmod k hd ▸ hk) hd
      · rintro _ ⟨k, rfl, hd⟩ hlt
        exact hall k (by omega) hd

/-! Polling a queue (R286). -/

theorem foldl_wr_qpolls (g : Nat) (bs : List (Nat × RByte)) (s : State) :
    (bs.foldl (fun s b => s.wr (8 * g + b.1) [b.2.1]) s).qpolls = s.qpolls := by
  induction bs generalizing s with
  | nil => rfl
  | cons b bs ih => exact ih _

theorem publishGranule_qpolls (s : State) (g : Nat) (bs : List (Nat × RByte)) : (s.publishGranule g bs).qpolls = s.qpolls := by
  have hlog : (s.logPubs g 1).qpolls = s.qpolls := by rw [logPubs_eq]
  unfold State.publishGranule
  dsimp only
  split
  · rw [setPoison_eq]; exact (foldl_wr_qpolls ..).trans hlog
  · split
    · rw [setPoison_eq]; exact (foldl_wr_qpolls ..).trans hlog
    · exact (foldl_wr_qpolls ..).trans hlog

theorem refreshGranule_qpolls (s : State) (g : Nat) : (s.refreshGranule g).qpolls = s.qpolls := by
  unfold State.refreshGranule
  dsimp only
  split
  · rfl
  · exact publishGranule_qpolls ..

/-- Dropping the host's lines leaves the polling state of every queue. -/
theorem qpoll_dropHostLines (s : State) (q : Nat) : s.dropHostLines.qpoll q = s.qpoll q := by
  have key : ∀ (l : List Nat) (u : State), (l.foldl State.refreshGranule u).qpolls = u.qpolls := by
    intro l
    induction l with
    | nil => exact fun _ => rfl
    | cons g l ih => exact fun u => (ih _).trans (refreshGranule_qpolls u g)
  rw [State.qpoll, State.dropHostLines, key, State.qpoll]

/-- The Collection Round of die `d` has come to queue `q`. -/
def State.visit (s : State) (d q : Nat) : State := s.modDie d fun x => { x with round := q % 65536 + 1 }

@[simp] theorem queueAt_visit (s : State) (d q j : Nat) : (s.visit d q).queueAt j = s.queueAt j := by
  unfold State.queueAt State.visit
  rw [die_modDie]
  split
  · next h => rw [h]
  · rfl

/-- WRIDX of queue `q`: one above the last record that the host has written. -/
def State.wrIdx (s : State) (q : Nat) : Nat := s.rd (s.queueAt q + 8) 4
/-- RDIDX of queue `q`: the next record to be taken. -/
def State.rdIdx (s : State) (q : Nat) : Nat := s.rd (s.queueAt q + 0x10) 4
/-- The control word of queue `q`. -/
def State.queueCtl (s : State) (q : Nat) : Nat := s.rd (s.queueAt q + 0x18) 8

/-- How many records wait between the two indices. -/
def State.waiting (s : State) (q : Nat) : Nat := (s.wrIdx q + 2 ^ 32 - s.rdIdx q) % 2 ^ 32
/-- The logarithm of the ring's length. -/
def State.ringLog (s : State) (q : Nat) : Nat := s.queueCtl q / 2 % 16

/-- The Collection Round of die `d` polls queue `q` now. -/
def State.pollDue (s : State) (d q : Nat) : Prop :=
  (s.die d).run = true ∧ s.bootFailed = false ∧ s.nextQueue d = some q

/-- What a poll does with the descriptor it has read. -/
def pollWork (q : Nat) (p : QPoll) (ring wi rd w3 : Nat) (s : State) : Op Unit :=
  if !bit w3 0 then pure ()
  else
    let n := (wi + 2 ^ 32 - rd) % 2 ^ 32
    let log := fieldOf w3 1 4
    if log < 4 || 2 ^ log < n then stopQueue q w3
    else if n = 0 then
      set (s.setQpoll q { p with interval := min (2 * p.interval) (maxInterval w3), last := s.clock })
    else do
      set (s.setQpoll q { p with interval := 448, last := s.clock })
      if s.ops.all (fun o => o.q != q || s.opActive o) then takeRecord q ring rd w3

/-- A poll that is not due does nothing. -/
theorem exec_poll_early {d q : Nat} {s : State} (h : ¬ s.pollDue d q) :
    exec (.collectionRoundPoll d q) s = .next s := by
  refine event_ok (u := ()) ?_
  rw [run_get_bind, if_pos]
  · rfl
  · simp only [Bool.or_eq_true, Bool.not_eq_true', bne_iff_ne]
    by_contra hc
    simp only [not_or, Bool.not_eq_false, Bool.not_eq_true, not_not] at hc
    exact h ⟨hc.1.1, hc.1.2, hc.2⟩

/-- A poll that is due reads the descriptor, and its work follows. -/
theorem exec_poll_due {d q : Nat} {s t : State} (h : s.pollDue d q) (hs : s.queueOk q)
    (hw : pollWork q (s.qpoll q) (s.rd (s.queueAt q) 8) (s.wrIdx q) (s.rdIdx q) (s.queueCtl q) (s.visit d q) (s.visit d q) =
      .ok () t) :
    exec (.collectionRoundPoll d q) s = .next t := by
  obtain ⟨hr, hf, hn⟩ := h
  have hg : (!(s.die d).run || s.bootFailed || s.nextQueue d != some q) = false := by simp [hr, hf, hn]
  refine event_ok (u := ()) ?_
  rw [run_get_bind, hg, if_neg Bool.false_ne_true, run_set_bind]
  show (hwRd ((s.visit d q).queueAt q + 0) 8 >>= fun ring => hwRd ((s.visit d q).queueAt q + 8) 4 >>= fun wi =>
    hwRd ((s.visit d q).queueAt q + 0x10) 4 >>= fun rd => hwRd ((s.visit d q).queueAt q + 0x18) 8 >>= fun w3 =>
    pollWork q (s.qpoll q) ring wi rd w3 (s.visit d q)) (s.visit d q) = _
  have hread := fun o n ho hn => hwRd_queue hs (o := o) (n := n) ho hn (s.visit d q)
  rw [queueAt_visit, run_bind_ok (hread 0 8 (by decide) (by decide)), run_bind_ok (hread 8 4 (by decide) (by decide)),
    run_bind_ok (hread 0x10 4 (by decide) (by decide)), run_bind_ok (hread 0x18 8 (by decide) (by decide))]
  exact hw

/-- The control word with which a queue is stopped: EN clear, QERR set. -/
theorem stopWord_testBit (w : Nat) : let v := setField (setField w 0 1 0) 41 1 1
    v.testBit 0 = false ∧ v.testBit 41 = true := by
  simp only [Nat.testBit_eq_decide_div_mod_eq, setField, fieldOf, decide_eq_false_iff_not, decide_eq_true_eq]
  omega

theorem stopQueue_run {q : Nat} {s : State} (h : s.queueOk q) (w : Nat) : stopQueue q w s = .ok () (
    let t := s.publishN (s.queueAt q + 0x18) 8 (setField (setField w 0 1 0) 41 1 1)
    t.setQpoll q { s.qpoll q with chain := none }) := by
  refine (run_bind_ok (hwWr_queue h (o := 0x18) (n := 8) (by decide) (by decide) _ s)).trans ?_
  rw [run_modify, qpoll_publishN]

/-- RDIDX moves past the record taken. -/
theorem advance_run {q : Nat} {s : State} (h : s.queueOk q) (rd : Nat) :
    ∃ t, advance q rd s = .ok () t ∧ t.rd (s.queueAt q + 0x10) 4 = (rd + 1) % 2 ^ 32 ∧ t.ops = s.ops :=
  ⟨_, run_bind_ok (hwWr_queue h (o := 0x10) (n := 4) (by decide) (by decide) _ s),
    ((putsAt_publishN s (s.queueAt q + 0x10) 4 ((rd + 1) % 2 ^ 32)).2.1).trans (Nat.mod_mod _ _),
    publishN_ops s _ _ _⟩

/-- The 8 words of a record. -/
def recordWords (l : List RByte) : List Nat := (List.range 8).map fun i => rbytesNat ((l.drop (8 * i)).take 8)

/-- The operator that the record `w` of queue `q` makes. -/
def opOfRecord (q ctx id : Nat) (prev : Option Nat) (w : List Nat) : OpRun :=
  { id, prev, q, die := q / 65536, ctx, words := w, begun := badRecord w, status := if badRecord w then 2 else 0, upto := 0,
    ended := [] }

/-- The record `w` has become the last operator of queue `q`. -/
def State.withRecord (s : State) (q ctx : Nat) (w : List Nat) : State :=
  { s.setQpoll q { s.qpoll q with lastOp := some s.nextId } with
      nextId := s.nextId + 1, ops := s.ops ++ [opOfRecord q ctx s.nextId (s.qpoll q).lastOp w] }

theorem pushOp_run (q ctx : Nat) (w : List Nat) (s : State) :
    pushOp q ctx w (if badRecord w then 2 else 0) s = .ok () (s.withRecord q ctx w) := by
  cases h : badRecord w <;> simp only [State.withRecord, opOfRecord, h] <;> rfl

/-- The record at RDIDX, when it can be read and chains no other, becomes an operator, and RDIDX moves past it. -/
theorem takeRecord_ring {q ring rd w3 : Nat} {s s1 : State} {l : List RByte} (hc : (s.qpoll q).chain = none)
    (hl : readSlot (q / 65536) (fieldOf w3 5 16) (addrAdd ring (64 * (rd % 2 ^ fieldOf w3 1 4)))
      (s.dropHostLines.slotPoint q rd) s.dropHostLines = .ok (some l) s1) (hp : anyPoison l = false)
    (hw : ((recordWords l).getD 0 0).testBit 8 = false) (hs : s1.queueOk q) :
    ∃ t, takeRecord q ring rd w3 s = .ok () t ∧ t.rd (s1.queueAt q + 0x10) 4 = (rd + 1) % 2 ^ 32 ∧
      t.ops = s1.ops ++ [opOfRecord q (fieldOf w3 5 16) s1.nextId (s1.qpoll q).lastOp (recordWords l)] := by
  have hc' : (s.dropHostLines.qpoll q).chain = none := by rw [qpoll_dropHostLines, hc]
  obtain ⟨t, ha, hrd, hops⟩ := advance_run (s := s1.withRecord q (fieldOf w3 5 16) (recordWords l)) hs rd
  refine ⟨t, ?_, hrd, hops⟩
  refine (run_modify_bind _ _ s).trans ?_
  rw [run_get_bind]
  simp only [hc']
  rw [run_bind_ok hl]
  simp only [hp, Bool.false_eq_true, if_false]
  refine (run_bind_ok (pushOp_run q _ (recordWords l) s1)).trans ?_
  have hw' : ¬ bit ((recordWords l).getD 0 0) 8 = true := by rw [bit_eq_testBit, hw]; decide
  exact (congrFun (if_neg hw') _).trans ha

theorem fieldOf_ringLog (w : Nat) : fieldOf w 1 4 = w / 2 % 16 := by simp [fieldOf]

section
variable (q : Nat) (p : QPoll) (ring wi rd : Nat) {w3 : Nat} (s : State)

theorem pollWork_disabled (h : w3.testBit 0 = false) : pollWork q p ring wi rd w3 s s = .ok () s := by
  rw [pollWork, bit_eq_testBit, h]
  rfl

variable (h : w3.testBit 0 = true)
include h

/-- A descriptor whose ring is too small, or whose indices are further apart than its ring is long, stops its queue. -/
theorem pollWork_stops (hl : w3 / 2 % 16 < 4 ∨ 2 ^ (w3 / 2 % 16) < (wi + 2 ^ 32 - rd) % 2 ^ 32) :
    pollWork q p ring wi rd w3 s = stopQueue q w3 := by
  rw [pollWork, bit_eq_testBit, h, if_neg (by decide)]
  exact if_pos (by simpa [fieldOf_ringLog] using hl)

variable (hl : 4 ≤ w3 / 2 % 16)
include hl

/-- A poll that finds nothing doubles the interval, up to its limit. -/
theorem pollWork_empty (hn : wi = rd) : pollWork q p ring wi rd w3 s = set (s.setQpoll q { p with
    interval := min (2 * p.interval) (1750 * (if w3 / 2 ^ 21 % 2 ^ 20 = 0 then 1000 else w3 / 2 ^ 21 % 2 ^ 20)),
    last := s.clock }) := by
  have h0 : (wi + 2 ^ 32 - rd) % 2 ^ 32 = 0 := by omega
  rw [pollWork, bit_eq_testBit, h, if_neg (by decide)]
  refine (if_neg ?_).trans (if_pos h0)
  rw [h0, fieldOf_ringLog]
  simpa using hl

/-- A poll that finds a record takes it, unless the shadow bank is full. -/
theorem pollWork_takes (hne : (wi + 2 ^ 32 - rd) % 2 ^ 32 ≠ 0) (hle : (wi + 2 ^ 32 - rd) % 2 ^ 32 ≤ 2 ^ (w3 / 2 % 16))
    (ha : ∀ o, o ∈ s.ops → o.q = q → s.opActive o = true) :
    pollWork q p ring wi rd w3 s s = takeRecord q ring rd w3 (s.setQpoll q { p with interval := 448, last := s.clock }) := by
  have hall : s.ops.all (fun o => o.q != q || s.opActive o) = true := by
    rw [List.all_eq_true]
    intro o ho
    by_cases hq : o.q = q
    · simp [ha o ho hq]
    · simp [hq]
  rw [pollWork, bit_eq_testBit, h, if_neg (by decide)]
  refine (congrFun ((if_neg ?_).trans (if_neg hne)) s).trans ?_
  · rw [fieldOf_ringLog]
    simpa using ⟨hl, hle⟩
  · rw [run_set_bind, if_pos hall]

end

/-- A stopped queue: EN clear and QERR set, no operator touched. -/
theorem stopQueue_spec {q : Nat} {s : State} (h : s.queueOk q) (w : Nat) :
    ∃ t, stopQueue q w s = .ok () t ∧ (t.rd (s.queueAt q + 0x18) 8).testBit 0 = false ∧
      (t.rd (s.queueAt q + 0x18) 8).testBit 41 = true ∧ t.ops = s.ops := by
  obtain ⟨h0, h41⟩ := stopWord_testBit w
  have hv := (putsAt_publishN s (s.queueAt q + 0x18) 8 (setField (setField w 0 1 0) 41 1 1)).2.1
  refine ⟨_, stopQueue_run h w, ?_⟩
  dsimp only
  rw [rd_setQpoll, hv, show (256 : Nat) ^ 8 = 2 ^ 64 by decide, Nat.testBit_mod_two_pow, Nat.testBit_mod_two_pow, h0, h41]
  exact ⟨rfl, rfl, publishN_ops ..⟩

/-! What a poll that is due does. -/

section
variable {d q : Nat} {s : State} (hd : s.pollDue d q) (hs : s.queueOk q)
include hd hs

theorem exec_poll_disabled (h : (s.queueCtl q).testBit 0 = false) :
    exec (.collectionRoundPoll d q) s = .next (s.visit d q) :=
  exec_poll_due hd hs (pollWork_disabled _ _ _ _ _ _ h)

variable (h : (s.queueCtl q).testBit 0 = true)
include h

theorem exec_poll_stops (hl : s.ringLog q < 4 ∨ 2 ^ s.ringLog q < s.waiting q) :
    Completes (.collectionRoundPoll d q) s fun t => (t.rd (s.queueAt q + 0x18) 8).testBit 0 = false ∧
      (t.rd (s.queueAt q + 0x18) 8).testBit 41 = true ∧ t.ops = s.ops := by
  have hs' : (s.visit d q).queueOk q := by rw [State.queueOk, queueAt_visit]; exact hs
  obtain ⟨t, ht, hen, herr, hops⟩ := stopQueue_spec hs' (s.queueCtl q)
  rw [queueAt_visit] at hen herr
  exact ⟨t, exec_poll_due hd hs ((congrFun (pollWork_stops _ _ _ _ _ _ h hl) _).trans ht), hen, herr, hops⟩

variable (hl : 4 ≤ s.ringLog q)
include hl

theorem exec_poll_empty (hn : s.wrIdx q = s.rdIdx q) : exec (.collectionRoundPoll d q) s = .next (
    (s.visit d q).setQpoll q { s.qpoll q with
      interval := min (2 * (s.qpoll q).interval)
        (1750 * (if s.queueCtl q / 2 ^ 21 % 2 ^ 20 = 0 then 1000 else s.queueCtl q / 2 ^ 21 % 2 ^ 20)),
      last := s.clock }) :=
  exec_poll_due hd hs (congrFun (pollWork_empty _ _ _ _ _ _ h hl hn) _)

/-- The queue's polling state, once a record is found. -/
def State.found (s : State) (d q : Nat) : State :=
  (s.visit d q).setQpoll q { s.qpoll q with interval := 448, last := s.clock }

theorem exec_poll_takes (hne : s.wrIdx q ≠ s.rdIdx q) (hle : s.waiting q ≤ 2 ^ s.ringLog q)
    (hc : (s.qpoll q).chain = none) (ha : ∀ o, o ∈ s.ops → o.q = q → s.opActive o = true) {l : List RByte} {s1 : State}
    (hr : readSlot (q / 65536) (s.queueCtl q / 2 ^ 5 % 2 ^ 16)
      (addrAdd (s.rd (s.queueAt q) 8) (64 * (s.rdIdx q % 2 ^ s.ringLog q))) ((s.found d q).dropHostLines.slotPoint q (s.rdIdx q))
      (s.found d q).dropHostLines = .ok (some l) s1)
    (hp : anyPoison l = false) (hw : ((recordWords l).getD 0 0).testBit 8 = false) (hq : s1.queueAt q = s.queueAt q) :
    Completes (.collectionRoundPoll d q) s fun t => t.rd (s.queueAt q + 0x10) 4 = (s.rdIdx q + 1) % 2 ^ 32 ∧
      t.ops = s1.ops ++ [opOfRecord q (s.queueCtl q / 2 ^ 5 % 2 ^ 16) s1.nextId (s1.qpoll q).lastOp (recordWords l)] := by
  have hlog : fieldOf (s.queueCtl q) 1 4 = s.ringLog q := fieldOf_ringLog _
  have hs1 : s1.queueOk q := by rw [State.queueOk, hq]; exact hs
  have hc' : ((s.found d q).qpoll q).chain = none := by rw [State.found, qpoll_setQpoll, if_pos rfl]; exact hc
  have hn0 : s.waiting q ≠ 0 := by
    have h1 : s.wrIdx q < 256 ^ 4 := rd_lt ..
    have h2 : s.rdIdx q < 256 ^ 4 := rd_lt ..
    unfold State.waiting
    omega
  obtain ⟨t, ht, hrd, hops⟩ := takeRecord_ring hc' (by rw [hlog]; exact hr) hp hw hs1
  rw [hq] at hrd
  have hp := pollWork_takes q (s.qpoll q) (s.rd (s.queueAt q) 8) (s.wrIdx q) (s.rdIdx q) (s.visit d q) h hl hn0 hle ha
  exact ⟨t, exec_poll_due hd hs (hp.trans ht), hrd, hops⟩

end

/-! Operators (R287). -/

theorem operate_none {q opc : Nat} {f : OpRun → Op (Nat × Nat)} {s : State} (h : s.nextOp q opc = none) :
    operate q opc f s = .next s := by
  refine event_ok (u := ()) ?_
  simp only [run_get_bind, h]
  rfl

/-- An operator that runs leaves its status, and how far it went. -/
theorem operate_some {q opc : Nat} {f : OpRun → Op (Nat × Nat)} {s s1 : State} {o : OpRun} {status upto : Nat}
    (h : s.nextOp q opc = some o) (hf : f o s = .ok (status, upto) s1) :
    operate q opc f s = .next (s1.setOp { o with begun := true, status, upto }) := by
  refine event_ok (u := ()) ?_
  simp only [run_get_bind, h]
  exact run_bind_ok hf

section
variable {q : Nat} {s s1 : State} {o : OpRun} {c : CtxEnt} (h : s.nextOp q 1 = some o) (hc : ctxEnt o.die o.ctx s = .ok c s1)
include h hc

/-- LAUNCH: a range that is empty. -/
theorem exec_launch_empty (h0 : o.count = 0) :
    exec (.launch q) s = .next (s1.setOp { o with begun := true, status := 2, upto := 0 }) := by
  refine operate_some h ((run_bind_ok hc).trans ?_)
  simp only [h0, if_true, run_pure]

/-- LAUNCH: a context that cannot be used. -/
theorem exec_launch_badContext (h0 : o.count ≠ 0) (hv : c.poisoned = true ∨ c.valid = false) :
    exec (.launch q) s = .next (s1.setOp { o with begun := true, status := 6, upto := 0 }) := by
  refine operate_some h ((run_bind_ok hc).trans ?_)
  have hv' : (c.poisoned || !c.valid) = true := by simpa using hv
  simp only [h0, hv', if_true, if_false, run_pure]

variable (h0 : o.count ≠ 0) (hp : c.poisoned = false) (hv : c.valid = true)
include h0 hp hv

/-- LAUNCH: a range that goes beyond the context's TCBs. -/
theorem exec_launch_beyond (hb : c.tcbSize < o.first + o.count) :
    exec (.launch q) s = .next (s1.setOp { o with begun := true, status := 2, upto := 0 }) := by
  refine operate_some h ((run_bind_ok hc).trans ?_)
  simp only [h0, hp, hv, hb, Bool.not_true, Bool.or_false, Bool.false_eq_true, if_true, if_false, run_pure]

variable (hb : o.first + o.count ≤ c.tcbSize)
include hb

/-- LAUNCH: a task of the range names a Postmaster core, which is told to die `o.die`'s. -/
theorem exec_launch_postmaster {t : Nat} {s2 : State}
    (hf : findPostmaster o.die o.ctx ((List.range o.count).map (o.first + ·)) s1 = .ok (some t) s2) :
    exec (.launch q) s =
      .next ((s2.postUnit o.die 5 0 t 6 o.ctx).setOp { o with begun := true, status := 3, upto := 0 }) := by
  refine operate_some h ((run_bind_ok hc).trans ?_)
  simp only [h0, hp, hv, Nat.not_lt.2 hb, Bool.not_true, Bool.or_false, Bool.false_eq_true, if_false]
  exact run_bind_ok hf

/-- LAUNCH: the ready tasks are inserted under a new stamp. -/
theorem exec_launch_inserts {s2 s3 s4 : State} {st n : Nat}
    (hf : findPostmaster o.die o.ctx ((List.range o.count).map (o.first + ·)) s1 = .ok none s2)
    (hn : newStamp o.die o.ctx s2 = .ok () s3)
    (hi : insertReady o.die o.ctx ((List.range o.count).map (o.first + ·)) 0 s3 = .ok (st, n) s4) :
    exec (.launch q) s = .next (s4.setOp { o with begun := true, status := st, upto := n }) := by
  refine operate_some h ((run_bind_ok hc).trans ?_)
  simp only [h0, hp, hv, Nat.not_lt.2 hb, Bool.not_true, Bool.or_false, Bool.false_eq_true, if_false]
  exact (run_bind_ok hf).trans ((run_bind_ok hn).trans hi)

end

theorem exec_stage {q : Nat} {s s1 : State} {o : OpRun} {r : Nat} (h : s.nextOp q 2 = some o)
    (hr : pennOp (o.words.getD 2 0 / 8 % 2) o.ctx (o.words.getD 2 0 / 16 % 8) (o.words.getD 2 0 % 8) (o.words.getD 3 0) s =
      .ok r s1) :
    exec (.stage q) s = .next (s1.setOp { o with begun := true, status := if r % 256 = 0 then 0 else 5, upto := 0 }) := by
  have h0 : fieldOf (o.words.getD 2 0) 0 3 = o.words.getD 2 0 % 8 := by simp [fieldOf]
  rw [← h0] at hr
  exact operate_some h (run_bind_ok hr)

/-- The host step has sent what the device published in the host half, and its zero-length read. -/
def State.hostStepped (s : State) : State := { s.sendHost with pcie := s.pcie ++ [.zeroRead] }

theorem exec_write {q : Nat} {s s1 : State} {o : OpRun} {ok : Bool} (h : s.nextOp q 4 = some o)
    (hw : agWrite (agHost o.die) o.die o.ctx (o.words.getD 2 0) 8 (o.words.getD 3 0) s = .ok ok s1) :
    exec (.write q) s = .next (if ok then s1.hostStepped.setOp { o with begun := true, status := 0, upto := 0 }
      else s1.setOp { o with begun := true, status := 6, upto := 0 }) := by
  cases ok
  · exact operate_some h (run_bind_ok hw)
  · exact operate_some h (run_bind_ok hw)

/-- The operator whose completion comes next. -/
def State.endingOp (s : State) (q : Nat) : Option OpRun := s.ops.find? fun o => o.q == q && o.begun && s.opActive o

/-- The FENCE of queue `q` that is next done: its predecessor has completed. -/
def State.nextFence (s : State) (q : Nat) : Option OpRun :=
  s.ops.find? fun o => o.q == q && o.opc == 3 && !o.begun && s.prevDone o

theorem exec_operatorFence_none {q : Nat} {s : State} (h : s.nextFence q = none) :
    exec (.operatorFence q) s = .next s := by
  unfold State.nextFence at h
  show Host.Outcome.next _ = _
  simp only [h]

theorem exec_operatorFence_some {q : Nat} {s : State} {o : OpRun} (h : s.nextFence q = some o) :
    exec (.operatorFence q) s = .next (s.setOp { o with begun := true }) := by
  unfold State.nextFence at h
  show Host.Outcome.next _ = _
  simp only [h]

theorem exec_operatorCompletion_none {q : Nat} {s : State} (h : s.endingOp q = none) :
    exec (.operatorCompletion q) s = .next s := by
  unfold State.endingOp at h
  refine event_ok (u := ()) ?_
  simp only [run_get_bind, h]
  rfl

/-- Operator `o` leaves the bank, with its message where its record asks for one. -/
def State.endOp (s : State) (o : OpRun) : State := { s with
  ops := s.ops.filter (·.id != o.id)
  pcie := if bit (o.words.getD 0 0) 9 then s.pcie ++ [.msix (fieldOf (o.words.getD 0 0) 16 11)] else s.pcie }

theorem endOp_eq (s : State) (o : OpRun) : s.endOp o = { s with
    ops := s.ops.filter (·.id != o.id)
    pcie := if (o.words.getD 0 0).testBit 9 then s.pcie ++ [.msix (o.words.getD 0 0 / 2 ^ 16 % 2 ^ 11)] else s.pcie } := by
  rw [← bit_eq_testBit]
  rfl

/-- An operator that waits for no task: its completion is written where its record gives an address. -/
theorem exec_operatorCompletion_ready {q : Nat} {s t : State} {o : OpRun} (h : s.endingOp q = some o) (h0 : o.upto = 0)
    (hw : (if o.words.getD 5 0 != 0 then do
        let _ ← agWriteBytes (agHost o.die) o.die o.ctx (o.words.getD 5 0) (wordBytes [o.status, o.words.getD 6 0])
        hostStep 10
        modify (·.endOp o)
      else modify (·.endOp o) : Op Unit) s = .ok () t) :
    exec (.operatorCompletion q) s = .next t := by
  unfold State.endingOp at h
  refine event_ok (u := ()) ?_
  simp only [run_get_bind, h, h0, List.range_zero, List.map_nil]
  refine (run_bind_ok (run_collect_nil _ s)).trans ?_
  simp only [List.all_nil, Bool.not_true, Bool.and_false, Bool.false_eq_true, if_false, List.filter_nil, List.length_nil,
    bne_self_eq_false, Nat.zero_mul, Nat.add_zero]
  exact hw

section
variable {q : Nat} {s : State} {o : OpRun} (h : s.endingOp q = some o) (h0 : o.upto = 0)
include h h0

theorem exec_operatorCompletion_silent (hv : o.words.getD 5 0 = 0) : exec (.operatorCompletion q) s = .next (s.endOp o) := by
  refine exec_operatorCompletion_ready h h0 ?_
  rw [hv]
  rfl

theorem exec_operatorCompletion_writes (hv : o.words.getD 5 0 ≠ 0) {ok : Bool} {s1 : State}
    (hw : agWriteBytes (agHost o.die) o.die o.ctx (o.words.getD 5 0)
      ((bytesOf o.status 8 ++ bytesOf (o.words.getD 6 0) 8).map fun b => (b, false)) s = .ok ok s1) :
    exec (.operatorCompletion q) s = .next (s1.hostStepped.endOp o) := by
  have hb : wordBytes [o.status, o.words.getD 6 0] =
      (bytesOf o.status 8 ++ bytesOf (o.words.getD 6 0) 8).map fun b => (b, false) := by simp [wordBytes]
  refine exec_operatorCompletion_ready h h0 ?_
  rw [if_pos (bne_iff_ne.2 hv), run_bind_ok (hb ▸ hw)]
  rfl
end

/-! The host's accesses (R218, R284, R289). -/

/-- The access that an event of the second window stands for: the queued one, or a new one with HWBASE and HWCTX as they are. -/
def State.hostAcc (s : State) (off n : Nat) (wr : Option (List Byte)) : HostAcc :=
  (s.hostQ.find? fun x => x.off == off && x.n == n && x.wr == wr).getD
    ⟨off, n, wr, addrAdd (2 ^ 63 + (s.die 0).hwbase.toNat) off, (s.die 0).hwctx.toNat⟩

/-- Another access to a common byte stands before `a` in the queue. -/
def State.behindHost (s : State) (a : HostAcc) : Prop :=
  ∃ x, x ∈ s.hostQ.takeWhile (· != a) ∧ x.va < a.va + a.n ∧ a.va < x.va + x.n

theorem behindHost_iff (s : State) (a : HostAcc) :
    (s.hostQ.takeWhile (· != a)).any (·.meets a) = true ↔ s.behindHost a := by
  simp only [List.any_eq_true, HostAcc.meets, Bool.and_eq_true, decide_eq_true_eq, State.behindHost]

section
variable {off n : Nat} {wr : Option (List Byte)} {s : State}

theorem exec_bar2_bootFailed (hf : s.bootFailed = true) : exec (.hostBar2Access ⟨2, off, n⟩ wr) s = .next s := by
  refine event_ok (u := ()) ?_
  simp only [run_get_bind, hf, if_true]
  rfl

variable (hf : s.bootFailed = false) {m : Bool} {s1 : State}
  (hm : underMigration (s.hostAcc off n wr).ctx (s.hostAcc off n wr).va (s.hostAcc off n wr).n s = .ok m s1)
include hf hm

/-- An access that meets a migration, or one that is queued, is queued once. -/
theorem exec_bar2_queued (hq : m = true ∨ s.behindHost (s.hostAcc off n wr)) :
    exec (.hostBar2Access ⟨2, off, n⟩ wr) s = .next (
      if s.hostAcc off n wr ∈ s.hostQ then s1 else { s1 with hostQ := s1.hostQ ++ [s.hostAcc off n wr] }) := by
  rw [← behindHost_iff, ← Bool.or_eq_true] at hq
  refine event_ok (u := ()) ?_
  simp only [run_get_bind, hf, Bool.false_eq_true, if_false]
  refine (run_get_bind _ s).trans ((run_bind_ok hm).trans ?_)
  refine (congrFun (if_pos hq) s1).trans ?_
  by_cases hi : s.hostAcc off n wr ∈ s.hostQ
  · rw [if_pos hi]
    exact congrFun (if_pos (List.contains_iff_mem.2 hi)) s1
  · rw [if_neg hi]
    exact congrFun (if_neg (mt List.contains_iff_mem.1 hi)) s1

/-- Any other access is served. -/
theorem exec_bar2_served (hq : m = false) (hb : ¬ s.behindHost (s.hostAcc off n wr)) {t : State}
    (ht : serveHost (s.hostAcc off n wr) { s1 with hostQ := s1.hostQ.erase (s.hostAcc off n wr) } = .ok () t) :
    exec (.hostBar2Access ⟨2, off, n⟩ wr) s = .next t := by
  have hq' : ¬ (m || (s.hostQ.takeWhile (· != s.hostAcc off n wr)).any (·.meets (s.hostAcc off n wr))) = true := by
    rw [Bool.or_eq_true, behindHost_iff, hq]
    exact not_or.2 ⟨Bool.false_ne_true, hb⟩
  refine event_ok (u := ()) ?_
  simp only [run_get_bind, hf, Bool.false_eq_true, if_false]
  refine (run_get_bind _ s).trans ((run_bind_ok hm).trans ?_)
  exact (congrFun (if_neg hq') s1).trans ht

end

/-- A write ends in nothing, or in Completer Abort. -/
theorem serveHost_write {a : HostAcc} {bs : List Byte} {ok : Bool} {s s1 : State} (ha : a.wr = some bs)
    (hw : agWriteBytes (agHost 0) 0 a.ctx a.va (bs.map fun b => (b, false)) s = .ok ok s1) :
    serveHost a s = .ok () (if ok then s1 else { s1 with pcie := s1.pcie ++ [.completerAbort] }) := by
  unfold serveHost
  rw [ha]
  refine (run_bind_ok hw).trans ?_
  cases ok <;> rfl

/-- A read gives its data, or ends in Completer Abort. -/
theorem serveHost_read {a : HostAcc} {r : Option (List RByte)} {s s1 : State} (ha : a.wr = none)
    (hr : agBytes (agHost 0) 0 a.ctx a.va a.n s = .ok r s1) :
    serveHost a s = .ok () { s1 with pcie := s1.pcie ++ [match r with
      | some l => .readData (l.map (·.1))
      | none => .completerAbort] } := by
  unfold serveHost
  rw [ha]
  refine (run_bind_ok hr).trans ?_
  cases r <;> rfl

/-- A read of a word of the control space. -/
theorem exec_bar0_read (n : Nat) {off : Nat} {s : State} (h : s.served (off % 2 ^ 28) = true) :
    exec (.hostBar2Access ⟨0, off, n⟩ none) s =
      .next { s with pcie := s.pcie ++ [.readData (bytesOf (s.ctlRead (off / 2 ^ 28) (off % 2 ^ 28)).1 8)] } :=
  event_ok (u := ()) (congrFun (if_pos h) s)

/-- After a failed boot most of the control space gives no data. -/
theorem exec_bar0_unserved (n : Nat) {off : Nat} {s : State} (h : s.served (off % 2 ^ 28) = false) :
    exec (.hostBar2Access ⟨0, off, n⟩ none) s = .next s :=
  event_ok (u := ()) (congrFun (if_neg (Bool.eq_false_iff.1 h)) s)

theorem exec_bar4_bootFailed {off n : Nat} {s : State} (hf : s.bootFailed = true) :
    exec (.hostBar2Access ⟨4, off, n⟩ none) s = .next s := by
  refine event_ok (u := ()) ?_
  simp only [run_get_bind, hf, if_true]
  rfl

/-- A read of a word of a queue's descriptor. -/
theorem exec_bar4_read {off n : Nat} {s : State} (hf : s.bootFailed = false)
    (h : paOk (s.queueAt (off / 32) + off % 32) = true) (h' : paOk (s.queueAt (off / 32) + off % 32 + 7) = true) :
    exec (.hostBar2Access ⟨4, off, n⟩ none) s =
      .next { s with pcie := s.pcie ++ [.readData (bytesOf (s.rd (s.queueAt (off / 32) + off % 32) 8) 8)] } := by
  refine event_ok (u := ()) ?_
  simp only [run_get_bind, hf, Bool.false_eq_true, if_false]
  exact run_bind_ok (hwRd_ok h h' s)

/-! Attestation (R293). -/

theorem exec_attestationReport_idle {d : Nat} {s : State} (h : (s.die d).attreq = none) :
    exec (.attestationReport d) s = .next s := by
  refine event_ok (u := ()) ?_
  simp only [run_get_bind, h]
  rfl

/-- The signature that the free values from the draw counter on give. -/
def State.freeBytes (s : State) (n : Nat) : List Byte := (List.range n).map fun i => BitVec.ofNat 8 (Config.free (s.draws + i))

theorem drawBytes_run (n : Nat) (s : State) : drawBytes n s = .ok (s.freeBytes n) { s with draws := s.draws + n } := rfl

theorem length_freeBytes (s : State) (n : Nat) : (s.freeBytes n).length = n := by
  rw [State.freeBytes, List.length_map, List.length_range]

theorem length_attReport (d : Die) (boot : Nat) (sig : List Byte) :
    (attReport d boot sig).length = 256 + sig.length := by
  simp only [attReport, List.length_append, length_bytesOf, List.length_map, List.length_range, List.length_flatten,
    List.map_map, Function.comp_def, List.map_const', List.sum_replicate, smul_eq_mul]

section
variable {d : Nat} {va : DWord} {ok : Bool} {s s1 : State} (h : (s.die d).attreq = some va)
  (hw : agWriteBytes (agHost d) d (s.die 0).hwctx.toNat va.toNat
    ((attReport (s.die d) (s.ctlRead d 0x9000A00).1 (s.freeBytes 29792)).map fun b => (b, false))
    { s with draws := s.draws + 29792 } = .ok ok s1)
include h hw

theorem exec_attestationReport : exec (.attestationReport d) s =
    .next (if ok then s1.modDie d fun x => { x with attreq := none, attdone := true } else s1) := by
  refine event_ok (u := ()) ?_
  simp only [run_get_bind, h]
  refine (run_bind_ok (drawBytes_run 29792 s)).trans ((run_bind_ok hw).trans ?_)
  cases ok <;> rfl

/-- A report that has been written sets ATTDONE. -/
theorem attestationReport_written (hok : ok = true) : Completes (.attestationReport d) s
    (s1.onlyDie d { s1.die d with attreq := none, attdone := true }) :=
  ⟨_, (exec_attestationReport h hw).trans (by rw [if_pos hok]), modDie_onlyDie s1 d _⟩

/-- A report that cannot be written leaves the request. -/
theorem attestationReport_unwritten (hok : ok = false) : exec (.attestationReport d) s = .next s1 :=
  (exec_attestationReport h hw).trans (by rw [if_neg (by rw [hok]; decide)])

end

/-! Errors and health (R282, R294, R295). -/

/-- The first four values of a list, as firmware refreshes them. -/
theorem get_storeOf_take {α : Type} [DecidableEq α] (d : α) (l : List α) {j : Nat} (h : j < 4) :
    Store.get d (storeOf d (l.take 4)) j = l.getD j d := by
  rw [storeOf, Store.get_setMany]
  simp only [Nat.zero_le, true_and, Nat.zero_add, Nat.sub_zero, List.length_take, Store.get]
  split
  · simp [List.getD_eq_getElem?_getD, h]
  · rw [List.getD_eq_default _ _ (by omega)]

/-- One more granule of a set of poisoned ones. -/
theorem get_set_true (m : Store Bool) (g j : Nat) :
    Store.get false (Store.set false m g true) j = (j == g || Store.get false m j) := by
  rw [Store.get_set]
  by_cases h : j = g <;> simp [h]

/-- A die that has counted an uncorrectable error. -/
def Die.countUe (x : Die) : Die := { x with uecnt := satInc x.uecnt }

/-- An uncorrectable error in memory poisons its granule and is counted. -/
theorem uncorrectableError_memory (d : Nat) {g : Nat} (h : paOk (8 * g) = true) (s : State) :
    Completes (.uncorrectableError d (.memory g)) s fun t =>
      { s with poison := t.poison }.onlyDie d (s.die d).countUe t ∧
      ∀ j, Store.get false t.poison j = (j == g || Store.get false s.poison j) :=
  have hs : s.strike (.memory g) = { s with poison := Store.set false s.poison g true } := if_pos h
  ⟨_, congrArg (fun u : State => Host.Outcome.next (u.modDie d Die.countUe)) hs,
    modDie_onlyDie { s with poison := Store.set false s.poison g true } d Die.countUe, get_set_true s.poison g⟩

/-- An uncorrectable error in a local store poisons its granule there and is counted. -/
theorem uncorrectableError_localStore (d c g : Nat) (s : State) :
    Completes (.uncorrectableError d (.localStore c g)) s fun t => t = { s with cores := t.cores, dies := t.dies } ∧
      (∀ n, n ≠ c → t.core n = s.core n) ∧ t.core c = { s.core c with storePoison := (t.core c).storePoison } ∧
      (∀ j, Store.get false (t.core c).storePoison j = (j == g || Store.get false (s.core c).storePoison j)) ∧
      (∀ m, m ≠ d → t.die m = s.die m) ∧ t.die d = (s.die d).countUe := by
  refine ⟨(s.modCore c fun k => { k with storePoison := Store.set false k.storePoison g true }).modDie d Die.countUe, rfl, rfl,
    fun n hn => ?_, ?_, fun j => ?_, fun m hm => ?_, ?_⟩
  · rw [core_modDie, core_modCore, if_neg hn]
  · rw [core_modDie, core_modCore, if_pos rfl]
  · rw [core_modDie, core_modCore, if_pos rfl]
    exact get_set_true ..
  · rw [die_modDie, if_neg hm, die_modCore]
  · rw [die_modDie, if_pos rfl, die_modCore]

/-- The health registers hold what firmware refreshed last. -/
theorem healthRefresh_holds (d : Nat) (sage : List (BitVec 16)) (hbm : List DWord) (eol : BitVec 32) (s : State) :
    Completes (.healthRefresh d sage hbm eol) s fun t =>
      s.onlyDie d { s.die d with sage := (t.die d).sage, hbm := (t.die d).hbm, eolh := eol } t ∧
      ∀ j, j < 4 → Store.get 0 (t.die d).sage j = sage.getD j 0 ∧ Store.get 0 (t.die d).hbm j = hbm.getD j 0 := by
  obtain ⟨hs, ho, hd⟩ := modDie_onlyDie s d fun x => { x with
    sage := storeOf 0 (sage.take 4), hbm := storeOf 0 (hbm.take 4), eolh := eol }
  refine ⟨_, rfl, ⟨hs, ho, hd.trans ?_⟩, fun j hj => ?_⟩
  · rw [die_modDie, if_pos rfl]
  · rw [die_modDie, if_pos rfl]
    exact ⟨get_storeOf_take 0 sage hj, get_storeOf_take 0 hbm hj⟩

/-- Settles O60: each clause is the rule of its event. -/
theorem hostEvents : Obligations.HostEvents := by
  unfold Obligations.HostEvents
  refine ⟨?boot, ?sector, ?report, ?window, ?reads, ?descriptor, ?round, ?poll, ?operators, ?errors⟩
  case boot =>
    intro fail svn ports s
    refine ⟨fun h => ⟨_, exec_boot_begin h, ?_⟩, fun h hk => ⟨_, exec_boot_fail h hk, ?_⟩,
      fun h hk => ⟨_, exec_boot_pass h hk, ?_⟩⟩
    · exact ⟨beginBoot_keeps s fail svn ports, die_beginBoot s fail svn ports, core_beginBoot s fail svn ports⟩
    · exact ⟨failBoot_eq s, die_failBoot s, core_failBoot s⟩
    · exact ⟨passLoad_eq s fail svn, die_passLoad s fail svn, core_passLoad s fail svn⟩
  case sector =>
    intro d sec s
    refine ⟨exec_sectorStart_waits, fun hf hl => ?_, fun hf hd => ?_⟩
    · exact ⟨_, exec_sectorStart_last hf hl, bothDies_eq s _, die_bothDies s _⟩
    · exact ⟨_, exec_sectorStart_due hf hd, nextSector_eq s d sec, die_nextSector s d sec, port_nextSector s d sec⟩
  case report =>
    intro d s
    refine ⟨exec_attestationReport_idle, fun va h => ⟨s.freeBytes 29792, length_freeBytes .., ?_, fun ok s1 hw => ?_⟩⟩
    · exact (length_attReport ..).trans (by rw [length_freeBytes])
    · exact ⟨attestationReport_written h hw, attestationReport_unwritten h hw⟩
  case window =>
    intro off n wr s
    refine ⟨exec_bar2_bootFailed, fun hf m s1 hm => ⟨exec_bar2_queued hf hm, fun hm' hb => ⟨?_, ?_⟩⟩⟩
    · exact fun bs ok s2 ha hw => exec_bar2_served hf hm hm' hb (serveHost_write ha hw)
    · intro r s2 ha hr
      have he := exec_bar2_served hf hm hm' hb (serveHost_read ha hr)
      constructor
      · rintro rfl; exact he
      · rintro l rfl; exact he
  case reads =>
    exact fun off n s => ⟨exec_bar0_unserved n, exec_bar0_read n, exec_bar4_bootFailed, exec_bar4_read⟩
  case descriptor =>
    intro q v s
    refine ⟨exec_queueDescriptorWrite_readOnly s q v, ?_⟩
    rintro ⟨hf, hs⟩
    exact ⟨queueDescriptorWrite_base hf hs v, queueDescriptorWrite_wridx hf hs v, queueDescriptorWrite_control hf hs v⟩
  case round =>
    intro d q s h
    refine (nextQueue_eq_some_iff h d q).trans ?_
    simp only [State.queueOn, and_assoc]
  case poll =>
    intro d q s
    refine ⟨exec_poll_early, exec_poll_disabled, exec_poll_stops, fun hd hs h0 hl hn => ?_, ?_⟩
    · refine ⟨_, exec_poll_empty hd hs h0 hl hn, rfl, ?_, fun m hm => ?_⟩
      · exact (qpoll_setQpoll ..).trans (if_pos rfl)
      · exact (qpoll_setQpoll ..).trans (if_neg hm)
    · intro hd hs h0 hl hne hle hch ha s2 l s1 hrd hp w hw hq hq1
      have ht := exec_poll_takes hd hs h0 hl hne hle hch ha hrd hp hw hq
      rw [hq1] at ht
      exact ht
  case operators =>
    intro q s
    refine ⟨operate_none, operate_none, operate_none, fun o ho c s1 hc => ⟨exec_launch_empty ho hc,
        exec_launch_badContext ho hc, exec_launch_beyond ho hc, fun h0 hp hv hb => ⟨?_, ?_⟩⟩,
      fun o ho r s1 hr => exec_stage ho hr, fun o ho ok s1 hw => exec_write ho hw, exec_operatorFence_none,
      fun o h => exec_operatorFence_some h, exec_operatorCompletion_none, fun o h h0 => ⟨fun hv => ?_, fun hv ok s1 hw => ?_⟩⟩
    · exact fun h s2 hf => exec_launch_postmaster ho hc h0 hp hv hb hf
    · exact fun s2 s3 st n s4 hf hn hi => exec_launch_inserts ho hc h0 hp hv hb hf hn hi
    · rw [exec_operatorCompletion_silent h h0 hv, endOp_eq]
    · rw [exec_operatorCompletion_writes h h0 hv hw, endOp_eq]; rfl
  case errors =>
    intro d s
    exact ⟨⟨_, rfl, modDie_onlyDie s d _⟩, fun g hg => uncorrectableError_memory d hg s,
      fun c g => uncorrectableError_localStore d c g s, fun sage hbm eol => healthRefresh_holds d sage hbm eol s⟩

end Sys2Proof.Machine

namespace Sys2Proof.Machine

/-! What reset leaves (R21, R40, R273, R292). -/

/-- Settles O29: no core and no die has a record at reset, so each reads as the default of its type. -/
theorem resetState : Obligations.ResetState := by
  refine ⟨by decide, fun c q => ?_, fun c => ?_, fun d => ?_⟩
  · have hq : (State.reset.core c).seq q = {} := by cases q <;> rfl
    rw [hq]
    exact ⟨rfl, rfl, rfl, rfl, rfl, rfl, rfl⟩
  · exact ⟨rfl, rfl, rfl, rfl, rfl, rfl, rfl, fun n => rfl, fun q n => rfl⟩
  · exact ⟨rfl, rfl, rfl, rfl, rfl, rfl, rfl, rfl, rfl⟩

/-! The order of the issue checks (R22, R94, R103). -/

/-- The decode traps of an instruction after its class: privilege, format code, scope (R103 steps 4 to 6). -/
def preOf (i : Instr) : Op Unit :=
  match i with
  | .eret .. | .xlinv .. => prePriv i
  | .sysr _ _ num _ | .sysw _ _ num _ => sysPre i num
  | .vqnt _ f .. | .vdqnt _ f .. => preFmt f
  | .accrd _ _ _ _ f _ | .accwr _ _ f _ | .accq _ _ _ _ _ f _ => preFo f
  | .aadd _ a | .amin _ a | .aminUnsigned _ a | .amax _ a | .amaxUnsigned _ a | .aand _ a | .aor _ a | .axchg _ a
  | .acas _ a | .afadd _ _ _ a => preScope a.scope
  | .cpy _ e | .cpyr _ e | .stash _ e | .stfetch _ e | .stdrop _ e | .chsend _ e | .chrecv _ e | .chrel _ e
  | .coll _ e | .prst _ e => if e.acq || e.rel then preScope e.scope else noPre
  | .phase _ sc .. | .bar _ sc .. => preScope sc
  | _ => noPre

/-- `o` is what `issue` gives for `i`, whatever its sources and its work. -/
def Issued (i : Instr) (c : Ctl) (pre : Op Unit) (s : State) (o : Out) : Prop :=
  ∃ srcs body, o = issue i c pre srcs body s

theorem issued_issue (i : Instr) (c : Ctl) (pre : Op Unit) (srcs : List Nat) (body : Op Post) (s : State) :
    Issued i c pre s (issue i c pre srcs body s) := ⟨srcs, body, rfl⟩

section
variable (i : Instr) (c : Ctl) (s : State)

theorem issued_alu (w : Bool) (rd ra rb : Nat) (f : Nat → Nat → Nat → Nat) :
    Issued i c noPre s (alu i c w rd ra rb f s) := issued_issue ..
theorem issued_alu1 (w : Bool) (rd ra : Nat) (f : Nat → Nat → Nat) :
    Issued i c noPre s (alu1 i c w rd ra f s) := issued_issue ..
theorem issued_condBranch (cr : Nat) (off : BitVec 32) (z : Bool) :
    Issued i c noPre s (condBranch i c cr off z s) := issued_issue ..
theorem issued_loadInstr (m : MemF) (sx : Bool) : Issued i c noPre s (loadInstr i c m sx s) := issued_issue ..
theorem issued_atomInstr (a : AtomF) (cas : Bool) :
    Issued i c (preScope a.scope) s (atomInstr i c a cas s) := issued_issue ..
theorem issued_transInstr (fn : TFun) (f : VF2) : Issued i c noPre s (transInstr i c fn f s) := issued_issue ..
theorem issued_vecLoad (pitched : Bool) (pq : Option Nat) (f : VMemF) :
    Issued i c noPre s (vecLoad i c pitched pq f s) := issued_issue ..
theorem issued_vecStore (pitched : Bool) (f : VMemF) : Issued i c noPre s (vecStore i c pitched f s) := issued_issue ..
theorem issued_engineInstr (kind : CmdKind) (op : Nat) (e : EngF) (v : Cmd → Op (Option Nat)) :
    Issued i c (if e.acq || e.rel then preScope e.scope else noPre) s (engineInstr i c kind op e v s) := issued_issue ..
theorem issued_penn (sub rd ra : Nat) (rb : Option Nat) : Issued i c noPre s (penn i c sub rd ra rb s) := issued_issue ..

end

/-- Every instruction word is run by `issue`, with its own wait and signal bytes and decode traps. -/
theorem exec_issued {i : Instr} (h : i.isEvent = false) (s : State) : Issued i (ctlOf i) (preOf i) s (exec i s) := by
  cases i
  case add | sub | and | or | xor | shl | shr | sra | mul | mulh | div | rem | min | max =>
    delta exec; exact issued_alu ..
  case clz | popc => delta exec; exact issued_alu1 ..
  case bz | bnz => delta exec; exact issued_condBranch ..
  case ld | ldZeroExtending => delta exec; exact issued_loadInstr ..
  case aadd | amin | aminUnsigned | amax | amaxUnsigned | aand | aor | axchg | acas | afadd =>
    delta exec; exact issued_atomInstr ..
  case vexp | vlog | vrcp | vrsq | vtanh | verf => delta exec; exact issued_transInstr ..
  case vld | vldm => delta exec; exact issued_vecLoad ..
  case vst | vstm => delta exec; exact issued_vecStore ..
  case cpy | cpyr | stash | stfetch | stdrop | chsend | chrecv | chrel | coll | prst =>
    delta exec; exact issued_engineInstr ..
  case pennLoad | pennStart | pennStop | pennUnload | pennStat => delta exec; exact issued_penn ..
  all_goals first
    | exact absurd h Bool.noConfusion
    | delta exec; exact issued_issue ..

/-- A check that answers the trap `x`, if any, and changes nothing. -/
def Checks (pre : Op Unit) (x : Option (Nat × Nat)) (s : State) : Prop :=
  pre s = match x with
    | none => .ok () s
    | some (k, v) => .error (.trap k v) s

theorem checks_need {b : Bool} {p : Prop} [Decidable p] (k v : Nat) (s : State) (h : b = true ↔ p) :
    Checks (need b k v) (if p then none else some (k, v)) s := by
  unfold Checks
  rw [run_need]
  by_cases hp : p
  · rw [if_pos hp, if_pos (h.2 hp)]
  · rw [if_neg hp, if_neg (mt h.1 hp)]

theorem checks_noPre (s : State) : Checks noPre none s := rfl

theorem checks_priv (i : Instr) (s : State) :
    Checks (prePriv i) (if s.me.onPriv s.curSeq = true then none else some (cPRIV, encode i)) s :=
  checks_need (b := s.me.onPriv s.curSeq) cPRIV (encode i) s Iff.rfl

theorem checks_fmt (f : Nat) (s : State) : Checks (preFmt f) (if f < 24 then none else some (cFMT, f)) s :=
  checks_need cFMT f s decide_eq_true_iff

theorem checks_scope (sc : Nat) (s : State) : Checks (preScope sc) (if sc < 12 then none else some (cSCOPE, sc)) s :=
  checks_need cSCOPE sc s decide_eq_true_iff

theorem checks_sysPre (i : Instr) (num : Nat) (s : State) : Checks (sysPre i num)
    (if num ∈ [0x030, 0x031, 0x032, 0x033, 0x040] then
      if s.me.onPriv s.curSeq = true then none else some (cPRIV, encode i) else none) s := by
  have hn : sysPriv num = true ↔ num ∈ [0x030, 0x031, 0x032, 0x033, 0x040] := by
    simp only [sysPriv, Bool.or_eq_true, Bool.and_eq_true, decide_eq_true_eq, beq_iff_eq, List.mem_cons, List.not_mem_nil,
      or_false]
    omega
  unfold sysPre
  by_cases h : num ∈ [0x030, 0x031, 0x032, 0x033, 0x040]
  · rw [if_pos h, if_pos (hn.2 h)]; exact checks_priv i s
  · rw [if_neg h, if_neg (mt hn.1 h)]; exact checks_noPre s

theorem checks_engine (e : EngF) (s : State) : Checks (if e.acq || e.rel then preScope e.scope else noPre)
    (if e.acq || e.rel then if e.scope < 12 then none else some (cSCOPE, e.scope) else none) s := by
  split
  · exact checks_scope e.scope s
  · exact checks_noPre s

/-- The decode traps of an instruction are those of R103. -/
theorem preOf_checks (i : Instr) (s : State) : Checks (preOf i) (decodeTrap i s) s := by
  cases i
  case eret | xlinv => exact checks_priv _ s
  case sysr | sysw => exact checks_sysPre _ _ s
  case vqnt | vdqnt => exact checks_fmt _ s
  case accrd c t rm sat f v => cases f <;> first | exact checks_noPre s | exact checks_fmt _ s
  case accwr c t f v => cases f <;> first | exact checks_noPre s | exact checks_fmt _ s
  case accq c a b t rm f k => cases f <;> first | exact checks_noPre s | exact checks_fmt _ s
  case aadd | amin | aminUnsigned | amax | amaxUnsigned | aand | aor | axchg | acas | afadd => exact checks_scope _ s
  case cpy | cpyr | stash | stfetch | stdrop | chsend | chrecv | chrel | coll | prst => exact checks_engine _ s
  case phase | bar => exact checks_scope _ s
  all_goals exact checks_noPre s

section
variable {i : Instr} {c : Ctl} {pre : Op Unit} {srcs : List Nat} {body : Op Post} {s : State}

theorem issue_wrongClass (h : accepts s.curSeq (encode i) = false) :
    issue i c pre srcs body s = trapHere cSEQCLASS (encode i) s := by
  simp only [issue, h, Bool.not_false, if_true]

variable (h : accepts s.curSeq (encode i) = true)
include h

theorem issue_decodeTrap {k v : Nat} (hp : Checks pre (some (k, v)) s) : issue i c pre srcs body s = trapHere k v s := by
  rw [Checks] at hp
  simp only [issue, h, hp, Bool.not_true, Bool.false_eq_true, if_false]

theorem issue_waits (hp : Checks pre none s) (hw : waitMet c s = false) :
    issue i c pre srcs body s = .next (s.waitFor i true) := by
  rw [Checks] at hp
  simp only [issue, h, hp, hw, Bool.not_true, Bool.not_false, Bool.false_eq_true, if_false, if_true]

end

/-- A wait byte that finds too few tokens, or too many commands outstanding, is not satisfied (R22). -/
theorem waitMet_false {c : Ctl} {s : State}
    (h : (∃ n, waitQueue s.curSeq c = some n ∧ s.me.tok n < c.wcnt) ∨
      (4 ≤ c.wsel ∧ c.wcnt < s.ecnt s.cur s.curSeq (c.wsel - 4))) : waitMet c s = false := by
  unfold waitMet
  rcases h with ⟨n, hn, ht⟩ | ⟨h4, he⟩
  · unfold waitQueue at hn
    split at hn
    · next hw =>
      cases hn
      rw [if_neg (by omega), if_pos (by omega), decide_eq_false_iff_not]
      omega
    · cases hn
  · rw [if_neg (by omega), if_neg (by omega), decide_eq_false_iff_not]
    omega

/-- Settles O31: every instruction word goes through `issue`, and its decode traps are those of R103. -/
theorem issueChecks : Obligations.IssueChecks := by
  intro i s hi
  obtain ⟨srcs, body, he⟩ := exec_issued hi s
  have hp := preOf_checks i s
  dsimp only
  rw [he]
  refine ⟨issue_wrongClass, fun h => ⟨fun k v hk => ?_, fun hn hw => ?_⟩⟩
  · exact issue_decodeTrap h (hk ▸ hp)
  · exact issue_waits h (hn ▸ hp) (waitMet_false hw)

end Sys2Proof.Machine

namespace Sys2Proof.Machine

/-! Tokens (R21 to R24). -/

@[simp] theorem tok_setTok (k : Core) (n v m : Nat) : (k.setTok n v).tok m = if m = n then v else k.tok m := by
  simp [Core.tok, Core.setTok]

theorem tok_pushTok (k : Core) (n v m : Nat) : (k.pushTok n v).tok m = if m = n then k.tok n + v else k.tok m := by
  unfold Core.pushTok
  dsimp only
  split <;> exact tok_setTok ..

/-- Tokens pushed towards the C-seq set the event flag (R339). -/
theorem event_pushTok (k : Core) (n v : Nat) :
    (k.pushTok n v).event = (k.event || (v != 0 && (n == 2 || n == 5 || n == 8))) := by
  unfold Core.pushTok
  dsimp only
  split
  · next h => simp [h]
  · next h => simp [Bool.eq_false_of_not_eq_true h, Core.setTok]

theorem seq_pushTok (k : Core) (n v : Nat) (q : SeqId) : (k.pushTok n v).seq q = k.seq q := by
  rw [pushTok_eq]; cases q <;> rfl

/-- With no access outstanding every signal put back is pushed. -/
theorem flushSigs_of_settled {k : Core} {q : SeqId} (hx : k.xfersOf q = []) (hl : (k.seq q).late = []) :
    k.flushSigs q = (k.seq q).sigq.foldl (fun c p => c.pushTok p.1 p.2.1) (k.modSeq q fun x => { x with sigq := [] }) := by
  have hd (n : Nat) : k.settledBelow q n = true := by simp [Core.settledBelow, hx, hl]
  simp [Core.flushSigs, hd]

/-- The tokens that the wait byte takes from queue `n`, and those that the signal byte gives it. -/
def tokensTaken (c : Ctl) (q : SeqId) (n : Nat) : Nat := if waitQueue q c = some n then c.wcnt else 0
def tokensGiven (c : Ctl) (q : SeqId) (n : Nat) : Nat := if signalQueue q c = some n then c.scnt else 0

theorem tok_popTokens (c : Ctl) (s : State) (n : Nat) :
    (popTokens c s).me.tok n = s.me.tok n - tokensTaken c s.curSeq n := by
  unfold popTokens tokensTaken waitQueue
  by_cases h : 1 ≤ c.wsel ∧ c.wsel ≤ 3
  · rw [if_pos (by simpa using h), if_pos h, me_modMe, tok_setTok]
    simp only [Option.some.injEq, @eq_comm _ n]
    split
    · next e => rw [e]
    · rfl
  · rw [if_neg (by simpa using h), if_neg h]
    rfl

/-- No access of the sequencer that runs is outstanding and no signal put back. -/
structure State.clear (s : State) : Prop where
  xfers : s.me.xfersOf s.curSeq = []
  late : s.mySeq.late = []
  sigq : s.mySeq.sigq = []

theorem pushSignal_none {c : Ctl} (h : c.ssel = 0) (s : State) : pushSignal c s = s := if_pos h

/-- The signal of an instruction without earlier accesses is pushed at once. -/
theorem pushSignal_clear {c : Ctl} {s : State} (hs : s.clear) (h : c.ssel ≠ 0) :
    (pushSignal c s).me =
      (s.me.modSeq s.curSeq fun x => { x with sigq := [] }).pushTok (queueNo s.curSeq c.ssel) c.scnt := by
  obtain ⟨hx, hl, hq⟩ := hs
  have hq' : (s.me.seq s.curSeq).sigq = [] := hq
  rw [pushSignal, if_neg h, me_modMe, flushSigs_of_settled]
  · simp only [seq_modSeq, if_true, hq', List.nil_append, List.foldl_cons, List.foldl_nil]
    congr 1
    cases s.curSeq <;> rfl
  · simpa only [Core.xfersOf, modSeq_core_xfers] using hx
  · rw [seq_modSeq, if_pos rfl]
    exact hl

section
variable {c : Ctl} {s : State} (hs : s.clear) (hc : c.ssel ≤ 3)
include hs

theorem sigq_pushSignal : (pushSignal c s).mySeq.sigq = [] := by
  unfold State.mySeq
  rw [(pushSignal_coreOnly c s).curSeq]
  by_cases h : c.ssel = 0
  · rw [pushSignal_none h]; exact hs.sigq
  · rw [pushSignal_clear hs h, seq_pushTok, seq_modSeq, if_pos rfl]

include hc

theorem tok_pushSignal (n : Nat) : (pushSignal c s).me.tok n = s.me.tok n + tokensGiven c s.curSeq n := by
  unfold tokensGiven signalQueue
  by_cases h : c.ssel = 0
  · rw [pushSignal_none h, if_neg (show ¬ (1 ≤ c.ssel ∧ c.ssel ≤ 3) by omega)]
    rfl
  · have hk (m : Nat) : (s.me.modSeq s.curSeq fun x => { x with sigq := [] }).tok m = s.me.tok m := by
      simp only [Core.tok, modSeq_core_tokq]
    rw [pushSignal_clear hs h, tok_pushTok, if_pos (show 1 ≤ c.ssel ∧ c.ssel ≤ 3 by omega), hk, hk]
    simp only [Option.some.injEq, @eq_comm _ n]
    split
    · next e => rw [e]
    · rfl

theorem event_pushSignal : (pushSignal c s).me.event = (s.me.event || (c.scnt != 0 &&
    (signalQueue s.curSeq c == some 2 || signalQueue s.curSeq c == some 5 || signalQueue s.curSeq c == some 8))) := by
  unfold signalQueue
  by_cases h : c.ssel = 0
  · rw [pushSignal_none h, if_neg (show ¬ (1 ≤ c.ssel ∧ c.ssel ≤ 3) by omega)]
    simp
  · rw [pushSignal_clear hs h, event_pushTok, if_pos (show 1 ≤ c.ssel ∧ c.ssel ≤ 3 by omega), modSeq_core_event]
    rfl

end

/-- What comes before the signal in a retirement. -/
theorem moved_me (c : Ctl) (p : Post) (s : State) :
    (moveOn p (popTokens c s)).me = (popTokens c s).me.modSeq s.curSeq (seqAfter p) := by
  rw [moveOn_me, (popTokens_coreOnly c s).curSeq]

theorem moved_curSeq (c : Ctl) (p : Post) (s : State) : (moveOn p (popTokens c s)).curSeq = s.curSeq := by
  rw [(moveOn_coreOnly p _).curSeq, (popTokens_coreOnly c s).curSeq]

theorem State.clear.moved {s : State} (hs : s.clear) (c : Ctl) (p : Post) : (moveOn p (popTokens c s)).clear := by
  have hm : (moveOn p (popTokens c s)).mySeq = seqAfter p s.mySeq := by
    unfold State.mySeq
    rw [moved_curSeq, moved_me, seq_modSeq, if_pos rfl, popTokens_me]
    cases s.curSeq <;> rfl
  have hx : (moveOn p (popTokens c s)).me.xfers = s.me.xfers := by rw [moved_me, modSeq_core_xfers, popTokens_me]
  refine ⟨?_, ?_, ?_⟩
  · rw [Core.xfersOf, hx, moved_curSeq]; exact hs.xfers
  · rw [hm]; exact (show (seqAfter p s.mySeq).late = s.mySeq.late by cases p <;> rfl).trans hs.late
  · rw [hm]; exact (show (seqAfter p s.mySeq).sigq = s.mySeq.sigq by cases p <;> rfl).trans hs.sigq

/-- The tokens after a retirement that no earlier access holds back: the wait byte's popped, the signal byte's pushed
(R22, R23). -/
theorem retire_clear {c : Ctl} {s : State} (hs : s.clear) (hc : c.ssel ≤ 3) (p : Post) :
    (∀ n, (retire c p s).me.tok n = s.me.tok n - tokensTaken c s.curSeq n + tokensGiven c s.curSeq n) ∧
    (retire c p s).mySeq.sigq = [] ∧
    (retire c p s).me.event = (s.me.event || (c.scnt != 0 && (signalQueue s.curSeq c == some 2 ||
      signalQueue s.curSeq c == some 5 || signalQueue s.curSeq c == some 8))) := by
  have hm := hs.moved c p
  refine ⟨fun n => ?_, sigq_pushSignal hm, ?_⟩
  · rw [retire, tok_pushSignal hm hc, moved_curSeq, moved_me, ← tok_popTokens, Core.tok, modSeq_core_tokq, Core.tok]
  · rw [retire, event_pushSignal hm hc, moved_curSeq, moved_me, modSeq_core_event, popTokens_me]

/-! What an instruction does that issues and whose work cannot fail. -/

section
variable {i : Instr} {c : Ctl} {srcs : List Nat} {f : State → State} {s : State}
  (ha : accepts s.curSeq (encode i) = true) (hw : waitMet c s = true)
include ha hw

theorem issue_blocked {body : Op Post} (hb : rdBlocked i srcs s = true) :
    issue i c noPre srcs body s = .next s.unwait := by
  simp only [issue, ha, hw, hb, noPre, run_pure, Bool.not_true, Bool.false_eq_true, if_false, if_true]

variable (hb : rdBlocked i srcs s = false)
include hb

theorem issue_simple_poisoned {r : Nat} (hp : poisonedSrc srcs s = some r) :
    issue i c noPre srcs (simple f) s = trapHere cECC (eccRegEva s.curSeq r) s := by
  simp only [issue, ha, hw, hb, hp, noPre, run_pure, simple, Bool.not_true, Bool.false_eq_true, if_false]

theorem issue_simple_noRoom (hp : poisonedSrc srcs s = none) (hr : sigRoom c s = false) :
    issue i c noPre srcs (simple f) s = trapHere cTOKOV (sigByte c) s := by
  simp only [issue, ha, hw, hb, hp, hr, noPre, run_pure, simple, Bool.not_true, Bool.not_false, Bool.false_eq_true, if_false,
    if_true]

end

/-- Room for a signal where none is put back (R24). -/
theorem sigRoom_of_sigq_nil {c : Ctl} {s : State} (h : s.mySeq.sigq = []) :
    sigRoom c s = (c.ssel == 0 || decide (s.me.tok (queueNo s.curSeq c.ssel) + c.scnt ≤ 63)) := by
  have ho (n : Nat) : s.me.owedTok s.curSeq n = 0 := by
    unfold Core.owedTok
    rw [show (s.me.seq s.curSeq).sigq = [] from h]
    rfl
  simp only [sigRoom, ho, Nat.add_zero]

theorem sigRoom_false {c : Ctl} {s : State} {n : Nat} (h : s.mySeq.sigq = []) (hn : signalQueue s.curSeq c = some n)
    (ht : 63 < s.me.tok n + c.scnt) : sigRoom c s = false := by
  unfold signalQueue at hn
  split at hn
  · next hc =>
    cases hn
    rw [sigRoom_of_sigq_nil h, Bool.or_eq_false_iff, beq_eq_false_iff_ne, decide_eq_false_iff_not]
    omega
  · cases hn

theorem sigRoom_true {c : Ctl} {s : State} (h : s.mySeq.sigq = []) (hc : c.ssel ≤ 3)
    (hr : ∀ n, signalQueue s.curSeq c = some n → s.me.tok n + c.scnt ≤ 63) : sigRoom c s = true := by
  rw [sigRoom_of_sigq_nil h, Bool.or_eq_true, beq_iff_eq, decide_eq_true_iff]
  by_cases h0 : c.ssel = 0
  · exact .inl h0
  · exact .inr (hr _ (if_pos (show 1 ≤ c.ssel ∧ c.ssel ≤ 3 by omega)))

/-- A two-operand scalar instruction is `alu` with its operation. -/
theorem exec_alu {i : Instr} {c : Ctl} {w : Bool} {rd ra rb : Nat} (h : binFields i = some (c, w, rd, ra, rb)) (s : State) :
    ∃ f, exec i s = alu i c w rd ra rb f s := by
  cases i <;> cases h <;> delta exec <;> exact ⟨_, rfl⟩

/-- NOP and the two-operand scalar instructions write scalar registers at most. -/
theorem exec_nop_or_bin {i : Instr} {c : Ctl} {srcs : List Nat} (h : i = .nop c ∧ srcs = [] ∨
    ∃ w rd ra rb, binFields i = some (c, w, rd, ra, rb) ∧ srcs = srcRegs w [ra, rb]) (s : State) :
    ∃ f ds, exec i s = issue i c noPre srcs (simple f) s ∧ s.does ds s s.me s.mySeq (f s) := by
  rcases h with ⟨rfl, rfl⟩ | ⟨w, rd, ra, rb, hb, rfl⟩
  · exact ⟨id, [], rfl, does_refl s⟩
  · obtain ⟨f, he⟩ := exec_alu hb s
    exact ⟨fun s => s.setOpnd w rd (f (wid w) (s.opnd w ra) (s.opnd w rb)), _, he, (does_refl s).setOpnd w rd _⟩

/-- Work that writes scalar registers alone leaves no access and no signal behind. -/
theorem State.does.clear {s u : State} {ds : List Nat} (h : s.does ds s s.me s.mySeq u) (hs : s.clear) : u.clear := by
  refine ⟨?_, ?_, ?_⟩
  · rw [Core.xfersOf, h.me, h.ucurSeq]; exact hs.xfers
  · rw [h.seq]; exact hs.late
  · rw [h.seq]; exact hs.sigq

/-- A SLEEP succeeds or waits. -/
theorem sleepBody_cases (ra : Nat) (s : State) :
    (∃ s', sleepBody ra s = .ok .next s') ∨ ∃ n, sleepBody ra s = .error (.wait n) s := by
  by_cases h : (s.me.event || ((s.g ra).toNat != 0 && s.issuedAt + usClocks (s.g ra).toNat ≤ s.clock)) = true
  · exact .inl ⟨s.modMe fun k => { k with event := false }, by simp only [sleepBody, run_get_bind, if_pos h]; rfl⟩
  · exact .inr ⟨false, by simp only [sleepBody, run_get_bind, if_neg h]; rfl⟩

/-- The tokens of a SLEEP are judged as it issues, whether it waits or not (R24, R339). -/
theorem exec_sleep_noRoom {c : Ctl} {ra : Nat} {s : State} (ha : accepts s.curSeq (encode (.sleep c ra)) = true)
    (hw : waitMet c s = true) (hb : rdBlocked (.sleep c ra) [ra] s = false) (hp : poisonedSrc [ra] s = none)
    (hr : sigRoom c s = false) : exec (.sleep c ra) s = trapHere cTOKOV (sigByte c) s := by
  show issue (.sleep c ra) c noPre [ra] (sleepBody ra) s = _
  rcases sleepBody_cases ra s with ⟨s', h⟩ | ⟨n, h⟩
  all_goals
    simp only [issue, ha, hw, hb, hp, hr, h, noPre, run_pure, waitsIssued, Bool.not_true, Bool.not_false, Bool.and_self,
      Bool.false_eq_true, if_false, if_true]

/-- Settles O32: the tokens are those that `retire` moves when no access is outstanding; everything else is `issue`. -/
theorem tokensAndOverflow : Obligations.TokensAndOverflow := by
  refine ⟨fun i c srcs s hi hc ha hw => ?_, fun c ra n s ha hw hb hp hq hn ht => ?_⟩
  · obtain ⟨f, ds, he, hd⟩ := exec_nop_or_bin hi s
    rw [he]
    refine ⟨issue_blocked ha hw, fun hb r hr => issue_simple_poisoned ha hw hb hr, fun hb hp hx hl hq => ⟨?_, fun hr => ?_⟩⟩
    · rintro ⟨n, hn, ht⟩
      exact issue_simple_noRoom ha hw hb hp (sigRoom_false hq hn ht)
    · have hc3 : c.ssel ≤ 3 := by
        simp only [Ctl.ok, Bool.and_eq_true, Bool.or_eq_true, beq_iff_eq, decide_eq_true_eq] at hc
        omega
      obtain ⟨ht, hs, hev⟩ := retire_clear (hd.clear ⟨hx, hl, hq⟩) hc3 .next
      refine completes_simple f he ⟨ha, hw, hb, hp, sigRoom_true hq hc3 hr⟩ ⟨fun n => (ht n).trans ?_, hs, hev.trans ?_⟩
      · rw [hd.ucurSeq, hd.me]; rfl
      · rw [hd.ucurSeq, hd.me]
  · exact exec_sleep_noRoom ha hw hb hp (sigRoom_false hq hn ht)

end Sys2Proof.Machine

namespace Sys2Proof.Machine

/-! Engine commands (R25, R114, R234, R238, R242). -/

section
variable {I : State → Prop}

theorem keeps_ite {α : Type} {p : Prop} [Decidable p] {a b : Op α} (ha : Keeps I a) (hb : Keeps I b) :
    Keeps I (if p then a else b) := by
  split
  · exact ha
  · exact hb

theorem keeps_tdesc (d x t : Nat) : Keeps I (tdesc d x t) := by
  refine keeps_bind (keeps_ctxEnt I d x) fun c => keeps_ite (keeps_pure _) ?_
  refine keeps_ite (keeps_pure _) (keeps_ite (keeps_pure _) ?_)
  refine keeps_bind (keeps_hwRd I _ _) fun _ => keeps_bind (keeps_hwRd I _ _) fun _ => keeps_bind (keeps_hwRd I _ _) fun _ =>
    keeps_bind (keeps_hwRd I _ _) fun _ => keeps_bind (keeps_collect fun _ => keeps_hwRd I _ _) fun _ =>
    keeps_get_bind fun _ _ => ?_
  exact keeps_ite (keeps_pure _) (keeps_ite (keeps_pure _) (keeps_pure _))

theorem keeps_tileRange (k : Cmd) : Keeps I (tileRange k) := by
  refine keeps_bind (keeps_tdesc _ _ _) fun r => ?_
  split
  · exact keeps_pure _
  · exact keeps_pure _
  · exact keeps_pure _
  · dsimp only
    exact keeps_ite (keeps_pure _) (keeps_pure _)

theorem keeps_tilesOut (k : Cmd) (d : TDesc) (v : Nat) (xs : List Nat) : Keeps I (tilesOut k d v xs) :=
  keeps_bind (keeps_collect fun _ => keeps_bind (keeps_bind (keeps_hwRd I _ _) fun _ => keeps_bind (keeps_hwRd I _ _) fun _ =>
    keeps_pure _) fun _ => keeps_pure _) fun _ => keeps_pure _

theorem keeps_pgCtx (k : Cmd) : Keeps I (pgCtx k) := by
  refine keeps_bind (keeps_ctxEnt I _ _) fun c => ?_
  split
  · exact keeps_pure _
  split <;> exact keeps_pure _

theorem keeps_pgOf (k : Cmd) (c : CtxEnt) (w : Bool) (p : Nat) : Keeps I (pgOf k c w p) := by
  unfold pgOf
  dsimp only
  split
  · refine keeps_bind (keeps_walk I _ _ _) fun r => ?_
    split <;> exact keeps_pure _
  · refine keeps_get_bind fun s _ => ?_
    split <;> exact keeps_pure _

theorem keeps_pgStates (k : Cmd) (c : CtxEnt) : Keeps I (pgStates k c) :=
  keeps_bind (keeps_collect fun _ => keeps_pgOf _ _ _ _) fun _ => keeps_pure _

theorem keeps_rdTiles (k : Cmd) : Keeps I (rdTiles k) := by
  refine keeps_bind (keeps_tileRange k) fun r => ?_
  split
  · exact keeps_pure _
  · exact keeps_bind (keeps_tilesOut _ _ _ _) fun _ => keeps_pure _

theorem keeps_rdPages (k : Cmd) : Keeps I (rdPages k) := by
  unfold rdPages
  split
  · exact keeps_pure _
  · refine keeps_bind (keeps_pgCtx k) fun r => ?_
    split
    · exact keeps_pure _
    · exact keeps_bind (keeps_pgStates _ _) fun _ => keeps_pure _

theorem keeps_rdEntries (k : Cmd) : Keeps I (rdEntries k) := by
  refine keeps_get_bind fun s _ => ?_
  split <;> exact keeps_pure _

/-- What RD takes at issue is read from the state alone. -/
theorem keeps_engRow {i : Instr} {c : Ctl} {kind : CmdKind} {op : Nat} {e : EngF} {v : Cmd → Op (Option Nat)}
    (h : engRow i = some (c, kind, op, e, v)) (k : Cmd) : Keeps I (v k) := by
  cases i <;> cases h
  case cpy | cpyr | stash | chrecv | coll | prst => exact keeps_pure _
  case stfetch | stdrop => exact keeps_rdEntries k
  case chsend => exact keeps_get_bind fun _ _ => keeps_pure _
  case chrel => exact keeps_get_bind fun _ _ => keeps_pure _
  case tilereq => exact keeps_rdTiles k
  case pgreq => exact keeps_rdPages k

end

/-- Work that keeps every property of the state leaves the state as it is. -/
theorem eq_of_keeps {α : Type} {m : Op α} (h : ∀ I : State → Prop, Keeps I m) {s s' : State} {a : α} (hm : m s = .ok a s') :
    s' = s :=
  (h (· = s) s rfl).1 a s' hm

/-- An instruction that issues an engine command does so by `engineIssue`. -/
theorem exec_engine {i : Instr} {c : Ctl} {kind : CmdKind} {op : Nat} {e : EngF} {v : Cmd → Op (Option Nat)}
    (h : engRow i = some (c, kind, op, e, v)) (s : State) :
    exec i s = issue i c (preOf i) (groupRegs e.grp)
      (engineIssue (s.mkCmd kind op e.grp e.ctr e.buf e.rd e.acq e.rel e.scope) v) s := by
  cases i <;> cases h
  case stash =>
    have hv : (fun k : Cmd => (pure (some (k.g2.toNat + 1 - k.g1.toNat)) : Op (Option Nat))) =
        fun k => pure (some (if k.g1.toNat ≤ k.g2.toNat then k.g2.toNat - k.g1.toNat + 1 else 0)) := by
      funext k
      congr 2
      split <;> omega
    rw [hv]
    rfl
  all_goals rfl

/-- The sequencer's earlier writes have been performed, and the checker and counter `n` have room (R25, R234, R242). -/
def State.engineRoom (s : State) (n : Nat) : Prop :=
  s.mySeq.late = [] ∧ (∀ x, x ∈ s.me.xfersOf s.curSeq → x.load = true) ∧ s.checkerCount s.cur < 128 ∧
    s.ecnt s.cur s.curSeq n < 4095

/-- Command `k` has joined those outstanding, and its RD has taken `r`. -/
def State.joined (s : State) (k : Cmd) (r : Option Nat) : State :=
  let u : State := { s with cmds := s.cmds ++ [k], nextId := s.nextId + 1 }
  match r with
  | some x => u.setG k.rd (BitVec.ofNat 32 x)
  | none => u

section
variable {s : State} {k : Cmd} {v : Cmd → Op (Option Nat)}

theorem settleOwn_waits (h : ¬ (s.mySeq.late = [] ∧ ∀ x, x ∈ s.me.xfersOf s.curSeq → x.load = true)) :
    settleOwn s = .error (.wait false) s := by
  have hc : (!s.mySeq.late.isEmpty || (s.me.xfersOf s.curSeq).any fun x => !x.load) = true := by
    by_contra hn
    refine h ⟨?_, fun x hx => ?_⟩ <;> simp_all
  simp only [settleOwn, run_get_bind, if_pos hc, run_throwWait]

theorem settleOwn_passes (h : s.mySeq.late = [] ∧ ∀ x, x ∈ s.me.xfersOf s.curSeq → x.load = true) :
    settleOwn s = .ok () s := by
  have hc : (!s.mySeq.late.isEmpty || (s.me.xfersOf s.curSeq).any fun x => !x.load) = false := by
    simp only [h.1, List.isEmpty_nil, Bool.not_true, Bool.false_or, List.any_eq_false, Bool.not_eq_true', Bool.not_eq_false]
    exact h.2
  simp only [settleOwn, run_get_bind, hc, Bool.false_eq_true, if_false, run_pure]

theorem engineIssue_waits (h : ¬ s.engineRoom k.ctr) : engineIssue k v s = .error (.wait false) s := by
  by_cases ho : s.mySeq.late = [] ∧ ∀ x, x ∈ s.me.xfersOf s.curSeq → x.load = true
  · have hc : (decide (128 ≤ s.checkerCount s.cur) || decide (4095 ≤ s.ecnt s.cur s.curSeq k.ctr)) = true := by
      rw [Bool.or_eq_true, decide_eq_true_iff, decide_eq_true_iff]
      by_contra hn
      exact h ⟨ho.1, ho.2, by omega, by omega⟩
    rw [engineIssue, run_bind_ok (settleOwn_passes ho), run_get_bind, if_pos hc]
    rfl
  · rw [engineIssue, run_bind_error (settleOwn_waits ho)]

theorem engineIssue_joins (h : s.engineRoom k.ctr) {r : Option Nat} {s1 : State} (hv : v k s = .ok r s1) :
    engineIssue k v s = .ok .next (s1.joined k r) := by
  obtain ⟨hl, hx, hk, he⟩ := h
  have hc : (decide (128 ≤ s.checkerCount s.cur) || decide (4095 ≤ s.ecnt s.cur s.curSeq k.ctr)) = false := by
    rw [Bool.or_eq_false_iff, decide_eq_false_iff_not, decide_eq_false_iff_not]
    omega
  rw [engineIssue, run_bind_ok (settleOwn_passes ⟨hl, hx⟩), run_get_bind, hc]
  simp only [Bool.false_eq_true, if_false, run_bind_ok hv, run_modify_bind]
  cases r <;> rfl

end

/-- An instruction that can issue and whose work waits has no effect. -/
theorem issue_bodyWaits {i : Instr} {c : Ctl} {pre : Op Unit} {srcs : List Nat} {body : Op Post} {s u s' : State} {n : Bool}
    (h : Ready i c srcs s) (hp : pre s = .ok () u) (hb : body s = .error (.wait n) s') :
    issue i c pre srcs body s = .next ((errState s s').waitFor i n) := by
  obtain ⟨h1, h2, h3, h4, h5⟩ := h
  simp only [issue, h1, h2, h3, h4, h5, hp, hb, Bool.not_true, Bool.and_false, Bool.false_eq_true, if_false]

/-- Joining the commands outstanding changes no register but RD. -/
theorem joined_does (s : State) (k : Cmd) (r : Option Nat) :
    s.does (if r.isSome then [k.rd] else []) { s with cmds := s.cmds ++ [k], nextId := s.nextId + 1 } s.me s.mySeq
      (s.joined k r) := by
  have h : s.does [] { s with cmds := s.cmds ++ [k], nextId := s.nextId + 1 } s.me s.mySeq
      { s with cmds := s.cmds ++ [k], nextId := s.nextId + 1 } :=
    (does_refl s).outer (fun u => { u with cmds := u.cmds ++ [k], nextId := u.nextId + 1 }) (fun _ _ => rfl)
      (fun _ => rfl) fun _ => rfl
  cases r with
  | none => exact h
  | some x => exact h.setG k.rd _

theorem putsScalar_joined (s : State) (k : Cmd) (c : Ctl) (n : Nat) :
    s.putsScalar false k.rd n (retire c .next (s.joined k (some n))) := by
  have h := putsScalar_setOpnd (s := s) (u := { s with cmds := s.cmds ++ [k], nextId := s.nextId + 1 }) c .next false k.rd n
    fun _ => rfl
  exact h

/-- Settles O44: the twelve instructions share `engineIssue`, and what gives RD its value reads the state alone. -/
theorem engineCommandsIssue : Obligations.EngineCommandsIssue := by
  intro i c kind op e v s hi hd hr
  have he := exec_engine hi s
  have hp : preOf i s = .ok () s := by
    have h := preOf_checks i s
    rwa [hd] at h
  refine ⟨fun hn => ?_, fun hroom r s1 hv => ?_⟩
  · have hw := engineIssue_waits (k := s.mkCmd kind op e.grp e.ctr e.buf e.rd e.acq e.rel e.scope) (v := v) hn
    exact he.trans ((issue_bodyWaits hr hp hw).trans (by rw [errState_self]))
  · obtain rfl := eq_of_keeps (fun I => keeps_engRow hi _) hv
    refine completes_of he hr hp (engineIssue_joins (k := s1.mkCmd kind op e.grp e.ctr e.buf e.rd e.acq e.rel e.scope)
      hroom hv) (fun n => Post.noConfusion) ⟨?_, ?_⟩
    · exact (joined_does s1 _ r).retire c .next
    · cases r with
      | none => exact fun g => g_retire c .next _ g
      | some n => exact putsScalar_joined s1 (s1.mkCmd kind op e.grp e.ctr e.buf e.rd e.acq e.rel e.scope) c n

end Sys2Proof.Machine

namespace Sys2Proof.Machine

/-! Fields of a number, bit by bit. -/

theorem testBit_fieldOf (v lo n i : Nat) : (fieldOf v lo n).testBit i = (decide (i < n) && v.testBit (lo + i)) := by
  rw [fieldOf, Nat.testBit_mod_two_pow, Nat.testBit_div_two_pow, Nat.add_comm]

theorem setField_eq (v lo n x : Nat) :
    setField v lo n x = 2 ^ lo * (2 ^ n * (v / 2 ^ lo / 2 ^ n) + x % 2 ^ n) + v % 2 ^ lo := by
  have h := Nat.div_add_mod (v / 2 ^ lo) (2 ^ n)
  have hv : 2 ^ lo * (2 ^ n * (v / 2 ^ lo / 2 ^ n)) + v / 2 ^ lo % 2 ^ n * 2 ^ lo + v % 2 ^ lo = v := by
    rw [Nat.mul_comm _ (2 ^ lo), ← Nat.mul_add, h, Nat.div_add_mod]
  rw [setField, fieldOf, Nat.mul_add, Nat.mul_comm (x % 2 ^ n)]
  omega

theorem testBit_setField (v lo n x i : Nat) :
    (setField v lo n x).testBit i = if lo ≤ i ∧ i < lo + n then x.testBit (i - lo) else v.testBit i := by
  rw [setField_eq, Nat.testBit_two_pow_mul_add _ (Nat.mod_lt _ (by positivity)), Nat.testBit_two_pow_mul_add _ (Nat.mod_lt _ (by positivity))]
  by_cases h1 : i < lo
  · simp [h1, Nat.not_le.2 h1]
  · by_cases h2 : i < lo + n
    · have h3 : i - lo < n := by omega
      simp [h1, h2, h3, Nat.le_of_not_lt h1]
    · have h3 : ¬ i - lo < n := by omega
      have h4 : i - lo - n + n + lo = i := by omega
      simp [h1, h2, h3, Nat.testBit_div_two_pow, h4]

theorem clear2_eq (m p : Nat) : clear2 m p = setField m p 2 0 := by simp [clear2, setField]

theorem testBit_clear2 (m p i : Nat) :
    (clear2 m p).testBit i = if i = p ∨ i = p + 1 then false else m.testBit i := by
  rw [clear2_eq, testBit_setField]
  have h : (p ≤ i ∧ i < p + 2) ↔ (i = p ∨ i = p + 1) := by omega
  simp [h]

/-! The registers that hold what is written to them (R285). -/

/-- What a plain register of a die holds. -/
def Die.plain (x : Die) (o : Nat) : Nat :=
  if o = 0x9000200 then x.l2seed.toNat else if o = 0x9000300 then x.ctxbase.toNat
  else if o = 0x9000500 then x.sdbase.toNat else if o = 0x9000508 then x.sdcap.toNat
  else if o = 0x9000518 then x.cabase.toNat else if o = 0x9000520 then x.caunits.toNat
  else if o = 0x9000600 then x.trapvec.toNat else if o = 0x9000900 then x.qtbase.toNat
  else if o = 0x9000908 then bitAt x.run 0 else if o = 0x9000AC8 then x.cecnt.toNat
  else if o = 0x9000AD0 then x.uecnt.toNat else 0

/-- A write of a plain register. -/
def Die.putPlain (x : Die) (o v : Nat) : Die :=
  if o = 0x9000200 then { x with l2seed := BitVec.ofNat 32 v, sliceGens := [] }
  else if o = 0x9000300 then { x with ctxbase := BitVec.ofNat 41 v }
  else if o = 0x9000500 then { x with sdbase := BitVec.ofNat 41 v }
  else if o = 0x9000508 then { x with sdcap := BitVec.ofNat 24 v }
  else if o = 0x9000518 then { x with cabase := BitVec.ofNat 41 v }
  else if o = 0x9000520 then { x with caunits := BitVec.ofNat 24 v }
  else if o = 0x9000600 then { x with trapvec := BitVec.ofNat 64 v }
  else if o = 0x9000900 then { x with qtbase := BitVec.ofNat 41 v }
  else if o = 0x9000908 then { x with run := bit v 0 }
  else if o = 0x9000AC8 then { x with cecnt := BitVec.ofNat 32 v }
  else { x with uecnt := BitVec.ofNat 32 v }

theorem mem_plainRegs {o n : Nat} (h : (o, n) ∈ plainRegs) : (o = 0x9000200 ∧ n = 32) ∨ (o = 0x9000300 ∧ n = 41) ∨
    (o = 0x9000500 ∧ n = 41) ∨ (o = 0x9000508 ∧ n = 24) ∨ (o = 0x9000518 ∧ n = 41) ∨ (o = 0x9000520 ∧ n = 24) ∨
    (o = 0x9000600 ∧ n = 64) ∨ (o = 0x9000900 ∧ n = 41) ∨ (o = 0x9000908 ∧ n = 1) ∨ (o = 0x9000AC8 ∧ n = 32) ∨
    (o = 0x9000AD0 ∧ n = 32) := by
  simpa [plainRegs] using h

theorem ctlRead_plain {o n : Nat} (h : (o, n) ∈ plainRegs) (s : State) (d : Nat) :
    s.ctlRead d o = ((s.die d).plain o, false) := by
  rcases mem_plainRegs h with ⟨rfl, -⟩ | ⟨rfl, -⟩ | ⟨rfl, -⟩ | ⟨rfl, -⟩ | ⟨rfl, -⟩ | ⟨rfl, -⟩ | ⟨rfl, -⟩ | ⟨rfl, -⟩ |
    ⟨rfl, -⟩ | ⟨rfl, -⟩ | ⟨rfl, -⟩ <;> rfl

theorem ctlWrite_plain {o n : Nat} (h : (o, n) ∈ plainRegs) (s : State) (d v : Nat) :
    s.ctlWrite d o v = s.modDie d (·.putPlain o v) := by
  rcases mem_plainRegs h with ⟨rfl, -⟩ | ⟨rfl, -⟩ | ⟨rfl, -⟩ | ⟨rfl, -⟩ | ⟨rfl, -⟩ | ⟨rfl, -⟩ | ⟨rfl, -⟩ | ⟨rfl, -⟩ |
    ⟨rfl, -⟩ | ⟨rfl, -⟩ | ⟨rfl, -⟩ <;> rfl

theorem bitAt_bit_zero (v : Nat) : bitAt (bit v 0) 0 = v % 2 := by
  rcases Nat.mod_two_eq_zero_or_one v with h | h <;> simp [bitAt, bit, h]

theorem plain_putPlain_same {o n : Nat} (h : (o, n) ∈ plainRegs) (x : Die) (v : Nat) :
    (x.putPlain o v).plain o = v % 2 ^ n := by
  rcases mem_plainRegs h with ⟨rfl, rfl⟩ | ⟨rfl, rfl⟩ | ⟨rfl, rfl⟩ | ⟨rfl, rfl⟩ | ⟨rfl, rfl⟩ | ⟨rfl, rfl⟩ | ⟨rfl, rfl⟩ |
    ⟨rfl, rfl⟩ | ⟨rfl, rfl⟩ | ⟨rfl, rfl⟩ | ⟨rfl, rfl⟩ <;> simp [Die.putPlain, Die.plain, bitAt_bit_zero]

theorem plain_putPlain_other {o n p : Nat} (h : (o, n) ∈ plainRegs) (hp : p ≠ o) (x : Die) (v : Nat) :
    (x.putPlain o v).plain p = x.plain p := by
  rcases mem_plainRegs h with ⟨rfl, -⟩ | ⟨rfl, -⟩ | ⟨rfl, -⟩ | ⟨rfl, -⟩ | ⟨rfl, -⟩ | ⟨rfl, -⟩ | ⟨rfl, -⟩ | ⟨rfl, -⟩ |
    ⟨rfl, -⟩ | ⟨rfl, -⟩ | ⟨rfl, -⟩ <;> simp [Die.putPlain, Die.plain, hp]

/-- REGISTER_WRITE of a plain register. -/
theorem exec_registerWrite_plain {off n : Nat} (h : (off, n) ∈ plainRegs) (die : Nat) (v : DWord) {s : State}
    (hf : s.bootFailed = false) :
    exec (.registerWrite die off v) s = .next (s.modDie die (·.putPlain off v.toNat)) := by
  have ho : off % 8 = 0 ∧ off < ctlDieSize := by
    rcases mem_plainRegs h with ⟨rfl, -⟩ | ⟨rfl, -⟩ | ⟨rfl, -⟩ | ⟨rfl, -⟩ | ⟨rfl, -⟩ | ⟨rfl, -⟩ | ⟨rfl, -⟩ | ⟨rfl, -⟩ |
      ⟨rfl, -⟩ | ⟨rfl, -⟩ | ⟨rfl, -⟩ <;> decide
  refine (event_modify _ s).trans ?_
  simp [ho, State.served, hf, ctlWrite_plain h]

/-- REGISTER_WRITE of what is not a served register of the control space. -/
theorem exec_registerWrite_ignored {off : Nat} (die : Nat) (v : DWord) {s : State}
    (h : off % 8 ≠ 0 ∨ ctlDieSize ≤ off ∨ s.served off = false) : exec (.registerWrite die off v) s = .next s := by
  refine (event_modify _ s).trans ?_
  rw [if_neg]
  simp only [Bool.and_eq_true, decide_eq_true_eq]
  rintro ⟨⟨h1, h2⟩, h3⟩
  rcases h with h | h | h
  · exact h h1
  · exact absurd h2 (Nat.not_lt.2 h)
  · simp [h] at h3

/-! The registers of a sequencer in the register window (R274). -/

/-- A pair of scalar registers written through the register window. -/
def Seq.putPair (y : Seq) (r v : Nat) : Seq :=
  let wr (y : Seq) (n : Nat) (w : Nat) : Seq := if n = 0 then y else { y with g := Store.set 0 y.g n (BitVec.ofNat 32 w) }
  { wr (wr y r v) (r + 1) (v / 2 ^ 32) with gPoison := clear2 y.gPoison r }

theorem winWrite_pair (s : State) (n : Nat) (q : SeqId) {r : Nat} (hr : r < 32) (v : Nat) :
    s.winWrite n (0x400 + 256 * q.code + 8 * r) v =
      if (s.core n).partFree q then s.setCore n ((s.core n).modSeq q (·.putPair (2 * r) v)) else s := by
  have hc : q.code < 4 ∧ seqOfCode q.code = q := by cases q <;> exact ⟨by decide, rfl⟩
  have h1 : (0x400 + 256 * q.code + 8 * r - 0x400) / 256 = q.code := by omega
  have h2 : (0x400 + 256 * q.code + 8 * r - 0x400) % 256 / 4 = 2 * r := by omega
  have hlo : 0x400 ≤ 0x400 + 256 * q.code + 8 * r := by omega
  have hhi : 0x400 + 256 * q.code + 8 * r < 0x800 := by omega
  generalize 0x400 + 256 * q.code + 8 * r = o at *
  simp only [State.winWrite, h1, h2, hc.2, show ¬ o < 0x28 by omega, show o ≠ 0x28 by omega, show o ≠ 0x30 by omega,
    show o ≠ 0x38 by omega, show o ≠ 0x60 by omega, show o ≠ 0x68 by omega, show o ≠ 0x70 by omega,
    show ¬ o < 0x100 by omega, show o ≠ 0x100 by omega, show o ≠ 0x108 by omega, hlo, hhi, decide_true, decide_false,
    Bool.and_false, Bool.and_true, Bool.false_eq_true, if_false, if_true]
  rfl

theorem putPair_g (y : Seq) (r v j : Nat) : Store.get 0 (y.putPair (2 * r) v).g j =
    if j = 2 * r + 1 then BitVec.ofNat 32 (v / 2 ^ 32) else if j = 2 * r ∧ j ≠ 0 then BitVec.ofNat 32 v else Store.get 0 y.g j := by
  by_cases hr : r = 0
  · subst hr
    by_cases hj : j = 1 <;> by_cases h0 : j = 0 <;> simp [Seq.putPair, hj, h0]
  · by_cases hj : j = 2 * r + 1
    · simp [Seq.putPair, hj]
    · have h0 : j = 2 * r → j ≠ 0 := by omega
      by_cases h : j = 2 * r <;> simp [Seq.putPair, hr, hj, h]

theorem putPair_gPoison (y : Seq) (r v j : Nat) : (y.putPair (2 * r) v).gPoison.testBit j =
    if j / 2 = r then false else y.gPoison.testBit j := by
  have h : (j = 2 * r ∨ j = 2 * r + 1) ↔ j / 2 = r := by omega
  simp [Seq.putPair, testBit_clear2, h]

theorem putPair_eq (y : Seq) (r v : Nat) :
    y.putPair r v = { y with g := (y.putPair r v).g, gPoison := (y.putPair r v).gPoison } := by
  by_cases hr : r = 0 <;> simp [Seq.putPair, hr]

theorem exec_registerWindowWrite {n off : Nat} (v : DWord) {s : State} (hf : s.bootFailed = false) (ho : off % 8 = 0)
    (hl : off < 0x100000) : exec (.registerWindowWrite n off v) s = .next (s.winWrite n off v.toNat) := by
  refine (ctlEvent_eq _ s).trans ?_
  simp [hf, ho, hl]

/-! The frame's aging register (R37, R39). -/

theorem ageSync_eq (s : State) (d : Nat) : s.ageSync d =
    { s.modDie d (fun x => { x with lastTick := s.clock }) with
      tasks := s.tasks.map fun x => { x with frames := x.frames.map (s.older d) } } := by
  refine congrArg (fun up : FrameEnt → FrameEnt => ({ s.modDie d (fun x => { x with lastTick := s.clock }) with
    tasks := s.tasks.map fun x => { x with frames := x.frames.map up } } : State)) (funext fun f => ?_)
  by_cases ha : (s.die d).agesh = 15#4 <;> by_cases hd : f.die = d <;>
    simp [State.older, Die.agePeriod, usClocks, ha, hd]

theorem older_of_off {s : State} {d : Nat} (h : (s.die d).agesh = 15) {f : FrameEnt} (hf : f.age < 2 ^ 32) :
    s.older d f = f := by
  have hm : min f.age 4294967295 = f.age := by omega
  simp [State.older, h, hm]

theorem map_older_of_off {s : State} {d : Nat} (h : (s.die d).agesh = 15)
    (hf : ∀ x, x ∈ s.tasks → ∀ f, f ∈ x.frames → f.age < 2 ^ 32) :
    s.tasks.map (fun x => { x with frames := x.frames.map (s.older d) }) = s.tasks := by
  refine (List.map_congr_left fun x hx => ?_).trans (List.map_id s.tasks)
  have he : x.frames.map (s.older d) = x.frames :=
    (List.map_congr_left fun f hm => older_of_off h (hf x hx f hm)).trans (List.map_id _)
  rw [he]
  rfl

theorem framecfg_die (s : State) (d v n : Nat) : (s.putFramecfg d v).die n =
    if n = d then { s.die d with agesh := BitVec.ofNat 4 v, lastTick := s.clock } else s.die n := by
  have h (k : Nat) : (s.ageSync d).die k = (s.modDie d (fun x => { x with lastTick := s.clock })).die k := rfl
  rw [State.putFramecfg, die_modDie, h, h, die_modDie, die_modDie]
  split <;> simp

theorem putFramecfg_tasks (s : State) (d v : Nat) :
    (s.putFramecfg d v).tasks = s.tasks.map fun x => { x with frames := x.frames.map (s.older d) } := by
  rw [State.putFramecfg, ageSync_eq]
  rfl

/-! The calendars' owners (R184). -/

theorem slotsOf_eq (ch : Nat) : slotsOf ch = if ch < 128 then 32 else 16 := rfl

theorem isMaint_iff (ch slot : Nat) :
    isMaint ch slot = true ↔ slot = 0 ∨ slot = if ch < 128 then 16 else 8 := by
  by_cases h : ch < 128 <;> simp [isMaint, slotsOf, h]

theorem rotation_eq (s : State) (ch : Nat) :
    s.rotation ch = (s.clock - s.start) / if ch < 128 then 256 else 512 := by
  by_cases h : ch < 128 <;> simp [State.rotation, slotClocks, slotsOf, h]

/-- A write that waits for the next rotation changes no owner yet. -/
theorem owner_pend {s t : State} {d ch slot : Nat} {v : Byte} {x : Die} (hx : x = { s.die d with
      calPend := (s.die d).calPend ++ [(ch, slot, v, s.rotation ch)] }) (hd : t.die d = x) (hc : t.clock = s.clock)
    (hs : t.start = s.start) (j : Nat) : t.owner d ch j = s.owner d ch j := by
  have hr : t.rotation ch = s.rotation ch := by rw [State.rotation, State.rotation, hc, hs]
  have ho (k : Nat) : x.owner ch k = (s.die d).owner ch k := by subst hx; rfl
  unfold State.owner
  rw [hd, hr, ho]
  simp [hx, List.filter_append]

theorem owner_of_pend {u : State} {d ch slot rot : Nat} {v : Byte} {l : List (Nat × Nat × Byte × Nat)}
    (h : (u.die d).calPend = l ++ [(ch, slot, v, rot)]) (hr : rot < u.rotation ch) (hm : isMaint ch slot = false) :
    u.owner d ch slot = v.toNat := by
  simp [State.owner, h, List.filter_append, hr, hm]

/-! The group table (R255). -/

theorem mask_group (v : Nat) : v &&& 0xFFFFFFFFFF0F = 2 ^ 8 * (v / 2 ^ 8 % 2 ^ 40) + v % 2 ^ 4 := by
  have hm : (0xFFFFFFFFFF0F : Nat) = 2 ^ 8 * (2 ^ 40 - 1) + (2 ^ 4 - 1) := by decide
  have hv : v % 2 ^ 4 < 2 ^ 8 := by omega
  refine Nat.eq_of_testBit_eq fun i => ?_
  rw [hm, Nat.testBit_and, Nat.testBit_two_pow_mul_add _ (by decide), Nat.testBit_two_pow_mul_add _ hv]
  by_cases h : i < 8
  · simp only [h, if_true, Nat.testBit_two_pow_sub_one, Nat.testBit_mod_two_pow, Bool.and_comm]
  · simp only [h, if_false, Nat.testBit_two_pow_sub_one, Nat.testBit_mod_two_pow, Nat.testBit_div_two_pow,
      Nat.sub_add_cancel (Nat.le_of_not_lt h), Bool.and_comm]

theorem bitAt_bit (v i k : Nat) : bitAt (bit v i) k = v / 2 ^ i % 2 * 2 ^ k := by
  rcases Nat.mod_two_eq_zero_or_one (v / 2 ^ i) with h | h <;> simp [bitAt, bit, h]

theorem word_zero_put (g : Group) (v : Nat) : (g.put 0 v).word 0 = v &&& 0xFFFFFFFFFF0F := by
  rw [mask_group]
  simp only [Group.put, Group.word, if_true, bitAt_bit, fieldOf]
  omega

theorem testBit_put_part (g : Group) {w : Nat} (h1 : 1 ≤ w) (h3 : w ≤ 3) (v : DWord) (n : Nat) :
    (g.put w v.toNat).part.testBit n =
      if n / 64 = w - 1 then v.getLsbD (n % 64) && n < 144 else g.part.testBit n && n < 144 := by
  have hw : w ≠ 0 := by omega
  have hn : (64 * (w - 1) ≤ n ∧ n < 64 * (w - 1) + 64) ↔ n / 64 = w - 1 := by omega
  simp only [Group.put, hw, h3, if_true, if_false, Nat.testBit_mod_two_pow, testBit_setField, hn]
  split
  · next h =>
    have hm : n - 64 * (w - 1) = n % 64 := by omega
    rw [hm, Bool.and_comm]
    rfl
  · rw [Bool.and_comm]

theorem word_put_part (g : Group) {w : Nat} (h : w = 1 ∨ w = 2) (v : DWord) :
    (g.put w v.toNat).word w = v.toNat := by
  have hw : w ≠ 0 := by omega
  have h3 : w ≤ 3 := by omega
  refine Nat.eq_of_testBit_eq fun i => ?_
  simp only [Group.word, hw, h3, if_true, if_false]
  rw [testBit_fieldOf, testBit_put_part g (by omega) h3]
  by_cases hi : i < 64
  · have h1 : (64 * (w - 1) + i) / 64 = w - 1 := by omega
    have h2 : (64 * (w - 1) + i) % 64 = i := by omega
    have h4 : 64 * (w - 1) + i < 144 := by omega
    simp only [hi, h1, h2, h4, decide_true, if_true, Bool.true_and, Bool.and_true]
    rfl
  · have : v.toNat.testBit i = false := Nat.testBit_lt_two_pow (Nat.lt_of_lt_of_le v.isLt
      (Nat.pow_le_pow_right (by decide) (Nat.le_of_not_lt hi)))
    simp [hi, this]

theorem group_putGroup (s : State) (d g w v m : Nat) : ((s.putGroup d g w v).die d).group m =
    if m = g then ((s.die d).group g).put w v else (s.die d).group m := by
  have h : (s.putGroup d g w v).die d = (s.modGroup d g fun x => x.put w v).die d := rfl
  rw [h, State.modGroup, die_modDie, if_pos rfl]
  simp [Die.group]

theorem putGroup_cmds (s : State) (d g v : Nat) {w : Nat} (h : w ≠ 0) : (s.putGroup d g w v).cmds = s.cmds := by
  simp [State.putGroup, h]

theorem groupEntry_post (d g w : Nat) (v : DWord) (s : State) : let t := s.putGroup d g w v.toNat
    t = { s with dies := t.dies, cmds := t.cmds } ∧ (w ≠ 0 → t.cmds = s.cmds) ∧ (∀ n, n ≠ d → t.die n = s.die n) ∧
    t.die d = { s.die d with groups := (t.die d).groups } ∧ (∀ m, m ≠ g → (t.die d).group m = (s.die d).group m) ∧
    (w = 0 → ((t.die d).group g).word 0 = v.toNat &&& 0xFFFFFFFFFF0F ∧ ((t.die d).group g).contribs = [] ∧
      ((t.die d).group g).part = ((s.die d).group g).part) ∧
    (w = 1 ∨ w = 2 → ((t.die d).group g).word w = v.toNat) ∧
    (1 ≤ w → w ≤ 3 → ∀ n, ((t.die d).group g).part.testBit n =
      if n / 64 = w - 1 then v.getLsbD (n % 64) && n < 144 else ((s.die d).group g).part.testBit n && n < 144) := by
  have hd (n : Nat) : (s.putGroup d g w v.toNat).die n = (s.modGroup d g fun x => x.put w v.toNat).die n := rfl
  refine ⟨rfl, putGroup_cmds s d g _, fun n hn => ?_, ?_, fun m hm => ?_, ?_, ?_, ?_⟩
  · rw [hd, State.modGroup, die_modDie, if_neg hn]
  · rw [hd, State.modGroup, die_modDie, if_pos rfl]
  · rw [group_putGroup, if_neg hm]
  all_goals rw [group_putGroup, if_pos rfl]
  · rintro rfl
    exact ⟨word_zero_put _ _, rfl, rfl⟩
  · exact fun h => word_put_part _ h v
  · exact fun h1 h3 => testBit_put_part _ h1 h3 v

/-! The channels' configuration (R249, R250). -/

theorem sendGrant_eq (s : State) (n : Nat) : s.sendGrant n = { s with ports := (s.sendGrant n).ports } := by
  unfold State.sendGrant State.sendFlit
  dsimp only
  split
  · split <;> rfl
  · rfl

theorem ofNat_mod_eq_and (v : DWord) (n : Nat) (hn : n ≤ 64) : BitVec.ofNat 64 (v.toNat % 2 ^ n) = v &&& BitVec.ofNat 64 (2 ^ n - 1) := by
  refine BitVec.eq_of_toNat_eq ?_
  have h : 2 ^ n - 1 < 2 ^ 64 := by have := Nat.pow_le_pow_right (n := 2) (by decide) hn; have := Nat.two_pow_pos n; omega
  rw [BitVec.toNat_and, BitVec.toNat_ofNat, BitVec.toNat_ofNat, Nat.mod_eq_of_lt h, Nat.and_two_pow_sub_one_eq_mod,
    Nat.mod_eq_of_lt (Nat.lt_of_le_of_lt (Nat.mod_le _ _) v.isLt)]

/-- What a write of word 0 leaves: the word, and the counts at 0 once EN is set. -/
theorem put_zero (c : TChan) (v : Nat) : let en := bit v 0 && !c.w0.getLsbD 0
    c.put 0 v = { c with w0 := BitVec.ofNat 64 (v % 2 ^ 29), delivered := if en then 0 else c.delivered,
                         released := if en then 0 else c.released } := by
  simp only [TChan.put]
  split <;> rfl

theorem word_put_same (c : TChan) {w : Nat} (hw : w < 4) (v : DWord) : (c.put w v.toNat).word w =
    v &&& (if w = 0 then 0x1FFFFFFF else if w = 2 then 0xFFFF else BitVec.allOnes 64) := by
  have hv : BitVec.ofNat 64 v.toNat = v &&& BitVec.allOnes 64 := by rw [BitVec.and_allOnes, BitVec.ofNat_toNat, BitVec.setWidth_eq]
  have hw' : w = 0 ∨ w = 1 ∨ w = 2 ∨ w = 3 := by omega
  rcases hw' with rfl | rfl | rfl | rfl
  · rw [put_zero]
    exact ofNat_mod_eq_and v 29 (by decide)
  · exact hv
  · exact ofNat_mod_eq_and v 16 (by decide)
  · exact hv

theorem word_put_other (c : TChan) {w j : Nat} (hw : w < 4) (hj : j < 4) (h : j ≠ w) (v : Nat) :
    (c.put w v).word j = c.word j := by
  match w, j, hw, hj with
  | 0, 0, _, _ | 1, 1, _, _ | 2, 2, _, _ | 3, 3, _, _ => exact absurd rfl h
  | 0, 1, _, _ | 0, 2, _, _ | 0, 3, _, _ => rw [put_zero]; rfl
  | 1, 0, _, _ | 1, 2, _, _ | 1, 3, _, _ | 2, 0, _, _ | 2, 1, _, _ | 2, 3, _, _ | 3, 0, _, _ | 3, 1, _, _ | 3, 2, _, _ => rfl

theorem counts_put (c : TChan) {w : Nat} (hw : w < 4) (v : DWord) :
    let en : Prop := w = 0 ∧ v.getLsbD 0 = true ∧ c.w0.getLsbD 0 = false
    (¬ en → (c.put w v.toNat).delivered = c.delivered ∧ (c.put w v.toNat).released = c.released) ∧
    (en → (c.put w v.toNat).delivered = 0 ∧ (c.put w v.toNat).released = 0) := by
  have hb : bit v.toNat 0 = v.getLsbD 0 := bit_eq_testBit _ _
  match w, hw with
  | 0, _ =>
    rw [put_zero, hb]
    generalize v.getLsbD 0 = a, c.w0.getLsbD 0 = b
    cases a <;> cases b <;> simp
  | 1, _ | 2, _ | 3, _ => exact ⟨fun _ => ⟨rfl, rfl⟩, fun h => absurd h.1 (by decide)⟩

theorem enabled_eq (c : TChan) : c.enabled = (c.w0.getLsbD 0 && 12 ≤ c.rlog && c.rlog ≤ 28) := by
  rw [TChan.enabled, bit_eq_testBit]
  rfl

/-- A write of CHCFG sends a grant when the channel is newly enabled, or its window has changed. -/
theorem putChcfg_eq (s : State) (n w v : Nat) : let x := (s.chan n).put w v
    s.putChcfg n w v = if x.enabled = true ∧ ((s.chan n).enabled = false ∨ x.window ≠ (s.chan n).window)
      then (s.setChan n x).sendGrant n else s.setChan n x := by
  have h : (s.chan n).enabled = true → (s.chan n).w0.getLsbD 0 = true := by
    rw [enabled_eq, Bool.and_eq_true, Bool.and_eq_true]
    exact fun h => h.1.1
  unfold State.putChcfg
  dsimp only
  congr 1
  simp only [Bool.and_eq_true, Bool.or_eq_true, Bool.not_eq_true', bne_iff_ne, eq_iff_iff]
  cases he : (s.chan n).enabled <;> simp_all

theorem chcfg_post (n w : Nat) (v : DWord) (s : State) (hw : w < 4) :
    let en : Prop := w = 0 ∧ v.getLsbD 0 = true ∧ (s.chan n).w0.getLsbD 0 = false
    let grants (x : TChan) : Prop := x.enabled = true ∧ ((s.chan n).enabled = false ∨ x.window ≠ (s.chan n).window)
    let t := s.putChcfg n w v.toNat
    t = { s with chans := t.chans, ports := t.ports } ∧ (∀ j, j ≠ n → t.chan j = s.chan j) ∧
      (t.chan n).word w = v &&& (if w = 0 then 0x1FFFFFFF else if w = 2 then 0xFFFF else BitVec.allOnes 64) ∧
      (∀ j, j < 4 → j ≠ w → (t.chan n).word j = (s.chan n).word j) ∧
      (¬ en → (t.chan n).delivered = (s.chan n).delivered ∧ (t.chan n).released = (s.chan n).released) ∧
      (en → (t.chan n).delivered = 0 ∧ (t.chan n).released = 0) ∧
      (¬ grants (t.chan n) → t.ports = s.ports) ∧
      (grants (t.chan n) → t.ports = ({ s with chans := t.chans }.sendGrant n).ports) := by
  intro en grants t
  have hs : t = { s.setChan n ((s.chan n).put w v.toNat) with ports := t.ports } := by
    unfold t
    rw [putChcfg_eq]
    split
    · exact sendGrant_eq _ n
    · rfl
  have hc : t.chans = (s.setChan n ((s.chan n).put w v.toNat)).chans := by rw [hs]
  have hn (j : Nat) : t.chan j = if j = n then (s.chan n).put w v.toNat else s.chan j := by
    rw [State.chan, hc]
    exact chan_setChan s n j _
  have hx : t.chan n = (s.chan n).put w v.toNat := by rw [hn, if_pos rfl]
  obtain ⟨hkeep, hstart⟩ := counts_put (s.chan n) hw v
  rw [hx]
  refine ⟨by rw [hs]; rfl, fun j hj => by rw [hn, if_neg hj], word_put_same _ hw v,
    fun j h4 hj => word_put_other _ hw h4 hj _, hkeep, hstart, fun hg => ?_, fun hg => ?_⟩
  · unfold t
    rw [putChcfg_eq, if_neg hg]
    rfl
  · rw [hc]
    unfold t
    rw [putChcfg_eq, if_pos hg]
    rfl

/-! Pre-emption requests (R280, R288). -/

/-- A program core with a pre-emption request pending (R339). -/
def Core.requested (k : Core) : Core := { k with preq := true, event := k.event || !k.preq }

theorem core_preemptSome (d N m : Nat) (s : State) :
    let t := (List.range N).foldl (fun s n => s.modCore (144 * d + 1 + n) Core.requested) s
    t = { s with cores := t.cores } ∧
      t.core m = if 144 * d + 1 ≤ m ∧ m < 144 * d + 1 + N then (s.core m).requested else s.core m := by
  induction N with
  | zero =>
    have h : ¬ (144 * d + 1 ≤ m ∧ m < 144 * d + 1 + 0) := by omega
    exact ⟨rfl, (if_neg h).symm⟩
  | succ N ih =>
    simp only [List.range_succ, List.foldl_append, List.foldl_cons, List.foldl_nil]
    obtain ⟨hs, hm⟩ := ih
    generalize (List.range N).foldl (fun s n => s.modCore (144 * d + 1 + n) Core.requested) s = t at hs hm
    refine ⟨by rw [hs]; rfl, ?_⟩
    rw [core_modCore]
    by_cases h : m = 144 * d + 1 + N
    · subst h
      rw [if_pos rfl, if_pos (by omega), hm, if_neg (by omega)]
    · have hb : (144 * d + 1 ≤ m ∧ m < 144 * d + 1 + (N + 1)) ↔ (144 * d + 1 ≤ m ∧ m < 144 * d + 1 + N) := by omega
      rw [if_neg h, hm]
      simp only [hb]

theorem preempt_post (s : State) (d : Nat) : s.preempt d = { s with cores := (s.preempt d).cores } ∧
    ∀ m, (s.preempt d).core m = if m / 144 = d ∧ m % 144 ≠ 0 then (s.core m).requested else s.core m := by
  refine ⟨(core_preemptSome d 143 0 s).1, fun m => (core_preemptSome d 143 m s).2.trans ?_⟩
  have hb : (144 * d + 1 ≤ m ∧ m < 144 * d + 1 + 143) ↔ (m / 144 = d ∧ m % 144 ≠ 0) := by omega
  simp only [hb]

/-- The register events that a failed boot leaves unserved. -/
theorem exec_unserved {i : Instr} {s : State} (hf : s.bootFailed = true)
    (h : match i with
      | .registerWrite _ off _ => off < 0x9000A00 ∨ 0x9000A80 ≤ off
      | .registerWindowWrite .. | .framecfgWrite .. | .l2seedWrite .. | .calownWrite .. | .groupEntryWrite .. | .chcfgWrite ..
      | .mbtailWrite .. | .preemptionRequestDie .. | .preemptionRequestPackage => True
      | _ => False) : exec i s = .next s := by
  have hc (f : State → State) : ctlEvent f s = .next s := (ctlEvent_eq f s).trans (by rw [hf]; rfl)
  cases i with
  | registerWrite die off v =>
    refine exec_registerWrite_ignored die v (.inr (.inr ?_))
    have hb : ¬ (0x9000A00 ≤ off ∧ off < 0x9000A80) := by omega
    simpa [State.served, hf] using hb
  | registerWindowWrite | framecfgWrite | l2seedWrite | calownWrite | groupEntryWrite | chcfgWrite | mbtailWrite
    | preemptionRequestDie | preemptionRequestPackage => delta exec; exact hc _
  | _ => exact h.elim

theorem mailDrain_nil {s : State} {d : Nat} (h : (s.die d).mail = []) : s.mailAll d = s := by
  rw [State.mailAll, h]
  rfl

theorem putMbtail_eq {s : State} {d : Nat} (v : DWord) (h : (s.die d).mail = []) : s.putMbtail d v.toNat =
    { s.modDie d (fun x => { x with mbtail := v.setWidth 31 }) with
      pcie := s.pcie ++ (if v.getLsbD 31 = true ∧ v.setWidth 31 ≠ (s.die d).mbtail then [.msix 0] else []) } := by
  have hb : bit v.toNat 31 = v.getLsbD 31 := bit_eq_testBit _ _
  have hm (l : List PcieMsg) :
      (({ s.modDie d (fun x => { x with mbtail := v.setWidth 31 }) with pcie := l } : State).die d).mail = [] := by
    show ((s.modDie d fun x => { x with mbtail := v.setWidth 31 }).die d).mail = []
    rw [die_modDie, if_pos rfl]
    exact h
  unfold State.putMbtail
  rw [hb, BitVec.ofNat_toNat]
  by_cases hc : v.getLsbD 31 = true ∧ v.setWidth 31 ≠ (s.die d).mbtail
  · have hc' : (v.getLsbD 31 && (s.die d).mbtail != v.setWidth 31) = true := by
      simpa [hc.1] using Ne.symm hc.2
    rw [if_pos hc]
    simp only [hc', if_true]
    exact mailDrain_nil (hm _)
  · have hc' : (v.getLsbD 31 && (s.die d).mbtail != v.setWidth 31) = false := by
      rw [← Bool.not_eq_true, Bool.and_eq_true, bne_iff_ne]
      exact fun h => hc ⟨h.1, h.2.symm⟩
    rw [if_neg hc, List.append_nil]
    simp only [hc', Bool.false_eq_true, if_false]
    exact mailDrain_nil (hm _)

theorem window_post (n r : Nat) (q : SeqId) (v : DWord) (s : State) (hf : s.bootFailed = false) (hr : r < 32) :
    let g : Instr := .registerWindowWrite n (0x400 + 256 * q.code + 8 * r) v
    let k := s.core n
    (k.partFree q = false → exec g s = .next s) ∧
    (k.partFree q = true → Completes g s fun t => ∃ x : Seq, s.onlyThat n (k.setSeq q x) t ∧
      x = { k.seq q with g := x.g, gPoison := x.gPoison } ∧
      ∀ j, (Store.get 0 x.g j = if j = 2 * r + 1 then v.extractLsb' 32 32
          else if j = 2 * r ∧ j ≠ 0 then v.setWidth 32 else Store.get 0 (k.seq q).g j) ∧
        (x.gPoison.testBit j = if j / 2 = r then false else (k.seq q).gPoison.testBit j)) := by
  intro g k
  have hq : q.code < 4 := by cases q <;> decide
  have he : exec g s = .next (if k.partFree q then s.setCore n (k.modSeq q (·.putPair (2 * r) v.toNat)) else s) :=
    (exec_registerWindowWrite v hf (by omega) (by omega)).trans (by rw [winWrite_pair s n q hr])
  refine ⟨fun h => ?_, fun h => ?_⟩
  · rw [he, h]
    rfl
  · rw [h, if_pos rfl] at he
    refine ⟨_, he, _, modCore_onlyThat s n fun k => k.modSeq q (·.putPair (2 * r) v.toNat), putPair_eq _ _ _, fun j => ⟨?_, putPair_gPoison _ r _ j⟩⟩
    have h1 : BitVec.ofNat 32 (v.toNat / 2 ^ 32) = v.extractLsb' 32 32 := by
      refine BitVec.eq_of_toNat_eq ?_
      rw [BitVec.extractLsb'_toNat, Nat.shiftRight_eq_div_pow, BitVec.toNat_ofNat]
    rw [putPair_g, h1, BitVec.ofNat_toNat]

theorem calown_post (d ch slot : Nat) (v : Byte) (s : State) :
    let fixed : Prop := slot = 0 ∨ slot = (if ch < 128 then 16 else 8) ∨ 0x90 ≤ v.toNat ∧ v.toNat ≤ 0xFE
    let rotation (u : State) : Nat := (u.clock - u.start) / (if ch < 128 then 256 else 512)
    let t := s.modDie d fun x => x.putOwner (s.rotation ch) ch slot v
    (∀ j, t.owner d ch j = s.owner d ch j) ∧ (fixed → s.onlyDie d (s.die d) t) ∧
    (¬ fixed → s.onlyDie d { s.die d with calPend := (s.die d).calPend ++ [(ch, slot, v, rotation s)] } t ∧
      ∀ u : State, u.die d = t.die d → rotation t < rotation u → u.owner d ch slot = v.toNat) := by
  intro fixed rotation t
  have hrot (u : State) : u.rotation ch = rotation u := rotation_eq u ch
  have hfix : (isMaint ch slot || (0x90 ≤ v.toNat && v.toNat ≤ 0xFE)) = true ↔ fixed := by
    simp only [Bool.or_eq_true, isMaint_iff, Bool.and_eq_true, decide_eq_true_eq, or_assoc, fixed]
  have honly := modDie_onlyDie s d fun x => x.putOwner (s.rotation ch) ch slot v
  by_cases h : fixed
  · have hp : (s.die d).putOwner (s.rotation ch) ch slot v = s.die d := if_pos (hfix.2 h)
    rw [hp] at honly
    refine ⟨fun j => ?_, fun _ => honly, fun hn => absurd h hn⟩
    unfold State.owner
    rw [honly.2.2]
    rfl
  · have hp : (s.die d).putOwner (s.rotation ch) ch slot v =
        { s.die d with calPend := (s.die d).calPend ++ [(ch, slot, v, s.rotation ch)] } := if_neg (hfix.not.2 h)
    rw [hp] at honly
    refine ⟨owner_pend rfl honly.2.2 rfl rfl, fun hf => absurd hf h, fun _ => ⟨hrot s ▸ honly, fun u hu hlt => ?_⟩⟩
    refine owner_of_pend (l := (s.die d).calPend) (rot := s.rotation ch) ?_ (by rw [hrot, hrot]; exact hlt) ?_
    · rw [hu, honly.2.2]
    · exact Bool.eq_false_iff.2 fun hm => h (hfix.1 (by rw [hm]; rfl))

theorem framecfg_post (d : Nat) (v : DWord) (s : State) : let t := s.putFramecfg d v.toNat
    t = { s with dies := t.dies, tasks := t.tasks } ∧ (∀ n, n ≠ d → t.die n = s.die n) ∧
    t.die d = { s.die d with agesh := v.setWidth 4, lastTick := s.clock } ∧
    (t.tasks = s.tasks.map fun x => { x with frames := x.frames.map (s.older d) }) ∧
    ((s.die d).agesh = 15 → (∀ x, x ∈ s.tasks → ∀ f, f ∈ x.frames → f.age < 2 ^ 32) → t.tasks = s.tasks) := by
  have htasks := putFramecfg_tasks s d v.toNat
  refine ⟨rfl, fun n hn => ?_, ?_, htasks, fun ha hf => htasks.trans (map_older_of_off ha hf)⟩
  · rw [framecfg_die, if_neg hn]
  · rw [framecfg_die, if_pos rfl, BitVec.ofNat_toNat]

theorem preemption_post {i : Instr} {on : Nat → Bool} {s : State} (hf : s.bootFailed = false)
    (hi : (i = .preemptionRequestDie 0 ∧ on = fun n => decide (n < 144)) ∨
      (i = .preemptionRequestDie 1 ∧ on = fun n => decide (144 ≤ n)) ∨
      (i = .preemptionRequestPackage ∧ on = fun _ => true)) :
    Completes i s fun t => t = { s with cores := t.cores } ∧ ∀ n, t.core n =
      if on n = true ∧ n < 288 ∧ n % 144 ≠ 0
        then { s.core n with preq := true, event := (s.core n).event || !(s.core n).preq } else s.core n := by
  have hc (f : State → State) : ctlEvent f s = .next (f s) := (ctlEvent_eq f s).trans (by rw [hf]; rfl)
  rcases hi with ⟨rfl, rfl⟩ | ⟨rfl, rfl⟩ | ⟨rfl, rfl⟩
  · refine ⟨_, hc fun s => s.preempt 0, (preempt_post s 0).1, fun n => ((preempt_post s 0).2 n).trans ?_⟩
    have hb : (n / 144 = 0 ∧ n % 144 ≠ 0) ↔ (decide (n < 144) = true ∧ n < 288 ∧ n % 144 ≠ 0) := by
      rw [decide_eq_true_eq]; omega
    simp only [hb]
    rfl
  · refine ⟨_, hc fun s => s.preempt 1, (preempt_post s 1).1, fun n => ((preempt_post s 1).2 n).trans ?_⟩
    have hb : (n / 144 = 1 ∧ n % 144 ≠ 0) ↔ (decide (144 ≤ n) = true ∧ n < 288 ∧ n % 144 ≠ 0) := by
      rw [decide_eq_true_eq]; omega
    simp only [hb]
    rfl
  · obtain ⟨h0, hk0⟩ := preempt_post s 0
    obtain ⟨h1, hk1⟩ := preempt_post (s.preempt 0) 1
    refine ⟨_, hc fun s => (s.preempt 0).preempt 1, h1.trans (by rw [h0]), fun n => (hk1 n).trans ?_⟩
    rw [hk0]
    by_cases hn : n % 144 ≠ 0 ∧ n < 288
    · rw [if_pos (⟨rfl, hn.2, hn.1⟩ : true = true ∧ _)]
      by_cases h144 : n / 144 = 0
      · rw [if_neg (by omega), if_pos ⟨h144, hn.1⟩]
        rfl
      · rw [if_pos ⟨by omega, hn.1⟩, if_neg (by omega)]
        rfl
    · rw [if_neg (by omega), if_neg (by omega), if_neg (by omega)]

/-- Settles O56: each write is one function of the state, whose effect the lemmas above give register by register. -/
theorem controlWriteEvents : Obligations.ControlWriteEvents := by
  unfold Obligations.ControlWriteEvents
  have hc (f : State → State) {s : State} (hf : s.bootFailed = false) : ctlEvent f s = .next (f s) :=
    (ctlEvent_eq f s).trans (by rw [hf]; rfl)
  refine ⟨fun die off v s hf => ⟨fun n h => ?_, fun h => ?_⟩, fun n r q v s hf hr => window_post n r q v s hf hr,
    fun n off v s ho => ?_, fun d v s hf => ⟨_, hc (fun s => s.putFramecfg d v.toNat) hf, framecfg_post d v s⟩,
    fun d ch slot v s hf hch hsl => ⟨_, ?_, calown_post d ch slot v s⟩,
    fun d g w v s hf => ⟨_, hc (fun s => s.putGroup d g w v.toNat) hf, groupEntry_post d g w v s⟩, fun n w v s hf hw => ?_,
    fun d v s hf hm => ⟨_, hc (fun s => s.putMbtail d v.toNat) hf, ?_⟩, fun d v s => ⟨_, rfl, ?_⟩,
    fun i on s hi hf => preemption_post hf hi, fun i s hf h => exec_unserved hf h⟩
  · refine ⟨_, exec_registerWrite_plain h die v hf, rfl, fun d hd => by rw [die_modDie, if_neg hd], fun o m ho => ?_⟩
    rw [ctlRead_plain ho, ctlRead_plain ho, die_modDie, if_pos rfl]
    split
    · next he => rw [he, plain_putPlain_same h]
    · next he => rw [plain_putPlain_other h he]
  · exact exec_registerWrite_ignored die v (h.imp_right .inl)
  · refine (ctlEvent_eq _ s).trans ?_
    simp [ho]
  · refine (hc _ hf).trans ?_
    rw [if_pos (by rw [slotsOf_eq, Bool.and_eq_true, decide_eq_true_eq, decide_eq_true_eq]; exact ⟨hch, hsl⟩)]
  · have he (x : TChan) : (x.w0.getLsbD 0 && 12 ≤ x.rlog && x.rlog ≤ 28) = x.enabled := (enabled_eq x).symm
    simp only [he]
    exact ⟨_, hc (fun s => s.putChcfg n w v.toNat) hf, chcfg_post n w v s hw⟩
  · rw [putMbtail_eq v hm]
    obtain ⟨-, ho, hd⟩ := modDie_onlyDie s d fun x => { x with mbtail := v.setWidth 31 }
    exact ⟨rfl, ho, hd, rfl⟩
  · show s.onlyDie d _ (s.putAttreq d v.toNat)
    rw [State.putAttreq, BitVec.ofNat_toNat, BitVec.setWidth_eq]
    exact modDie_onlyDie s d fun x => { x with attreq := some v }

end Sys2Proof.Machine

namespace Sys2Proof.Machine

/-! What the task hardware leaves of the cores: everything but their event flags (R339, R405). -/

/-- `t` has the cores of `b`, whatever their event flags, and the same sequencer runs. -/
structure State.sameCores (b t : State) : Prop where
  cur : t.cur = b.cur
  curSeq : t.curSeq = b.curSeq
  core : ∀ n, t.core n = { b.core n with event := (t.core n).event }

theorem sameCores_of_cores {b t : State} (hc : t.cores = b.cores) (h : t.cur = b.cur) (hq : t.curSeq = b.curSeq) :
    b.sameCores t := ⟨h, hq, fun n => by unfold State.core; rw [hc]⟩

theorem State.sameCores.trans {b s t : State} (h : b.sameCores s) (g : s.sameCores t) : b.sameCores t :=
  ⟨g.cur.trans h.cur, g.curSeq.trans h.curSeq, fun n => (g.core n).trans (by rw [h.core n])⟩

theorem State.sameCores.me {b t : State} (h : b.sameCores t) : t.me = { b.me with event := t.me.event } := by
  unfold State.me
  rw [h.cur]
  exact h.core b.cur

theorem xlOnly.sameCores {b t : State} (h : xlOnly b t) : b.sameCores t := by
  rw [xlOnly] at h
  exact sameCores_of_cores (by rw [h]) (by rw [h]) (by rw [h])

/-- Work that leaves the cores but for their event flags, in the terms of `State.retires`. -/
theorem State.sameCores.does {s w : State} (h : s.sameCores w) : s.does [] w w.me s.mySeq w :=
  does_of h.cur h.curSeq (by rw [h.me])

theorem State.sameCores.mySeq {s w : State} (h : s.sameCores w) : w.mySeq = s.mySeq := by
  unfold State.mySeq
  rw [h.curSeq, h.me]
  cases s.curSeq <;> rfl

theorem State.sameCores.g {s w : State} (h : s.sameCores w) (n : Nat) : w.g n = s.g n := h.does.g (by simp)

section
variable {b : State}

/-- What only translates, or publishes, keeps the cores. -/
theorem keepsCores_of_xl {α : Type} {m : Op α} (h : ∀ b, Keeps (xlOnly b) m) : Keeps (State.sameCores b) m := fun s hs =>
  ⟨fun a t e => hs.trans ((h s s (xlOnly_refl s)).1 a t e).sameCores,
   fun x t e => hs.trans ((h s s (xlOnly_refl s)).2 x t e).sameCores⟩

theorem xlOnly_foldl {α : Type} {f : State → α → State} (hf : ∀ u x, xlOnly u (f u x)) :
    ∀ (l : List α) (s : State), xlOnly s (l.foldl f s)
  | [], s => xlOnly_refl s
  | x :: l, s => (hf s x).trans (xlOnly_foldl hf l (f s x))

theorem xlOnly_wr (s : State) (a : Nat) (bs : List Byte) : xlOnly s (s.wr a bs) := rfl

theorem xlOnly_setPoison (s : State) (g n : Nat) (v : Bool) : xlOnly s (s.setPoison g v n) := by
  rw [xlOnly, setPoison_eq]

theorem xlOnly_logPubs (s : State) (g n : Nat) : xlOnly s (s.logPubs g n) := by
  rw [xlOnly, logPubs_eq]

theorem xlOnly_publishGranule (s : State) (g : Nat) (bs : List (Nat × RByte)) : xlOnly s (s.publishGranule g bs) := by
  have h := (xlOnly_logPubs s g 1).trans
    (xlOnly_foldl (f := fun s (b : Nat × RByte) => s.wr (8 * g + b.1) [b.2.1]) (fun u b => xlOnly_wr u _ _) bs _)
  unfold State.publishGranule
  dsimp only
  split
  · exact h.trans (xlOnly_setPoison _ g 1 true)
  · split
    · exact h.trans (xlOnly_setPoison _ g 1 false)
    · exact h

theorem xlOnly_publishBytes (s : State) (a : Nat) (bs : List RByte) : xlOnly s (s.publishBytes a bs) := by
  refine xlOnly_foldl (fun u i => ?_) _ s
  dsimp only
  split
  · exact xlOnly_refl u
  · exact xlOnly_publishGranule u _ _

theorem xlOnly_dropHostLines (s : State) : xlOnly s s.dropHostLines := by
  refine xlOnly_foldl (fun u g => ?_) _ s
  unfold State.refreshGranule
  dsimp only
  split
  · exact xlOnly_refl u
  · refine Eq.trans (congrArg (fun z : State => { z with hostDirty := u.hostDirty }) (xlOnly_publishGranule u g _)) ?_
    rfl

theorem xl_xlAgent (agent die ctx : Nat) (acc : Acc) (va : Nat) : Keeps (xlOnly b) (xlAgent agent die ctx acc va) := by
  refine keeps_bind (xl_xlate _ _ _ _ _ _) fun x => ?_
  split
  · exact keeps_pure _
  · exact keeps_throwWait
  · exact keeps_throwWait
  · exact keeps_pure _

theorem xl_agBytes (agent die ctx va n : Nat) : Keeps (xlOnly b) (agBytes agent die ctx va n) :=
  keeps_ite (keeps_pure _) (keeps_bind (keeps_collect fun _ => keeps_bind (xl_xlAgent _ _ _ _ _) fun _ => keeps_pure _)
    fun _ => keeps_get_bind fun _ _ => keeps_pure _)

theorem xl_agRead (agent die ctx va n : Nat) : Keeps (xlOnly b) (agRead agent die ctx va n) := by
  refine keeps_bind (xl_agBytes _ _ _ _ _) fun r => ?_
  split
  · exact keeps_pure _
  · exact keeps_pure _

theorem xl_agWords (agent die ctx va n : Nat) : Keeps (xlOnly b) (agWords agent die ctx va n) := by
  refine keeps_bind (xl_agBytes _ _ _ _ _) fun r => ?_
  split
  · exact keeps_pure _
  · exact keeps_ite (keeps_pure _) (keeps_pure _)

theorem xl_agWriteBytes (agent die ctx va : Nat) (bs : List RByte) : Keeps (xlOnly b) (agWriteBytes agent die ctx va bs) :=
  keeps_ite (keeps_pure _) (keeps_bind (keeps_collect fun _ => keeps_bind (xl_xlAgent _ _ _ _ _) fun _ => keeps_pure _)
    fun _ => keeps_ite (keeps_pure _) (keeps_bind
      (keeps_collect fun _ => keeps_modify fun s h => h.trans (xlOnly_publishBytes s _ _)) fun _ => keeps_pure _))

theorem xl_readTcb (die ctx h : Nat) : Keeps (xlOnly b) (readTcb die ctx h) := by
  refine keeps_bind (keeps_ctxEnt _ _ _) fun c => keeps_ite (keeps_pure _) (keeps_bind (xl_agWords _ _ _ _ _) fun r => ?_)
  split
  · exact keeps_pure _
  · exact keeps_pure _

theorem xl_prepTask (die ctx h : Nat) (fresh : Bool) (count : Option Nat) :
    Keeps (xlOnly b) (prepTask die ctx h fresh count) := by
  unfold prepTask
  dsimp only
  repeat' (first
    | with_reducible exact keeps_pure _
    | with_reducible exact xl_readTcb _ _ _
    | with_reducible exact xl_agWords _ _ _ _ _
    | with_reducible exact xl_agRead _ _ _ _ _
    | (with_reducible refine keeps_get_bind fun _ _ => ?_)
    | (with_reducible refine keeps_bind ?_ fun _ => ?_)
    | split)

/-! Messages (R290). -/

theorem sameCores_mailOne (s : State) (d : Nat) : s.sameCores (s.mailOne d) := by
  unfold State.mailOne
  dsimp only
  split
  · exact (xlOnly_refl s).sameCores
  · split
    · have h (u : State) (a v : Nat) : xlOnly u (u.publishN a 8 v) := xlOnly_publishN (xlOnly_refl u) a 8 v
      exact ((((h s _ _).trans (h _ _ _)).trans (h _ _ _)).trans (h _ _ _)).sameCores.trans (sameCores_of_cores rfl rfl rfl)
    · exact (xlOnly_refl s).sameCores

theorem sameCores_mailDrain (d : Nat) : ∀ (n : Nat) (s : State), s.sameCores (s.mailDrain d n)
  | 0, s => (xlOnly_refl s).sameCores
  | n + 1, s => (sameCores_mailOne s d).trans (sameCores_mailDrain d n (s.mailOne d))

theorem sameCores_postUnit (s : State) (d source sub w1 w2 w3 : Nat) : s.sameCores (s.postUnit d source sub w1 w2 w3) :=
  State.sameCores.trans (s := s.modDie d _) (sameCores_of_cores rfl rfl rfl) (sameCores_mailDrain d _ _)

theorem cores_tellPoison (die ctx h : Nat) : Keeps (State.sameCores b) (tellPoison die ctx h) :=
  keeps_bind (keeps_ctxEnt _ _ _) fun _ => keeps_bind
    (keeps_bind (keepsCores_of_xl fun _ => xl_agBytes _ _ _ _ _) fun _ => keeps_pure _) fun _ =>
    keeps_ite (keeps_modify fun s h => h.trans (sameCores_postUnit s _ _ _ _ _ _)) (keeps_pure _)

theorem cores_putTcb (die ctx h off n v : Nat) : Keeps (State.sameCores b) (putTcb die ctx h off n v) := by
  refine keeps_bind (keeps_ctxEnt _ _ _) fun c => keeps_bind (keepsCores_of_xl fun b => xl_agWriteBytes _ _ _ _ _) fun r =>
    keeps_ite (keeps_modify fun s h => h.trans (sameCores_postUnit s _ _ _ _ _ _)) (keeps_pure _)

end

/-! A block starts on a core (R29, R30, R40, R88). -/

/-- Scalar registers of a core written besides, the rest kept. -/
structure Core.regsOnly (k k' : Core) : Prop where
  core : k' = { k with l := k'.l, x := k'.x, s := k'.s, c := k'.c, pg := k'.pg, pgPoison := k'.pgPoison }
  seq : ∀ p, k'.seq p = { k.seq p with g := (k'.seq p).g, gPoison := (k'.seq p).gPoison }

theorem Core.regsOnly.refl (k : Core) : k.regsOnly k := ⟨rfl, fun _ => rfl⟩

theorem Core.regsOnly.trans {k k' k'' : Core} (h : k.regsOnly k') (h' : k'.regsOnly k'') : k.regsOnly k'' :=
  ⟨h'.core.trans (congrArg (fun z : Core => { z with
      l := k''.l, x := k''.x, s := k''.s, c := k''.c, pg := k''.pg, pgPoison := k''.pgPoison }) h.core),
    fun p => (h'.seq p).trans (congrArg (fun y : Seq => { y with g := (k''.seq p).g, gPoison := (k''.seq p).gPoison }) (h.seq p))⟩

theorem Core.regsOnly_setG (k : Core) (q : SeqId) (n : Nat) (v : Word) : k.regsOnly (k.setG q n v) := by
  refine ⟨k.setG_eq q n v, fun p => ?_⟩
  rw [Core.setG_seq]
  split
  · subst_vars; rfl
  · rfl

theorem Core.regsOnly.onPriv {k k' : Core} (h : k.regsOnly k') (q : SeqId) : k'.onPriv q = k.onPriv q := by
  unfold Core.onPriv
  rw [h.core]

/-- A register of another sequencer. -/
theorem Core.g_setG_other (k : Core) {q p : SeqId} (h : p ≠ q) (n m : Nat) (v : Word) :
    (k.setG q n v).g p m = k.g p m := by
  have hp := (k.regsOnly_setG q n v).onPriv p
  have hs := k.setG_seq q p n v
  rw [if_neg h] at hs
  unfold Core.g
  rw [hp, hs]
  split
  · rfl
  · split
    · next h0 hb =>
      have hq : k.onPriv q = false := by
        cases p <;> cases q <;> simp_all [Core.onPriv]
      have hb := k.setG_bank q n v
      rw [hq, if_neg (by decide)] at hb
      rw [hb.1]
    · rfl

/-- The registers G56 to G60 of sequencer `q` as the block gives them (R88). -/
def Core.given (k : Core) (i : TaskInfo) (b : Nat) (pf : Bool) (q : SeqId) : Core :=
  ((((k.setG q 56 (BitVec.ofNat 32 i.tag)).setG q 57 (BitVec.ofNat 32 i.phase)).setG q 58
    (BitVec.ofNat 32 b)).setG q 59 (BitVec.ofNat 32 i.h)).setG q 60 (if pf then 1 else 0)

section
variable (k : Core) (i : TaskInfo) (b : Nat) (pf : Bool) (q : SeqId)

theorem Core.regsOnly_given : k.regsOnly (k.given i b pf q) :=
  ((((k.regsOnly_setG q _ _).trans (Core.regsOnly_setG _ q _ _)).trans (Core.regsOnly_setG _ q _ _)).trans
    (Core.regsOnly_setG _ q _ _)).trans (Core.regsOnly_setG _ q _ _)

theorem Core.g_given (n : Nat) : (k.given i b pf q).g q n = startReg i b pf (k.g q) n := by
  have h0 : k.g q 0 = 0 := rfl
  simp only [Core.given, Core.g_setG, startReg]
  by_cases hn : n = 0
  · simp [hn, h0]
  · simp only [hn, if_false]
    grind

theorem Core.g_given_other {p : SeqId} (h : p ≠ q) (n : Nat) : (k.given i b pf q).g p n = k.g p n := by
  simp only [Core.given, Core.g_setG_other _ h]

end

/-- A sequencer at the start of block `b` (R29, R30, R40). -/
def Seq.begun (x : Seq) (i : TaskInfo) (b : Nat) (q : SeqId) : Seq :=
  let li := (List.range 6).foldl (fun m k => Store.set 0 m k (BitVec.ofNat 24 (i.li b k))) ([] : Store (BitVec 24))
  let x := { x with li, crc := 0xFFFFFFFF }
  let e := i.entries.getD q.code 0
  if q == .C then { x with depth := 0 }
  else { x with depth := 0, wait := none, pc := if e = 0 then x.pc else BitVec.ofNat 64 e, parked := e == 0 }

/-- A core at the start of a block, its sequencers and registers apart. -/
def Core.assigned (k : Core) (i : TaskInfo) (b stamp : Nat) (pf re : Bool) (after : DWord) : Core :=
  { k with
    tag := BitVec.ofNat 16 i.tag, phase := BitVec.ofNat 2 i.phase, blk := BitVec.ofNat 24 b,
    tcbh := BitVec.ofNat 24 i.h, tokq := [], inHandler := false,
    cur := some { info := i, blk := b, stamp, pf, trig := false, relaunched := re,
                  ranges := [], untr := false, satr := false, fltd := false, after } }

/-- The sequencers of a core at the start of a block. -/
def Core.seqsBegun (k : Core) (i : TaskInfo) (b : Nat) : Core :=
  allSeqs.foldl (fun k q => k.modSeq q (·.begun i b q)) k

/-- The registers of the sequencers that start. -/
def Core.allGiven (k : Core) (i : TaskInfo) (b : Nat) (pf : Bool) : Core :=
  allSeqs.foldl (fun k q => if q != .C && i.entries.getD q.code 0 = 0 then k else k.given i b pf q) k

/-- A core at the start of a block. -/
def Core.begun (k : Core) (t : Task) (b stamp : Nat) (after : DWord) : Core :=
  ((k.assigned t.info b stamp t.pf t.relaunch.isSome after).seqsBegun t.info b).allGiven t.info b t.pf

theorem begun_li (x : Seq) (i : TaskInfo) (b : Nat) (q : SeqId) {n : Nat} (hn : n < 6) :
    Store.get 0 (x.begun i b q).li n = BitVec.ofNat 24 (i.li b n) := by
  have h : (x.begun i b q).li =
      (List.range 6).foldl (fun m k => Store.set 0 m k (BitVec.ofNat 24 (i.li b k))) ([] : Store (BitVec 24)) := by
    cases q <;> rfl
  have hn' : n = 0 ∨ n = 1 ∨ n = 2 ∨ n = 3 ∨ n = 4 ∨ n = 5 := by omega
  rw [h]
  simp only [List.range_succ, List.range_zero, List.nil_append, List.foldl_append, List.foldl_cons, List.foldl_nil, Store.get_set]
  rcases hn' with rfl | rfl | rfl | rfl | rfl | rfl <;> rfl

section
variable (k : Core) (i : TaskInfo) (b : Nat) (pf : Bool)

theorem seqsBegun_seq (p : SeqId) : (k.seqsBegun i b).seq p = (k.seq p).begun i b p := by
  cases p <;> simp [Core.seqsBegun, allSeqs]

theorem seqsBegun_g (q : SeqId) (n : Nat) : (k.seqsBegun i b).g q n = k.g q n := by
  have h : ((k.seqsBegun i b).seq q).g = (k.seq q).g := by rw [seqsBegun_seq]; cases q <;> rfl
  unfold Core.g
  rw [h]
  rfl

/-- Whether sequencer `q` receives the registers of a block: the C-seq, and each with a kernel (R88). -/
def TaskInfo.gives (i : TaskInfo) (q : SeqId) : Bool := q == .C || i.entries.getD q.code 0 != 0

/-- The registers of sequencer `q`, if it starts. -/
def Core.givenIf (k : Core) (i : TaskInfo) (b : Nat) (pf : Bool) (q : SeqId) : Core :=
  if i.gives q then k.given i b pf q else k

theorem regsOnly_givenIf (q : SeqId) : k.regsOnly (k.givenIf i b pf q) := by
  unfold Core.givenIf
  split
  · exact k.regsOnly_given i b pf q
  · exact .refl k

theorem g_givenIf (q p : SeqId) (n : Nat) : (k.givenIf i b pf q).g p n =
    if p = q ∧ i.gives q = true then startReg i b pf (k.g p) n else k.g p n := by
  unfold Core.givenIf
  by_cases hq : i.gives q = true
  · rw [if_pos hq]
    by_cases hp : p = q
    · rw [if_pos ⟨hp, hq⟩, hp, Core.g_given]
    · rw [if_neg fun h => hp h.1, Core.g_given_other _ _ _ _ _ hp]
  · rw [if_neg hq, if_neg fun h => hq h.2]

theorem allGiven_eq : k.allGiven i b pf = allSeqs.foldl (fun k q => k.givenIf i b pf q) k := by
  have h (q : SeqId) (k : Core) :
      (if q != .C && i.entries.getD q.code 0 = 0 then k else k.given i b pf q) = k.givenIf i b pf q := by
    cases q <;> simp [Core.givenIf, TaskInfo.gives]
  simp only [Core.allGiven, h]

/-- The registers of all sequencers of a list without repetition. -/
theorem givenSome (l : List SeqId) (hl : l.Nodup) (k : Core) : let k' := l.foldl (fun k q => k.givenIf i b pf q) k
    k.regsOnly k' ∧ ∀ q n, k'.g q n = if q ∈ l ∧ i.gives q = true then startReg i b pf (k.g q) n else k.g q n := by
  induction l generalizing k with
  | nil => exact ⟨.refl k, fun q n => by simp⟩
  | cons p l ih =>
    obtain ⟨hp, hl⟩ := List.nodup_cons.1 hl
    obtain ⟨hr, hg⟩ := ih hl (k.givenIf i b pf p)
    refine ⟨(regsOnly_givenIf k i b pf p).trans hr, fun q n => (hg q n).trans ?_⟩
    by_cases hq : q = p
    · subst hq
      rw [if_neg fun h => hp h.1, g_givenIf]
      simp
    · have hk (m : Nat) : (k.givenIf i b pf p).g q m = k.g q m := by rw [g_givenIf, if_neg fun h => hq h.1]
      simp only [List.mem_cons, hq, false_or, startReg, hk]

theorem regsOnly_allGiven : k.regsOnly (k.allGiven i b pf) := by
  rw [allGiven_eq]
  exact (givenSome i b pf allSeqs (by decide) k).1

theorem g_allGiven (q : SeqId) (n : Nat) : (k.allGiven i b pf).g q n =
    if i.gives q = true then startReg i b pf (k.g q) n else k.g q n := by
  rw [allGiven_eq, (givenSome i b pf allSeqs (by decide) k).2]
  have hq : q ∈ allSeqs := by cases q <;> decide
  simp only [hq, true_and]

end

section
variable (k : Core) (t : Task) (b stamp : Nat) (after : DWord)

/-- The sequencers of a core at the start of a block, their registers apart. -/
theorem begun_seq (p : SeqId) : (k.begun t b stamp after).seq p = { (k.seq p).begun t.info b p with
    g := ((k.begun t b stamp after).seq p).g, gPoison := ((k.begun t b stamp after).seq p).gPoison } := by
  refine ((regsOnly_allGiven _ t.info b t.pf).seq p).trans ?_
  rw [seqsBegun_seq]
  have h : (k.assigned t.info b stamp t.pf t.relaunch.isSome after).seq p = k.seq p := by cases p <;> rfl
  rw [h]
  rfl

theorem begun_core : k.begun t b stamp after = { k.assigned t.info b stamp t.pf t.relaunch.isSome after with
    l := (k.begun t b stamp after).l, x := (k.begun t b stamp after).x, s := (k.begun t b stamp after).s,
    c := (k.begun t b stamp after).c, pg := (k.begun t b stamp after).pg, pgPoison := (k.begun t b stamp after).pgPoison } :=
  (regsOnly_allGiven _ t.info b t.pf).core

theorem begun_g (q : SeqId) (n : Nat) : (k.begun t b stamp after).g q n =
    if t.info.gives q = true then startReg t.info b t.pf (k.g q) n else k.g q n := by
  have h (m : Nat) : ((k.assigned t.info b stamp t.pf t.relaunch.isSome after).seqsBegun t.info b).g q m = k.g q m := by
    rw [seqsBegun_g]
    cases q <;> rfl
  unfold Core.begun
  rw [g_allGiven]
  simp only [startReg, h]

end

/-- The acquire of a block's start (R226). -/
def State.acquiredAt (s : State) (c sc : Nat) : State :=
  let u := if hostScope sc then s.dropHostLines else s
  if 2 ≤ sc then u.modCore c (fun k => { k with acq := u.npub, seen := [], l1 := [] }) else u

theorem acquire_run (c sc : Nat) (s : State) : acquire c sc s = .ok () (s.acquiredAt c sc) := by
  unfold acquire State.acquiredAt
  cases hostScope sc <;> by_cases h : 2 ≤ sc <;> simp [h]

/-- Where the C-seq goes when a block starts. -/
def TaskInfo.entryC (i : TaskInfo) (after : DWord) : DWord :=
  if i.entries.getD 3 0 = 0 then after else BitVec.ofNat 64 (i.entries.getD 3 0)

theorem startBlock_run (c : Nat) (t : Task) (b stamp : Nat) (after : DWord) (s : State) :
    startBlock c t b stamp after s = .ok (t.info.entryC after)
      ((s.acquiredAt c t.info.scope).modCore c (·.begun t b stamp after)) := by
  unfold startBlock
  dsimp only
  rw [run_bind_ok (acquire_run _ _ _), run_modify_bind]
  rfl

/-! TQPOP (R29, R38, R88, R359). -/

/-- A step that has led to `b` has succeeded, and so has what comes after it. -/
theorem run_bind_inv {α β : Type} {m : Op α} {k : α → Op β} {s t : State} {b : β} (h : (m >>= k) s = .ok b t) :
    ∃ a u, m s = .ok a u ∧ k a u = .ok b t := by
  rw [run_bind] at h
  split at h
  · exact ⟨_, _, ‹_›, h⟩
  · cases h

/-- A pop that finds no block leaves the frame's ticks counted and nothing else. -/
theorem popBlock_none {c : Nat} {s s1 : State} (h : popBlock c s = .ok none s1) : s1 = s.ageSync (dieOfCore c) := by
  unfold popBlock at h
  rw [run_modify_bind, run_get_bind] at h
  split at h
  · cases h; rfl
  · cases hb : bestTask ((s.ageSync (dieOfCore c)).candidates c) with
    | none => rw [hb] at h; cases h; rfl
    | some t =>
      rw [hb] at h
      dsimp only at h
      cases ht : t.handOut (dieOfCore c) with
      | none => rw [ht] at h; cases h; rfl
      | some p =>
        rw [ht] at h
        obtain ⟨_, _, -, h⟩ := run_bind_inv h
        obtain ⟨_, _, -, h⟩ := run_bind_inv h
        obtain ⟨_, _, -, h⟩ := run_bind_inv h
        cases h

theorem sameCores_ageSync (s : State) (d : Nat) : s.sameCores (s.ageSync d) := sameCores_of_cores rfl rfl rfl

theorem cores_popBlock {b : State} (c : Nat) : Keeps (State.sameCores b) (popBlock c) := by
  unfold popBlock
  refine keeps_bind (keeps_modify fun s h => h.trans (sameCores_ageSync s _)) fun _ => keeps_get_bind fun s _ => ?_
  split
  · exact keeps_pure _
  · split
    · exact keeps_pure _
    · split
      · exact keeps_pure _
      · exact keeps_bind (keeps_modify fun s h => h.trans (sameCores_of_cores rfl rfl rfl)) fun _ =>
          keeps_bind (cores_putTcb _ _ _ _ _ _) fun _ => keeps_bind (cores_putTcb _ _ _ _ _ _) fun _ => keeps_pure _

theorem sameCores_popBlock {c : Nat} {s s1 : State} {r : Option (Task × Nat)} (h : popBlock c s = .ok r s1) :
    s.sameCores s1 :=
  (cores_popBlock c s (xlOnly_refl s).sameCores).1 r s1 h

/-- An attempt that has marked no die leaves the state as it was, but for translations asked for and values drawn. -/
theorem leaveMarks_none {s' t : State} {d : Nat} (hp : (s'.die d).pools = (t.die d).pools)
    (hf : (s'.die d).fullseen = (t.die d).fullseen) : leaveMarks s' d t = t := by
  have hk (k : Nat) : (s'.die d).pool k = (t.die d).pool k := by unfold Die.pool; rw [hp]
  unfold leaveMarks
  dsimp only
  rw [hf]
  simp only [hk]
  have key : ∀ l : List Nat, l.foldl (fun (y : Die) (k : Nat) =>
      if ((t.die d).pool k).empty && !(y.pool k).empty then y.setPool k { y.pool k with empty := true } else y)
      (t.die d) = t.die d := by
    intro l
    induction l with
    | nil => rfl
    | cons k l ih =>
      have e : (((t.die d).pool k).empty && !((t.die d).pool k).empty) = false := by simp
      rw [List.foldl_cons, e, if_neg (by decide)]
      exact ih
  rw [key]
  simp

theorem errState_ageSync (s : State) (d : Nat) : errState s (s.ageSync d) = s := by
  have hd (n : Nat) : ((s.ageSync d).die n).pools = (s.die n).pools ∧ ((s.ageSync d).die n).fullseen = (s.die n).fullseen := by
    have h : (s.ageSync d).die n = (s.modDie d (fun x => { x with lastTick := s.clock })).die n := rfl
    rw [h, die_modDie]
    split
    · next e => rw [e]; exact ⟨rfl, rfl⟩
    · exact ⟨rfl, rfl⟩
  show leaveMarks (s.ageSync d) 1 (leaveMarks (s.ageSync d) 0 s) = s
  rw [leaveMarks_none (hd 0).1 (hd 0).2, leaveMarks_none (hd 1).1 (hd 1).2]

/-- The core that runs may be given a block: none is current, and the other three sequencers are parked (R359). -/
def State.popFree (s : State) : Prop :=
  s.me.cur = none ∧ s.me.l.parked = true ∧ s.me.x.parked = true ∧ s.me.s.parked = true

section
variable {s : State} (rd : Nat) (to_ : Option Nat)

theorem tqpopBody_current (h : s.me.cur ≠ none) : tqpopBody rd to_ s = .ok .next (s.setG rd 0) := by
  have hc : s.me.cur.isSome = true := Option.isSome_iff_ne_none.2 h
  simp only [tqpopBody, run_get_bind, hc, if_true, run_set_bind, run_pure]

theorem tqpopBody_busy (h : s.me.cur = none) (hf : ¬ s.popFree) : tqpopBody rd to_ s = .error (.wait false) s := by
  have hp : (!(s.me.l.parked && s.me.x.parked && s.me.s.parked)) = true := by
    rw [Bool.not_eq_true', ← Bool.not_eq_true, Bool.and_eq_true, Bool.and_eq_true]
    exact fun hp => hf ⟨h, hp.1.1, hp.1.2, hp.2⟩
  simp only [tqpopBody, run_get_bind, h, Option.isSome_none, hp, Bool.false_eq_true, if_false, if_true]
  rfl

/-- With room for a block the pop comes next. -/
theorem tqpopBody_pops (hf : s.popFree) : tqpopBody rd to_ s = (popBlock s.cur >>= fun r => match r with
    | some (t, b) => deliver rd t b
    | none => do
      let s ← get
      if s.popExpired to_ s.issuedAt && !s.popSoon s.cur then do
        set (s.setG rd 4)
        return .next
      else throwWait) s := by
  obtain ⟨hc, hl, hx, hs⟩ := hf
  simp only [tqpopBody, run_get_bind, hc, hl, hx, hs, Option.isSome_none, Bool.and_self, Bool.not_true, Bool.false_eq_true,
    if_false] <;> rfl

variable {s1 : State} (hf : s.popFree) (hp : popBlock s.cur s = .ok none s1)
include hf hp

theorem tqpopBody_expired (he : s1.popExpired to_ s1.issuedAt = true) (hs : s1.popSoon s.cur = false) :
    tqpopBody rd to_ s = .ok .next (s1.setG rd 4) := by
  rw [tqpopBody_pops rd to_ hf, run_bind_ok hp]
  have hc : s1.cur = s.cur := (sameCores_popBlock hp).cur
  simp only [run_get_bind, he, hc, hs, Bool.not_false, Bool.and_self, if_true, run_set_bind, run_pure]

theorem tqpopBody_none (h : s1.popExpired to_ s1.issuedAt = false ∨ s1.popSoon s.cur = true) :
    tqpopBody rd to_ s = .error (.wait false) s1 := by
  rw [tqpopBody_pops rd to_ hf, run_bind_ok hp]
  have hc : s1.cur = s.cur := (sameCores_popBlock hp).cur
  have hn : (s1.popExpired to_ s1.issuedAt && !s1.popSoon s.cur) = false := by
    rcases h with h | h <;> simp [h]
  simp only [run_get_bind, hc, hn, Bool.false_eq_true, if_false]
  rfl

end

/-- The launch stamp of a block that task `t` gives in `s`: that of its relaunch, or the context's (R258, R265). -/
def Task.stampsAt (t : Task) (s : State) (stamp : Nat) (u : State) : Prop :=
  (∃ p, t.relaunch = some p ∧ stamp = p.1 ∧ u = s) ∨ (t.relaunch = none ∧ stampNow s.myDie t.info.ctx s = .ok stamp u)

/-- The read of a launch stamp changes nothing. -/
theorem Task.stampsAt.eq {t : Task} {s u : State} {stamp : Nat} (h : t.stampsAt s stamp u) : u = s := by
  rcases h with ⟨_, -, -, hu⟩ | ⟨-, hu⟩
  · exact hu
  · exact eq_of_keeps (fun I => keeps_bind (keeps_ctxEnt I _ _) fun _ => keeps_pure _) hu

/-- The state in which block `b` of task `t` has started on the core that runs, its TQPOP's RD written (R29, R359). -/
def State.startedHere (s : State) (t : Task) (b stamp rd : Nat) : State :=
  ((s.acquiredAt s.cur t.info.scope).modCore s.cur (·.begun t b stamp (s.mySeq.pc + 8))).setG rd (1 + bitAt t.pf 1)

theorem deliver_run {rd b stamp : Nat} {t : Task} {s u : State} (hs : t.info.scope < 12) (h : t.stampsAt s stamp u) :
    deliver rd t b s = .ok (.goto (t.info.entryC (s.mySeq.pc + 8))) (s.startedHere t b stamp rd) := by
  have hu := h.eq
  subst hu
  have hsc : scopeOk t.info.scope = true := decide_eq_true hs
  have hstart := startBlock_run u.cur t b stamp (u.mySeq.pc + 8) u
  unfold deliver
  rw [run_get_bind, run_need_bind, if_pos hsc]
  rcases h with ⟨p, hr, rfl, -⟩ | ⟨hr, hst⟩
  · rw [hr]
    simp only
    rw [run_pure_bind, run_bind_ok hstart, run_modify_bind]
    rfl
  · rw [hr]
    simp only
    rw [run_bind_ok hst, run_bind_ok hstart, run_modify_bind]
    rfl

theorem tqpopBody_delivers {s s1 u : State} (rd : Nat) (to_ : Option Nat) {t : Task} {b stamp : Nat} (hf : s.popFree)
    (hp : popBlock s.cur s = .ok (some (t, b)) s1) (hs : t.info.scope < 12) (h : t.stampsAt s1 stamp u) :
    tqpopBody rd to_ s = .ok (.goto (t.info.entryC (s1.mySeq.pc + 8))) (s1.startedHere t b stamp rd) := by
  rw [tqpopBody_pops rd to_ hf, run_bind_ok hp]
  exact deliver_run hs h

/-! What the start of a block leaves (R29, R30, R40, R88, R226). -/

section
variable (s : State) (c sc : Nat)

theorem acquiredAt_eq : s.acquiredAt c sc =
    { (if hostScope sc then s.dropHostLines else s) with cores := (s.acquiredAt c sc).cores } := by
  unfold State.acquiredAt
  dsimp only
  split <;> rfl

/-- The die's host-half lines apart, an acquire changes the core's read cache alone. -/
theorem core_acquiredAt (n : Nat) : (s.acquiredAt c sc).core n =
    if n = c then { s.core c with acq := ((s.acquiredAt c sc).core c).acq, seen := ((s.acquiredAt c sc).core c).seen,
                                  l1 := ((s.acquiredAt c sc).core c).l1 } else s.core n := by
  have hd (m : Nat) : (if hostScope sc then s.dropHostLines else s).core m = s.core m := by
    split
    · have h := xlOnly_dropHostLines s
      rw [xlOnly] at h
      unfold State.core
      rw [h]
    · rfl
  unfold State.acquiredAt
  dsimp only
  split
  · simp only [core_modCore, hd, if_true]
  · simp only [hd]
    by_cases hn : n = c
    · rw [hn, if_pos rfl]
    · rw [if_neg hn]

theorem acquiredAt_cache (h : 2 ≤ sc) : let k := (s.acquiredAt c sc).core c
    k.acq = (if hostScope sc then s.dropHostLines else s).npub ∧ k.seen = [] ∧ k.l1 = [] := by
  simp only [State.acquiredAt, if_pos h, core_modCore, if_true]
  exact ⟨trivial, trivial, trivial⟩

end

/-- The scalar registers of every sequencer read the same after retirement. -/
theorem core_g_retire (c : Ctl) (p : Post) (u : State) (q : SeqId) (n : Nat) :
    (retire c p u).me.g q n = u.me.g q n := by
  have hp : (retire c p u).me.priv = u.me.priv := by rw [retire_me]
  have hpg : (retire c p u).me.pg = u.me.pg := by rw [retire_me]
  have hg : ((retire c p u).me.seq q).g = (u.me.seq q).g := by
    rw [retire_seq]
    split
    · subst_vars; cases p <;> rfl
    · rfl
  unfold Core.g Core.onPriv
  rw [hp, hpg, hg]

/-- A retirement that pushes no signal leaves empty token queues empty. -/
theorem tok_retire_empty {c : Ctl} (h : c.ssel = 0) (p : Post) {u : State} (hu : u.me.tokq = []) (n : Nat) :
    (retire c p u).me.tok n = 0 := by
  have ht (m : Nat) : u.me.tok m = 0 := by unfold Core.tok; rw [hu]; rfl
  have hm : (retire c p u).me.tok n = (popTokens c u).me.tok n := by
    unfold retire
    rw [pushSignal_none h, moved_me]
    simp only [Core.tok, modSeq_core_tokq]
  rw [hm, tok_popTokens, ht, Nat.zero_sub]

theorem startReg_congr {i : TaskInfo} {b : Nat} {pf : Bool} {f g : Nat → Word} (h : ∀ n, f n = g n) (n : Nat) :
    startReg i b pf f n = startReg i b pf g n := by
  simp only [startReg, h]

/-- The core that acquires as its block starts. -/
theorem acquired_core {s s1 : State} (hk : s.sameCores s1) (sc : Nat) : ∃ e a z l,
    (s1.acquiredAt s1.cur sc).core s1.cur = { s.me with event := e, acq := a, seen := z, l1 := l } := by
  have hm : s1.core s1.cur = { s.me with event := s1.me.event } := hk.me
  have h := core_acquiredAt s1 s1.cur sc s1.cur
  rw [if_pos rfl, hm] at h
  exact ⟨_, _, _, _, h⟩

section
variable (s : State) (t : Task) (b stamp rd : Nat)

theorem acquiredAt_cur (c sc : Nat) : (s.acquiredAt c sc).cur = s.cur := by
  rw [acquiredAt_eq]
  split
  · have h := xlOnly_dropHostLines s
    rw [xlOnly] at h
    rw [h]
  · rfl

theorem acquiredAt_curSeq (c sc : Nat) : (s.acquiredAt c sc).curSeq = s.curSeq := by
  rw [acquiredAt_eq]
  split
  · have h := xlOnly_dropHostLines s
    rw [xlOnly] at h
    rw [h]
  · rfl

theorem startedHere_coreOnly : (s.acquiredAt s.cur t.info.scope).coreOnly (s.startedHere t b stamp rd) := by
  have h := modMe_coreOnly (s.acquiredAt s.cur t.info.scope) (·.begun t b stamp (s.mySeq.pc + 8))
  rw [State.modMe, acquiredAt_cur] at h
  exact h.trans (core_setG _ rd _)

theorem startedHere_me : (s.startedHere t b stamp rd).me =
    (((s.acquiredAt s.cur t.info.scope).core s.cur).begun t b stamp (s.mySeq.pc + 8)).setG s.curSeq rd (1 + bitAt t.pf 1) := by
  rw [State.startedHere, me_setG]
  have hq : (((s.acquiredAt s.cur t.info.scope).modCore s.cur (·.begun t b stamp (s.mySeq.pc + 8)))).curSeq = s.curSeq :=
    acquiredAt_curSeq s _ _
  have hm : (((s.acquiredAt s.cur t.info.scope).modCore s.cur (·.begun t b stamp (s.mySeq.pc + 8)))).me =
      ((s.acquiredAt s.cur t.info.scope).core s.cur).begun t b stamp (s.mySeq.pc + 8) := by
    have hc : (((s.acquiredAt s.cur t.info.scope).modCore s.cur (·.begun t b stamp (s.mySeq.pc + 8)))).cur = s.cur :=
      acquiredAt_cur s _ _
    rw [State.me, hc, core_modCore, if_pos rfl]
  rw [hq, hm]

end

theorem gives_iff {i : TaskInfo} {q : SeqId} (h : q ≠ .C) : i.gives q = true ↔ i.entries.getD q.code 0 ≠ 0 := by
  rw [TaskInfo.gives, beq_eq_false_iff_ne.2 h, Bool.false_or, bne_iff_ne]

/-- What a core is given with a block, its own sequencer's position and RD apart, is what `Core.delivered` says of it. -/
theorem delivered_of {k : Core} (t : Task) (b stamp rd : Nat) (after : DWord) {u : State} (c : Ctl) (hq : u.curSeq = .C)
    (hu : u.me = (k.begun t b stamp after).setG .C rd (1 + bitAt t.pf 1)) :
    k.delivered t.info b stamp t.pf t.relaunch.isSome after rd (retire c (.goto (t.info.entryC after)) u).me := by
  have hr := (k.begun t b stamp after).regsOnly_setG .C rd (1 + bitAt t.pf 1)
  rw [← hu] at hr
  have hcore := retire_me c (.goto (t.info.entryC after)) u
  rw [hr.core, begun_core] at hcore
  have hsm : u.mySeq = u.me.seq .C := by rw [State.mySeq, hq]
  have hseq (p : SeqId) : ∃ g gp, u.me.seq p = { (k.seq p).begun t.info b p with g := g, gPoison := gp } := by
    rw [hr.seq, begun_seq]
    exact ⟨_, _, rfl⟩
  have hoth (p : SeqId) (hp : p ≠ .C) : (retire c (.goto (t.info.entryC after)) u).me.seq p = u.me.seq p := by
    rw [retire_seq, hq, if_neg hp]
  have hown : (retire c (.goto (t.info.entryC after)) u).me.seq .C =
      { seqAfter (.goto (t.info.entryC after)) (u.me.seq .C) with
        sigq := (retire c (.goto (t.info.entryC after)) u).mySeq.sigq } := by
    rw [retire_seq, hq, if_pos rfl, hsm]
  have hg (p : SeqId) (n : Nat) : (retire c (.goto (t.info.entryC after)) u).me.g p n =
      ((k.begun t b stamp after).setG .C rd (1 + bitAt t.pf 1)).g p n := by rw [core_g_retire, hu]
  generalize (retire c (.goto (t.info.entryC after)) u).me = k' at hcore hoth hown hg
  generalize (retire c (.goto (t.info.entryC after)) u).mySeq.sigq = sg at hown
  refine ⟨by rw [hcore]; rfl, by rw [hcore]; rfl, by rw [hcore]; rfl, by rw [hcore]; rfl, by rw [hcore]; rfl, by rw [hcore]; rfl,
    fun q => ?_, fun q hC => ?_, ?_, ?_, fun q n hC => ?_, fun n => ?_⟩
  · obtain ⟨g, gp, hs⟩ := hseq q
    have h : ∃ y : Seq, k'.seq q = y ∧ y.crc = ((k.seq q).begun t.info b q).crc ∧ y.depth = ((k.seq q).begun t.info b q).depth ∧
        y.li = ((k.seq q).begun t.info b q).li := by
      by_cases hC : q = .C
      · subst hC
        exact ⟨_, hown, by rw [hs]; exact ⟨rfl, rfl, rfl⟩⟩
      · exact ⟨_, hoth q hC, by rw [hs]; exact ⟨rfl, rfl, rfl⟩⟩
    obtain ⟨y, hy, h1, h2, h3⟩ := h
    rw [hy, h1, h2, h3]
    exact ⟨by cases q <;> rfl, by cases q <;> rfl, fun n hn => begun_li _ _ _ _ hn⟩
  · obtain ⟨g, gp, hs⟩ := hseq q
    rw [hoth q hC, hs]
    cases q
    case C => exact absurd rfl hC
    all_goals exact ⟨rfl, rfl, rfl⟩
  · exact (congrArg Seq.pc hown).trans rfl
  · exact (congrArg Seq.wait hown).trans rfl
  · rw [hg, Core.g_setG_other _ hC, begun_g]
    by_cases he : t.info.entries.getD q.code 0 = 0
    · rw [if_pos he, if_neg fun h => (gives_iff hC).1 h he]
    · rw [if_neg he, if_pos ((gives_iff hC).2 he)]
  · rw [hg, Core.g_setG, begun_g, if_pos (show t.info.gives .C = true from rfl)]
    have h0 : startReg t.info b t.pf (k.g .C) 0 = 0 := rfl
    have hv : (1 + bitAt t.pf 1 : Word) = if t.pf then 3 else 1 := by cases t.pf <;> rfl
    by_cases hn : n = 0
    · rw [if_pos hn, if_neg fun h => h.2 hn, hn, h0]
    · rw [if_neg hn, hv]
      simp only [hn, ne_eq, not_false_eq_true, and_true]

theorem delivered_congr {k k1 k' : Core} {i : TaskInfo} {b stamp rd : Nat} {pf re : Bool} {after : DWord}
    (hs : ∀ q, k1.seq q = k.seq q) (hg : ∀ q n, k1.g q n = k.g q n) (h : k1.delivered i b stamp pf re after rd k') :
    k.delivered i b stamp pf re after rd k' := by
  have hr (q : SeqId) (n : Nat) : startReg i b pf (k1.g q) n = startReg i b pf (k.g q) n := startReg_congr (hg q) n
  simpa only [Core.delivered, hs, hg, hr] using h

/-- A TQPOP that has delivered block `b` of task `t`, taken in `s1` (R29, R88, R359). -/
theorem afterPop_post {s s1 : State} (hk : s.sameCores s1) (hq : s.curSeq = .C) (t : Task) (b stamp rd : Nat) (c : Ctl)
    (hsc : t.info.scope < 12) : let s3 := if 10 ≤ t.info.scope then s1.dropHostLines else s1
    let u := retire c (.goto (t.info.entryC (s1.mySeq.pc + 8))) (s1.startedHere t b stamp rd)
    u = { s3 with cores := u.cores } ∧ (∀ n, n ≠ s.cur → u.core n = s3.core n) ∧
      s.me.delivered t.info b stamp t.pf t.relaunch.isSome (s.mySeq.pc + 8) rd u.me ∧
      (2 ≤ t.info.scope → u.me.acq = s3.npub ∧ u.me.seen = [] ∧ u.me.l1 = []) ∧ (c.ssel = 0 → ∀ n, u.me.tok n = 0) := by
  intro s3 u
  have hs3 : (if hostScope t.info.scope then s1.dropHostLines else s1) = s3 := by
    have h : hostScope t.info.scope = true ↔ 10 ≤ t.info.scope := by
      rw [hostScope, Bool.or_eq_true, beq_iff_eq, beq_iff_eq]; omega
    simp only [h]
    rfl
  have hs3c (n : Nat) : s1.core n = s3.core n := by
    unfold s3
    split
    · have h := xlOnly_dropHostLines s1
      rw [xlOnly] at h
      unfold State.core
      rw [h]
    · rfl
  have hco := (startedHere_coreOnly s1 t b stamp rd).trans
    (retire_coreOnly c (.goto (t.info.entryC (s1.mySeq.pc + 8))) (s1.startedHere t b stamp rd))
  have ha := acquiredAt_eq s1 s1.cur t.info.scope
  rw [hs3] at ha
  have hme := startedHere_me s1 t b stamp rd
  have huq : (s1.startedHere t b stamp rd).curSeq = .C := by
    rw [(startedHere_coreOnly s1 t b stamp rd).curSeq, acquiredAt_curSeq, hk.curSeq, hq]
  rw [hk.curSeq, hq] at hme
  refine ⟨?_, fun n hn => ?_, ?_, fun h2 => ?_, fun h0 => ?_⟩
  · exact hco.1.trans (congrArg (fun z : State => { z with cores := u.cores }) ha)
  · have h1 : n ≠ s1.cur := fun h => hn (h.trans hk.cur)
    rw [hco.2 n (by rwa [acquiredAt_cur]), core_acquiredAt, if_neg h1]
    exact hs3c n
  · obtain ⟨e, a, z, l, hk0⟩ := acquired_core hk t.info.scope
    rw [hk0] at hme
    rw [← hk.mySeq]
    refine delivered_congr (fun q => ?_) (fun q n => ?_) (delivered_of t b stamp rd (s1.mySeq.pc + 8) c huq hme)
    · cases q <;> rfl
    · cases q <;> rfl
  · have hf : u.me.acq = ((s1.acquiredAt s1.cur t.info.scope).core s1.cur).acq ∧
        u.me.seen = ((s1.acquiredAt s1.cur t.info.scope).core s1.cur).seen ∧
        u.me.l1 = ((s1.acquiredAt s1.cur t.info.scope).core s1.cur).l1 := by
      unfold u
      rw [retire_me, hme, Core.setG_eq, begun_core]
      exact ⟨rfl, rfl, rfl⟩
    rw [hf.1, hf.2.1, hf.2.2, ← hs3]
    exact acquiredAt_cache s1 s1.cur t.info.scope h2
  · refine tok_retire_empty h0 _ ?_
    rw [hme, Core.setG_eq, begun_core]
    rfl

/-! The checks of an insertion (R26, R27, R32, R35). -/

theorem getD_map_range (f : Nat → Nat) {n i : Nat} (h : i < n) : ((List.range n).map f).getD i 0 = f i := by
  simp [List.getD_eq_getElem?_getD, h]

theorem drop_all_zero (l : List Nat) (n : Nat) : (l.drop n).all (· == 0) = true ↔ ∀ j, n ≤ j → l.getD j 0 = 0 := by
  simp only [List.all_eq_true, beq_iff_eq]
  constructor
  · intro h j hj
    by_cases hl : j < l.length
    · refine (List.getD_eq_getElem l 0 hl).trans (h _ ?_)
      have hd : l[j] = (l.drop n)[j - n]'(by simp; omega) := by
        rw [List.getElem_drop]
        congr 1
        omega
      rw [hd]
      exact List.getElem_mem _
    · exact List.getD_eq_default l 0 (Nat.le_of_not_lt hl)
  · intro h x hx
    obtain ⟨j, hj, rfl⟩ := List.getElem_of_mem hx
    rw [List.getElem_drop, ← h (n + j) (by omega), List.getD_eq_getElem]

/-- At most one number of a range has a property when any two that have it are the same. -/
theorem filter_range_le_one (p : Nat → Bool) (n : Nat) : ((List.range n).filter p).length ≤ 1 ↔
    ∀ i j, i < n → j < n → p i = true → p j = true → i = j := by
  have hc := List.toFinset_card_of_nodup (List.nodup_range.filter p (l := List.range n))
  rw [← hc, Finset.card_le_one]
  simp only [List.mem_toFinset, List.mem_filter, List.mem_range]
  exact ⟨fun h i j hi hj pi pj => h i ⟨hi, pi⟩ j ⟨hj, pj⟩, fun h i hi j hj => h i j hi.1 hj.1 hi.2 hj.2⟩

theorem fieldOf_ne_zero (v lo n : Nat) : fieldOf v lo n ≠ 0 ↔ ∃ c, c < n ∧ v.testBit (lo + c) = true := by
  constructor
  · intro h
    obtain ⟨i, hi⟩ := Nat.exists_testBit_of_ne_zero h
    rw [testBit_fieldOf, Bool.and_eq_true, decide_eq_true_iff] at hi
    exact ⟨i, hi⟩
  · rintro ⟨c, hc, hb⟩ h
    have ht := testBit_fieldOf v lo n c
    rw [h, hb, decide_eq_true hc] at ht
    simp at ht

/-- The dies that a rectangle reaches: those of its D level, or DIE where it has none (R27, R35). -/
theorem mem_dies (t : TaskInfo) (hd : t.die ≤ 1)
    (hu : ∀ i j, i < t.nlev → j < t.nlev → t.kinds.getD i 0 = 3 → t.kinds.getD j 0 = 3 → i = j) (d : Nat) :
    d ∈ t.dies ↔ d < 2 ∧ ((∃ j, j < t.nlev ∧ t.kinds.getD j 0 = 3 ∧ t.origin.getD j 0 ≤ d ∧
      d < t.origin.getD j 0 + t.extent.getD j 0) ∨ ((∀ j, j < t.nlev → t.kinds.getD j 0 ≠ 3) ∧ d = t.die)) := by
  unfold TaskInfo.dies
  cases hf : (List.range t.nlev).find? (fun k => t.kinds.getD k 0 == 3) with
  | none =>
    have hn : ∀ j, j < t.nlev → t.kinds.getD j 0 ≠ 3 := by
      intro j hj h
      exact List.find?_eq_none.1 hf j (List.mem_range.2 hj) (beq_iff_eq.2 h)
    simp only [List.mem_singleton]
    constructor
    · rintro rfl
      exact ⟨by omega, .inr ⟨hn, rfl⟩⟩
    · rintro ⟨-, ⟨j, hj, h3, -⟩ | ⟨-, h⟩⟩
      · exact absurd h3 (hn j hj)
      · exact h
  | some k =>
    have hk : k < t.nlev := List.mem_range.1 (List.mem_of_find?_eq_some hf)
    have h3 : t.kinds.getD k 0 = 3 := beq_iff_eq.1 (List.find?_some (p := fun k => t.kinds.getD k 0 == 3) hf)
    simp only [List.mem_filter, List.mem_range, Bool.and_eq_true, decide_eq_true_eq]
    constructor
    · rintro ⟨h2, h⟩
      exact ⟨h2, .inl ⟨k, hk, h3, h⟩⟩
    · rintro ⟨h2, ⟨j, hj, hj3, h⟩ | ⟨hn, -⟩⟩
      · rw [hu k j hk hj h3 hj3]
        exact ⟨h2, h⟩
      · exact absurd h3 (hn k hk)

section
variable (x h : Nat) (w k : List Nat) (cs : Nat)

theorem mkInfo_kind {j : Nat} (hj : j < (mkInfo x h w k cs).nlev) :
    (mkInfo x h w k cs).kinds.getD j 0 = fieldOf (k.getD (4 + j) 0) 0 2 := getD_map_range _ hj
theorem mkInfo_origin {j : Nat} (hj : j < (mkInfo x h w k cs).nlev) :
    (mkInfo x h w k cs).origin.getD j 0 = fieldOf (w.getD (4 + j / 2) 0) (32 * (j % 2)) 24 := getD_map_range _ hj
theorem mkInfo_extent {j : Nat} (hj : j < (mkInfo x h w k cs).nlev) :
    (mkInfo x h w k cs).extent.getD j 0 = fieldOf (w.getD (7 + j / 2) 0) (32 * (j % 2)) 24 := getD_map_range _ hj

theorem mkInfo_oneD : ((mkInfo x h w k cs).kinds.filter (· == 3)).length ≤ 1 ↔ ∀ i j, i < (mkInfo x h w k cs).nlev →
    j < (mkInfo x h w k cs).nlev → fieldOf (k.getD (4 + i) 0) 0 2 = 3 → fieldOf (k.getD (4 + j) 0) 0 2 = 3 → i = j := by
  have hk : (mkInfo x h w k cs).kinds =
      (List.range (mkInfo x h w k cs).nlev).map fun i => fieldOf (k.getD (4 + i) 0) 0 2 := rfl
  rw [hk, List.filter_map, List.length_map, filter_range_le_one]
  simp only [Function.comp_apply, beq_iff_eq]

/-- The dies that the rectangle reaches, from the words (R27, R35). -/
theorem mem_mkInfo_dies (hd : (mkInfo x h w k cs).die ≤ 1) (hu : ∀ i j, i < (mkInfo x h w k cs).nlev →
      j < (mkInfo x h w k cs).nlev → fieldOf (k.getD (4 + i) 0) 0 2 = 3 → fieldOf (k.getD (4 + j) 0) 0 2 = 3 → i = j)
    (d : Nat) : d ∈ (mkInfo x h w k cs).dies ↔ d < 2 ∧
      ((∃ j, j < (mkInfo x h w k cs).nlev ∧ fieldOf (k.getD (4 + j) 0) 0 2 = 3 ∧
        fieldOf (w.getD (4 + j / 2) 0) (32 * (j % 2)) 24 ≤ d ∧
        d < fieldOf (w.getD (4 + j / 2) 0) (32 * (j % 2)) 24 + fieldOf (w.getD (7 + j / 2) 0) (32 * (j % 2)) 24) ∨
      ((∀ j, j < (mkInfo x h w k cs).nlev → fieldOf (k.getD (4 + j) 0) 0 2 ≠ 3) ∧ d = (mkInfo x h w k cs).die)) := by
  rw [mem_dies _ hd fun i j hi hj => by rw [mkInfo_kind _ _ _ _ _ hi, mkInfo_kind _ _ _ _ _ hj]; exact hu i j hi hj]
  refine and_congr_right fun _ => or_congr (exists_congr fun j => and_congr_right fun hj => ?_)
    (and_congr_left fun _ => forall_congr' fun j => forall_congr' fun hj => ?_)
  · rw [mkInfo_kind _ _ _ _ _ hj, mkInfo_origin _ _ _ _ _ hj, mkInfo_extent _ _ _ _ _ hj]
  · rw [mkInfo_kind _ _ _ _ _ hj]

end

/-- What the checks of R35 say, one by one. -/
theorem insertOk_iff (x h : Nat) (w k : List Nat) (cs n : Nat) :
    insertOk w k (mkInfo x h w k cs) n = true ↔ insertSound w k cs n := by
  have hkind (j : Nat) : (fieldOf (k.getD (4 + j) 0) 0 2 ≠ 3 ∨ fieldOf (k.getD (4 + j) 0) 8 24 ≤ 2) ↔
      (fieldOf (k.getD (4 + j) 0) 0 2 = 3 → fieldOf (k.getD (4 + j) 0) 8 24 ≤ 2) := by tauto
  unfold insertOk kdescOk tcbRes0
  simp only [Bool.and_eq_true, decide_eq_true_eq, beq_iff_eq, bne_iff_ne, Bool.not_eq_true', drop_all_zero,
    List.all_eq_true (l := List.range _), List.all_eq_true (l := TaskInfo.dies _), List.mem_range, Bool.or_eq_true,
    bit_eq_testBit, mkInfo_oneD, hkind]
  constructor
  · rintro ⟨⟨⟨⟨⟨⟨⟨⟨⟨⟨hdie, ⟨⟨⟨hnlev, hk10⟩, hk11⟩, hent⟩, hlev⟩, hw0⟩, hw3⟩, ⟨⟨⟨⟨h1, h2⟩, h2'⟩, h11⟩, h15⟩, hres⟩, hrect⟩, huniq⟩,
      hn⟩, hpm0⟩, hpm1⟩, hcs⟩
    refine ⟨hdie, hw0, hw3, hnlev, hk10, hk11, hent, fun j hj => ?_, huniq, h1, h2, h2', h11, h15, hn, hpm0, hpm1,
      fun d hd hr => ?_⟩
    · obtain ⟨⟨⟨⟨hk0, hk2⟩, hk32⟩, hb0⟩, hb2⟩ := hlev j hj
      have hr := hrect j hj
      rw [mkInfo_origin _ _ _ _ _ hj, mkInfo_extent _ _ _ _ _ hj] at hr
      exact ⟨hk0, hk2, hk32, hb0, hb2, hr.1, hr.2, hres j hj⟩
    · exact (fieldOf_ne_zero _ _ _).1 (hcs d ((mem_mkInfo_dies x h w k cs hdie huniq d).2 ⟨hd, hr⟩))
  · rintro ⟨hdie, hw0, hw3, hnlev, hk10, hk11, hent, hlev, huniq, h1, h2, h2', h11, h15, hn, hpm0, hpm1, hcs⟩
    refine ⟨⟨⟨⟨⟨⟨⟨⟨⟨⟨hdie, ⟨⟨⟨hnlev, hk10⟩, hk11⟩, hent⟩, fun j hj => ?_⟩, hw0⟩, hw3⟩, ⟨⟨⟨⟨h1, h2⟩, h2'⟩, h11⟩, h15⟩,
      fun j hj => ?_⟩, fun j hj => ?_⟩, huniq⟩, hn⟩, hpm0⟩, hpm1⟩, fun d hd => ?_⟩
    · obtain ⟨hk0, hk2, hk32, hb0, hb2, -, -, -⟩ := hlev j hj
      exact ⟨⟨⟨⟨hk0, hk2⟩, hk32⟩, hb0⟩, hb2⟩
    · obtain ⟨-, -, -, -, -, -, -, hr⟩ := hlev j hj
      exact hr
    · obtain ⟨-, -, -, -, -, h1, hb, -⟩ := hlev j hj
      rw [mkInfo_origin _ _ _ _ _ hj, mkInfo_extent _ _ _ _ _ hj]
      exact ⟨h1, hb⟩
    · obtain ⟨h2, hr⟩ := (mem_mkInfo_dies x h w k cs hdie huniq d).1 hd
      exact (fieldOf_ne_zero _ _ _).2 (hcs d h2 hr)

/-! The order of an insertion's checks (R35, R360). -/

/-- The checks of an insertion from the descriptor on, for the words `w` of a TCB. -/
def prepWords (die ctx h : Nat) (w : List Nat) : Op Prep := do
  match ← agWords (agTask die) die ctx (w.getD 0 0) 32 with
  | none => return .fail 5
  | some k => do
    let mask ← if w.getD 3 0 = 0 then pure (some allProgramCores)
      else agRead (agTask die) die ctx (w.getD 3 0) 36
    match mask with
    | none => return .fail 5
    | some m =>
      let t := mkInfo ctx h w k m
      if insertOk w k t (blockCount t.kinds t.extent) then return .ok t w else return .fail 3

section
variable {d x h : Nat} {s s1 : State}

theorem prepTask_beyond (hr : readTcb d x h s = .ok .beyond s1) : prepTask d x h true none s = .ok (.fail 4) s1 :=
  run_bind_ok hr

theorem prepTask_unreadable (hr : readTcb d x h s = .ok .unreadable s1) : prepTask d x h true none s = .ok (.fail 5) s1 :=
  run_bind_ok hr

variable {w : List Nat} (hr : readTcb d x h s = .ok (.ok w) s1)
include hr

theorem prepTask_notIdle (hi : ¬ (fieldOf (w.getD 1 0) 48 4 = 0 ∧ s1.holdsTask x h = false)) :
    prepTask d x h true none s = .ok (.fail 1) s1 := by
  have hc : (true && (fieldOf (w.getD 1 0) 48 4 != 0 || s1.holdsTask x h)) = true := by
    rw [Bool.true_and, Bool.or_eq_true, bne_iff_ne]
    by_contra hn
    rw [not_or, not_not, Bool.not_eq_true] at hn
    exact hi hn
  refine (run_bind_ok hr).trans ?_
  dsimp only
  rw [run_get_bind, if_pos hc]
  rfl

variable (hi : fieldOf (w.getD 1 0) 48 4 = 0 ∧ s1.holdsTask x h = false)
include hi

theorem prepTask_predcnt (hp : fieldOf (w.getD 1 0) 32 16 ≠ 0) : prepTask d x h true none s = .ok (.fail 2) s1 := by
  refine (run_bind_ok hr).trans ?_
  dsimp only
  rw [run_get_bind, hi.1, hi.2]
  simp only [bne_self_eq_false, Bool.or_self, Bool.and_false, Bool.false_eq_true, if_false, Bool.true_and, bne_iff_ne.2 hp, if_true]
  rfl

variable (hp : fieldOf (w.getD 1 0) 32 16 = 0)
include hp

theorem prepTask_misplaced (hm : ¬ (w.getD 0 0 % 256 = 0 ∧ w.getD 3 0 % 64 = 0)) :
    prepTask d x h true none s = .ok (.fail 3) s1 := by
  have hc : (w.getD 0 0 % 256 != 0 || w.getD 3 0 % 64 != 0) = true := by
    rw [Bool.or_eq_true, bne_iff_ne, bne_iff_ne]
    tauto
  refine (run_bind_ok hr).trans ?_
  dsimp only
  rw [run_get_bind, hi.1, hi.2, hp]
  simp only [bne_self_eq_false, Bool.or_self, Bool.and_false, Bool.false_eq_true, if_false, hc, if_true]
  rfl

theorem prepTask_placed (hm : w.getD 0 0 % 256 = 0 ∧ w.getD 3 0 % 64 = 0) :
    prepTask d x h true none s = prepWords d x h w s1 := by
  refine (run_bind_ok hr).trans ?_
  dsimp only
  rw [run_get_bind, hi.1, hi.2, hp]
  simp only [bne_self_eq_false, Bool.or_self, Bool.and_false, Bool.false_eq_true, if_false, hm.1, hm.2]
  rfl

end

section
variable {d x h : Nat} {w k : List Nat} {s s1 s2 : State}

theorem prepWords_noDescriptor (hk : agWords (agTask d) d x (w.getD 0 0) 32 s = .ok none s1) :
    prepWords d x h w s = .ok (.fail 5) s1 := run_bind_ok hk

variable (hk : agWords (agTask d) d x (w.getD 0 0) 32 s = .ok (some k) s1)
include hk

theorem prepWords_noMask (h0 : w.getD 3 0 ≠ 0) (hm : agRead (agTask d) d x (w.getD 3 0) 36 s1 = .ok none s2) :
    prepWords d x h w s = .ok (.fail 5) s2 := by
  refine (run_bind_ok hk).trans ?_
  dsimp only
  rw [if_neg h0, run_bind_ok hm]
  rfl

/-- With its descriptor and core set read, the task passes or fails by the checks on the fields. -/
theorem prepWords_checks {cs : Nat} (hm : w.getD 3 0 = 0 ∧ cs = allProgramCores ∧ s2 = s1 ∨
      w.getD 3 0 ≠ 0 ∧ agRead (agTask d) d x (w.getD 3 0) 36 s1 = .ok (some cs) s2) :
    let t := mkInfo x h w k cs
    prepWords d x h w s = .ok (if insertOk w k t (blockCount t.kinds t.extent) then .ok t w else .fail 3) s2 := by
  intro t
  refine (run_bind_ok hk).trans ?_
  rcases hm with ⟨h0, hcs, rfl⟩ | ⟨h0, hm⟩
  · simp only [h0, if_true, run_pure_bind, ← hcs]
    split <;> rfl
  · simp only [h0, if_false, run_bind_ok hm]
    split <;> rfl

end

/-! TQPUSH (R36, R282, R360). -/

/-- The work of TQPUSH. -/
def tqpushBody (rd ra : Nat) : Op Post := do
  let s ← get
  match ← prepTask s.myDie s.me.ctx.toNat (s.g ra).toNat true with
  | .fail code => do
    if code = 5 then tellPoison s.myDie s.me.ctx.toNat (s.g ra).toNat
    result rd code
  | .ok t w => do
    let sel := List.range (blockCount t.kinds t.extent)
    if !t.room sel (← get) then do
      modify (t.noteFull sel)
      throwWait
    startTask s.myDie t w sel none
    result rd 0

theorem exec_tqpush (c : Ctl) (rd ra : Nat) (s : State) :
    exec (.tqpush c rd ra) s = issue (.tqpush c rd ra) c noPre [ra] (tqpushBody rd ra) s := rfl

theorem room_eq (t : TaskInfo) (sel : List Nat) (s : State) :
    t.room sel s = true ↔ ∀ d, d < 2 → t.dieBlocks sel d ≠ [] → s.frameCount d < 65536 := by
  simp only [TaskInfo.room, List.all_eq_true, List.mem_range, Bool.or_eq_true, List.isEmpty_iff, decide_eq_true_eq]
  exact forall_congr' fun d => forall_congr' fun _ => by tauto

section
variable {s s1 s2 : State} (rd ra : Nat)

theorem tqpushBody_fails {code : Nat}
    (h : prepTask s.myDie s.me.ctx.toNat (s.g ra).toNat true none s = .ok (.fail code) s1) (hc : code ≠ 5) :
    tqpushBody rd ra s = .ok .next (s1.setG rd (BitVec.ofNat 32 code)) := by
  refine (run_get_bind _ s).trans ((run_bind_ok h).trans ?_)
  dsimp only
  rw [if_neg hc]
  rfl

theorem tqpushBody_unreadable
    (h : prepTask s.myDie s.me.ctx.toNat (s.g ra).toNat true none s = .ok (.fail 5) s1)
    (ht : tellPoison s.myDie s.me.ctx.toNat (s.g ra).toNat s1 = .ok () s2) :
    tqpushBody rd ra s = .ok .next (s2.setG rd (BitVec.ofNat 32 5)) := by
  refine (run_get_bind _ s).trans ((run_bind_ok h).trans ?_)
  dsimp only
  rw [if_pos rfl, run_bind_ok ht]
  rfl

variable {t : TaskInfo} {w : List Nat}
  (h : prepTask s.myDie s.me.ctx.toNat (s.g ra).toNat true none s = .ok (.ok t w) s1)
include h

theorem tqpushBody_full (hr : t.room (List.range (blockCount t.kinds t.extent)) s1 = false) :
    tqpushBody rd ra s = .error (.wait false) (t.noteFull (List.range (blockCount t.kinds t.extent)) s1) := by
  refine (run_get_bind _ s).trans ((run_bind_ok h).trans ?_)
  dsimp only
  rw [run_get_bind, hr]
  rfl

theorem tqpushBody_inserts (hr : t.room (List.range (blockCount t.kinds t.extent)) s1 = true)
    (hs : startTask s.myDie t w (List.range (blockCount t.kinds t.extent)) none s1 = .ok () s2) :
    tqpushBody rd ra s = .ok .next (s2.setG rd (BitVec.ofNat 32 0)) := by
  refine (run_get_bind _ s).trans ((run_bind_ok h).trans ?_)
  dsimp only
  rw [run_get_bind, hr, Bool.not_true, if_neg Bool.false_ne_true, run_bind_ok hs]
  rfl

end

/-! Tasks enter their frames (R36, R39, R339). -/

theorem core_wakeSome (d N m : Nat) (s : State) :
    let t := (List.range N).foldl (fun s n => s.modCore (144 * d + n) (fun c => { c with event := true })) s
    t = { s with cores := t.cores } ∧
      t.core m = if 144 * d ≤ m ∧ m < 144 * d + N then { s.core m with event := true } else s.core m := by
  induction N with
  | zero =>
    have h : ¬ (144 * d ≤ m ∧ m < 144 * d + 0) := by omega
    exact ⟨rfl, (if_neg h).symm⟩
  | succ N ih =>
    simp only [List.range_succ, List.foldl_append, List.foldl_cons, List.foldl_nil]
    obtain ⟨hs, hm⟩ := ih
    generalize (List.range N).foldl (fun s n => s.modCore (144 * d + n) (fun c => { c with event := true })) s = t at hs hm
    refine ⟨by rw [hs]; rfl, ?_⟩
    rw [core_modCore]
    by_cases h : m = 144 * d + N
    · subst h
      rw [if_pos rfl, if_pos (by omega), hm, if_neg (by omega)]
    · have hb : (144 * d ≤ m ∧ m < 144 * d + (N + 1)) ↔ (144 * d ≤ m ∧ m < 144 * d + N) := by omega
      rw [if_neg h, hm]
      simp only [hb]

theorem wakeDie_eq (s : State) (d : Nat) : s.wakeDie d = { s with cores := (s.wakeDie d).cores } :=
  (core_wakeSome d 144 0 s).1

theorem core_wakeDie (s : State) (d m : Nat) :
    (s.wakeDie d).core m = if m / 144 = d then { s.core m with event := true } else s.core m := by
  refine (core_wakeSome d 144 m s).2.trans ?_
  have hb : (144 * d ≤ m ∧ m < 144 * d + 144) ↔ m / 144 = d := by omega
  simp only [hb]

theorem sameCores_wakeDie (s : State) (d : Nat) : s.sameCores (s.wakeDie d) := by
  refine ⟨by rw [wakeDie_eq], by rw [wakeDie_eq], fun n => ?_⟩
  rw [core_wakeDie]
  split <;> rfl

theorem sameCores_foldl {α : Type} {f : State → α → State} (hf : ∀ (u : State) x, u.sameCores (f u x)) :
    ∀ (l : List α) (s : State), s.sameCores (l.foldl f s)
  | [], s => (xlOnly_refl s).sameCores
  | x :: l, s => (hf s x).trans (sameCores_foldl hf l (f s x))

theorem sameCores_setTasks (s : State) (l : List Task) : s.sameCores { s with tasks := l } := sameCores_of_cores rfl rfl rfl

theorem sameCores_enterWaiting : ∀ (l : List Task) (s : State), s.sameCores (s.enterWaiting l)
  | [], s => (xlOnly_refl s).sameCores
  | t :: l, s => by
    unfold State.enterWaiting
    dsimp only
    refine State.sameCores.trans ?_ (sameCores_enterWaiting l _)
    split
    · exact ((sameCores_foldl (fun u (f : FrameEnt) => sameCores_ageSync u f.die) t.waiting s).trans
        (sameCores_foldl (fun u (f : FrameEnt) => sameCores_wakeDie u f.die) t.waiting _)).trans (sameCores_setTasks _ _)
    · exact (xlOnly_refl s).sameCores

theorem sameCores_noteFull (s : State) (fs : List FrameEnt) : s.sameCores (s.noteFull fs) := by
  refine sameCores_foldl (fun u f => ?_) fs s
  split
  · exact (xlOnly_refl u).sameCores
  · exact sameCores_of_cores rfl rfl rfl

/-- A task without the frames that it is in and those it waits for. -/
def Task.bare (t : Task) : Task := { t with frames := [], waiting := [] }

theorem bare_ageSync (s : State) (d : Nat) : (s.ageSync d).tasks.map Task.bare = s.tasks.map Task.bare := by
  rw [ageSync_eq]
  simp only [List.map_map]
  rfl

theorem foldl_tasks {α β : Type} {f : State → α → State} {g : State → β} (hf : ∀ u x, g (f u x) = g u) :
    ∀ (l : List α) (s : State), g (l.foldl f s) = g s
  | [], _ => rfl
  | x :: l, s => (foldl_tasks hf l (f s x)).trans (hf s x)

theorem tasks_wakeDie (s : State) (d : Nat) : (s.wakeDie d).tasks = s.tasks := by rw [wakeDie_eq]

theorem bare_enterFrames (s : State) (t : Task) : (s.enterFrames t).bare = t.bare := rfl

/-- Entering frames changes nothing else of any task. -/
theorem bare_enterWaiting : ∀ (l : List Task) (s : State), (s.enterWaiting l).tasks.map Task.bare = s.tasks.map Task.bare
  | [], _ => rfl
  | t :: l, s => by
    unfold State.enterWaiting
    dsimp only
    refine (bare_enterWaiting l _).trans ?_
    split
    · simp only [List.map_map]
      have h1 := foldl_tasks (g := fun u : State => u.tasks.map Task.bare)
        (fun u (f : FrameEnt) => bare_ageSync u f.die) t.waiting s
      have h2 := foldl_tasks (g := fun u : State => u.tasks)
        (fun u (f : FrameEnt) => tasks_wakeDie u f.die) t.waiting (t.waiting.foldl (fun s f => s.ageSync f.die) s)
      rw [h2, ← h1]
      refine List.map_congr_left fun x _ => ?_
      rw [Function.comp_apply]
      split
      · exact bare_enterFrames _ x
      · rfl
    · rfl

/-! The insertion of a task (R35, R265). -/

section
variable {b : State}

theorem cores_startTask (die : Nat) (t : TaskInfo) (w sel : List Nat) (re : Option (Nat × Nat)) :
    Keeps (State.sameCores b) (startTask die t w sel re) := by
  refine keeps_bind (cores_putTcb _ _ _ _ _ _) fun _ => keeps_bind (cores_putTcb _ _ _ _ _ _) fun _ =>
    keeps_bind (cores_putTcb _ _ _ _ _ _) fun _ => ?_
  have hlast (fs : List FrameEnt) (x : Task) : Keeps (State.sameCores b)
      (modify (fun s => ({ (s.noteFull fs) with tasks := s.tasks ++ [x] }).enterWaiting [x]) : Op Unit) :=
    keeps_modify fun s h => h.trans (((sameCores_noteFull s fs).trans (sameCores_setTasks _ _)).trans
      (sameCores_enterWaiting [x] _))
  dsimp only
  split
  · exact keeps_bind (cores_putTcb _ _ _ _ _ _) fun _ => keeps_bind (cores_putTcb _ _ _ _ _ _) fun _ => hlast _ _
  · exact keeps_bind (cores_putTcb _ _ _ _ _ _) fun _ => hlast _ _

end

theorem enterWaiting_holds (l : List Task) {s : State} {x : Task} (hx : x ∈ s.tasks) :
    ∃ y, y ∈ (s.enterWaiting l).tasks ∧ y.bare = x.bare := by
  have h : x.bare ∈ (s.enterWaiting l).tasks.map Task.bare := by
    rw [bare_enterWaiting]
    exact List.mem_map_of_mem hx
  obtain ⟨y, hy, he⟩ := List.mem_map.1 h
  exact ⟨y, hy, he⟩

/-- An inserted task is among those held, with all its blocks to run. -/
theorem startTask_holds {die : Nat} {t : TaskInfo} {w sel : List Nat} {s u : State}
    (h : startTask die t w sel none s = .ok () u) : ∃ x, x ∈ u.tasks ∧ x.info = t ∧ x.state = 1 ∧ x.blkleft = sel.length ∧
      x.trigleft = sel.length ∧ x.nextblk = 0 := by
  obtain ⟨_, _, -, h⟩ := run_bind_inv h
  obtain ⟨_, _, -, h⟩ := run_bind_inv h
  obtain ⟨_, _, -, h⟩ := run_bind_inv h
  obtain ⟨_, v, -, h⟩ := run_bind_inv h
  cases h
  have key (u : State) (x : Task) : ∃ y, y ∈ (({ u with tasks := v.tasks ++ [x] } : State).enterWaiting [x]).tasks ∧
      y.bare = x.bare := enterWaiting_holds _ (List.mem_append_right _ (List.mem_singleton.2 rfl))
  refine Exists.elim (key _ _) fun y hy => ⟨y, hy.1, ?_⟩
  have hb := hy.2
  exact ⟨congrArg Task.info hb, congrArg Task.state hb, congrArg Task.blkleft hb, congrArg Task.trigleft hb,
    congrArg Task.nextblk hb⟩

theorem leaveMarks_dies (s' t : State) (d : Nat) : leaveMarks s' d t = { t with dies := (leaveMarks s' d t).dies } := by
  unfold leaveMarks
  dsimp only
  split <;> rfl

/-- A stopped attempt leaves the tasks, the cores and memory as they were. -/
theorem errState_frame (s s' : State) :
    (errState s s').tasks = s.tasks ∧ (errState s s').cores = s.cores ∧ (errState s s').mem = s.mem := by
  unfold errState
  rw [leaveMarks_dies, leaveMarks_dies]
  exact ⟨rfl, rfl, rfl⟩

/-- An instruction whose work, all of it by hardware outside the cores, gives RD a value. -/
theorem gives_of {i : Instr} {c : Ctl} {srcs : List Nat} {body : Op Post} {rd v : Nat} {s u : State}
    (he : exec i s = issue i c noPre srcs body s) (h : Ready i c srcs s) (hk : s.sameCores u)
    (hb : body s = .ok .next (u.setG rd (BitVec.ofNat 32 v))) : Completes i s (s.gives c rd v u) := by
  refine completes_of he h rfl hb (fun n => Post.noConfusion) ⟨?_, ?_⟩
  · have hd := (hk.does.setG rd (BitVec.ofNat 32 v)).retire c .next
    rw [← hk.mySeq] at hd
    exact hd
  · exact putsScalar_setOpnd c .next false rd v hk.g

section
variable {c : Ctl} {rd : Nat} {to_ : Option Nat} {s : State} (h : Ready (.tqpop c rd to_) c to_.toList s)
include h

theorem exec_tqpop_waits {s' : State} (hb : tqpopBody rd to_ s = .error (.wait false) s') (he : errState s s' = s) :
    exec (.tqpop c rd to_) s = .next (s.waitFor (.tqpop c rd to_) false) :=
  (issue_bodyWaits (u := s) h rfl hb).trans (by rw [he])

theorem tqpop_expires {s1 : State} (hf : s.popFree) (hp : popBlock s.cur s = .ok none s1)
    (he : s1.popExpired to_ s1.issuedAt = true) (hs : s1.popSoon s.cur = false) :
    Completes (.tqpop c rd to_) s (s.gives c rd 4 s1) :=
  gives_of rfl h (sameCores_popBlock hp) (tqpopBody_expired rd to_ hf hp he hs)

/-- A TQPOP that is handed block `b` of task `t` starts it (R29, R88, R359). -/
theorem tqpop_delivers {t : Task} {b stamp : Nat} {s1 s2 : State} (hf : s.popFree) (hq : s.curSeq = .C)
    (hp : popBlock s.cur s = .ok (some (t, b)) s1) (hsc : t.info.scope < 12) (hst : t.stampsAt s1 stamp s2) :
    let s3 := if 10 ≤ t.info.scope then s2.dropHostLines else s2
    Completes (.tqpop c rd to_) s fun u => u = { s3 with cores := u.cores } ∧ (∀ n, n ≠ s.cur → u.core n = s3.core n) ∧
      s.me.delivered t.info b stamp t.pf t.relaunch.isSome (s.mySeq.pc + 8) rd u.me ∧
      (2 ≤ t.info.scope → u.me.acq = s3.npub ∧ u.me.seen = [] ∧ u.me.l1 = []) ∧ (c.ssel = 0 → ∀ n, u.me.tok n = 0) := by
  have h2 := hst.eq
  subst h2
  exact completes_of rfl h rfl (tqpopBody_delivers rd to_ hf hp hsc hst) (fun n => Post.noConfusion)
    (afterPop_post (sameCores_popBlock hp) hq t b stamp rd c hsc)

end

/-- The stamp read for the core that pops is read for the same die after the pop. -/
theorem stampsAt_of_match {t : Task} {d stamp : Nat} {s1 s2 : State} (hd : s1.myDie = d)
    (h : (match t.relaunch with | some p => EStateM.Result.ok p.1 s1 | none => stampNow d t.info.ctx s1) = .ok stamp s2) :
    t.stampsAt s1 stamp s2 := by
  subst hd
  cases hr : t.relaunch with
  | none =>
    rw [hr] at h
    exact .inr ⟨hr, h⟩
  | some p =>
    rw [hr] at h
    cases h
    exact .inl ⟨p, hr, rfl, rfl⟩

theorem State.sameCores.myDie {s t : State} (h : s.sameCores t) : t.myDie = s.myDie := congrArg dieOfCore h.cur

/-- Settles O45: a pop either leaves the frame's ticks alone behind it or hands out a block, which `Core.begun` starts; an
insertion's checks come in the order of `prepTask`, and pass when the words are sound. -/
theorem taskQueueInstructions : Obligations.TaskQueueInstructions := by
  unfold Obligations.TaskQueueInstructions
  refine ⟨fun c rd to_ s h => ⟨fun hc => ?_, fun hc hf => ?_, fun hf s1 hp => ⟨fun he hs => ?_, fun he => ?_⟩,
    fun hf tk b s1 hq hp hsc stamp s2 hst => ?_⟩, fun d x hd s => ⟨fun s1 hr => prepTask_beyond hr,
    fun s1 hr => prepTask_unreadable hr, fun w s1 hr => ⟨prepTask_notIdle hr, fun hi hn => prepTask_predcnt hr hi hn,
    fun hi hn hm => prepTask_misplaced hr hi hn hm, fun hi hn hm => ?_⟩⟩, fun c rd ra s h => ⟨fun code s1 hp hc => ?_,
    fun s1 hp s2 ht => ?_, fun tk w s1 hp => ⟨fun hfull => ?_, fun hroom s2 hs => ?_⟩⟩⟩
  · exact gives_of rfl h (xlOnly_refl s).sameCores (tqpopBody_current rd to_ hc)
  · exact exec_tqpop_waits h (tqpopBody_busy rd to_ hc hf) (errState_self s)
  · exact tqpop_expires h hf hp he hs
  · refine exec_tqpop_waits h (tqpopBody_none rd to_ hf hp he) ?_
    rw [popBlock_none hp, errState_ageSync]
  · exact tqpop_delivers h hf hq hp hsc (stampsAt_of_match (sameCores_popBlock hp).myDie hst)
  · rw [prepTask_placed hr hi hn hm]
    refine ⟨fun s2 hk => prepWords_noDescriptor hk, fun k s2 hk => ⟨fun h0 s3 hm => prepWords_noMask hk h0 hm,
      fun cs s3 hcs => ?_⟩⟩
    have hp := prepWords_checks (h := hd) hk hcs
    refine ⟨fun hso => ?_, fun hso => ?_⟩
    · rw [hp, if_pos ((insertOk_iff ..).2 hso)]
    · rw [hp, if_neg fun ho => hso ((insertOk_iff ..).1 ho)]
  · have hk := (keepsCores_of_xl (fun b => xl_prepTask _ _ _ _ _) s (xlOnly_refl s).sameCores).1 _ _ hp
    exact gives_of (exec_tqpush c rd ra s) h hk (tqpushBody_fails rd ra hp hc)
  · have hk := (keepsCores_of_xl (fun b => xl_prepTask _ _ _ _ _) s (xlOnly_refl s).sameCores).1 _ _ hp
    exact gives_of (exec_tqpush c rd ra s) h ((cores_tellPoison _ _ _ s1 hk).1 _ _ ht) (tqpushBody_unreadable rd ra hp ht)
  · have hr : tk.room (List.range (blockCount tk.kinds tk.extent)) s1 = false := by
      refine Bool.eq_false_iff.2 fun hr => ?_
      obtain ⟨d, hd, hb, hc⟩ := hfull
      exact absurd ((room_eq ..).1 hr d hd hb) (Nat.not_lt.2 hc)
    exact ⟨_, (exec_tqpush c rd ra s).trans (issue_bodyWaits (u := s) h rfl (tqpushBody_full rd ra hp hr)), errState_frame s _⟩
  · have hk := (keepsCores_of_xl (fun b => xl_prepTask _ _ _ _ _) s (xlOnly_refl s).sameCores).1 _ _ hp
    exact ⟨startTask_holds hs, gives_of (exec_tqpush c rd ra s) h ((cores_startTask _ _ _ _ _ s1 hk).1 _ _ hs)
      (tqpushBody_inserts rd ra hp ((room_eq ..).2 hroom) hs)⟩

end Sys2Proof.Machine

namespace Sys2Proof.Machine

/-! CORECTL (R273, R277, R292). -/

section
variable (n : Nat) (s : State)

theorem all_seqs (p : SeqId → Bool) : allSeqs.all p = true ↔ ∀ q, p q = true := by
  rw [List.all_eq_true]
  exact ⟨fun h q => h q (by cases q <;> decide), fun h q _ => h q⟩

/-- Nothing of core `n` is on its way: no transfer, no late access, no command (R277). -/
def State.coreIdle : Prop :=
  (s.core n).xfers = [] ∧ (∀ q, ((s.core n).seq q).late = []) ∧ ∀ q j, j < 4 → s.ecnt n q j = 0

theorem quiet_iff (k : Core) : k.quiet = true ↔ k.xfers = [] ∧ ∀ q, (k.seq q).late = [] := by
  simp only [Core.quiet, Bool.and_eq_true, List.isEmpty_iff, all_seqs]

theorem coreIdle_iff : ((s.core n).quiet && allSeqs.all (fun q => (List.range 4).all (fun j => s.ecnt n q j == 0))) = true ↔
    s.coreIdle n := by
  rw [Bool.and_eq_true, quiet_iff, all_seqs]
  simp only [List.all_eq_true, List.mem_range, beq_iff_eq, and_assoc]
  rfl

theorem modCore_modCore (f g : Core → Core) : s.onlyThat n (g (f (s.core n))) ((s.modCore n f).modCore n g) := by
  refine ⟨rfl, fun m hm => ?_, ?_⟩
  · rw [core_modCore, if_neg hm, core_modCore, if_neg hm]
  · rw [core_modCore, if_pos rfl, core_modCore, if_pos rfl]

theorem exec_corectlReset_running (h : (s.core n).halted = false) : exec (.corectlReset n) s = .next s := by
  refine event_ok (u := ()) ?_
  dsimp only
  rw [h]
  rfl

theorem exec_corectlReset_busy (h : (s.core n).halted = true) (hi : ¬ s.coreIdle n) :
    exec (.corectlReset n) s = .next (s.modCore n fun k => { k with resetting := true }) := by
  have hi' := (coreIdle_iff n s).not.2 hi
  refine event_ok (u := ()) ?_
  dsimp only
  rw [h]
  simp only [Bool.not_true, Bool.false_eq_true, if_false, run_modify_bind]
  rw [if_neg hi']
  rfl

theorem exec_corectlReset_idle (h : (s.core n).halted = true) (hi : s.coreIdle n) (hc : (s.core n).cur = none) :
    exec (.corectlReset n) s = .next ((s.modCore n fun k => { k with resetting := true }).modCore n Core.clear) := by
  have hi' := (coreIdle_iff n s).2 hi
  refine event_ok (u := ()) ?_
  dsimp only
  rw [h, hc]
  simp only [Bool.not_true, Bool.false_eq_true, if_false, run_modify_bind]
  rw [if_pos hi']
  rfl

/-- Core `n` may leave its reset: its sequencers are parked, no block is current and its sector is ready (R273, R292). -/
def State.startable : Prop :=
  (∀ q, ((s.core n).seq q).parked = true) ∧ (s.core n).cur = none ∧ (s.sectorReady n = true ∨ n % 144 = 0)

theorem startable_iff : (allSeqs.all (fun q => ((s.core n).seq q).parked) && (s.core n).cur.isNone &&
    (s.sectorReady n || isPostmaster n)) = true ↔ s.startable n := by
  simp only [Bool.and_eq_true, all_seqs, Option.isNone_iff_eq_none, Bool.or_eq_true, isPostmaster, beq_iff_eq, and_assoc]
  rfl

theorem exec_corectlStart : (s.startable n → s.bootFailed = false → exec (.corectlStart n) s =
      .next (s.modCore n fun k => { k with
        priv := false, c := { k.c with parked := false, held := false, pc := k.c.rpc } })) ∧
    (¬ s.startable n ∨ s.bootFailed = true → exec (.corectlStart n) s = .next s) := by
  have he : exec (.corectlStart n) s = .next (if s.bootFailed then s else s.startCore n) :=
    ctlEvent_eq (fun s => s.startCore n) s
  refine ⟨fun h hb => ?_, fun h => ?_⟩
  · rw [he, hb, if_neg (by decide), State.startCore]
    dsimp only
    rw [if_pos ((startable_iff n s).2 h)]
    rfl
  · rw [he]
    rcases h with h | h
    · rw [State.startCore, if_neg ((startable_iff n s).not.2 h), ite_self]
    · rw [if_pos h]

end

/-! Waits that are resumed (R231, R339, R359). -/

/-- A core that waits in nothing, may not issue or is about to trap resumes nothing. -/
theorem reissue_idle {n : Nat} {q : SeqId} {ok : Waiting → Bool} {run : Instr → State → Out} {s : State}
    (h : ((s.core n).seq q).wait = none ∨ s.mayIssue n q = false ∨ (s.core n).dueA ≠ none) :
    reissue n q ok run s = .next s := by
  rcases reissue_cases n q ok run s with he | ⟨w, hw, -, hm, hd, -⟩
  · exact he
  · rcases h with h | h | h
    · rw [hw] at h; cases h
    · rw [hm] at h; cases h
    · exact absurd hd h

theorem reissue_due {n : Nat} {q : SeqId} {ok : Waiting → Bool} {run : Instr → State → Out} {s : State} {w : Waiting}
    (hw : ((s.core n).seq q).wait = some w) (hm : s.mayIssue n q = true) (hd : (s.core n).dueA = none) :
    reissue n q ok run s = if ok w then run w.i { s with cur := n, curSeq := q } else .next s := by
  unfold reissue
  rw [hw]
  simp only [hm, hd, Option.isNone_none, Bool.and_true]

/-! Host translations (R199, R216, R217). -/

theorem atsResponse_ignored {die pasid page hpa : Nat} {r w error later : Bool} {s : State}
    (h : later = true ∨ ∀ q, q ∈ s.atsReqs → ¬ (q.die = die ∧ q.pasid = pasid ∧ q.page = page)) :
    exec (.atsTranslationResponse die pasid page hpa r w error later) s = .next s := by
  show execAtsTranslationResponse die pasid page hpa r w error later s = .next s
  unfold execAtsTranslationResponse
  rw [event_modify, if_pos]
  simp only [Bool.or_eq_true, Bool.not_eq_true', List.any_eq_false, Bool.and_eq_true, beq_iff_eq, and_assoc]
  exact h

theorem atsResponse_cached {die pasid page hpa : Nat} {r w error : Bool} {s : State}
    (h : ∃ q, q ∈ s.atsReqs ∧ (q.die = die ∧ q.pasid = pasid ∧ q.page = page)) :
    Completes (.atsTranslationResponse die pasid page hpa r w error false) s fun t =>
      t = { s with ats := t.ats, atsReqs := t.atsReqs } ∧
      (∀ q, q ∈ t.atsReqs ↔ q ∈ s.atsReqs ∧ ¬ (q.die = die ∧ q.pasid = pasid ∧ q.page = page)) ∧
      ∃ asked, (asked = true ↔ ∃ q, q ∈ s.atsReqs ∧ (q.die = die ∧ q.pasid = pasid ∧ q.page = page) ∧ q.write = true) ∧
        ∀ e, e ∈ t.ats ↔ e = ⟨die, pasid, page, hpa, r, w, error, asked⟩ ∨
          e ∈ s.ats ∧ ¬ (e.die = die ∧ e.pasid = pasid ∧ e.page = page) := by
  have hc : ¬ (false || !s.atsReqs.any fun q => q.die == die && q.pasid == pasid && q.page == page) = true := by
    simp only [Bool.false_or, Bool.not_eq_true', Bool.not_eq_false, List.any_eq_true, Bool.and_eq_true, beq_iff_eq, and_assoc]
    exact h
  have he : exec (.atsTranslationResponse die pasid page hpa r w error false) s = .next { s with
      atsReqs := s.atsReqs.filter fun q => !(q.die == die && q.pasid == pasid && q.page == page),
      ats := ⟨die, pasid, page, hpa, r, w, error,
          s.atsReqs.any fun q => (q.die == die && q.pasid == pasid && q.page == page) && q.write⟩ ::
        s.ats.filter fun e => !(e.die == die && e.pasid == pasid && e.page == page) } := by
    show execAtsTranslationResponse die pasid page hpa r w error false s = _
    unfold execAtsTranslationResponse
    rw [event_modify, if_neg hc]
  refine ⟨_, he, rfl, fun q => ?_, _, ?_, fun e => List.mem_cons.trans (or_congr Iff.rfl ?_)⟩
  · simp only [List.mem_filter, Bool.not_eq_true', Bool.eq_false_iff, ne_eq, Bool.and_eq_true, beq_iff_eq, and_assoc]
  · simp only [List.any_eq_true, Bool.and_eq_true, beq_iff_eq, and_assoc]
  · simp only [List.mem_filter, Bool.not_eq_true', Bool.eq_false_iff, ne_eq, Bool.and_eq_true, beq_iff_eq, and_assoc]

/-! The watchdog (R280). -/

/-- A sequencer of core `n` whose wait on tokens or counters has lasted for WDOG µs (R280). -/
def State.stuckIn (s : State) (n : Nat) (x : Seq) : Prop :=
  ∃ w, x.wait = some w ∧ w.counted = true ∧ w.since + 1750 * (s.core n).wdog.toNat ≤ s.clock

/-- The sequencers of a core that are not parked. -/
def Core.live (k : Core) : List SeqId := allSeqs.filter fun q => !(k.seq q).parked

theorem mem_live (k : Core) (q : SeqId) : q ∈ k.live ↔ (k.seq q).parked = false := by
  have hq : q ∈ allSeqs := by cases q <;> decide
  simp [Core.live, hq]

/-- The first sequencer that is not parked heads the list. -/
theorem live_cons {k : Core} {q : SeqId} (hq : (k.seq q).parked = false)
    (hp : ∀ p : SeqId, p.code < q.code → (k.seq p).parked = true) : ∃ l, k.live = q :: l := by
  have hl := hp .L
  have hx := hp .X
  have hs := hp .S
  cases q <;> simp_all [Core.live, allSeqs, SeqId.code, List.filter_cons]

section
variable (s : State) (n : Nat)

/-- Whether the wait of sequencer `q` has lasted for WDOG µs. -/
def State.stuckAt (q : SeqId) : Bool :=
  match ((s.core n).seq q).wait with
  | some w => w.counted && w.since + usClocks (s.core n).wdog.toNat ≤ s.clock
  | none => false

theorem stuckAt_iff (q : SeqId) : s.stuckAt n q = true ↔ s.stuckIn n ((s.core n).seq q) := by
  unfold State.stuckAt State.stuckIn
  cases ((s.core n).seq q).wait with
  | none => simp
  | some w =>
    simp only [Bool.and_eq_true, decide_eq_true_eq, Option.some.injEq, exists_eq_left']
    exact Iff.rfl

/-- TIMEOUT is due (R280). -/
def State.timesOut : Prop :=
  (s.core n).wdog ≠ 0 ∧ (s.core n).nest = 0 ∧ (s.core n).halted = false ∧
    (∀ q, ((s.core n).seq q).parked = false → s.stuckIn n ((s.core n).seq q)) ∧
    ∀ p, p ∈ (s.core n).pend → p.cause ≠ cTIMEOUT

theorem watchdogDue_eq [Decidable (s.timesOut n)] : s.watchdogDue n = if s.timesOut n then
    (match (s.core n).live with
    | q :: _ => ((s.core n).seq q).wait.map (fun w => (q, fieldOf (encode w.i) 56 8))
    | [] => none) else none := by
  have hc : ((s.core n).wdog != 0 && (s.core n).nest == 0 && !(s.core n).halted && (s.core n).live.all (s.stuckAt n) &&
      !(s.core n).pend.any (fun p => p.cause == cTIMEOUT)) = true ↔ s.timesOut n := by
    simp only [Bool.and_eq_true, bne_iff_ne, beq_iff_eq, Bool.not_eq_true', List.all_eq_true, mem_live, stuckAt_iff,
      List.any_eq_false, and_assoc]
    exact Iff.rfl
  simp only [← hc]
  rfl

theorem watchdogDue_none (h : ¬ s.timesOut n) : s.watchdogDue n = none := by
  classical
  rw [watchdogDue_eq, if_neg h]

theorem watchdogDue_first (h : s.timesOut n) {q : SeqId} {w : Waiting} (hq : ((s.core n).seq q).parked = false)
    (hp : ∀ p : SeqId, p.code < q.code → ((s.core n).seq p).parked = true) (hw : ((s.core n).seq q).wait = some w) :
    s.watchdogDue n = some (q, fieldOf (encode w.i) 56 8) := by
  classical
  obtain ⟨l, hl⟩ := live_cons hq hp
  rw [watchdogDue_eq, if_pos h, hl]
  dsimp only
  rw [hw]
  rfl

theorem exec_watchdog_none (h : s.watchdogDue n = none) : exec (.watchdogTimeout n) s = .next s := by
  refine event_ok (u := ()) ?_
  rw [h]
  rfl

theorem exec_watchdog_some {q : SeqId} {b : Nat} (h : s.watchdogDue n = some (q, b)) :
    exec (.watchdogTimeout n) s = .next (s.raiseA n q cTIMEOUT b) := by
  refine event_ok (u := ()) ?_
  rw [h]
  rfl

end

/-! Invalidations (R214 to R216). -/

section
variable {s : State} {d : InvDesc}

theorem drainInval_waits {sel : PLine → Bool} (h : s.undrained d = true) : drainInval d sel s = .error (.wait false) s := by
  unfold drainInval
  rw [run_get_bind, if_pos h]
  rfl

/-- With nothing buffered and nothing let go under what was removed, the drained invalidation changes nothing. -/
theorem drainInval_clear {sel : PLine → Bool} (h : s.undrained d = false)
    (hl : ∀ e, e ∈ s.cores → ∀ l, l ∈ e.2.psb → sel l = false ∧ inGone d.gone l.ctx l.pa = false)
    (hp : ∀ p, p ∈ s.posted → ∀ r, r ∈ d.gone → p.pa < r.2.1 ∨ r.2.1 + r.2.2 ≤ p.pa) : drainInval d sel s = .ok () s := by
  have hf : flushFrames (fun l => sel l || inGone d.gone l.ctx l.pa) s = .ok () s := by
    have hc : s.cores.filter (fun e => e.2.psb.any fun l => sel l || inGone d.gone l.ctx l.pa) = [] := by
      refine List.filter_eq_nil_iff.2 fun e he ha => ?_
      obtain ⟨l, hm, hb⟩ := List.any_eq_true.1 ha
      rw [(hl e he l hm).1, (hl e he l hm).2] at hb
      cases hb
    unfold flushFrames
    rw [run_get_bind, hc]
    rfl
  have hg (p : Posted) (hm : p ∈ s.posted) : (d.gone.any fun r => r.2.1 ≤ p.pa && p.pa < r.2.1 + r.2.2) = false := by
    refine List.any_eq_false.2 fun r hr => ?_
    have := hp p hm r hr
    simp only [Bool.and_eq_true, decide_eq_true_eq]
    omega
  have hpost : s.publishPosted (fun p => d.gone.any fun r => r.2.1 ≤ p.pa && p.pa < r.2.1 + r.2.2) = s := by
    have h0 : s.posted.filter (fun p => d.gone.any fun r => r.2.1 ≤ p.pa && p.pa < r.2.1 + r.2.2) = [] :=
      List.filter_eq_nil_iff.2 fun p hm => by rw [hg p hm]; decide
    have h1 : s.posted.filter (fun p => !(d.gone.any fun r => r.2.1 ≤ p.pa && p.pa < r.2.1 + r.2.2)) = s.posted :=
      List.filter_eq_self.2 fun p hm => by rw [hg p hm]; rfl
    unfold State.publishPosted
    rw [h0, h1]
    rfl
  unfold drainInval
  rw [run_get_bind, h, if_neg Bool.false_ne_true]
  refine (run_bind_ok hf).trans ?_
  exact congrArg (EStateM.Result.ok ()) hpost

end

/-- An event whose work waits has no effect. -/
theorem event_waits {body : Op Unit} {s : State} {n : Bool} (h : body s = .error (.wait n) s) : event body s = .next s := by
  rw [event, h]
  exact congrArg Host.Outcome.next (errState_self s)

section
variable {n : Nat} {s : State}

theorem exec_inval_none (h : (s.core n).inval = none) : exec (.invalidationAcknowledgement n) s = .next s := by
  refine event_ok (u := ()) ?_
  rw [h]
  rfl

variable {d : InvDesc} (h : (s.core n).inval = some d)
include h

theorem exec_inval_undrained (hu : s.undrained d = true) : exec (.invalidationAcknowledgement n) s = .next s := by
  refine event_waits (n := false) ?_
  rw [h]
  exact run_bind_error (drainInval_waits hu)

theorem exec_inval_drained (hu : s.undrained d = false)
    (hl : ∀ e, e ∈ s.cores → ∀ l, l ∈ e.2.psb → d.covers l.ctx l.va 128 = false ∧ inGone d.gone l.ctx l.pa = false)
    (hp : ∀ p, p ∈ s.posted → ∀ r, r ∈ d.gone → p.pa < r.2.1 ∨ r.2.1 + r.2.2 ≤ p.pa) :
    exec (.invalidationAcknowledgement n) s =
      .next ((s.publishN (d.addr + 0x18) 1 1).modCore n fun k => { k with inval := none }) := by
  refine event_ok (u := ()) ?_
  rw [h]
  exact (run_bind_ok (drainInval_clear hu hl hp)).trans rfl

end

/-- STATUS 1 is written and the invalidation ends (R214, R215). -/
theorem acknowledged_post (s : State) (n a : Nat) :
    let t := (s.publishN a 1 1).modCore n fun k => { k with inval := none }
    { s with mem := t.mem, poison := t.poison, pubs := t.pubs, npub := t.npub, hostDirty := t.hostDirty }.onlyThat n
        { s.core n with inval := none } t ∧ ∀ x, t.byte x = if x = a then 1 else s.byte x := by
  intro t
  have he : s.publishN a 1 1 = _ := publish_eq s a (bytesOf 1 1) false
  have hc (m : Nat) : (s.publishN a 1 1).core m = s.core m := by unfold State.core; rw [he]
  refine ⟨⟨?_, fun m hm => ?_, ?_⟩, fun x => ?_⟩
  · exact congrArg (fun u : State => { u with cores := t.cores }) he
  · exact ((core_modCore _ _ m _).trans (if_neg hm)).trans (hc m)
  · refine ((core_modCore _ _ n _).trans (if_pos rfl)).trans ?_
    rw [hc]
  · refine (byte_publishN s a 1 1 x).trans ?_
    by_cases hx : x = a
    · subst hx
      rw [if_pos rfl, if_pos (by omega), Nat.sub_self]
      rfl
    · rw [if_neg hx, if_neg (by omega)]

/-! The host's invalidation (R216). -/

/-- Whether `a` is the invalidation that the host asks for. -/
def AtsInv.asks (a : AtsInv) (die pasid start len : Nat) : Prop :=
  a.die = die ∧ a.pasid = pasid ∧ a.start = start ∧ a.len = len

/-- The work of ATS_INVALIDATION_REQUEST on an invalidation that has begun. -/
def atsInvalidate (die pasid start len : Nat) : Op Unit := do
  match (← get).atsInv.find? (fun a => a.die == die && a.pasid == pasid && a.start == start && a.len == len) with
  | none => pure ()
  | some a => do
    let ctxs := (((← get).cores.flatMap (fun e => e.2.psb.map (·.ctx)))).eraseDups
    let ids ← collect ctxs (fun x => do return (x, (← ctxEnt die x).pasid))
    drainInval a.desc (fun l => l.va < 2 ^ 63 && l.va < start + len && start < l.va + 128 &&
      ids.any (fun p => p.1 == l.ctx && p.2 == pasid))
    modify (fun s => { s with
      atsInv := s.atsInv.erase a
      pcie := s.pcie ++ [.invalidationCompletion die pasid start len] })

section
variable {die pasid start len : Nat} {s : State}

theorem exec_atsInvalidation (i : Instr) (hi : i = .atsInvalidationRequest die pasid start len) (s : State) :
    ((∀ a, a ∈ s.atsInv → ¬ a.asks die pasid start len) →
      exec i s = event (atsInvalidate die pasid start len) (s.beginAtsInv die pasid start len)) ∧
    ((∃ a, a ∈ s.atsInv ∧ a.asks die pasid start len) → exec i s = event (atsInvalidate die pasid start len) s) := by
  subst hi
  have he : exec (.atsInvalidationRequest die pasid start len) s = event (atsInvalidate die pasid start len)
      (if s.atsInv.any (fun a => a.die == die && a.pasid == pasid && a.start == start && a.len == len) then s
        else s.beginAtsInv die pasid start len) := rfl
  have hb : s.atsInv.any (fun a => a.die == die && a.pasid == pasid && a.start == start && a.len == len) = true ↔
      ∃ a, a ∈ s.atsInv ∧ a.asks die pasid start len := by
    simp only [List.any_eq_true, Bool.and_eq_true, beq_iff_eq, and_assoc]
    exact Iff.rfl
  rw [he]
  refine ⟨fun h => ?_, fun h => ?_⟩
  · rw [if_neg fun hn => ?_]
    obtain ⟨a, ha, hm⟩ := hb.1 hn
    exact h a ha hm
  · rw [if_pos (hb.2 h)]

variable {a : AtsInv} {l r : List AtsInv} (hl : s.atsInv = l ++ a :: r) (hn : ∀ b, b ∈ l → ¬ b.asks die pasid start len)
  (ha : a.asks die pasid start len) (hpsb : ∀ e, e ∈ s.cores → e.2.psb = [])
include hl hn ha hpsb

/-- With nothing buffered the invalidation waits for what it covers, or is completed. -/
theorem atsInvalidate_run : (s.undrained a.desc = true → event (atsInvalidate die pasid start len) s = .next s) ∧
    (s.undrained a.desc = false → (∀ p, p ∈ s.posted → ∀ r, r ∈ a.gone → p.pa < r.2.1 ∨ r.2.1 + r.2.2 ≤ p.pa) →
      event (atsInvalidate die pasid start len) s = .next { s with
        atsInv := s.atsInv.erase a, pcie := s.pcie ++ [.invalidationCompletion die pasid start len] }) := by
  have hf : s.atsInv.find? (fun a => a.die == die && a.pasid == pasid && a.start == start && a.len == len) = some a := by
    have hb (b : AtsInv) : (b.die == die && b.pasid == pasid && b.start == start && b.len == len) = true ↔
        b.asks die pasid start len := by
      simp only [Bool.and_eq_true, beq_iff_eq, and_assoc]
      exact Iff.rfl
    rw [hl, List.find?_append, List.find?_eq_none.2 fun b hm hs => hn b hm ((hb b).1 hs), Option.none_or]
    exact List.find?_cons_of_pos (p := fun a : AtsInv => a.die == die && a.pasid == pasid && a.start == start && a.len == len)
      ((hb a).2 ha)
  have hctx : ((s.cores.flatMap fun e => e.2.psb.map (·.ctx))).eraseDups = [] := by
    have h0 : (s.cores.flatMap fun e => e.2.psb.map (·.ctx)) = [] :=
      List.flatMap_eq_nil_iff.2 fun e he => by rw [hpsb e he]; rfl
    rw [h0]
    rfl
  have hrun : ∀ o, (drainInval a.desc (fun l => l.va < 2 ^ 63 && l.va < start + len && start < l.va + 128 &&
      ([] : List (Nat × Nat)).any (fun p => p.1 == l.ctx && p.2 == pasid)) >>= fun _ => modify (fun s => { s with
        atsInv := s.atsInv.erase a
        pcie := s.pcie ++ [.invalidationCompletion die pasid start len] })) s = o → atsInvalidate die pasid start len s = o := by
    intro o ho
    unfold atsInvalidate
    rw [run_get_bind, hf]
    dsimp only
    rw [run_get_bind, hctx]
    exact ho
  refine ⟨fun hu => ?_, fun hu hp => ?_⟩
  · exact event_waits (hrun _ (run_bind_error (drainInval_waits hu)))
  · exact event_ok (hrun _ (run_bind_ok (drainInval_clear hu (fun e he l hm => by rw [hpsb e he] at hm; cases hm) hp)))

end

/-! Waits that are resumed: TQPOP and SLEEP (R339, R359). -/

section
variable {n : Nat} {w : Waiting} {s : State} (hw : (s.core n).c.wait = some w) (hm : s.mayIssue n .C = true)
  (hd : (s.core n).dueA = none)
include hw hm hd

theorem exec_blockStart {c : Ctl} {rd : Nat} {to_ : Option Nat} (hi : w.i = .tqpop c rd to_) :
    exec (.blockStart n) s = exec (.tqpop c rd to_) { s with cur := n, curSeq := .C } := by
  refine (reissue_due (q := .C) hw hm hd).trans ?_
  rw [hi]
  rfl

theorem exec_tqpopTimeout {c : Ctl} {rd ra : Nat} (hi : w.i = .tqpop c rd (some ra)) (hc : w.counted = false)
    (ht : w.since + 1750 * ((s.core n).g .C ra).toNat ≤ s.clock) :
    exec (.tqpopTimeout n) s = exec (.tqpop c rd (some ra)) { s with cur := n, curSeq := .C } := by
  show execTqpopTimeout n s = _
  unfold execTqpopTimeout
  rw [reissue_due (q := .C) hw hm hd, hi]
  have hdue : (!w.counted && decide (w.since + usClocks ((s.core n).g .C ra).toNat ≤ s.clock)) = true := by
    rw [hc]
    exact decide_eq_true ht
  exact (if_pos hdue).trans rfl

theorem exec_sleepWakeup {c : Ctl} {ra : Nat} (hi : w.i = .sleep c ra) (hc : w.counted = false)
    (h0 : (s.core n).g .C ra ≠ 0) (ht : w.since + 1750 * ((s.core n).g .C ra).toNat ≤ s.clock) :
    exec (.sleepWakeup n) s = exec (.sleep c ra) { s with cur := n, curSeq := .C } := by
  have hn : ((s.core n).g .C ra).toNat ≠ 0 := fun h => h0 (BitVec.eq_of_toNat_eq h)
  show execSleepWakeup n s = _
  unfold execSleepWakeup
  rw [reissue_due (q := .C) hw hm hd, hi]
  have hdue : (!w.counted && ((s.core n).g .C ra).toNat != 0 &&
      decide (w.since + usClocks ((s.core n).g .C ra).toNat ≤ s.clock)) = true := by
    rw [hc, bne_iff_ne.2 hn]
    exact decide_eq_true ht
  exact (if_pos hdue).trans rfl

end

/-- A TQPOP whose time has passed when its pop finds nothing (R359). -/
theorem popExpired_ageSync {u : State} {w : Waiting} {ra d : Nat} (hw : u.mySeq.wait = some w) (hc : w.counted = false)
    (ht : w.since + 1750 * (u.g ra).toNat ≤ u.clock) :
    (u.ageSync d).popExpired (some ra) (u.ageSync d).issuedAt = true := by
  have hs : (u.ageSync d).mySeq = u.mySeq := (sameCores_ageSync u d).mySeq
  have hg : (u.ageSync d).g ra = u.g ra := (sameCores_ageSync u d).g ra
  have hi : (u.ageSync d).issuedAt = w.since := by
    unfold State.issuedAt
    rw [hs, hw]
    dsimp only
    rw [hc]
    rfl
  unfold State.popExpired
  dsimp only
  rw [hi, hg]
  exact decide_eq_true ht

/-- A SLEEP whose time has passed clears the event flag and goes on (R339). -/
theorem sleep_wakes {c : Ctl} {ra : Nat} {u : State} {w : Waiting} (hr : Ready (.sleep c ra) c [ra] u)
    (hw : u.mySeq.wait = some w) (hc : w.counted = false) (h0 : u.g ra ≠ 0)
    (ht : w.since + 1750 * (u.g ra).toNat ≤ u.clock) : Completes (.sleep c ra) u fun t =>
      u.retires c [] u { u.me with event := false } u.mySeq.onward t ∧ ∀ g, t.g g = u.g g := by
  have hi : u.issuedAt = w.since := by
    unfold State.issuedAt
    rw [hw]
    dsimp only
    rw [hc]
    rfl
  have hn : (u.g ra).toNat ≠ 0 := fun h => h0 (BitVec.eq_of_toNat_eq h)
  have hb : sleepBody ra u = .ok .next (u.modMe fun k => { k with event := false }) := by
    have hcond : (u.me.event || ((u.g ra).toNat != 0 && u.issuedAt + usClocks (u.g ra).toNat ≤ u.clock)) = true := by
      rw [hi, Bool.or_eq_true, Bool.and_eq_true]
      exact .inr ⟨bne_iff_ne.2 hn, decide_eq_true ht⟩
    unfold sleepBody
    rw [run_get_bind]
    exact (congrFun (if_pos hcond) u).trans rfl
  have hd : u.does [] u { u.me with event := false } u.mySeq (u.modMe fun k => { k with event := false }) := by
    have h := does_modMe (s := u) (fun k => { k with event := false }) (fun q => by cases q <;> rfl)
      (fun q => by cases q <;> rfl) rfl rfl rfl
    have hs : ({ u.me with event := false } : Core).seq u.curSeq = u.mySeq := by
      unfold State.mySeq
      cases u.curSeq <;> rfl
    rwa [hs] at h
  exact completes_of (i := .sleep c ra) rfl hr rfl hb (fun n => Post.noConfusion)
    ⟨hd.retire c .next, fun g => (g_retire c .next _ g).trans (hd.g (by simp))⟩

/-! The time-out of a BAR (R231). -/

section
variable (v : State) (sc : Nat)

theorem acquiredAt_me : ∃ a z l, (v.acquiredAt v.cur sc).me = { v.me with acq := a, seen := z, l1 := l } := by
  have h := core_acquiredAt v v.cur sc v.cur
  rw [if_pos rfl] at h
  unfold State.me
  rw [acquiredAt_cur]
  exact ⟨_, _, _, h⟩

theorem acquiredAt_mySeq : (v.acquiredAt v.cur sc).mySeq = v.mySeq := by
  obtain ⟨a, z, l, h⟩ := acquiredAt_me v sc
  unfold State.mySeq
  rw [h, acquiredAt_curSeq]
  cases v.curSeq <;> rfl

theorem acquiredAt_g (n : Nat) : (v.acquiredAt v.cur sc).g n = v.g n := by
  obtain ⟨a, z, l, h⟩ := acquiredAt_me v sc
  unfold State.g
  rw [h, acquiredAt_curSeq]
  cases v.curSeq <;> rfl

theorem acquiredAt_dies (c : Nat) : (v.acquiredAt c sc).dies = v.dies := by
  rw [acquiredAt_eq]
  split
  · have h := xlOnly_dropHostLines v
    rw [xlOnly] at h
    rw [h]
  · rfl

end

/-- The arrival at barrier `g` is withdrawn, unless another sequencer of the core waits there too (log 57). -/
def State.barWithdrawn (s : State) (g : Nat) : State :=
  if (s.barWaiters s.myDie g).any (fun p => p.1 == s.cur) then s else s.modGroup s.myDie g (fun x => x.withdraw s.cur)

/-- A BAR has run out of time: RD gives the arrivals, and the acquire is made (R231). -/
def State.barExpired (s : State) (g rd sc : Nat) (acq : Bool) : State :=
  let u := (s.barWithdrawn g).setG rd (BitVec.ofNat 32 (2 + ((s.die s.myDie).group g).barCores.length * 2 ^ 16))
  if acq then u.acquiredAt s.cur sc else u

theorem barExpire_run (g rd sc : Nat) (acq : Bool) (s : State) :
    barExpire g rd sc acq s = .ok .next (s.barExpired g rd sc acq) := by
  unfold barExpire State.barExpired State.barWithdrawn
  rw [run_get_bind]
  dsimp only
  cases hw : (s.barWaiters s.myDie g).any (fun p => p.1 == s.cur) <;> cases acq <;>
    simp only [Bool.not_true, Bool.not_false, if_true, if_false, Bool.false_eq_true, run_modify_bind,
      run_bind_ok (acquire_run _ _ _)] <;> rfl

theorem barBody_expires {i : Instr} {sc rd ra rb : Nat} {acq rel : Bool} {u : State} {w : Waiting}
    (hw : u.mySeq.wait = some w) (ha : w.arrived = true)
    (hfull : ((u.die u.myDie).group (u.g ra).toNat).barCores.length < ((u.die u.myDie).group (u.g ra).toNat).count)
    (ht : w.since + 1750 * (u.g rb).toNat ≤ u.clock) :
    barBody i sc acq rel rd ra (some rb) u = .ok .next (u.barExpired (u.g ra).toNat rd sc acq) := by
  obtain ⟨j, since, arrived, counted, stall⟩ := w
  cases ha
  have hf : ((u.die u.myDie).group (u.g ra).toNat).full = false := decide_eq_false (Nat.not_le.2 hfull)
  have hto : u.barTimedOut (some rb) since = true := decide_eq_true ht
  unfold barBody
  rw [run_get_bind, hw]
  dsimp only
  rw [hf, hto]
  exact barExpire_run _ _ _ _ u

theorem exec_barTimeout {n : Nat} {q : SeqId} {w : Waiting} {c : Ctl} {sc rd ra rb : Nat} {acq rel : Bool} {s : State}
    (hw : ((s.core n).seq q).wait = some w) (hi : w.i = .bar c sc acq rel rd ra (some rb)) (ha : w.arrived = true)
    (hm : s.mayIssue n q = true) (hd : (s.core n).dueA = none) :
    (s.clock < w.since + 1750 * ((s.core n).g q rb).toNat → exec (.barTimeout n q) s = .next s) ∧
    (w.since + 1750 * ((s.core n).g q rb).toNat ≤ s.clock → exec (.barTimeout n q) s =
      exec (.bar c sc acq rel rd ra (some rb)) { s with cur := n, curSeq := q }) := by
  show (_ → execBarTimeout n q s = _) ∧ (_ → execBarTimeout n q s = _)
  unfold execBarTimeout
  rw [reissue_due hw hm hd, hi]
  have hdue : (w.arrived && decide (w.since + usClocks ((s.core n).g q rb).toNat ≤ s.clock)) = true ↔
      w.since + 1750 * ((s.core n).g q rb).toNat ≤ s.clock := by
    rw [ha, Bool.true_and, decide_eq_true_eq]
    exact Iff.rfl
  exact ⟨fun ht => if_neg fun h => absurd (hdue.1 h) (Nat.not_le.2 ht), fun ht => (if_pos (hdue.2 ht)).trans rfl⟩

theorem group_withdraw (x : Group) (c : Nat) : (x.withdraw c).barCores = x.barCores.filter (· != c) := by
  unfold Group.withdraw
  split
  · rfl
  · next h =>
    refine (List.filter_eq_self.2 fun a ha => ?_).symm
    rw [bne_iff_ne]
    rintro rfl
    exact h (List.contains_iff_mem.2 ha)

theorem barWithdrawn_group (s : State) (g : Nat) : (((s.barWithdrawn g).die s.myDie).group g).barCores =
    if (s.barWaiters s.myDie g).any (fun p => p.1 == s.cur) then ((s.die s.myDie).group g).barCores
    else ((s.die s.myDie).group g).barCores.filter (· != s.cur) := by
  unfold State.barWithdrawn
  split
  · rfl
  · rw [State.modGroup, die_modDie, if_pos rfl, ← group_withdraw]
    simp [Die.group]

/-- A BAR that has run out of time (R231). -/
theorem bar_expired_post (u : State) (g rd sc : Nat) (acq : Bool) (c : Ctl) :
    let x := (u.die u.myDie).group g
    let t := retire c .next (u.barExpired g rd sc acq)
    u.putsScalar false rd (2 + x.barCores.length * 2 ^ 16) t ∧ t.mySeq.pc = u.mySeq.pc + 8 ∧ t.mySeq.wait = none ∧
      ((t.die u.myDie).group g).barCores =
        if (u.barWaiters u.myDie g).any (fun p => p.1 == u.cur) then x.barCores else x.barCores.filter (· != u.cur) := by
  intro x t
  have hk : u.sameCores (u.barWithdrawn g) := by
    unfold State.barWithdrawn
    split
    · exact (xlOnly_refl u).sameCores
    · exact sameCores_of_cores rfl rfl rfl
  have hcur : ((u.barWithdrawn g).setG rd (BitVec.ofNat 32 (2 + x.barCores.length * 2 ^ 16))).cur = u.cur := hk.cur
  have hv : ∃ v : State, v = (u.barWithdrawn g).setG rd (BitVec.ofNat 32 (2 + x.barCores.length * 2 ^ 16)) ∧
      (u.barExpired g rd sc acq).mySeq = v.mySeq ∧ (∀ n, (u.barExpired g rd sc acq).g n = v.g n) ∧
      (u.barExpired g rd sc acq).dies = v.dies := by
    refine ⟨_, rfl, ?_⟩
    unfold State.barExpired
    cases acq
    · exact ⟨rfl, fun n => rfl, rfl⟩
    · have ha := acquiredAt_mySeq ((u.barWithdrawn g).setG rd (BitVec.ofNat 32 (2 + x.barCores.length * 2 ^ 16))) sc
      have hg := acquiredAt_g ((u.barWithdrawn g).setG rd (BitVec.ofNat 32 (2 + x.barCores.length * 2 ^ 16))) sc
      have hd := acquiredAt_dies ((u.barWithdrawn g).setG rd (BitVec.ofNat 32 (2 + x.barCores.length * 2 ^ 16))) sc u.cur
      rw [hcur] at ha hg
      exact ⟨ha, hg, hd⟩
  obtain ⟨v, rfl, hseq, hg, hdies⟩ := hv
  have hpc := (hk.does.setG rd (BitVec.ofNat 32 (2 + x.barCores.length * 2 ^ 16))).seq
  refine ⟨fun n => ?_, ?_, ?_, ?_⟩
  · refine (g_retire c .next _ n).trans ((hg n).trans ?_)
    rw [g_setG, hk.g]
    simp
  · refine (congrArg Seq.pc (retire_mySeq c .next _)).trans ?_
    show (u.barExpired g rd sc acq).mySeq.pc + 8 = _
    rw [hseq, hpc]
  · exact (congrArg Seq.wait (retire_mySeq c .next _)).trans rfl
  · have hdt : t.die u.myDie = (u.barWithdrawn g).die u.myDie := by
      unfold State.die
      refine congrArg (fun l : Store Die => Store.get {} l u.myDie) ?_
      unfold t
      rw [(retire_coreOnly c .next _).1]
      exact hdies
    rw [hdt]
    exact barWithdrawn_group u g

/-! The entry of a first trap (R272). -/

theorem exec_trapEntry_waits {n : Nat} {s : State} (h : (s.core n).trapping = none ∨ (s.core n).quiet = false) :
    exec (.trapEntry n) s = .next s := by
  show tryEnter n s = .next s
  unfold tryEnter
  cases ht : (s.core n).trapping with
  | none => rfl
  | some r =>
    rw [ht] at h
    exact if_neg (by simpa using h)

theorem exec_trapEntry_enters {n : Nat} {r : TrapReq} {s t : State} (ht : (s.core n).trapping = some r)
    (hq : (s.core n).quiet = true) (he : enterTrap n r s = .ok () t) : exec (.trapEntry n) s = .next t := by
  show tryEnter n s = .next t
  unfold tryEnter
  rw [ht]
  dsimp only
  rw [if_pos hq, he]

/-- A core without its waits and its counters of stalled clocks, which its trap clears and counts up (R191, R272). -/
def Core.calm (k : Core) : Core :=
  { k with hots := [], l := { k.l with wait := none }, x := { k.x with wait := none }, s := { k.s with wait := none },
           c := { k.c with wait := none } }

theorem calm_modSeq_wait (k : Core) (q : SeqId) (h : Store Nat) (w : Option Waiting) :
    (({ k with hots := h } : Core).modSeq q fun x => { x with wait := w }).calm = k.calm := by cases q <;> rfl

/-- `t` is `s` but for the waits of core `n` and its counters of stalled clocks. -/
def State.calmly (s : State) (n : Nat) (t : State) : Prop :=
  t = { s with cores := t.cores } ∧ (∀ m, m ≠ n → t.core m = s.core m) ∧ (t.core n).calm = (s.core n).calm

theorem State.calmly.trans {s t u : State} {n : Nat} (h : s.calmly n t) (k : t.calmly n u) : s.calmly n u := by
  obtain ⟨h1, h2, h3⟩ := h
  obtain ⟨k1, k2, k3⟩ := k
  refine ⟨?_, fun m hm => (k2 m hm).trans (h2 m hm), k3.trans h3⟩
  rw [k1, h1]

theorem calmly_stallSync (s : State) (n : Nat) (q : SeqId) : s.calmly n (s.stallSync n q) := by
  have hr : s.calmly n s := ⟨rfl, fun m _ => rfl, rfl⟩
  have hc (w : Waiting) (b : Nat) : s.calmly n (s.countStall n q w b) := by
    refine ⟨rfl, fun m hm => ?_, ?_⟩
    · rw [State.countStall, core_modCore, if_neg hm]
    · rw [State.countStall, core_modCore, if_pos rfl]
      exact calm_modSeq_wait _ _ _ _
  unfold State.stallSync
  split
  · split
    · exact hc _ _
    · exact hr
  · exact hr

/-- The stall clocks of every sequencer of core `n` counted up to now (R191). -/
def State.stallsTold (s : State) (n : Nat) : State := allSeqs.foldl (fun s q => s.stallSync n q) s

theorem calmly_stallsTold (s : State) (n : Nat) : s.calmly n (s.stallsTold n) :=
  (((calmly_stallSync s n _).trans (calmly_stallSync _ n _)).trans (calmly_stallSync _ n _)).trans (calmly_stallSync _ n _)

theorem endSleep_of_plainWaits {s : State} {n : Nat} (h : s.plainWaits n) : s.endSleep n = s := by
  unfold State.endSleep
  split
  · next ctl ra since arrived stall hw => exact absurd ((h .C _ hw).2 ctl ra rfl) Bool.false_ne_true
  · rfl

/-- The core as its handler starts, no block being current. -/
def Core.entered (k : Core) (r : TrapReq) (vec : DWord) : Core :=
  let k := k.enter0 r vec
  { k with cur := k.cur.map (fun b => { b with fltd := true }), inHandler := k.cur.isSome }

theorem enterTrap_first {n : Nat} {r : TrapReq} {s : State} (hs : s.endSleep n = s)
    (h0 : ((s.stallsTold n).core n).nest = 0) (hc : ((s.stallsTold n).core n).cur = none) (hp : r.cause ≠ cPREEMPT)
    (he : r.cause ≠ cECC) : enterTrap n r s =
      .ok () ((s.stallsTold n).modCore n fun k => k.entered r (((s.stallsTold n).die (dieOfCore n)).trapvec)) := by
  have hcause : ¬ ((decide (r.cause = cECC) && decide (r.eva / 2 ^ 48 = 0xFFFD)) = true) := by
    rw [Bool.and_eq_true]
    exact fun h => he (of_decide_eq_true h.1)
  have hst : allSeqs.foldl (fun s q => s.stallSync n q) s = s.stallsTold n := rfl
  unfold enterTrap
  rw [run_get_bind, hs, hst, run_set_bind, if_neg hcause]
  dsimp only
  rw [h0, if_pos rfl, hc, if_neg hp]
  rfl

/-- The core as its first trap finds it, without what the trap leaves open. -/
def Core.trapped (k : Core) (r : TrapReq) (vec : DWord) (h : Store Nat) : Core := { k with
  l := k.l.stopped, x := k.x.stopped, s := k.s.stopped, c := { k.c.stopped with pc := vec },
  cause := BitVec.ofNat 8 (r.cause % 64 + 64 * r.seq.code), epc := r.epc, eva := BitVec.ofNat 64 r.eva, nest := 1,
  priv := true, inHandler := false, trapping := none, hots := h }

theorem entered_eq {k : Core} (r : TrapReq) (vec : DWord) (hc : k.cur = none) :
    k.entered r vec = k.trapped r vec k.hots := by
  obtain ⟨⟩ := k
  cases hc
  rfl

theorem trapped_calm (k : Core) (r : TrapReq) (vec : DWord) (h : Store Nat) : k.calm.trapped r vec h = k.trapped r vec h := rfl

theorem trapEntry_enters {n : Nat} {r : TrapReq} {s : State} (ht : (s.core n).trapping = some r)
    (hq : (s.core n).quiet = true) (h0 : (s.core n).nest = 0) (hc : (s.core n).cur = none) (hp : r.cause ≠ cPREEMPT)
    (he : r.cause ≠ cECC) (hw : s.plainWaits n) : let k := s.core n
    Completes (.trapEntry n) s (s.onlyCore n { k with
      l := k.l.stopped, x := k.x.stopped, s := k.s.stopped,
      c := { k.c.stopped with pc := (s.die (dieOfCore n)).trapvec },
      cause := BitVec.ofNat 8 (r.cause % 64 + 64 * r.seq.code), epc := r.epc, eva := BitVec.ofNat 64 r.eva, nest := 1,
      priv := true, inHandler := false, trapping := none }) := by
  intro k
  obtain ⟨hu, ho, hk⟩ := calmly_stallsTold s n
  have hd : (s.stallsTold n).die (dieOfCore n) = s.die (dieOfCore n) := by
    unfold State.die
    rw [hu]
  refine ⟨_, exec_trapEntry_enters ht hq (enterTrap_first (endSleep_of_plainWaits hw) ((congrArg Core.nest hk).trans h0)
    ((congrArg Core.cur hk).trans hc) hp he), ?_, fun m hm => ?_, ?_⟩
  · exact congrArg (fun u : State => { u with
      cores := ((s.stallsTold n).modCore n fun k => k.entered r (((s.stallsTold n).die (dieOfCore n)).trapvec)).cores }) hu
  · exact ((core_modCore _ _ m _).trans (if_neg hm)).trans (ho m hm)
  · have hcore := (core_modCore (s.stallsTold n) n n
      fun k => k.entered r (((s.stallsTold n).die (dieOfCore n)).trapvec)).trans (if_pos rfl)
    have hcur : ((s.stallsTold n).core n).cur = none := (congrArg Core.cur hk).trans hc
    rw [hcore, hd, entered_eq r _ hcur, ← trapped_calm, hk, trapped_calm]
    rfl

/-! The Sorting Frame (R36, R37). -/

theorem die_ageSync (s : State) (d m : Nat) :
    (s.ageSync d).die m = if m = d then { s.die d with lastTick := s.clock } else s.die m :=
  die_modDie s d m fun x => { x with lastTick := s.clock }

theorem frameAging_post (d : Nat) (s : State) : Completes (.frameAgingTick d) s fun t =>
    t = { s with dies := t.dies, tasks := t.tasks } ∧ (∀ m, m ≠ d → t.die m = s.die m) ∧
      t.die d = { s.die d with lastTick := s.clock } ∧
      t.tasks = s.tasks.map fun x => { x with frames := x.frames.map (s.older d) } := by
  refine ⟨s.ageSync d, event_ok (u := ()) rfl, rfl, fun m hm => ?_, ?_, ?_⟩
  · rw [die_ageSync, if_neg hm]
  · rw [die_ageSync, if_pos rfl]
  · rw [ageSync_eq]

/-! The insertion of a waiting task (R36). -/

/-- A state without its dies, tasks and cores. -/
def State.outside (s : State) : State := { s with dies := [], tasks := [], cores := [] }

theorem outside_cores (s : State) (l : Store Core) : ({ s with cores := l } : State).outside = s.outside := rfl

theorem eq_of_outside {s t : State} (h : t.outside = s.outside) :
    t = { s with dies := t.dies, tasks := t.tasks, cores := t.cores } :=
  congrArg (fun u : State => { u with dies := t.dies, tasks := t.tasks, cores := t.cores }) h

theorem outside_wakeDie (s : State) (d : Nat) : (s.wakeDie d).outside = s.outside :=
  (congrArg State.outside (wakeDie_eq s d)).trans (outside_cores s _)

/-- A task without the frames that it is in. -/
def Task.unframed (x : Task) : Task := { x with frames := [] }

theorem eq_of_unframed {x y : Task} (h : y.unframed = x.unframed) : y = { x with frames := y.frames } :=
  congrArg (fun z : Task => { z with frames := y.frames }) h

/-- The frames of `l` brought up to date. -/
def State.agedFor (s : State) (l : List FrameEnt) : State := l.foldl (fun s f => s.ageSync f.die) s

/-- The cores of the dies of `l` woken. -/
def State.wokenFor (s : State) (l : List FrameEnt) : State := l.foldl (fun s f => s.wakeDie f.die) s

theorem agedFor_outside (s : State) (l : List FrameEnt) : (s.agedFor l).outside = s.outside :=
  foldl_tasks (f := fun (s : State) (f : FrameEnt) => s.ageSync f.die) (g := State.outside) (fun _ _ => rfl) l s

theorem agedFor_core (s : State) (l : List FrameEnt) (n : Nat) : (s.agedFor l).core n = s.core n :=
  foldl_tasks (f := fun (s : State) (f : FrameEnt) => s.ageSync f.die)
    (g := fun u : State => u.core n) (fun _ _ => rfl) l s

theorem agedFor_tasks (s : State) (l : List FrameEnt) :
    (s.agedFor l).tasks.map Task.unframed = s.tasks.map Task.unframed := by
  refine foldl_tasks (f := fun (s : State) (f : FrameEnt) => s.ageSync f.die)
    (g := fun u : State => u.tasks.map Task.unframed) (fun u f => ?_) l s
  rw [ageSync_eq]
  simp only [List.map_map]
  rfl

theorem wokenFor_outside (s : State) (l : List FrameEnt) : (s.wokenFor l).outside = s.outside :=
  foldl_tasks (f := fun (s : State) (f : FrameEnt) => s.wakeDie f.die) (g := State.outside)
    (fun u f => outside_wakeDie u f.die) l s

theorem wokenFor_tasks (s : State) (l : List FrameEnt) : (s.wokenFor l).tasks = s.tasks :=
  foldl_tasks (f := fun (s : State) (f : FrameEnt) => s.wakeDie f.die) (g := State.tasks)
    (fun u f => tasks_wakeDie u f.die) l s

theorem wokenFor_core (n : Nat) : ∀ (l : List FrameEnt) (s : State), (s.wokenFor l).core n =
    if ∃ f, f ∈ l ∧ f.die = n / 144 then { s.core n with event := true } else s.core n
  | [], s => (if_neg fun ⟨f, hf, _⟩ => absurd hf List.not_mem_nil).symm
  | f :: l, s => by
    have hi : s.wokenFor (f :: l) = (s.wakeDie f.die).wokenFor l := by simp only [State.wokenFor, List.foldl_cons]
    rw [hi, wokenFor_core n l, core_wakeDie]
    by_cases hf : n / 144 = f.die
    · rw [if_pos hf]
      exact (ite_self _).trans (if_pos ⟨f, List.mem_cons_self, hf.symm⟩).symm
    · have hb : (∃ g, g ∈ f :: l ∧ g.die = n / 144) ↔ ∃ g, g ∈ l ∧ g.die = n / 144 := by
        simp only [List.mem_cons, exists_eq_or_imp]
        exact or_iff_right fun h => hf h.symm
      rw [if_neg hf]
      simp only [hb]

section
variable {s : State} {x : Task}

theorem framesRoom_iff (l : List FrameEnt) : s.framesRoom l = true ↔ ∀ f, f ∈ l → s.frameCount f.die < 65536 := by
  simp only [State.framesRoom, List.all_eq_true, decide_eq_true_eq]

/-- Task `x` enters the frames that it waits for. -/
def State.enters (s : State) (x : Task) : State :=
  let u := (s.agedFor x.waiting).wokenFor x.waiting
  { u with tasks := u.tasks.map fun y => if y.info.ctx == x.info.ctx && y.info.h == x.info.h then u.enterFrames y else y }

theorem enterWaiting_one : s.enterWaiting [x] =
    if !x.waiting.isEmpty && s.framesRoom x.waiting then s.enters x else s := rfl

theorem enters_post {ctx h : Nat} (hx : s.tasks.filter (·.is ctx h) = [x]) : let t := s.enters x
    t = { s with dies := t.dies, tasks := t.tasks, cores := t.cores } ∧
    { x with waiting := [], frames := x.waiting.map fun f => { f with at_ := s.clock, age := 0 } } ∈ t.tasks ∧
    t.tasks.length = s.tasks.length ∧
    (∀ y, y ∈ t.tasks → y.is ctx h = false → ∃ z, z ∈ s.tasks ∧ y = { z with frames := y.frames }) ∧
    ∀ n, t.core n = if ∃ f, f ∈ x.waiting ∧ f.die = n / 144 then { s.core n with event := true } else s.core n := by
  intro t
  obtain ⟨hmem, his⟩ : x ∈ s.tasks ∧ x.is ctx h = true := List.mem_filter.1 (by rw [hx]; exact List.mem_singleton.2 rfl)
  have hid (y : Task) : y.is ctx h = (y.info.ctx == x.info.ctx && y.info.h == x.info.h) := by
    unfold Task.is at his ⊢
    rw [Bool.and_eq_true, beq_iff_eq, beq_iff_eq] at his
    rw [his.1, his.2]
  have hout : t.outside = s.outside := (wokenFor_outside _ _).trans (agedFor_outside s _)
  have hclock : ((s.agedFor x.waiting).wokenFor x.waiting).clock = s.clock := by
    have h := congrArg State.clock ((wokenFor_outside (s.agedFor x.waiting) x.waiting).trans (agedFor_outside s x.waiting))
    exact h
  have htasks : t.tasks = (s.agedFor x.waiting).tasks.map fun y =>
      if y.is ctx h then ((s.agedFor x.waiting).wokenFor x.waiting).enterFrames y else y := by
    simp only [hid]
    exact congrArg (List.map _) (wokenFor_tasks _ _)
  have haged := agedFor_tasks s x.waiting
  refine ⟨eq_of_outside hout, ?_, ?_, fun y hy hn => ?_, fun n => ?_⟩
  · have hu : x.unframed ∈ (s.agedFor x.waiting).tasks.map Task.unframed := by
      rw [haged]
      exact List.mem_map_of_mem hmem
    obtain ⟨y, hy, he⟩ := List.mem_map.1 hu
    have hy' := eq_of_unframed he
    rw [htasks]
    refine List.mem_map.2 ⟨y, hy, ?_⟩
    have hi : y.is ctx h = true := by rw [hy']; exact his
    rw [if_pos hi, State.enterFrames, hclock, hy']
  · rw [htasks, List.length_map]
    simpa using congrArg List.length haged
  · rw [htasks] at hy
    obtain ⟨z, hz, he⟩ := List.mem_map.1 hy
    by_cases hi : z.is ctx h = true
    · rw [if_pos hi] at he
      have : y.is ctx h = true := by rw [← he]; exact hi
      rw [this] at hn
      cases hn
    · rw [if_neg hi] at he
      subst he
      have hu : z.unframed ∈ s.tasks.map Task.unframed := by
        rw [← haged]
        exact List.mem_map_of_mem hz
      obtain ⟨w, hw, he⟩ := List.mem_map.1 hu
      exact ⟨w, hw, eq_of_unframed he.symm⟩
  · refine (wokenFor_core n x.waiting _).trans ?_
    rw [agedFor_core]

theorem exec_taskInsertion {ctx h : Nat} (hx : s.tasks.filter (·.is ctx h) = [x]) :
    (x.waiting = [] ∨ (¬ ∀ f, f ∈ x.waiting → s.frameCount f.die < 65536) → exec (.taskInsertion ctx h) s = .next s) ∧
    (x.waiting ≠ [] → (∀ f, f ∈ x.waiting → s.frameCount f.die < 65536) →
      exec (.taskInsertion ctx h) s = .next (s.enters x)) := by
  have he : exec (.taskInsertion ctx h) s =
      .next (if !x.waiting.isEmpty && s.framesRoom x.waiting then s.enters x else s) := by
    refine (event_ok (u := ()) (t := s.enterWaiting (s.tasks.filter (·.is ctx h))) rfl).trans ?_
    rw [hx, enterWaiting_one]
  have hc : (!x.waiting.isEmpty && s.framesRoom x.waiting) = true ↔
      x.waiting ≠ [] ∧ ∀ f, f ∈ x.waiting → s.frameCount f.die < 65536 := by
    rw [Bool.and_eq_true, framesRoom_iff, Bool.not_eq_true', List.isEmpty_eq_false_iff]
  rw [he]
  refine ⟨fun hno => ?_, fun h1 h2 => ?_⟩
  · rw [if_neg]
    rw [hc]
    rintro ⟨h1, h2⟩
    exact hno.elim h1 fun h3 => h3 h2
  · rw [if_pos (hc.2 ⟨h1, h2⟩)]

end

/-! The events of the cores, assembled. -/

theorem completes_congr {i j : Instr} {s u : State} {P : State → Prop} (he : exec i s = exec j u) (h : Completes j u P) :
    Completes i s P := by
  obtain ⟨t, ht, hP⟩ := h
  exact ⟨t, he.trans ht, hP⟩

theorem coreWait_idle {n : Nat} {q : SeqId} {i : Instr} {s : State}
    (hi : (q = .C ∧ (i = .blockStart n ∨ i = .tqpopTimeout n ∨ i = .sleepWakeup n)) ∨ i = .barTimeout n q)
    (h : ((s.core n).seq q).wait = none ∨ s.mayIssue n q = false ∨ (s.core n).dueA ≠ none) : exec i s = .next s := by
  rcases hi with ⟨rfl, rfl | rfl | rfl⟩ | rfl
  · exact reissue_idle (q := .C) h
  · exact reissue_idle (q := .C) h
  · show execSleepWakeup n s = .next s
    unfold execSleepWakeup
    exact reissue_idle (q := .C) h
  · show execBarTimeout n q s = .next s
    unfold execBarTimeout
    exact reissue_idle (q := q) h

theorem preScope_run {sc : Nat} (h : sc < 12) (s : State) : preScope sc s = .ok () s := by
  have hc := checks_scope sc s
  rw [if_pos h] at hc
  exact hc

theorem barTimeout_post {n : Nat} {q : SeqId} {w : Waiting} {c : Ctl} {sc rd ra rb : Nat} {acq rel : Bool} {s : State}
    (hw : ((s.core n).seq q).wait = some w) (hi : w.i = .bar c sc acq rel rd ra (some rb)) (ha : w.arrived = true)
    (hsc : sc < 12) (hm : s.mayIssue n q = true) (hd : (s.core n).dueA = none) :
    let u : State := { s with cur := n, curSeq := q }
    let g := (u.g ra).toNat
    let x := (u.die u.myDie).group g
    Ready w.i c [ra, rb] u → w.since + 1750 * (u.g rb).toNat ≤ s.clock → x.barCores.length < x.count →
    Completes (.barTimeout n q) s fun t =>
      u.putsScalar false rd (2 + x.barCores.length * 2 ^ 16) t ∧ t.mySeq.pc = u.mySeq.pc + 8 ∧ t.mySeq.wait = none ∧
      ((t.die u.myDie).group g).barCores =
        if (u.barWaiters u.myDie g).any (fun p => p.1 == n) then x.barCores else x.barCores.filter (· != n) := by
  intro u g x hr ht hfull
  rw [hi] at hr
  exact completes_congr ((exec_barTimeout hw hi ha hm hd).2 ht) (completes_of rfl hr (preScope_run hsc u)
    (barBody_expires hw ha hfull ht) (fun m => Post.noConfusion) (bar_expired_post u g rd sc acq c))

theorem trapEntry_idle {n : Nat} {s : State}
    (h : (s.core n).trapping = none ∨ ¬ ((s.core n).xfers = [] ∧ ∀ q, ((s.core n).seq q).late = [])) :
    exec (.trapEntry n) s = .next s :=
  exec_trapEntry_waits (h.imp_right fun hq => Bool.eq_false_iff.2 ((quiet_iff _).not.2 hq))

theorem watchdog_idle {n : Nat} {s : State} (h : (s.core n).wdog = 0 ∨ (s.core n).nest ≠ 0 ∨ (s.core n).halted = true ∨
    ∃ q, ((s.core n).seq q).parked = false ∧ ¬ s.stuckIn n ((s.core n).seq q)) : exec (.watchdogTimeout n) s = .next s := by
  refine exec_watchdog_none s n (watchdogDue_none s n ?_)
  rintro ⟨hw, hn, hh, hs, -⟩
  rcases h with h | h | h | ⟨q, hq, hx⟩
  · exact hw h
  · exact h hn
  · rw [h] at hh
    cases hh
  · exact hx (hs q hq)

/-- Settles O57: each event of the cores and the Sorting Frame by the rule that says what it does. -/
theorem coreEvents : Obligations.CoreEvents := by
  unfold Obligations.CoreEvents
  refine ⟨fun n s => ⟨exec_corectlReset_running n s, fun h hi => ?_, fun h hi hc => ?_, fun hf hb => ?_,
      (exec_corectlStart n s).2⟩,
    fun n q i s hi h => coreWait_idle hi h,
    fun n w s => fun hw hm hd => ⟨fun c rd to_ hi hr hc hl hx hs => ⟨fun tk b s1 stamp s2 hp hsc hre hst => ?_,
      fun ra s1 hto hcn ht hp hsoon => ?_⟩, fun c ra hi hcn h0 ht hr => ?_⟩,
    fun n q w c sc acq rel rd ra rb s => fun hw hi ha hsc hm hd hr => ⟨(exec_barTimeout hw hi ha hm hd).1,
      barTimeout_post hw hi ha hsc hm hd hr⟩,
    fun n s => ⟨trapEntry_idle, fun r ht hq h0 hc hp he => trapEntry_enters ht ((quiet_iff _).2 hq) h0 hc hp he⟩,
    fun n q w s => ⟨watchdog_idle, fun hw h0 hh hp hs hq hf hwait => ?_⟩,
    frameAging_post,
    fun ctx h x s hx => ⟨(exec_taskInsertion hx).1, fun h1 h2 => ⟨_, (exec_taskInsertion hx).2 h1 h2, enters_post hx⟩⟩,
    fun n s => ⟨exec_inval_none, fun d hi hu => exec_inval_undrained hi hu,
      fun d hi hu hl hp => ⟨_, exec_inval_drained hi hu hl hp, acknowledged_post s n _⟩⟩,
    fun die pasid start len s hpsb => ⟨fun hn => ?_, fun a r hl ha => ?_⟩,
    fun die pasid page hpa r w error later s => ⟨atsResponse_ignored, fun hl h => ?_⟩⟩
  · exact ⟨_, exec_corectlReset_busy n s h hi, modCore_onlyThat s n _⟩
  · exact ⟨_, exec_corectlReset_idle n s h hi hc, modCore_modCore n s _ _⟩
  · exact ⟨_, (exec_corectlStart n s).1 hf hb, modCore_onlyThat s n _⟩
  · rw [hi] at hr
    obtain ⟨t, ht, hu, hcores, hdel, -⟩ := tqpop_delivers hr ⟨hc, hl, hx, hs⟩ rfl hp hsc
      (.inr ⟨hre, by rw [(sameCores_popBlock hp).myDie]; exact hst⟩)
    rw [hre] at hdel
    exact ⟨t, (exec_blockStart hw hm hd hi).trans ht, hu, hcores, hdel⟩
  · subst hto
    rw [hi] at hr
    refine completes_congr (exec_tqpopTimeout hw hm hd hi hcn ht) (tqpop_expires hr ⟨hc, hl, hx, hs⟩ hp ?_ hsoon)
    rw [popBlock_none hp]
    exact popExpired_ageSync hw hcn ht
  · rw [hi] at hr
    exact completes_congr (exec_sleepWakeup hw hm hd hi hcn h0 ht) (sleep_wakes hr hw hcn h0 ht)
  · exact ⟨_, exec_watchdog_some s n (watchdogDue_first s n ⟨hw, h0, hh, hs, hp⟩ hq hf hwait), modCore_onlyThat s n _⟩
  · have hrun := atsInvalidate_run (s := s.beginAtsInv die pasid start len) (r := []) rfl hn ⟨rfl, rfl, rfl, rfl⟩ hpsb
    rw [← (exec_atsInvalidation _ rfl s).1 hn] at hrun
    exact hrun
  · have hrun := atsInvalidate_run (l := []) hl (fun b hb => absurd hb List.not_mem_nil) ha hpsb
    rw [← (exec_atsInvalidation _ rfl s).2 ⟨a, by rw [hl]; exact List.mem_cons_self, ha⟩] at hrun
    exact hrun
  · subst hl
    exact atsResponse_cached h

end Sys2Proof.Machine

namespace Sys2Proof.Machine

/-! The turns of the schedule (R64, R77, R237, R257). -/

/-- What a turn runs when it begins with nothing before it. -/
theorem step_begins {s u : State} {a : Act} (h : s.begins a u) : step s = runAct a u := by
  obtain ⟨t, s0, hn, rfl, he, hd, ho, rfl⟩ := h
  have hb : (decide (1 < s0.turnDt t) && s0.anyDue) = false := by
    rcases hd with h1 | h1
    · simp [h1]
    · simp [h1]
  simp only [step, hn, he, hb, Bool.false_eq_true, if_false, runTurn, ho]

/-- What comes before a turn: a stage evaluation, a clock that passes alone, or the end of a reduction (R64, R257). -/
theorem step_before {s s0 : State} {t : Turn} (hn : s.nextTurn = (t, s0)) :
    (∀ e, s0.evalBefore t = some e → step s = exec e (s0.again t)) ∧
    (s0.evalBefore t = none → 1 < s0.turnDt t → s0.anyDue = true →
      step s = .next ((s0.pass 1).again { t with dt := s0.turnDt t - 1 })) ∧
    ∀ d g, s0.evalBefore t = none → (s0.turnDt t ≤ 1 ∨ s0.anyDue = false) →
      (s0.pass (s0.turnDt t)).overdue = some (d, g) →
      step s = exec (.prstTimeout d g) ((s0.pass (s0.turnDt t)).again { t with dt := 0 }) := by
  refine ⟨fun e he => ?_, fun he h1 hd => ?_, fun d g he hd ho => ?_⟩
  · simp only [step, hn, he]
  · simp only [step, hn, he, h1, hd, decide_true, Bool.and_true, if_true]
  · have hb : (decide (1 < s0.turnDt t) && s0.anyDue) = false := by
      rcases hd with h1 | h1
      · simp [h1]
      · simp [h1]
    simp only [step, hn, he, hb, Bool.false_eq_true, if_false, runTurn, ho]

/-! Fetching a word (R77, R83, R237). -/

/-- The word at the pc is taken to be `w`: memory's, or an older one that the sequencer may still execute; what that leaves is
the cached line and its request (R237). -/
structure State.fetches (s : State) (pa w : Nat) (v : State) : Prop where
  word : w = s.rd pa 8 ∨ ∃ p, p ∈ pubsOf (pa / 8) (s.fetchBound pa) s.npub s.pubs ∧ w = p.2.toNat
  rest : v = { s with cores := v.cores, dies := v.dies, draws := v.draws }
  lines : s.linesOnly v
  others : ∀ n, n ≠ s.cur → v.core n = s.core n
  cached : ∃ l : Store Nat, v.core s.cur = { s.core s.cur with iLines := l } ∧
    ∀ j, j ≠ pa / 128 → Store.get 0 l j = Store.get 0 (s.core s.cur).iLines j

theorem fetchLine_fetches {s : State} {pa w : Nat} (pt : Nat)
    (hw : w = s.rd pa 8 ∨ ∃ p, p ∈ pubsOf (pa / 8) (s.fetchBound pa) s.npub s.pubs ∧ w = p.2.toNat) (d : Nat) :
    s.fetches pa w (({ s with draws := d } : State).fetchLine pa pt) := by
  unfold State.fetchLine
  split
  · exact ⟨hw, rfl, fun _ => rfl, fun _ _ => rfl, _, rfl, fun _ _ => rfl⟩
  · obtain ⟨hr, hl⟩ := requestLine_only ({ s with draws := d } : State) s.cur pa
    have hcore : ∀ n, (({ s with draws := d } : State).requestLine s.cur pa).core n = s.core n := fun n => by
      rw [hr]; rfl
    have hcur : (({ s with draws := d } : State).requestLine s.cur pa).cur = s.cur := by rw [hr]
    refine ⟨hw, ?_, fun n => ?_, fun n hn => ?_, Store.set 0 s.me.iLines (pa / 128) (pt + 1), ?_, fun j hj => ?_⟩
    · conv_lhs => unfold State.modMe State.modCore State.setCore
      rw [hr]
      rfl
    · exact hl n
    · rw [core_modMe, hcur, if_neg hn, hcore]
    · rw [core_modMe, hcur, if_pos rfl]
      have hme : (({ s with draws := d } : State).requestLine s.cur pa).me = s.core s.cur := by
        unfold State.me; rw [hcur, hcore]
      rw [hme]; rfl
    · rw [Store.get_set, if_neg hj]; rfl

/-- A free choice among `n + 1` is at most `n`, and counts what it draws. -/
theorem pick_succ (n : Nat) (s : State) : ∃ i d, pick (n + 1) s = .ok i { s with draws := d } ∧ i ≤ n := by
  unfold pick
  by_cases h : n + 1 ≤ 1
  · rw [if_pos h]
    exact ⟨0, s.draws, rfl, Nat.zero_le n⟩
  · rw [if_neg h, run_bind_ok (run_draw s)]
    exact ⟨_, _, rfl, Nat.lt_succ_iff.mp (Nat.mod_lt _ n.succ_pos)⟩

theorem fetchWord_misaligned {s : State} (h : s.mySeq.pc.toNat % 8 ≠ 0) :
    fetchWord s = .error (.trap cALIGN s.mySeq.pc.toNat) s := by
  have hb : (s.mySeq.pc.toNat % 8 == 0) = false := by simpa using h
  unfold fetchWord
  rw [run_get_bind, run_need_bind, hb]
  rfl

theorem fetchWord_mem {s s2 : State} {pa : Nat} (h : s.mySeq.pc.toNat % 8 = 0)
    (hx : seqXlate .fetch s.mySeq.pc.toNat s = .ok (.ok pa) s2) (hp : s2.poisoned pa 8 = false) :
    ∃ w v, fetchWord s = .ok w v ∧ s2.fetches pa w v := by
  have hb : (s.mySeq.pc.toNat % 8 == 0) = true := by simpa using h
  obtain ⟨i, d, hi, hle⟩ := pick_succ (pubsOf (pa / 8) (s2.fetchBound pa) s2.npub s2.pubs).length s2
  unfold fetchWord
  rw [run_get_bind, run_need_bind, hb, if_pos rfl, run_bind_ok hx]
  simp only [run_get_bind, run_need_bind, hp, Bool.not_false, if_true, run_bind_ok hi]
  by_cases h0 : i = 0
  · rw [if_pos h0]
    exact ⟨_, _, rfl, fetchLine_fetches _ (.inl rfl) d⟩
  · rw [if_neg h0]
    generalize hl : pubsOf (pa / 8) (s2.fetchBound pa) s2.npub s2.pubs = l at hle
    have hlt : i - 1 < l.length := by omega
    refine ⟨_, _, rfl, fetchLine_fetches _ (.inr ⟨l[i - 1], ?_, ?_⟩) d⟩
    · rw [hl]; exact List.getElem_mem hlt
    · simp [List.getElem?_eq_getElem hlt]

section
variable {s u v : State} {c : Nat} {q : SeqId} (hs : s.begins (.issue c q) u)
  (hk : ({ u with cur := c, curSeq := q } : State).turnKind c q = .run)
include hs hk

theorem step_runs {i : Instr} (hf : ({ u with cur := c, curSeq := q } : State).fetchInstr = .ok i v) :
    step s = exec i v := by
  rw [step_begins hs]
  simp only [runAct, issueTurn, hk, hf]

theorem step_fetchTraps {o : Out} (hf : ({ u with cur := c, curSeq := q } : State).fetchInstr = .out o) : step s = o := by
  rw [step_begins hs]
  simp only [runAct, issueTurn, hk, hf]

end

section
variable {s : State}

theorem fetchInstr_waiting {w : Waiting} (hw : s.mySeq.wait = some w) : s.fetchInstr = .ok w.i s := by
  simp only [State.fetchInstr, hw]

theorem fetchInstr_misaligned (hw : s.mySeq.wait = none) (h : s.mySeq.pc.toNat % 8 ≠ 0) :
    s.fetchInstr = .out (trapHere cALIGN s.mySeq.pc.toNat s) := by
  simp only [State.fetchInstr, hw, fetchWord_misaligned h, errState_self]

theorem fetchInstr_word {w : Nat} {v : State} (hw : s.mySeq.wait = none) (hf : fetchWord s = .ok w v) :
    (∀ i, decode w = .ok i → s.fetchInstr = .ok i v) ∧
    (decode w = .undefOp → s.fetchInstr = .out (trapHere cUNDEF w v)) ∧
    (decode w = .undefField → s.fetchInstr =
      .out (trapHere (if accepts s.curSeq w || isSysWord w then cUNDEF else cSEQCLASS) w v)) := by
  refine ⟨fun i hd => ?_, fun hd => ?_, fun hd => ?_⟩ <;> simp only [State.fetchInstr, hw, hf, hd]

end

/-- Settles O28: a turn that begins runs `runAct`, and a sequencer's turn runs what `fetchInstr` gives. -/
theorem stepRunsInstruction : Obligations.StepRunsInstruction := by
  unfold Obligations.StepRunsInstruction
  refine ⟨fun s u c q hs => ?_, fun s u e hs => ?_, fun s u => ⟨fun c q n hs => step_begins hs, fun n hs => step_begins hs,
    fun a n v h hs => step_begins hs⟩, fun s s0 t hn => step_before hn⟩
  · intro s1 pc hk
    refine ⟨fun w hw => step_runs hs hk (fetchInstr_waiting hw), fun hw hp => step_fetchTraps hs hk (fetchInstr_misaligned hw hp),
      fun hw hp s2 pa hx hpo => ?_⟩
    obtain ⟨w, v, hf, hword, hrest, hlines, hothers, l, hl, hj⟩ := fetchWord_mem hp hx hpo
    have hcur : s2.cur = c := by rw [seqXlate_only hx]
    rw [hcur] at hothers hl hj
    obtain ⟨hok, hop, hfield⟩ := fetchInstr_word hw hf
    exact ⟨w, l, v, hword, hrest, hlines, hothers, hl, hj, fun i hi => step_runs hs hk (hok i hi),
      fun hi => step_fetchTraps hs hk (hop hi), fun hi => step_fetchTraps hs hk (hfield hi)⟩
  · rw [step_begins hs]
    cases he : e.isEvent <;> cases hw : e.wellFormed <;> simp [runAct, he, hw]

end Sys2Proof.Machine

namespace Sys2Proof.Machine

/-! The slots of the pennant scheduler (R48, R51 to R53). -/

section
variable (s : State) (d n : Nat)

theorem die_modStage (f : StageSlot → StageSlot) (e : Nat) : (s.modStage d n f).die e =
    if e = d then { s.die d with stages := Store.set {} (s.die d).stages n (f (s.stage d n)) } else s.die e :=
  die_modDie ..

theorem stage_modStage (f : StageSlot → StageSlot) (e m : Nat) :
    (s.modStage d n f).stage e m = if e = d ∧ m = n then f (s.stage d n) else s.stage e m := by
  unfold State.stage
  rw [die_modStage]
  by_cases he : e = d
  · subst he
    rw [if_pos rfl]
    simp only [Die.stage, Store.get_set, true_and]
    rfl
  · rw [if_neg he, if_neg (fun h => he h.1)]

/-- `u` is `s` but for slot `n` of die `d` and the channels. -/
structure State.slotOnly (u : State) : Prop where
  rest : u = { s with dies := u.dies, chans := u.chans }
  dies : ∀ e, e ≠ d → u.die e = s.die e
  die : u.die d = { s.die d with stages := (u.die d).stages }
  slots : ∀ m, m ≠ n → u.stage d m = s.stage d m

theorem slotOnly_modStage (f : StageSlot → StageSlot) : s.slotOnly d n (s.modStage d n f) := by
  refine ⟨rfl, fun e he => ?_, ?_, fun m hm => ?_⟩
  · rw [die_modStage, if_neg he]
  · rw [die_modStage, if_pos rfl]
  · rw [stage_modStage, if_neg fun h => hm h.2]

theorem sameCores_modStage (f : StageSlot → StageSlot) : s.sameCores (s.modStage d n f) := sameCores_of_cores rfl rfl rfl

theorem sameCores_postStage (sub w1 w2 cause : Nat) : s.sameCores (s.postStage d n sub w1 w2 cause) :=
  State.sameCores.trans (s := s.modDie d _) (sameCores_of_cores rfl rfl rfl) (sameCores_mailDrain d _ _)

end

variable {s u : State} {d n x va : Nat}

theorem State.slotOnly.sameCores (h : s.slotOnly d n u) : s.sameCores u := by
  have hr := h.rest
  exact sameCores_of_cores (by rw [hr]) (by rw [hr]) (by rw [hr])

/-- Rewriting channels one after another touches nothing else. -/
theorem foldl_setChan_eq (f : TChan → TChan) (l : List Nat) : ∀ s : State,
    l.foldl (fun s i => s.setChan i (f (s.chan i))) s =
      { s with chans := (l.foldl (fun s i => s.setChan i (f (s.chan i))) s).chans } := by
  induction l with
  | nil => exact fun _ => rfl
  | cons i l ih => exact fun s => (ih (s.setChan i (f (s.chan i)))).trans rfl

theorem State.slotOnly.chans (h : s.slotOnly d n u) {t : State} (ht : t = { u with chans := t.chans }) :
    s.slotOnly d n t ∧ t.stage d n = u.stage d n := by
  have hd : ∀ e, t.die e = u.die e := fun e => by rw [ht]; rfl
  have hs : ∀ m, t.stage d m = u.stage d m := fun m => by unfold State.stage; rw [hd]
  refine ⟨⟨?_, fun e he => (hd e).trans (h.dies e he), ?_, fun m hm => (hs m).trans (h.slots m hm)⟩, hs n⟩
  · have hc : t.dies = u.dies := by rw [ht]
    rw [hc]
    exact ht.trans (congrArg (fun z : State => { z with chans := t.chans }) h.rest)
  · rw [hd]; exact h.die

/-! PENN on a slot (R51 to R53, R336). -/

/-- A loaded slot begins at its first entry; any other goes on where it stood (R52). -/
def StageSlot.started (x : StageSlot) : StageSlot :=
  { (if x.state = 1 then { x with entry := 0, repleft := penRep (x.ptab.getD 0 0), isNew := true } else x) with
    state := 2, due := true }

theorem StageSlot.started_first {x : StageSlot} (h : x.state = 1) : x.started = { x with
    state := 2, due := true, entry := 0, repleft := penRep (x.ptab.getD 0 0), isNew := true } := by
  rw [StageSlot.started, if_pos h]

theorem StageSlot.started_again {x : StageSlot} (h : x.state ≠ 1) : x.started = { x with state := 2, due := true } := by
  rw [StageSlot.started, if_neg h]

/-- A channel of slot `n` tries its first record again (R55). -/
def TChan.retried (c : TChan) (d n : Nat) : TChan :=
  if c.stgv && c.stg == n && c.stgdie == d then { c with recFail := false } else c

/-- `s` after PENN.start of slot `n` (R52). -/
def State.startStage (s : State) (d n : Nat) : State :=
  (List.range 64).foldl (fun s i => s.setChan i ((s.chan i).retried d n)) (s.modStage d n StageSlot.started)

/-- The records of a phase that are left in a slot (R53). -/
def StageSlot.left (x : StageSlot) (ph : Nat) : Nat := ((x.q ph).recs.filter fun r => !r.used).length

theorem sumOver_phases (f : Nat → Nat) : sumOver [1, 2, 3] f = f 1 + f 2 + f 3 := by
  simp only [sumOver, List.foldl_cons, List.foldl_nil, Nat.zero_add]

theorem startStage_slotOnly (s : State) (d n : Nat) :
    s.slotOnly d n (s.startStage d n) ∧ (s.startStage d n).stage d n = (s.stage d n).started := by
  obtain ⟨h, hs⟩ := (slotOnly_modStage s d n StageSlot.started).chans
    (foldl_setChan_eq (·.retried d n) (List.range 64) (s.modStage d n StageSlot.started))
  exact ⟨h, hs.trans (by rw [stage_modStage, if_pos ⟨rfl, rfl⟩])⟩

section
variable (d x n va : Nat) (s : State)

theorem pennOp_noSlot {sub : Nat} (h : 7 < n) : pennOp d x sub n va s = .ok (if sub = 4 then 0xFFFFFFFF else 3) s := by
  simp only [pennOp, run_get_bind, h, if_true]
  rfl

variable (h : n ≤ 7)
include h

theorem pennOp_stat : pennOp d x 4 n va s = .ok ((s.stage d n).stat (s.holds d n)) s := by
  simp only [pennOp, run_get_bind, Nat.not_lt.2 h, if_false, if_true]
  rfl

theorem pennOp_theirs {sub : Nat} (hs : sub ≠ 4) (ht : (s.stage d n).state ≠ 0 ∧ (s.stage d n).ctx ≠ x) :
    pennOp d x sub n va s = .ok 5 s := by
  have hb : ((s.stage d n).state != 0 && (s.stage d n).ctx != x) = true := by simpa using ht
  simp only [pennOp, run_get_bind, Nat.not_lt.2 h, hs, hb, if_false, if_true]
  rfl

variable (ht : ¬ ((s.stage d n).state ≠ 0 ∧ (s.stage d n).ctx ≠ x))
include ht

omit h in
theorem stage_mine : ((s.stage d n).state != 0 && (s.stage d n).ctx != x) = false := by
  rw [← Bool.not_eq_true]; simpa using ht

theorem pennOp_load : pennOp d x 0 n va s = if (s.stage d n).state = 0 then pennLoad d x n va s else .ok 1 s := by
  simp only [pennOp, run_get_bind, Nat.not_lt.2 h, stage_mine d x n s ht, Nat.reduceEqDiff, if_false, Bool.false_eq_true]
  split <;> rfl

theorem pennOp_start : pennOp d x 1 n va s =
    if (s.stage d n).state = 1 ∨ (s.stage d n).state = 3 then .ok 0 (s.startStage d n) else .ok 1 s := by
  simp only [pennOp, run_get_bind, Nat.not_lt.2 h, stage_mine d x n s ht, Nat.reduceEqDiff, if_false, Bool.false_eq_true, Bool.or_eq_true,
    decide_eq_true_eq]
  split <;> rfl

theorem pennOp_stop : pennOp d x 2 n va s = if (s.stage d n).state = 2 ∨ (s.stage d n).state = 4
    then .ok 0 (s.modStage d n fun x => { x with state := 3 }) else .ok 1 s := by
  simp only [pennOp, run_get_bind, Nat.not_lt.2 h, stage_mine d x n s ht, Nat.reduceEqDiff, if_false, Bool.false_eq_true, Bool.or_eq_true,
    decide_eq_true_eq]
  split <;> rfl

theorem pennOp_unload : pennOp d x 3 n va s = if (s.stage d n).state = 3 ∧ (s.stage d n).tags = []
    then .ok (256 * ((s.stage d n).left 1 + (s.stage d n).left 2 + (s.stage d n).left 3))
      (s.modStage d n fun x => { stray := x.stray }) else .ok 1 s := by
  simp only [pennOp, run_get_bind, Nat.not_lt.2 h, stage_mine d x n s ht, Nat.reduceEqDiff, if_false, Bool.false_eq_true]
  simp only [Bool.and_eq_true, decide_eq_true_eq, List.isEmpty_iff]
  split
  · rw [Nat.mul_comm, ← sumOver_phases]
    rfl
  · rfl

end

section
variable {b : State}

theorem cores_agWords (agent die ctx va n : Nat) : Keeps (State.sameCores b) (agWords agent die ctx va n) :=
  keepsCores_of_xl fun _ => xl_agWords _ _ _ _ _

theorem cores_agBytes (agent die ctx va n : Nat) : Keeps (State.sameCores b) (agBytes agent die ctx va n) :=
  keepsCores_of_xl fun _ => xl_agBytes _ _ _ _ _

theorem cores_templateCheck (d x inst h : Nat) : Keeps (State.sameCores b) (templateCheck d x inst h) := by
  refine keeps_ite (keeps_pure _) (keeps_bind (keepsCores_of_xl fun _ => xl_readTcb _ _ _) fun r => ?_)
  cases r with
  | beyond => exact keeps_pure _
  | unreadable => exact keeps_pure _
  | ok w =>
    refine keeps_bind (cores_agWords _ _ _ _ _) fun k => ?_
    cases k with
    | none => exact keeps_pure _
    | some k => exact keeps_ite (keeps_pure _) (keeps_pure _)

theorem cores_weightsOk (d x : Nat) (ws : List Nat) : Keeps (State.sameCores b) (weightsOk d x ws) := by
  refine keeps_get_bind fun s _ => keeps_bind (keeps_collect fun t => keeps_bind (keeps_tdesc _ _ _) fun r => ?_)
    fun _ => keeps_pure _
  cases r <;> exact keeps_pure _

/-- Installing a stage touches no core but its event flag. -/
theorem cores_pennLoad (d x n va : Nat) : Keeps (State.sameCores b) (pennLoad d x n va) := by
  refine keeps_bind (cores_agWords _ _ _ _ _) fun w => ?_
  cases w with
  | none =>
    exact keeps_bind (keeps_bind (cores_agBytes _ _ _ _ _) fun _ => keeps_pure _) fun _ =>
      keeps_ite (keeps_bind (keeps_modify fun s h => State.sameCores.trans h (sameCores_postStage s _ _ _ _ _ _))
        fun _ => keeps_pure _) (keeps_pure _)
  | some w =>
    refine keeps_ite (keeps_pure _) (keeps_bind (cores_agBytes _ _ _ _ _) fun o => ?_)
    cases o with
    | none => exact keeps_pure _
    | some l =>
      refine keeps_ite (keeps_pure _) (keeps_ite (keeps_pure _) (keeps_bind (keepsCores_of_xl fun _ => xl_agRead _ _ _ _ _)
        fun m => ?_))
      cases m with
      | none => exact keeps_pure _
      | some m =>
        refine keeps_ite (keeps_pure _) (keeps_bind (keeps_ctxEnt _ _ _) fun c => keeps_ite (keeps_pure _)
          (keeps_bind (keeps_collect fun _ => cores_templateCheck _ _ _ _) fun ts => ?_))
        split
        · exact keeps_pure _
        · exact keeps_pure _
        · exact keeps_get_bind fun s _ => keeps_bind (cores_weightsOk _ _ _) fun _ => keeps_ite (keeps_pure _)
            (keeps_bind (keeps_modify fun s h => h.trans (sameCores_modStage s _ _ _)) fun _ => keeps_pure _)

end

end Sys2Proof.Machine

namespace Sys2Proof.Machine

/-! The checks of PENN.load (R49 to R51, R61). -/

theorem length_agWords {agent die ctx va n : Nat} {s s1 : State} {w : List Nat}
    (h : agWords agent die ctx va n s = .ok (some w) s1) : w.length = n := by
  obtain ⟨o, s2, -, h⟩ := run_bind_inv h
  cases o with
  | none => cases h
  | some l =>
    dsimp only at h
    split at h
    · cases h
    · cases h
      rw [List.length_map, List.length_range]

/-- What the field checks of R51 say, one by one. -/
theorem stageFieldsOk_iff (va : Nat) {w : List Nat} (hl : w.length = 32) :
    stageFieldsOk va w = true ↔ stageSound va w := by
  have hz : (∀ j, 22 ≤ j → w.getD j 0 = 0) ↔ ∀ j, 22 ≤ j → j < 32 → w.getD j 0 = 0 :=
    ⟨fun h j h1 _ => h j h1, fun h j h1 => if h2 : j < 32 then h j h1 h2 else List.getD_eq_default _ _ (by omega)⟩
  have hnum (p : Nat → Prop) : (∀ j, 5 ≤ j → j ≤ 7 → p j) ↔ p 5 ∧ p 6 ∧ p 7 :=
    ⟨fun h => ⟨h 5 (by omega) (by omega), h 6 (by omega) (by omega), h 7 (by omega) (by omega)⟩, fun h j h1 h2 => by
      obtain rfl | rfl | rfl : j = 5 ∨ j = 6 ∨ j = 7 := by omega
      exacts [h.1, h.2.1, h.2.2]⟩
  have hthree (p : Nat → Prop) : (∀ j, j < 3 → p j) ↔ p 0 ∧ p 1 ∧ p 2 :=
    ⟨fun h => ⟨h 0 (by omega), h 1 (by omega), h 2 (by omega)⟩, fun h j h1 => by
      obtain rfl | rfl | rfl : j = 0 ∨ j = 1 ∨ j = 2 := by omega
      exacts [h.1, h.2.1, h.2.2]⟩
  have hfour (p : Nat → Prop) : (∀ j, j < 4 → p j) ↔ p 0 ∧ p 1 ∧ p 2 ∧ p 3 :=
    ⟨fun h => ⟨h 0 (by omega), h 1 (by omega), h 2 (by omega), h 3 (by omega)⟩, fun h j h1 => by
      obtain rfl | rfl | rfl | rfl : j = 0 ∨ j = 1 ∨ j = 2 ∨ j = 3 := by omega
      exacts [h.1, h.2.1, h.2.2.1, h.2.2.2]⟩
  have hwt (n : Nat) (p : Nat → Prop) : (∀ j, j < 16 → j < n ∨ p j) ↔ ∀ j, n ≤ j → j < 16 → p j :=
    ⟨fun h j h1 h2 => (h j h2).resolve_left (by omega), fun h j h1 => (Nat.lt_or_ge j n).imp_right fun h2 => h j h2 h1⟩
  unfold stageFieldsOk stageSound
  simp only [hnum, hthree, hfour, ← hz, Bool.and_eq_true, decide_eq_true_eq, beq_iff_eq, bne_iff_ne, Bool.not_eq_true',
    drop_all_zero, List.all_eq_true (l := List.range _), List.mem_range, Bool.or_eq_true, hwt, List.all_cons, List.all_nil,
    and_true]
  simp only [bit, fieldOf, beq_eq_false_iff_ne, and_assoc, Nat.mod_two_ne_one, Nat.reduceMul, Nat.reduceAdd, pow_one]

theorem penBad_iff (wv : Bool) (e : Nat) : penBad wv e = true ↔ ¬ entrySound wv e := by
  unfold penBad entrySound penPh penRep penRule fieldOf
  simp only [Bool.or_eq_true, Bool.and_eq_true, beq_iff_eq, bne_iff_ne, Bool.not_eq_true']
  cases wv <;> simp only [and_true, and_false, Bool.true_eq_false, Bool.false_eq_true, or_false, pow_zero, Nat.div_one] <;> omega

/-- The core set is one of the die's program cores, and not empty (R51). -/
theorem coreSetOk_iff (d m : Nat) : coreSetOk d m = true ↔
    (∃ j, m.testBit j = true) ∧ ∀ j, m.testBit j = true → 144 * d < j ∧ j < 144 * d + 144 := by
  have hbit (j : Nat) : (fieldOf m (144 * d) 144 * 2 ^ (144 * d)).testBit j =
      (decide (144 * d ≤ j) && (decide (j < 144 * d + 144) && m.testBit j)) := by
    rw [Nat.testBit_mul_two_pow, testBit_fieldOf]
    by_cases h : 144 * d ≤ j
    · rw [Nat.add_sub_cancel' h]
      simp [h, Nat.sub_lt_iff_lt_add' h]
    · simp [h]
  simp only [coreSetOk, Bool.and_eq_true, bne_iff_ne, beq_iff_eq, Bool.not_eq_true', bit_eq_testBit]
  constructor
  · rintro ⟨⟨h0, he⟩, hp⟩
    refine ⟨Nat.exists_testBit_of_ne_zero h0, fun j hj => ?_⟩
    have hb := hbit j
    rw [← he, hj] at hb
    simp only [Bool.true_eq, Bool.and_eq_true, decide_eq_true_eq, and_true] at hb
    refine ⟨lt_of_le_of_ne hb.1 fun h => ?_, hb.2⟩
    rw [h, hj] at hp
    cases hp
  · rintro ⟨⟨i, hi⟩, hj⟩
    refine ⟨⟨fun h => ?_, Nat.eq_of_testBit_eq fun j => ?_⟩, ?_⟩
    · rw [h, Nat.zero_testBit] at hi
      cases hi
    · rw [hbit]
      cases hm : m.testBit j with
      | false => simp
      | true =>
        obtain ⟨h1, h2⟩ := hj j hm
        simp [h1.le, h2]
    · rw [← Bool.not_eq_true]
      exact fun h => absurd (hj _ h).1 (lt_irrefl _)

theorem rbytesNat_two (l : List RByte) (k : Nat) :
    rbytesNat ((l.drop k).take 2) = (l.getD k (0, false)).1.toNat + 256 * (l.getD (k + 1) (0, false)).1.toNat := by
  have hk (j : Nat) : l.getD (k + j) (0, false) = (l.drop k).getD j (0, false) := by
    simp only [List.getD_eq_getElem?_getD, List.getElem?_drop]
  rw [show l.getD k (0, false) = (l.drop k).getD 0 (0, false) from hk 0, hk 1]
  rcases l.drop k with - | ⟨a, - | ⟨b, t⟩⟩ <;> simp [rbytesNat, ofBytes]

/-! The templates (R51). -/

section
variable {d x inst h : Nat} {s s1 s2 : State}

theorem templateCheck_instance (hi : inst ≤ h ∧ h ≤ inst + 767) : templateCheck d x inst h s = .ok .refused s := by
  simp only [templateCheck, hi.1, hi.2, decide_true, Bool.and_self, if_true]
  rfl

/-- What is left to check of a template outside the instances. -/
def templateWords (d ctx h : Nat) : Op LoadRes := do
  match ← readTcb d ctx h with
  | .beyond => return .refused
  | .unreadable => return .unreadable
  | .ok w =>
    match ← agWords (agPenn d) d ctx (w.getD 0 0) 32 with
    | none => return .unreadable
    | some k =>
      let dLevel := (List.range (fieldOf (k.getD 10 0) 0 3)).any (fun i => fieldOf (k.getD (4 + i) 0) 0 2 == 3)
      if fieldOf (w.getD 1 0) 48 4 == 0 && fieldOf (w.getD 1 0) 56 2 == d && !dLevel then return .ok else return .refused

theorem templateCheck_outside (hi : h < inst ∨ inst + 767 < h) : templateCheck d x inst h s = templateWords d x h s := by
  have hb : (decide (inst ≤ h) && decide (h ≤ inst + 767)) = false := by
    rw [← Bool.not_eq_true, Bool.and_eq_true, decide_eq_true_eq, decide_eq_true_eq]; omega
  simp only [templateCheck, hb, Bool.false_eq_true, if_false]
  rfl

theorem templateWords_beyond (hr : readTcb d x h s = .ok .beyond s1) : templateWords d x h s = .ok .refused s1 :=
  run_bind_ok hr

theorem templateWords_unreadable (hr : readTcb d x h s = .ok .unreadable s1) :
    templateWords d x h s = .ok .unreadable s1 := run_bind_ok hr

theorem templateWords_noDescriptor {w : List Nat} (hr : readTcb d x h s = .ok (.ok w) s1)
    (hk : agWords (agPenn d) d x (w.getD 0 0) 32 s1 = .ok none s2) : templateWords d x h s = .ok .unreadable s2 :=
  (run_bind_ok hr).trans (run_bind_ok hk)

/-- A template is good when it is IDLE, on the stage's die and without a D level (R51). -/
def templateGood (d : Nat) (w k : List Nat) : Prop :=
  w.getD 1 0 / 2 ^ 48 % 16 = 0 ∧ w.getD 1 0 / 2 ^ 56 % 4 = d ∧ ∀ j, j < k.getD 10 0 % 8 → k.getD (4 + j) 0 % 4 ≠ 3

theorem templateGood_iff (d : Nat) (w k : List Nat) :
    (fieldOf (w.getD 1 0) 48 4 == 0 && fieldOf (w.getD 1 0) 56 2 == d &&
      !(List.range (fieldOf (k.getD 10 0) 0 3)).any (fun i => fieldOf (k.getD (4 + i) 0) 0 2 == 3)) = true ↔
    templateGood d w k := by
  simp only [templateGood, Bool.and_eq_true, beq_iff_eq, Bool.not_eq_true', List.any_eq_false, List.mem_range, fieldOf,
    pow_zero, Nat.div_one, Nat.reducePow, and_assoc, ne_eq]

theorem templateWords_checks {w k : List Nat} (hr : readTcb d x h s = .ok (.ok w) s1)
    (hk : agWords (agPenn d) d x (w.getD 0 0) 32 s1 = .ok (some k) s2) :
    (templateGood d w k → templateWords d x h s = .ok .ok s2) ∧
    (¬ templateGood d w k → templateWords d x h s = .ok .refused s2) := by
  have he : templateWords d x h s = (if fieldOf (w.getD 1 0) 48 4 == 0 && fieldOf (w.getD 1 0) 56 2 == d &&
      !(List.range (fieldOf (k.getD 10 0) 0 3)).any (fun i => fieldOf (k.getD (4 + i) 0) 0 2 == 3)
      then pure .ok else pure .refused : Op LoadRes) s2 := (run_bind_ok hr).trans (run_bind_ok hk)
  exact ⟨fun hg => by rw [he, if_pos ((templateGood_iff d w k).2 hg)]; rfl,
    fun hg => by rw [he, if_neg fun h => hg ((templateGood_iff d w k).1 h)]; rfl⟩

end

/-! The weights (R50). -/

theorem length_eraseDups_le : ∀ l : List Nat, l.eraseDups.length ≤ l.length
  | [] => Nat.le_refl 0
  | a :: l => by
    have hf := List.length_filter_le (fun b => !b == a) l
    have := length_eraseDups_le (l.filter fun b => !b == a)
    rw [List.eraseDups_cons, List.length_cons, List.length_cons]
    omega
termination_by l => l.length
decreasing_by simpa [Nat.lt_succ_iff] using hf

theorem length_eraseDups_iff (l : List Nat) : l.eraseDups.length = l.length ↔ l.Nodup := by
  induction l with
  | nil => simp
  | cons a l ih =>
    have hf := List.length_filter_le (fun b => !b == a) l
    have hd := length_eraseDups_le (l.filter fun b => !b == a)
    rw [List.eraseDups_cons, List.length_cons, List.length_cons, List.nodup_cons, ← ih]
    constructor
    · intro h
      have he : l.filter (fun b => !b == a) = l := List.length_filter_eq_length_iff.1 (by omega) |> fun h => List.filter_eq_self.2 h
      rw [he] at h
      refine ⟨fun ha => ?_, by omega⟩
      simpa using List.filter_eq_self.1 he a ha
    · rintro ⟨ha, hl⟩
      have he : l.filter (fun b => !b == a) = l := List.filter_eq_self.2 fun b hb => by
        simpa using fun h : b = a => ha (h ▸ hb)
      rw [he, hl]

/-- The installed stage slots are those of the two dies that are not empty. -/
theorem mem_installed (s : State) (p : Nat × Nat × StageSlot) : p ∈ s.installed ↔
    p.1 < 2 ∧ p.2.1 < 8 ∧ p.2.2 = s.stage p.1 p.2.1 ∧ (s.stage p.1 p.2.1).state ≠ 0 := by
  obtain ⟨d, m, st⟩ := p
  simp only [State.installed, List.mem_filterMap, List.mem_range, Option.ite_none_left_eq_some, Option.some.injEq,
    Prod.mk.injEq]
  constructor
  · rintro ⟨k, hk, h0, rfl, rfl, rfl⟩
    exact ⟨by omega, by omega, rfl, h0⟩
  · rintro ⟨hd, hm, rfl, h0⟩
    have h1 : (8 * d + m) / 8 = d := by omega
    have h2 : (8 * d + m) % 8 = m := by omega
    exact ⟨8 * d + m, by omega, by rwa [h1, h2], h1, h2, by rw [h1, h2]⟩

theorem weight_eq_none (st : StageSlot) (t : Nat) : st.weight t = none ↔ t ∉ st.weights := by
  simp only [StageSlot.weight, StageSlot.weights, List.find?_eq_none, List.mem_map, beq_iff_eq, not_exists, not_and]

/-- A tensor is a weight of no installed stage of its context (R50). -/
theorem weightStage_eq_none (s : State) (x t : Nat) : (s.weightStage x t).isNone = true ↔
    ∀ d m, d < 2 → m < 8 → (s.stage d m).state ≠ 0 → (s.stage d m).ctx = x → t ∉ (s.stage d m).weights := by
  simp only [Option.isNone_iff_eq_none, State.weightStage, List.findSome?_eq_none_iff, mem_installed]
  constructor
  · intro h d m hd hm h0 hx
    have := h (d, m, s.stage d m) ⟨hd, hm, rfl, h0⟩
    rw [if_pos hx, Option.map_eq_none_iff] at this
    exact (weight_eq_none _ _).1 this
  · rintro h ⟨d, m, st⟩ ⟨hd, hm, hst, h0⟩
    dsimp only at hd hm hst h0 ⊢
    subst hst
    split
    · next hx => rw [(weight_eq_none _ _).2 (h d m hd hm h0 hx)]; rfl
    · rfl

/-- The weights of a descriptor may be installed: versioned tensors, none twice, none a weight of an installed stage (R50). -/
def weightsFresh (s : State) (x : Nat) (ws : List Nat) (vs : List TRes) : Prop :=
  (∀ r, r ∈ vs → ∃ y, r = .ok y ∧ y.vers = true) ∧ ws.Nodup ∧
    ∀ d' m', d' < 2 → m' < 8 → (s.stage d' m').state ≠ 0 → (s.stage d' m').ctx = x →
      ∀ t, t ∈ ws → t ∉ (s.stage d' m').weights

/-- What naming a weight says for a LOAD. -/
def TRes.weighs (r : TRes) (free : Bool) : Bool :=
  match r with
  | .ok y => y.vers && free
  | _ => false

theorem weighs_iff (r : TRes) (free : Bool) : r.weighs free = true ↔ (∃ y, r = .ok y ∧ y.vers = true) ∧ free = true := by
  cases r <;> simp [TRes.weighs]

theorem collect_map_run {α β γ : Type} {f : α → Op β} (g : α → β → γ) {s : State} (hf : ∀ I : State → Prop, ∀ a, Keeps I (f a)) :
    ∀ {l : List α} {vs : List β} {s1 : State}, collect l f s = .ok vs s1 →
      s1 = s ∧ collect l (fun a => do return g a (← f a)) s = .ok (List.zipWith g l vs) s ∧ vs.length = l.length := by
  intro l
  induction l with
  | nil => intro vs s1 h; cases h; exact ⟨rfl, rfl, rfl⟩
  | cons a l ih =>
    intro vs s1 h
    obtain ⟨b, u, hb, h⟩ := run_bind_inv h
    obtain ⟨r, v, hr, h⟩ := run_bind_inv h
    cases h
    obtain rfl := eq_of_keeps (fun I => hf I a) hb
    obtain ⟨rfl, hc, hl⟩ := ih hr
    refine ⟨rfl, ?_, by simp [hl]⟩
    have hfa : (do return g a (← f a) : Op γ) s1 = .ok (g a b) s1 := run_bind_ok hb
    exact (run_bind_ok hfa).trans (run_bind_ok hc)

theorem all_zipWith_weighs (free : Nat → Bool) : ∀ {ws : List Nat} {vs : List TRes}, vs.length = ws.length →
    ((List.zipWith (fun t (r : TRes) => r.weighs (free t)) ws vs).all id = true ↔
      (∀ r, r ∈ vs → ∃ y, r = .ok y ∧ y.vers = true) ∧ ∀ t, t ∈ ws → free t = true)
  | [], [], _ => by simp
  | t :: ws, r :: vs, h => by
    rw [List.zipWith_cons_cons, List.all_cons, Bool.and_eq_true, all_zipWith_weighs free (Nat.succ.inj h), id,
      weighs_iff, List.forall_mem_cons, List.forall_mem_cons]
    exact and_and_and_comm

theorem weightsOk_eq (d x : Nat) (ws : List Nat) : weightsOk d x ws = do
    let s ← get
    let vs ← collect ws (fun t => do return (← tdesc d x t).weighs (s.weightStage x t).isNone)
    return vs.all id && ws.eraseDups.length == ws.length := by
  refine congrArg (get >>= ·) (funext fun s => congrArg (fun f => collect ws f >>= _)
    (funext fun t => congrArg (tdesc d x t >>= ·) (funext fun r => ?_)))
  cases r <;> rfl

theorem weightsOk_run {d x : Nat} {ws : List Nat} {vs : List TRes} {s s1 : State}
    (h : collect ws (fun t => tdesc d x t) s = .ok vs s1) :
    s1 = s ∧ ∃ r, weightsOk d x ws s = .ok r s ∧ (r = true ↔ weightsFresh s x ws vs) := by
  obtain ⟨rfl, hc, hl⟩ := collect_map_run (fun t (r : TRes) => r.weighs (s.weightStage x t).isNone)
    (fun I t => keeps_tdesc d x t) h
  refine ⟨rfl, (List.zipWith (fun t (r : TRes) => r.weighs (s1.weightStage x t).isNone) ws vs).all id &&
    ws.eraseDups.length == ws.length, ?_, ?_⟩
  · rw [weightsOk_eq, run_get_bind]
    exact run_bind_ok hc
  · rw [Bool.and_eq_true, beq_iff_eq, length_eraseDups_iff, all_zipWith_weighs _ hl]
    simp only [weightStage_eq_none, weightsFresh]
    grind

/-! What PENN.load has left to do after each of its reads (R51). -/

section
variable (d x n : Nat) (w : List Nat)

def loadTemplates (ptab : List Nat) (ts : List LoadRes) : Op Nat := do
  match ts.find? (· != .ok) with
  | some .unreadable => return 4
  | some _ => return 2
  | none => do
    let st : StageSlot := { state := 1, ctx := x, desc := w, ptab, stray := ((← get).stage d n).stray }
    if !(← weightsOk d x st.weights) then return 2
    modify (fun s => s.modStage d n (fun _ => st))
    return 0

def loadCores (ptab : List Nat) (m : Nat) : Op Nat := do
  if !coreSetOk d m then return 2
  let c ← ctxEnt d x
  let inst := fieldOf (w.getD 2 0) 32 24
  if c.tcbSize < inst + 768 then return 2
  let ts ← collect (if bit (w.getD 2 0) 24 then [1, 2, 3] else [1, 2]) fun ph => templateCheck d x inst (stageTemplate w ph)
  loadTemplates d x n w ptab ts

def loadTable (pb : List RByte) : Op Nat := do
  if anyPoison pb then return 4
  let ptab := (List.range (fieldOf (w.getD 4 0) 0 9)).map (fun i => rbytesNat ((pb.drop (2 * i)).take 2))
  if ptab.any (penBad (bit (w.getD 2 0) 24)) then return 2
  match ← agRead (agPenn d) d x (w.getD 0 0) 36 with
  | none => return 4
  | some m => loadCores d x n w ptab m

def loadFields (va : Nat) : Op Nat := do
  if !stageFieldsOk va w then return 2
  match ← agBytes (agPenn d) d x (w.getD 3 0) (2 * fieldOf (w.getD 4 0) 0 9) with
  | none => return 4
  | some pb => loadTable d x n w pb

variable {d x n w} {va : Nat} {s s1 s2 : State}

theorem pennLoad_fields (h : agWords (agPenn d) d x va 32 s = .ok (some w) s1) :
    pennLoad d x n va s = loadFields d x n w va s1 := run_bind_ok h

theorem pennLoad_noDescriptor {b : Bool} (h : agWords (agPenn d) d x va 32 s = .ok none s1)
    (hb : poisonedAt (agPenn d) d x va 256 s1 = .ok b s2) :
    pennLoad d x n va s = .ok 4 (if b then s2.postStage d n 1 va 4 else s2) := by
  refine (run_bind_ok h).trans ((run_bind_ok hb).trans ?_)
  cases b <;> rfl

theorem loadFields_refused (h : ¬ stageFieldsOk va w = true) : loadFields d x n w va s = .ok 2 s := by
  rw [Bool.not_eq_true] at h
  simp only [loadFields, h]
  rfl

section
variable (h : stageFieldsOk va w = true)
include h

theorem loadFields_unreadable (ho : agBytes (agPenn d) d x (w.getD 3 0) (2 * fieldOf (w.getD 4 0) 0 9) s = .ok none s1) :
    loadFields d x n w va s = .ok 4 s1 := by
  simp only [loadFields, h, Bool.not_true, Bool.false_eq_true, if_false]
  exact run_bind_ok ho

theorem loadFields_table {pb : List RByte}
    (ho : agBytes (agPenn d) d x (w.getD 3 0) (2 * fieldOf (w.getD 4 0) 0 9) s = .ok (some pb) s1) :
    loadFields d x n w va s = loadTable d x n w pb s1 := by
  simp only [loadFields, h, Bool.not_true, Bool.false_eq_true, if_false]
  exact run_bind_ok ho

end

theorem loadTable_poison {pb : List RByte} (h : anyPoison pb = true) : loadTable d x n w pb s = .ok 4 s := by
  simp only [loadTable, h]
  rfl

section
variable {pb : List RByte} (h : ¬ anyPoison pb = true) {ptab : List Nat}
  (hp : (List.range (fieldOf (w.getD 4 0) 0 9)).map (fun i => rbytesNat ((pb.drop (2 * i)).take 2)) = ptab)
include h hp

theorem loadTable_bad (hb : ptab.any (penBad (bit (w.getD 2 0) 24)) = true) : loadTable d x n w pb s = .ok 2 s := by
  simp only [loadTable, h, hp, hb, if_true]
  rfl

section
variable (hb : ¬ ptab.any (penBad (bit (w.getD 2 0) 24)) = true)
include hb

theorem loadTable_unreadable (ho : agRead (agPenn d) d x (w.getD 0 0) 36 s = .ok none s1) :
    loadTable d x n w pb s = .ok 4 s1 := by
  simp only [loadTable, h, hp, hb]
  exact run_bind_ok ho

theorem loadTable_cores {m : Nat} (ho : agRead (agPenn d) d x (w.getD 0 0) 36 s = .ok (some m) s1) :
    loadTable d x n w pb s = loadCores d x n w ptab m s1 := by
  simp only [loadTable, h, hp, hb]
  exact run_bind_ok ho

end

end

variable {ptab : List Nat}

theorem loadCores_refused {m : Nat} (h : ¬ coreSetOk d m = true) : loadCores d x n w ptab m s = .ok 2 s := by
  rw [Bool.not_eq_true] at h
  simp only [loadCores, h]
  rfl

section
variable {m : Nat} (h : coreSetOk d m = true) {e : CtxEnt} (he : ctxEnt d x s = .ok e s1)
include h he

theorem loadCores_small (hi : e.tcbSize < fieldOf (w.getD 2 0) 32 24 + 768) : loadCores d x n w ptab m s = .ok 2 s1 := by
  simp only [loadCores, h, Bool.not_true, Bool.false_eq_true, if_false]
  refine (run_bind_ok he).trans ?_
  simp only [hi, if_true]
  rfl

theorem loadCores_templates (hi : fieldOf (w.getD 2 0) 32 24 + 768 ≤ e.tcbSize) {ts : List LoadRes}
    (ht : collect (if bit (w.getD 2 0) 24 then [1, 2, 3] else [1, 2])
      (fun ph => templateCheck d x (fieldOf (w.getD 2 0) 32 24) (stageTemplate w ph)) s1 = .ok ts s2) :
    loadCores d x n w ptab m s = loadTemplates d x n w ptab ts s2 := by
  simp only [loadCores, h, Bool.not_true, Bool.false_eq_true, if_false]
  refine (run_bind_ok he).trans ?_
  simp only [Nat.not_lt.2 hi, if_false]
  exact run_bind_ok ht

end

variable {ts : List LoadRes}

theorem loadTemplates_unreadable (h : ts.find? (· != .ok) = some .unreadable) : loadTemplates d x n w ptab ts s = .ok 4 s := by
  simp only [loadTemplates, h]
  rfl

theorem loadTemplates_refused (h : ts.find? (· != .ok) = some .refused) : loadTemplates d x n w ptab ts s = .ok 2 s := by
  simp only [loadTemplates, h]
  rfl

/-- The slot as PENN.load leaves it (R51). -/
def StageSlot.loaded (y : StageSlot) (x : Nat) (w ptab : List Nat) : StageSlot :=
  { state := 1, ctx := x, desc := w, ptab, stray := y.stray }

theorem loadTemplates_weights (h : ∀ r, r ∈ ts → r = .ok) {b : Bool}
    (hb : weightsOk d x (StageSlot.loaded {} x w ptab).weights s = .ok b s) : loadTemplates d x n w ptab ts s =
      if b then .ok 0 (s.modStage d n fun y => y.loaded x w ptab) else .ok 2 s := by
  have hf : ts.find? (· != .ok) = none := List.find?_eq_none.2 fun r hr => by simp [h r hr]
  simp only [loadTemplates, hf, run_get_bind]
  refine (run_bind_ok hb).trans ?_
  cases b <;> rfl

end

end Sys2Proof.Machine

namespace Sys2Proof.Machine

/-! What a release leaves of the cores: the sequencers and the privileged bank (R226, R327). -/

/-- `t` has the sequencers and the privileged banks of `b`, and the same sequencer runs. -/
structure State.sameSeqs (b t : State) : Prop where
  cur : t.cur = b.cur
  curSeq : t.curSeq = b.curSeq
  core : ∀ n, t.core n = { t.core n with
    l := (b.core n).l, x := (b.core n).x, s := (b.core n).s, c := (b.core n).c, pg := (b.core n).pg,
    pgPoison := (b.core n).pgPoison, priv := (b.core n).priv }

theorem State.sameSeqs.trans {b s t : State} (h : b.sameSeqs s) (g : s.sameSeqs t) : b.sameSeqs t :=
  ⟨g.cur.trans h.cur, g.curSeq.trans h.curSeq, fun n => by rw [g.core n, h.core n]⟩

theorem State.sameCores.sameSeqs {b t : State} (h : b.sameCores t) : b.sameSeqs t :=
  ⟨h.cur, h.curSeq, fun n => by rw [h.core n]⟩

theorem sameSeqs_refl (s : State) : s.sameSeqs s := (xlOnly_refl s).sameCores.sameSeqs

theorem sameSeqs_foldl {α : Type} {f : State → α → State} (hf : ∀ (u : State) x, u.sameSeqs (f u x)) :
    ∀ (l : List α) (s : State), s.sameSeqs (l.foldl f s)
  | [], s => sameSeqs_refl s
  | x :: l, s => (hf s x).trans (sameSeqs_foldl hf l (f s x))

/-- A core changed besides its sequencers and its privileged bank. -/
theorem sameSeqs_modCore (s : State) (c : Nat) {f : Core → Core} (hf : ∀ k, f k = { f k with
    l := k.l, x := k.x, s := k.s, c := k.c, pg := k.pg, pgPoison := k.pgPoison, priv := k.priv }) :
    s.sameSeqs (s.modCore c f) := by
  refine ⟨rfl, rfl, fun n => ?_⟩
  rw [core_modCore]
  split
  · next h => rw [h]; exact hf _
  · rfl

section
variable (s : State) (c pa : Nat) (l : PLine)

theorem xlOnly_publishLine : xlOnly s (s.publishLine pa l) := by
  refine xlOnly_foldl (fun u g => ?_) _ s
  dsimp only
  split
  · exact xlOnly_refl u
  · exact xlOnly_publishGranule u _ _

theorem sameSeqs_sawLine : s.sameSeqs (s.sawLine c pa l) := by
  refine sameSeqs_foldl (fun u g => ?_) _ s
  split
  · exact sameSeqs_modCore u c fun _ => rfl
  · exact sameSeqs_refl u

theorem sameSeqs_requestLine : s.sameSeqs (s.requestLine c pa) :=
  (sameCores_of_cores (by rw [(requestLine_only s c pa).1]) (by rw [(requestLine_only s c pa).1])
    (by rw [(requestLine_only s c pa).1])).sameSeqs

end

section
variable {b : State}

theorem keepsSeqs_of_cores {α : Type} {m : Op α} (h : ∀ b, Keeps (State.sameCores b) m) : Keeps (State.sameSeqs b) m :=
  fun s hs => ⟨fun a t hm => hs.trans ((h s s (xlOnly_refl s).sameCores).1 a t hm).sameSeqs,
    fun e t hm => hs.trans ((h s s (xlOnly_refl s).sameCores).2 e t hm).sameSeqs⟩

theorem seqs_flushLines (c : Nat) (sel : PLine → Bool) : Keeps (State.sameSeqs b) (flushLines c sel) := by
  refine keeps_get_bind fun s _ => keeps_bind (keeps_collect fun l => keeps_bind (keeps_bind (keepsSeqs_of_cores fun _ =>
    keepsCores_of_xl fun _ => xl_xlate _ _ _ _ _ _) fun r => ?_) fun _ => keeps_pure _) fun tgt =>
    keeps_bind (keeps_forAll fun p => keeps_modify fun s h => ?_) fun _ => keeps_modify fun s h => ?_
  · cases r
    case mig => exact keeps_throwWait
    case pend => exact keeps_throwWait
    all_goals exact keeps_get_bind fun _ _ => keeps_pure _
  · exact h.trans (((xlOnly_publishLine s _ _).sameCores.sameSeqs.trans (sameSeqs_sawLine _ c _ _)).trans
      (sameSeqs_requestLine _ c _))
  · exact h.trans (sameSeqs_modCore s c fun _ => rfl)

theorem sameCores_publishPosted (s : State) (sel : Posted → Bool) : s.sameCores (s.publishPosted sel) :=
  (xlOnly_foldl (fun u (p : Posted) => xlOnly_publishBytes u p.pa p.bs) _ s).sameCores.trans (sameCores_of_cores rfl rfl rfl)

theorem seqs_hostStep (sc : Nat) : Keeps (State.sameSeqs b) (hostStep sc) :=
  keeps_ite (keeps_modify fun _ h => h.trans (State.sameCores.sameSeqs (sameCores_of_cores rfl rfl rfl))) (keeps_pure _)

theorem seqs_release (c sc : Nat) : Keeps (State.sameSeqs b) (release c sc) :=
  keeps_ite (keeps_bind (seqs_flushLines _ _) fun _ => keeps_bind (keeps_modify fun s h =>
    h.trans (sameCores_publishPosted s _).sameSeqs) fun _ => seqs_hostStep sc) (seqs_hostStep sc)

theorem seqs_releaseAlone (c sc : Nat) : Keeps (State.sameSeqs b) (releaseAlone c sc) :=
  keeps_bind (seqs_release c sc) fun _ => keeps_ite (keeps_modify fun _ h =>
    h.trans (State.sameCores.sameSeqs (sameCores_of_cores rfl rfl rfl))) (keeps_pure _)

/-- Work that first waits for something. -/
theorem keeps_after {I : State → Prop} {p : Prop} [Decidable p] {m : Op Unit} (hm : Keeps I m) :
    Keeps I (if p then (throwWait : Op Unit) >>= fun _ => m else m) :=
  keeps_ite (keeps_bind keeps_throwWait fun _ => hm) hm

theorem seqs_settle (c sc : Nat) (qs : List SeqId) : Keeps (State.sameSeqs b) (settle c sc qs) :=
  keeps_get_bind fun _ _ => keeps_after (keeps_after (keeps_ite keeps_throwWait (keeps_pure _)))

theorem seqs_releaseTraps (c : Nat) (d : Bool) : Keeps (State.sameSeqs b) (releaseTraps c d) :=
  keeps_get_bind fun _ _ => keeps_bind (keeps_need _ _ _) fun _ => keeps_need _ _ _

theorem seqs_releaseBlock (blk : Block) : Keeps (State.sameSeqs b) (releaseBlock blk) :=
  keeps_get_bind fun _ _ => keeps_bind (keeps_need _ _ _) fun _ => keeps_bind (seqs_releaseTraps _ _) fun _ =>
    keeps_bind (seqs_settle _ _ _) fun _ => seqs_releaseAlone _ _

/-- An arrival leaves the cores but for their event flags (R54, R55). -/
theorem cores_appendRec (d n : Nat) (lo hi : DWord) : Keeps (State.sameCores b) (appendRec d n lo hi) := by
  refine keeps_get_bind fun s _ => keeps_ite (keeps_pure _) (keeps_bind (keepsCores_of_xl fun _ => xl_agWriteBytes _ _ _ _ _)
    fun r => ?_)
  cases r
  · exact keeps_bind (keeps_modify fun u h => h.trans ((sameCores_modStage u d n _).trans (sameCores_postStage _ _ _ _ _ _ _)))
      fun _ => keeps_pure _
  · refine keeps_get_bind fun u h => keeps_bind (keeps_set (h.trans ((sameCores_modStage u d n _).trans (sameCores_wakeDie _ d))))
      fun _ => keeps_ite (keeps_bind (keeps_modify fun v hv => hv.trans (sameCores_of_cores rfl rfl rfl)) fun _ => keeps_pure _)
      (keeps_pure _)

end

theorem State.sameSeqs.does {s u : State} (h : s.sameSeqs u) : s.does [] u u.me s.mySeq u :=
  does_of h.cur h.curSeq (by unfold State.me; rw [h.cur]; exact h.core s.cur)

theorem State.sameSeqs.mySeq {s u : State} (h : s.sameSeqs u) : u.mySeq = s.mySeq := by
  have hm : u.me = { u.me with l := s.me.l, x := s.me.x, s := s.me.s, c := s.me.c } := by
    have := h.core s.cur
    unfold State.me
    rw [h.cur, this]
  unfold State.mySeq
  rw [h.curSeq, hm]
  cases s.curSeq <;> rfl

/-- An instruction whose work leaves the sequencers alone gives RD a value. -/
theorem gives_of_seqs {i : Instr} {c : Ctl} {srcs : List Nat} {body : Op Post} {rd v : Nat} {s u : State}
    (he : exec i s = issue i c noPre srcs body s) (h : Ready i c srcs s) (hk : s.sameSeqs u)
    (hb : body s = .ok .next (u.setG rd (BitVec.ofNat 32 v))) : Completes i s (s.gives c rd v u) := by
  refine completes_of he h rfl hb (fun n => Post.noConfusion) ⟨?_, ?_⟩
  · have hd := (hk.does.setG rd (BitVec.ofNat 32 v)).retire c .next
    rw [← hk.mySeq] at hd
    exact hd
  · exact putsScalar_setOpnd c .next false rd v fun _ => hk.does.g List.not_mem_nil

end Sys2Proof.Machine

namespace Sys2Proof.Machine

theorem anyPoison_iff (l : List RByte) : anyPoison l = true ↔ ∃ e, e ∈ l ∧ e.2 = true := by
  simp only [anyPoison, List.any_eq_true]

/-- The pennant table that `l` holds. -/
def pennants (l : List RByte) (n : Nat) : List Nat :=
  (List.range n).map fun j => (l.getD (2 * j) (0, false)).1.toNat + 256 * (l.getD (2 * j + 1) (0, false)).1.toNat

theorem pennants_eq (l : List RByte) (n : Nat) :
    (List.range n).map (fun i => rbytesNat ((l.drop (2 * i)).take 2)) = pennants l n := by
  simp only [rbytesNat_two, pennants]

theorem pennants_bad_iff (l : List RByte) (n : Nat) (wv : Bool) : (pennants l n).any (penBad wv) = true ↔
    ∃ j, j < n ∧ ¬ entrySound wv ((l.getD (2 * j) (0, false)).1.toNat + 256 * (l.getD (2 * j + 1) (0, false)).1.toNat) := by
  simp only [pennants, List.any_map, List.any_eq_true, List.mem_range, Function.comp, penBad_iff]

theorem weights_loaded (y : StageSlot) (x : Nat) (w ptab : List Nat) : (y.loaded x w ptab).weights =
    (List.range (w.getD 11 0 % 32)).map fun j => w.getD (12 + j / 2) 0 / 2 ^ (32 * (j % 2)) % 2 ^ 32 := by
  simp only [StageSlot.weights, StageSlot.loaded, fieldOf, pow_zero, Nat.div_one, Nat.reducePow]

theorem penn_gives {i : Instr} {c : Ctl} {sub rd ra v : Nat} {rb : Option Nat} {s u : State}
    (he : exec i s = penn i c sub rd ra rb s) {va : Nat} (hv : va = rb.elim 0 fun b => (s.pair b).toNat)
    (h : Ready i c (ra :: (rb.elim [] fun b => [b, b + 1])) s) (hk : s.sameCores u)
    (hb : pennOp s.myDie s.me.ctx.toNat sub (s.g ra).toNat va s =
      .ok v u) : Completes i s (s.gives c rd v u) :=
  by
  subst hv
  cases rb <;> exact gives_of he h hk (run_bind_ok hb)

/-! MBPOST (R54, R327). -/

section
variable {grp rd : Nat} {s : State}

theorem mbpostBody_reserved (h : (s.g (4 * grp)).toNat / 2 ^ 21 ≠ 0) : mbpostBody grp rd s = result rd 4 s := by
  have hf : fieldOf (s.g (4 * grp)).toNat 21 11 ≠ 0 := by
    have := (s.g (4 * grp)).isLt
    rw [fieldOf, Nat.mod_eq_of_lt (by omega)]
    exact h
  simp only [mbpostBody, run_get_bind, Nat.add_zero, bne_iff_ne, hf, ne_eq, not_false_eq_true, if_true]

variable (h : (s.g (4 * grp)).toNat / 2 ^ 21 = 0)
include h

omit h in
theorem noReserved {op : Nat} (h : op / 2 ^ 21 = 0) : (fieldOf op 21 11 != 0) = false := by
  rw [fieldOf, h]
  rfl

theorem mbpostBody_outside (hc : s.me.cur = none) : mbpostBody grp rd s = result rd 5 s := by
  simp only [mbpostBody, run_get_bind, Nat.add_zero, noReserved h, hc]
  rfl

variable {b : Block} (hc : s.me.cur = some b) {n ph : Nat} (hn : fieldOf (s.g (4 * grp)).toNat 18 3 = n)
  (hph : fieldOf (s.g (4 * grp)).toNat 16 2 = ph)
include hc hn hph

theorem mbpostBody_theirs (hm : ¬ ((s.stage s.myDie n).state ≠ 0 ∧ (s.stage s.myDie n).ctx = s.me.ctx.toNat)) :
    mbpostBody grp rd s = result rd 2 s := by
  have hb : (decide ((s.stage s.myDie n).state = 0) || (s.stage s.myDie n).ctx != s.me.ctx.toNat) = true := by
    rw [Bool.or_eq_true, decide_eq_true_eq, bne_iff_ne]
    tauto
  simp only [mbpostBody, run_get_bind, Nat.add_zero, noReserved h, hc, hn, hph, hb, if_true]
  rfl

variable (hm : (s.stage s.myDie n).state ≠ 0 ∧ (s.stage s.myDie n).ctx = s.me.ctx.toNat)
include hm

omit h hc hn hph in
theorem slot_mine : (decide ((s.stage s.myDie n).state = 0) || (s.stage s.myDie n).ctx != s.me.ctx.toNat) = false := by
  simp only [hm.1, hm.2, decide_false, bne_self_eq_false, Bool.or_self]

theorem mbpostBody_phase (hp : ph < 2 ∨ ph = 3 ∧ (s.stage s.myDie n).wv = false) :
    mbpostBody grp rd s = result rd 3 s := by
  have hb : (decide (ph < 2) || decide (ph = 3) && !(s.stage s.myDie n).wv) = true := by simpa using hp
  simp only [mbpostBody, run_get_bind, Nat.add_zero, noReserved h, hc, hn, hph, slot_mine hm, hb, if_true]
  rfl

theorem mbpostBody_posts (hp : ph = 2 ∨ ph = 3 ∧ (s.stage s.myDie n).wv = true) {s1 s2 : State} {x : Appended}
    (hr : releaseBlock b s = .ok () s1) (ha : appendRec s.myDie n
      (BitVec.ofNat 64 ((s.g (4 * grp)).toNat % 2 ^ 18 + 2 ^ 24 + (s.g (4 * grp + 1)).toNat * 2 ^ 32))
      (BitVec.ofNat 64 (s.g (4 * grp + 2)).toNat) s1 = .ok x s2) :
    mbpostBody grp rd s = result rd (if x = .done then 0 else 1) s2 := by
  have hb : (decide (ph < 2) || decide (ph = 3) && !(s.stage s.myDie n).wv) = false := by
    obtain rfl | ⟨rfl, hw⟩ := hp
    · rfl
    · rw [hw]; rfl
  simp only [mbpostBody, run_get_bind, Nat.add_zero, noReserved h, hc, hn, hph, slot_mine hm, hb]
  refine (run_bind_ok hr).trans ((run_bind_ok ha).trans ?_)
  cases x <;> rfl

end

/-- Settles O47: each form of PENN by the slot's state, the load check by check, and MBPOST by its record and its slot. -/
theorem stageInstructions : Obligations.StageInstructions := by
  unfold Obligations.StageInstructions
  refine ⟨?_, fun d x n va s => ⟨fun s1 b s2 => pennLoad_noDescriptor, fun w s1 hw => ?_⟩,
    fun d x inst h s => ⟨?_, fun ho => ?_⟩, ?_⟩
  · intro sub c rd ra rb s hsub i n st theirs res made h
    have hp : ∃ va, (sub = 0 → va = (s.pair rb).toNat) ∧ ∀ v u, s.sameCores u →
        pennOp s.myDie s.me.ctx.toNat sub n va s = .ok v u → Completes i s (s.gives c rd v u) := by
      obtain rfl | rfl | rfl | rfl | rfl : sub = 0 ∨ sub = 1 ∨ sub = 2 ∨ sub = 3 ∨ sub = 4 := by omega
      · exact ⟨_, fun _ => rfl, fun v u hk hb => penn_gives (rb := some rb) rfl rfl h hk hb⟩
      all_goals exact ⟨0, nofun, fun v u hk hb => penn_gives (rb := none) rfl rfl h hk hb⟩
    obtain ⟨va, hva, hp⟩ := hp
    have hsame (v : Nat) (hb : pennOp s.myDie s.me.ctx.toNat sub n va s = .ok v s) : res v :=
      hp v s (xlOnly_refl s).sameCores hb
    have hmade (v : Nat) (f : StageSlot → Prop) (u : State) (hu : s.slotOnly s.myDie n u) (hf : f (u.stage s.myDie n))
        (hb : pennOp s.myDie s.me.ctx.toNat sub n va s = .ok v u) : made v f :=
      ⟨u, hu.rest, hu.dies, hu.die, hu.slots, hf, hp v u hu.sameCores hb⟩
    refine ⟨fun hn => hsame _ (pennOp_noSlot _ _ _ _ _ hn), ?_,
      fun hn hs ht => hsame _ (pennOp_theirs _ _ _ _ _ hn hs ht), fun hn ht => ⟨?_, ?_, ?_, ?_, ?_, ?_, ?_, ?_, ?_⟩⟩
    · rintro hn rfl
      exact hsame _ (pennOp_stat _ _ _ _ _ hn)
    · rintro rfl h0
      exact hsame _ ((pennOp_load _ _ _ _ _ hn ht).trans (if_neg h0))
    · rintro rfl h0 v s1 hl
      rw [← hva rfl] at hl
      exact hp v s1 ((cores_pennLoad _ _ _ _ s (xlOnly_refl s).sameCores).1 _ _ hl)
        ((pennOp_load _ _ _ _ _ hn ht).trans ((if_pos h0).trans hl))
    · rintro rfl h1
      obtain ⟨hu, he⟩ := startStage_slotOnly s s.myDie n
      exact hmade _ (fun x => x = _) _ hu (he.trans (StageSlot.started_first h1) : _)
        ((pennOp_start _ _ _ _ _ hn ht).trans (if_pos (.inl h1)))
    · rintro rfl h3
      obtain ⟨hu, he⟩ := startStage_slotOnly s s.myDie n
      exact hmade _ (fun x => x = _) _ hu (he.trans (StageSlot.started_again fun h1 => absurd (h1.symm.trans h3) (by decide)))
        ((pennOp_start _ _ _ _ _ hn ht).trans (if_pos (.inr h3)))
    · rintro rfl h1 h3
      exact hsame _ ((pennOp_start _ _ _ _ _ hn ht).trans (if_neg (not_or.2 ⟨h1, h3⟩)))
    · rintro rfl h2
      exact hmade _ (fun x => x = _) _ (slotOnly_modStage ..) ((stage_modStage ..).trans (if_pos ⟨rfl, rfl⟩))
        ((pennOp_stop _ _ _ _ _ hn ht).trans (if_pos h2))
    · rintro rfl h2 h4
      exact hsame _ ((pennOp_stop _ _ _ _ _ hn ht).trans (if_neg (not_or.2 ⟨h2, h4⟩)))
    · rintro rfl h3 hg
      exact hmade _ (fun x => x = _) _ (slotOnly_modStage ..) ((stage_modStage ..).trans (if_pos ⟨rfl, rfl⟩))
        ((pennOp_unload _ _ _ _ _ hn ht).trans (if_pos ⟨h3, hg⟩))
    · rintro rfl h3
      exact hsame _ ((pennOp_unload _ _ _ _ _ hn ht).trans (if_neg fun h => h3.elim (· h.1) (· h.2)))
  · have hf : pennLoad d x n va s = loadFields d x n w va s1 := pennLoad_fields hw
    have hi := stageFieldsOk_iff va (length_agWords hw)
    dsimp only
    rw [hf, ← hi]
    refine ⟨loadFields_refused, fun hs o s2 ho => ?_⟩
    have hplen : w.getD 4 0 % 512 = fieldOf (w.getD 4 0) 0 9 := by simp [fieldOf]
    rw [hplen] at ho ⊢
    refine ⟨fun hp => ?_, ?_⟩
    · cases o with
      | none => exact loadFields_unreadable hs ho
      | some l => exact (loadFields_table hs ho).trans (loadTable_poison ((anyPoison_iff l).2 (hp l rfl)))
    · rintro l rfl hl
      have hp : ¬ anyPoison l = true := by
        rw [anyPoison_iff]
        rintro ⟨e, he, h⟩
        rw [hl e he] at h
        cases h
      have ho := loadFields_table (n := n) hs ho
      have htab := pennants_eq l (fieldOf (w.getD 4 0) 0 9)
      have hbad := pennants_bad_iff l (fieldOf (w.getD 4 0) 0 9) ((w.getD 2 0).testBit 24)
      rw [← bit_eq_testBit] at hbad ⊢
      rw [ho, ← hbad]
      refine ⟨loadTable_bad hp htab, fun hg => ?_⟩
      have hgood : ¬ (pennants l (fieldOf (w.getD 4 0) 0 9)).any (penBad (bit (w.getD 2 0) 24)) = true := fun h => by
        obtain ⟨j, hj, he⟩ := hbad.1 h
        exact he (hg j hj)
      refine ⟨fun s3 => loadTable_unreadable hp htab hgood, fun m s3 hm => ?_⟩
      rw [loadTable_cores hp htab hgood hm, ← coreSetOk_iff]
      refine ⟨loadCores_refused, fun hc e s4 he => ⟨loadCores_small hc he, fun hi ts s5 ht => ?_⟩⟩
      rw [loadCores_templates hc he hi ht]
      refine ⟨loadTemplates_unreadable, loadTemplates_refused, fun hok vs s6 hvs => ?_⟩
      obtain ⟨rfl, b, hb, hw⟩ := weightsOk_run hvs
      rw [loadTemplates_weights hok ((weights_loaded ..).symm ▸ hb)]
      exact ⟨fun h => if_neg fun h' => h (hw.1 h'), fun h => if_pos (hw.2 h)⟩
  · exact fun h1 h2 => templateCheck_instance ⟨h1, h2⟩
  · dsimp only
    rw [templateCheck_outside ho]
    exact ⟨fun _ => templateWords_beyond, fun _ => templateWords_unreadable, fun w s1 hr =>
      ⟨fun s2 => templateWords_noDescriptor hr, fun k s2 => templateWords_checks hr⟩⟩
  · intro c grp rd s h i op n ph st mine res
    have hres (v : Nat) (hb : mbpostBody grp rd s = result rd v s) : res v :=
      gives_of rfl h (xlOnly_refl s).sameCores hb
    have hn : fieldOf op 18 3 = n := rfl
    have hph : fieldOf op 16 2 = ph := rfl
    refine ⟨fun h0 => hres 4 (mbpostBody_reserved h0), fun h0 hc => hres 5 (mbpostBody_outside h0 hc), fun b h0 hc =>
      ⟨fun hm => hres 2 (mbpostBody_theirs h0 hc hn hph hm), fun hm hp => hres 3 (mbpostBody_phase h0 hc hn hph hm hp),
        fun hm hp s1 x s2 hr ha => ?_⟩⟩
    have hk : s.sameSeqs s2 := State.sameSeqs.trans ((seqs_releaseBlock b s (sameSeqs_refl s)).1 _ _ hr)
      ((cores_appendRec _ _ _ _ s1 (xlOnly_refl s1).sameCores).1 _ _ ha).sameSeqs
    exact gives_of_seqs rfl h hk (mbpostBody_posts h0 hc hn hph hm hp hr ha)

end Sys2Proof.Machine

namespace Sys2Proof.Machine

/-! Versions: what the work of VERNEW, VERPIN and VERDROP leaves of the cores (R70 to R75). -/

section
variable {b : State}

theorem cores_hwWr (a n v : Nat) : Keeps (State.sameCores b) (hwWr a n v) := keepsCores_of_xl fun _ => xl_hwWr a n v

theorem keeps_readTte {I : State → Prop} (d : TDesc) (v x : Nat) : Keeps I (readTte d v x) :=
  keeps_bind (keeps_hwRd I _ _) fun _ => keeps_bind (keeps_hwRd I _ _) fun _ => keeps_pure _

theorem sameCores_pushFrame (s : State) (d k f : Nat) : s.sameCores (s.pushFrame d k f) := by
  unfold State.pushFrame
  dsimp only
  split
  · exact sameCores_postUnit ..
  · exact State.sameCores.trans (xlOnly_publishN (xlOnly_refl s) _ 4 f).sameCores (sameCores_of_cores rfl rfl rfl)

theorem cores_dropFrame (d : TDesc) (x f tier : Nat) : Keeps (State.sameCores b) (dropFrame d x f tier) :=
  keeps_bind (keeps_collect fun _ => keeps_readTte _ _ _) fun _ =>
    keeps_bind (keeps_forAll fun _ => keeps_ite (keeps_pure _) (cores_hwWr _ _ _)) fun _ =>
      keeps_ite (keeps_modify fun s h => h.trans (sameCores_pushFrame s _ _ _)) (keeps_pure _)

theorem cores_freeVersion (d : TDesc) (ctx tid v : Nat) : Keeps (State.sameCores b) (freeVersion d ctx tid v) :=
  keeps_bind (keeps_forAll fun _ => keeps_bind (keeps_readTte _ _ _) fun _ => keeps_ite (cores_dropFrame _ _ _ _) (keeps_pure _))
    fun _ => keeps_bind (keeps_hwRd _ _ _) fun _ => keeps_bind (cores_hwWr _ _ _) fun _ =>
      keeps_bind (keeps_modify fun _ h => h.trans (sameCores_of_cores rfl rfl rfl)) fun _ => keeps_get_bind fun _ _ =>
        keeps_forAll fun _ => keeps_modify fun s h => h.trans (sameCores_modStage s _ _ _)

theorem cores_freeIfDue (die ctx tid v : Nat) : Keeps (State.sameCores b) (freeIfDue die ctx tid v) := by
  refine keeps_bind (keeps_tdesc _ _ _) fun r => ?_
  cases r with
  | ok d => exact keeps_get_bind fun _ _ => keeps_ite (keeps_bind (cores_freeVersion _ _ _ _) fun _ => keeps_pure _) (keeps_pure _)
  | notmap => exact keeps_pure _
  | bad => exact keeps_pure _
  | poison => exact keeps_pure _

theorem cores_mirrorSet (d n slot vset : Nat) : Keeps (State.sameCores b) (mirrorSet d n slot vset) :=
  keeps_get_bind fun _ _ => keeps_bind (keepsCores_of_xl fun _ => xl_agWriteBytes _ _ _ _ _)
    fun _ => keeps_ite (keeps_modify fun s h => h.trans (sameCores_postStage s _ _ _ _ _ _)) (keeps_pure _)

theorem cores_verNewMake (die ctx tid : Nat) (d : TDesc) (v : Nat) :
    Keeps (State.sameCores b) (verNewMake die ctx tid d v) := by
  refine keeps_bind (keeps_forAll fun x => keeps_bind (keeps_readTte _ _ _) fun t => keeps_ite (keeps_bind
    (keeps_forAll fun k => keeps_bind (keeps_readTte _ _ _) fun u => keeps_ite (cores_hwWr _ _ _) (keeps_pure _)) fun _ =>
      keeps_bind (cores_hwWr _ _ _) fun _ => keeps_bind (cores_hwWr _ _ _) fun _ =>
        keeps_ite (keeps_modify fun s h => h.trans (sameCores_postUnit s _ _ _ _ _ _)) (keeps_pure _))
    (keeps_bind (cores_hwWr _ _ _) fun _ => cores_hwWr _ _ _)) fun _ => ?_
  exact keeps_bind (keeps_forAll fun g => keeps_bind (keeps_hwRd _ _ _) fun _ => cores_hwWr _ _ _) fun _ =>
    keeps_bind (keeps_hwRd _ _ _) fun _ => keeps_bind (cores_hwWr _ _ _) fun _ => keeps_get_bind fun _ _ =>
      keeps_ite (keeps_bind (keeps_modify fun _ h => h.trans (sameCores_of_cores rfl rfl rfl)) fun _ =>
        keeps_bind (cores_freeIfDue _ _ _ _) fun _ => keeps_pure _) (keeps_pure _)

theorem keeps_verNewCheck {I : State → Prop} (d : TDesc) : Keeps I (verNewCheck d) := by
  refine keeps_ite (keeps_pure _) (keeps_ite (keeps_pure _) ?_)
  split
  · exact keeps_pure _
  · exact keeps_ite (keeps_pure _) (keeps_bind (keeps_collect fun _ => keeps_readTte _ _ _) fun _ =>
      keeps_ite (keeps_pure _) (keeps_ite (keeps_pure _) (keeps_pure _)))

end

/-! Instructions that may post messages (R280, R290). -/

section
variable {α : Type} {x : Op α} {a : α} {s u : State} (hx : x s = .ok a u) (hc : u.cur = s.cur)
include hx hc

theorem asPoster_run : asPoster x s =
    if (s.die s.myDie).mail.length < (u.die s.myDie).mail.length ∧ (s.die s.myDie).mailIdle = false
    then .error (.wait false) u else .ok a u := by
  have hd : u.myDie = s.myDie := by unfold State.myDie; rw [hc]
  simp only [asPoster, run_get_bind]
  refine (run_bind_ok hx).trans ?_
  simp only [run_get_bind, hd, Bool.and_eq_true, decide_eq_true_eq, Bool.not_eq_true']
  split <;> rfl

omit hx hc in
theorem mailFits_iff (s u : State) : ¬ s.mailFits u ↔
    (s.die s.myDie).mail.length < (u.die s.myDie).mail.length ∧ (s.die s.myDie).mailIdle = false := by
  rw [State.mailFits, not_or, Nat.not_le, Bool.not_eq_true]

end

theorem asPoster_error {α : Type} {x : Op α} {e : Exc} {s u : State} (hx : x s = .error e u) :
    asPoster x s = .error e u := by
  simp only [asPoster, run_get_bind]
  exact run_bind_error hx

/-- An instruction whose work, all of it by hardware outside the cores, may post messages and gives RD a value. -/
theorem toPost_of {i : Instr} {c : Ctl} {srcs : List Nat} {x : Op Post} {rd v : Nat} {s u : State} {body : Op Post}
    (he : exec i s = issue i c noPre srcs body s) (hb : body s = asPoster x s) (h : Ready i c srcs s) (hk : s.sameCores u)
    (hx : x s = .ok .next (u.setG rd (BitVec.ofNat 32 v))) : s.toPost i u (Completes i s (s.gives c rd v u)) := by
  have hr := asPoster_run hx hk.cur
  have hf := mailFits_iff s u
  refine ⟨fun hm => gives_of he h hk (hb.trans (hr.trans (if_neg ?_))), fun hm => ⟨errState s (u.setG rd (BitVec.ofNat 32 v)), ?_⟩⟩
  · exact fun hn => hf.2 hn hm
  · have hw : exec i s = .next ((errState s (u.setG rd (BitVec.ofNat 32 v))).waitFor i false) :=
      he.trans (issue_bodyWaits h rfl (hb.trans (hr.trans (if_pos (hf.1 hm)))))
    obtain ⟨ht, hc, hmem⟩ := errState_frame s (u.setG rd (BitVec.ofNat 32 v))
    exact ⟨hw, ht, hc, hmem⟩

end Sys2Proof.Machine

namespace Sys2Proof.Machine

/-! Hardware reads and writes that succeed (R195, R221). -/

/-- The bytes of a run. -/
def inRun (a n x : Nat) : Prop := a ≤ x ∧ x < a + n

theorem hwRd_inv {a n w : Nat} {s t : State} (h : hwRd a n s = .ok w t) : w = s.rd a n ∧ s = t := by
  unfold hwRd at h
  split at h <;> cases h
  exact ⟨rfl, rfl⟩

theorem hwWr_inv {a n v : Nat} {s t : State} (h : hwWr a n v s = .ok () t) : t = s.publishN a n v := by
  unfold hwWr at h
  split at h <;> cases h
  rfl

theorem readTte_inv {d : TDesc} {v x : Nat} {e : Tte} {s t : State} (h : readTte d v x s = .ok e t) :
    e = ⟨d.table v + 16 * x, s.rd (d.table v + 16 * x) 8, s.rd (d.table v + 16 * x + 8) 8⟩ ∧ s = t := by
  obtain ⟨lo, u, hl, h⟩ := run_bind_inv h
  obtain ⟨rfl, rfl⟩ := hwRd_inv hl
  obtain ⟨hi, u, hh, h⟩ := run_bind_inv h
  obtain ⟨rfl, rfl⟩ := hwRd_inv hh
  cases h
  exact ⟨rfl, rfl⟩

theorem rd_of_bytes {s t : State} : ∀ {n a : Nat}, (∀ x, inRun a n x → t.byte x = s.byte x) → t.rd a n = s.rd a n
  | 0, _, _ => rfl
  | n + 1, a, h => by
    rw [State.rd, State.rd, h a ⟨Nat.le_refl a, by omega⟩, rd_of_bytes fun x hx => h x ⟨by have := hx.1; omega, by have := hx.2; omega⟩]

theorem rd_publishN_same (s : State) (a n v : Nat) : (s.publishN a n v).rd a n = v % 256 ^ n :=
  rd_eq_mod n a v fun j hj => by rw [byte_publishN, if_pos ⟨by omega, by omega⟩, Nat.add_sub_cancel_left]

theorem rd_publishN_apart (s : State) {a n b m : Nat} (v : Nat) (h : apart (a, n) (b, m)) :
    (s.publishN a n v).rd b m = s.rd b m :=
  rd_of_bytes fun x hx => by
    rw [byte_publishN, if_neg]
    obtain ⟨h1, h2⟩ := hx
    obtain h | h := h <;> dsimp only at h <;> omega

/-- Work that publishes bytes of `R` alone leads from `s` to `t`. -/
structure State.touches (s : State) (R : Nat → Prop) (t : State) : Prop where
  only : xlOnly s t
  bytes : ∀ a, ¬ R a → t.byte a = s.byte a

theorem touches_refl (s : State) (R : Nat → Prop) : s.touches R s := ⟨xlOnly_refl s, fun _ _ => rfl⟩

theorem State.touches.trans {s t u : State} {R : Nat → Prop} (h : s.touches R t) (g : t.touches R u) : s.touches R u :=
  ⟨h.only.trans g.only, fun a ha => (g.bytes a ha).trans (h.bytes a ha)⟩

theorem State.touches.mono {s t : State} {R R' : Nat → Prop} (h : s.touches R t) (hr : ∀ a, R a → R' a) : s.touches R' t :=
  ⟨h.only, fun a ha => h.bytes a fun hR => ha (hr a hR)⟩

theorem touches_publishN (s : State) (a n v : Nat) : s.touches (inRun a n) (s.publishN a n v) :=
  ⟨xlOnly_publishN (xlOnly_refl s) a n v, fun x hx => by rw [byte_publishN]; exact if_neg hx⟩

theorem State.touches.rd {s t : State} {R : Nat → Prop} (h : s.touches R t) {a n : Nat} (hr : ∀ x, inRun a n x → ¬ R x) :
    t.rd a n = s.rd a n := rd_of_bytes fun x hx => h.bytes x (hr x hx)

/-- Work on parts of memory without a common byte, one part after another: of each part what its own step does. `Q` speaks of
a part's bytes alone. -/
theorem forAll_parts {ι : Type} {f : ι → Op Unit} {R : ι → Nat → Prop} {P : ι → State → Prop} {Q : ι → State → State → Prop}
    (hP : ∀ i s t, (∀ a, R i a → t.byte a = s.byte a) → P i s → P i t)
    (hQ : ∀ i s s' t t', (∀ a, R i a → s'.byte a = s.byte a) → (∀ a, R i a → t'.byte a = t.byte a) → Q i s t → Q i s' t')
    (hf : ∀ i s t, P i s → f i s = .ok () t → s.touches (R i) t ∧ Q i s t) :
    ∀ (l : List ι), l.Nodup → (∀ i, i ∈ l → ∀ j, j ∈ l → i ≠ j → ∀ a, R i a → ¬ R j a) →
      ∀ s t, (∀ i, i ∈ l → P i s) → forAll l f s = .ok () t →
        s.touches (fun a => ∃ i, i ∈ l ∧ R i a) t ∧ ∀ i, i ∈ l → Q i s t := by
  intro l
  induction l with
  | nil =>
    intro _ _ s t _ h
    cases h
    exact ⟨touches_refl s _, fun i hi => absurd hi List.not_mem_nil⟩
  | cons i l ih =>
    intro hn hd s t hp h
    obtain ⟨hi, hn⟩ := List.nodup_cons.1 hn
    obtain ⟨_, u, hu, h⟩ := run_bind_inv h
    obtain ⟨h1, hq⟩ := hf i s u (hp i (List.mem_cons_self ..)) hu
    have hdis (j : ι) (hj : j ∈ l) (a : Nat) (ha : R j a) : ¬ R i a :=
      hd j (List.mem_cons_of_mem _ hj) i (List.mem_cons_self ..) (fun e => hi (e ▸ hj)) a ha
    have hsame (j : ι) (hj : j ∈ l) (a : Nat) (ha : R j a) : u.byte a = s.byte a := h1.bytes a (hdis j hj a ha)
    obtain ⟨h2, hqs⟩ := ih hn (fun j hj k hk => hd j (List.mem_cons_of_mem _ hj) k (List.mem_cons_of_mem _ hk)) u t
      (fun j hj => hP j s u (hsame j hj) (hp j (List.mem_cons_of_mem _ hj))) h
    refine ⟨(h1.mono fun a ha => ⟨i, List.mem_cons_self .., ha⟩).trans
      (h2.mono fun a ⟨j, hj, ha⟩ => ⟨j, List.mem_cons_of_mem _ hj, ha⟩), fun j hj => ?_⟩
    obtain rfl | hj := List.mem_cons.1 hj
    · exact hQ j s s u t (fun _ _ => rfl) (fun a ha => h2.bytes a fun ⟨k, hk, hka⟩ => hdis k hk a hka ha) hq
    · exact hQ j u s t t (fun a ha => (hsame j hj a ha).symm) (fun _ _ => rfl) (hqs j hj)

/-! The words of a tile that a new version shares (R72, R373). -/

/-- COW set and REFCNT one up. -/
def shareWord (lo : Nat) : Nat := setField (setField lo 33 1 1) 36 8 (fieldOf lo 36 8 + 1)

theorem sharedTte_shareWord (lo : Nat) : sharedTte lo (shareWord lo % 256 ^ 8) := by
  intro j hj
  rw [show (256 : Nat) ^ 8 = 2 ^ 64 from rfl, Nat.testBit_mod_two_pow, decide_eq_true hj, Bool.true_and, shareWord,
    testBit_setField, testBit_setField]
  by_cases h33 : j = 33
  · subst h33
    rfl
  · rw [if_neg h33, if_neg (show ¬ (33 ≤ j ∧ j < 33 + 1) by omega)]
    by_cases h : 36 ≤ j ∧ j < 44
    · rw [if_pos h, if_pos h, fieldOf, show (256 : Nat) = 2 ^ 8 from rfl, Nat.testBit_mod_two_pow, decide_eq_true (by omega),
        Bool.true_and]
    · rw [if_neg h, if_neg h]

/-- A tile entry of a version after another shares the current one's frame. -/
def shareWith (cur lo : Nat) : Nat :=
  if (cur / 2 ^ 29 % 4 ≤ 1 ∧ cur / 2 ^ 31 % 4 ≤ 1) ∧ (lo / 2 ^ 29 % 4 ≤ 1 ∧ lo / 2 ^ 31 % 4 ≤ 1) ∧ lo % 2 ^ 29 = cur % 2 ^ 29
  then shareWord lo % 256 ^ 8 else lo

theorem sharedTte_shareWith {cur lo : Nat} (h : (cur / 2 ^ 29 % 4 ≤ 1 ∧ cur / 2 ^ 31 % 4 ≤ 1) ∧
    (lo / 2 ^ 29 % 4 ≤ 1 ∧ lo / 2 ^ 31 % 4 ≤ 1) ∧ lo % 2 ^ 29 = cur % 2 ^ 29) : sharedTte lo (shareWith cur lo) := by
  rw [shareWith, if_pos h]
  exact sharedTte_shareWord lo

section
variable (d : TDesc) (v j : Nat)

/-- Version `k` exists, or is the one being made. -/
def TDesc.ours (k : Nat) : Prop := k < 8 ∧ (k = v ∨ d.hasVersion k = true)

/-- What VERNEW leaves of tile `j`: the entries of the existing versions, and the new one's. -/
def tileShared (s t : State) : Prop :=
  (∀ k, k < 8 → d.hasVersion k = true →
    t.rd (d.table k + 16 * j) 8 = shareWith (s.rd (d.table d.cur + 16 * j) 8) (s.rd (d.table k + 16 * j) 8) ∧
    t.rd (d.table k + 16 * j + 8) 8 = s.rd (d.table k + 16 * j + 8) 8) ∧
  t.rd (d.table v + 16 * j) 8 = shareWith (s.rd (d.table d.cur + 16 * j) 8) (s.rd (d.table d.cur + 16 * j) 8) ∧
  t.rd (d.table v + 16 * j + 8) 8 = s.rd (d.table d.cur + 16 * j + 8) 8

/-- The entries of tile `j`. -/
def tileBytes (a : Nat) : Prop := ∃ k, d.ours v k ∧ inRun (d.table k + 16 * j) 16 a

/-- VERNEW's work on tile `j`. -/
def shareTile (die ctx tid : Nat) : Op Unit := do
  let t ← readTte d d.cur j
  let a := d.table v + 16 * j
  if t.accessible then do
    forAll ((List.range 8).filter d.hasVersion) (fun k => do
      let u ← readTte d k j
      if u.accessible && u.frame == t.frame then writeTteLo u.addr (shareWord u.lo))
    hwWr a 8 (shareWord t.lo)
    hwWr (a + 8) 8 t.hi
    if t.shx then modify (fun s => s.postUnit die 3 1 (tid + j * 2 ^ 32) t.frame ctx)
  else do
    hwWr a 8 t.lo
    hwWr (a + 8) 8 t.hi

/-- VERNEW's work on the entry of version `k`. -/
def shareEntry (frame k : Nat) : Op Unit := do
  let u ← readTte d k j
  if u.accessible && u.frame == frame then writeTteLo u.addr (shareWord u.lo)

/-- VERNEW's work on summary word `g`. -/
def copySummary (g : Nat) : Op Unit := do
  let w ← hwRd (d.summary d.cur (64 * g)) 4
  hwWr (d.summary v (64 * g)) 4 w

/-- VERNEW's work on the descriptor, and what AUTODROP does besides. -/
def makeCurrent (die ctx tid : Nat) : Op Unit := do
  let w ← hwRd (d.addr + 0x10) 8
  hwWr (d.addr + 0x10) 8 (setField (setField w (28 + v) 1 1) 25 3 v)
  if (← get).autoDrop ctx tid then do
    modify (fun s => { s with drops := ⟨ctx, tid, d.cur⟩ :: s.drops })
    let _ ← freeIfDue die ctx tid d.cur

theorem verNewMake_eq (die ctx tid : Nat) : verNewMake die ctx tid d v =
    (forAll (List.range d.nt) (fun j => shareTile d v j die ctx tid) >>= fun _ =>
      forAll (List.range ((d.nt + 63) / 64)) (copySummary d v) >>= fun _ => makeCurrent d v die ctx tid) := rfl

end

theorem accessible_iff (a lo hi : Nat) : (⟨a, lo, hi⟩ : Tte).accessible = true ↔ lo / 2 ^ 29 % 4 ≤ 1 ∧ lo / 2 ^ 31 % 4 ≤ 1 := by
  rw [Tte.accessible, Bool.and_eq_true, decide_eq_true_eq, decide_eq_true_eq]
  rfl

theorem frame_eq (a lo hi : Nat) : (⟨a, lo, hi⟩ : Tte).frame = lo % 2 ^ 29 := by
  rw [Tte.frame, fieldOf, pow_zero, Nat.div_one]

section
variable {d : TDesc} {v j : Nat}

theorem shareEntry_does {frame k : Nat} {s t : State} (h : shareEntry d j frame k s = .ok () t) :
    s.touches (inRun (d.table k + 16 * j) 8) t ∧ t.rd (d.table k + 16 * j) 8 =
      (if (s.rd (d.table k + 16 * j) 8 / 2 ^ 29 % 4 ≤ 1 ∧ s.rd (d.table k + 16 * j) 8 / 2 ^ 31 % 4 ≤ 1) ∧
        s.rd (d.table k + 16 * j) 8 % 2 ^ 29 = frame then shareWord (s.rd (d.table k + 16 * j) 8) % 256 ^ 8
       else s.rd (d.table k + 16 * j) 8) := by
  obtain ⟨u, s', hu, h⟩ := run_bind_inv h
  obtain ⟨rfl, rfl⟩ := readTte_inv hu
  simp only [Bool.and_eq_true, accessible_iff, frame_eq, beq_iff_eq] at h
  split at h
  · next hc =>
    obtain rfl := hwWr_inv h
    exact ⟨touches_publishN .., (rd_publishN_same ..).trans (if_pos hc).symm⟩
  · next hc =>
    cases h
    exact ⟨touches_refl _ _, (if_neg hc).symm⟩

theorem shareEntries_do {frame : Nat} {l : List Nat} (hl : l.Nodup)
    (hd : ∀ k, k ∈ l → ∀ k', k' ∈ l → k ≠ k' → apart (d.table k + 16 * j, 16) (d.table k' + 16 * j, 16)) {s t : State}
    (h : forAll l (shareEntry d j frame) s = .ok () t) :
    s.touches (fun a => ∃ k, k ∈ l ∧ inRun (d.table k + 16 * j) 8 a) t ∧ ∀ k, k ∈ l → t.rd (d.table k + 16 * j) 8 =
      (if (s.rd (d.table k + 16 * j) 8 / 2 ^ 29 % 4 ≤ 1 ∧ s.rd (d.table k + 16 * j) 8 / 2 ^ 31 % 4 ≤ 1) ∧
        s.rd (d.table k + 16 * j) 8 % 2 ^ 29 = frame then shareWord (s.rd (d.table k + 16 * j) 8) % 256 ^ 8
       else s.rd (d.table k + 16 * j) 8) := by
  refine forAll_parts (P := fun _ _ => True) (fun _ _ _ _ _ => trivial) (fun k s s' t t' hs ht hq => ?_)
    (fun k s t _ h => shareEntry_does h) l hl (fun k hk k' hk' hne a ha ha' => ?_) s t (fun _ _ => trivial) h
  · rw [rd_of_bytes hs, rd_of_bytes ht]
    exact hq
  · obtain ⟨h1, h2⟩ := ha
    obtain ⟨h3, h4⟩ := ha'
    have := hd k hk k' hk' hne
    simp only [apart] at this
    omega

/-- Both words of an entry written, one after the other. -/
theorem writePair_does (s : State) (a x y : Nat) :
    s.touches (inRun a 16) ((s.publishN a 8 x).publishN (a + 8) 8 y) ∧
    ((s.publishN a 8 x).publishN (a + 8) 8 y).rd a 8 = x % 256 ^ 8 ∧
    ((s.publishN a 8 x).publishN (a + 8) 8 y).rd (a + 8) 8 = y % 256 ^ 8 := by
  refine ⟨State.touches.trans ((touches_publishN s a 8 x).mono fun b ⟨h1, h2⟩ => ⟨h1, by omega⟩)
    ((touches_publishN _ (a + 8) 8 y).mono fun b ⟨h1, h2⟩ => ⟨by omega, by omega⟩), ?_, rd_publishN_same ..⟩
  rw [rd_publishN_apart _ _ (.inr (by dsimp only; omega)), rd_publishN_same]

theorem shareWith_held {cur lo : Nat} (h : cur / 2 ^ 29 % 4 ≤ 1 ∧ cur / 2 ^ 31 % 4 ≤ 1) : shareWith cur lo =
    if (lo / 2 ^ 29 % 4 ≤ 1 ∧ lo / 2 ^ 31 % 4 ≤ 1) ∧ lo % 2 ^ 29 = cur % 2 ^ 29 then shareWord lo % 256 ^ 8 else lo := by
  simp only [shareWith, h, true_and, and_self]

theorem shareWith_absent {cur lo : Nat} (h : ¬ (cur / 2 ^ 29 % 4 ≤ 1 ∧ cur / 2 ^ 31 % 4 ≤ 1)) : shareWith cur lo = lo :=
  if_neg fun hc => h hc.1

section
variable (h8 : v < 8) (hv : d.hasVersion v = false)
  (hd : ∀ k k', d.ours v k → d.ours v k' → k ≠ k' → apart (d.table k + 16 * j, 16) (d.table k' + 16 * j, 16))
include h8 hv hd

/-- The existing versions' entries shared in `u`, and the new one's entry written after them. -/
theorem tileShared_of_entries {s u : State} {x y : Nat}
    (ht : s.touches (fun a => ∃ k, k ∈ (List.range 8).filter d.hasVersion ∧ inRun (d.table k + 16 * j) 8 a) u)
    (hk : ∀ k, k ∈ (List.range 8).filter d.hasVersion → u.rd (d.table k + 16 * j) 8 =
      shareWith (s.rd (d.table d.cur + 16 * j) 8) (s.rd (d.table k + 16 * j) 8))
    (hx : x % 256 ^ 8 = shareWith (s.rd (d.table d.cur + 16 * j) 8) (s.rd (d.table d.cur + 16 * j) 8))
    (hy : y = s.rd (d.table d.cur + 16 * j + 8) 8) :
    let t := (u.publishN (d.table v + 16 * j) 8 x).publishN (d.table v + 16 * j + 8) 8 y
    s.touches (tileBytes d v j) t ∧ tileShared d v j s t := by
  intro t
  have hmem (k : Nat) : k ∈ (List.range 8).filter d.hasVersion ↔ k < 8 ∧ d.hasVersion k = true := by
    rw [List.mem_filter, List.mem_range]
  have hours (k : Nat) (hk : k ∈ (List.range 8).filter d.hasVersion) : d.ours v k := ⟨((hmem k).1 hk).1, .inr ((hmem k).1 hk).2⟩
  have hvours : d.ours v v := ⟨h8, .inl rfl⟩
  obtain ⟨hw, hlo, hhi⟩ := writePair_does u (d.table v + 16 * j) x y
  have hkeep (k o : Nat) (hk : k ∈ (List.range 8).filter d.hasVersion) (ho : o ≤ 8) :
      t.rd (d.table k + 16 * j + o) 8 = u.rd (d.table k + 16 * j + o) 8 :=
    hw.rd fun x ⟨h1, h2⟩ ⟨h3, h4⟩ => by
      have := hd k v (hours k hk) hvours fun e => by rw [e, hmem, hv] at hk; exact Bool.noConfusion hk.2
      simp only [apart] at this
      omega
  have hstamp (k : Nat) (hk : k ∈ (List.range 8).filter d.hasVersion) :
      u.rd (d.table k + 16 * j + 8) 8 = s.rd (d.table k + 16 * j + 8) 8 :=
    ht.rd fun x ⟨h1, h2⟩ ⟨k', hk', h3, h4⟩ => by
      by_cases he : k = k'
      · subst he; omega
      · have := hd k k' (hours k hk) (hours k' hk') he
        simp only [apart] at this
        omega
  refine ⟨(ht.mono fun a ⟨k, hk, h1, h2⟩ => ⟨k, hours k hk, h1, by omega⟩).trans (hw.mono fun a h => ⟨v, hvours, h⟩),
    fun k hk8 hkv => ?_, hlo.trans hx, ?_⟩
  · have hin := (hmem k).2 ⟨hk8, hkv⟩
    exact ⟨(hkeep k 0 hin (by omega)).trans (hk k hin), (hkeep k 8 hin (by omega)).trans (hstamp k hin)⟩
  · rw [hhi, hy, Nat.mod_eq_of_lt (rd_lt ..)]

theorem shareTile_does {die ctx tid : Nat} {s t : State} (hx : (s.rd (d.table d.cur + 16 * j) 8).testBit 52 = false)
    (h : shareTile d v j die ctx tid s = .ok () t) : s.touches (tileBytes d v j) t ∧ tileShared d v j s t := by
  obtain ⟨e, u, he, h⟩ := run_bind_inv h
  obtain ⟨rfl, rfl⟩ := readTte_inv he
  have hshx (a lo hi : Nat) (h : lo.testBit 52 = false) : (⟨a, lo, hi⟩ : Tte).shx = false := by
    rw [Tte.shx, bit_eq_testBit]; exact h
  simp only [accessible_iff, frame_eq, hshx _ _ _ hx] at h
  split at h
  · next ha =>
    obtain ⟨_, u, h1, h⟩ := run_bind_inv h
    obtain ⟨_, u2, h2, h⟩ := run_bind_inv h
    obtain ⟨_, u3, h3, h⟩ := run_bind_inv h
    obtain rfl := hwWr_inv h2
    obtain rfl := hwWr_inv h3
    cases h
    obtain ⟨ht, hk⟩ := shareEntries_do (List.nodup_range.filter _) (fun k hk k' hk' => hd k k'
      ⟨List.mem_range.1 (List.mem_filter.1 hk).1, .inr (List.mem_filter.1 hk).2⟩
      ⟨List.mem_range.1 (List.mem_filter.1 hk').1, .inr (List.mem_filter.1 hk').2⟩) h1
    exact tileShared_of_entries h8 hv hd ht (fun k hm => (hk k hm).trans (shareWith_held ha).symm)
      ((if_pos ⟨ha, rfl⟩).symm.trans (shareWith_held ha).symm) rfl
  · next ha =>
    obtain ⟨_, u, h1, h⟩ := run_bind_inv h
    obtain rfl := hwWr_inv h1
    obtain rfl := hwWr_inv h
    exact tileShared_of_entries h8 hv hd (touches_refl s _) (fun k _ => (shareWith_absent ha).symm)
      ((Nat.mod_eq_of_lt (rd_lt ..)).trans (shareWith_absent ha).symm) rfl

end

/-- What VERNEW leaves of a tile is said by the tile's entries alone. -/
theorem tileShared_congr (h8 : v < 8) (hc : d.cur < 8 ∧ d.hasVersion d.cur = true) {s s' t t' : State}
    (hs : ∀ a, tileBytes d v j a → s'.byte a = s.byte a) (ht : ∀ a, tileBytes d v j a → t'.byte a = t.byte a)
    (h : tileShared d v j s t) : tileShared d v j s' t' := by
  have hr (w w' : State) (hw : ∀ a, tileBytes d v j a → w'.byte a = w.byte a) (k o : Nat) (hk : d.ours v k) (ho : o ≤ 8) :
      w'.rd (d.table k + 16 * j + o) 8 = w.rd (d.table k + 16 * j + o) 8 :=
    rd_of_bytes fun x ⟨h1, h2⟩ => hw x ⟨k, hk, by omega, by omega⟩
  have hcur : d.ours v d.cur := ⟨hc.1, .inr hc.2⟩
  have hnew : d.ours v v := ⟨h8, .inl rfl⟩
  obtain ⟨h1, h2, h3⟩ := h
  have e0 := hr s s' hs d.cur 0 hcur (by omega)
  refine ⟨fun k hk hkv => ?_, ?_, ?_⟩
  · have hko : d.ours v k := ⟨hk, .inr hkv⟩
    obtain ⟨ha, hb⟩ := h1 k hk hkv
    exact ⟨(hr t t' ht k 0 hko (by omega)).trans (ha.trans (congrArg₂ shareWith e0.symm (hr s s' hs k 0 hko (by omega)).symm)),
      (hr t t' ht k 8 hko (by omega)).trans (hb.trans (hr s s' hs k 8 hko (by omega)).symm)⟩
  · exact (hr t t' ht v 0 hnew (by omega)).trans (h2.trans (congrArg₂ shareWith e0.symm e0.symm))
  · exact (hr t t' ht v 8 hnew (by omega)).trans (h3.trans (hr s s' hs d.cur 8 hcur (by omega)).symm)

end

/-! The summary words and the descriptor of the new version (R206, R373). -/

section
variable {d : TDesc} {v : Nat}

/-- The summary words of group `g`, of the current version and the new one. -/
def groupBytes (d : TDesc) (v g a : Nat) : Prop := ∃ k, (k = v ∨ k = d.cur) ∧ inRun (d.summary k (64 * g)) 4 a

theorem summary_eq (d : TDesc) (k g : Nat) : d.summary k (64 * g) = d.table k + 256 * ((d.nt + 15) / 16) + 4 * g := by
  unfold TDesc.summary
  omega

theorem copySummary_does {g : Nat} {s t : State} (h : copySummary d v g s = .ok () t) :
    s.touches (groupBytes d v g) t ∧ t.rd (d.summary v (64 * g)) 4 = s.rd (d.summary d.cur (64 * g)) 4 := by
  obtain ⟨w, u, hw, h⟩ := run_bind_inv h
  obtain ⟨rfl, rfl⟩ := hwRd_inv hw
  obtain rfl := hwWr_inv h
  exact ⟨(touches_publishN ..).mono fun a ha => ⟨v, .inl rfl, ha⟩,
    (rd_publishN_same ..).trans (Nat.mod_eq_of_lt (rd_lt ..))⟩

theorem makeCurrent_does {die ctx tid : Nat} {s t : State} (hn : s.autoDrop ctx tid = false)
    (h : makeCurrent d v die ctx tid s = .ok () t) : s.touches (inRun (d.addr + 0x10) 8) t ∧
      t.rd (d.addr + 0x10) 8 = setField (setField (s.rd (d.addr + 0x10) 8) (28 + v) 1 1) 25 3 v % 256 ^ 8 := by
  obtain ⟨w, u, hw, h⟩ := run_bind_inv h
  obtain ⟨rfl, rfl⟩ := hwRd_inv hw
  obtain ⟨_, u, hu, h⟩ := run_bind_inv h
  obtain rfl := hwWr_inv hu
  have ha (y : State) (hy : xlOnly s y) : y.autoDrop ctx tid = s.autoDrop ctx tid := by
    rw [xlOnly] at hy
    rw [hy]
    rfl
  rw [run_get_bind, ha _ (xlOnly_publishN (xlOnly_refl s) _ 8 _), hn] at h
  cases h
  exact ⟨touches_publishN .., rd_publishN_same ..⟩

/-- CUR is the new version, which VMASK gains. -/
theorem testBit_madeCurrent {w j : Nat} (hj : j < 64) :
    (setField (setField w (28 + v) 1 1) 25 3 v % 256 ^ 8).testBit j =
      if 25 ≤ j ∧ j < 28 then v.testBit (j - 25) else if j = 28 + v then true else w.testBit j := by
  rw [show (256 : Nat) ^ 8 = 2 ^ 64 from rfl, Nat.testBit_mod_two_pow, decide_eq_true hj, Bool.true_and, testBit_setField,
    testBit_setField]
  by_cases h : 25 ≤ j ∧ j < 28
  · rw [if_pos h, if_pos h]
  · rw [if_neg h, if_neg h]
    by_cases hb : j = 28 + v
    · subst hb
      rw [if_pos ⟨Nat.le_refl _, by omega⟩, if_pos rfl, Nat.sub_self]
      rfl
    · rw [if_neg (by omega), if_neg hb]

end

section
variable {d : TDesc} {v j g k a : Nat}

theorem entry_place (hj : j < d.nt) (h : inRun (d.table k + 16 * j) 16 a) :
    d.table k ≤ a ∧ a < d.table k + 256 * ((d.nt + 15) / 16) := by
  obtain ⟨h1, h2⟩ := h
  omega

theorem summary_place (hg : g < (d.nt + 63) / 64) (h : inRun (d.summary k (64 * g)) 4 a) :
    d.table k + 256 * ((d.nt + 15) / 16) ≤ a ∧ a < d.table k + 256 * ((d.nt + 15) / 16) + 4 * ((d.nt + 63) / 64) := by
  obtain ⟨h1, h2⟩ := h
  rw [summary_eq] at h1 h2
  omega

/-- The rooms of the versions have no byte in common. -/
theorem room_unique (hd : ∀ k k', d.ours v k → d.ours v k' → k ≠ k' → apart (d.room k) (d.room k')) {k' : Nat}
    (hk : d.ours v k) (hk' : d.ours v k') (h : inRun (d.room k).1 (d.room k).2 a) (h' : inRun (d.room k').1 (d.room k').2 a) :
    k = k' := by
  by_contra hne
  obtain ⟨h1, h2⟩ := h
  obtain ⟨h3, h4⟩ := h'
  have := hd k k' hk hk' hne
  simp only [apart] at this
  omega

theorem entry_in_room (hj : j < d.nt) (h : inRun (d.table k + 16 * j) 16 a) : inRun (d.room k).1 (d.room k).2 a :=
  ⟨(entry_place hj h).1, by have := (entry_place hj h).2; simp only [TDesc.room]; omega⟩

theorem summary_in_room (hg : g < (d.nt + 63) / 64) (h : inRun (d.summary k (64 * g)) 4 a) :
    inRun (d.room k).1 (d.room k).2 a :=
  ⟨by have := (summary_place hg h).1; simp only [TDesc.room]; omega,
    by have := (summary_place hg h).2; simp only [TDesc.room]; omega⟩

end

section
variable {die x t v : Nat} {d : TDesc} {s s' : State} (h : verNewMake die x t d v s = .ok () s')
  (hc : d.cur < 8 ∧ d.hasVersion d.cur = true) (hv : d.hasVersion v = false) (h8 : v < 8) (hn : s.autoDrop x t = false)
  (hd : ∀ k k', d.ours v k → d.ours v k' → k ≠ k' → apart (d.room k) (d.room k'))
  (hx : ∀ j, j < d.nt → (s.rd (d.table d.cur + 16 * j) 8).testBit 52 = false)
include h hc hv h8 hn hd hx

/-- The three steps of VERNEW and what each leaves in memory. -/
theorem verNewMake_steps : ∃ s1 s2,
    (s.touches (fun a => ∃ j, j ∈ List.range d.nt ∧ tileBytes d v j a) s1 ∧ ∀ j, j ∈ List.range d.nt → tileShared d v j s s1) ∧
    (s1.touches (fun a => ∃ g, g ∈ List.range ((d.nt + 63) / 64) ∧ groupBytes d v g a) s2 ∧
      ∀ g, g ∈ List.range ((d.nt + 63) / 64) → s2.rd (d.summary v (64 * g)) 4 = s1.rd (d.summary d.cur (64 * g)) 4) ∧
    (s2.touches (inRun (d.addr + 0x10) 8) s' ∧
      s'.rd (d.addr + 0x10) 8 = setField (setField (s2.rd (d.addr + 0x10) 8) (28 + v) 1 1) 25 3 v % 256 ^ 8) := by
  rw [verNewMake_eq] at h
  obtain ⟨_, s1, h1, h⟩ := run_bind_inv h
  obtain ⟨_, s2, h2, h⟩ := run_bind_inv h
  have hcur : d.ours v d.cur := ⟨hc.1, .inr hc.2⟩
  have hnew : d.ours v v := ⟨h8, .inl rfl⟩
  have t1 := forAll_parts (R := tileBytes d v) (Q := tileShared d v)
    (P := fun j u => j < d.nt ∧ (u.rd (d.table d.cur + 16 * j) 8).testBit 52 = false)
    (fun j u w hb ⟨hj, hp⟩ => ⟨hj, by rw [rd_of_bytes fun a ⟨h1, h2⟩ => hb a ⟨d.cur, hcur, h1, by omega⟩]; exact hp⟩)
    (fun j _ _ _ _ => tileShared_congr h8 hc)
    (fun j u w ⟨hj, hp⟩ hw => shareTile_does h8 hv (fun k k' hk hk' hne => by
      have := hd k k' hk hk' hne
      simp only [apart, TDesc.room] at this ⊢
      omega) hp hw)
    _ List.nodup_range (fun i hi j hj hne a ⟨k, hk, ha⟩ ⟨k', hk', ha'⟩ => by
      obtain rfl := room_unique hd hk hk' (entry_in_room (List.mem_range.1 hi) ha) (entry_in_room (List.mem_range.1 hj) ha')
      obtain ⟨h3, h4⟩ := ha
      obtain ⟨h5, h6⟩ := ha'
      omega) s s1 (fun j hj => ⟨List.mem_range.1 hj, hx j (List.mem_range.1 hj)⟩) h1
  have hours (k : Nat) (hk : k = v ∨ k = d.cur) : d.ours v k := by obtain rfl | rfl := hk <;> assumption
  have t2 := forAll_parts (R := groupBytes d v)
    (Q := fun g u w => w.rd (d.summary v (64 * g)) 4 = u.rd (d.summary d.cur (64 * g)) 4) (P := fun _ _ => True)
    (fun _ _ _ _ _ => trivial)
    (fun g u u' w w' hu hw hq => by
      rw [rd_of_bytes fun a ha => hw a ⟨v, .inl rfl, ha⟩, hq, rd_of_bytes fun a ha => hu a ⟨d.cur, .inr rfl, ha⟩])
    (fun g u w _ hw => copySummary_does hw)
    _ List.nodup_range (fun i hi j hj hne a ⟨k, hk, ha⟩ ⟨k', hk', ha'⟩ => by
      obtain rfl := room_unique hd (hours k hk) (hours k' hk') (summary_in_room (List.mem_range.1 hi) ha)
        (summary_in_room (List.mem_range.1 hj) ha')
      obtain ⟨h3, h4⟩ := ha
      obtain ⟨h5, h6⟩ := ha'
      rw [summary_eq] at h3 h4 h5 h6
      omega) s1 s2 (fun _ _ => trivial) h2
  have hn2 : s2.autoDrop x t = false := by
    have hs := t1.1.only.trans t2.1.only
    rw [xlOnly] at hs
    rw [hs]
    exact hn
  exact ⟨s1, s2, t1, t2, makeCurrent_does hn2 h⟩

variable (ha : ∀ k, d.ours v k → apart (d.room k) (d.addr, 128))
include ha

/-- What VERNEW leaves in memory: every tile's entries, the new version's summary words, the descriptor, and nothing else. -/
theorem verNewMake_does : (∀ j, j < d.nt → tileShared d v j s s') ∧
    (∀ g, 64 * g < d.nt → s'.rd (d.summary v (64 * g)) 4 = s.rd (d.summary d.cur (64 * g)) 4) ∧
    s'.rd (d.addr + 0x10) 8 = setField (setField (s.rd (d.addr + 0x10) 8) (28 + v) 1 1) 25 3 v % 256 ^ 8 ∧
    ∀ a, (a < d.addr ∨ d.addr + 128 ≤ a) → (∀ k, d.ours v k → a < (d.room k).1 ∨ (d.room k).1 + (d.room k).2 ≤ a) →
      s'.byte a = s.byte a := by
  obtain ⟨s1, s2, ⟨t1, q1⟩, ⟨t2, q2⟩, t3, q3⟩ := verNewMake_steps h hc hv h8 hn hd hx
  have hcur : d.ours v d.cur := ⟨hc.1, .inr hc.2⟩
  have hnew : d.ours v v := ⟨h8, .inl rfl⟩
  have hours (k : Nat) (hk : k = v ∨ k = d.cur) : d.ours v k := by obtain rfl | rfl := hk <;> assumption
  -- the entries, the summary words and the descriptor have no byte in common
  have hentry {j a : Nat} (hj : j < d.nt) (h : tileBytes d v j a) : ∃ k, d.ours v k ∧ inRun (d.room k).1 (d.room k).2 a ∧
      a < d.table k + 256 * ((d.nt + 15) / 16) := by
    obtain ⟨k, hk, h⟩ := h
    exact ⟨k, hk, entry_in_room hj h, (entry_place hj h).2⟩
  have hgroup {g a : Nat} (hg : g < (d.nt + 63) / 64) (h : groupBytes d v g a) : ∃ k, d.ours v k ∧
      inRun (d.room k).1 (d.room k).2 a ∧ d.table k + 256 * ((d.nt + 15) / 16) ≤ a := by
    obtain ⟨k, hk, h⟩ := h
    exact ⟨k, hours k hk, summary_in_room hg h, (summary_place hg h).1⟩
  have hdesc {k a : Nat} (hk : d.ours v k) (h : inRun (d.room k).1 (d.room k).2 a) : ¬ inRun (d.addr + 0x10) 8 a := by
    rintro ⟨h3, h4⟩
    obtain ⟨h1, h2⟩ := h
    have := ha k hk
    simp only [apart] at this
    omega
  have hsep {j g a : Nat} (hj : j < d.nt) (hg : g < (d.nt + 63) / 64) (h : tileBytes d v j a) : ¬ groupBytes d v g a := by
    intro h'
    obtain ⟨k, hk, hr, h1⟩ := hentry hj h
    obtain ⟨k', hk', hr', h2⟩ := hgroup hg h'
    obtain rfl := room_unique hd hk hk' hr hr'
    omega
  refine ⟨fun j hj => ?_, fun g hg => ?_, ?_, fun a hout hrooms => ?_⟩
  · refine tileShared_congr h8 hc (fun _ _ => rfl) (fun a h => ?_) (q1 j (List.mem_range.2 hj))
    obtain ⟨k, hk, hr, -⟩ := hentry hj h
    rw [t3.bytes a (hdesc hk hr), t2.bytes a fun ⟨g, hg, h'⟩ => hsep hj (List.mem_range.1 hg) h h']
  · have hg' : g < (d.nt + 63) / 64 := by omega
    have hin (k : Nat) (hk : k = v ∨ k = d.cur) (a : Nat) (h : inRun (d.summary k (64 * g)) 4 a) : groupBytes d v g a := ⟨k, hk, h⟩
    rw [t3.rd fun a h => hdesc hnew (summary_in_room hg' h), q2 g (List.mem_range.2 hg'),
      t1.rd fun a h ⟨j, hj, h'⟩ => hsep (List.mem_range.1 hj) hg' h' (hin d.cur (.inr rfl) a h)]
  · rw [q3, t2.rd fun a h ⟨g, hg, h'⟩ => by obtain ⟨k, hk, hr, -⟩ := hgroup (List.mem_range.1 hg) h'; exact hdesc hk hr h,
      t1.rd fun a h ⟨j, hj, h'⟩ => by obtain ⟨k, hk, hr, -⟩ := hentry (List.mem_range.1 hj) h'; exact hdesc hk hr h]
  · have hno (k : Nat) (hk : d.ours v k) : ¬ inRun (d.room k).1 (d.room k).2 a := fun ⟨h1, h2⟩ => by
      have := hrooms k hk
      omega
    rw [t3.bytes a fun ⟨h1, h2⟩ => by omega,
      t2.bytes a fun ⟨g, hg, h'⟩ => by obtain ⟨k, hk, hr, -⟩ := hgroup (List.mem_range.1 hg) h'; exact hno k hk hr,
      t1.bytes a fun ⟨j, hj, h'⟩ => by obtain ⟨k, hk, hr, -⟩ := hentry (List.mem_range.1 hj) h'; exact hno k hk hr]

end

end Sys2Proof.Machine

namespace Sys2Proof.Machine

section
variable {die x t : Nat} {s : State}

theorem needTensor_ok {d : TDesc} (h : tdesc die x t s = .ok (.ok d) s) : needTensor die x t s = .ok d s := run_bind_ok h
theorem needTensor_bad (h : tdesc die x t s = .ok .bad s) : needTensor die x t s = .error (.trap cTENSOR t) s :=
  run_bind_ok h
theorem needTensor_notmap (h : tdesc die x t s = .ok .notmap s) : needTensor die x t s = .error (.trap cNOTMAP t) s :=
  run_bind_ok h

end

/-! VERNEW (R72, R373). -/

section
variable {c : Ctl} {rd ra : Nat} {s : State} (h : Ready (.vernew c rd ra) c [ra] s)
include h

theorem vernew_traps {k : Nat} (hb : needTensor s.myDie s.me.ctx.toNat (s.g ra).toNat s = .error (.trap k (s.g ra).toNat) s) :
    exec (.vernew c rd ra) s = trapHere k (s.g ra).toNat s := by
  have hv : vernewBody rd (s.g ra).toNat s = .error (.trap k (s.g ra).toNat) s := by
    rw [vernewBody, run_get_bind]
    exact run_bind_error hb
  have hr : asPoster (vernewBody rd (s.g ra).toNat) s = .error (.trap k (s.g ra).toNat) s := asPoster_error hv
  have he : exec (.vernew c rd ra) s = trapHere k (s.g ra).toNat (errState s s) := issue_trap h rfl hr
  rw [he, errState_self]

variable {d : TDesc} (ht : tdesc s.myDie s.me.ctx.toNat (s.g ra).toNat s = .ok (.ok d) s)
include ht

theorem vernew_fails {code : Nat} {u : State} (hv : verNewCheck d s = .ok (.fail code) u) :
    s.toPost (.vernew c rd ra) u (Completes (.vernew c rd ra) s (s.gives c rd code u)) := by
  obtain rfl := eq_of_keeps (fun _ => keeps_verNewCheck d) hv
  exact toPost_of rfl rfl h (xlOnly_refl u).sameCores
    ((run_bind_ok (needTensor_ok ht)).trans (run_bind_ok hv) : vernewBody rd (u.g ra).toNat u = _)

theorem vernew_waits (hv : verNewCheck d s = .ok .waits s) :
    exec (.vernew c rd ra) s = .next (s.waitFor (.vernew c rd ra) false) := by
  have hb : vernewBody rd (s.g ra).toNat s = .error (.wait false) s := (run_bind_ok (needTensor_ok ht)).trans (run_bind_ok hv)
  have hr : asPoster (vernewBody rd (s.g ra).toNat) s = .error (.wait false) s := asPoster_error hb
  have he : exec (.vernew c rd ra) s = .next ((errState s s).waitFor (.vernew c rd ra) false) := issue_bodyWaits h rfl hr
  rw [he, errState_self]

theorem vernew_makes {v : Nat} {u w : State} (hv : verNewCheck d s = .ok (.make v) u)
    (hm : verNewMake s.myDie s.me.ctx.toNat (s.g ra).toNat d v u = .ok () w) :
    s.toPost (.vernew c rd ra) w (Completes (.vernew c rd ra) s (s.gives c rd v w)) := by
  obtain rfl := eq_of_keeps (fun _ => keeps_verNewCheck d) hv
  exact toPost_of rfl rfl h ((cores_verNewMake _ _ _ _ _ u (xlOnly_refl u).sameCores).1 _ _ hm)
    ((run_bind_ok (needTensor_ok ht)).trans ((run_bind_ok hv).trans (run_bind_ok hm)) : vernewBody rd (u.g ra).toNat u = _)

end

/-! The checks of VERNEW (R373). -/

section
variable {d : TDesc} {s : State}

theorem verNewCheck_unversioned (h : d.vers = false) : verNewCheck d s = .ok (.fail 0xFFFFFFFE) s := by
  simp only [verNewCheck, h]
  rfl

variable (hv : d.vers = true)
include hv

theorem verNewCheck_big (h : 65536 < d.nt) : verNewCheck d s = .ok (.fail 0xFFFFFFFC) s := by
  simp only [verNewCheck, hv, h]
  rfl

variable (hn : d.nt ≤ 65536)
include hn

theorem verNewCheck_full (h : ∀ k, k < 8 → d.hasVersion k = true) : verNewCheck d s = .ok (.fail 0xFFFFFFFF) s := by
  have hf : (List.range 8).find? (fun v => !d.hasVersion v) = none :=
    List.find?_eq_none.2 fun k hk => by simp [h k (List.mem_range.1 hk)]
  simp only [verNewCheck, hv, Nat.not_lt.2 hn, hf]
  rfl

variable {v : Nat} (h8 : v < 8) (hf : d.hasVersion v = false) (hl : ∀ k, k < v → d.hasVersion k = true)
include h8 hf hl

omit hv hn in
theorem lowestFree : (List.range 8).find? (fun v => !d.hasVersion v) = some v := by
  rw [List.find?_range_eq_some]
  exact ⟨by simp [hf], List.mem_range.2 h8, fun j hj => by simp [hl j hj]⟩

theorem verNewCheck_base (hb : d.ttbase.getD v 0 = 0 ∨ d.ttbase.getD v 0 % 256 ≠ 0) :
    verNewCheck d s = .ok (.fail 0xFFFFFFFD) s := by
  have hb : (decide (d.ttbase.getD v 0 = 0) || d.ttbase.getD v 0 % 256 != 0) = true := by simpa using hb
  simp only [verNewCheck, hv, Nat.not_lt.2 hn, lowestFree h8 hf hl, hb]
  rfl

variable (hb : d.ttbase.getD v 0 ≠ 0) (hm : d.ttbase.getD v 0 % 256 = 0) {ts : List Tte} {s1 : State}
  (ht : collect (List.range d.nt) (readTte d d.cur) s = .ok ts s1)
include hb hm ht

/-- What the entries of the current version say (R373). -/
theorem verNewCheck_entries : verNewCheck d s =
    if ts.any (fun t => t.accessible && t.refcnt == 255) then .ok (.fail 0xFFFFFFFF) s1
    else if ts.any (fun t => t.state == 1) then .ok .waits s1 else .ok (.make v) s1 := by
  have hb : (decide (d.ttbase.getD v 0 = 0) || d.ttbase.getD v 0 % 256 != 0) = false := by
    rw [decide_eq_false hb, hm]
    rfl
  simp only [verNewCheck, hv, Nat.not_lt.2 hn, lowestFree h8 hf hl, hb]
  refine (run_bind_ok ht).trans ?_
  split
  · rfl
  · split <;> rfl

end

/-! VERPIN (R74, R374). -/

section
variable {rd tag w v n : Nat} {s : State}

theorem verpinBody_theirs (h : ¬ ((s.stage s.myDie n).state ≠ 0 ∧ (s.stage s.myDie n).ctx = s.me.ctx.toNat)) :
    verpinBody rd tag w v n s = result rd 4 s := by
  have hb : (decide ((s.stage s.myDie n).state = 0) || (s.stage s.myDie n).ctx != s.me.ctx.toNat) = true := by
    rw [Bool.or_eq_true, decide_eq_true_eq, bne_iff_ne]
    tauto
  simp only [verpinBody, run_get_bind, hb, if_true]

variable (h : (s.stage s.myDie n).state ≠ 0 ∧ (s.stage s.myDie n).ctx = s.me.ctx.toNat)
include h

theorem verpinBody_noTag (ht : (s.stage s.myDie n).slotOf tag = none) : verpinBody rd tag w v n s = result rd 1 s := by
  simp only [verpinBody, run_get_bind, slot_mine h, ht]
  rfl

variable {k : Nat} {slot : TagSlot} (ht : (s.stage s.myDie n).slotOf tag = some (k, slot))
include ht

theorem verpinBody_noWeight (hw : (s.stage s.myDie n).weights[w]? = none) : verpinBody rd tag w v n s = result rd 2 s := by
  simp only [verpinBody, run_get_bind, slot_mine h, ht, hw]
  rfl

variable {t : Nat} {d : TDesc} (hw : (s.stage s.myDie n).weights[w]? = some t)
  (hd : tdesc s.myDie s.me.ctx.toNat t s = .ok (.ok d) s)
include hw hd

theorem verpinBody_noVersion (hv : 8 ≤ v ∨ d.hasVersion v = false) : verpinBody rd tag w v n s = result rd 3 s := by
  have hb : (decide (8 ≤ v) || !d.hasVersion v) = true := by simpa using hv
  simp only [verpinBody, run_get_bind, slot_mine h, ht, hw]
  refine (run_bind_ok (needTensor_ok hd)).trans ?_
  simp only [hb, if_true]

theorem verpinBody_pins (h8 : v < 8) (hv : d.hasVersion v = true) {slot' : TagSlot} {u s2 s3 : State} {b : Bool}
    (hs : slot' = { slot with vset := setField slot.vset (4 * w) 4 v })
    (hu : u = s.modStage s.myDie n fun y => { y with tags := Store.set none y.tags k (some slot') })
    (hm : mirrorSet s.myDie n k slot'.vset u = .ok () s2)
    (hf : freeIfDue s.myDie s.me.ctx.toNat t (fieldOf slot.vset (4 * w) 4) s2 = .ok b s3) :
    verpinBody rd tag w v n s = result rd 0 s3 := by
  subst hs hu
  have hb : (decide (8 ≤ v) || !d.hasVersion v) = false := by rw [decide_eq_false (Nat.not_le.2 h8), hv]; rfl
  simp only [verpinBody, run_get_bind, slot_mine h, ht, hw]
  refine (run_bind_ok (needTensor_ok hd)).trans ?_
  simp only [hb]
  exact (run_bind_ok hm).trans (run_bind_ok hf)

end

/-! VERDROP (R75, R374). -/

/-- What VERDROP does with the descriptor of its tensor. -/
def verdropWith (rd x t v : Nat) (d : TDesc) : Op Post := do
  let s ← get
  if !d.vers then result rd 4
  else if 8 ≤ v || !d.hasVersion v then result rd 3
  else if d.cur = v then result rd 2
  else if s.isDropped x t v then result rd 5
  else do
    modify (fun s => { s with drops := ⟨x, t, v⟩ :: s.drops })
    result rd (if ← freeIfDue s.myDie x t v then 1 else 0)

section
variable {c : Ctl} {rd ra rb : Nat} {s : State} (h : Ready (.verdrop c rd ra rb) c [ra, rb] s) {d : TDesc}
  (ht : tdesc s.myDie s.me.ctx.toNat (s.g ra).toNat s = .ok (.ok d) s)
include h ht

theorem verdrop_gives {u : State} {r : Nat} (hk : s.sameCores u)
    (hb : verdropWith rd s.me.ctx.toNat (s.g ra).toNat (s.g rb).toNat d s = result rd r u) :
    Completes (.verdrop c rd ra rb) s (s.gives c rd r u) :=
  gives_of rfl h hk ((run_bind_ok (needTensor_ok ht)).trans hb)

end

section
variable {rd x t v : Nat} {d : TDesc} {s : State}

theorem verdropWith_unversioned (h : d.vers = false) : verdropWith rd x t v d s = result rd 4 s := by
  simp only [verdropWith, run_get_bind, h, Bool.not_false, if_true]

variable (hv : d.vers = true)
include hv

theorem verdropWith_missing (h : ¬ (v < 8 ∧ d.hasVersion v = true)) : verdropWith rd x t v d s = result rd 3 s := by
  have hb : (decide (8 ≤ v) || !d.hasVersion v) = true := by
    rw [Bool.or_eq_true, decide_eq_true_eq, Bool.not_eq_true', ← Bool.not_eq_true, ← Nat.not_lt]
    tauto
  simp only [verdropWith, run_get_bind, hv, hb]
  rfl

variable (h8 : v < 8) (hh : d.hasVersion v = true)
include h8 hh

omit hv in
theorem version_there : (decide (8 ≤ v) || !d.hasVersion v) = false := by rw [decide_eq_false (Nat.not_le.2 h8), hh]; rfl

theorem verdropWith_current (hc : d.cur = v) : verdropWith rd x t v d s = result rd 2 s := by
  simp only [verdropWith, run_get_bind, hv, version_there h8 hh, hc]
  rfl

variable (hc : d.cur ≠ v)
include hc

theorem verdropWith_again (hd : (⟨x, t, v⟩ : Dropped) ∈ s.drops) : verdropWith rd x t v d s = result rd 5 s := by
  have hb : s.isDropped x t v = true := List.contains_iff_mem.2 hd
  simp only [verdropWith, run_get_bind, hv, version_there h8 hh, hc, hb]
  rfl

theorem verdropWith_drops (hd : (⟨x, t, v⟩ : Dropped) ∉ s.drops) {b : Bool} {u : State}
    (hf : freeIfDue s.myDie x t v { s with drops := ⟨x, t, v⟩ :: s.drops } = .ok b u) :
    verdropWith rd x t v d s = result rd (if b then 1 else 0) u := by
  have hb : s.isDropped x t v = false := by rw [← Bool.not_eq_true]; exact fun h => hd (List.contains_iff_mem.1 h)
  simp only [verdropWith, run_get_bind, hv, version_there h8 hh, hc, hb]
  exact run_bind_ok hf

end

/-- Settles O48: the instructions by what their checks find, and the making of a version by its writes to the tables. -/
theorem versionInstructions : Obligations.VersionInstructions := by
  unfold Obligations.VersionInstructions
  refine ⟨fun c rd ra s h => ⟨fun hb => vernew_traps h (needTensor_bad hb), fun hb => vernew_traps h (needTensor_notmap hb),
    fun d ht => ⟨fun code s2 => vernew_fails h ht, vernew_waits h ht, fun v s2 s3 => vernew_makes h ht⟩⟩,
    fun d s => ⟨verNewCheck_unversioned, verNewCheck_big, fun hv hn => ⟨verNewCheck_full hv hn, fun v h8 hf hl =>
      ⟨verNewCheck_base hv hn h8 hf hl, fun hb hm ts s1 ht => ?_⟩⟩⟩, ?_, ?_, ?_⟩
  · have he := verNewCheck_entries hv hn h8 hf hl hb hm ht
    have hfull : ts.any (fun t => t.accessible && t.refcnt == 255) = true ↔
        ∃ x, x ∈ ts ∧ x.accessible = true ∧ x.lo / 2 ^ 36 % 256 = 255 := by
      simp only [List.any_eq_true, Bool.and_eq_true, beq_iff_eq]
      rfl
    have hmov : ts.any (fun t => t.state == 1) = true ↔ ∃ x, x ∈ ts ∧ x.lo / 2 ^ 31 % 4 = 1 := by
      simp only [List.any_eq_true, beq_iff_eq]
      rfl
    rw [he, ← hfull, ← hmov]
    exact ⟨fun h => if_pos h, fun h h' => (if_neg h).trans (if_pos h'), fun h h' => (if_neg h).trans (if_neg h')⟩
  · intro die x t v d s s' h _ hcur hcv hv h8 hn ours hd ha hx
    obtain ⟨htiles, hsums, hdesc, hbytes⟩ := verNewMake_does h ⟨hcur, hcv⟩ hv h8 hn hd hx ha
    refine ⟨fun j hj => ?_, hsums, fun j hj => by rw [hdesc, testBit_madeCurrent hj], hbytes⟩
    obtain ⟨hold, hnew, hstamp⟩ := htiles j hj
    refine ⟨fun k hk hkv => ⟨(hold k hk hkv).2, fun hh => ?_, fun hh => (hold k hk hkv).1.trans (if_neg hh)⟩, hstamp,
      fun hh => ?_, fun hh => hnew.trans (shareWith_absent hh)⟩
    · rw [(hold k hk hkv).1]
      exact sharedTte_shareWith hh
    · rw [hnew]
      exact sharedTte_shareWith ⟨hh, hh, rfl⟩
  · intro c rd ra rb rc n s h i x st mine w v res
    have hres (r : Nat) (hb : verpinBody rd (s.g ra).toNat w v n s = result rd r s) : res r s :=
      gives_of rfl h (xlOnly_refl s).sameCores hb
    refine ⟨fun hm => hres 4 (verpinBody_theirs hm), fun hm hs => hres 1 (verpinBody_noTag hm hs), fun hm k slot hs =>
      ⟨fun hw => hres 2 (verpinBody_noWeight hm hs hw), fun t d hw hd => ⟨fun hv => hres 3 (verpinBody_noVersion hm hs hw hd hv),
        fun h8 hv s2 b s3 hmir hfree => ?_⟩⟩⟩
    have hk : s.sameCores s3 := State.sameCores.trans (sameCores_modStage s s.myDie n _)
      (State.sameCores.trans ((cores_mirrorSet _ _ _ _ _ (xlOnly_refl _).sameCores).1 _ _ hmir)
        ((cores_freeIfDue _ _ _ _ s2 (xlOnly_refl s2).sameCores).1 _ _ hfree))
    exact gives_of rfl h hk (verpinBody_pins hm hs hw hd h8 hv rfl rfl hmir hfree)
  · intro c rd ra rb s h i x t v res d ht there
    have hres (r : Nat) (hb : verdropWith rd x t v d s = result rd r s) : res r s :=
      verdrop_gives h ht (xlOnly_refl s).sameCores hb
    refine ⟨fun hv => hres 4 (verdropWith_unversioned hv), fun hv hn => hres 3 (verdropWith_missing hv fun h => hn ⟨hv, h⟩),
      fun ⟨hv, h8, hh⟩ hc => hres 2 (verdropWith_current hv h8 hh hc),
      fun ⟨hv, h8, hh⟩ hc hd => hres 5 (verdropWith_again hv h8 hh hc hd), fun ⟨hv, h8, hh⟩ hc hd b s2 hf => ?_⟩
    exact verdrop_gives h ht (State.sameCores.trans (s := { s with drops := ⟨x, t, v⟩ :: s.drops }) (sameCores_of_cores rfl rfl rfl)
      ((cores_freeIfDue _ _ _ _ _ (xlOnly_refl _).sameCores).1 _ _ hf)) (verdropWith_drops hv h8 hh hc hd hf)

end Sys2Proof.Machine

namespace Sys2Proof.Machine

/-! Flits (R250, R251). -/

section
variable (s : State) (p n : Nat) (x : TChan)

theorem sendFlit_setChan (typ ch off : Nat) (h : MsgHdr) (l : List RByte) :
    (s.setChan n x).sendFlit p typ ch off h l = (s.sendFlit p typ ch off h l).setChan n x := by
  unfold State.sendFlit
  dsimp only
  split
  · next ht => rw [if_pos (show (!(s.port p).trained) = true from ht)]
  · next ht => rw [if_neg (show ¬ (!(s.port p).trained) = true from ht)]; rfl

/-- An acknowledgement is the same whatever the channel holds beside its configuration. -/
theorem sendAck_setChan (st prog : Nat) (hx : x.w0 = (s.chan n).w0) :
    (s.setChan n x).sendAck n st prog = (s.sendAck n st prog).setChan n x := by
  have hp : x.port = (s.chan n).port := by rw [TChan.port, hx]; rfl
  have hr : x.remch = (s.chan n).remch := by rw [TChan.remch, hx]; rfl
  unfold State.sendAck
  rw [sendFlit_setChan, chan_setChan, if_pos rfl, hp, hr]

theorem tookFlit_ports : (s.tookFlit p) = { s with ports := (s.tookFlit p).ports } ∧
    ∀ j, (s.tookFlit p).port j = if j = p then { s.port p with rx := (s.port p).rx + 1 } else s.port j :=
  ⟨rfl, fun _ => port_setPort ..⟩

end

/-! DATA_FLIT (R54, R250, R251). -/

section
variable {p seqNo n off : Nat} {ok last : Bool} {h : MsgHdr} {l : List RByte} {s : State}

theorem dataFlit_down (ht : (s.port p).trained = false) : exec (.dataFlit p seqNo n off ok last h l) s = .next s := by
  refine event_next (body := _) ?_
  rw [run_get_bind, ht]
  rfl

variable (ht : (s.port p).trained = true)
include ht

theorem dataFlit_discards (hn : ¬ (ok = true ∧ seqNo = (s.port p).rx % 65536)) :
    exec (.dataFlit p seqNo n off ok last h l) s =
      .next ((s.setPort p { s.port p with nacks := (s.port p).nacks + 1 }).sendFlit p flitNak 0 0 noHdr
        (clean (bytesOf ((s.port p).rx % 65536) 2))) := by
  have hb : (!ok || seqNo != (s.port p).rx % 65536) = true := by
    rw [Bool.or_eq_true, Bool.not_eq_true', bne_iff_ne, ← Bool.not_eq_true]
    tauto
  refine event_next (body := _) ?_
  rw [run_get_bind, if_neg (show ¬ (!(s.port p).trained) = true by rw [ht]; decide), if_pos hb]
  rfl

theorem dataFlit_takes (hn : ok = true ∧ seqNo = (s.port p).rx % 65536) {u : State}
    (hu : takeData n off last h l s = .ok () u) : exec (.dataFlit p seqNo n off ok last h l) s = .next (u.tookFlit p) := by
  have hb : (!ok || seqNo != (s.port p).rx % 65536) = false := by rw [hn.1, hn.2, bne_self_eq_false]; rfl
  refine event_next (body := _) ?_
  rw [run_get_bind, ht, hb]
  exact run_bind_ok hu

end

section
variable {n off : Nat} {last : Bool} {h : MsgHdr} {l : List RByte} {s : State}

theorem takeData_disabled (he : (s.chan n).enabled = false) : takeData n off last h l s = .ok () s := by
  simp only [takeData, run_get_bind, he]
  rfl

/-- The channel after a flit's payload has gone into the ring, with status `e` (R250). -/
def TChan.received (c : TChan) (e k : Nat) : TChan := { c with rxBytes := c.rxBytes + k, rxFail := e != 0 }

variable (he : (s.chan n).enabled = true) (hf : (s.chan n).rxFail = false) {e : Nat} {s1 : State}
  (hw : ringWrite n ((s.chan n).delivered + off) (s.chan n) l s = .ok e s1)
include he hf hw

/-- The state once the payload is ringed, and a failure acknowledged. -/
def State.ringed (s s1 : State) (n e k : Nat) : State :=
  let u := s1.setChan n ((s.chan n).received e k)
  if e = 0 then u else u.sendAck n e ((s.chan n).rxBytes / 16)

theorem takeData_run : takeData n off last h l s =
    if last then
      if e = 0 ∧ (s.chan n).rxBytes + l.length = h.length then messageDone n h (s.ringed s1 n e l.length)
      else .ok () ((s.ringed s1 n e l.length).setChan n { (s.chan n).received e l.length with rxBytes := 0, rxFail := false })
    else .ok () (s.ringed s1 n e l.length) := by
  simp only [takeData, run_get_bind, he, hf]
  refine (run_bind_ok hw).trans ?_
  rw [run_modify_bind]
  have hw' : (!(false || e != stOK) && decide ((s.chan n).rxBytes + l.length = h.length)) = true ↔
      e = 0 ∧ (s.chan n).rxBytes + l.length = h.length := by
    simp [stOK]
  have hr : (if (e != stOK) = true then (s1.setChan n ((s.chan n).received e l.length)).sendAck n e ((s.chan n).rxBytes / 16)
      else s1.setChan n ((s.chan n).received e l.length)) = s.ringed s1 n e l.length := by
    by_cases h0 : e = 0
    · subst h0; rfl
    · exact (if_pos (show (e != stOK) = true from bne_iff_ne.2 h0)).trans (by rw [State.ringed, if_neg h0])
  cases last
  · exact congrArg (EStateM.Result.ok ()) hr
  · simp only [if_true, hw']
    split
    · exact congrArg (messageDone n h) hr
    · exact congrArg (fun u : State => EStateM.Result.ok () (u.setChan n _)) hr

end

/-- A channel once a message has come whole (R54, R250). -/
def TChan.whole (c : TChan) (n : Nat) (h : MsgHdr) : TChan :=
  { c with delivered := c.delivered + h.length, rxBytes := 0, rxFail := false,
           recs := if c.stgv then c.recs ++ [recordOf n h (c.delivered % 2 ^ c.rlog)] else c.recs }

theorem messageDone_run (n : Nat) (h : MsgHdr) (u : State) (hs : (u.chan n).stgv = true ∨ (u.chan n).w3 = 0) :
    messageDone n h u = .ok () (let v := u.setChan n ((u.chan n).whole n h)
      if (u.chan n).stgv then v else (v.sendGrant n).sendAck n 0 (h.length / 16)) := by
  have hm : messageDone n h u = (if !(u.chan n).stgv then delivered n h.length else pure () : Op Unit)
      (u.setChan n ((u.chan n).whole n h)) := rfl
  rw [hm]
  by_cases hv : (u.chan n).stgv = true
  · rw [if_neg (by rw [hv]; decide)]
    exact congrArg (EStateM.Result.ok ()) (if_pos hv).symm
  · have hw : (u.chan n).w3 = 0 := hs.resolve_left hv
    have hc : countDelivery n h.length (u.setChan n ((u.chan n).whole n h)) = .ok () (u.setChan n ((u.chan n).whole n h)) := by
      rw [countDelivery, run_get_bind, chan_setChan, if_pos rfl, if_pos (show ((u.chan n).whole n h).w3 = 0 from hw)]
      rfl
    rw [if_pos (by simpa using hv)]
    exact (run_bind_ok hc).trans (congrArg (EStateM.Result.ok ()) (if_neg hv).symm)

/-! The clause of a flit in sequence for an enabled channel. -/

section
variable {p seqNo n off : Nat} {ok last : Bool} {h : MsgHdr} {l : List RByte} {s : State}
  (ht : (s.port p).trained = true) (hn : ok = true ∧ seqNo = (s.port p).rx % 65536)
  (he : (s.chan n).enabled = true) (hf : (s.chan n).rxFail = false) {e : Nat} {s1 : State}
  (hw : ringWrite n ((s.chan n).delivered + off) (s.chan n) l s = .ok e s1)
include ht hn he hf hw

theorem dataFlit_more (hl : last = false) : exec (.dataFlit p seqNo n off ok last h l) s =
    .next ((s.ringed s1 n e l.length).tookFlit p) := by
  refine dataFlit_takes ht hn ?_
  rw [takeData_run he hf hw, hl]
  rfl

theorem dataFlit_broken (hl : last = true) (hb : ¬ (e = 0 ∧ (s.chan n).rxBytes + l.length = h.length)) :
    exec (.dataFlit p seqNo n off ok last h l) s = .next (((s.ringed s1 n e l.length).setChan n
      { s.chan n with rxBytes := 0, rxFail := false }).tookFlit p) := by
  refine dataFlit_takes ht hn ?_
  rw [takeData_run he hf hw, hl, if_pos rfl, if_neg hb]
  rfl

theorem dataFlit_whole (hl : last = true) (hb : e = 0 ∧ (s.chan n).rxBytes + l.length = h.length)
    (hs : (s.chan n).stgv = true ∨ (s.chan n).w3 = 0) : exec (.dataFlit p seqNo n off ok last h l) s =
      .next ((let v := (s1.setChan n ((s.chan n).received 0 l.length)).setChan n ((s.chan n).whole n h)
        if (s.chan n).stgv then v else (v.sendGrant n).sendAck n 0 (h.length / 16)).tookFlit p) := by
  refine dataFlit_takes ht hn ?_
  rw [takeData_run he hf hw, hl, if_pos rfl, if_pos hb, hb.1]
  have hc : (s.ringed s1 n 0 l.length).chan n = (s.chan n).received 0 l.length := by
    rw [State.ringed, if_pos rfl, chan_setChan, if_pos rfl]
  rw [messageDone_run n h _ (by rw [hc]; exact hs), hc]
  rfl

end

end Sys2Proof.Machine

namespace Sys2Proof.Machine

/-! The completion of an engine command (R25, R191, R234, R239, R240). -/

/-- Counting a stall changes one core: its stall counts, and since when its sequencers wait. -/
theorem stallSync_does (u : State) (c : Nat) (q : SeqId) : (u.stallSync c q) = { u with cores := (u.stallSync c q).cores } ∧
    (∀ n, n ≠ c → (u.stallSync c q).core n = u.core n) ∧
    (let d := (u.stallSync c q).core c
     d = { u.core c with l := d.l, x := d.x, s := d.s, c := d.c, hots := d.hots } ∧
     ∀ r, d.seq r = { (u.core c).seq r with wait := (d.seq r).wait } ∧
       (d.seq r).wait.map (·.i) = ((u.core c).seq r).wait.map (·.i)) := by
  unfold State.stallSync
  cases hw : ((u.core c).seq q).wait with
  | none => exact ⟨rfl, fun _ _ => rfl, rfl, fun _ => ⟨rfl, rfl⟩⟩
  | some w =>
    dsimp only
    cases u.stallBuf c q w with
    | none => exact ⟨rfl, fun _ _ => rfl, rfl, fun _ => ⟨rfl, rfl⟩⟩
    | some b =>
      dsimp only
      refine ⟨rfl, fun n hn => (core_modCore ..).trans (if_neg hn), ?_⟩
      have hd : (u.countStall c q w b).core c = ({ u.core c with hots := satAdd (u.core c).hots b (u.clock - w.stall) } : Core).modSeq q
          fun x => { x with wait := some { w with stall := u.clock } } := (core_modCore ..).trans (if_pos rfl)
      rw [hd]
      refine ⟨by cases q <;> rfl, fun r => ?_⟩
      rw [seq_modSeq]
      by_cases hr : r = q
      · subst hr
        rw [if_pos rfl, hw]
        cases r <;> exact ⟨rfl, rfl⟩
      · rw [if_neg hr]
        cases r <;> exact ⟨rfl, rfl⟩

/-- A core after one of its commands has completed with `status`, its stalls counted. -/
def Core.completed (c : Core) (k : Cmd) (status prog bytes : Nat) : Core :=
  { c with hotb := satAdd c.hotb k.buf bytes, event := c.event || k.seq == .C || status % 256 != 0,
           pend := c.pend ++ if status % 256 = 0 then [] else [⟨k.seq, Cmd.errCause status, k.errEva status prog⟩] }

/-- The release to HOST or SYSTEM that a completed command carries (R234). -/
def State.releasedBy (u : State) (k : Cmd) : State :=
  if k.rel && hostScope k.scope then { u.sendHost with pcie := u.pcie ++ [.zeroRead] } else u

theorem State.onlyThat.mod {s t : State} {c : Nat} {k : Core} (h : s.onlyThat c k t) (f : Core → Core) :
    s.onlyThat c (f k) (t.modCore c f) := by
  obtain ⟨hr, ho, hc⟩ := h
  refine ⟨(congrArg (fun z : State => { z with cores := (t.modCore c f).cores }) hr : _), fun n hn => ?_, ?_⟩
  · rw [core_modCore, if_neg hn, ho n hn]
  · rw [core_modCore, if_pos rfl, hc]

/-- What a completion does to its core once the command is gone. -/
def State.completes (y : State) (k : Cmd) (status prog bytes : Nat) : State :=
  let s := y.addHot k.core k.buf bytes
  let s := if k.seq == .C then s.modCore k.core (fun c => { c with event := true }) else s
  if status % 256 = stOK then s else s.raiseA k.core k.seq (Cmd.errCause status) (k.errEva status prog)

theorem completes_does (y : State) (k : Cmd) (status prog bytes : Nat) :
    y.onlyThat k.core ((y.core k.core).completed k status prog bytes) (y.completes k status prog bytes) := by
  have h1 : y.onlyThat k.core { y.core k.core with hotb := satAdd (y.core k.core).hotb k.buf bytes } (y.addHot k.core k.buf bytes) :=
    modCore_onlyThat y k.core _
  have h2 : y.onlyThat k.core { y.core k.core with
      hotb := satAdd (y.core k.core).hotb k.buf bytes, event := (y.core k.core).event || k.seq == .C }
      (if k.seq == .C then (y.addHot k.core k.buf bytes).modCore k.core (fun c => { c with event := true })
       else y.addHot k.core k.buf bytes) := by
    cases k.seq == .C
    · rw [Bool.or_false]; exact h1
    · rw [Bool.or_true]; exact h1.mod fun c => { c with event := true }
  unfold State.completes
  dsimp only
  by_cases hs : status % 256 = stOK
  · rw [if_pos hs, Core.completed, if_pos (show status % 256 = 0 from hs), List.append_nil,
      show (status % 256 != 0) = false from bne_eq_false_iff_eq.2 hs, Bool.or_false]
    exact h2
  · rw [if_neg hs, Core.completed, if_neg (show ¬ status % 256 = 0 from hs),
      show (status % 256 != 0) = true from bne_iff_ne.2 hs, Bool.or_true]
    exact h2.mod _

theorem finish_eq (u : State) (k : Cmd) (status prog bytes : Nat) (h : k.core < 288) : u.finish k status prog bytes =
    ({ u.releasedBy k with cores := (u.stallSync k.core k.seq).cores, cmds := u.cmds.filter (·.id != k.id) } : State).completes
      k status prog bytes := by
  rw [State.finish, if_neg (Nat.not_le.2 h)]
  have hs := (stallSync_does u k.core k.seq).1
  generalize u.stallSync k.core k.seq = S at hs
  obtain ⟨cs, rfl⟩ : ∃ cs, S = { u with cores := cs } := ⟨_, hs⟩
  unfold State.releasedBy
  split <;> rfl

theorem get_satAdd (m : Store Nat) (n v b : Nat) : Store.get 0 (satAdd m n v) b =
    if b = n then min (2 ^ 64 - 1) (Store.get 0 m b + v) else Store.get 0 m b := by
  rw [satAdd, Store.get_set]
  split
  · next h => rw [h]
  · rfl

/-- A completed command is gone, and what it has done is done (R239, R240). -/
theorem ended_finish (u : State) (k : Cmd) (status prog bytes : Nat) (h : k.core < 288) :
    u.ended k status prog bytes (u.finish k status prog bytes) := by
  obtain ⟨hst, hother, hcore, hseq⟩ := stallSync_does u k.core k.seq
  rw [finish_eq u k status prog bytes h]
  generalize hS : (u.stallSync k.core k.seq).cores = cs
  have hco (n : Nat) : (u.stallSync k.core k.seq).core n = Store.get {} cs n := by rw [← hS]; rfl
  obtain ⟨hr, ho, hc⟩ := completes_does { u.releasedBy k with cores := cs, cmds := u.cmds.filter (·.id != k.id) } k status prog bytes
  have hget : ({ u.releasedBy k with cores := cs, cmds := u.cmds.filter (·.id != k.id) } : State).core k.core =
      (u.stallSync k.core k.seq).core k.core := (hco _).symm
  rw [hget] at hc
  have hout : (k.rel && hostScope k.scope) = true ↔ k.rel = true ∧ (k.scope = 10 ∨ k.scope = 11) := by
    simp [hostScope]
  generalize (State.completes _ k status prog bytes) = t at hr ho hc ⊢
  generalize (u.stallSync k.core k.seq).core k.core = d at hcore hseq hc
  obtain ⟨l, x, y, c, hots, rfl⟩ : ∃ l x y c hots, d = { u.core k.core with l := l, x := x, s := y, c := c, hots := hots } :=
    ⟨_, _, _, _, _, hcore⟩
  refine ⟨?_, fun hk => ?_, fun hk => ?_, fun n hn => ?_, ?_, fun q => ?_, fun b => ?_⟩
  · rw [hr]
    unfold State.releasedBy
    split <;> rfl
  · rw [hr, State.releasedBy, if_pos (hout.2 hk)]
    exact ⟨rfl, rfl, rfl⟩
  · rw [hr, State.releasedBy, if_neg (mt hout.1 hk)]
    exact ⟨rfl, rfl, rfl⟩
  · exact (ho n hn).trans ((hco n).symm.trans (hother n hn))
  · rw [hc]
    rfl
  · rw [hc]
    exact hseq q
  · rw [hc]
    exact get_satAdd (u.core k.core).hotb k.buf bytes b

end Sys2Proof.Machine

namespace Sys2Proof.Machine

/-! WINDOW_GRANT and the acknowledgements (R250, R251). -/

theorem windowGrant_eq (n w r : Nat) (g : Bool) (s : State) : exec (.windowGrant n w r g) s =
    .next ((s.setChan n { s.chan n with grant := some ⟨w, r, g, 0⟩ }).tookFlit (s.chan n).port) := rfl

theorem unacked_tookFlit (s : State) (p n : Nat) : (s.tookFlit p).unacked n = s.unacked n := rfl

section
variable {n : Nat} {st : AckOf} {s : State}

theorem acknowledgement_stray (h : s.unacked n = none) :
    exec (.acknowledgementOfPublication n st) s = .next (s.tookFlit (s.chan n).port) := by
  refine event_next (body := _) ?_
  rw [run_modify_bind, run_get_bind, unacked_tookFlit, h]
  rfl

variable {k : Cmd} (h : s.unacked n = some k)
include h

theorem acknowledgement_published (hk : k.kind = .chsend) (hs : st.code = 0) :
    exec (.acknowledgementOfPublication n st) s =
      .next ((s.tookFlit (s.chan n).port).finish k 0 0 k.g1.toNat) := by
  refine event_next (body := _) ?_
  rw [run_modify_bind, run_get_bind, unacked_tookFlit, h]
  simp only [hk, hs]
  rfl

theorem acknowledgement_failed (hk : k.kind = .chsend) (hs : st.code ≠ 0) :
    exec (.acknowledgementOfPublication n st) s =
      .next (((s.tookFlit (s.chan n).port).setChan n ((s.chan n).refused k.g1.toNat)).finish k st.code st.prog 0) := by
  refine event_next (body := _) ?_
  rw [run_modify_bind, run_get_bind, unacked_tookFlit, h]
  have hb : (st.code != stOK) = true := bne_iff_ne.2 hs
  have hn : ¬ st.code = stOK := hs
  simp only [hk, hb, hn]
  rfl

theorem acknowledgement_transfer (hk : k.kind = .coll) : exec (.acknowledgementOfPublication n st) s =
    .next ((s.tookFlit (s.chan n).port).setCmd { k with
      walk := { k.walk with sent := k.walk.sent.erase n, acked := k.walk.acked + 1 } }) := by
  refine event_next (body := _) ?_
  rw [run_modify_bind, run_get_bind, unacked_tookFlit, h]
  simp only [hk]
  rfl

end

/-! COLLECTIVE_FLIT (R253, R254). -/

section
variable {w : FlitWay} {cid off : Nat} {r : Bool} {l : List RByte} {s : State}

theorem collectiveFlit_accepted {t : State} (h : acceptMsg w.die ⟨cid, r, off, l, none, some w.chan⟩ s = .ok () t) :
    exec (.collectiveFlit w cid off r l) s = .next (t.tookFlit (t.chan w.chan).port) :=
  event_next (run_bind_ok h)

variable {d : Nat} {m : CollMsg} (h : s.walker d m.cid = none)
include h

theorem acceptMsg_holds (hr : (s.die d).held + m.payload.length ≤ 65536) :
    acceptMsg d m s = .ok () (s.modDie d fun x => { x with hold := x.hold ++ [m] }) := by
  simp only [acceptMsg, run_get_bind, h, acceptMsg.hold, if_neg (Nat.not_lt.2 hr)]
  rfl

theorem acceptMsg_waits (hr : ¬ (s.die d).held + m.payload.length ≤ 65536) :
    acceptMsg d m s = .error (.wait false) s := by
  simp only [acceptMsg, run_get_bind, h, acceptMsg.hold, if_pos (Nat.not_le.1 hr)]
  rfl

end

theorem collectiveFlit_waits {w : FlitWay} {cid off : Nat} {r : Bool} {l : List RByte} {s : State}
    (h : acceptMsg w.die ⟨cid, r, off, l, none, some w.chan⟩ s = .error (.wait false) s) :
    exec (.collectiveFlit w cid off r l) s = .next s := event_waits (run_bind_error h)

/-! Replays (R251, R291). -/

theorem negativeAcknowledgement_eq (p x : Nat) (s : State) : exec (.negativeAcknowledgement p x) s =
    .next (s.setPort p { s.port p with
      rx := (s.port p).rx + 1
      wire := (s.port p).wire ++ (s.port p).replay.dropWhile (·.seqNo != x)
      replayNo := x
      replays := if (s.port p).replayNo = x then (s.port p).replays + 1 else 1 }) := by
  have hq : (s.tookFlit p).port p = { s.port p with rx := (s.port p).rx + 1 } :=
    ((tookFlit_ports s p).2 p).trans (if_pos rfl)
  have he : exec (.negativeAcknowledgement p x) s = .next (let q := (s.tookFlit p).port p
    s.setPort p { q with
      wire := q.wire ++ q.replay.dropWhile (·.seqNo != x)
      replayNo := x
      replays := if q.replayNo = x then q.replays + 1 else 1 }) := rfl
  rw [he, hq]

/-- A channel of port `p` forgets what has arrived in part (R291). -/
def State.clearRx (p : Nat) (s : State) (n : Nat) : State :=
  if (s.chan n).port = p then s.setChan n { s.chan n with rxBytes := 0, rxFail := false } else s

theorem foldl_clearRx (p : Nat) (s : State) : ∀ N : Nat,
    (List.range N).foldl (State.clearRx p) s = { s with chans := ((List.range N).foldl (State.clearRx p) s).chans } ∧
    ∀ n, ((List.range N).foldl (State.clearRx p) s).chan n =
      if n < N ∧ (s.chan n).port = p then { s.chan n with rxBytes := 0, rxFail := false } else s.chan n
  | 0 => ⟨rfl, fun n => (if_neg fun h => absurd h.1 (Nat.not_lt_zero n)).symm⟩
  | N + 1 => by
    obtain ⟨hs, hc⟩ := foldl_clearRx p s N
    rw [List.range_succ, List.foldl_append, List.foldl_cons, List.foldl_nil]
    generalize (List.range N).foldl (State.clearRx p) s = t at hs hc
    have hN : t.chan N = s.chan N := (hc N).trans (if_neg fun h => absurd h.1 (Nat.lt_irrefl N))
    by_cases hp : (s.chan N).port = p
    · rw [State.clearRx, hN, if_pos hp]
      refine ⟨?_, fun n => ?_⟩
      · rw [hs]
        rfl
      rw [chan_setChan, hc]
      by_cases hn : n = N
      · subst hn
        rw [if_pos rfl, if_pos ⟨by omega, hp⟩]
      · have hb : (n < N + 1 ∧ (s.chan n).port = p) ↔ (n < N ∧ (s.chan n).port = p) := by omega
        simp only [hn, if_false, hb]
    · rw [State.clearRx, hN, if_neg hp]
      refine ⟨hs, fun n => (hc n).trans ?_⟩
      by_cases hn : n = N
      · subst hn
        rw [if_neg (fun h => hp h.2), if_neg (fun h => hp h.2)]
      · have hb : (n < N + 1 ∧ (s.chan n).port = p) ↔ (n < N ∧ (s.chan n).port = p) := by omega
        simp only [hb]

/-! PORT_DOWN (R240, R251, R291). -/

section
variable {p : Nat} {s : State}

theorem portDown_stays (h : (s.port p).replays < 16 ∨ (s.port p).trained = false) : exec (.portDown p) s = .next s := by
  have hb : (decide ((s.port p).replays < 16) || !(s.port p).trained) = true := by simpa using h
  refine event_next (body := _) ?_
  rw [run_get_bind, if_pos hb]
  rfl

/-- What a command that uses the port comes to. -/
def downCmd (k : Cmd) : Op Unit := if k.kind == .coll then endColl k stLINK k.walk.acked else finishCmd k stLINK 0 0

theorem portDown_falls (hr : 16 ≤ (s.port p).replays) (ht : (s.port p).trained = true) {v : State}
    (hv : forAll (s.cmds.filter fun k => s.usesPort k p) downCmd (s.setPort p { s.port p with trained := false }) = .ok () v) :
    exec (.portDown p) s = .next ((List.range 64).foldl (State.clearRx p) v) := by
  have hb : ¬ (decide ((s.port p).replays < 16) || !(s.port p).trained) = true := by
    rw [ht, decide_eq_false (Nat.not_lt.2 hr)]
    decide
  refine event_next (body := _) ?_
  rw [run_get_bind, if_neg hb, run_set_bind]
  exact run_bind_ok hv

theorem downCmd_other {k : Cmd} (hk : k.kind ≠ .coll) (u : State) : downCmd k u = .ok () (u.finish k stLINK 0 0) := by
  rw [downCmd, if_neg (by simpa using hk)]
  rfl

theorem downCmd_coll {k : Cmd} (hk : k.kind = .coll) {u u1 : State} {st : Nat}
    (h : putStatus16 k.agWalk k (addrAdd k.va0 0x44) (statusOf stLINK k.flags) u = .ok st u1) :
    downCmd k u = .ok () (u1.finish k st k.walk.acked (k.walk.acked * k.walk.tlen)) := by
  rw [downCmd, if_pos (by rw [hk]; rfl)]
  exact run_bind_ok h

end

end Sys2Proof.Machine

namespace Sys2Proof.Machine

/-! CALENDAR_SLOT_START (R182 to R187). -/

/-- A transfer without the parts that wait for a channel on which its core owns no slot (R184). -/
def State.cutParts (s : State) (c d ch : Nat) (y : Xfer) : Xfer :=
  { y with parts := y.parts.filter fun p => s.ownsSlot c d ch || !partOn d ch p.at_ }

theorem cutParts_owned {s : State} {c d ch : Nat} (h : s.ownsSlot c d ch = true) (l : List Xfer) :
    l.map (s.cutParts c d ch) = l := by
  refine (List.map_congr_left fun y _ => ?_).trans (List.map_id l)
  rw [State.cutParts, h]
  simp only [Bool.true_or, List.filter_true]
  rfl

/-- One core's parts on a channel dropped unless it owns a slot of it. -/
def State.dropIfUnowned (d ch : Nat) (s : State) (n : Nat) : State :=
  if s.ownsSlot (144 * d + n) d ch then s else s.dropParts (144 * d + n) fun p => partOn d ch p.at_

theorem foldl_dropIfUnowned (d ch : Nat) (s : State) : ∀ N : Nat,
    let t := (List.range N).foldl (State.dropIfUnowned d ch) s
    t = { s with cores := t.cores, cmds := t.cmds } ∧
    ∀ m, (t.core m).xfers = if 144 * d ≤ m ∧ m < 144 * d + N then (s.core m).xfers.map (s.cutParts m d ch) else (s.core m).xfers
  | 0 => ⟨rfl, fun m => (if_neg (by omega)).symm⟩
  | N + 1 => by
    obtain ⟨hs, hc⟩ := foldl_dropIfUnowned d ch s N
    rw [List.range_succ, List.foldl_append, List.foldl_cons, List.foldl_nil]
    generalize (List.range N).foldl (State.dropIfUnowned d ch) s = t at hs hc
    have ho : t.ownsSlot (144 * d + N) d ch = s.ownsSlot (144 * d + N) d ch := by rw [hs]; rfl
    have hN : (t.core (144 * d + N)).xfers = (s.core (144 * d + N)).xfers := (hc _).trans (if_neg (by omega))
    have hb (m : Nat) (hm : m ≠ 144 * d + N) : (144 * d ≤ m ∧ m < 144 * d + (N + 1)) ↔ (144 * d ≤ m ∧ m < 144 * d + N) := by omega
    intro t'
    by_cases hown : s.ownsSlot (144 * d + N) d ch = true
    · have ht : t' = t := if_pos (ho.trans hown)
      rw [ht]
      refine ⟨hs, fun m => ?_⟩
      by_cases hm : m = 144 * d + N
      · subst hm
        rw [if_pos (by omega), hN, cutParts_owned hown]
      · simp only [hb m hm]
        exact hc m
    · have ht : t' = t.dropParts (144 * d + N) fun p => partOn d ch p.at_ := if_neg (by rw [ho]; exact hown)
      refine ⟨?_, fun m => ?_⟩
      · rw [ht, hs]
        rfl
      · have hcore : t'.core m = if m = 144 * d + N then { t.core (144 * d + N) with
            xfers := (t.core (144 * d + N)).xfers.map fun x => { x with parts := x.parts.filter fun p => !partOn d ch p.at_ } }
            else t.core m := by
          rw [ht]
          exact core_modCore t (144 * d + N) m fun k => { k with
            xfers := k.xfers.map fun x => { x with parts := x.parts.filter fun p => !partOn d ch p.at_ } }
        rw [hcore]
        by_cases hm : m = 144 * d + N
        · subst hm
          rw [if_pos rfl, if_pos (by omega), hN]
          refine List.map_congr_left fun y _ => ?_
          rw [State.cutParts, Bool.eq_false_iff.2 hown]
          rfl
        · simp only [hb m hm, hm, if_false]
          exact hc m

/-! The owners of a calendar's slots (R184). -/

theorem rotation_slots (s : State) (ch : Nat) :
    s.rotation ch = (s.clock - s.start) / slotClocks ch / slotsOf ch := (Nat.div_div_eq_div_mul ..).symm

/-- A write of an owner that is in force by rotation `rot`. -/
def ownerDue (ch rot : Nat) (p : Nat × Nat × Byte × Nat) : Bool := p.1 == ch && decide (p.2.2.2 < rot)

theorem owner_of_noneDue {s : State} {d ch : Nat} (h : (s.die d).calPend.filter (ownerDue ch (s.rotation ch)) = []) (j : Nat) :
    s.owner d ch j = (s.die d).owner ch j := by
  have hn : (s.die d).calPend.filter (fun p => p.1 == ch && p.2.1 == j && p.2.2.2 < s.rotation ch) = [] := by
    rw [List.filter_eq_nil_iff] at h ⊢
    intro p hp hb
    refine h p hp ?_
    simp only [Bool.and_eq_true, ownerDue] at hb ⊢
    exact ⟨hb.1.1, hb.2⟩
  simp only [State.owner, hn]
  rfl

theorem find?_insert (k : Nat) (v : Byte) : ∀ m : Store Byte, (Store.insert k v m).find? (fun e => e.1 == k) = some (k, v)
  | [] => by simp [Store.insert]
  | (a, w) :: t => by
    unfold Store.insert
    split
    · simp
    · split
      · simp
      · next h => rw [List.find?_cons_of_neg (by simpa using fun e : a = k => h e.symm)]; exact find?_insert k v t

/-- What the writes in force make of the owners. -/
theorem owner_applied {x : Die} {ch rot slot : Nat} {v : Byte} {r : Nat} (hm : isMaint ch slot = false)
    (h : x.calPend.filter (ownerDue ch rot) = [(ch, slot, v, r)]) : (x.applyOwners ch rot).owner ch slot = v.toNat := by
  have hc : (x.applyOwners ch rot).calown = Store.insert (32 * ch + slot) v x.calown := by
    show (x.calPend.filter (ownerDue ch rot)).foldl _ _ = _
    rw [h]
    rfl
  rw [Die.owner, hm, hc, find?_insert]
  rfl

/-- `s` once slot `k` of channel `n` has begun: it is counted, the owners of earlier rotations are in force, and parts of cores
that own no slot any more are dropped. -/
def State.slotOpened (s : State) (d n k : Nat) : State :=
  ((s.modDie d fun x => { x with calSlots := Store.set 0 x.calSlots n (k + 1) }).modDie d
    (·.applyOwners n (k / slotsOf n))).dropUnowned d n

theorem slotOpened_does (s : State) (d n k : Nat) : let u := s.slotOpened d n k
    u = { s with dies := u.dies, cores := u.cores, cmds := u.cmds } ∧ (∀ m, m ≠ d → u.die m = s.die m) ∧
    u.die d = ({ s.die d with calSlots := Store.set 0 (s.die d).calSlots n (k + 1) } : Die).applyOwners n (k / slotsOf n) ∧
    ∀ j, j < 144 → (u.core (144 * d + j)).xfers = (s.core (144 * d + j)).xfers.map (u.cutParts (144 * d + j) d n) := by
  intro u
  generalize hv : (s.modDie d fun x => { x with calSlots := Store.set 0 x.calSlots n (k + 1) }).modDie d
    (·.applyOwners n (k / slotsOf n)) = v
  have hu : u = (List.range 144).foldl (State.dropIfUnowned d n) v := by rw [← hv]; rfl
  obtain ⟨hs, hc⟩ := foldl_dropIfUnowned d n v 144
  rw [← hu] at hs hc
  have hdie (m : Nat) : u.die m = v.die m := by rw [hs]; rfl
  have hown (c : Nat) : v.cutParts c d n = u.cutParts c d n := by
    have ho : u.ownsSlot c d n = v.ownsSlot c d n := by rw [hs]; rfl
    unfold State.cutParts
    rw [ho]
  refine ⟨?_, fun m hm => ?_, ?_, fun j hj => ?_⟩
  · rw [hs, ← hv]
    rfl
  · rw [hdie, ← hv, die_modDie, if_neg hm, die_modDie, if_neg hm]
  · rw [hdie, ← hv, die_modDie, if_pos rfl, die_modDie, if_pos rfl]
  · rw [hc, if_pos (by omega), hown, ← hv]
    rfl

section
variable {d n k : Nat} {cached : Option Nat} {s : State}

theorem calendarSlot_late (h : 144 ≤ n ∨ (s.clock - s.start) / slotClocks n < Store.get 0 (s.die d).calSlots n ∨
    (s.clock - s.start) % slotClocks n = 0) : exec (.calendarSlotStart d n cached) s = .next s := by
  have hb : (decide (144 ≤ n) || decide ((s.clock - s.start) / slotClocks n < Store.get 0 (s.die d).calSlots n) ||
      decide ((s.clock - s.start) % slotClocks n = 0)) = true := by
    simpa only [Bool.or_eq_true, decide_eq_true_eq, or_assoc] using h
  refine event_next (body := _) ?_
  rw [if_pos hb]
  rfl

theorem calendarSlot_runs (h : ¬ (144 ≤ n ∨ k < Store.get 0 (s.die d).calSlots n ∨ (s.clock - s.start) % slotClocks n = 0))
    (hk : (s.clock - s.start) / slotClocks n = k) {t : State} (ht : runSlot d n (k % slotsOf n) (s.start + k * slotClocks n) cached
      (s.slotOpened d n k) = .ok () t) : exec (.calendarSlotStart d n cached) s = .next t := by
  subst hk
  have hb : ¬ (decide (144 ≤ n) || decide ((s.clock - s.start) / slotClocks n < Store.get 0 (s.die d).calSlots n) ||
      decide ((s.clock - s.start) % slotClocks n = 0)) = true := by
    simpa only [Bool.or_eq_true, decide_eq_true_eq, or_assoc] using h
  refine event_next (body := _) ?_
  rw [if_neg hb, run_modify_bind, run_modify_bind]
  exact ht

end

section
variable (s : State) (d n k : Nat) (hk : (s.clock - s.start) / slotClocks n = k)
include hk

theorem slotOpened_noneDue : ((s.slotOpened d n k).die d).calPend.filter
    (ownerDue n ((s.slotOpened d n k).rotation n)) = [] := by
  obtain ⟨hrest, -, hdie, -⟩ := slotOpened_does s d n k
  have hclock : (s.slotOpened d n k).clock = s.clock := by rw [hrest]
  have hstart : (s.slotOpened d n k).start = s.start := by rw [hrest]
  have hrot : (s.slotOpened d n k).rotation n = k / slotsOf n := by
    rw [rotation_slots, hclock, hstart, hk]
  have hp : ((s.slotOpened d n k).die d).calPend = (s.die d).calPend.filter fun p => !ownerDue n (k / slotsOf n) p := by rw [hdie]; rfl
  rw [hrot, hp, List.filter_filter]
  exact List.filter_eq_nil_iff.2 fun p _ h => by simp at h

theorem slotOpened_owner {y : Nat × Nat × Byte × Nat} (hy : (s.die d).calPend.filter (ownerDue n (k / slotsOf n)) = [y])
    (hm : isMaint n y.2.1 = false) : (s.slotOpened d n k).owner d n y.2.1 = y.2.2.1.toNat := by
  obtain ⟨-, -, hdie, -⟩ := slotOpened_does s d n k
  obtain ⟨a, b, v, r⟩ := y
  have hmem : (a, b, v, r) ∈ (s.die d).calPend.filter (ownerDue n (k / slotsOf n)) := by rw [hy]; exact List.mem_singleton.2 rfl
  obtain rfl : a = n := by
    have := (List.mem_filter.1 hmem).2
    rw [ownerDue, Bool.and_eq_true, beq_iff_eq] at this
    exact this.1
  rw [owner_of_noneDue (slotOpened_noneDue s d a k hk), hdie]
  exact owner_applied hm hy

theorem slotOpened_owners (hy : (s.die d).calPend.filter (ownerDue n (k / slotsOf n)) = []) (j : Nat) :
    (s.slotOpened d n k).owner d n j = s.owner d n j := by
  obtain ⟨-, -, hdie, -⟩ := slotOpened_does s d n k
  have hs : (s.die d).calPend.filter (ownerDue n (s.rotation n)) = [] := by rw [rotation_slots, hk]; exact hy
  have hc : ((s.slotOpened d n k).die d).calown = (s.die d).calown := by
    rw [hdie]
    show ((s.die d).calPend.filter (ownerDue n (k / slotsOf n))).foldl _ _ = _
    rw [hy]
    rfl
  rw [owner_of_noneDue (slotOpened_noneDue s d n k hk), owner_of_noneDue hs, Die.owner, Die.owner, hc]

end

/-! What a slot carries (R183, R185, R187). -/

/-- A data slot without a part of its owner: a cached-class access, or directed refreshes (R183, R187). -/
def State.slotFree (u : State) (d ch : Nat) (cached : Option Nat) : State :=
  match cached with
  | some pa => if partOn d ch pa && !((u.die d).chan ch).holdsBack pa then u.modDie d (·.access ch pa)
    else u.modDie d (·.issueDrfm ch)
  | none => u.modDie d (·.issueDrfm ch)

/-- A free data slot whose cached-class access is held back, or that has none, issues directed refreshes. -/
theorem slotFree_issues {cached : Option Nat} {u : State} {d n : Nat}
    (h : cached = none ∨ ∃ pa, cached = some pa ∧ ((u.die d).chan n).holdsBack pa = true) :
    u.slotFree d n cached = u.modDie d (·.issueDrfm n) := by
  obtain rfl | ⟨pa, rfl, hb⟩ := h
  · rfl
  · exact if_neg (by rw [hb, Bool.not_true, Bool.and_false]; decide)

theorem slotFree_accesses {u : State} {d n pa : Nat} (hd : homeDie pa = d) (hn : chanOf pa = n)
    (hb : ((u.die d).chan n).holdsBack pa = false) : u.slotFree d n (some pa) = u.modDie d (·.access n pa) :=
  if_pos (by rw [partOn, hd, hn, hb, beq_self_eq_true, beq_self_eq_true]; rfl)

section
variable {d ch slot t0 : Nat} {cached : Option Nat} {u : State}

theorem runSlot_refresh (hm : isMaint ch slot = true) (hd : ((u.die d).chan ch).drfm = []) :
    runSlot d ch slot t0 cached u = .ok () (u.modDie d (·.refresh ch)) := by
  simp only [runSlot, run_get_bind, hm, hd]
  rfl

variable (hm : isMaint ch slot = false)
include hm

theorem runSlot_serves (ho : u.owner d ch slot < 144) {p : Nat × Part}
    (hp : u.partOf (144 * d + u.owner d ch slot) d ch (t0 + 1) = some p) : runSlot d ch slot t0 cached u =
      .ok () ((u.servePart (144 * d + u.owner d ch slot) p).modDie d (·.access ch p.2.at_)) := by
  simp only [runSlot, run_get_bind, hm, hp, Bool.false_or, decide_eq_false (Nat.not_le.2 ho)]
  rfl

variable (hp : 144 ≤ u.owner d ch slot ∨ u.partOf (144 * d + u.owner d ch slot) d ch (t0 + 1) = none)
include hp

theorem runSlot_free : runSlot d ch slot t0 cached u = .ok () (u.slotFree d ch cached) := by
  have hn : (if (false || decide (144 ≤ u.owner d ch slot)) = true then none
      else u.partOf (144 * d + u.owner d ch slot) d ch (t0 + 1)) = none := by
    rw [Bool.false_or]
    split
    · rfl
    · next h => exact hp.resolve_left (by simpa using h)
  simp only [runSlot, run_get_bind, hm, hn, Bool.false_eq_true, if_false]
  cases cached with
  | none => rfl
  | some pa => dsimp only [State.slotFree]; split <;> rfl

end

section
variable (x : Die) (n m : Nat)

theorem chan_setChannel (c : Channel) : (x.setChan n c).chan m = if m = n then c else x.chan m := Store.get_set ..

theorem refresh_does : x.refresh n = { x with chans := (x.refresh n).chans } ∧
    (x.refresh n).chan m = if m = n then { x.chan n with rows := [] } else x.chan m := ⟨rfl, chan_setChannel ..⟩

theorem issueDrfm_does : x.issueDrfm n = { x with
      chans := (x.issueDrfm n).chans
      drfmcnt := x.drfmcnt + BitVec.ofNat 32 (min 2 (x.chan n).drfm.length) } ∧
    (x.issueDrfm n).chan m = if m = n then { x.chan n with
      drfm := (x.chan n).drfm.drop 2, held := (x.chan n).held && decide (16 ≤ ((x.chan n).drfm.drop 2).length) } else x.chan m := by
  have hd : (x.chan n).drfm.drop (min 2 (x.chan n).drfm.length) = (x.chan n).drfm.drop 2 := by
    obtain h | h := Nat.le_total 2 (x.chan n).drfm.length
    · rw [Nat.min_eq_left h]
    · rw [Nat.min_eq_right h, List.drop_length, List.drop_of_length_le h]
  refine ⟨rfl, ?_⟩
  have hc : (x.issueDrfm n).chan m = (x.setChan n _).chan m := rfl
  rw [hc, chan_setChannel, hd]

end

/-! REFRESH_WINDOW (R186). -/

theorem get_unlisted {β : Type} (x : β) : ∀ {m : Store β} {k : Nat}, k ∉ m.map (·.1) → Store.get x m k = x
  | [], _, _ => rfl
  | (a, v) :: m, k, h => by
    rw [List.map_cons, List.mem_cons, not_or] at h
    rw [Store.get, if_neg (Ne.symm h.1), get_unlisted x h.2]

/-- A channel whose trackers are cleared. -/
def Channel.cleared (c : Channel) : Channel := { c with trackers := [] }

theorem get_cleared : ∀ {m : Store Channel}, (m.map (·.1)).Nodup → ∀ k,
    Store.get {} ((m.map fun e => (e.1, e.2.cleared)).filter (fun e => e.2 != {})) k = (Store.get {} m k).cleared
  | [], _, _ => rfl
  | (a, c) :: m, h, k => by
    rw [List.map_cons, List.nodup_cons] at h
    have ih := get_cleared h.2 k
    rw [List.map_cons, List.filter_cons]
    by_cases hk : a = k
    · subst hk
      rw [Store.get, if_pos rfl]
      split
      · rw [Store.get, if_pos rfl]
      · next hc => rw [ih, get_unlisted {} h.1, show c.cleared = {} by simpa using hc]; rfl
    · rw [Store.get, if_neg hk]
      split
      · rw [Store.get, if_neg hk, ih]
      · exact ih

section
variable {d : Nat} {s : State}

theorem refreshWindow_eq (d : Nat) (s : State) : exec (.refreshWindow d) s =
    .next (if (s.die d).windows < (s.clock - s.start) / 56000000 then s.modDie d fun x => { x with
      windows := (s.clock - s.start) / 56000000
      chans := (x.chans.map fun e => (e.1, e.2.cleared)).filter fun e => e.2 != {} } else s) := rfl

end

/-! LINE_MIGRATION (R175, R176). -/

section
variable {d line : Nat} {s : State} {r : LineRec} (hr : Store.get {} (s.die d).lines line = r)
include hr

theorem lineMigration_stays (h : r.count < 3 ∨ r.holder.getD (homeSlice (128 * line)) = quadSlice r.quad) :
    exec (.lineMigration d line) s = .next s := by
  subst hr
  have hb : (decide ((Store.get {} (s.die d).lines line).count < 3) || decide ((Store.get {} (s.die d).lines line).holder.getD
      (homeSlice (128 * line)) = quadSlice (Store.get {} (s.die d).lines line).quad)) = true := by
    simpa only [Bool.or_eq_true, decide_eq_true_eq] using h
  show execLineMigration d line s = _
  rw [execLineMigration, event_modify, if_pos hb]

theorem lineMigration_moves (h3 : 3 ≤ r.count) (hh : r.holder.getD (homeSlice (128 * line)) ≠ quadSlice r.quad)
    (hroom : (s.die d).lines.length < 4096 ∨ quadSlice r.quad = homeSlice (128 * line)) : exec (.lineMigration d line) s =
      .next (s.modDie d fun x => { x with
        lines := Store.set {} (s.die d).lines line { r with
          count := 0
          holder := if quadSlice r.quad = homeSlice (128 * line) then none else some (quadSlice r.quad)
          moved := (s.die d).fwdOrder }
        fwdOrder := x.fwdOrder + 1 }) := by
  subst hr
  have hb : ¬ (decide ((Store.get {} (s.die d).lines line).count < 3) || decide ((Store.get {} (s.die d).lines line).holder.getD
      (homeSlice (128 * line)) = quadSlice (Store.get {} (s.die d).lines line).quad)) = true := by
    simp only [Bool.or_eq_true, decide_eq_true_eq, not_or]
    exact ⟨Nat.not_lt.2 h3, hh⟩
  show execLineMigration d line s = _
  rw [execLineMigration, event_modify, if_neg hb]
  dsimp only
  have hfree : (decide (4096 ≤ ((s.die d).lines.filter fun e => e.2.holder.isSome &&
      homeSlice (128 * e.1) == homeSlice (128 * line) && e.1 != line).length) &&
      quadSlice (Store.get {} (s.die d).lines line).quad != homeSlice (128 * line)) = false := by
    rw [Bool.and_eq_false_iff, decide_eq_false_iff_not, bne_eq_false_iff_eq]
    exact hroom.imp_left fun h => Nat.not_le.2 (lt_of_le_of_lt (List.length_filter_le _ _) h)
  rw [hfree]
  split <;> rfl

end

/-! TILE_MOVE (R189, R190). -/

theorem tile_there {td : TDesc} {ver x : Nat} (hx : x < td.nt) (hv : td.vers = true → td.hasVersion ver = true) :
    ¬ (td.vers && !td.hasVersion ver || decide (td.nt ≤ x)) = true := by
  rw [decide_eq_false (Nat.not_le.2 hx), Bool.or_false, Bool.and_eq_true, Bool.not_eq_true']
  rintro ⟨h, hn⟩
  rw [hv h] at hn
  cases hn

section
variable {d ctx tid ver x : Nat} {lp : Bool} {s s1 s2 u : State} {td : TDesc} {v : Nat}
  (ht : tdesc d ctx tid s = .ok (.ok td) s1) (hx : x < td.nt) (hv : td.vers = true → td.hasVersion ver = true)
  (hver : (if td.vers then ver else 0) = v)
include ht hx hv hver

theorem tileMove_new (hf : s1.moves.find? (fun m => m.cmd == none && m.ctx == ctx && m.tensor == tid && m.ver == v && m.tile == x) = none)
    {t : Tte} (hr : readTte td v x s1 = .ok t s2) (hu : beginTileMove d ctx tid v x td t lp s2 = .ok () u) :
    exec (.tileMove d ctx tid ver x lp) s = .next u := by
  subst hver
  refine event_next ((run_bind_ok ht).trans ?_)
  dsimp only
  rw [if_neg (tile_there hx hv), run_get_bind, hf]
  exact (run_bind_ok hr).trans hu

/-- What the end of a move's copy leads to. -/
def moveGoesOn (ctx tid x : Nat) (td : TDesc) (m : Move) : Copied → Op Unit
  | .again => pure ()
  | .gone => moveAbandoned m.die ctx tid x (6 ≤ m.newPool)
  | .whole t => swapFrame m td t (m.newPool / 6) 0

theorem tileMove_more {m : Move} (hf : s1.moves.find? (fun m => m.cmd == none && m.ctx == ctx && m.tensor == tid && m.ver == v && m.tile == x) = some m)
    {r : Copied} (hr : endCopy m td s1 = .ok r s2) (hu : moveGoesOn ctx tid x td m r s2 = .ok () u) :
    exec (.tileMove d ctx tid ver x lp) s = .next u := by
  subst hver
  refine event_next ((run_bind_ok ht).trans ?_)
  dsimp only
  rw [if_neg (tile_there hx hv), run_get_bind, hf]
  refine (run_bind_ok hr).trans (Eq.trans ?_ hu)
  cases r <;> rfl

end

/-- A firmware move given up, told by mailbox when it was a demotion (R190). -/
theorem moveAbandoned_run (die ctx tid x : Nat) (lp : Bool) (s : State) : moveAbandoned die ctx tid x lp s =
    .ok () (if lp then s.postUnit die 4 1 (tid + x * 2 ^ 32) 0 ctx else s) := by
  cases lp <;> rfl

section
variable {d ctx tid v x : Nat} {td : TDesc} {t : Tte} {lp : Bool} {s : State}

theorem beginTileMove_unfit (h : ¬ (t.bad = false ∧ t.accessible = true ∧ t.state = 0 ∧ t.tier ≠ if lp then 1 else 0)) :
    beginTileMove d ctx tid v x td t lp s = .ok () s := by
  have hb : (t.bad || !t.accessible || t.state != 0 || t.tier == bitAt lp 0) = true := by
    by_contra hn
    simp only [Bool.not_eq_true, Bool.or_eq_false_iff, Bool.not_eq_false', bne_eq_false_iff_eq, beq_eq_false_iff_ne] at hn
    obtain ⟨⟨⟨h1, h2⟩, h3⟩, h4⟩ := hn
    exact h ⟨h1, h2, h3, h4⟩
  rw [beginTileMove, if_pos hb]
  rfl

variable (h : t.bad = false ∧ t.accessible = true ∧ t.state = 0 ∧ t.tier ≠ if lp then 1 else 0)
include h

theorem tile_fits : ¬ (t.bad || !t.accessible || t.state != 0 || t.tier == bitAt lp 0) = true := by
  obtain ⟨h1, h2, h3, h4⟩ := h
  have ht : (t.tier == bitAt lp 0) = false := beq_eq_false_iff_ne.2 h4
  rw [h1, h2, h3, ht]
  decide

theorem beginTileMove_barred (hb : (lp = true ∧ t.pin = true) ∨ t.shx = true ∨ t.refcnt ≠ 1) :
    beginTileMove d ctx tid v x td t lp s =
      .ok () (if lp then s.postUnit d 4 1 (tid + x * 2 ^ 32) 0 ctx else s) := by
  have hb : (lp && t.pin || t.shx || t.refcnt != 1) = true := by
    simpa only [Bool.or_eq_true, Bool.and_eq_true, bne_iff_ne, or_assoc] using hb
  rw [beginTileMove, if_neg (tile_fits h), if_pos hb, moveAbandoned_run]

variable (hb : ¬ ((lp = true ∧ t.pin = true) ∨ t.shx = true ∨ t.refcnt ≠ 1))
include hb

omit h in
theorem tile_free : ¬ (lp && t.pin || t.shx || t.refcnt != 1) = true := by
  simpa only [Bool.or_eq_true, Bool.and_eq_true, bne_iff_ne, or_assoc] using hb

theorem beginTileMove_empty {u : State} (hp : s.popFrame d (6 * (if lp then 1 else 0) + td.tlog) = (none, u)) :
    beginTileMove d ctx tid v x td t lp s =
      .ok () (if lp then u.postUnit d 4 1 (tid + x * 2 ^ 32) 0 ctx else u) := by
  have hp : s.popFrame d (poolOf (bitAt lp 0) td.tlog) = (none, u) := hp
  rw [beginTileMove, if_neg (tile_fits h), if_neg (tile_free hb), run_get_bind, hp]
  exact moveAbandoned_run d ctx tid x lp u

theorem beginTileMove_begins {f : Nat} {u w : State} (hp : s.popFrame d (6 * (if lp then 1 else 0) + td.tlog) = (some f, u))
    (hw : beginMove d ctx tid v x td t f (6 * (if lp then 1 else 0) + td.tlog) none u = .ok () w) :
    beginTileMove d ctx tid v x td t lp s = .ok () w := by
  have hp : s.popFrame d (poolOf (bitAt lp 0) td.tlog) = (some f, u) := hp
  rw [beginTileMove, if_neg (tile_fits h), if_neg (tile_free hb), run_get_bind, hp]
  exact hw

end

/-! OLD_FRAME_RELEASE (R189). -/

section
variable {d : Nat} {s : State}

theorem oldFrameRelease_none (h : (s.die d).oldFrames = []) : exec (.oldFrameRelease d) s = .next s := by
  show execOldFrameRelease d s = _
  rw [execOldFrameRelease, h]
  rfl

variable {f : OldFrame} {rest : List OldFrame} (h : (s.die d).oldFrames = f :: rest)
include h

theorem oldFrameRelease_waits (hb : s.reaches (f.frame * 4096) (32768 * 2 ^ (f.pool % 6)) = true) :
    exec (.oldFrameRelease d) s = .next s := by
  show execOldFrameRelease d s = _
  rw [execOldFrameRelease, h]
  dsimp only
  rw [event_modify, if_pos hb]

theorem oldFrameRelease_frees (hb : s.reaches (f.frame * 4096) (32768 * 2 ^ (f.pool % 6)) = false) :
    exec (.oldFrameRelease d) s =
      .next ((s.modDie d fun x => { x with oldFrames := rest }).pushFrame d f.pool f.frame) := by
  show execOldFrameRelease d s = _
  rw [execOldFrameRelease, h]
  dsimp only
  rw [event_modify, if_neg (by rw [hb]; decide)]

end

section
variable {s : State} {d k f : Nat}

theorem pushFrame_full (h : ((s.die d).pool k).cap ≤ ((s.die d).pool k).count) :
    s.pushFrame d k f = s.postUnit d 4 0 k f 0 := if_pos h

theorem pushFrame_room (h : ((s.die d).pool k).count < ((s.die d).pool k).cap) : let p := (s.die d).pool k
    s.pushFrame d k f = (s.publishN (p.base + 4 * p.count) 4 f).modDie d
      fun x => x.setPool k { p with count := p.count + 1 } := if_neg (Nat.not_le.2 h)

theorem pushFrame_does (h : ((s.die d).pool k).count < ((s.die d).pool k).cap) : let p := (s.die d).pool k
    let t := s.pushFrame d k f
    { s with mem := t.mem, poison := t.poison, pubs := t.pubs, npub := t.npub, hostDirty := t.hostDirty }.onlyDie d
      { s.die d with pools := (t.die d).pools } t ∧
    (∀ j, (t.die d).pool j = if j = k then { p with count := p.count + 1 } else (s.die d).pool j) ∧
    t.rd (p.base + 4 * p.count) 4 = f % 2 ^ 32 ∧
    ∀ b, b < p.base + 4 * p.count ∨ p.base + 4 * p.count + 4 ≤ b → t.byte b = s.byte b := by
  intro p t
  have ht : t = (s.publishN (p.base + 4 * p.count) 4 f).modDie d fun x => x.setPool k { p with count := p.count + 1 } :=
    pushFrame_room h
  have hdies (e : Nat) : (s.publishN (p.base + 4 * p.count) 4 f).die e = s.die e := by
    rw [State.publishN, publish_eq]
    rfl
  have hd : t.die d = (s.die d).setPool k { p with count := p.count + 1 } := by
    rw [ht, die_modDie, if_pos rfl, hdies]
  refine ⟨⟨?_, fun e he => ?_, ?_⟩, fun j => ?_, ?_, fun b hb => ?_⟩
  · rw [ht, State.publishN, publish_eq]
    rfl
  · rw [ht, die_modDie, if_neg he, hdies]
    rfl
  · rw [hd]
    rfl
  · rw [hd]
    exact Store.get_set ..
  · have hmem : t.mem = (s.publishN (p.base + 4 * p.count) 4 f).mem := by
      rw [ht]
      rfl
    exact (rd_of_mem hmem 4 _).trans (rd_publishN_same ..)
  · rw [ht]
    exact (byte_publishN ..).trans (if_neg (by omega))

end

end Sys2Proof.Machine

namespace Sys2Proof.Machine

theorem bne_eq_decide (e : Nat) : (e != 0) = decide (e ≠ 0) := by
  rw [Bool.eq_iff_iff, bne_iff_ne, decide_eq_true_iff]

/-- The flit that asks port `q`'s peer to send again (R251). -/
def nakFlit (q : Port) : Flit :=
  let f : Flit := ⟨q.tx % 65536, (q.rx + 65535) % 65536, flitNak, 0, 0, noHdr, clean (bytesOf (q.rx % 65536) 2), 0⟩
  { f with crc := Config.flitCrc f.bytes }

/-- The negative acknowledgement that a discarded flit is answered with (R251). -/
theorem nak_sent {p : Nat} {s : State} (ht : (s.port p).trained = true) : let q := s.port p
    let t := (s.setPort p { q with nacks := q.nacks + 1 }).sendFlit p flitNak 0 0 noHdr (clean (bytesOf (q.rx % 65536) 2))
    t = { s with ports := t.ports } ∧ (∀ j, j ≠ p → t.port j = s.port j) ∧ ∃ f : Flit,
      f = ⟨q.tx % 65536, (q.rx + 65535) % 65536, 5, 0, 0, ⟨0, 0, 0, 0⟩, (bytesOf (q.rx % 65536) 2).map fun b => (b, false),
        Config.flitCrc f.bytes⟩ ∧
      t.port p = { q with nacks := q.nacks + 1, tx := q.tx + 1, wire := q.wire ++ [f],
                          replay := (q.replay ++ [f]).drop (q.replay.length + 1 - 512) } := by
  intro q t
  have hq : (s.setPort p { q with nacks := q.nacks + 1 }).port p = { q with nacks := q.nacks + 1 } :=
    (port_setPort ..).trans (if_pos rfl)
  have ht' : t = _ := if_neg (show ¬ (!((s.setPort p { q with nacks := q.nacks + 1 }).port p).trained) = true by
    rw [hq]; simpa using ht)
  rw [hq] at ht'
  refine ⟨by rw [ht']; rfl, fun j hj => ?_, nakFlit q, rfl, ?_⟩
  · rw [ht', port_setPort, if_neg hj, port_setPort, if_neg hj]
  · rw [ht', port_setPort, if_pos rfl, List.length_append]
    rfl

theorem ringed_setChan (s s1 : State) (n e k : Nat) : (s.ringed s1 n e k).setChan n { s.chan n with rxBytes := 0, rxFail := false } =
    (let u := (s1.setChan n ((s.chan n).received e k)).setChan n { s.chan n with rxBytes := 0, rxFail := false }
     if e = 0 then u else u.sendAck n e ((s.chan n).rxBytes / 16)) := by
  unfold State.ringed
  dsimp only
  split
  · rfl
  · rw [sendAck_setChan (s1.setChan n ((s.chan n).received e k))]
    rw [chan_setChan, if_pos rfl]
    rfl

/-- Settles O59: each event by what it finds, through the lemmas on flits, completions, slots, lines, moves and frames. -/
theorem linkAndMemoryEvents : Obligations.LinkAndMemoryEvents := by
  unfold Obligations.LinkAndMemoryEvents
  refine ⟨?_, ?_, ?_, ?_, ?_, ?_, ?_, ?_, ?_, ?_⟩
  · intro p seqNo n off ok last h l s i q c next
    refine ⟨dataFlit_down, fun ht hn => ⟨_, dataFlit_discards ht hn, nak_sent ht⟩, fun ht hn he =>
      ⟨_, dataFlit_takes ht hn (takeData_disabled he), rfl, fun j hj => ((tookFlit_ports s p).2 j).trans (if_neg hj),
        ((tookFlit_ports s p).2 p).trans (if_pos rfl)⟩, fun ht hn he hf e s1 hw => ⟨fun hl => ?_, fun hl hb => ?_, fun hb hs => ?_⟩⟩
    · refine ⟨s1.setChan n (c.received e l.length), rfl, fun j hj => (chan_setChan ..).trans (if_neg hj), ?_,
        dataFlit_more ht hn he hf hw hl⟩
      rw [chan_setChan, if_pos rfl, TChan.received, bne_eq_decide]
    · refine ⟨(s1.setChan n (c.received e l.length)).setChan n { c with rxBytes := 0, rxFail := false }, rfl,
        fun j hj => ?_, (chan_setChan ..).trans (if_pos rfl), ?_⟩
      · rw [chan_setChan, if_neg hj, chan_setChan, if_neg hj]
      · refine (dataFlit_broken ht hn he hf hw hl fun h => hb ⟨h.1, hl, h.2⟩).trans ?_
        rw [ringed_setChan]
    · obtain ⟨h0, hl, hlen⟩ := hb
      refine ⟨(s1.setChan n (c.received 0 l.length)).setChan n (c.whole n h), rfl, fun j hj => ?_, ?_,
        dataFlit_whole ht hn he hf hw hl ⟨h0, hlen⟩ hs⟩
      · rw [chan_setChan, if_neg hj, chan_setChan, if_neg hj]
      · rw [chan_setChan, if_pos rfl, TChan.whole, ← hf]
        rfl
  · intro n w r g s p
    exact ⟨_, windowGrant_eq n w r g s, rfl, fun j hj => (chan_setChan ..).trans (if_neg hj), (chan_setChan ..).trans (if_pos rfl),
      fun j => (tookFlit_ports (s.setChan n _) p).2 j⟩
  · intro n st s i u
    refine ⟨acknowledgement_stray, fun k hk hc => ⟨fun hkind hs => ⟨_, acknowledgement_published hk hkind hs, ended_finish u k 0 0 _ hc⟩,
      fun hkind hs => ⟨u.setChan n ((s.chan n).refused k.g1.toNat), rfl, fun j hj => (chan_setChan ..).trans (if_neg hj),
        (chan_setChan ..).trans (if_pos rfl), _, acknowledgement_failed hk hkind hs, ended_finish _ k _ _ _ hc⟩,
      acknowledgement_transfer hk⟩⟩
  · intro w cid off r l s i m p room
    exact ⟨fun h hr => collectiveFlit_accepted (acceptMsg_holds h hr), fun h hr => collectiveFlit_waits (acceptMsg_waits h hr),
      fun t => collectiveFlit_accepted⟩
  · intro p x s q
    refine ⟨⟨_, negativeAcknowledgement_eq p x s, rfl, fun j hj => (port_setPort ..).trans (if_neg hj),
      (port_setPort ..).trans (if_pos rfl)⟩, portDown_stays, fun hr ht => ⟨s.setPort p { q with trained := false }, rfl,
        fun j hj => (port_setPort ..).trans (if_neg hj), (port_setPort ..).trans (if_pos rfl), ?_⟩⟩
    intro down users
    have hdown (v : State) (hv : forAll users downCmd (s.setPort p { q with trained := false }) = .ok () v) :
        Completes (.portDown p) s (down v) :=
      ⟨_, portDown_falls hr ht hv, foldl_clearRx p v 64⟩
    refine ⟨fun hu => hdown _ (by rw [hu]; rfl), fun k hu hc => ⟨fun hk => ⟨_, ended_finish _ k stLINK 0 0 hc,
      hdown _ (by rw [hu]; exact run_bind_ok (downCmd_other hk _))⟩, fun hk st u1 hst => ⟨_, ended_finish u1 k st _ _ hc,
        hdown _ (by rw [hu]; exact run_bind_ok (downCmd_coll hk hst))⟩⟩⟩
  · intro d n cached s i x clocks slots at_ k late due
    refine ⟨calendarSlot_late, fun hl => ⟨s.slotOpened d n k, ?_⟩⟩
    obtain ⟨hrest, hothers, hdie, hxfers⟩ := slotOpened_does s d n k
    have hchans : ((s.slotOpened d n k).die d).chans = x.chans := by rw [hdie]; rfl
    have hslots : ((s.slotOpened d n k).die d).calSlots = Store.set 0 x.calSlots n (k + 1) := by rw [hdie]; rfl
    have hpend : ((s.slotOpened d n k).die d).calPend = x.calPend.filter (fun y => !due y) := by rw [hdie]; rfl
    have hcount : ((s.slotOpened d n k).die d).drfmcnt = x.drfmcnt := by rw [hdie]; rfl
    have hchan (m : Nat) : ((s.slotOpened d n k).die d).chan m = x.chan m := by unfold Die.chan; rw [hchans]
    have hruns {t : State} (h : runSlot d n (k % slotsOf n) (s.start + k * slotClocks n) cached (s.slotOpened d n k) = .ok () t) :
        exec i s = .next t := calendarSlot_runs hl rfl h
    refine ⟨hrest, hothers, ?_, fun m hm => ?_, hchans, fun y => ?_, fun y hy _ => slotOpened_owner s d n k rfl hy,
      slotOpened_owners s d n k rfl, hxfers, fun hm hd => ?_, fun hm ho p hp => hruns (runSlot_serves hm ho hp), fun hm hp => ⟨?_, ?_⟩⟩
    · rw [hslots, Store.get_set, if_pos rfl]
    · rw [hslots, Store.get_set, if_neg hm]
    · rw [hpend, List.mem_filter, Bool.not_eq_true']
    · obtain ⟨hr, ho, hd'⟩ := modDie_onlyDie (s.slotOpened d n k) d (·.refresh n)
      refine ⟨_, hruns (runSlot_refresh hm hd), ⟨hr, ho, ?_⟩, ?_, fun m hm' => ?_⟩
      · rw [hd']; exact (refresh_does _ n n).1
      · rw [hd']; exact (refresh_does _ n n).2.trans (if_pos rfl)
      · rw [hd']; exact ((refresh_does _ n m).2.trans (if_neg hm')).trans (hchan m)
    · intro pa hc hh hch hb
      rw [hruns (runSlot_free hm hp), hc, slotFree_accesses hh hch hb]
    · intro hc
      obtain ⟨hr, ho, hd'⟩ := modDie_onlyDie (s.slotOpened d n k) d (·.issueDrfm n)
      refine ⟨_, by rw [hruns (runSlot_free hm hp), slotFree_issues hc], ⟨hr, ho, ?_⟩, ?_, fun m hm' => ?_⟩
      · rw [hd', ← hcount]; exact (issueDrfm_does _ n n).1
      · rw [hd']; exact (issueDrfm_does _ n n).2.trans (if_pos rfl)
      · rw [hd']; exact ((issueDrfm_does _ n m).2.trans (if_neg hm')).trans (hchan m)
  · intro d s n
    have he := refreshWindow_eq d s
    refine ⟨fun h => by rw [he, if_neg (Nat.not_lt.2 h)], fun h hn => ⟨_, by rw [he, if_pos h], ?_⟩⟩
    obtain ⟨hr, ho, hd⟩ := modDie_onlyDie s d fun x => { x with
      windows := n, chans := (x.chans.map fun e => (e.1, e.2.cleared)).filter fun e => e.2 != {} }
    refine ⟨⟨hr, ho, ?_⟩, fun c => ?_⟩
    · rw [hd]
    · rw [hd]
      exact get_cleared hn c
  · intro d line s x r home to_
    refine ⟨lineMigration_stays rfl, fun h3 hh hroom => ⟨_, lineMigration_moves rfl h3 hh hroom, ?_⟩⟩
    obtain ⟨hr, ho, hd⟩ := modDie_onlyDie s d fun y => { y with
      lines := Store.set {} x.lines line { r with
        count := 0, holder := if to_ = home then none else some to_, moved := x.fwdOrder }
      fwdOrder := y.fwdOrder + 1 }
    exact ⟨⟨hr, ho, hd.trans (congrArg (fun y : Die => { x with lines := y.lines, fwdOrder := x.fwdOrder + 1 }) hd.symm)⟩,
      fun m => (congrArg (fun y : Die => Store.get {} y.lines m) hd).trans (Store.get_set ..)⟩
  · intro d ctx tid ver x lp s s1 td i v mine ht hx hv tier pool stays
    refine ⟨fun hf t s2 hr => ⟨fun h => tileMove_new ht hx hv rfl hf hr (beginTileMove_unfit h),
      fun h hb => tileMove_new ht hx hv rfl hf hr (beginTileMove_barred h hb), fun h hb =>
        ⟨fun s3 hp => tileMove_new ht hx hv rfl hf hr (beginTileMove_empty h hb hp),
          fun f s3 s4 hp hs => tileMove_new ht hx hv rfl hf hr (beginTileMove_begins h hb hp hs)⟩⟩,
      fun m hf r s2 hr => ⟨?_, ?_, ?_⟩⟩
    · rintro rfl
      exact tileMove_more ht hx hv rfl hf hr rfl
    · rintro rfl
      refine (tileMove_more ht hx hv rfl hf hr (moveAbandoned_run ..)).trans ?_
      simp only [decide_eq_true_eq]
    · rintro t s3 rfl hs
      exact tileMove_more ht hx hv rfl hf hr hs
  · intro d s x
    refine ⟨oldFrameRelease_none, fun f rest h => ?_⟩
    intro p busy
    have hdie : (s.modDie d fun y => { y with oldFrames := rest }).die d = { x with oldFrames := rest } :=
      (die_modDie ..).trans (if_pos rfl)
    have hpool : ((s.modDie d fun y => { y with oldFrames := rest }).die d).pool f.pool = p := by rw [hdie]; rfl
    refine ⟨oldFrameRelease_waits h, fun hb hc => ?_, fun hb hc => ⟨_, oldFrameRelease_frees h hb, ?_⟩⟩
    · rw [oldFrameRelease_frees h hb, pushFrame_full (by rw [hpool]; exact hc)]
    · obtain ⟨⟨hr, ho, hd⟩, hpools, hrd, hbytes⟩ := pushFrame_does (d := d) (k := f.pool) (f := f.frame)
        (s := s.modDie d fun y => { y with oldFrames := rest }) (by rw [hpool]; exact hc)
      rw [hpool] at hrd hbytes
      rw [hdie] at hd
      have hother (e : Nat) (he : e ≠ d) : (s.modDie d fun y => { y with oldFrames := rest }).die e = s.die e :=
        (die_modDie ..).trans (if_neg he)
      refine ⟨⟨hr, fun e he => (ho e he).trans (hother e he), hd⟩, fun k => (hpools k).trans ?_, hrd, hbytes⟩
      rw [hpool, hdie]
      rfl

end Sys2Proof.Machine
